-- ==== Sys2Proof/Word.lean ====
section
/-! DEFINITION. The word types of the engine (R2, R4): bytes, register words, 64-bit quantities, slot counts. -/

namespace Sys2Proof

/-- One byte of memory. -/
abbrev Byte := BitVec 8
/-- A 16-bit field (format words, exit codes). -/
abbrev W16 := BitVec 16
/-- A reel count: a free-running count of slots modulo 2^24 (R65). -/
abbrev W24 := BitVec 24
/-- A register word (R4). -/
abbrev W32 := BitVec 32
/-- A 64-bit quantity: a register pair, a scalar register, an address (R4, R93). -/
abbrev W64 := BitVec 64
/-- A sampler key or counter, and the widest atomic operand (R355, R242). -/
abbrev W128 := BitVec 128

end Sys2Proof
end

