-- ==== Sys2Proof/Syntax.lean ====
section
/-! DEFINITION. The commands and events of the block: one constructor of `Instr` per row of spec/opcode_table.json, with
the operands the outside world supplies. A Lodon instruction row carries the director that executes it and its fields; an
event row carries what the environment answered; a register row carries the master and the value. -/

namespace Sys2Proof

/-- The fields of a Lodon instruction word below its opcode (R95). -/
structure IWord where
  dst  : BitVec 5
  sa   : BitVec 5
  sb   : BitVec 5
  desc : BitVec 4
  imm  : BitVec 37
  deriving DecidableEq, Repr

/-- A read that the check of a staged map makes (R54): its header, the rest of its bytes, or a table's descriptor. -/
inductive MapRead where
  | header
  | body
  | desc (table : Nat)
  deriving DecidableEq, Repr

/-- Where a windrow lane's storage met an uncorrectable error (R173). -/
inductive WrErr where
  | line (l : Fin 128)                        -- a line of the lane's two bales
  | store (bale : Fin 2) (slice : Fin 64)     -- the input or exponent store of the bag that owns a slice of a bale
  deriving DecidableEq, Repr

/-- How memory or a host link answered a request that was sent (R244, R251, R266, R389). -/
inductive ReadRes where
  | ok
  | uncorr        -- uncorrectable error on the device side
  | farTimeout    -- no far-tier response in time (R251)
  | hostRefused   -- Unsupported Request or Completer Abort (R266)
  | hostTimeout   -- host-side completion timeout (R266)
  | hostPoison    -- received poisoned TLP (R266)
  deriving DecidableEq, Repr

/-- A ticketed instruction in flight: its director and its ticket (R107). -/
structure Key where
  dir    : Fin 8
  ticket : W32
  deriving DecidableEq, Repr

/-- Whose write an acknowledgement answers, or whose work owns a storage location (R248, R389). -/
inductive Owner where
  | ticket (k : Key)
  | cmd (reel : Fin 64) (count : W24)
  | dirAcc (d : Fin 8)
  | takeFile
  | loader (piece : Option (BitVec 16))
  | engine
  deriving DecidableEq, Repr

/-- An error that internal storage meets (R389): a single-bit one; an uncorrectable one in storage that only copies memory, with the
address it copies; any other uncorrectable one, with the work that owns the location. -/
inductive StorageErr where
  | single
  | copy (addr : W64)
  | lost (owner : Owner)
  /-- a word of retained memory (R374) -/
  | retained (word : Fin 4096)
  deriving DecidableEq, Repr

/-- The blocks that have snapshot counters (R43, R145, R174, R199, R225, R253, R271, R295). -/
inductive CtrBlk where
  | grd | gln | wr | swp | ted | swd | mp | hc | zw
  deriving DecidableEq, Repr

/-- The three changing operations on a clapper (R342). -/
inductive ClpKind where
  | set | add | fetchAdd
  deriving DecidableEq, Repr

/-- An operation presented at a clapper bank by one of its twelve requesters (R354). -/
structure ClpPres where
  req     : Fin 12
  master  : Fin 64
  clapper : Fin 8192
  kind    : ClpKind
  val     : W64
  dst     : Option (Fin 8 × BitVec 5) := none
  peer    : Option (BitVec 8 × W32) := none
  cmd     : Option (Fin 64 × W24) := none
  deriving DecidableEq, Repr

/-- A heartbeat's fields (R302). -/
structure Beat where
  heathId : W16
  lead    : BitVec 8
  claim   : Bool
  pref    : Bool
  term    : W16
  mapVer  : W16
  beat    : Byte
  deriving DecidableEq, Repr

/-- A HELLO's content (R299, R317). -/
structure Hello where
  serial   : W64
  position : BitVec 8
  shape    : BitVec 22
  heathId  : W16
  pref     : Bool
  poolBase : W64
  poolSize : BitVec 10
  deriving DecidableEq, Repr

/-- A LOAD order's content (R312, R317). -/
structure LoadOrder where
  piece  : W16
  entry  : W32
  src    : W64
  len    : W64
  target : W64
  deriving DecidableEq, Repr

/-- Message bodies by type (R288, R317). -/
inductive ZBody where
  | readReq (sector : BitVec 58) (tier : BitVec 2) (sectorsM1 : BitVec 8)
  | readRsp (idx : BitVec 8) (denied uncorr : Bool) (data : List Byte)
  | write (addr : W64) (data : List Byte)
  | writeAck (status : BitVec 2)
  | streamReq (sector : BitVec 58) (tier : BitVec 2) (sectorsM1 : BitVec 6)
  | streamData (idx : BitVec 8) (denied uncorr : Bool) (data : List Byte)
  | clpOp (clapper : BitVec 13) (op : BitVec 2) (val : W64)
  | clpAck (denied : Bool)
  | heartbeat (b : Beat)
  | timeBase (time : W64) (lead : BitVec 8)
  | hello (h : Hello)
  | lead (position : BitVec 8) (term : W32)
  | failed (term : W32) (position : Option (BitVec 8)) (link : Option (BitVec 8 × BitVec 3))
  | linkDown (port : BitVec 3) (far : BitVec 8)
  | commit (version : W32) (len : W32) (crc : W32)
  | commitResult (version : W32) (reason : BitVec 4) (done : Bool)
  | load (o : LoadOrder)
  | loadStatus (piece : W16) (status : BitVec 2) (bytes : W64)
  | statusReq (term : W32)
  | reserved          -- a reserved type, or a nonzero rsv field
  deriving DecidableEq, Repr

/-- Where a message of another engine came in: the port, its virtual channel there, and whether it still takes up cells of that
port's receive buffer (R289, R291). -/
structure Arrival where
  port : Nat
  chan : Nat
  owes : Bool
  deriving DecidableEq, Repr

/-- A link message with its header fields (R288). `hop` marks a LINK_DOWN that was flooded for want of a route (R304); `arr`,
which no header carries, is set when the message is received. -/
structure ZMsg where
  vc    : Bool
  dst   : BitVec 8
  src   : BitVec 8
  seq   : W32
  body  : ZBody
  hop   : Bool := false
  arr   : Option Arrival := none
  deriving DecidableEq, Repr

/-- A received frame: its number, whether its FEC and its tag verified, and its messages (R284, R285). -/
structure ZFrame where
  num   : W64
  fecOk : Bool
  tagOk : Bool
  uncorrLanes : List (Fin 16)
  corrected   : Nat
  msgs  : List ZMsg
  deriving DecidableEq, Repr

/-- Lane-move control carried in a link control cell (R282, R284). -/
inductive MoveCtl where
  | none
  | request (lane : Fin 16)
  | ack (lane : Fin 16)
  | switchAt (lane : Fin 16) (frame : W64)
  deriving DecidableEq, Repr

/-- A detuning report (R279, R284): the far transmitter's modulator ring of a lane pair, measured in heater codes by its receiver,
and the least headroom of the reporting end's two rings. -/
structure Detune where
  pair  : Fin 18
  codes : Int
  head  : Fin 128
  deriving DecidableEq, Repr

/-- A link control cell, with what it announces for the payload cells after it (R284). -/
structure ZCtl where
  ack     : BitVec 48
  nak     : Bool
  keySw   : Bool
  swFrame : W64
  credits : List (BitVec 8)
  ctl     : MoveCtl
  reports : List Detune := []
  deriving DecidableEq, Repr

/-- What the receiver measures of a lane pair in one pilot block (R279): the signed detuning, in heater codes, of its own filter
ring and of the far transmitter's modulator ring. -/
structure Pilot where
  pair      : Fin 18
  rxDetune  : Int
  farDetune : Int
  deriving DecidableEq, Repr

/-- The waits a timeout ends (R345). -/
inductive WaitWho where
  | dir (d : Fin 8)
  | reel (n : Fin 64)
  deriving DecidableEq, Repr

/-- The stream read that a wide-port read serves (R228). -/
inductive WideUse where
  | stream (k : Key)                                    -- a unit's input stream
  | windowPage (page : BitVec 14)                       -- a host-window read-ahead fill
  deriving DecidableEq, Repr

/-- Every command and event of spec/opcode_table.json, in the table's order. -/
inductive Instr where
  /-- R360. -/
  | powerOnReset
  /-- R361; `low` is the length of the low level in always-on cycles. -/
  | leRstNAssert (low : Nat)
  /-- R362. -/
  | resetRelease
  /-- R366. -/
  | optionLoadAttemptEnd
  /-- R362. -/
  | pllLock
  /-- R375: the outcomes of the header, CRC and signature checks, and the image version. -/
  | firmwareCheckEnd (hdrOk crcOk sigOk : Bool) (version : W32)
  /-- R377. -/
  | clockFailure
  /-- R378: the estimate, the control-and-optics power, and the readings of the sensors in order, none where one gives no valid
  reading. -/
  | gafferEvaluation (power pFixed : Nat) (readings : List (Option Nat))
  /-- R380: the readings of the sensors. -/
  | thermalCapStep (readings : List (Option Nat))
  /-- R381. -/
  | holdLimitExpiry
  /-- R371. -/
  | blockRestartRequest (m : Fin 64) (v : W32)
  /-- R371. -/
  | blockIdle (b : Fin 10)
  /-- R371. -/
  | idleTimeoutExpiry (b : Fin 10)
  /-- R371. -/
  | blockRestartRelease (b : Fin 10)
  /-- R389: the unit's source class and instance, and the error. -/
  | internalStorageError (cls : BitVec 4) (inst : W16) (err : StorageErr)
  /-- R369. -/
  | optionAreaWriteEnd
  /-- R382: TMS held high for `tck` cycles of TCK. -/
  | tapReset (tck : Nat)
  /-- R382, R383: Update-DR, after a scan of the instruction register where there is one, with what was shifted in. -/
  | dbgRegUpdate (ir : Option Byte) (data off : W32) (write : Bool)
  /-- R382, R383: Capture-DR, after a scan of the instruction register where there is one. -/
  | dbgRegCapture (ir : Option Byte)
  /-- R6. -/
  | registerWrite (m : Fin 64) (off : BitVec 20) (v : W32)
  /-- R4. -/
  | registerAccessBadSize (m : Fin 64) (off : BitVec 20) (size : Nat) (write : Bool)
  /-- R399. -/
  | registerAccessNoTarget (m : Fin 64) (off : BitVec 20) (write : Bool)
  /-- R5. -/
  | pairLowWordRead (m : Fin 64) (off : BitVec 20)
  /-- R5. -/
  | pairHighWordWrite (m : Fin 64) (off : BitVec 20) (v : W32)
  /-- R353. -/
  | denyValidClear (m : Fin 64)
  /-- R350. -/
  | accCtlLock (m : Fin 64) (v : W32)
  /-- R353. -/
  | accDenyCntRead (m : Fin 64)
  /-- R389. -/
  | fltCorrRead (m : Fin 64)
  /-- R107. -/
  | dirStallRead (m : Fin 64) (d : Fin 8)
  /-- R346. -/
  | clpDroppedRead (m : Fin 64)
  /-- R43. -/
  | counterSnap (m : Fin 64) (b : CtrBlk) (v : W32)
  /-- R43. -/
  | counterClear (m : Fin 64) (b : CtrBlk) (v : W32)
  /-- R54. -/
  | mapCommit (m : Fin 64)
  /-- R54: the read of the check that met an uncorrectable error, if one did. -/
  | mapCheckEnd (bad : Option MapRead)
  /-- R233. -/
  | mapPinWalk
  /-- R56. -/
  | mapOldDrained
  /-- R59. -/
  | mapStagedBaseWrite (m : Fin 64) (v : W64)
  /-- R64: the entries whose home copy fails its own checks when it is read. -/
  | repCheck (m : Fin 64) (homeBad : List Nat)
  /-- R71. -/
  | reelDoorbell (m : Fin 64) (n : Fin 64) (v : W32)
  /-- R91. -/
  | reelCfgWrite (m : Fin 64) (n : Fin 64) (v : W32)
  /-- R91. -/
  | reelRdWrite (m : Fin 64) (n : Fin 64) (v : W32)
  /-- R91. -/
  | reelBaseWrite (m : Fin 64) (n : Fin 64) (v : W64)
  /-- R405. -/
  | mreelCfgWrite (m : Fin 64) (n : Fin 16) (v : W32)
  /-- R90. -/
  | mreelRdWrite (m : Fin 64) (n : Fin 16) (v : W32)
  /-- R89. -/
  | mreelLostRead (m : Fin 64) (n : Fin 16)
  /-- R76. -/
  | fetchGrant
  /-- R72: read `k` (0 the first read, 1 to 16 the re-reads) of the slot at `count` returns. -/
  | slotReadReturn (n : Fin 64) (count : W24) (k : Fin 17) (r : ReadRes)
  /-- R72. -/
  | slotReread (n : Fin 64) (count : W24) (k : Fin 17)
  /-- R78. -/
  | commandDispatch (n : Fin 64) (r : ReadRes)
  /-- R84. -/
  | commandComplete (n : Fin 64) (count : W24)
  /-- R79. -/
  | nopCommand (n : Fin 64)
  /-- R123. -/
  | launch (n : Fin 64)
  /-- R80. -/
  | inlineBag (n : Fin 64) (r : ReadRes)
  /-- R80. -/
  | copy (n : Fin 64) (r : ReadRes)
  /-- R80. -/
  | fenceCommand (n : Fin 64)
  /-- R80. -/
  | signal (n : Fin 64)
  /-- R80. -/
  | wait (n : Fin 64)
  /-- R345. -/
  | waitTimeout (w : WaitWho)
  /-- R320, R321: whether it arrived in the cycle of a TAKE's cut request. -/
  | takeNow (n : Fin 64) (same : Bool)
  /-- R81. -/
  | config (n : Fin 64)
  /-- R96. -/
  | nop (d : Fin 8) (w : IWord)
  /-- R96. -/
  | jmp (d : Fin 8) (w : IWord)
  /-- R96. -/
  | br (d : Fin 8) (w : IWord)
  /-- R96. -/
  | loop (d : Fin 8) (w : IWord)
  /-- R97. -/
  | call (d : Fin 8) (w : IWord)
  /-- R97. -/
  | ret (d : Fin 8) (w : IWord)
  /-- R98. -/
  | halt (d : Fin 8) (w : IWord)
  /-- R100: the extension word when the x bit is 1. -/
  | li (d : Fin 8) (w : IWord) (ext : Option W64)
  /-- R99. -/
  | add (d : Fin 8) (w : IWord)
  /-- R99. -/
  | sub (d : Fin 8) (w : IWord)
  /-- R99. -/
  | mul (d : Fin 8) (w : IWord)
  /-- R99. -/
  | and (d : Fin 8) (w : IWord)
  /-- R99. -/
  | or (d : Fin 8) (w : IWord)
  /-- R99. -/
  | xor (d : Fin 8) (w : IWord)
  /-- R99. -/
  | shl (d : Fin 8) (w : IWord)
  /-- R99. -/
  | shr (d : Fin 8) (w : IWord)
  /-- R101. -/
  | ld (d : Fin 8) (w : IWord)
  /-- R101: the director's oldest load returns. -/
  | ldDataReturn (d : Fin 8) (r : ReadRes)
  /-- R101: `r` is how the fill of a partly covered sector was answered (R228). -/
  | st (d : Fin 8) (w : IWord) (r : ReadRes)
  /-- R125. -/
  | instructionFetchReturn (d : Fin 8) (r : ReadRes)
  /-- R105. -/
  | dld (d : Fin 8) (w : IWord)
  /-- R106. -/
  | dset (d : Fin 8) (w : IWord)
  /-- R112. -/
  | stage (d : Fin 8) (w : IWord) (ext : W64)
  /-- R232. -/
  | pin (d : Fin 8) (w : IWord)
  /-- R232: how the fills were answered; `failAt` is the line whose fill failed. -/
  | pinRetire (k : Key) (failAt : Option Nat)
  /-- R133. -/
  | uniq (d : Fin 8) (w : IWord) (ext : W64)
  /-- R133: how its reads and its writes were answered. -/
  | uniqRetire (k : Key) (r wr : ReadRes)
  /-- R126. -/
  | glean (d : Fin 8) (w : IWord) (ext : W64)
  /-- R132: up to 128 positions; `r` is how the index, offset and weight reads of the last one were answered, `wrs` how the writes of
  plain output rows were, in order (ok past the list's end). -/
  | indexResolve (k : Key) (n : Fin 129) (r : ReadRes) (wrs : List ReadRes)
  /-- R135: the request of `pos` numbered `part` returns; `wrs` answers the writes of plain output rows, in order. -/
  | sectorReturn (k : Key) (pos part : Nat) (r : ReadRes) (wrs : List ReadRes)
  /-- R136. -/
  | gleanRetire (k : Key)
  /-- R141. -/
  | retryLimitExpiry (k : Key) (pos : Nat)
  /-- R121. -/
  | resume (d : Fin 8) (w : IWord)
  /-- R121. -/
  | skipel (d : Fin 8) (w : IWord)
  /-- R121. -/
  | fixel (d : Fin 8) (w : IWord)
  /-- R150. -/
  | pool (d : Fin 8) (w : IWord) (ext : W64)
  /-- R148: `r` is how the preload read was answered. -/
  | bagPlace (k : Key) (r : ReadRes)
  /-- R147; `lane` stores the record, and `err` is the uncorrectable error that its storage met (R173), if one did. -/
  | recordEntry (k : Key) (lane : Fin 64) (err : Option WrErr)
  /-- R149. -/
  | baleAccumulationStart (lane : Fin 64) (bale : Fin 2)
  /-- R155; `err` is the uncorrectable error that the lane's storage met (R173), if one did. -/
  | balePassEnd (lane : Fin 64) (bale : Fin 2) (err : Option WrErr)
  /-- R166: `r` is how the output writes were answered; `lane` and `err` as for RECORD_ENTRY. -/
  | bagDrain (k : Key) (bag : Nat) (r : ReadRes) (lane : Fin 64) (err : Option WrErr)
  /-- R152. -/
  | poolRetire (k : Key)
  /-- R180. -/
  | sweep (d : Fin 8) (w : IWord) (ext : W64)
  /-- R183. -/
  | sweepTilesTaken (k : Key)
  /-- R182. -/
  | queryLoad (k : Key) (r : ReadRes)
  /-- R179: how the reads of the two rows, and the writes of a plain SWEEP's scores, were answered. -/
  | sweepRowPair (k : Key) (group : Fin 64) (r0 r1 wr : ReadRes)
  /-- R188. -/
  | partialListAccept (tile : Fin 64)
  /-- R188. -/
  | thresholdUpdate (k : Key) (query : Nat)
  /-- R184. -/
  | sweepDeferLimit (k : Key) (entry : Nat)
  /-- R189. -/
  | sweepRetire (k : Key)
  /-- R190. -/
  | topk (d : Fin 8) (w : IWord) (ext : W64)
  /-- R192: how the reads of the exclusion lists were answered. -/
  | topkReserve (k : Key) (r : ReadRes)
  /-- R195. -/
  | topkWriteOut (k : Key) (rd wr : ReadRes)
  /-- R203: `r` is how the read of the state table's descriptor was answered (R204). -/
  | ted (d : Fin 8) (w : IWord) (ext : W64) (r : ReadRes)
  /-- R207: how the target-index read and the record write were answered. -/
  | contributionRecord (k : Key) (rd wr : ReadRes)
  /-- R209. -/
  | tedRetire (k : Key)
  /-- R210. -/
  | opt (d : Fin 8) (w : IWord) (ext : W64)
  /-- R216: the lane claims row `row` of the OPT `k`; `r` is how the read of the parameter block was answered, at its first. -/
  | rowClaim (k : Key) (lane : Fin 16) (row : Nat) (r : ReadRes)
  /-- R216: how the reads of record, row and state row, and the home write, were answered. -/
  | rowStep (lane : Fin 16) (rec row st wr : ReadRes)
  /-- R220. -/
  | tedderRowWaitLimit (k : Key) (row : Nat)
  /-- R21. -/
  | tapAccept (lane : Fin 16)
  /-- R216. -/
  | rowRelease (lane : Fin 16)
  /-- R222: how the read of the parameter block, for a set without rows, and the summary write were answered. -/
  | optRetire (k : Key) (rd wr : ReadRes)
  /-- R113. -/
  | qnt (d : Fin 8) (w : IWord) (ext : W64)
  /-- R357. -/
  | sample (d : Fin 8) (w : IWord) (ext : W64)
  /-- R114. -/
  | cwait (d : Fin 8) (w : IWord)
  /-- R114. -/
  | csig (d : Fin 8) (w : IWord)
  /-- R114. -/
  | cadd (d : Fin 8) (w : IWord)
  /-- R111. -/
  | waitt (d : Fin 8) (w : IWord)
  /-- R115. -/
  | fence (d : Fin 8) (w : IWord)
  /-- R319. -/
  | take (d : Fin 8) (w : IWord)
  /-- R331. -/
  | digest (d : Fin 8) (w : IWord) (ext : W64)
  /-- R117. -/
  | msg (d : Fin 8) (w : IWord)
  /-- R343. -/
  | clpValCommit (m : Fin 64) (n : Fin 8192) (v : W64)
  /-- R343. -/
  | clpAddCommit (m : Fin 64) (n : Fin 8192) (v : W64)
  /-- R354: operations presented in this cycle, and the bank that serves one. -/
  | clapperBankOperation (bank : Fin 16) (pres : List ClpPres)
  /-- R358. -/
  | smpKeyCommit (m : Fin 64) (s : Fin 256) (v : W32)
  /-- R358. -/
  | smpCtrCommit (m : Fin 64) (s : Fin 256) (v : W32)
  /-- R242. -/
  | atomicSwap (m : Fin 64) (addr : W64) (size : Nat) (operand : W128) (r : ReadRes)
  /-- R242. -/
  | atomicCas (m : Fin 64) (addr : W64) (size : Nat) (new compare : W128) (r : ReadRes)
  /-- R242. -/
  | atomicAdd (m : Fin 64) (addr : W64) (size : Nat) (operand : W128) (r : ReadRes)
  /-- R242. -/
  | atomicAnd (m : Fin 64) (addr : W64) (size : Nat) (operand : W128) (r : ReadRes)
  /-- R242. -/
  | atomicOr (m : Fin 64) (addr : W64) (size : Nat) (operand : W128) (r : ReadRes)
  /-- R242. -/
  | atomicXor (m : Fin 64) (addr : W64) (size : Nat) (operand : W128) (r : ReadRes)
  /-- R242. -/
  | atomicSmin (m : Fin 64) (addr : W64) (size : Nat) (operand : W128) (r : ReadRes)
  /-- R242. -/
  | atomicSmax (m : Fin 64) (addr : W64) (size : Nat) (operand : W128) (r : ReadRes)
  /-- R242. -/
  | atomicUmin (m : Fin 64) (addr : W64) (size : Nat) (operand : W128) (r : ReadRes)
  /-- R242. -/
  | atomicUmax (m : Fin 64) (addr : W64) (size : Nat) (operand : W128) (r : ReadRes)
  /-- R242. -/
  | atomicFadd (m : Fin 64) (addr : W64) (size : Nat) (operand : W128) (r : ReadRes)
  /-- R242. -/
  | atomicLoad (m : Fin 64) (addr : W64) (size : Nat) (r : ReadRes)
  /-- R242. -/
  | atomicStore (m : Fin 64) (addr : W64) (size : Nat) (operand : W128) (r : ReadRes)
  /-- R242: a reserved operation code or size. -/
  | atomicInvalid (m : Fin 64) (code : BitVec 4) (addr : W64) (size : Nat)
  /-- R229: the fill of the miss entry of line `line` (a[63:7]) returns. -/
  | swardMissFill (line : BitVec 57) (r : ReadRes)
  /-- R234. -/
  | evictionDrainAck (slice : Fin 64)
  /-- R244: a failure at the location holding `line`, with the sectors that met an uncorrectable error. -/
  | swardLineFailure (slice : Fin 64) (set : Fin 1024) (way : Fin 20) (sec0Bad sec1Bad : Bool) (work : Option (Fin 64))
  /-- R237. -/
  | swardEnable (m : Fin 64) (v : W32)
  /-- R238. -/
  | swardDisable (m : Fin 64) (v : W32)
  /-- R238. -/
  | swardDisableEnd
  /-- R239. -/
  | invalidateAll (m : Fin 64)
  /-- R239. -/
  | writeBackAll (m : Fin 64)
  /-- R239. -/
  | flushAll (m : Fin 64)
  /-- R239. -/
  | writeBackRange (m : Fin 64)
  /-- R239. -/
  | invalidateRange (m : Fin 64)
  /-- R239. -/
  | flushRange (m : Fin 64)
  /-- R239. -/
  | maintComplete
  /-- R251: the sector of the unanswered request. -/
  | farTierTimeout (sector : BitVec 58) (wide : Bool) (work : Option (Fin 64))
  /-- R258. -/
  | hostWindowRead (off : BitVec 26) (len : Nat)
  /-- R255. -/
  | hostWindowWrite (off : BitVec 26) (data : List Byte)
  /-- R261. -/
  | pcieFetchadd (off : BitVec 26) (size : Nat) (operand : W128) (r : ReadRes)
  /-- R261. -/
  | pcieSwap (off : BitVec 26) (size : Nat) (operand : W128) (r : ReadRes)
  /-- R261. -/
  | pcieCas (off : BitVec 26) (size : Nat) (new compare : W128) (r : ReadRes)
  /-- R260. -/
  | hwBaseCommit (m : Fin 64) (v : W64)
  /-- R259. -/
  | raDrop (m : Fin 64)
  /-- R259. -/
  | hwCfgWrite (m : Fin 64) (v : W32)
  /-- R265. -/
  | copyTransferStart (ce : Fin 16)
  /-- R266: the next request of the running transfer completes, or an error ends it. -/
  | copyRequestResponse (ce : Fin 16) (r : ReadRes)
  /-- R267. -/
  | copyTransferComplete (ce : Fin 16)
  /-- R278. -/
  | portEnable (m : Fin 64) (p : Fin 8) (v : W32)
  /-- R276. -/
  | probeDetected (p : Fin 8) (n : Fin 18)
  /-- R278: the heater codes the two rings locked at. -/
  | ringLocked (p : Fin 8) (n : Fin 18) (txCode rxCode : BitVec 12)
  /-- R278. -/
  | equaliserTrained (p : Fin 8) (n : Fin 18)
  /-- R278. -/
  | portAlign (p : Fin 8)
  /-- R278. -/
  | bringUpTimeout (p : Fin 8) (n : Fin 18)
  /-- R276: the pairs whose receive power stayed below the loss threshold. -/
  | lossOfLight (p : Fin 8) (pairs : List (Fin 18))
  /-- R276. -/
  | shutRecovery (p : Fin 8) (n : Fin 18)
  /-- R279. -/
  | pilotBlock (p : Fin 8) (ps : List Pilot)
  /-- R282. -/
  | moveRequest (p : Fin 8) (lane : Fin 16)
  /-- R282. -/
  | laneSwitch (p : Fin 8) (lane : Fin 16)
  /-- R282. -/
  | moveTimeout (p : Fin 8) (lane : Fin 16)
  /-- R285. -/
  | frameReceive (p : Fin 8) (f : ZFrame)
  /-- R284. -/
  | linkControl (p : Fin 8) (c : ZCtl)
  /-- R286. -/
  | keyLoad (m : Fin 64) (v : W32)
  /-- R286. -/
  | keySwitch (m : Fin 64) (v : W32)
  /-- R286. -/
  | keyExhausted (p : Fin 8)
  /-- R143: the sectors of the request, counted from its first, that met an uncorrectable error. -/
  | readRequest (bad : List Nat)
  /-- R142: how the writes of plain output rows were answered, in order. -/
  | readResponse (wrs : List ReadRes)
  /-- R288. -/
  | write (r : ReadRes)
  /-- R288. -/
  | writeAcknowledgement
  /-- R184: the sectors of the run, counted from its first, that met an uncorrectable error. -/
  | streamRequest (bad : List Nat)
  /-- R184. -/
  | streamData
  /-- R346. -/
  | clapperOperation
  /-- R346. -/
  | clapperAcknowledgement
  /-- R293: the destination and class of the tracked message that had no answer in time. -/
  | e2eTimeout (dst : BitVec 8) (cls : Fin 3) (seq : W32)
  /-- R299. -/
  | join (m : Fin 64)
  /-- R299. -/
  | joinTimeout
  /-- R299: `port` is the port the HELLO arrived on. -/
  | hello (port : Fin 8)
  /-- R300. -/
  | lead
  /-- R302. -/
  | heartbeatPeriod
  /-- R302. -/
  | heartbeat
  /-- R303. -/
  | failed
  /-- R303. -/
  | failedRepeat
  /-- R304. -/
  | linkDown
  /-- R307. -/
  | timeBaseSend
  /-- R307: the path delay measured for the route at bring-up, in ns. -/
  | timeBase (delay : Nat)
  /-- R313. -/
  | rehome (m : Fin 64)
  /-- R312. -/
  | commit
  /-- R312. -/
  | commitResult
  /-- R312. -/
  | load
  /-- R312. -/
  | loadStatus
  /-- R315. -/
  | statusReq
  /-- R312. -/
  | rehomeReleaseCommit
  /-- R321. -/
  | tedderDrainEnd
  /-- R325. -/
  | fileClose
  /-- R327, R328: how the reads of the section were answered. -/
  | printCopy (r : ReadRes)
  /-- R324: 0 the main area, 1 the mirror area. -/
  | areaFull (mirror : Bool)
  /-- R324. -/
  | areaFreeWrite (m : Fin 64) (mirror : Bool) (v : W32)
  /-- R335. -/
  | loadPosition (m : Fin 64) (v : W32)
  /-- R335. -/
  | applyTake (m : Fin 64) (v : W32)
  /-- R337. -/
  | setScheduleState (m : Fin 64) (v : W32)
  /-- R336: how the loader's other reads and its writes, its reads of the main copy and its reads of the mirror were answered. -/
  | loaderOperationEnd (r main mir : ReadRes)
  /-- R323. -/
  | tkCtlWrite (m : Fin 64) (v : W32)
  /-- R248. -/
  | memoryWriteAck (o : Owner)
  /-- R249. -/
  | regulatorCreditRefill
  /-- R369: the first 1,020 bytes of the copy as the carrier supplies them. -/
  | managementOptionWrite (image : List Byte)
  /-- R105. -/
  | descriptorReadReturn (d : Fin 8) (r : ReadRes)
  /-- R228. -/
  | wideReadReturn (u : WideUse) (r : ReadRes)
  /-- R113: how the reads and the writes were answered. -/
  | qntRetire (k : Key) (rd wr : ReadRes)
  /-- R331. -/
  | digestRetire (k : Key) (rd wr : ReadRes)
  /-- R358. -/
  | sampleRetire (k : Key) (wr : ReadRes)
  /-- R64. -/
  | replicaReloadEnd (entry rep : Nat)
  deriving DecidableEq, Repr

end Sys2Proof
end

