-- ==== Sys2Proof/Decode.lean ====
section
/-! DEFINITION. The decoder of the table's words. The rows of spec/opcode_table.json are commands and events of a block and give
no bits, so no word spells a command. (What a director reads from an instruction word is in Machine/DirOps.lean and
Machine/DirInsns.lean; the words of a reel's slots are read in Machine/Reels.lean.) -/

namespace Sys2Proof

/-- The command that a word of `nbits` bits spells: none, since no row gives bits. -/
def decodeTableWord (_nbits _w : Nat) : Option Instr := none

end Sys2Proof
end

