-- ==== Sys2Proof/Config.lean ====
section
/-! DEFINITION. What the model leaves free: constants with no body. A statement about them holds whatever they are. -/

namespace Sys2Proof.Config

/-- Free bits for an effect that may or may not have happened, applied to a counter that the machine advances: the
sectors of a failed inline payload that were written (R228), the bytes a failed transfer leaves past its failing page
(R266). -/
opaque freeBit : Nat → Bool

/-- exp_nta of an argument so close to a rounding boundary that the model's interval arithmetic cannot decide the correctly
rounded FP32 value (R162). Applied to the argument's numerator and denominator. -/
opaque expBoundary : Int → Nat → W32

end Sys2Proof.Config
end

