-- ==== Sys2Proof/Machine/Num.lean ====
section
/-! DEFINITION. The exact values the engine computes on between a decode and an encode (R24, R27 to R30): NaN, the two
infinities, and signed exact rationals (so that a zero keeps its sign). -/

namespace Sys2Proof.Machine

/-- An exact value. A NaN's sign matters only until an operation touches it (R29). The magnitude of a finite value is
never negative. -/
inductive XVal where
  | nan (neg : Bool)
  | inf (neg : Bool)
  | fin (neg : Bool) (mag : Rat)
  deriving DecidableEq, Repr

end Sys2Proof.Machine
end

