-- ==== Sys2Proof/Machine/SMap.lean ====
section
/-! DEFINITION. Sparse tables over natural-number keys in ONE canonical form: keys strictly rising, and no entry equal to
the table's default. Memories, the clapper array, register arrays and ticket slots are such tables, so equal contents are
equal data. -/

namespace Sys2Proof

/-- A sparse table: the entries that differ from the table's default. -/
abbrev SMap (α : Type) := List (Nat × α)

namespace SMap

variable {α : Type}

/-- The value at a key: the entry's, or the default. -/
def get (dflt : α) : SMap α → Nat → α
  | [], _ => dflt
  | (k', v) :: m, k => if k = k' then v else get dflt m k

/-- Sets a key to a value that is not the default. -/
def insert (k : Nat) (v : α) : SMap α → SMap α
  | [] => [(k, v)]
  | (k', v') :: m =>
    if k < k' then (k, v) :: (k', v') :: m
    else if k = k' then (k, v) :: m
    else (k', v') :: insert k v m

/-- Sets a key back to the default. -/
def erase (k : Nat) (m : SMap α) : SMap α := List.filter (fun p => decide (p.1 ≠ k)) m

/-- Sets a key, keeping the canonical form. -/
def set [DecidableEq α] (dflt : α) (m : SMap α) (k : Nat) (v : α) : SMap α :=
  if v = dflt then m.erase k else m.insert k v

/-- Changes the value at a key. -/
def modify [DecidableEq α] (dflt : α) (m : SMap α) (k : Nat) (f : α → α) : SMap α :=
  m.set dflt k (f (m.get dflt k))

/-- Changes every listed value by a function that keeps the default. -/
def mapV [DecidableEq α] (dflt : α) (m : SMap α) (f : α → α) : SMap α :=
  List.filter (fun p => decide (p.2 ≠ dflt)) (List.map (fun p => (p.1, f p.2)) m)

/-- A key lies above a bound, where there is one. -/
def above : Option Nat → Nat → Bool
  | none, _ => true
  | some l, k => decide (l < k)

/-- The canonical form: keys strictly rising, each above `lo`, and no entry equal to the default. -/
def wfFrom [DecidableEq α] (dflt : α) : Option Nat → SMap α → Bool
  | _, [] => true
  | lo, (k, v) :: m =>
    above lo k && decide (v ≠ dflt) && wfFrom dflt (some k) m

/-- The canonical form of a whole table. -/
def wf [DecidableEq α] (dflt : α) (m : SMap α) : Bool := wfFrom dflt none m

end SMap

end Sys2Proof
end

