-- ==== Sys2Proof/Machine/State.lean ====
section
/-! DEFINITION. The state of the engine as plain data: every register, queue, buffer, counter and mode the spec gives it,
and the queue of commands that wait. Each field's docstring says which rule names it, how wide it is and what it holds
after reset; the field's default is that reset value. -/

namespace Sys2Proof.Machine

open Sys2Proof

/-! ### Memory -/

/-- A byte-addressed memory: the bytes that were written (R2). An unlisted byte reads `Memory.blank`. -/
abbrev Memory := List Host.Cell

/-- What a byte that nothing has written reads as. DESIGN CHOICE: log entry 2 (unsafe). -/
abbrev Memory.blank : Byte := 0

/-! ### The carrier fabric port -/

/-- One master's latch for one 64-bit pair (R5, R403): the high word latched by its last low-word read, and the low word
its last low-word write placed. -/
structure PairLatch where
  rd : Option W32 := none
  wr : Option W32 := none
  deriving DecidableEq, Repr

/-- The answer to the last register access (R4, R6, R352). -/
structure RegResp where
  master : Fin 64
  data   : W64
  deriving DecidableEq, Repr

/-- A register access (R4). -/
inductive RegAcc where
  | rd32 | rd64
  | wr32 (v : W32)
  | wr64 (v : W64)
  | bad (write : Bool)                     -- of another size or alignment
  deriving DecidableEq, Repr

/-- A register access that waits: a granted write to a restarting block, or a later access of the same master (R402, R401). -/
structure WaitAcc where
  master : Fin 64
  off    : Nat
  acc    : RegAcc
  passed : Bool                            -- it was checked and granted
  dbg    : Bool := false                   -- it came through DBG_REG (R383)
  cfg    : Option (Fin 64 × W24 × Nat) := none   -- the CONFIG command that made it: its reel, its count, which write (R81)
  deriving DecidableEq, Repr

/-- The register port (R4, R5, R401, R402). -/
structure Port where
  /-- R5, R403; per master and pair, keyed master × 2^20 + offset; reset: none -/
  latches : SMap PairLatch := []
  /-- R6, R352; the last access's answer, 64 bits; reset: none -/
  resp    : Option RegResp := none
  /-- R242; the last atomic's response code and returned value; reset: none -/
  atomic  : Option (BitVec 3 × W128) := none
  /-- R402, R401; accesses that wait, in arrival order; reset: none -/
  waiting : List WaitAcc := []
  deriving DecidableEq, Repr

/-! ### Counters (R43) -/

/-- A block's live counters and snapshot registers (R43); a counter is keyed by its number in the block's table. -/
structure Ctrs where
  /-- R43, R145, R174, R199, R225, R253, R271, R295; 32 bits; reset 0 -/
  ctl  : W32 := 0
  /-- R43; 64 bits each; reset 0 -/
  live : SMap W64 := []
  /-- R43; 64 bits each; reset 0 -/
  snap : SMap W64 := []
  deriving DecidableEq, Repr

/-! ### Access tables, denials, faults -/

/-- A region of an access table (R349). -/
structure Region where
  en    : Bool := false
  base  : W64 := 0
  limit : W64 := 0
  rd    : W64 := 0
  wr    : W64 := 0
  deriving DecidableEq, Repr

/-- The access block (R348 to R353). -/
structure Acc where
  /-- R350; 6 bits; reset 0, from options at the first configured state -/
  cfgMaster : BitVec 6 := 0
  /-- R350; 1 bit; reset 0 -/
  lock      : Bool := false
  /-- R350; 6 bits; reset 0, from options at the first configured state -/
  enforce   : BitVec 6 := 0
  /-- R353; 1 bit; reset 0 -/
  denyValid : Bool := false
  /-- R353 (LE_ACC_DENY_INFO); 32 bits; reset 0 -/
  denyInfo  : W32 := 0
  /-- R353; 64 bits; reset 0 -/
  denyAddr  : W64 := 0
  /-- R353; 32 bits, saturating; reset 0 -/
  denyCnt   : W32 := 0
  /-- R349; 6 × 8 regions keyed 8 × target + region; reset: all disabled and 0 -/
  regions   : SMap Region := []
  deriving DecidableEq, Repr

/-- The fault block (R389, R396). -/
structure Flt where
  /-- R396; 10 bits; reset 0 -/
  auto       : BitVec 10 := 0
  /-- R389; 1 bit; reset 0 -/
  storageErr : Bool := false
  /-- R396; 1 bit; reset 0 -/
  autoHeld   : Bool := false
  /-- R389; 32 bits, saturating; reset 0 -/
  corr       : W32 := 0
  /-- R396; when each block's last restart was asked for; reset: none -/
  last       : SMap (Option W64) := []
  deriving DecidableEq, Repr

/-- Where a block's restart stands (R371). -/
inductive RsSt where
  /-- asked to go idle, at a time, and by the work of a reel's command where a CONFIG asked (R87) -/
  | idleReq (since : W64) (work : Option (Fin 64))
  /-- held in reset for 64 cycles -/
  | inReset (expired : Bool) (work : Option (Fin 64))
  deriving DecidableEq, Repr

/-! ### Reels (R65 to R92) -/

/-- What the front end knows of a fetched slot (R72, R406). -/
inductive SlotSt where
  | reading                                               -- its first read is outstanding
  | rereading (issued returned : Nat) (last : Byte)       -- mismatched: re-reads issued and returned, stamp last seen
  | exhausted (last : Byte)                               -- all 16 re-reads returned without the expected lap
  | failed (kind : Byte)                                  -- denied (0), uncorrectable (1) or a host-side error (2)
  | got (bytes : List Byte)                               -- shows the expected lap
  deriving DecidableEq, Repr

/-- A slot in the command buffer (R75 to R77). -/
structure Slot where
  count : W24
  st    : SlotSt
  lost  : Bool := false                    -- its bytes met an uncorrectable error in the buffer (R389)
  deriving DecidableEq, Repr

/-- Where a dispatched command stands. -/
inductive CmdPhase where
  | ready                                                 -- dispatched; its unit has not acted yet
  | running                                               -- its unit works on it
  | done (status : Byte) (flags : BitVec 4) (detail : W32)
  deriving DecidableEq, Repr

/-- A dispatched command that has not completed (R68, R78, R84). -/
structure Cmd where
  count  : W24
  stamp  : Byte
  type   : Byte
  vis    : BitVec 3
  notify : Bool
  tag    : W32
  cHost  : Bool
  cAddr  : W64
  master : Fin 64
  body   : List Byte
  phase  : CmdPhase
  flushed : Bool := false  -- the flushing read of VIS 3 or of a FENCE's path 3 was sent (R267)
  after  : List (Fin 64 × W24) := []       -- FENCE: commands dispatched before it, within its scope (R80)
  deadline : Option W64 := none    -- WAIT: when its timeout expires (R345)
  dir    : Nat := 0        -- LAUNCH: the director it uses
  deriving DecidableEq, Repr

/-- A command reel (R65, R68, R91). -/
structure Reel where
  /-- R91 (LE_REEL_BASE); 64 bits, [11:0] zero; reset 0 -/
  base       : W64 := 0
  /-- R91 (LE_REEL_CFG); 32 bits; reset prio 7, credit 16 -/
  cfg        : W32 := 0x000201C0
  /-- R65; 24 bits; reset 0 (R92) -/
  wr         : W24 := 0
  /-- R65; 24 bits; reset 0 (R92) -/
  rd         : W24 := 0
  /-- R65; 24 bits; reset 0 (R92) -/
  done       : W24 := 0
  /-- R73; 1 bit; reset 0 -/
  halted     : Bool := false
  /-- R72; 1 bit; reset 0 -/
  torn       : Bool := false
  /-- R71; 1 bit; reset 0 -/
  overrun    : Bool := false
  /-- R75; 1 bit; reset 0 -/
  cfgRefused : Bool := false
  /-- R91; 1 bit; reset 0 -/
  cfgBusy    : Bool := false
  /-- R406; 1 bit; reset 0 -/
  fetchErr   : Bool := false
  /-- R75, R77; the slots held in the buffer, from RD on, at most 64; reset: none -/
  slots      : List Slot := []
  /-- R78; commands dispatched and not completed; reset: none -/
  inflight   : List Cmd := []
  /-- R76; consecutive grants it was passed over while eligible; reset 0 -/
  passed     : Nat := 0
  /-- R76; the grant at which it became aged; reset: none -/
  agedAt     : Option Nat := none
  deriving DecidableEq, Repr

/-- A message reel (R86 to R91, R405). -/
structure MReel where
  /-- R91 (LE_MREEL_BASE); 64 bits, [11:0] zero; reset 0 -/
  base       : W64 := 0
  /-- R91 (LE_MREEL_CFG); 32 bits; reset 0 -/
  cfg        : W32 := 0
  /-- R89; 24 bits; reset 0 -/
  wr         : W24 := 0
  /-- R89; 24 bits; reset 0 -/
  rd         : W24 := 0
  /-- R89; 32 bits; reset 0 -/
  lost       : W32 := 0
  /-- R90; 1 bit; reset 0 -/
  armed      : Bool := false
  /-- R91; 1 bit; reset 0 -/
  cfgBusy    : Bool := false
  /-- R405; 1 bit; reset 0 -/
  cfgRefused : Bool := false
  /-- R89; up to 64 records of bytes 1 to 31; reset: none -/
  held       : List (List Byte) := []
  deriving DecidableEq, Repr

/-- The reel front end (R65 to R92). -/
structure Front where
  /-- R65; 64 command reels; reset: each at its own reset -/
  reels   : SMap Reel := []
  /-- R86; 16 message reels; reset: each at its own reset -/
  mreels  : SMap MReel := []
  /-- R87 (LE_MSG_EVT_REEL); 4 bits; reset 0 -/
  evtReel : BitVec 4 := 0
  /-- R87; within a command: the reel whose command's work causes the events; reset: none, and none between commands -/
  cause   : Option (Fin 64) := none
  /-- R88; 32 bits for each source, keyed class × 256 + instance; reset 0 -/
  seqs    : SMap W32 := []
  /-- R90; interrupt vectors sent to the carrier, oldest first, 11 bits each; reset: none -/
  msi     : List (BitVec 11) := []
  /-- R76; grants made so far; reset 0 -/
  grants  : Nat := 0
  /-- R76; reel served last at each priority; reset 63 (log entry 5) -/
  last    : SMap Nat := []
  deriving DecidableEq, Repr

/-! ### Directors (R93 to R125) -/

/-- Kind tag of a descriptor register (R94). -/
inductive DKind where
  | empty | table | stream
  deriving DecidableEq, Repr

/-- A descriptor register (R94): its kind and its four words. -/
structure Desc where
  kind : DKind := .empty
  w    : BitVec 256 := 0
  deriving DecidableEq, Repr

/-- A load in flight (R101, R102). -/
structure LdReq where
  dst  : BitVec 5
  addr : W64
  size : Nat
  data : W64        -- what it loads: the bytes as they stood when it issued, before any later store (R102)
  pc   : W64        -- its own address, recorded if it faults
  deriving DecidableEq, Repr

/-- A DLD in flight (R105). -/
structure DldReq where
  desc  : BitVec 4
  table : Bool
  num   : Nat        -- table: the descriptor number
  addr  : W64
  count : Nat := 0   -- LE_TBL_COUNT when the load began (R45)
  deriving DecidableEq, Repr

/-- A ticket slot (R107, R111): the ticket it holds, and its status and flags once retired. -/
structure TSlot where
  ticket : W32
  out    : Option (Byte × BitVec 4)
  next   : Option W32 := none              -- the continuation of a stopped ticket (R121)
  deriving DecidableEq, Repr

/-- A stop record (R119). -/
structure Stop where
  elem   : BitVec 40
  val    : W64
  ticket : W32
  cause  : Byte
  table  : BitVec 12
  stream : Bool
  deriving DecidableEq, Repr

/-- Execution state of a director (LE_DIR_STATUS.state). -/
inductive DirSt where
  | idle | running | waiting | draining
  deriving DecidableEq, Repr

/-- What a waiting director waits for (R101, R105, R111, R114, R115). -/
inductive DirWait where
  | none
  | ticket (dst : BitVec 5) (t : W32)
  | allTickets (dst : BitVec 5)
  | clapper (dst : BitVec 5) (n : Fin 8192) (eq : Bool) (val : W64) (deadline : Option W64)
  | fetchAdd                              -- CADD presented at a bank and not served yet (R354)
  | load
  | desc (r : DldReq)
  | fence (paths : BitVec 4)
  deriving DecidableEq, Repr

/-- A director (R93 to R125). -/
structure Dir where
  /-- R111; 2 bits; reset idle -/
  st      : DirSt := .idle
  /-- R111, R114, R115; what it waits for; reset: nothing -/
  wait    : DirWait := .none
  /-- R93; s1 to s31, 64 bits each (s0 reads zero); reset 0 (log entry 4) -/
  regs    : SMap W64 := []
  /-- R94; d0 to d15, 256 bits and a kind each; reset: empty (log entry 4) -/
  descs   : SMap Desc := []
  /-- R95 (LE_DIR_PC); 64 bits; reset 0 -/
  pc      : W64 := 0
  /-- R97; up to 16 return addresses of 64 bits; reset: empty (log entry 4) -/
  stack   : List W64 := []
  /-- R107 (LE_DIR_TCOUNT); 32 bits; reset 0 -/
  tcount  : W32 := 0
  /-- R111; ticket count at the LAUNCH, 32 bits; reset 0 -/
  tLaunch : W32 := 0
  /-- R107; 256 ticket slots; reset: free -/
  slots   : SMap (Option TSlot) := []
  /-- R118; 1 bit; reset 0 -/
  faulted : Bool := false
  /-- LE_DIR_STATUS.wr_busy (R107); 1 bit; reset 0 -/
  wrBusy  : Bool := false
  /-- R118 (LE_DIR_FAULT.cause); 8 bits; reset 0 -/
  cause   : Byte := 0
  /-- R118 (LE_DIR_FAULT.detail); 8 bits; reset 0 -/
  detail  : Byte := 0
  /-- R120; unresolved stops, oldest first, at most 256; reset: none -/
  stops   : List Stop := []
  /-- R98 (LE_DIR_EXIT); 16 bits; reset 0 -/
  exit    : W16 := 0
  /-- R98; the exit code of the HALT that drains, 16 bits; reset 0 -/
  exitNext : W16 := 0
  /-- R107 (LE_DIR_STALL); 32 bits, saturating; reset 0 -/
  stall   : W32 := 0
  /-- R123; reel of the current or last LAUNCH, 6 bits; reset 0 -/
  reel    : Fin 64 := 0
  /-- R123; count of the LAUNCH's first slot, 24 bits; reset 0 -/
  count   : W24 := 0
  /-- R124; master of the program, 6 bits; reset 0 -/
  master  : Fin 64 := 0
  /-- R85; the OR of the flags of the program's tickets, 4 bits; reset 0 -/
  flags   : BitVec 4 := 0
  /-- R118; the LAUNCH ends with status fault; reset 0 -/
  bad     : Bool := false
  /-- R372; the LAUNCH ends with status aborted; reset 0 -/
  aborted : Bool := false
  /-- R123; the LAUNCH that reserved this director and has not set its state; reset: none -/
  reserved : Bool := false
  /-- R125; 16 KiB, 64-byte sectors keyed by address / 64; reset: invalid -/
  icache  : SMap (List Byte) := []
  /-- R125; sector addresses whose fetch is outstanding; reset: none -/
  fetch   : List W64 := []
  /-- R101; loads in flight, oldest first; reset: none -/
  lds     : List LdReq := []
  /-- R346; posted peer clapper operations not acknowledged; reset 0 -/
  peerOps : Nat := 0
  deriving DecidableEq, Repr

/-! ### Tables and the shard map (R45 to R64) -/

/-- A shard entry of an active map (R53). -/
structure Ent where
  firstRow  : Nat
  table     : Nat
  tier      : Nat
  home      : Nat
  rowCount  : Nat
  elemFirst : Nat
  hold      : Bool
  base      : W64
  elemCount : Nat
  stride4   : Nat
  nrep      : Nat
  repIdx    : Nat
  deriving DecidableEq, Repr

/-- A replica entry (R53). -/
structure Rep where
  base     : W64
  position : Nat
  tier     : Nat
  deriving DecidableEq, Repr

/-- An entry homed here, as a map places it, for a print or a comparison (R64, R327, R328): it stands for itself when a later map
moves it. -/
structure HomeEnt where
  ent   : Ent
  idx   : Nat                              -- its number in that map
  bytes : Nat                              -- B of a sub-row (R48)
  reps  : List Rep
  last  : W64                              -- print sequence of the last comparison that matched (R64)
  deriving DecidableEq, Repr

/-- A comparison of an entry's copies (R64, R328): it waits until no lane claims a row of the entry, then holds the claims of its
rows, with the home copy's sub-rows (none when it failed its own checks) and the sectors that peers sent, keyed
replica × 2^58 + sector (none: failed). -/
structure RepCmp where
  num   : Nat                              -- tells it from the other comparisons
  h     : HomeEnt
  bad   : Bool                             -- its home copy will fail its checks
  begun : Bool
  home  : Option (List Byte)
  seq   : W64                              -- print sequence
  work  : Option (Fin 64)                  -- reel of the command whose work it is (R87)
  got   : SMap (Option (Option (List Byte)))
  deriving DecidableEq, Repr

/-- The table block (R45 to R64). -/
structure MapSt where
  /-- R45; 64 bits, [11:0] zero; reset 0 -/
  tblBase    : W64 := 0
  /-- R45; 13 bits, 0 to 4,096; reset 0 -/
  tblCount   : Nat := 0
  /-- R59; 64 bits, [5:0] zero; reset 0 -/
  stagedBase : W64 := 0
  /-- R59; 64 bits; reset 0 -/
  activeBase : W64 := 0
  /-- R59; 32 bits; reset 0 -/
  activeVer  : W32 := 0
  /-- R54; a commit is being checked; reset 0 -/
  pending    : Bool := false
  /-- R312; the pending commit answers a COMMIT of the lead; reset 0 -/
  fromLead   : Bool := false
  /-- R56; requests under versions that a commit replaced have not all ended since; reset 0 -/
  oldWait    : Bool := false
  /-- R312; the lead is owed the done report of the active version; reset 0 -/
  oldLead    : Bool := false
  /-- R56; 1 bit; reset 0 -/
  done       : Bool := false
  /-- R54; 1 bit; reset 0 -/
  refused    : Bool := false
  /-- R59; 1 bit; reset 0 -/
  stagedBusy : Bool := false
  /-- R54; 4 bits; reset 0 -/
  reason     : BitVec 4 := 0
  /-- R57; the map cache: table index (first entry, count) by table; reset: unmapped -/
  index      : SMap (Nat × Nat) := []
  /-- R57; the map cache: shard entries in map order; reset: none -/
  ents       : List Ent := []
  /-- R57; the map cache: replica entries; reset: none -/
  reps       : List Rep := []
  /-- R57; the descriptors of mapped tables as the check read them, 256 bits each; reset 0 -/
  tabs       : SMap (BitVec 256) := []
  /-- R233; the tier-1 ranges of this position under the previous map (base, bytes); reset: none -/
  oldPins    : List (W64 × Nat) := []
  /-- R233; the walk after a commit or an enable has not finished; reset 0 -/
  pinWalk    : Bool := false
  /-- R64; comparisons under way; reset: none -/
  cmps       : List RepCmp := []
  /-- R64; replicas excluded until reloaded, as (entry, replica); reset: none -/
  excluded   : List (Nat × Nat) := []
  /-- R64; excluded replicas that a write of their reload did not reach, as (entry, replica); reset: none -/
  unloaded   : List (Nat × Nat) := []
  /-- R64; print sequence of the last comparison that matched, by entry, 64 bits; reset 0 -/
  matched    : SMap W64 := []
  deriving DecidableEq, Repr

/-! ### Ticketed work -/

/-- What every instruction in flight carries (R107, R110, R124). -/
structure Hdr where
  key    : Key
  prior  : Option W32
  master : Fin 64
  reel   : Fin 64
  count  : W24
  deriving DecidableEq, Repr

/-- A QNT in flight (R113). -/
structure QntJob where
  h   : Hdr
  src : BitVec 256
  dst : BitVec 256
  deriving DecidableEq, Repr

/-- The grader block (R42 to R44). -/
structure Grd where
  /-- R43; four counters (elements, clipped, zeroed, nan) and LE_GRD_CTL; reset 0 -/
  ctrs    : Ctrs := {}
  /-- R44; 1 bit; reset 0 -/
  clipHit : Bool := false
  /-- R44; 16 bits; reset 0 -/
  thresh  : W16 := 0
  /-- R113; QNTs in flight; reset: none -/
  qnts    : List QntJob := []
  deriving DecidableEq, Repr

/-! ### Gleaners (R126 to R145) -/

/-- Where a request stands (R135, R139, R141). -/
inductive PartSt where
  | held (since : W64) (ord : Nat)         -- in its gleaner's retry queue: since when, and its turn there
  | issued                                 -- outstanding at its place
  | got (data : List Byte)                 -- its bytes have arrived
  | dead                                   -- its element is lost, denied or uncorrectable
  deriving DecidableEq, Repr

/-- One request of an element: its element range, the place its bytes come from, and the map version it was routed
under (R134). -/
structure Part where
  id    : Nat                              -- its number within the element
  ent   : Nat                              -- map entry it was routed to (0 for a src = 1 gather)
  copy  : Nat                              -- 0 home, j + 1 the entry's replica j
  first : Nat                              -- first element of the piece, within the row
  cnt   : Nat
  pos   : Nat                              -- heath position of the copy
  tier  : Nat
  addr  : Nat
  bytes : Nat
  odd   : Bool                             -- its first element is the second nibble of its first byte
  ver   : W32
  st    : PartSt
  chunks : List (Nat × List Byte)          -- answered read requests to a peer: first sector, bytes
  bad   : Bool := false                    -- a read request to a peer was denied, or a sector of it uncorrectable
  due   : Bool := false                    -- a reroute found it a place, and the sward or a full gleaner keeps it from issuing
  deriving DecidableEq, Repr

/-- A resolved or held position of a gather (R134, R135). -/
structure Elem where
  pos      : Nat
  bag      : Nat
  val      : W64
  row      : Nat
  weight   : W32
  outc     : Byte
  parts    : List Part
  resolved : Bool
  gl       : Fin 64
  redo     : Bool                          -- a second delivery of a long bag (R168)
  deriving DecidableEq, Repr

/-- How a GLEAN's ticket will end, once everything below its frontier is done. -/
inductive GleanPhase where
  | active
  | stopped                                -- retired stopped, waiting for a resumption (R119)
  | discarding (status : Byte)             -- its consumer or program ended (R130): retires with that status
  | retired                                -- its ticket has retired; kept for its consumer
  deriving DecidableEq, Repr

/-- A GLEAN with its continuations (R126 to R142). -/
structure Glean where
  h        : Hdr
  root     : W32                           -- the first ticket of the continuation chain (R121)
  out      : Bool
  wts      : Bool
  bags     : Bool
  src      : Bool
  ff       : Bool
  srcD     : BitVec 256
  idxD     : BitVec 256
  offD     : BitVec 256
  wtD      : BitVec 256
  outD     : BitVec 256
  eFirst   : Nat
  w        : Nat
  next     : Nat                           -- next position to resolve
  bag      : Nat                           -- the bag it belongs to
  bagEnd   : Option Nat                    -- end of that bag once its offsets were read
  bagOffs  : List (Nat × Nat)              -- offsets of the bags read so far, oldest first
  total    : Option Nat                    -- one past the last position, once known
  elems    : List Elem
  consumer : Option Key
  phase    : GleanPhase
  fault    : Option (Nat × W64 × Byte)     -- lowest route-time fault: position, index value, cause (R137)
  iFault   : Option (Nat × Byte × Nat)     -- lowest instruction fault: position, cause, bag (R138)
  skip     : List Nat                      -- positions SKIPELs treat as padding (R121)
  fix      : List (Nat × W64)              -- positions and the indices FIXELs put in place, latest first (R121)
  redo     : List (Nat × Nat × Nat)        -- second deliveries asked for: bag, from, to (R168)
  denied   : Option (Nat × Nat)            -- first position and count of outcome 3 (R136)
  lost     : Option (Nat × Nat)            -- first position and count of outcome 4 (R136)
  flags    : BitVec 4
  dead     : Bool                          -- it retired fault or aborted
  told     : List Nat := []                -- positions whose uncorrectable-element message was posted (R136)
  outs     : List (Nat × Byte) := []       -- outcome bits of the positions handed over that were not plain
  deals    : List (Nat × Fin 64) := []     -- gleaners its groups of 16 positions went to, latest first (R140)
  deriving DecidableEq, Repr

/-- A UNIQ in flight (R133). -/
structure UniqJob where
  h    : Hdr
  tab  : BitVec 256
  inp  : BitVec 256
  out  : BitVec 256
  inv  : BitVec 256
  cnt  : W64
  deriving DecidableEq, Repr

/-- The gleaner block (R126 to R145). -/
structure Gln where
  /-- R145; six counters (sward, hbm, far, peer, serve, elements) and LE_GLN_CTL; reset 0 -/
  ctrs        : Ctrs := {}
  /-- R141; 1 bit; reset 0 -/
  limitHit    : Bool := false
  /-- R143; 1 bit; reset 0 -/
  serveDenied : Bool := false
  /-- R141; 20 bits; reset 0 -/
  retryLimit  : BitVec 20 := 0
  /-- R143; 6 bits; reset 0 -/
  peerMaster  : Fin 64 := 0
  /-- R126; GLEANs in flight, in acceptance order; reset: none -/
  gleans      : List Glean := []
  /-- R133; UNIQs in flight; reset: none -/
  uniqs       : List UniqJob := []
  /-- R140; the next gleaner a group goes to, 0 to 63; reset 0 (log entry 5) -/
  nextGl      : Nat := 0
  /-- R141; entries made into the retry queues so far: it orders them; reset 0 -/
  turns       : Nat := 0
  /-- R143; the serve buffers, 256 sectors each: the read requests of peers they hold, by gleaner, oldest first; reset: none -/
  serve       : List (Fin 64 × ZMsg) := []
  deriving DecidableEq, Repr

/-! ### Windrow (R146 to R175) -/

/-- A record of a retaining bag (R147): the position within the bag, its outcome bits, its weight, its gathered bytes. -/
structure Rec where
  pos    : Nat
  outc   : Byte
  weight : W32
  data   : List Byte
  deriving DecidableEq, Repr

/-- One accumulator (R154 to R157). -/
structure AccSt where
  e    : Int := 0
  s    : Int := 0
  nan  : Bool := false
  pinf : Bool := false
  ninf : Bool := false
  ovf  : Bool := false                     -- still overflowing after the third replay (R156)
  fp   : XVal := .fin false 0              -- FP32 mode (R158)
  deriving DecidableEq, Repr

/-- Where a bag stands in its bales. -/
inductive BagPhase where
  | filling | entered | passed | drained
  deriving DecidableEq, Repr

/-- A bag placed in the windrow (R146 to R172). -/
structure Bag where
  num     : Nat
  first   : Nat                            -- its first position
  n       : Nat                            -- its positions
  places  : List (Fin 64 × Fin 2)          -- lanes and bales that hold it, the home lane first
  seg     : Nat                            -- positions of a segment (R168); n where it is not long
  long    : Bool                           -- its records exceed a half (R168)
  twice   : Bool                           -- a wave bag that is delivered twice
  phase   : BagPhase
  entered : Nat                            -- records of this delivery entered so far
  redone  : Bool                           -- a second delivery has begun
  recs    : List Rec                       -- the input store's records
  scan    : List Rec                       -- twice: what the scan delivery left, without the data
  pre     : List XVal                      -- preload (R160)
  best    : List (List (XVal × Nat))       -- max, min, top-k: per element, values and positions kept
  slots   : List (Nat × List XVal)         -- concatenate: filled slots
  d       : Nat                            -- contributing positions (R153)
  nanExcl : Nat                            -- top-k NaN values excluded
  flags   : BitVec 12                      -- status bits [11:0] (R171)
  accs    : List AccSt
  replays : Nat
  bad     : Bool                           -- an uncorrectable windrow error affected it (R173)
  deriving DecidableEq, Repr

/-- A POOL in flight (R150). -/
structure PoolJob where
  h      : Hdr
  op     : Nat
  fp32   : Bool
  pre    : Nat
  k      : Nat
  oFirst : Nat
  a      : Nat
  outD   : BitVec 256
  posD   : BitVec 256
  preD   : BitVec 256
  fill   : W32
  w      : Nat
  q      : Nat                             -- bytes of a record (R147)
  nBags  : Nat
  bags   : List Bag
  next   : Nat                             -- next bag to place
  flags  : BitVec 4
  fault  : Bool
  nEl    : Nat                             -- elements it encoded (R44)
  nClip  : Nat                             -- of which clipped
  ovf    : List (Nat × Nat)                -- overflowing bags and their home lanes (R156)
  deriving DecidableEq, Repr

/-- What a bale is doing (R149). -/
inductive BaleSt where
  | filling | accum | draining
  deriving DecidableEq, Repr

/-- A bale (R146, R147): its step, and its bags (POOL, bag number). -/
structure Bale where
  st   : BaleSt := .filling
  replays : Nat := 0                       -- of its running pass (R155)
  bags : List (Key × Nat) := []
  deriving DecidableEq, Repr

/-- The windrow block (R146 to R175). -/
structure Wr where
  /-- R174; four counters (bags, replays, split, redeliv) and LE_WR_CTL; reset 0 -/
  ctrs     : Ctrs := {}
  /-- R156; 1 bit; reset 0 -/
  fallback : Bool := false
  /-- R173; 1 bit; reset 0 -/
  uncorr   : Bool := false
  /-- R163 (LE_WR_FILL); 32 bits; reset 0 -/
  fill     : W32 := 0
  /-- R150; POOLs in flight; reset: none -/
  pools    : List PoolJob := []
  /-- R146; 64 × 2 bales keyed 2 × lane + bale; reset: empty -/
  bales    : SMap Bale := []
  /-- R148; the next lane a bag goes to, 0 to 63; reset 0 (log entry 5) -/
  nextLane : Nat := 0
  /-- R168; the POOL whose long bag waits for free halves, so that no later bag is placed; reset: none -/
  waitLong : Option Key := none
  deriving DecidableEq, Repr

/-! ### Sweep (R176 to R200) -/

/-- A candidate: a score and its row (R188). -/
structure Cand where
  score : XVal
  row   : Nat
  deriving DecidableEq, Repr

/-- The copy a run streams from, as the map version `ver` placed it (R184). -/
structure RunCopy where
  num    : Nat                             -- 0 home, j + 1 the entry's replica j
  pos    : Nat
  tier   : Nat
  base   : Nat
  first  : Nat                             -- row at the base
  stride : Nat                             -- bytes
  ver    : W32
  deriving DecidableEq, Repr

/-- A run of rows of the range still to be scored by a group: rows of one entry, with the copy chosen for it once the
entry started to stream (R184). -/
structure Run where
  first : Nat
  cnt   : Nat
  ent   : Nat                              -- map entry; 65,536 where no entry makes the rows sweepable
  copy  : Option RunCopy
  deriving DecidableEq, Repr

/-- A SWEEP in flight (R180 to R189). -/
structure SweepJob where
  h        : Hdr
  out      : Bool
  qrot     : Bool
  src      : Bool
  filt     : Bool
  srcD     : BitVec 256
  filtD    : BitVec 256
  qD       : BitVec 256
  outD     : BitVec 256
  r0       : Nat
  n        : Nat
  t0       : Nat
  nt       : Nat
  ng       : Nat
  nq       : Nat
  topk     : Option Key
  tiles    : Bool                          -- it holds its tiles
  queries  : Option (List (List XVal))     -- the query store, once loaded
  todo     : List (List Run)               -- per group: runs to stream
  turn     : List Nat                      -- per group: the tile that takes the next pair (R179)
  deferred : List (Nat × Run × W64)        -- runs of a group that wait for a commit, and since when
  arrived  : SMap (Option (Option (List Byte))) -- sectors a peer streamed, keyed position × 2^58 + sector; none uncorrectable
  used     : List (Nat × Nat)              -- entries and copies it has read from
  badRows  : List Nat                      -- rows with an uncorrectable sector (R186)
  uncorr   : Bool
  div      : Bool
  lost     : Bool
  fault    : Bool
  ended    : Bool                          -- its ticket has retired; kept while the ticket names it
  deriving DecidableEq, Repr

/-- A tile's partial list and NaN count for one query (R188). -/
structure Partial where
  cands : List Cand := []
  nans  : Nat := 0
  tau   : Option XVal := none              -- threshold received; the starting one while none
  deriving DecidableEq, Repr

/-- A partial list waiting at the merge unit (R188). -/
structure SentList where
  sweep : Key
  query : Nat
  cands : List Cand
  nans  : Nat
  deriving DecidableEq, Repr

/-- A TOPK in flight (R190 to R196). -/
structure TopkJob where
  h       : Hdr
  mode1   : Bool
  exOn    : Bool
  floor   : Option W32
  k       : Nat
  q       : Nat
  dpos    : BitVec 8
  a       : Nat
  outD    : BitVec 256
  posD    : BitVec 256
  inD     : BitVec 256
  offD    : BitVec 256
  sweep   : Option Key
  reserved : Option Nat                    -- merge-store entries it holds
  excl    : SMap (List Nat)                -- exclusion lists, by query
  lists   : SMap (List Cand)
  nans    : SMap Nat
  swFlags : Option (Bool × Bool × Bool)    -- uncorr, replica_div, lost of the retired SWEEP
  dead    : Bool                           -- its SWEEP retired fault or aborted
  fault   : Bool                           -- a peer refused one of its output writes
  outs    : Option (List (Nat × List Byte)) -- once it writes to a peer: the writes not yet sent (R195)
  deriving DecidableEq, Repr

/-- The sweep block (R176 to R200). -/
structure Swp where
  /-- R199; four counters (rows, cand, hold, pace) and LE_SWP_CTL; reset 0 -/
  ctrs   : Ctrs := {}
  /-- R186; 1 bit; reset 0 -/
  uncorr : Bool := false
  /-- R184; 1 bit; reset 0 -/
  lost   : Bool := false
  /-- R18, R282; logical lanes on the move, as (port, lane); row issue is held while any is; reset: none -/
  moving : List (Fin 8 × Fin 16) := []
  /-- R381; when the hold in force began; reset: none -/
  holdAt : Option W64 := none
  /-- R381; the hold in force was reported; reset 0 -/
  holdReported : Bool := false
  /-- R180; SWEEPs in flight, in acceptance order; reset: none -/
  sweeps : List SweepJob := []
  /-- R190; TOPKs in flight, in acceptance order; reset: none -/
  topks  : List TopkJob := []
  /-- R188; the tiles' candidate stores keyed 65536 × tile + query; reset: empty -/
  parts  : SMap Partial := []
  /-- R188; partial lists waiting at the merge unit, up to 16 a tile; reset: none -/
  sent   : SMap (List SentList) := []
  /-- R188; full lists that wait in their tile for a place at the merge unit; reset: none -/
  full   : SMap (List SentList) := []
  deriving DecidableEq, Repr

/-! ### Tedder (R201 to R226) -/

/-- A directory entry of a set: a row, its chain's head and last record (in 16-byte units), its records (R207). -/
structure DirEnt where
  row  : Nat
  head : Nat
  last : Nat
  n    : Nat
  deriving DecidableEq, Repr

/-- An update set (R201). -/
structure TSet where
  opened   : Bool := false
  spoiled  : Bool := false
  cause    : W16 := 0
  tab      : BitVec 256 := 0
  stTab    : BitVec 256 := 0
  tFirst   : Nat := 0
  w        : Nat := 0
  area     : W64 := 0
  areaLen  : Nat := 0                      -- bytes
  used     : Nat := 0                      -- bytes appended
  fmts     : List (Nat × Nat) := []        -- from record offset (16-byte units), gradient format word; latest first
  ents     : List DirEnt := []
  dropped  : Nat := 0
  contrib  : Nat := 0
  div      : Bool := false
  deriving DecidableEq, Repr

/-- A TED in flight (R203). -/
structure TedJob where
  h      : Hdr
  set    : Fin 16
  tFirst : Nat
  w      : Nat
  tab    : BitVec 256
  stTab  : BitVec 256
  idxD   : BitVec 256
  areaD  : BitVec 256
  behind : List Key                        -- the OPTs of its set accepted before it and not retired (R202)
  joined : Bool                            -- it has opened or joined its set
  fault  : Bool                            -- it met one of causes 1 to 6 (R208)
  abort  : Bool                            -- its set was spoiled, or is another's
  flags  : BitVec 4
  deriving DecidableEq, Repr

/-- An OPT in flight (R210). -/
structure OptJob where
  h       : Hdr
  set     : Fin 16
  t       : W64
  parD    : BitVec 256
  after   : List Key                       -- TEDs and OPTs of the set accepted before it and not retired
  started : Bool
  params  : List W32                       -- the parameter block, once read
  fault   : Bool
  todo    : List Nat                       -- rows not yet claimed
  waiting : List (Nat × W64)               -- rows that wait on a held entry, and since when (R220)
  rows    : Nat
  contrib : Nat
  replayed : Nat
  maxRep  : Nat
  moved   : Nat
  moved1  : Option Nat
  uncorr  : Nat
  nonfin  : Nat
  fallback : Bool
  flags   : BitVec 4                       -- the uncorr flag of R221
  nEl     : Nat
  nClip   : Nat
  deriving DecidableEq, Repr

/-- What a lane does with its claimed row (R216). -/
inductive LaneSt where
  | claimed                                -- routed; not stepped yet
  | tap                                    -- computed; waits for the tap to accept its copies
  | written                                -- written home; waits for acknowledgements
  deriving DecidableEq, Repr

/-- A write of a row's piece (R216): its place and its bytes. -/
structure RowWrite where
  pos  : Nat                               -- this position, or a replica's
  tier : Nat
  addr : Nat
  data : List Byte
  deriving DecidableEq, Repr

/-- A take record the tap is to copy (R219, R323). -/
structure TapRec where
  table : Nat
  row   : Nat
  first : Nat
  cnt   : Nat
  data  : List Byte
  deriving DecidableEq, Repr

/-- A lane's claim (R216). -/
structure Claim where
  k      : Key
  row    : Nat
  ents   : List (Nat × Ent)                -- entries of the row's window
  repl   : List (Nat × List Rep)           -- the replicas of each entry, as routed
  stEnts : List (List (Nat × Ent))         -- entries of each range of its state row
  st     : LaneSt
  writes : List RowWrite                   -- home writes, row then state
  reps   : List RowWrite                   -- replica writes
  taps   : List TapRec
  wr     : ReadRes                         -- how the home writes are answered
  recs   : Nat                             -- contributions applied
  replays : Nat
  peers  : Nat                             -- replica acknowledgements outstanding
  deriving DecidableEq, Repr

/-- The tedder block (R201 to R226). -/
structure Ted where
  /-- R225; four counters (rows, contrib, replays, tapstall) and LE_TED_CTL; reset 0 -/
  ctrs     : Ctrs := {}
  /-- R208; 1 bit; reset 0 -/
  spoiled  : Bool := false
  /-- R220; 1 bit; reset 0 -/
  moved    : Bool := false
  /-- R221; 1 bit; reset 0 -/
  uncorr   : Bool := false
  /-- R211; 1 bit; reset 0 -/
  fallback : Bool := false
  /-- R201; 16 update sets; reset: empty -/
  sets     : SMap TSet := []
  /-- R202; TEDs in flight, in acceptance order; reset: none -/
  teds     : List TedJob := []
  /-- R202; OPTs in flight, in acceptance order; reset: none -/
  opts     : List OptJob := []
  /-- R216; 16 lanes' claims; reset: none -/
  lanes    : SMap (Option Claim) := []
  deriving DecidableEq, Repr

/-! ### Copy engines and the host window (R255 to R272) -/

/-- A transfer on a copy engine (R262 to R267). -/
structure Xfer where
  owner   : Owner
  src     : W64
  dst     : W64
  len     : Nat
  srcHost : Bool
  dstHost : Bool
  master  : Fin 64
  started : Bool                           -- its ranges were checked and granted
  moved   : Nat                            -- bytes moved so far
  deriving DecidableEq, Repr

/-- A read-ahead buffer (R258): its device page, its bytes. -/
structure RaBuf where
  page : Nat                               -- device address / 4096
  data : List Byte
  deriving DecidableEq, Repr

/-- The host coupling block (R255 to R272). -/
structure Hc where
  /-- R260 (LE_HW_BASE); 64 bits, [25:0] zero; reset 0 -/
  base    : W64 := 0
  /-- R259 (LE_HW_CFG); 32 bits; reset 0x6 -/
  cfg     : W32 := 6
  /-- R256; 1 bit; reset 0 -/
  dropped : Bool := false
  /-- R256; 1 bit; reset 0 -/
  denied  : Bool := false
  /-- R266; 1 bit; reset 0 -/
  hostErr : Bool := false
  /-- R258; up to 16 buffers of 4 KiB, least recently used first; reset: none -/
  bufs    : List RaBuf := []
  /-- R258; window reads that wait for a page, as (device address, length), in arrival order; reset: none -/
  reads   : List (Nat × Nat) := []
  /-- R259; device pages written by the work of a command (reel and count of it) or by the carrier core (none) and not published
  along path 2 since; reset: none -/
  stale   : List (Nat × Option (Fin 64 × W24)) := []
  /-- R255; data answered to the last window read; reset: none -/
  answer  : Option (List Byte) := none
  /-- R271; five counters (win_rd, win_wr, ra_hit, in, out) and LE_HC_CNT_CTL; reset 0 -/
  ctrs    : Ctrs := {}
  /-- R262; 16 engines' queues of up to 16 transfers, the running one first; reset: empty -/
  ces     : SMap (List Xfer) := []
  /-- R267; STAGEs whose transfer finished and whose acknowledgements are outstanding; reset: none -/
  closing : List Key := []
  deriving DecidableEq, Repr

/-! ### Sward (R227 to R245) -/

/-- A sector of a line (R227). -/
structure Sector where
  valid : Bool := false
  dirty : Bool := false
  data  : List Byte := []
  deriving DecidableEq, Repr

/-- A resident line (R227, R231). -/
structure Line where
  way  : Nat
  s0   : Sector
  s1   : Sector
  ref  : Bool
  ppin : Bool
  mpin : Bool
  pf   : Bool                              -- prefetched and not hit yet
  deriving DecidableEq, Repr

/-- A miss entry (R229): its line, the sectors it fetches, and whether a demand access opened it. -/
structure Miss where
  line   : Nat
  w0     : Bool
  w1     : Bool
  demand : Bool
  master : Fin 64
  deriving DecidableEq, Repr

/-- An eviction-buffer entry (R234): the line and its dirty sectors. -/
structure Evict where
  line : Nat
  d0   : Option (List Byte)
  d1   : Option (List Byte)
  deriving DecidableEq, Repr

/-- A defect entry (R391), decoded. -/
structure Defect where
  kind   : Nat
  unit   : Nat
  index  : Nat
  way    : Nat
  st     : Nat
  spare1 : Nat
  spare2 : Nat
  deriving DecidableEq, Repr

/-- A PIN in flight (R232). -/
structure PinJob where
  h     : Hdr
  addr  : W64
  len   : Nat
  unpin : Bool
  late  : Bool := false                    -- issued during a restart of the block: it waits for its end (R254)
  deriving DecidableEq, Repr

/-- A running maintenance operation (R239). -/
structure Maint where
  op   : Nat
  addr : Nat
  len  : Nat
  deriving DecidableEq, Repr

/-- The sward block (R227 to R245, R254). -/
structure Swd where
  /-- R237; 1 bit; reset 0 -/
  enabled  : Bool := false
  /-- R237; 1 bit; reset 0 -/
  pending  : Bool := false
  /-- R237; 1 bit; reset 0 -/
  invalDone : Bool := false
  /-- R238; 1 bit; reset 0 -/
  disabling : Bool := false
  /-- R230 (LE_SWD_CTL.pf_en); 1 bit; reset 1 -/
  pfEn     : Bool := true
  /-- R239; the running maintenance operation (maint_busy); reset: none -/
  maint    : Option Maint := none
  /-- R239; 64 bits; reset 0 -/
  maintAddr : W64 := 0
  /-- R239; 48 bits; reset 0 -/
  maintLen : W64 := 0
  /-- R237; 1 bit; reset 0 -/
  enRefused : Bool := false
  /-- R239; 1 bit; reset 0 -/
  mtRefused : Bool := false
  /-- R244; 1 bit; reset 0 -/
  uncorr   : Bool := false
  /-- R245; 1 bit; reset 0 -/
  remapped : Bool := false
  /-- R245; 1 bit; reset 0 -/
  retired  : Bool := false
  /-- R253; eight counters and LE_SWD_CNT_CTL; reset 0 -/
  ctrs     : Ctrs := {}
  /-- R227; resident lines keyed by a[63:7]; reset: none -/
  lines    : SMap (Option Line) := []
  /-- R231; the line referenced last in a set, keyed 1024 × slice + set; reset: none -/
  lastRef  : SMap (Option Nat) := []
  /-- R229; miss entries, oldest first; reset: none -/
  miss     : List Miss := []
  /-- R234; eviction buffers by slice, oldest entry first, up to 256; reset: empty -/
  evb      : SMap (List Evict) := []
  /-- R230; prefetch credit by slice, 0 to 15; reset 8 -/
  credit   : SMap Nat := []
  /-- R230; misses considered in a row below credit 4, by slice; reset 0 -/
  low      : SMap Nat := []
  /-- R245, R391; remapped and retired locations, sward and bale; reset: none -/
  defects  : List Defect := []
  /-- R369; defect entries that wait for the option area writer, oldest first, 64 bits each; reset: none -/
  defq     : List W64 := []
  /-- R232; PINs in flight; reset: none -/
  pins     : List PinJob := []
  deriving DecidableEq, Repr

/-! ### Memory ports (R246 to R251) -/

/-- The memory-port block (R246 to R253). -/
structure Mp where
  /-- R253; four counters (narrow, wide, far, throttle) and LE_MP_CTL; reset 0 -/
  ctrs     : Ctrs := {}
  /-- R251; 1 bit; reset 0 -/
  farTmo   : Bool := false
  /-- R227; 1 bit; reset 0 -/
  noTarget : Bool := false
  /-- R249 (LE_MP_ALLOT); 8 bits; reset 0xC8 -/
  allot    : BitVec 8 := 0xC8
  /-- R249 (LE_MP_SHARE); 8 bits; reset 0x11 -/
  share    : BitVec 8 := 0x11
  /-- R227 (LE_MP_HBM_BASE); 64 bits; reset 0 -/
  hbmBase  : W64 := 0
  /-- R227 (LE_MP_HBM_SIZE); 10 bits; reset 0x300 -/
  hbmSize  : Nat := 0x300
  /-- R249 (LE_MP_PART_n); 16 × 32 bits; reset 0 -/
  parts    : SMap W32 := []
  /-- R250 (LE_FAR_BASE); 64 bits; reset 0 -/
  farBase  : W64 := 0
  /-- R250 (LE_FAR_CFG); 32 bits; reset rate 0x80 -/
  farCfg   : W32 := 0x200000
  /-- R251 (LE_FAR_TIMEOUT); 16 bits; reset 100 -/
  farUs    : W16 := 100
  /-- R249; credits in quarter bytes: 0 the allotment, 1 to 16 the partitions, 17 the far tier; reset 0 (log entry 4) -/
  credit   : SMap Int := []
  /-- R248; writes not acknowledged, by the work that made them; reset: none -/
  acks     : List (Owner × Nat) := []
  /-- R251; sectors whose far-tier request timed out and whose requester is not answered yet; reset: none -/
  dead     : List Nat := []
  /-- R254; sectors whose request a restart of the block left unanswered: they are answered as uncorrectable; reset: none -/
  cut      : List Nat := []
  deriving DecidableEq, Repr

/-! ### Zwiastiz (R273 to R295) -/

/-- Lane safety states (R275). -/
inductive Safety where
  | off | probe | lit | shut
  deriving DecidableEq, Repr

/-- Where a lane pair's bring-up stands (R278). -/
inductive Tune where
  | idle | locking | training | trained
  deriving DecidableEq, Repr

/-- A lane pair (R273 to R279). -/
structure Pair where
  safety : Safety := .off
  tune   : Tune := .idle
  bad    : Bool := false                   -- retired, used or failed
  taken  : Bool := false                   -- spare: a logical lane moved to it
  seen   : Bool := false                   -- spare: detected at bring-up, so available
  tx     : BitVec 12 := 0                  -- heater code of the transmit modulator ring
  rx     : BitVec 12 := 0                  -- heater code of the receive filter ring
  far    : Fin 128 := 127                  -- least headroom the far end reports
  unc    : List W64 := []                  -- times of its uncorrectable codewords in the last 1 ms
  deriving DecidableEq, Repr

/-- A move to a spare in progress (R282). -/
structure Move where
  lane   : Fin 16
  src    : Fin 18
  spare  : Fin 18
  mine   : Bool                            -- this end sent the request
  begun  : Bool                            -- acknowledged: the spare is probed
  dark   : Bool                            -- the fault was a loss of light
  swAt   : Option W64                      -- switch frame agreed
  switched : Bool
  since  : W64
  deriving DecidableEq, Repr

/-- A key slot (R286). -/
structure KeySlot where
  key  : BitVec 256 := 0
  salt : W32 := 0
  ok   : Bool := false
  deriving DecidableEq, Repr

/-- One direction's keys (R286). -/
structure KeyDir where
  s0   : KeySlot := {}
  s1   : KeySlot := {}
  act  : Bool := false                     -- active slot
  sw   : Option Nat := none                -- pending switch: the frame it takes effect at
  base : Nat := 0                          -- frames sent or received under the active key began here
  deriving DecidableEq, Repr

/-- Port states (LE_ZW_PORT_STATUS.state). -/
inductive PSt where
  | dark | probing | locking | training | aligning | live | down
  deriving DecidableEq, Repr

/-- A sent frame, kept for replay (R285): its link control cell and its messages (R284). -/
structure TxFrame where
  num  : Nat
  ctl  : ZCtl
  msgs : List ZMsg
  deriving DecidableEq, Repr

/-- A Zwiastiz port (R273 to R289). -/
structure ZPort where
  enable   : Bool := false
  dim      : BitVec 2 := 0
  minLanes : Nat := 12
  st       : PSt := .dark
  noKey    : Bool := false
  lol      : Bool := false
  integrity : Bool := false
  cfgBusy  : Bool := false
  pairs    : SMap Pair := []
  lanes    : SMap (Option Nat) := []       -- lane pair each logical lane in service uses
  moves    : List Move := []
  tx       : KeyDir := {}
  rx       : KeyDir := {}
  txNext   : Nat := 0                      -- next frame number to send
  rxNext   : Nat := 0                      -- next frame number to receive
  bad      : SMap Nat := []                -- R287; by frame number, how often in a row it failed its tag
  nak      : Bool := false                 -- a nak is owed
  out      : Bool := false                 -- key exhausted, sends nothing
  replay   : List TxFrame := []            -- sent and not acknowledged, up to 64
  credit   : SMap Int := []                -- cells the far buffer has room for, less the initial room, by VC
  owed     : SMap Nat := []                -- cells freed here and not returned yet, by VC
  queue    : List ZMsg := []               -- local messages routed to this port, waiting for credit or replay space
  fwd      : List ZMsg := []               -- forwarded messages that wait so (R290)
  turn     : SMap Bool := []               -- R290; by VC, the local messages were served last
  told     : Nat := 0                      -- frames received that its link control cells have acknowledged
  swTold   : Bool := false                 -- the pending key switch has been announced (R286)
  ctls     : List MoveCtl := []            -- R282; lane-move control not sent yet
  reports  : List Detune := []             -- R279; detuning reports not sent yet
  wasDown  : Bool := false                 -- down when a restart of the link block was asked for (R294)
  deriving DecidableEq, Repr

/-- What waits for the answer to a tracked message (R288, R293). -/
inductive Purpose where
  | read (k : Key) (pos part : Nat)        -- a gather's sectors
  | replica (lane : Fin 16)                -- a tedder replica write
  | topk (k : Key)                         -- a remote TOPK output
  | stream (k : Key)                       -- a sweep run
  | signal (reel : Fin 64) (count : W24)   -- a SIGNAL command
  | posted (d : Fin 8) (clapper : BitVec 13)
  | barrier
  | cascade
  | compare (num rep : Nat)                -- a replica's rows, for a comparison of R64
  | reload (entry rep : Nat)               -- a replica's rows as home holds them (R64)
  | left                                   -- the work that sent it ended: its answer is discarded (R119, R226)
  deriving DecidableEq, Repr

/-- A tracked message (R293): what it is for, how often it was resent, sectors answered, whether it waits as unreachable, and
when it was sent last. -/
structure Track where
  msg   : ZMsg
  use   : Purpose
  sent  : Nat
  got   : List (Nat × List Byte)
  lost  : Bool
  at_   : W64
  deriving DecidableEq, Repr

/-- The Zwiastiz block (R273 to R295). -/
structure Zw where
  /-- R295; eight counters and LE_ZW_CNT_CTL; reset 0 -/
  ctrs     : Ctrs := {}
  /-- LE_ZW_STATUS w1c bits unreachable, spare_used, retired, port_down, key_busy (R293, R281, R283, R286); 8 bits; reset 0 -/
  status   : BitVec 8 := 0
  /-- LE_ZW_CAL (R281, R280, R282); 32 bits; reset thresholds 8 and 24, timeout 500 -/
  cal      : W32 := 0x01F41808
  /-- LE_ZW_E2E (R293); 32 bits; reset 40 µs, 3 retries -/
  e2e      : W32 := 0x00030028
  /-- R286; staged salt, 32 bits; reset 0 -/
  salt     : W32 := 0
  /-- R286; staged key, 256 bits; reset 0 -/
  key      : BitVec 256 := 0
  /-- R290; 256 × 32 bits; reset 0 -/
  routes   : SMap W32 := []
  /-- R273; 8 ports; reset: each at its own reset -/
  ports    : SMap ZPort := []
  /-- R292; next number sent, keyed 3 × destination + class; reset 0 -/
  txSeq    : SMap W32 := []
  /-- R292; next number expected, keyed 3 × source + class; reset 0 -/
  rxSeq    : SMap W32 := []
  /-- R292; early messages in the reorder store; reset: none -/
  early    : List ZMsg := []
  /-- R293; tracked messages not acknowledged, oldest first; reset: none -/
  tracked  : List Track := []
  /-- R290; messages that found no usable route; reset: none -/
  stuck    : List ZMsg := []
  /-- R293, R289, R294; messages whose unit waits: the tracked store is full, RSP space is short, or the block restarts; their
  destination, body and use, oldest first; reset: none -/
  blocked  : List (Nat × ZBody × Purpose) := []
  /-- R292; statuses other than done that were answered to writes and clapper operations, keyed (3 × source + class) × 2^32 +
  number; reset: none -/
  answers  : SMap (BitVec 2) := []
  /-- R292; messages delivered here and not taken by their unit yet, oldest first; reset: none -/
  inbox    : List ZMsg := []
  /-- R299, R317; floods seen: a HELLO by its position and serial number, another by its source, term and number; reset: none -/
  seen     : List (Nat × Nat × Nat × Nat) := []
  /-- R317; the number of this engine's next flooded message; 32 bits; reset 0 -/
  floodSeq : W32 := 0
  deriving DecidableEq, Repr

/-! ### Heath (R296 to R318) -/

/-- States of a member (LE_HTH_STATUS.state). -/
inductive HSt where
  | alone | joining | member | lead | isolated
  deriving DecidableEq, Repr

/-- A barrier slot (R308). -/
structure Barrier where
  cfg : W32 := 0
  cnt : Nat := 1
  gen : W32 := 0
  deriving DecidableEq, Repr

/-- A re-homing load (R312): on the survivor the order, on the lead the piece it planned. -/
structure Piece where
  num    : Nat
  pos    : Nat                             -- survivor
  order  : LoadOrder
  entry  : Ent                             -- the piece's map entry, held
  status : BitVec 2                        -- 0 loading, 1 verified, 2 failed
  bytes  : W64
  sent   : Bool                            -- its LOAD was sent (R312)
  noRoom : Bool                            -- found no room in the pool (R313)
  deriving DecidableEq, Repr

/-- The heath block (R296 to R318). -/
structure Hth where
  /-- LE_HTH_CFG (R299); 23 bits; reset 0, from options at the first configured state -/
  cfg      : BitVec 23 := 0
  /-- LE_HTH_ID (R299); 16 bits; reset 0, from options -/
  id       : W16 := 0
  /-- LE_HTH_SERIAL (R299); 64 bits; reset 0, from options -/
  serial   : W64 := 0
  /-- LE_HTH_STATUS.state (R299, R301); reset alone -/
  st       : HSt := .alone
  /-- R297, R299; 1 bit; reset 0 -/
  mismatch : Bool := false
  /-- R313; 1 bit; reset 0 -/
  capacity : Bool := false
  /-- LE_HTH_STATUS.cfg_busy (R376); 1 bit; reset 0 -/
  cfgBusy  : Bool := false
  /-- R300; 8 bits; reset 0 -/
  lead     : Nat := 0
  /-- R307; 64 bits, in ns; reset 0 -/
  time     : W64 := 0
  /-- R307; the next time base message may step the time forward once; reset 0 -/
  mayStep  : Bool := false
  /-- R307; slew in ns not applied yet, at most 1 ns per µs; reset 0 -/
  slew     : Int := 0
  /-- R307; when the slew was last applied; reset 0 -/
  slewAt   : W64 := 0
  /-- LE_HTH_POOL_BASE (R311); 64 bits; reset 0 -/
  poolBase : W64 := 0
  /-- LE_HTH_POOL_SIZE (R311); 10 bits; reset 0 -/
  poolSize : BitVec 10 := 0
  /-- LE_HTH_MAPBUF (R312); 64 bits; reset 0 -/
  mapbuf   : W64 := 0
  /-- R300; 32 bits; reset 0 -/
  term     : W32 := 0
  /-- LE_HTH_LIVE (R303); 256 bits; reset 0 -/
  live     : BitVec 256 := 0
  /-- LE_HTH_FAILED (R303); 256 bits; reset 0 -/
  failed   : BitVec 256 := 0
  /-- R308; 16 slots; reset: each at its own reset -/
  bars     : SMap Barrier := []
  /-- R299; HELLOs heard by position; reset: none -/
  hellos   : SMap (Option Hello) := []
  /-- R302; positions heard in this period; reset: none -/
  heard    : BitVec 256 := 0
  /-- R303; periods missed in a row, by position; reset 0 -/
  missed   : SMap Nat := []
  /-- R300; this engine claims the lead; reset 0 -/
  claim    : Bool := false
  /-- R302; periods counted, 8 bits; reset 0 -/
  beat     : Byte := 0
  /-- R304; failed links as (position, port); reset: none -/
  cut      : List (Nat × Nat) := []
  /-- R303; FAILED announcements of this term, by position or link; reset: none -/
  said     : List (Option (BitVec 8) × Option (BitVec 8 × BitVec 3)) := []
  /-- R311; the lead's plan; reset: none -/
  plan     : List Piece := []
  /-- R312; loads ordered from this engine; reset: none -/
  loads    : List Piece := []
  /-- R299; time at which join = 1 was written; reset 0 -/
  joinAt   : W64 := 0
  /-- R312, R315; highest map version any engine reported; reset 0 -/
  version  : W32 := 0
  /-- R312; the lead's last commit: version, byte length and CRC-32C; reset 0 -/
  commit   : W32 × W32 × W32 := (0, 0, 0)
  /-- R312; the lead's map writes are not all acknowledged, so its COMMITs are not sent; reset 0 -/
  writing  : Bool := false
  /-- R302; the heartbeat period of the time base that HEARTBEAT_PERIOD ended last; reset 0 -/
  period   : Nat := 0
  /-- R303; when the lead last repeated its announcements; reset 0 -/
  saidAt   : W64 := 0
  /-- R307; when the lead last sent the time base; reset 0 -/
  baseAt   : W64 := 0
  /-- R305; positions that rejoined and on which no map of software has placed rows since; 256 bits; reset 0 -/
  rejoined : BitVec 256 := 0
  /-- R299, R305; a LEAD came while the engine joins; reset 0 -/
  led      : Bool := false
  /-- R315; entries that declared positions homed, latest first: whose files hold their rows; reset: none -/
  lostEnts : List Ent := []
  /-- R292, R312; versions of COMMITs answered here and the reason codes given; reset: none -/
  results  : List (W32 × BitVec 4) := []
  /-- R312; entries that a version moved away, not freed yet; reset: none -/
  old      : List (W32 × Ent) := []
  /-- R312; positions that reported done, and for which version; reset: none -/
  dones    : List (Nat × W32) := []
  /-- R312; positions that answered COMMIT with reason 6; reset: none -/
  again    : List Nat := []
  /-- R312; when the lead last committed a release; reset: none -/
  relAt    : Option W64 := none
  /-- R315; a new lead waits for these positions' LOAD_STATUS before it plans; reset: none -/
  await    : List Nat := []
  deriving DecidableEq, Repr

/-! ### Take unit (R319 to R340) -/

/-- A section of a print (R327): entry, first block counted from the file's header, its digest. -/
structure Section where
  ent   : Ent
  block : Nat
  sha   : BitVec 256
  deriving DecidableEq, Repr

/-- A ring of 4 KiB blocks that files are written into (R324). Blocks are counted on from the first one ever used; `wr` is the
next block that no file has taken, `freed` the one up to which software has freed. -/
structure Area where
  base   : W64 := 0
  blocks : W32 := 0
  free   : W32 := 0                        -- LE_TK_AREA_FREE or LE_TK_MIR_FREE as written
  wr     : Nat := 0
  freed  : Nat := 0
  denied : Bool := false                   -- its last block write was denied, so it counts as full (R352)
  deriving DecidableEq, Repr

/-- A file (R325): while it is open it gathers take records; its cut fixes its header fields, its schedule section and its
size. -/
structure File where
  start    : Nat                           -- its first block in the main area
  mstart   : Option Nat                    -- its first block in the mirror area
  body     : List Byte := []               -- take records
  seq      : W64 := 0
  print    : Bool := false
  aligned  : Bool := false
  closes   : Bool := false
  dataPos  : W64 := 0
  time     : W64 := 0
  mapVer   : W32 := 0
  printSeq : W64 := 0
  prev     : W64 := 0
  sched    : List Byte := []
  copy     : List HomeEnt := []            -- print: entries still to copy, as the cut's map places them
  sects    : List Section := []
  blocks   : List (List Byte) := []        -- once cut: its blocks up to the CRC table, as far as they are known
  nBody    : Nat := 0                      -- blocks of its body
  skip     : Nat := 0                      -- body blocks written to the main area while it was open
  mskip    : Nat := 0                      -- body blocks written to the mirror area while it was open
  put      : Nat := 0                      -- main area: body blocks written while open; once cut, the next block to write
  mput     : Nat := 0                      -- mirror area: the next block to write
  cmd      : Option (Fin 64 × W24) := none -- TAKE_NOW that completes with it
  deriving DecidableEq, Repr

/-- A cut that was requested and waits for the tedder to drain (R321). -/
structure Cut where
  print  : Bool
  byTake : Option Hdr                      -- the TAKE that requested it
  note   : W64
  pos    : W64                             -- step count it records
  cmd    : Option (Fin 64 × W24)           -- the TAKE_NOW that requested it
  opts   : List Key                        -- OPTs accepted before it
  at_    : W64                             -- when it was requested
  deriving DecidableEq, Repr

/-- A complete file the secured rule still needs (R332). -/
structure Done where
  seq   : W64
  print : Bool
  closes : Bool
  printSeq : W64
  deriving DecidableEq, Repr

/-- The loader's running operation (R335). -/
structure Load where
  op     : Nat
  pos    : Nat
  verify : Bool
  master : Fin 64
  work   : Option (Fin 64) := none         -- reel of the CONFIG command that started it (R87)
  deriving DecidableEq, Repr

/-- A DIGEST in flight (R331). -/
structure DigJob where
  h   : Hdr
  src : W64
  len : Nat
  dst : W64
  sha : Bool
  deriving DecidableEq, Repr

/-- The take unit (R319 to R340). -/
structure Tk where
  /-- LE_TK_CTL (R323); 6 bits; reset unit, main_host and mir_host 1 -/
  ctl      : BitVec 6 := 0x1A
  /-- LE_TK_INTERVAL; 16 bits; reset 180 -/
  interval : W16 := 180
  /-- LE_TK_PRINT_INT; 16 bits; reset 20 -/
  printInt : W16 := 20
  /-- LE_TK_STATUS bits cfg_busy to replay_fail (chain_broken, demoted, realigned among them); 11 bits; reset 0 -/
  status   : BitVec 11 := 0
  /-- R321; 64 bits; reset 0 -/
  seq      : W64 := 0
  /-- R332; 64 bits; reset 0 -/
  secured  : W64 := 0
  /-- R319; 64 bits; reset 0 -/
  step     : W64 := 0
  /-- R324; the main area: base 64 bits with [11:0] zero, blocks, FREE and WR 32 bits; reset 0 -/
  main     : Area := {}
  /-- R324; the mirror area, likewise; reset 0 -/
  mir      : Area := {}
  /-- R324; the file whose area-full message was posted, 64 bits; reset: none -/
  told     : Option W64 := none
  /-- LE_TK_LOAD_STATUS bits done, failed, refused, mirror_used (R335); 5 bits; reset 0 -/
  loadSt   : BitVec 5 := 0
  /-- R335; the loader's operation (busy); reset: none -/
  load     : Option Load := none
  /-- LE_TK_LOAD_SEQ (R335); 64 bits; reset 0 -/
  loadSeq  : W64 := 0
  /-- LE_TK_DIR (R335); 64 bits; reset 0 -/
  dir      : W64 := 0
  /-- LE_TK_REPLAY_EXP (R339); 64 bits; reset 0 -/
  replayExp : W64 := 0
  /-- R323; the tap is active; reset 0 -/
  tap      : Bool := false
  /-- R320; step count and time of the last cut made since the enable; reset: none -/
  lastCut  : Option (W64 × W64) := none
  /-- R325; print sequence; reset 0 -/
  printSeq : W64 := 0
  /-- R320; a cut has been made since the enable; reset 0 -/
  cutMade  : Bool := false
  /-- R323; the open take; reset: none -/
  opened   : Option File := none
  /-- R325; the closing file; reset: none -/
  closing  : Option File := none
  /-- R327; the print whose copy runs, or that waits to close; reset: none -/
  printing : Option File := none
  /-- R327; the last print's copy has ended and no closing take was cut; reset 0 -/
  copyEnd  : Bool := false
  /-- R321; the cuts that wait, oldest first; reset: none -/
  cuts     : List Cut := []
  /-- R332; complete files the rule still needs, oldest first; reset: none -/
  dones    : List Done := []
  /-- R335, R347; master of the last LE_TK_LOAD_CTL write, 6 bits; reset 0 -/
  ldMaster : Fin 64 := 0
  /-- R325; last step t an OPT applied to each table; reset 0 -/
  lastOpt  : SMap W64 := []
  /-- R331; DIGESTs in flight; reset: none -/
  digs     : List DigJob := []
  deriving DecidableEq, Repr

/-! ### Sampler and clappers -/

/-- A sampler stream (R355). -/
structure Stream where
  k    : W128 := 0
  c    : W128 := 0
  c0   : W128 := 0
  d    : W64 := 0
  kst  : SMap (Option W32) := []           -- staged key words 0 to 2
  cst  : SMap (Option W32) := []           -- staged counter words 0 to 2
  deriving DecidableEq, Repr

/-- A SAMPLE in flight (R357). -/
structure SampleJob where
  h    : Hdr
  out  : BitVec 256
  mode : Nat
  n    : Nat
  k    : W128
  c    : W128
  deriving DecidableEq, Repr

/-- The sampler (R355 to R358). -/
structure Smp where
  /-- R355; 256 streams; reset 0 -/
  streams : SMap Stream := []
  /-- R357; SAMPLEs in flight; reset: none -/
  jobs    : List SampleJob := []
  deriving DecidableEq, Repr

/-- A clapper operation waiting at its bank (R354): its requester, its master, what it does, and who takes the result. -/
structure ClpReq where
  req     : Fin 12
  master  : Fin 64
  clapper : Fin 8192
  kind    : ClpKind
  val     : W64
  dst     : Option (Fin 8 × BitVec 5)      -- CADD: director and register for the old value
  peer    : Option (BitVec 8 × W32)        -- peer operation: the position to acknowledge, and the number it had
  cmd     : Option (Fin 64 × W24)          -- SIGNAL command
  keepLow : Bool := false                  -- set: the low word stays the clapper's own (R343)
  granted : Bool := false                  -- the register port has checked it (R351)
  deriving DecidableEq, Repr

/-- The clapper block (R341 to R346, R354). -/
structure Clp where
  /-- R341; 8,192 × 64 bits; reset 0 -/
  vals    : SMap W64 := []
  /-- R354; requester served last, by bank; reset 11 (log entry 5) -/
  last    : SMap Nat := []
  /-- R354; operations that wait at each bank, in arrival order; reset: none -/
  queues  : SMap (List ClpReq) := []
  /-- R346; 1 bit; reset 0 -/
  peerDenied : Bool := false
  /-- R346; 1 bit; reset 0 -/
  dropped : Bool := false
  /-- R346; 32 bits, saturating; reset 0 -/
  dropCnt : W32 := 0
  deriving DecidableEq, Repr

/-! ### Always-on island (R360 to R384) -/

/-- Where the start of the engine stands (R360 to R363). -/
inductive Phase where
  | inReset
  | loading (copyB : Bool) (fails : Nat)   -- option load: copy being read, failed attempts
  | pll                                    -- options committed, PLLs locking
  | configured
  deriving DecidableEq, Repr

/-- A write of the option area in progress (R369). -/
structure NvWrite where
  copyB : Bool
  image : List Byte
  byEngine : Bool
  deriving DecidableEq, Repr

/-- Data register that a TAP instruction selects (R382). -/
inductive TapSel where
  | bypass | idcode | dbgReg
  deriving DecidableEq, Repr

/-- The always-on island (R360 to R384). -/
structure AlwaysOn where
  /-- R362, R363; reset: the option load runs (phase `loading`) or reset is held -/
  phase     : Phase := .inReset
  /-- LE_RST_STATUS.cause (R377); 2 bits; reset 0 -/
  cause     : BitVec 2 := 0
  /-- R377; 1 bit; reset 0 -/
  clkFail   : Bool := false
  /-- R377; the signal to the carrier's reset pin logic, 1 bit; reset 0 -/
  pinSignal : Bool := false
  /-- R371; 1 bit; reset 0 -/
  toExpired : Bool := false
  /-- R374; 1 bit; reset 0 -/
  retUncorr : Bool := false
  /-- R404; 1 bit; reset 0 -/
  retRefused : Bool := false
  /-- R371 (LE_RST_IDLE_TIMEOUT); 20 bits; reset 100 (the safe default), then option idle_us -/
  idleUs    : BitVec 20 := 100
  /-- R366 (LE_OPT_STATUS.loaded); 1 bit; reset 0 -/
  loaded    : Bool := false
  /-- R367; 1 bit; reset 0 -/
  defaulted : Bool := false
  /-- R366; 1 bit; reset 0 -/
  copyB     : Bool := false
  /-- R366; 0 to 3; reset 0 -/
  attempts  : Nat := 0
  /-- R368; 1 bit; reset 0 -/
  byteBad   : Bool := false
  /-- R369; 1 bit; reset 0 -/
  defectFull : Bool := false
  /-- R368; 10 bits; reset 0 -/
  badOffset : BitVec 10 := 0
  /-- R365; the committed image, 1,028 bytes once committed; reset: none -/
  image     : List Byte := []
  /-- R365; non-volatile copy A, sparse over erased bytes 0xFF; reset: erased -/
  nvA       : SMap Byte := []
  /-- R365; non-volatile copy B, sparse over erased bytes 0xFF; reset: erased -/
  nvB       : SMap Byte := []
  /-- R369; the write of the option area that runs (nv_busy), and those that wait; reset: none -/
  nv        : List NvWrite := []
  /-- R375; the image check runs; reset 0 -/
  fwChk     : Bool := false
  /-- R375; 1 bit; reset 0 -/
  fwOk      : Bool := false
  /-- R375; 1 bit; reset 0 -/
  fwBad     : Bool := false
  /-- R375; 2 bits; reset 0 -/
  fwReason  : BitVec 2 := 0
  /-- R375; 16 bits; reset 0 -/
  fwVersion : W16 := 0
  /-- LE_GAF_CAP (R379); 7 bits; reset 15, then option cap -/
  cap       : Nat := 15
  /-- LE_GAF_RAMP (R379); 8 bits; reset 50, then option ramp -/
  ramp      : Nat := 50
  /-- LE_GAF_HOLD_LIMIT (R381); 16 bits; reset 1,000, then option hold_us -/
  hold      : Nat := 1000
  /-- LE_GAF_TEMP.t_thr (R380); 8 bits; reset 95, then option t_thr -/
  tThr      : Nat := 95
  /-- LE_GAF_TEMP.t_trip (R380); 8 bits; reset 105, then option t_trip -/
  tTrip     : Nat := 105
  /-- R380; the thermal cap, 15 to 90 in units of 10 W; reset 90 -/
  thermal   : Nat := 90
  /-- R378; f as a numerator over 130,560 (680 W × 64 × 3, so that it is exact); reset 130,560 (f = 1; LE_GAF_MEAS.f reads
  0 until the first evaluation) -/
  f         : Nat := 130560
  /-- R197, R280; the sweep allowance, as `f` counts, which does not rise while a lit pair lacks headroom; reset 130,560 -/
  allow     : Nat := 130560
  /-- R378; an evaluation has set f since reset; reset 0 -/
  evald     : Bool := false
  /-- R378 (LE_GAF_MEAS.power); 11 bits; reset 0 -/
  power     : Nat := 0
  /-- R380 (LE_GAF_MEAS.temp); 8 bits; reset 0 -/
  temp      : Nat := 0
  /-- R380; T, the hottest reading that the gaffer took last; reset 0 -/
  hottest   : Nat := 0
  /-- R378; evaluations in a row above the cap at the floor; reset 0 -/
  overCnt   : Nat := 0
  /-- R378; 1 bit; reset 0 -/
  overCap   : Bool := false
  /-- R380; 1 bit; reset 0 -/
  trip      : Bool := false
  /-- R380; 1 bit; reset 0 -/
  sensorBad : Bool := false
  /-- R381; 1 bit; reset 0 -/
  holdLong  : Bool := false
  /-- LE_GAF_STATUS.cfg_busy; 1 bit; reset 0 -/
  gafBusy   : Bool := false
  /-- LE_DBG_CFG (R383); 7 bits; reset 0, from options at the first configured state -/
  dbgCfg    : BitVec 7 := 0
  /-- R383; data of the last DBG_REG access, 32 bits; reset 0 -/
  dbgData   : W32 := 0
  /-- R383; 1 bit; reset 0 -/
  dbgDone   : Bool := false
  /-- R383; 1 bit; reset 0 -/
  dbgDenied : Bool := false
  /-- R383; the 72-bit data register as Capture-DR loaded it; reset 0 -/
  dbgReg    : BitVec 72 := 0
  /-- R382; the TAP's instruction register, 8 bits; reset 0x01 (IDCODE) -/
  tapIr     : Byte := 0x01
  /-- R382; what the last Capture-IR loaded, 8 bits; reset 0 (DESIGN CHOICE, log 138) -/
  tapCap    : Byte := 0
  /-- R382; the IDCODE data register as Capture-DR loaded it, 32 bits; reset 0 (DESIGN CHOICE, log 138) -/
  tapId     : W32 := 0
  /-- R382; the BYPASS data register as Capture-DR loaded it, 1 bit; reset 0 (DESIGN CHOICE, log 138) -/
  tapByp    : Bool := false
  /-- R373; 32 × 32 bits; reset 0 at power-on, kept by LE_RST_N -/
  bkp       : SMap W32 := []
  deriving DecidableEq, Repr

/-! ### The engine and the machine -/

/-- The islands that a reset holds, with retained memory, the restarts and the carrier's memories (R361, R374). -/
structure Eng where
  /-- R4, R5, R401, R402 -/
  port : Port := {}
  /-- R348 to R353 -/
  acc  : Acc := {}
  /-- R389, R396 -/
  flt  : Flt := {}
  /-- R65 to R92 -/
  fe   : Front := {}
  /-- R93; 8 directors -/
  dirs : SMap Dir := []
  /-- R45 to R64 -/
  map  : MapSt := {}
  /-- R42 to R44, R113 -/
  grd  : Grd := {}
  /-- R126 to R145 -/
  gln  : Gln := {}
  /-- R146 to R175 -/
  wr   : Wr := {}
  /-- R176 to R200 -/
  swp  : Swp := {}
  /-- R201 to R226 -/
  ted  : Ted := {}
  /-- R227 to R245 -/
  swd  : Swd := {}
  /-- R246 to R254 -/
  mp   : Mp := {}
  /-- R255 to R272 -/
  hc   : Hc := {}
  /-- R273 to R295 -/
  zw   : Zw := {}
  /-- R296 to R318 -/
  hth  : Hth := {}
  /-- R319 to R340 -/
  tk   : Tk := {}
  /-- R355 to R358 -/
  smp  : Smp := {}
  /-- R341 to R346 -/
  clp  : Clp := {}
  /-- R374; retained memory, 4,096 words of 32 bits; reset 0 but for the magic; kept by LE_RST_N -/
  ret  : SMap W32 := []
  /-- R374; retained words with an uncorrectable error; reset: none -/
  retBad : List Nat := []
  /-- R371; restarts in progress, by block; reset: none -/
  rs   : SMap (Option RsSt) := []
  /-- R1, R241; device memory (HBM and far tier), the carrier's -/
  dev  : Memory := []
  /-- R1; host memory -/
  host : Memory := []
  /-- the model's own: counts the free values drawn (log entry 3) -/
  free : Nat := 0
  deriving DecidableEq, Repr

/-- The machine: the commands that wait, the always-on island, and the rest of the engine. -/
structure State where
  /-- the queue of commands; reset: empty -/
  pending : List Instr := []
  /-- R360 to R384 -/
  ao      : AlwaysOn := {}
  /-- the islands a reset holds -/
  eng     : Eng := {}
  deriving DecidableEq, Repr

/-- Why a step stops. -/
inductive Fault where
  /-- Raised by no meaning of this model: every command and event of the spec has an effect or, where its guard does not
  hold, leaves the state unchanged (log entry 1). Safe: nothing stops. -/
  | none
  deriving DecidableEq, Repr

/-- Why a command has no meaning. -/
inductive Refusal where
  /-- Raised only by an arm of `exec` whose meaning is not written. Safe: the machine stops by name. -/
  | notModelled (mnemonic : String)
  deriving DecidableEq, Repr

/-- The machine right after power-on reset is released (R362): the option load runs on an erased option area, at the
copy the loader reads first (R366: equal generations choose A). Retained memory holds its magic (R374). -/
def State.reset : State where
  pending := []
  ao := { phase := .loading false 0 }
  eng := { ret := [(0, 0x4C524D31)] }

end Sys2Proof.Machine
end

