-- ==== Sys2Proof/Machine/Ops.lean ====
section
/-! DEFINITION. The operations every unit shares: bit fields and byte order, the two memories, the access tables and their
denials (R348 to R353), retained memory's fault log (R393), message records (R86 to R90), the sward and the ports
(R227 to R249), and the clapper operations (R341 to R346, R354). -/

namespace Sys2Proof.Machine

open Sys2Proof

/-! ### Fields and bytes -/

/-- Bits [lo+w-1 : lo] of a number. -/
def fld (x lo w : Nat) : Nat := x / 2 ^ lo % 2 ^ w

/-- Bit `i` of a number. -/
def bit (x i : Nat) : Bool := fld x i 1 == 1

/-- A Bool as a number. -/
def b2n (b : Bool) : Nat := if b then 1 else 0

/-- Sign extension of a `w`-bit field to 64 bits (R95). -/
def sext (x w : Nat) : W64 := (BitVec.ofNat w x).signExtend 64

/-- The `n` little-endian bytes of a number (R2). -/
def leBytes : Nat → Nat → List Byte
  | 0, _ => []
  | n + 1, v => BitVec.ofNat 8 v :: leBytes n (v / 256)

/-- The number that little-endian bytes hold (R2). -/
def leNat : List Byte → Nat
  | [] => 0
  | b :: bs => b.toNat + 256 * leNat bs

/-- The number in `n` bytes from offset `o` of a byte list. -/
def le (bs : List Byte) (o n : Nat) : Nat := leNat ((bs.drop o).take n)

/-- Overwrites bytes of a list from an offset. -/
def splice (bs : List Byte) (o : Nat) (new : List Byte) : List Byte :=
  bs.take o ++ new.take (bs.length - o) ++ bs.drop (o + new.length)

/-- Inserts into a list that `f` orders, behind equal elements. -/
def insertBy {α : Type} (f : α → Nat) (x : α) : List α → List α
  | [] => [x]
  | y :: ys => if f x < f y then x :: y :: ys else y :: insertBy f x ys

/-- A list in ascending order of `f`, equal elements in their order. -/
def sortBy {α : Type} (f : α → Nat) (xs : List α) : List α := xs.foldl (fun ys x => insertBy f x ys) []

/-- Pads a byte list with zeros to a multiple of `n`. -/
def padTo (n : Nat) (bs : List Byte) : List Byte :=
  bs ++ List.replicate ((n - bs.length % n) % n) 0

/-- The XOR of the `w`-bit fields of a number, `k` of them. -/
def xorFold (w : Nat) : Nat → Nat → Nat
  | 0, _ => 0
  | k + 1, x => (x % 2 ^ w) ^^^ xorFold w k (x / 2 ^ w)

/-- Saturating 32-bit increment by `n` (R8). -/
def satAdd (x : W32) (n : Nat) : W32 := BitVec.ofNat 32 (min (x.toNat + n) 0xFFFFFFFF)

/-! ### Memory -/

/-- One byte of a memory. -/
def Memory.rd (m : Memory) (a : Nat) : Byte := SMap.get Memory.blank m a

/-- `n` bytes of a memory. -/
def Memory.rdN (m : Memory) (a : Nat) : Nat → List Byte
  | 0 => []
  | n + 1 => m.rd a :: m.rdN (a + 1) n

/-- Writes one byte, keeping the canonical form. -/
def Memory.wr (m : Memory) (a : Nat) (b : Byte) : Memory := SMap.set Memory.blank m a b

/-- Writes bytes upwards from an address. -/
def Memory.wrN (m : Memory) (a : Nat) : List Byte → Memory
  | [] => m
  | b :: bs => (m.wr a b).wrN (a + 1) bs

/-- The canonical form of a memory. -/
def Memory.wf (m : Memory) : Bool := SMap.wf Memory.blank m

/-! ### Parts of the engine -/

/-- Command reel `n`. -/
def Eng.reel (e : Eng) (n : Nat) : Reel := e.fe.reels.get {} n
/-- Sets command reel `n`. -/
def Eng.setReel (e : Eng) (n : Nat) (r : Reel) : Eng := { e with fe := { e.fe with reels := e.fe.reels.set {} n r } }
/-- Message reel `m`. -/
def Eng.mreel (e : Eng) (m : Nat) : MReel := e.fe.mreels.get {} m
/-- Sets message reel `m`. -/
def Eng.setMreel (e : Eng) (m : Nat) (r : MReel) : Eng :=
  { e with fe := { e.fe with mreels := e.fe.mreels.set {} m r } }
/-- Director `d`. -/
def Eng.dir (e : Eng) (d : Nat) : Dir := e.dirs.get {} d
/-- Sets director `d`. -/
def Eng.setDir (e : Eng) (d : Nat) (x : Dir) : Eng := { e with dirs := e.dirs.set {} d x }
/-- Changes director `d`. -/
def Eng.onDir (e : Eng) (d : Nat) (f : Dir → Dir) : Eng := e.setDir d (f (e.dir d))

/-- The block restarts in progress include block `b` (R371). -/
def Eng.busy (e : Eng) (b : Nat) : Bool := (e.rs.get none b).isSome

/-- The block is held in reset by its restart: it does nothing until it is released (R371). -/
def Eng.inReset (e : Eng) (b : Nat) : Bool := match e.rs.get none b with
  | some (.inReset ..) => true
  | _ => false

/-- Adds to a live counter while the block's counters are enabled (R43). -/
def Ctrs.add (c : Ctrs) (i n : Nat) : Ctrs :=
  if bit c.ctl.toNat 0 then { c with live := c.live.modify 0 i (· + BitVec.ofNat 64 n) } else c

/-! ### Access tables (R348 to R350) -/

/-- The granule of a target's regions (R348): 0 REG, 1 CLP, 2 SMP, 3 SWD, 4 WIDE, 5 HOST. -/
def granule (t : Nat) : Nat := if t = 0 then 64 else if t = 1 ∨ t = 2 then 1 else 4096

/-- The lowest-numbered enabled region of target `t` whose [base, limit] holds the granule of unit `u` (R349). -/
def Acc.regionAt (c : Acc) (t u : Nat) : Option Region :=
  ((List.range 8).map fun r => c.regions.get {} (8 * t + r)).find? fun g =>
    g.en && decide (g.base.toNat / granule t ≤ u / granule t) && decide (u / granule t ≤ g.limit.toNat / granule t)

/-- Master `m` may read (`w` false) or write (`w` true) the granule of unit `u` (R349, R350). -/
def Acc.allows (c : Acc) (t : Nat) (m : Fin 64) (w : Bool) (u : Nat) : Bool :=
  match c.regionAt t u with
  | none => false
  | some g => bit (if w then g.wr else g.rd).toNat m

/-- Target `t` checks accesses of master `m`: its enforce bit is set, and it is not the configuration master at REG. -/
def Acc.checks (c : Acc) (t : Nat) (m : Fin 64) : Bool :=
  bit c.enforce.toNat t && !(t == 0 && m.val == c.cfgMaster.toNat)

/-- Unit `u` is refused to an access that reads, writes or does both. -/
def Acc.refuses (c : Acc) (t : Nat) (m : Fin 64) (rd wr : Bool) (u : Nat) : Bool :=
  (rd && !c.allows t m false u) || (wr && !c.allows t m true u)

/-- The units of [lo, lo + n) at which the answer can change: the first, and each region's first unit and the one past
its last. -/
def Acc.points (c : Acc) (t lo n : Nat) : List Nat :=
  lo :: (((List.range 8).flatMap fun r =>
    let g := c.regions.get {} (8 * t + r)
    [g.base.toNat / granule t * granule t, (g.limit.toNat / granule t + 1) * granule t]).filter
      fun u => decide (lo < u) && decide (u < lo + n))

/-- The first refused unit of the range of `n` units from `lo` (R349, R265): none when every granule is granted. -/
def Acc.firstDenied (c : Acc) (t : Nat) (m : Fin 64) (rd wr : Bool) (lo n : Nat) : Option Nat :=
  if !c.checks t m || n == 0 then none
  else ((c.points t lo n).filter (c.refuses t m rd wr)).min?

/-! ### The fault log (R393) -/

/-- Codes whose events are logged (R387). -/
def logged (code : Nat) : Bool :=
  [0x0101, 0x0103, 0x0104, 0x0105, 0x0107, 0x0108, 0x0301, 0x0401, 0x0402, 0x0403, 0x0500, 0x0601, 0x0700, 0x0701,
    0x0702, 0x0704, 0x0800, 0x0900, 0x0901, 0x0A00, 0x0B01, 0x0B02, 0x0C01].contains code

/-- A retained word (R374); one with an uncorrectable error reads all ones. -/
def Eng.retw (e : Eng) (i : Nat) : W32 := if e.retBad.contains i then 0xFFFFFFFF else e.ret.get 0 i
/-- Writes a retained word; a write repairs it. -/
def Eng.setRet (e : Eng) (i : Nat) (v : W32) : Eng :=
  { e with ret := e.ret.set 0 i v, retBad := e.retBad.filter (· != i) }

/-- Writes consecutive retained words from bytes. -/
def Eng.setRets (e : Eng) (i : Nat) : List Nat → Eng
  | [] => e
  | v :: vs => (e.setRet i (BitVec.ofNat 32 v)).setRets (i + 1) vs

/-- The fault log slot's unwritten flag (byte 11 of its record). -/
def Eng.logFlag (e : Eng) (j : Nat) : Bool := bit (e.retw (64 + 8 * j + 2)).toNat 24

/-- Writes one fault log record (R393): the counter at 0x0080 advances; the record goes to slot count mod 120, or the
next one whose unwritten flag is clear; a full ring drops it. -/
def Eng.logRec (e : Eng) (code cls inst payload : Nat) (unwritten : Bool) : Eng :=
  let cnt := (e.retw 32).toNat
  let e1 := e.setRet 32 (BitVec.ofNat 32 (cnt + 1))
  match ((List.range 120).map fun i => (cnt + i) % 120).find? fun j => !e.logFlag j with
  | none => e1
  | some j =>
    let t := e.hth.time.toNat
    let e2 := e1.setRets (64 + 8 * j)
      [t, t / 2 ^ 32, code + cls * 2 ^ 16 + b2n unwritten * 2 ^ 24, inst,
       payload, payload / 2 ^ 32, payload / 2 ^ 64, payload / 2 ^ 96]
    if unwritten then e2.setRet 33 (e2.retw 33 + 1) else e2

/-! ### Message records (R86 to R90) and denials (R352, R353) -/

/-- Records a message reel holds (LE_MREEL_CFG.log2size). -/
def MReel.size (r : MReel) : Nat := 2 ^ (fld r.cfg.toNat 2 4 + 6)
/-- The reel is enabled. -/
def MReel.enabled (r : MReel) : Bool := bit r.cfg.toNat 0
/-- The reel is full (R89). -/
def MReel.full (r : MReel) : Bool := (r.wr - r.rd).toNat == r.size

/-- Sends the reel's interrupt when it is armed and enabled (R90). -/
def Eng.irq (e : Eng) (m : Nat) : Eng :=
  let r := e.mreel m
  if bit r.cfg.toNat 6 && r.armed then
    let e := e.setMreel m { r with armed := false }
    { e with fe := { e.fe with msi := e.fe.msi ++ [BitVec.ofNat 11 (fld r.cfg.toNat 7 11)] } }
  else e

/-- Counts a lost record (R89). -/
def Eng.lose (e : Eng) (m n : Nat) : Eng :=
  let r := e.mreel m
  e.setMreel m { r with lost := satAdd r.lost n }

/-- The device address lies in the HBM range or the far-tier window (R227). -/
def Mp.inHbm (p : Mp) (a : Nat) : Bool :=
  decide (p.hbmBase.toNat ≤ a) && decide (a < p.hbmBase.toNat + p.hbmSize * 2 ^ 30)
/-- The device address lies in the far-tier window. -/
def Mp.inFar (p : Mp) (a : Nat) : Bool :=
  decide (p.farBase.toNat ≤ a) && decide (a < p.farBase.toNat + fld p.farCfg.toNat 0 13 * 2 ^ 30)
/-- The device address is cacheable: it has a target (R227). -/
def Mp.cacheable (p : Mp) (a : Nat) : Bool := p.inHbm a || p.inFar a

/-- The first byte of a device range that has no target (R227). Both ranges are 1 GiB aligned. -/
def Mp.firstHole (p : Mp) (a n : Nat) : Option Nat :=
  if n == 0 then none
  else (a :: ((List.range ((a + n - 1) / 2 ^ 30 - a / 2 ^ 30)).map fun i => (a / 2 ^ 30 + 1 + i) * 2 ^ 30)).find?
    fun u => !p.cacheable u

/-- The missing permissions of a refused unit. -/
def Acc.missing (c : Acc) (t : Nat) (m : Fin 64) (rd wr : Bool) (u : Nat) : Bool × Bool :=
  (rd && !c.allows t m false u, wr && !c.allows t m true u)

/-- Counts a denial and records it when none is recorded (R353). Answers whether a message is due. -/
def Eng.noteDenial (e : Eng) (m : Fin 64) (t : Nat) (rd wr size : Bool) (u : Nat) : Eng × Bool :=
  let c := { e.acc with denyCnt := satAdd e.acc.denyCnt 1 }
  if c.denyValid then ({ e with acc := c }, false)
  else
    let info := m.val + t * 2 ^ 8 + b2n wr * 2 ^ 11 + b2n rd * 2 ^ 12 + b2n size * 2 ^ 13
    ({ e with acc := { c with denyValid := true, denyInfo := BitVec.ofNat 32 info, denyAddr := BitVec.ofNat 64 u } },
      true)

/-- Bytes 16 to 31 of an access-denied message (R387). -/
def denyPayload (m : Fin 64) (t : Nat) (rd wr size : Bool) (u : Nat) : Nat :=
  u % 2 ^ 64 + m.val * 2 ^ 64 + t * 2 ^ 72 + (b2n wr + 2 * b2n rd + 4 * b2n size) * 2 ^ 80

/-- Takes the next sequence number of a source (R88). -/
def Eng.takeSeq (e : Eng) (cls inst : Nat) : Eng × W32 :=
  let k := cls * 256 + inst
  let s := e.fe.seqs.get 0 k
  ({ e with fe := { e.fe with seqs := e.fe.seqs.set 0 k (s + 1) } }, s)

/-- Bytes 1 to 31 of a message record (R86), taking the source's next sequence number. -/
def Eng.mkRec (e : Eng) (cls inst code payload : Nat) : Eng × List Byte :=
  let (e, s) := e.takeSeq cls inst
  (e, leBytes 1 cls ++ leBytes 2 inst ++ leBytes 4 s.toNat ++ leBytes 2 code ++ leBytes 2 0 ++
    leBytes 4 e.hth.time.toNat ++ leBytes 16 payload)

/-- Why the housekeeping master may not write a record at an address: the denied unit, and whether it has no target. -/
def Eng.recRefused (e : Eng) (host : Bool) (a n : Nat) : Option (Nat × Bool) :=
  if host then (e.acc.firstDenied 5 63 false true a n).map (·, false)
  else match e.mp.firstHole a n with
    | some u => some (u, true)
    | none => (e.acc.firstDenied 4 63 false true a n).map (·, false)

/-- Updates the bytes of a resident line's sector that a wide or write-through write covers (R236): a dirty sector that
is covered whole becomes clean. `off` is the first byte of `bs` within the sector. -/
def Sector.cover (s : Sector) (off : Nat) (bs : List Byte) : Sector :=
  if s.valid then
    { s with data := splice s.data off bs, dirty := s.dirty && !(off == 0 && bs.length == 64) }
  else s

/-- The part of a write [a, a + bs.length) that falls in the sector at `sa`: its offset and its bytes. -/
def sliceFor (a : Nat) (bs : List Byte) (sa : Nat) : Nat × List Byte :=
  if a ≤ sa then (0, (bs.drop (sa - a)).take 64) else (a - sa, bs.take (64 - (a - sa)))

/-- The sector addresses that a range touches. -/
def sectorsOf (a n : Nat) : List Nat :=
  if n == 0 then [] else (List.range ((a + n - 1) / 64 - a / 64 + 1)).map fun i => (a / 64 + i) * 64

/-- The line addresses (a[63:7]) that a range touches. -/
def linesOf (a n : Nat) : List Nat :=
  if n == 0 then [] else (List.range ((a + n - 1) / 128 - a / 128 + 1)).map fun i => a / 128 + i

/-- The slice of a line (R227). -/
def sliceOf (line : Nat) : Nat := xorFold 6 10 line
/-- The set of a line (R227). -/
def setOf (line : Nat) : Nat := line % 1024

/-- Covers one sector of the resident line and of the eviction buffer (R235, R236). -/
def Swd.coverSector (w : Swd) (sa off : Nat) (bs : List Byte) : Swd :=
  let line := sa / 128
  let hi := sa / 64 % 2 == 1
  let w := match w.lines.get none line with
    | none => w
    | some l =>
      let l := if hi then { l with s1 := l.s1.cover off bs } else { l with s0 := l.s0.cover off bs }
      { w with lines := w.lines.set none line (some l) }
  let one (v : Evict) : Evict :=
    if v.line != line then v
    else if hi then { v with d1 := v.d1.map fun d => splice d off bs }
    else { v with d0 := v.d0.map fun d => splice d off bs }
  { w with evb := w.evb.modify [] (sliceOf line) fun q => q.map one }

/-- Covers every sector of a write in the sward (R236). -/
def Swd.cover (w : Swd) (a : Nat) (bs : List Byte) : Swd :=
  (sectorsOf a bs.length).foldl (fun w sa => w.coverSector sa (sliceFor a bs sa).1 (sliceFor a bs sa).2) w

/-- Charges a request to the regulators (R249): the allotment and the first partition that holds it, or the far tier.
Credits are in quarter bytes. -/
def Mp.charge (p : Mp) (a n : Nat) : Mp :=
  let sub (c : SMap Int) (k : Nat) : SMap Int := SMap.modify 0 c k fun x => x - 4 * (n : Int)
  if p.inHbm a then
    let g := (a - p.hbmBase.toNat) / 2 ^ 30
    let part := (List.range 16).find? fun i =>
      let w := (p.parts.get 0 i).toNat
      decide (fld w 0 10 ≤ g) && decide (g < fld w 0 10 + fld w 10 10)
    let c := sub p.credit 0
    match part with
    | some i => { p with credit := if fld (p.parts.get 0 i).toNat 20 12 = 0 then c else sub c (i + 1) }
    | none => { p with credit := c }
  else { p with credit := sub p.credit 17 }

/-- Counts `n` bytes moved (R253): by a narrow port, or by a wide port to and from HBM, and on the far-tier route. -/
def Mp.count (p : Mp) (wide : Bool) (a n : Nat) : Mp :=
  let c := if wide then p.ctrs else p.ctrs.add 0 n
  { p with ctrs := if p.inHbm a then (if wide then c.add 1 n else c) else c.add 2 n }

/-- The pieces of a range, none across a 4 KiB page (R247): address and bytes. -/
def pagesOf (a n : Nat) : List (Nat × Nat) :=
  if n == 0 then []
  else (List.range ((a + n - 1) / 4096 - a / 4096 + 1)).map fun i =>
    let lo := max a ((a / 4096 + i) * 4096)
    (lo, min (a + n) ((a / 4096 + i + 1) * 4096) - lo)

/-- The wide port of an address's page (R247): the XOR of the 5-bit fields of a[63:12]. -/
def widePort (a : Nat) : Nat := xorFold 5 11 (a / 4096)

/-- Moves `n` bytes on wide (`wide`) or narrow ports, or on the far-tier route, page by page (R247): charges the regulators and
counts. -/
def Mp.move (p : Mp) (wide : Bool) (a n : Nat) : Mp :=
  (pagesOf a n).foldl (fun p x => (p.charge x.1 x.2).count wide x.1 x.2) p

/-- A write to device memory past the sward: a wide write or a write-through, snooped (R228, R236). -/
def Eng.thruWr (e : Eng) (wide : Bool) (a : Nat) (bs : List Byte) : Eng :=
  { e with dev := e.dev.wrN a bs, swd := e.swd.cover a bs, mp := e.mp.move wide a bs.length }

/-- A raw write of engine bytes to either memory, along the wide path on the device side. -/
def Eng.putBytes (e : Eng) (host : Bool) (a : Nat) (bs : List Byte) : Eng :=
  if host then { e with host := e.host.wrN a bs } else e.thruWr true a bs

/-- Writes a record into an enabled message reel with space (R86, R89, R90): a refused write counts it lost. Answers the
refused unit. -/
def Eng.emit (e : Eng) (m : Nat) (rec : List Byte) : Eng × Option (Nat × Bool) :=
  let r := e.mreel m
  let host := bit r.cfg.toNat 1
  let a := r.base.toNat + 32 * (r.wr.toNat % r.size)
  match e.recRefused host a 32 with
  | some u => (e.lose m 1, some u)
  | none =>
    let stamp := 0x80 + r.wr.toNat / r.size % 128
    let e := (e.putBytes host (a + 8) (rec.drop 7)).putBytes host a (leBytes 1 stamp ++ rec.take 7)
    let e := e.setMreel m { e.mreel m with wr := r.wr + 1 }
    (e.irq m, none)

/-- Writes what a reel owes while it is enabled and has space (R89): the messages-lost record first, then held records. A refused
record is lost and the next one takes its slot; after a refusal no report is tried again in this pass (log entry 182). Answers
the refused units. -/
def Eng.flushReel : Nat → Eng → Nat → Bool → Eng × List (Nat × Bool)
  | 0, e, _, _ => (e, [])
  | k + 1, e, m, rep =>
    let r := e.mreel m
    if !r.enabled || r.full then (e, [])
    else if rep && r.lost != 0 then
      let (e, rec) := (e.setMreel m { r with lost := 0 }).mkRec 0xE m 0x0020 r.lost.toNat
      let (e, u) := e.emit m rec
      let (e, us) := e.flushReel k m u.isNone
      (e, u.toList ++ us)
    else match r.held with
      | [] => (e, [])
      | rec :: rest =>
        let (e, u) := (e.setMreel m { r with held := rest }).emit m rec
        let (e, us) := e.flushReel k m (rep && u.isNone)
        (e, u.toList ++ us)

/-- Hands a record to its reel (R87, R89): lost when the reel is disabled, held when it is full, else written. -/
def Eng.hand (e : Eng) (m : Nat) (rec : List Byte) : Eng × List (Nat × Bool) :=
  let r := e.mreel m
  if !r.enabled then (e.lose m 1, [])
  else if r.held.length < 64 then (e.setMreel m { r with held := r.held ++ [rec] }).flushReel 130 m true
  else (e.lose m 1, [])

/-- The message reel of engine-wide records (R87). -/
def Eng.evtReel (e : Eng) : Nat := e.fe.evtReel.toNat

/-- The message reel of command reel `n` (R87). -/
def Eng.mreelOf (e : Eng) (n : Nat) : Nat := fld (e.reel n).cfg.toNat 9 4

/-- The message reel of an event (R87): that of the command whose work causes it; else LE_MSG_EVT_REEL. -/
def Eng.evt (e : Eng) : Nat := match e.fe.cause with
  | some r => e.mreelOf r
  | none => e.evtReel

/-- Makes a change on behalf of the work of a reel's command, so that its messages go to that reel's message reel (R87). -/
def Eng.behalf (e : Eng) (work : Option (Fin 64)) (f : Eng → Eng) : Eng :=
  match work with
  | none => f e
  | some r =>
    let e' := f { e with fe := { e.fe with cause := some r } }
    { e' with fe := { e'.fe with cause := none } }

/-- Notes a refused record write of the housekeeping master at reel `m` (R227, R352, R353). Answers whether a message is due. -/
def Eng.noteRec (e : Eng) (m : Nat) (u : Nat × Bool) : Eng × Bool :=
  let e := if u.2 then { e with mp := { e.mp with noTarget := true } } else e
  e.noteDenial 63 (if bit (e.mreel m).cfg.toNat 1 then 5 else 4) false true false u.1

/-- Notes the refused record writes at reel `m`, and posts the access-denied message when one is the first denial. Refused
records that follow from that message are only counted. -/
def Eng.recDenied (e : Eng) (m : Nat) (us : List (Nat × Bool)) : Eng :=
  us.foldl (fun e u =>
    match e.noteRec m u with
    | (e, false) => e
    | (e, true) =>
      let (e, rec) := e.mkRec 0 0 0x0100 (denyPayload 63 (if bit (e.mreel m).cfg.toNat 1 then 5 else 4) false true false u.1)
      let (e, vs) := e.hand e.evtReel rec
      vs.foldl (fun e v => (e.noteRec e.evtReel v).1) e) e

/-- Writes what reel `m` owes (R89), with a refused write noted. -/
def Eng.flush (e : Eng) (m : Nat) : Eng :=
  let (e, us) := e.flushReel 130 m true
  e.recDenied m us

/-- Posts a message to message reel `m` (R86 to R90); a logged event's record is written first (R394). -/
def Eng.post (e : Eng) (m cls inst code payload : Nat) : Eng :=
  let e := if logged code then e.logRec code cls inst payload false else e
  let (e, rec) := e.mkRec cls inst code payload
  let (e, us) := e.hand m rec
  e.recDenied m us

/-- Posts an event's message (R87). -/
def Eng.postEvt (e : Eng) (cls inst code payload : Nat) : Eng := e.post e.evt cls inst code payload

/-- The work tag of a command, placed at bytes 28 to 31 of a payload (R386). -/
def workTag (reel : Fin 64) (count : W24) : Nat := (count.toNat + reel.val * 2 ^ 24 + 2 ^ 31) * 2 ^ 96

/-- A denial (R353): counted, and recorded and reported when it is the first unreported one. -/
def Eng.deny (e : Eng) (m : Fin 64) (t : Nat) (rd wr size : Bool) (u : Nat) : Eng :=
  match e.noteDenial m t rd wr size u with
  | (e, false) => e
  | (e, true) => e.post e.evtReel 0 0 0x0100 (denyPayload m t rd wr size u)

/-- The check of an access at a target (R349 to R353): the engine after it, and whether the access is granted. A device
access with no target is answered as a denial (R227). -/
def Eng.check (e : Eng) (t : Nat) (m : Fin 64) (rd wr : Bool) (lo n : Nat) : Eng × Bool :=
  match (if t = 3 ∨ t = 4 then e.mp.firstHole lo n else none) with
  | some u => (({ e with mp := { e.mp with noTarget := true } }).deny m t rd wr false u, false)
  | none =>
    match e.acc.firstDenied t m rd wr lo n with
    | none => (e, true)
    | some u =>
      let (r, w) := e.acc.missing t m rd wr u
      (e.deny m t r w false u, false)

/-- The check of a memory access: host memory at HOST, device memory at SWD (`wide` false) or WIDE. -/
def Eng.checkMem (e : Eng) (host wide : Bool) (m : Fin 64) (rd wr : Bool) (a n : Nat) : Eng × Bool :=
  e.check (if host then 5 else if wide then 4 else 3) m rd wr a n

/-! ### Reads of memory -/

/-- The newest eviction-buffer data of a sector (R235). -/
def Swd.evbSector (w : Swd) (sa : Nat) : Option (List Byte) :=
  ((w.evb.get [] (sliceOf (sa / 128))).reverse.find? fun v =>
    v.line == sa / 128 && (if sa / 64 % 2 == 1 then v.d1 else v.d0).isSome).bind
      fun v => if sa / 64 % 2 == 1 then v.d1 else v.d0

/-- The resident sector, if it is valid. -/
def Swd.sector (w : Swd) (sa : Nat) : Option Sector :=
  ((w.lines.get none (sa / 128)).map fun l => if sa / 64 % 2 == 1 then l.s1 else l.s0).filter (·.valid)

/-- The 64 bytes an engine read of a sector returns: from a dirty sector or the eviction buffer; through the sward
(`wide` false) from any valid sector; otherwise from memory (R235, R236, R241). -/
def Eng.rdSector (e : Eng) (wide : Bool) (sa : Nat) : List Byte :=
  match e.swd.sector sa with
  | some s => if s.dirty || !wide then s.data else e.dev.rdN sa 64
  | none => (e.swd.evbSector sa).getD (e.dev.rdN sa 64)

/-- The bytes an engine read of device memory returns. -/
def Eng.rdDev (e : Eng) (wide : Bool) (a n : Nat) : List Byte :=
  (((sectorsOf a n).flatMap fun sa => e.rdSector wide sa).drop (a % 64)).take n

/-- The bytes an engine read returns, of either memory. -/
def Eng.rdMem (e : Eng) (host wide : Bool) (a n : Nat) : List Byte :=
  if host then e.host.rdN a n else e.rdDev wide a n

/-- The sward supplies a sector to a wide read (R236): it holds the sector dirty, resident or in a buffer. -/
def Swd.supplies (w : Swd) (sa : Nat) : Bool :=
  match w.sector sa with
  | some s => s.dirty
  | none => (w.evbSector sa).isSome

/-- A wide read's ports (R236, R247, R249): each page moves its bytes but for those that the sward supplies. -/
def Eng.wideMove (e : Eng) (a n : Nat) : Eng :=
  let own (x : Nat × Nat) : Nat := (((sectorsOf x.1 x.2).filter e.swd.supplies).map fun sa =>
    min (x.1 + x.2) (sa + 64) - max x.1 sa).sum
  { e with mp := (pagesOf a n).foldl (fun p x => (p.charge x.1 (x.2 - own x)).count true x.1 (x.2 - own x)) e.mp }

/-- A read of host memory, or one along the wide path, with its ports' counting. -/
def Eng.read (e : Eng) (host : Bool) (a n : Nat) : Eng × List Byte :=
  (if host then e else e.wideMove a n, e.rdMem host true a n)

/-- How the read of a range is answered (R251, R254): a sector whose far-tier request has timed out is answered as timed out,
and one that a restart of the ports cut off as uncorrectable, whatever the environment says. -/
def Eng.answer (e : Eng) (a n : Nat) (r : ReadRes) : ReadRes :=
  if (sectorsOf a n).any fun sa => e.mp.dead.contains (sa / 64) then .farTimeout
  else if (sectorsOf a n).any fun sa => e.mp.cut.contains (sa / 64) then .uncorr else r

/-- The timed-out sectors of a range have been answered (R251). -/
def Eng.answered (e : Eng) (a n : Nat) : Eng :=
  let keep (s : Nat) : Bool := !((sectorsOf a n).contains (s * 64))
  { e with mp := { e.mp with dead := e.mp.dead.filter keep, cut := e.mp.cut.filter keep } }

/-! ### Writes by work -/

/-- The work that makes an access: its master, its command, and the owner whose writes it waits for (R248). -/
structure Who where
  m   : Fin 64
  cmd : Option (Fin 64 × W24)
  own : Owner

/-- The work of a ticketed instruction. -/
def Hdr.who (h : Hdr) : Who := { m := h.master, cmd := some (h.reel, h.count), own := .ticket h.key }

/-- Records the device pages that a command (`some`) or the carrier core (`none`) wrote (R259). -/
def Hc.wrote (c : Hc) (who : Option (Fin 64 × W24)) (a n : Nat) : Hc :=
  { c with stale := c.stale ++ (((pagesOf a n).map fun x => (x.1 / 4096, who)).filter fun x => !c.stale.contains x) }

/-- Records the device pages that a command's write touches (R259). -/
def Hc.touch (c : Hc) (cmd : Option (Fin 64 × W24)) (a n : Nat) : Hc := match cmd with
  | none => c
  | some w => c.wrote (some w) a n

/-- Counts a write that is not acknowledged yet (R248). -/
def Mp.owe (p : Mp) (o : Owner) : Mp :=
  match o with
  | .engine => p
  | _ => match p.acks.find? (·.1 == o) with
    | some (_, n) => { p with acks := p.acks.map fun x => if x.1 == o then (o, n + 1) else x }
    | none => { p with acks := p.acks ++ [(o, 1)] }

/-- Writes of an owner not acknowledged yet. -/
def Mp.owed (p : Mp) (o : Owner) : Nat := ((p.acks.find? (·.1 == o)).map (·.2)).getD 0

/-- A write by work along the wide or host path, to be acknowledged (R228, R248). -/
def Eng.write (e : Eng) (w : Who) (host : Bool) (a : Nat) (bs : List Byte) : Eng :=
  if bs.isEmpty then e
  else
    let e := e.putBytes host a bs
    { e with hc := if host then e.hc else e.hc.touch w.cmd a bs.length, mp := e.mp.owe w.own }

/-- A free byte: eight free bits (log entry 3). -/
def Eng.freeByte (e : Eng) : Eng × Byte :=
  ({ e with free := e.free + 8 },
    BitVec.ofNat 8 (((List.range 8).map fun i => b2n (Config.freeBit (e.free + i)) * 2 ^ i).sum))

/-- `n` free bytes. -/
def Eng.freeBytes : Nat → Eng → Eng × List Byte
  | 0, e => (e, [])
  | n + 1, e =>
    let (e, b) := e.freeByte
    let (e, bs) := e.freeBytes n
    (e, b :: bs)

/-- One free bit (log entry 3). -/
def Eng.freeBit (e : Eng) : Eng × Bool := ({ e with free := e.free + 1 }, Config.freeBit e.free)

/-! ### Running -/

/-- The engine runs: it has reached the first configured state and its clocks have not failed (R364, R377). -/
def State.runs (s : State) : Bool := s.ao.phase == .configured && !s.ao.clkFail

/-- Applies an effect of the islands a reset holds; before the first configured state and after a clock failure it does
not happen (R364, R377). -/
def State.live (s : State) (f : Eng → Eng) : State := if s.runs then { s with eng := f s.eng } else s

end Sys2Proof.Machine
end

