-- ==== Sys2Proof/Machine/Crypto.lean ====
section
/-! DEFINITION. The two digests and the generator the engine offers: CRC-32C (R53), SHA-256 (R330) and Philox4x32-10
(R355). -/

namespace Sys2Proof.Machine

open Sys2Proof

/-! ### CRC-32C -/

/-- One bit of the reflected Castagnoli division (polynomial 0x1EDC6F41). -/
def crcBit (c : Nat) : Nat := if c % 2 = 1 then (c / 2) ^^^ 0x82F63B78 else c / 2

/-- One byte. -/
def crcByte (c : Nat) (b : Byte) : Nat :=
  crcBit (crcBit (crcBit (crcBit (crcBit (crcBit (crcBit (crcBit (c ^^^ b.toNat))))))))

/-- CRC-32C of a byte list (R53): initial value and final XOR all ones. -/
def crc32c (bs : List Byte) : Nat := (bs.foldl crcByte 0xFFFFFFFF) ^^^ 0xFFFFFFFF

/-! ### SHA-256 (R330)

The standard gives its constants as the first 32 fraction bits of roots of primes; so does this text. -/

/-- The first 64 primes, the ones below 312. -/
def shaPrimes : List Nat :=
  (List.range 312).filter fun n => 1 < n && (List.range 18).all fun d => d < 2 || n == d || n % d != 0

/-- The `k`-th root of `n`, rounded down, below `r + 2 ^ b`, where `r` is not above it: its bits from the top. -/
def rootFrom (k n : Nat) : Nat → Nat → Nat
  | 0, r => r
  | b + 1, r => rootFrom k n b (if (r + 2 ^ b) ^ k ≤ n then r + 2 ^ b else r)

/-- The first 32 fraction bits of the `k`-th root of `n`. -/
def rootBits (k n : Nat) : W32 := BitVec.ofNat 32 (rootFrom k (n * 2 ^ (32 * k)) 37 0)

/-- The constant of each round: cube roots. -/
def shaK : List W32 := shaPrimes.map (rootBits 3)

/-- The hash value before the first block: square roots. -/
def shaInit : List W32 := (shaPrimes.take 8).map (rootBits 2)

/-- XOR of a word's rotations to the right. -/
def turns (x : W32) (ns : List Nat) : W32 := ns.foldl (fun y n => y ^^^ x.rotateRight n) 0

/-- The message schedule grown by `n` words, newest first. -/
def shaSched : Nat → List W32 → List W32
  | 0, w => w
  | n + 1, w =>
    let ago (i : Nat) : W32 := w.getD (i - 1) 0
    let near := turns (ago 2) [17, 19] ^^^ (ago 2 >>> 10)
    let far := turns (ago 15) [7, 18] ^^^ (ago 15 >>> 3)
    shaSched n ((near + ago 7 + far + ago 16) :: w)

/-- One round with the sum of its constant and its schedule word: two words are computed and all shift down by one. -/
def shaRound (v : List W32) (kw : W32) : List W32 :=
  let at_ (i : Nat) : W32 := v.getD i 0
  let choose := at_ 6 ^^^ (at_ 4 &&& (at_ 5 ^^^ at_ 6))
  let most := (at_ 0 &&& (at_ 1 ||| at_ 2)) ||| (at_ 1 &&& at_ 2)
  let t := at_ 7 + turns (at_ 4) [6, 11, 25] + choose + kw
  (t + turns (at_ 0) [2, 13, 22] + most) :: v.take 3 ++ (at_ 3 + t) :: (v.drop 4).take 3

/-- A big-endian word of four bytes. -/
def beWord (bs : List Byte) : W32 := BitVec.ofNat 32 (bs.foldl (fun a b => a * 256 + b.toNat) 0)

/-- One 64-byte block. -/
def shaBlock (h : List W32) (bs : List Byte) : List W32 :=
  let w := ((List.range 16).map fun i => beWord ((bs.drop (4 * i)).take 4)).reverse
  let r := (List.zipWith (· + ·) shaK (shaSched 48 w).reverse).foldl shaRound h
  (h.zip r).map fun p => p.1 + p.2

/-- The blocks in turn; `n` counts them. -/
def shaBlocks : Nat → List W32 → List Byte → List W32
  | 0, h, _ => h
  | n + 1, h, bs => shaBlocks n (shaBlock h (bs.take 64)) (bs.drop 64)

/-- SHA-256 of a byte list: 32 bytes, the first byte of H0 first (R330). -/
def sha256 (bs : List Byte) : List Byte :=
  let n := bs.length
  let m := bs ++ [0x80] ++ List.replicate ((119 - n % 64) % 64) 0 ++ (leBytes 8 (8 * n)).reverse
  (shaBlocks (m.length / 64) shaInit m).flatMap fun w => (leBytes 4 w.toNat).reverse

/-- SHA-256 as a number, for keeping. -/
def shaNat (bs : List Byte) : BitVec 256 := BitVec.ofNat 256 (leNat (sha256 bs))

/-! ### Philox4x32-10 (R355) -/

/-- One round on four counter words with the round's key. -/
def philoxRound (k0 k1 : Nat) (x : Nat × Nat × Nat × Nat) : Nat × Nat × Nat × Nat :=
  let p0 := 0xD2511F53 * x.1
  let p1 := 0xCD9E8D57 * x.2.2.1
  ((p1 / 2 ^ 32) ^^^ x.2.1 ^^^ k0, p1 % 2 ^ 32, (p0 / 2 ^ 32) ^^^ x.2.2.2 ^^^ k1, p0 % 2 ^ 32)

/-- The rounds, the key bumped by the Weyl constants between them. -/
def philoxRounds : Nat → Nat → Nat → Nat × Nat × Nat × Nat → Nat × Nat × Nat × Nat
  | 0, _, _, x => x
  | n + 1, k0, k1, x =>
    philoxRounds n ((k0 + 0x9E3779B9) % 2 ^ 32) ((k1 + 0xBB67AE85) % 2 ^ 32) (philoxRound k0 k1 x)

/-- One block of a stream with key `k` at counter `c` (R355): four words, x0 first. -/
def philox (k c : W128) : List Nat :=
  let v := c.toNat ^^^ (k.toNat / 2 ^ 64 * 2 ^ 64)
  let r := philoxRounds 10 (fld k.toNat 0 32) (fld k.toNat 32 32) (fld v 0 32, fld v 32 32, fld v 64 32, fld v 96 32)
  [r.1, r.2.1, r.2.2.1, r.2.2.2]

/-- The words of `n` consecutive blocks. -/
def philoxWords (k : W128) : Nat → W128 → List Nat
  | 0, _ => []
  | n + 1, c => philox k c ++ philoxWords k n (c + 1)

end Sys2Proof.Machine
end

