-- ==== Sys2Proof/Machine/SwardOps.lean ====
section
/-! DEFINITION. The sward's shared operations (R227 to R240): replacement, eviction, write-back writes, lookups of demand
reads, misses and their fills, prefetch, and the write-backs of VIS 1. -/

namespace Sys2Proof.Machine

open Sys2Proof

/-- Changes the sward block. -/
def Eng.onSwd (e : Eng) (f : Swd → Swd) : Eng := { e with swd := f e.swd }
/-- Counts in a sward counter (R253). -/
def Swd.count (w : Swd) (i n : Nat) : Swd := { w with ctrs := w.ctrs.add i n }

/-- A way of a set is retired (R245). -/
def Swd.wayRetired (w : Swd) (slice set way : Nat) : Bool :=
  w.defects.any fun d => d.kind == 1 && d.unit == slice && d.index == set && d.way == way && d.st == 3

/-- The usable ways of a set (R231). -/
def Swd.usable (w : Swd) (slice set : Nat) : List Nat := (List.range 20).filter fun y => !w.wayRetired slice set y

/-- Lines a set may hold pinned (R232). -/
def Swd.pinLimit (w : Swd) (slice set : Nat) : Nat := min 16 ((w.usable slice set).length - 4)

/-- The resident lines of a set. -/
def Swd.inSet (w : Swd) (slice set : Nat) : List (Nat × Line) :=
  w.lines.filterMap fun (k, l) => if setOf k == set && sliceOf k == slice then l.map (k, ·) else none

/-- Pinned by either bit (R231). -/
def Line.pinned (l : Line) : Bool := l.ppin || l.mpin

/-- The lowest-numbered way that step 2 of R231 allows, with the line it holds. -/
def Swd.victim (w : Swd) (slice set : Nat) : Option (Nat × Nat) :=
  ((w.usable slice set).filterMap fun y =>
    ((w.inSet slice set).find? fun (k, l) => l.way == y && !l.pinned && !l.ref && !w.miss.any (·.line == k)).map
      fun (k, _) => (y, k)).head?

/-- Step 3 of R231: clears the reference bits of a set's unpinned ways but for the one referenced last. -/
def Swd.clearRefs (w : Swd) (slice set : Nat) : Swd :=
  let last := w.lastRef.get none (1024 * slice + set)
  { w with lines := (w.inSet slice set).foldl (fun (m : SMap (Option Line)) (x : Nat × Line) =>
      if x.2.pinned || last == some x.1 then m else SMap.set none m x.1 (some { x.2 with ref := false })) w.lines }

/-- The way a line allocates in (R231), with the line that must leave it: none when no way qualifies. -/
def Swd.choose (w : Swd) (line : Nat) : Swd × Option (Nat × Option Nat) :=
  let sl := sliceOf line
  let st := setOf line
  match (w.usable sl st).find? fun y => !(w.inSet sl st).any fun x => x.2.way == y with
  | some y => (w, some (y, none))
  | none =>
    match w.victim sl st with
    | some (y, k) => (w, some (y, some k))
    | none =>
      let w := w.clearRefs sl st
      (w, (w.victim sl st).map fun (y, k) => (y, some k))

/-- The slice that prefetched a line (R230): that of the line before it. -/
def pfSlice (line : Nat) : Nat := sliceOf (line - 1)

/-- Lowers the prefetch credit of the slice whose prefetched line leaves without a hit (R230). -/
def Swd.unusedPf (w : Swd) (line : Nat) (l : Line) : Swd :=
  if l.pf then { w with credit := w.credit.modify 8 (pfSlice line) (· - 1) } else w

/-- Sector traffic of a narrow port that the regulators do not charge (R246, R249): prefetches and write-backs. -/
def Eng.narrow (e : Eng) (a n : Nat) : Eng := { e with mp := e.mp.count false a n }

/-- Writes one eviction entry to memory (R234). -/
def Eng.writeEvict (e : Eng) (v : Evict) : Eng :=
  let put (e : Eng) (half : Nat) (d : Option (List Byte)) : Eng := match d with
    | none => e
    | some bs => ({ e with dev := e.dev.wrN (v.line * 128 + 64 * half) bs } : Eng).narrow (v.line * 128 + 64 * half) 64
  put (put e 0 v.d0) 1 v.d1

/-- Drains the oldest entry of a slice's eviction buffer (R234). -/
def Eng.drainOne (e : Eng) (slice : Nat) : Eng :=
  match e.swd.evb.get [] slice with
  | [] => e
  | v :: rest => (e.writeEvict v).onSwd fun w => { w with evb := w.evb.set [] slice rest }

/-- A line leaves its way (R234): a dirty one moves into the eviction buffer, which drains its oldest entry first when
it is full, the stall being counted. -/
def Eng.evict (e : Eng) (line : Nat) : Eng :=
  match e.swd.lines.get none line with
  | none => e
  | some l =>
    let e := e.onSwd fun w => ({ w with lines := w.lines.set none line none }).unusedPf line l
    if l.s0.dirty || l.s1.dirty then
      let sl := sliceOf line
      let e := if (e.swd.evb.get [] sl).length ≥ 256 then (e.drainOne sl).onSwd (·.count 4 1) else e
      let v : Evict := { line := line, d0 := if l.s0.dirty then some l.s0.data else none,
                         d1 := if l.s1.dirty then some l.s1.data else none }
      e.onSwd fun w => { w with evb := w.evb.modify [] sl (· ++ [v]) }
    else e

/-- The newest eviction entry of a line leaves the buffer: its sectors, dirty (R235). Older entries of the line stay and
drain before the line is written back again. -/
def Swd.takeEvict (w : Swd) (line : Nat) : Swd × Sector × Sector :=
  let q := w.evb.get [] (sliceOf line)
  let mk (d : Option (List Byte)) : Sector := match d with
    | some bs => { valid := true, dirty := true, data := bs }
    | none => {}
  match q.reverse.find? (·.line == line) with
  | none => (w, {}, {})
  | some v =>
    ({ w with evb := w.evb.set [] (sliceOf line) ((q.reverse.erase v).reverse) }, mk v.d0, mk v.d1)

/-- Allocates a line (R231), with the sectors of its eviction entry (R235): answers whether it is resident afterwards. -/
def Eng.allocate (e : Eng) (line : Nat) (ref pf : Bool) : Eng × Bool :=
  match e.swd.lines.get none line with
  | some _ => (e, true)
  | none =>
    match e.swd.choose line with
    | (w, none) => ({ e with swd := w }, false)
    | (w, some (y, out)) =>
      let e : Eng := { e with swd := w }
      let e := match out with
        | some k => e.evict k
        | none => e
      let (w, s0, s1) := e.swd.takeEvict line
      let l : Line := { way := y, s0 := s0, s1 := s1, ref := ref, ppin := false, mpin := false, pf := pf }
      ({ e with swd := { w with lines := w.lines.set none line (some l) } }, true)

/-- Marks a line referenced (R231); its first demand hit earns a prefetched line's slice a credit (R230). -/
def Swd.reference (w : Swd) (line : Nat) : Swd :=
  match w.lines.get none line with
  | none => w
  | some l =>
    let w := { w with lines := w.lines.set none line (some { l with ref := true, pf := false }),
                      lastRef := w.lastRef.set none (1024 * sliceOf line + setOf line) (some line) }
    if l.pf then ({ w with credit := w.credit.modify 8 (pfSlice line) fun c => min 15 (c + 1) }).count 3 1 else w

/-- The sward allocates: it is enabled and no disable writes back (R237, R238). -/
def Swd.allocates (w : Swd) : Bool := w.enabled && !w.disabling

/-- Miss entries in use in a slice (R229). -/
def Swd.entries (w : Swd) (slice : Nat) : Nat := (w.miss.filter fun m => sliceOf m.line == slice).length

/-- A miss entry fetches a sector (R229). -/
def Swd.missing (w : Swd) (line : Nat) (half : Bool) : Bool :=
  w.miss.any fun x => x.line == line && if half then x.w1 else x.w0

/-- The lines of some sectors that would each take a miss entry of their own (R229): cacheable, with a sector that is not valid, and
without an entry. -/
def Eng.newMisses (e : Eng) (sas : List Nat) : List Nat :=
  ((sas.filter fun sa => e.mp.cacheable sa && !(e.swd.miss.any (·.line == sa / 128)) && (e.swd.sector sa).isNone).map (· / 128)).dedup

/-- A sector is fetched from memory through its slice's narrow port (R246, R249), unless an open miss entry fetches it already, which
the access joins (R229). -/
def Eng.fetchSector (e : Eng) (sa : Nat) : Eng :=
  if e.swd.missing (sa / 128) (sa / 64 % 2 == 1) then e else { e with mp := e.mp.move false sa 64 }

/-- An access to some sectors through the sward waits (R229, R237, R254): an enable is pending, the block restarts, or a slice has
no miss entry left that the access needs. -/
def Eng.sectorsWait (e : Eng) (sas : List Nat) : Bool :=
  e.swd.pending || e.busy 5 ||
    (e.swd.allocates && let ks := e.newMisses sas
      ks.any fun k => decide (256 < e.swd.entries (sliceOf k) + (ks.filter fun x => sliceOf x == sliceOf k).length))

/-- An access to a range through the sward waits; `n` = 0 asks about the block only. -/
def Eng.swdWaits (e : Eng) (a n : Nat) : Bool := e.sectorsWait (sectorsOf a n)

/-- Opens or joins a miss entry for sector `half` of a line (R229). A demand that joins a prefetch's entry makes it its own: it is the
miss whose master a further prefetch is checked under (R230, R347). -/
def Swd.openMiss (w : Swd) (m : Fin 64) (line : Nat) (half demand : Bool) : Swd :=
  if w.miss.any (·.line == line) then
    { w with miss := w.miss.map fun x =>
        if x.line == line then { x with w0 := x.w0 || !half, w1 := x.w1 || half, demand := x.demand || demand,
                                        master := if demand && !x.demand then m else x.master } else x }
  else { w with miss := w.miss ++ [{ line := line, w0 := !half, w1 := half, demand := demand, master := m }] }

/-- A demand lookup of one sector on the narrow path (R228, R229): a hit references the line, a miss opens or joins an
entry. -/
def Eng.lookup (e : Eng) (m : Fin 64) (sa : Nat) : Eng :=
  let line := sa / 128
  let half := sa / 64 % 2 == 1
  if !e.swd.enabled || !e.mp.cacheable sa then { e with mp := e.mp.move false sa 64 }
  else match e.swd.sector sa with
    | some _ => e.onSwd fun w => (w.reference line).count 0 1
    | none =>
      let e := if (e.swd.evbSector sa).isSome then e else e.fetchSector sa
      let e := e.onSwd fun w => w.count 1 1
      if e.swd.allocates then { e with swd := e.swd.openMiss m line half true } else e

/-- A demand read of device memory through the sward: every sector looked up, and the bytes it returns. -/
def Eng.readSward (e : Eng) (m : Fin 64) (a n : Nat) : Eng × List Byte :=
  ((sectorsOf a n).foldl (fun e sa => e.lookup m sa) e, e.rdDev false a n)

/-- Sets sector `half` of a resident line. -/
def Swd.setSector (w : Swd) (line : Nat) (half : Bool) (s : Sector) : Swd :=
  match w.lines.get none line with
  | none => w
  | some l => { w with lines := w.lines.set none line (some (if half then { l with s1 := s } else { l with s0 := s })) }

/-- A write-back write of part of one sector would first fill it from memory (R228). -/
def Eng.needsFill (e : Eng) (sa off n : Nat) : Bool :=
  e.swd.allocates && e.mp.cacheable sa && !(off == 0 && n == 64) && (e.swd.sector sa).isNone && (e.swd.evbSector sa).isNone

/-- A write-back write within one sector (R228, R235, R231): the line is allocated, the sector filled, merged and dirty;
where nothing allocates the write goes through to memory. -/
def Eng.backSector (e : Eng) (sa off : Nat) (bs : List Byte) : Eng :=
  let line := sa / 128
  let half := sa / 64 % 2 == 1
  let old := e.rdSector false sa
  let resident := (e.swd.lines.get none line).isSome
  let fill := e.needsFill sa off bs.length
  let (e, ok) :=
    if !e.swd.enabled || !e.mp.cacheable sa then (e, false)
    else if resident then (e, true)
    else if e.swd.allocates then e.allocate line true false
    else (e, false)
  if ok && (e.swd.allocates || (e.swd.sector sa).isSome) then
    let e := if fill then e.fetchSector sa else e
    e.onSwd fun w => (w.setSector line half { valid := true, dirty := true, data := splice old off bs }).reference line
  else e.thruWr false (sa + off) bs

/-- A write-back write of bytes (R228), its fills having succeeded. -/
def Eng.back (e : Eng) (a : Nat) (bs : List Byte) : Eng :=
  (sectorsOf a bs.length).foldl (fun e sa => e.backSector sa ((sliceFor a bs sa).1) ((sliceFor a bs sa).2)) e

/-- The sectors of a write-back write that would be filled first. -/
def Eng.fills (e : Eng) (a : Nat) (bs : List Byte) : List Nat :=
  (sectorsOf a bs.length).filter fun sa => e.needsFill sa (sliceFor a bs sa).1 (sliceFor a bs sa).2.length

/-- Writes back a resident line's dirty sectors (R240). -/
def Eng.writeBack (e : Eng) (line : Nat) : Eng :=
  match e.swd.lines.get none line with
  | none => e
  | some l =>
    let e := e.writeEvict { line := line, d0 := if l.s0.dirty then some l.s0.data else none,
                            d1 := if l.s1.dirty then some l.s1.data else none }
    let l := { l with s0 := { l.s0 with dirty := false }, s1 := { l.s1 with dirty := false } }
    e.onSwd fun w => { w with lines := w.lines.set none line (some l) }

/-- Drains a whole eviction buffer. -/
def Eng.drainSlice (e : Eng) (slice : Nat) : Eng :=
  let q := e.swd.evb.get [] slice
  (q.foldl (fun e v => e.writeEvict v) e).onSwd fun w => { w with evb := w.evb.set [] slice [] }

/-- Writes back every dirty sector and every eviction entry (R240). -/
def Eng.writeBackAll (e : Eng) : Eng :=
  let e := (e.swd.evb.map (·.1)).foldl (fun e s => e.drainSlice s) e
  (e.swd.lines.map (·.1)).foldl (fun e k => e.writeBack k) e

/-- Invalidates a line without write-back (R239): its eviction entries go too. A pinned line keeps its pins and is filled
again from memory. -/
def Eng.invalidate (e : Eng) (line : Nat) : Eng :=
  let e := e.onSwd fun w => { w with evb := w.evb.modify [] (sliceOf line) fun q => q.filter fun v => v.line != line }
  match e.swd.lines.get none line with
  | none => e
  | some l =>
    if l.pinned then
      let f (i : Nat) : Sector := { valid := true, dirty := false, data := e.dev.rdN (line * 128 + 64 * i) 64 }
      let e := (e.fetchSector (line * 128)).fetchSector (line * 128 + 64)
      e.onSwd fun w => { w with lines := w.lines.set none line (some { l with s0 := f 0, s1 := f 1 }) }
    else e.onSwd fun w => ({ w with lines := w.lines.set none line none }).unusedPf line l

/-- Eviction entries of a line drain (R234). -/
def Eng.drainLine (e : Eng) (line : Nat) : Eng :=
  let q := e.swd.evb.get [] (sliceOf line)
  ((q.filter (·.line == line)).foldl (fun e v => e.writeEvict v) e).onSwd fun w =>
    { w with evb := w.evb.set [] (sliceOf line) (q.filter (·.line != line)) }

/-- The lines of a range that the sward holds, resident or in a buffer. -/
def Swd.held (w : Swd) (a n : Nat) : List Nat :=
  ((w.lines.map (·.1)) ++ (w.evb.flatMap fun x => x.2.map (·.line))).dedup.filter fun k =>
    decide (a < (k + 1) * 128) && decide (k * 128 < a + n)

/-- Installs the sectors that a fill returned (R229, R235). -/
def Eng.install (e : Eng) (x : Miss) : Eng :=
  let e := (e.allocate x.line x.demand (!x.demand)).1
  let one (e : Eng) (half : Bool) : Eng :=
    let sa := x.line * 128 + (if half then 64 else 0)
    match e.swd.sector sa with
    | some _ => e
    | none => e.onSwd fun w => w.setSector x.line half { valid := true, dirty := false, data := e.rdSector false sa }
  let e := if x.w0 then one e false else e
  let e := if x.w1 then one e true else e
  if x.demand then e.onSwd fun w => w.reference x.line else e

/-- After a demand read miss allocated line `A`, its slice considers line A + 128 (R230). -/
def Eng.prefetch (e : Eng) (m : Fin 64) (line : Nat) : Eng :=
  let w := e.swd
  let nx := line + 1
  let sl := sliceOf line
  let cr := w.credit.get 8 sl
  let low := if cr < 4 then w.low.get 0 sl + 1 else 0
  let e := if w.pfEn then e.onSwd fun w => { w with low := w.low.set 0 sl (if cr < 4 ∧ low < 16 then low else 0) } else e
  if w.pfEn && w.allocates && nx / 32 == line / 32 && (w.lines.get none nx).isNone
      && !(w.evb.get [] (sliceOf nx)).any (·.line == nx) && !w.miss.any (·.line == nx)
      && decide (w.entries (sliceOf nx) < 192) && (decide (4 ≤ cr) || decide (16 ≤ low))
      && e.mp.cacheable (nx * 128) && (e.acc.firstDenied 3 m true false (nx * 128) 128).isNone then
    let x : Miss := { line := nx, w0 := true, w1 := true, demand := false, master := m }
    (e.onSwd fun w => ({ w with miss := w.miss ++ [x] }).count 2 1).narrow (nx * 128) 128
  else e

/-- Clears every line, pin and buffer without write-back (R238, R239, R254). -/
def Swd.empty (w : Swd) : Swd := { w with lines := [], lastRef := [], miss := [], evb := [] }

/-- Discards the read-ahead buffers of the pages that `p` picks (R259). -/
def Hc.discard (c : Hc) (p : Nat → Bool) : Hc := { c with bufs := c.bufs.filter fun b => !p b.page }

/-- Publishes along path 2 what the writers that `own` picks wrote (R82, R259): the buffers that overlap it are discarded, and the
record of it is cleared (log entry 183). -/
def Hc.publish (c : Hc) (own : Option (Fin 64 × W24) → Bool) : Hc :=
  { c.discard (fun pg => c.stale.any fun x => x.1 == pg && own x.2) with stale := c.stale.filter fun x => !own x.2 }

end Sys2Proof.Machine
end

