-- ==== Sys2Proof/Machine/DirOps.lean ====
section
/-! DEFINITION. What the directors' instructions share (R93 to R124): registers, tickets and their retirement, waits,
program faults, and the end of a LAUNCH. -/

namespace Sys2Proof.Machine

open Sys2Proof

/-! ### Registers and words -/

/-- s[r]; s0 reads zero (R93). -/
def Dir.get (x : Dir) (r : BitVec 5) : W64 := if r = 0 then 0 else x.regs.get 0 r.toNat

/-- Writes s[r]; a write of s0 is discarded (R93). -/
def Dir.put (x : Dir) (r : BitVec 5) (v : W64) : Dir := if r = 0 then x else { x with regs := x.regs.set 0 r.toNat v }

/-- An instruction's write of s[r]: a load still in flight to it no longer writes it (program order, R93). -/
def Dir.putI (x : Dir) (r : BitVec 5) (v : W64) : Dir :=
  (Dir.put { x with lds := x.lds.map fun l => if l.dst == r then { l with dst := 0 } else l } r v)

/-- Descriptor register. -/
def Dir.desc (x : Dir) (i : BitVec 4) : Desc := x.descs.get {} i.toNat

/-- Sets a descriptor register. -/
def Dir.setDesc (x : Dir) (i : BitVec 4) (v : Desc) : Dir := { x with descs := x.descs.set {} i.toNat v }

/-- The fields that an instruction does not use are zero (R95): the flags say which it uses, the mask which bits of imm. -/
def iuses (w : IWord) (dst sa sb desc : Bool) (mask : Nat) : Bool :=
  (dst || w.dst == 0) && (sa || w.sa == 0) && (sb || w.sb == 0) && (desc || w.desc == 0) &&
    (w.imm &&& ~~~(BitVec.ofNat 37 mask)) == 0

/-- The next ticket (R107): the count plus 1, skipping 0. -/
def Dir.nextTicket (x : Dir) : W32 := if x.tcount + 1 = 0 then 1 else x.tcount + 1

/-- The slot of a ticket. -/
def Dir.slot (x : Dir) (t : W32) : Option TSlot := x.slots.get none (t.toNat % 256)

/-- The slot is free for a new ticket (R107). -/
def Dir.slotFree (x : Dir) (t : W32) : Bool :=
  match x.slot t with
  | none => true
  | some s => s.out.isSome

/-- Every ticket has retired (R111). -/
def Dir.allRetired (x : Dir) : Bool :=
  x.slots.all fun p => match p.2 with
    | some s => s.out.isSome
    | none => true

/-- The outcome a mode-1 WAITT reports (R111): the worst status, and the OR of the flags. -/
def Dir.outcome (x : Dir) : Byte × BitVec 4 :=
  let outs := x.slots.filterMap fun p => p.2.bind (·.out)
  let has (c : Byte) : Bool := outs.any (·.1 == c)
  (if has 3 then 3 else if has 4 then 4 else if has 1 then 1 else if has 2 then 2 else 0,
    outs.foldl (fun f o => f ||| o.2) 0)

/-- s[dst] as WAITT writes it (R111): status in [7:0], flags in [11:8]. -/
def outcomeWord (o : Byte × BitVec 4) : W64 := BitVec.ofNat 64 (o.1.toNat + o.2.toNat * 256)

/-! ### The end of a program -/

/-- The command has finished its work. -/
def Cmd.finished (c : Cmd) : Bool := match c.phase with
  | .done .. => true
  | _ => false

/-- Marks a dispatched command finished, with its status, flags and detail (R84). One that a restart ended stays aborted. -/
def Eng.finishCmd (e : Eng) (reel : Nat) (count : W24) (status : Byte) (flags : BitVec 4) (detail : W32) : Eng :=
  let r := e.reel reel
  e.setReel reel { r with inflight := r.inflight.map fun c =>
    if c.count == count && !c.finished then { c with phase := .done status flags detail } else c }

/-- Everything a HALT or a FENCE waits for in the director itself (R98, R115): tickets retired, loads and stores done. -/
def Eng.dirQuiet (e : Eng) (d : Fin 8) : Bool :=
  let x := e.dir d
  x.allRetired && x.lds.isEmpty && e.mp.owed (.dirAcc d) == 0

/-- Steps 4 and 5 of R98: the exit code is written and the LAUNCH finishes. -/
def Eng.endProgram (e : Eng) (d : Fin 8) : Eng :=
  let x := e.dir d
  let code : W16 := if x.bad then 0 else x.exitNext
  let status : Byte := if x.aborted then 5 else if x.bad then 4 else 0
  let e := e.setDir d { x with st := .idle, wait := .none, exit := code, reserved := false }
  e.finishCmd x.reel x.count status x.flags (BitVec.ofNat 32 (d.val + code.toNat * 2 ^ 16))

/-- The publication of R82 along named paths (bit k - 1 for path k), for the writers that `own` picks (`none` is the carrier core):
paths 1 and 2 write the sward back, path 2 discards the read-ahead buffers over what they wrote (R240, R259). Paths 3 and 4 are
waits. -/
def Eng.publish (e : Eng) (paths : BitVec 4) (own : Option (Fin 64 × W24) → Bool) : Eng :=
  let e := if bit paths.toNat 0 || bit paths.toNat 1 then e.writeBackAll else e
  if bit paths.toNat 1 then { e with hc := e.hc.publish own } else e

/-- A finished wait: the director goes on after the waiting instruction, which is 8 bytes long. -/
def Dir.cont (x : Dir) : Dir := { x with st := .running, wait := .none, pc := x.pc + 8 }

/-- The director's wait is examined again (R98, R111, R115): a finished WAITT or FENCE lets it run, a drained program
ends. -/
def Eng.settle (e : Eng) (d : Fin 8) : Eng :=
  let x := e.dir d
  let run (x : Dir) : Dir := x.cont
  match x.st, x.wait with
  | .waiting, .ticket dst t =>
    match x.slot t with
    | some s => if s.ticket == t then
        match s.out with
        | some o => e.setDir d ((run x).putI dst (outcomeWord o))
        | none => e
      else e
    | none => e
  | .waiting, .allTickets dst => if x.allRetired then e.setDir d ((run x).putI dst (outcomeWord x.outcome)) else e
  | .waiting, .fence paths =>
    if e.dirQuiet d && (!bit paths.toNat 3 || x.peerOps == 0) then
      if bit paths.toNat 2 then
        let e := e.setDir d { x with wait := .fence (paths &&& 0b1011) }
        { e with mp := e.mp.owe (.dirAcc d) }
      else (e.publish paths fun w => w == none || w == some (x.reel, x.count)).setDir d (run x)
    else e
  | .draining, _ => if e.dirQuiet d && x.peerOps == 0 then e.endProgram d else e
  | _, _ => e

/-- Unresolved stops are abandoned (R122): the stopped tickets count as aborted for what depends on them, and their
gathers deliver nothing more. -/
def Eng.abandonStops (e : Eng) (d : Fin 8) : Eng :=
  let x := e.dir d
  let ts := x.stops.map (·.ticket)
  let slots := x.slots.map fun p => match p.2 with
    | some s => if ts.contains s.ticket then (p.1, some { s with out := s.out.map fun o => (4, o.2) }) else p
    | none => p
  let e := e.setDir d { x with stops := [], slots := slots }
  let abandon (g : Glean) : Glean :=
    if g.h.key.dir == d && g.phase == .stopped then { g with phase := .discarding 4 } else g
  { e with gln := { e.gln with gleans := e.gln.gleans.map abandon } }

/-- A program fault (R118): issue stops before the instruction takes effect, the first cause is recorded and reported,
stops are abandoned, and the director drains. A second fault while it drains is not recorded; one that arises while a HALT drains
is (R98). -/
def Eng.progFault (e : Eng) (d : Fin 8) (cause detail : Byte) : Eng :=
  let x := e.dir d
  if x.st = .idle ∨ (x.st = .draining ∧ x.bad) then e
  else
    let first := decide (x.st ≠ .draining ∨ x.cause = 0)
    let e := e.setDir d { x with st := .draining, wait := .none, faulted := true, cause := if first then cause else x.cause,
                                 detail := if first then detail else x.detail, bad := true, fetch := [] }
    let pay := cause.toNat + detail.toNat * 2 ^ 8 + x.pc.toNat * 2 ^ 32 + workTag x.reel x.count
    ((e.post (e.mreelOf x.reel) 2 d 0x0200 pay).abandonStops d).settle d

/-! ### Tickets -/

/-- Takes the next ticket and writes it to s[dst] (R107); none, and a counted stall, while its slot is held. -/
def Eng.takeTicket (e : Eng) (d : Fin 8) (dst : BitVec 5) : Eng × Option Key :=
  let x := e.dir d
  let t := x.nextTicket
  if x.slotFree t then
    let x := { x with tcount := t, slots := x.slots.set none (t.toNat % 256) (some { ticket := t, out := none }) }
    (e.setDir d (x.putI dst (t.setWidth 64)), some { dir := d, ticket := t })
  else (e.setDir d { x with stall := satAdd x.stall 1 }, none)

/-- What an instruction in flight carries (R107, R110, R124). -/
def Dir.hdr (x : Dir) (key : Key) (sb : BitVec 5) : Hdr :=
  { key := key, prior := if sb = 0 then none else some ((x.get sb).setWidth 32), master := x.master, reel := x.reel,
    count := x.count }

/-- A ticket retires (R107, R111, R118): its outcome is held in its slot, its flags join the program's, whoever waits is
examined, and a fault of an instruction without ff faults the program. -/
def Eng.retire (e : Eng) (k : Key) (status : Byte) (flags : BitVec 4) (ff : Bool := false) : Eng :=
  let x := e.dir k.dir
  match x.slot k.ticket with
  | some s =>
    if s.ticket == k.ticket && s.out.isNone then
      let x := { x with slots := x.slots.set none (k.ticket.toNat % 256) (some { s with out := some (status, flags) }),
                        flags := x.flags ||| flags }
      let e := e.setDir k.dir x
      if status == 3 && !ff then
        if x.st = .draining then (e.progFault k.dir 0x0C 0).settle k.dir else (e.settle k.dir).progFault k.dir 0x0C 0
      else e.settle k.dir
    else e
  | none => e

/-- What a prior ticket imposes (R110). -/
inductive PriorSt where
  | go | wait | dead
  deriving DecidableEq, Repr

/-- What ticket `t` of a director imposes: a stopped ticket is followed along its continuations (R121). -/
def Dir.imposes (x : Dir) : Nat → W32 → PriorSt
  | 0, _ => .wait
  | n + 1, t =>
    match x.slot t with
    | none => .go
    | some s =>
      if s.ticket != t then .go
      else match s.out with
        | none => .wait
        | some (st, _) =>
          if st == 3 || st == 4 then .dead
          else if st == 1 then
            match s.next with
            | some t' => x.imposes n t'
            | none => .wait
          else .go

/-- What an instruction's prior ticket imposes (R110). -/
def Eng.prior (e : Eng) (h : Hdr) : PriorSt :=
  match h.prior with
  | none => .go
  | some t => (e.dir h.key.dir).imposes 257 t

/-- The unit's instructions in flight (R107, R108), by what they carry: UNIQ, GLEAN, POOL, SWEEP, TOPK, TED and OPT, QNT, SAMPLE
and DIGEST. -/
def Eng.hsUniq (e : Eng) : List Hdr := e.gln.uniqs.map (·.h)
/-- GLEANs whose tickets have not retired. A continuation goes on with one that has started, and waits in no queue (DEDUCED, log
entry 194). -/
def Eng.hsGlean (e : Eng) : List Hdr :=
  (e.gln.gleans.filter fun g => g.phase == .active && g.root == g.h.key.ticket).map (·.h)
/-- A linked consumer starts as soon as it is issued (R110): its prior ticket does not hold it back. -/
def Hdr.linked (h : Hdr) : Hdr := { h with prior := none }
/-- POOLs. -/
def Eng.hsPool (e : Eng) : List Hdr := e.wr.pools.map (·.h.linked)
/-- SWEEPs. -/
def Eng.hsSweep (e : Eng) : List Hdr := (e.swp.sweeps.filter fun j => !j.ended).map (·.h)
/-- TOPKs. -/
def Eng.hsTopk (e : Eng) : List Hdr := e.swp.topks.map fun t => if t.mode1 then t.h else t.h.linked
/-- TEDs and OPTs. -/
def Eng.hsTed (e : Eng) : List Hdr := e.ted.teds.map (·.h.linked) ++ e.ted.opts.map (·.h)
/-- QNTs. -/
def Eng.hsQnt (e : Eng) : List Hdr := e.grd.qnts.map (·.h)
/-- SAMPLEs. -/
def Eng.hsSample (e : Eng) : List Hdr := e.smp.jobs.map (·.h)
/-- DIGESTs. -/
def Eng.hsDigest (e : Eng) : List Hdr := e.tk.digs.map (·.h)

/-- `g` was issued before `h` by the same director: its ticket lies further back. -/
def Eng.older (e : Eng) (g h : Hdr) : Bool :=
  let t := (e.dir h.key.dir).tcount
  g.key.dir == h.key.dir && decide (t - h.key.ticket < t - g.key.ticket)

/-- What an instruction waits for before it starts (R108, R110): its prior ticket, and the start of every earlier instruction
of its director in its unit, given by `hs`. -/
def Eng.turn (e : Eng) (hs : List Hdr) (h : Hdr) : PriorSt :=
  match e.prior h with
  | .go => if hs.any fun g => e.older g h && e.prior g == .wait then .wait else .go
  | p => p

/-- The unit's issue queue for a director is full (R107): 16 of its instructions have not started. -/
def Eng.queueFull (e : Eng) (hs : List Hdr) (d : Fin 8) : Bool :=
  decide (16 ≤ (hs.filter fun h => h.key.dir == d && e.turn hs h == .wait).length)

/-- Takes the next ticket as `takeTicket` does, unless the unit's issue queue for the director is full: then the instruction
stalls too (R107). -/
def Eng.enqueue (e : Eng) (hs : List Hdr) (d : Fin 8) (dst : BitVec 5) : Eng × Option Key :=
  if e.queueFull hs d then (e.onDir d fun x => { x with stall := satAdd x.stall 1 }, none) else e.takeTicket d dst

/-- A status and flags at retirement: ok when no flag is set, else flagged (R111). -/
def okStatus (flags : BitVec 4) : Byte := if flags = 0 then 0 else 2

/-! ### Instructions -/

/-- The director executes instructions: it runs, waits for nothing, and its block is not restarting (R371). -/
def Eng.canRun (e : Eng) (d : Fin 8) : Bool :=
  (e.dir d).st == .running && !e.busy 0

/-- A load to the register is in flight (R101, R102). -/
def Dir.pendingLd (x : Dir) (r : BitVec 5) : Bool := r != 0 && x.lds.any (·.dst == r)

/-- An instruction's frame (R95, R102): nothing while the director cannot run; an invalid encoding faults before any
effect; a source whose load is in flight makes it wait; else its effect. -/
def Eng.insn (e : Eng) (d : Fin 8) (ok : Bool) (reads : List (BitVec 5)) (f : Dir → Eng) : Eng :=
  if !e.canRun d then e
  else if !ok then e.progFault d 0x01 0
  else if reads.any (e.dir d).pendingLd then e.onDir d fun x => { x with st := .waiting, wait := .load }
  else f (e.dir d)

/-- The next instruction's address: 8 bytes on, or 16 past an extension word (R95). -/
def Dir.step (x : Dir) (n : Nat) : Dir := { x with pc := x.pc + BitVec.ofNat 64 n }

/-- The clip check of a ticket (R44): more than thresh / 65,536 of its elements clipped. A message is posted, clip_share_hit
is set, and the ticket carries the clipped flag. -/
def Eng.clipCheck (e : Eng) (h : Hdr) (table nEl nClip : Nat) : Eng × Bool :=
  if e.grd.thresh ≠ 0 ∧ nClip * 65536 > e.grd.thresh.toNat * nEl then
    let e := { e with grd := { e.grd with clipHit := true } }
    (e.post (e.mreelOf h.reel) 0xD 0 0x0D00 (h.key.dir.val + table * 2 ^ 16 + h.key.ticket.toNat * 2 ^ 32 +
      min nClip 0xFFFFFFFF * 2 ^ 64 + workTag h.reel h.count), true)
  else (e, false)

end Sys2Proof.Machine
end

