-- ==== Sys2Proof/Machine/LinkOps.lean ====
section
/-! DEFINITION. What every user of the Zwiastiz links shares (R288 to R293, R296 to R298, R317): the heath's shape, message
classes, numbering, routing, credits, frames and flooding; a port going down (R283, R304). -/

namespace Sys2Proof.Machine

open Sys2Proof

/-! ### The heath's shape (R296, R297) -/

/-- This engine's position. -/
def Hth.pos (h : Hth) : Nat := fld h.cfg.toNat 0 8
/-- Shape code: 0 single, 1 full mesh, 2 torus. -/
def Hth.shape (h : Hth) : Nat := fld h.cfg.toNat 8 2
/-- Torus extents. -/
def Hth.dims (h : Hth) : Nat × Nat × Nat :=
  (fld h.cfg.toNat 10 3 + 1, fld h.cfg.toNat 13 3 + 1, fld h.cfg.toNat 16 2 + 1)
/-- Positions of a shape, by its LE_HTH_CFG bits. -/
def shapeSize (cfg : Nat) : Nat :=
  if fld cfg 8 2 = 1 then fld cfg 18 4
  else if fld cfg 8 2 = 2 then (fld cfg 10 3 + 1) * (fld cfg 13 3 + 1) * (fld cfg 16 2 + 1)
  else 1
/-- Positions of the heath. -/
def Hth.size (h : Hth) : Nat := shapeSize h.cfg.toNat

/-- A configuration whose position and shape are allowed (R368, LE_HTH_CFG). -/
def hthCfgOk (cfg : Nat) : Bool :=
  fld cfg 8 2 != 3 && decide (fld cfg 0 8 < shapeSize cfg) &&
    (fld cfg 8 2 != 1 || (decide (2 ≤ fld cfg 18 4) && decide (fld cfg 18 4 ≤ 9)))

/-- The position that a port of position `i` connects to (R297). -/
def Hth.farFrom (h : Hth) (i port : Nat) : Option Nat :=
  if h.shape = 1 then if port + 1 < h.size then some ((i + port + 1) % h.size) else none
  else if h.shape = 2 then
    let (x, y, z) := h.dims
    let cx := i % x
    let cy := i / x % y
    let cz := i / (x * y)
    let at3 (a b c : Nat) : Nat := a + x * (b + y * c)
    if port < 2 ∧ x > 1 then some (at3 ((cx + (if port = 0 then 1 else x - 1)) % x) cy cz)
    else if 2 ≤ port ∧ port < 4 ∧ y > 1 then some (at3 cx ((cy + (if port = 2 then 1 else y - 1)) % y) cz)
    else if 4 ≤ port ∧ port < 6 ∧ z > 1 then some (at3 cx cy ((cz + (if port = 4 then 1 else z - 1)) % z))
    else none
  else none

/-- The position at the far end of this engine's port. -/
def Hth.farPos (h : Hth) (port : Nat) : Option Nat := h.farFrom h.pos port

/-- The engine acts as a lead: it is the lead, or a single engine, its own lead (R299). -/
def Hth.isLead (h : Hth) : Bool := h.st == .lead || h.shape == 0
/-- A position is declared failed (R303). -/
def Hth.isFailed (h : Hth) (p : Nat) : Bool := h.failed.getLsbD p
/-- A position field names this engine (R298). -/
def Hth.isSelf (h : Hth) (p : Nat) : Bool := p == 0xFF || p == h.pos
/-- The live positions in ascending order. -/
def Hth.liveList (h : Hth) : List Nat := (List.range 256).filter fun i => h.live.getLsbD i

/-! ### Messages (R288) -/

/-- The class of a message: 0 REQ, 1 RSP, 2 CTL. -/
def zCls : ZBody → Nat
  | .readReq .. | .write .. | .streamReq .. => 0
  | .readRsp .. | .writeAck .. | .streamData .. => 1
  | _ => 2

/-- Cells of a message. -/
def zCells : ZBody → Nat
  | .readRsp _ d u _ => if d || u then 1 else 5
  | .write _ bs => 2 + (bs.length + 15) / 16
  | .streamData _ _ _ bs => 1 + (bs.length + 15) / 16
  | .clpOp .. | .failed .. | .commit .. => 2
  | .hello .. => 3
  | .load .. => 4
  | _ => 1

/-- Tracked types (R288). -/
def zTracked : ZBody → Bool
  | .readReq .. | .write .. | .streamReq .. | .clpOp .. | .commit .. | .commitResult .. | .load .. | .loadStatus ..
  | .statusReq .. | .linkDown .. => true
  | _ => false

/-- Requests that an isolated engine does not route (R301). -/
def zRequest : ZBody → Bool
  | .readReq .. | .write .. | .streamReq .. | .clpOp .. => true
  | _ => false

/-- Flooded types (R317): delivered hop-local, without numbering. -/
def zFlooded : ZBody → Bool
  | .hello .. | .lead .. | .failed .. => true
  | _ => false

/-- Initial credit of a virtual channel in cells (R289), in the order REQ0, REQ1, RSP0, RSP1, CTL0, CTL1. -/
def vcRoom (v : Nat) : Nat := if v < 2 then 6144 else if v < 4 then 9728 else 512

/-- The virtual channel of a message. -/
def zChan (m : ZMsg) : Nat := 2 * zCls m.body + b2n m.vc

/-! ### Ports -/

/-- Port `p`. -/
def Eng.port' (e : Eng) (p : Nat) : ZPort := e.zw.ports.get {} p
/-- Sets port `p`. -/
def Eng.setPort (e : Eng) (p : Nat) (x : ZPort) : Eng := { e with zw := { e.zw with ports := e.zw.ports.set {} p x } }
/-- Changes port `p`. -/
def Eng.onPort (e : Eng) (p : Nat) (f : ZPort → ZPort) : Eng := e.setPort p (f (e.port' p))
/-- Changes the link block. -/
def Eng.onZw (e : Eng) (f : Zw → Zw) : Eng := { e with zw := f e.zw }
/-- Counts in a link counter (R295). -/
def Eng.countZw (e : Eng) (i n : Nat) : Eng := e.onZw fun z => { z with ctrs := z.ctrs.add i n }

/-- The key of a message's source and class (R292). -/
def zKey (m : ZMsg) : Nat := 3 * m.src.toNat + zCls m.body

/-- The frame number from which the active key is in use, for the frame `next` (R286). -/
def KeyDir.since (k : KeyDir) (next : Nat) : Nat :=
  match k.sw with
  | some n => if n ≤ next then n else k.base
  | none => k.base

/-- The transmit direction has reached frame 2^62 under its key and no switch is pending (R286). -/
def ZPort.spent (x : ZPort) : Bool := x.tx.sw.isNone && decide (2 ^ 62 ≤ x.txNext - x.tx.base)

/-- The port sends: live, its key not exhausted, and room in the replay buffer (R285, R286). -/
def ZPort.sends (x : ZPort) : Bool := x.st == .live && !x.out && !x.spent && decide (x.replay.length < 64)

/-- Units of 16 cells that the next link control cell returns for a VC (R284, R289). -/
def ZPort.units (x : ZPort) (v : Nat) : Nat := min 255 (x.owed.get 0 v / 16)

/-- The link control cell that a frame sent now starts with (R284). -/
def ZPort.control (x : ZPort) : ZCtl :=
  let sw := x.tx.sw.isSome && !x.swTold
  { ack := BitVec.ofNat 48 (x.rxNext + 2 ^ 48 - 1), nak := x.nak, keySw := sw,
    swFrame := if sw then BitVec.ofNat 64 (x.tx.sw.getD 0) else 0,
    credits := (List.range 6).map fun v => BitVec.ofNat 8 (x.units v), ctl := x.ctls.headD .none, reports := x.reports }

/-- Payload cells that hold what a link control cell announces. DESIGN CHOICE, log 197: one for sw_frame and one for each
detuning report. -/
def ctlCells (c : ZCtl) : Nat := b2n c.keySw + c.reports.length

/-- There is something to report to the far end (R284). -/
def ZPort.reporting (x : ZPort) : Bool :=
  x.nak || x.told != x.rxNext || !x.ctls.isEmpty || !x.reports.isEmpty || (x.tx.sw.isSome && !x.swTold) ||
    (List.range 6).any fun v => x.units v != 0

/-- Sends one frame: its link control cell and these messages (R284). Its cell acknowledges what was received, so the old receive slot
is given up once it acknowledges frame sw_frame (R286). -/
def ZPort.emit (x : ZPort) (ms : List ZMsg) : ZPort :=
  let c := x.control
  let rx : KeyDir := match x.rx.sw with
    | some n => if n < x.rxNext then { x.rx with act := !x.rx.act, sw := none, base := n } else x.rx
    | none => x.rx
  { x with rx := rx, replay := x.replay ++ [{ num := x.txNext, ctl := c, msgs := ms.map fun m => { m with arr := none } }],
           txNext := x.txNext + 1, nak := false, told := x.rxNext, swTold := x.swTold || c.keySw, ctls := x.ctls.drop 1,
           reports := [], owed := (List.range 6).foldl (fun m v => m.modify 0 v (· - 16 * x.units v)) x.owed }

/-- The next message of a VC, and whether it is a forwarded one: local and forwarded messages share the port by the rotating
pointer (R290). -/
def ZPort.nextOf (x : ZPort) (v : Nat) : Option (Bool × ZMsg) :=
  let l := (x.queue.find? fun m => zChan m == v).map fun m => (false, m)
  let f := (x.fwd.find? fun m => zChan m == v).map fun m => (true, m)
  if x.turn.get false v then f.or l else l.or f

/-- Takes the messages of one frame: while a VC's next one has credit for all its cells and fits in the cells left (R284, R289).
DESIGN CHOICE, log 197: of the VCs, control goes first, then responses, then requests. -/
def ZPort.fill : Nat → Nat → ZPort → List ZMsg → ZPort × List ZMsg
  | 0, _, x, ms => (x, ms)
  | n + 1, left, x, ms =>
    let fits (v : Nat) : Option (Nat × Bool × ZMsg) := match x.nextOf v with
      | some (f, m) => if zCells m.body ≤ left ∧ (zCells m.body : Int) ≤ vcRoom v + x.credit.get 0 v then some (v, f, m) else none
      | none => none
    match [4, 5, 2, 3, 0, 1].findSome? fits with
    | none => (x, ms)
    | some (v, f, m) =>
      let y := { x with queue := if f then x.queue else x.queue.erase m, fwd := if f then x.fwd.erase m else x.fwd,
                        turn := x.turn.set false v (!f), credit := x.credit.modify 0 v (· - (zCells m.body : Int)) }
      ZPort.fill n (left - zCells m.body) y (ms ++ [m])

/-- Sends what the port may send: frames of at most 256 payload cells, each starting with a link control cell (R284). Answers
the messages sent. -/
def ZPort.pump : Nat → ZPort → ZPort × List ZMsg
  | 0, x => (x, [])
  | n + 1, x =>
    if x.sends then
      let (y, ms) := ZPort.fill (x.queue.length + x.fwd.length) (255 - ctlCells x.control) x []
      if ms.isEmpty then (x, [])
      else
        let (z, out) := ZPort.pump n (y.emit ms)
        (z, ms ++ out)
    else (x, [])

/-- A message leaves the receive buffer of the port it came in on: its cells are owed to the far end (R289). -/
def Eng.owe (e : Eng) (m : ZMsg) : Eng :=
  match m.arr with
  | some a => if a.owes then e.onPort a.port fun x => { x with owed := x.owed.modify 0 a.chan (· + zCells m.body) } else e
  | none => e

/-- Port `p` sends what it may. -/
def Eng.pump (e : Eng) (p : Nat) : Eng :=
  let x := e.port' p
  let (y, ms) := ZPort.pump (x.queue.length + x.fwd.length) x
  ms.foldl Eng.owe (e.setPort p y)

/-- A port with something to report sends a frame that carries nothing else (R284). DESIGN CHOICE, log 197: one at each cycle of
the 100 MHz reference, so at least every 64 ns. -/
def Eng.report (e : Eng) : Eng :=
  (List.range 8).foldl (fun e p =>
    let x := e.port' p
    if x.sends && x.reporting then e.setPort p (x.emit []) else e) e

/-- The route's choice for a destination (R290): the port and whether the hop crosses a dateline. -/
def Eng.route (e : Eng) (d : Nat) : Option (Nat × Bool) :=
  let w := (e.zw.routes.get 0 d).toNat
  let live (p : Nat) : Bool := (e.port' p).st == .live
  if bit w 4 && live (fld w 0 3) then some (fld w 0 3, bit w 3)
  else if bit w 9 && live (fld w 5 3) then some (fld w 5 3, bit w 8)
  else none

/-- Puts a message on the route to its destination (R290, R291): it waits while no route is usable, and an isolated engine's
own requests wait (R301). A link block that was asked to go idle forwards no more (R294). -/
def Eng.forward (e : Eng) (m : ZMsg) : Eng :=
  if e.busy 7 && m.arr.isSome then e.owe m
  else match (if e.hth.st == .isolated && zRequest m.body && m.src.toNat == e.hth.pos then none else e.route m.dst.toNat) with
    | none => e.onZw fun z => { z with stuck := z.stuck ++ [m] }
    | some (p, dl) =>
      let x := e.port' p
      let turned := m.arr.any fun a => (e.port' a.port).dim != x.dim
      let kept := m.arr.any fun a => a.chan % 2 == 1
      let vc := if x.dim = 0 then false else if dl then true else if turned then false else kept
      let y := { m with vc := vc }
      (e.setPort p (if m.arr.isSome then { x with fwd := x.fwd ++ [y] } else { x with queue := x.queue ++ [y] })).pump p

/-- Tries again every message that found no route (R290). -/
def Eng.unstick (e : Eng) : Eng :=
  let ms := e.zw.stuck
  ms.foldl Eng.forward (e.onZw fun z => { z with stuck := [] })

/-- Kept in the 8 MiB tracked store (R293): every tracked message but a read request, which its gleaner's sector slot keeps. -/
def zStored : ZBody → Bool
  | .readReq .. => false
  | b => zTracked b

/-- Cells of the responses to a stream request, for which its requester reserves RSP space (R288, R289). -/
def rspCells : ZBody → Nat
  | .streamReq _ _ n => (if n.toNat < 32 then 1 else 2) + 4 * (n.toNat + 1)
  | _ => 0

/-- Bytes in the tracked store (R293). -/
def Zw.stored (z : Zw) : Nat := (z.tracked.map fun t => if zStored t.msg.body then 16 * zCells t.msg.body else 0).sum

/-- RSP cells reserved for streams (R289). DESIGN CHOICE, log 198: against one RSP channel of a receive buffer. -/
def Zw.reserved (z : Zw) : Nat := (z.tracked.map fun t => rspCells t.msg.body).sum

/-- A unit's message waits (R289, R293, R294): the block was asked to go idle; or it needs the tracked store, and one of its class to
that destination waits or the store is full; or its responses have no RSP space. -/
def Eng.sendWaits (e : Eng) (dst : Nat) (b : ZBody) : Bool :=
  e.busy 7 || (zStored b && e.zw.blocked.any fun w => w.1 == dst && zCls w.2.1 == zCls b) ||
    (zStored b && decide (8388608 < e.zw.stored + 16 * zCells b)) ||
    (rspCells b != 0 && decide (9728 < e.zw.reserved + rspCells b))

/-- Numbers and sends a message to another position (R292, R293); a tracked one is kept with what it is for. -/
def Eng.sendNow (e : Eng) (dst : Nat) (body : ZBody) (use : Purpose) : Eng :=
  let k := 3 * dst + zCls body
  let s := e.zw.txSeq.get 0 k
  let m : ZMsg := { vc := false, dst := BitVec.ofNat 8 dst, src := BitVec.ofNat 8 e.hth.pos, seq := s, body := body }
  let e := e.onZw fun z => { z with txSeq := z.txSeq.set 0 k (s + 1) }
  let e := if zTracked body then
      e.onZw fun z => { z with tracked := z.tracked ++ [{ msg := m, use := use, sent := 0, got := [], lost := false,
                                                          at_ := e.hth.time }] }
    else e
  e.forward m

/-- Sends a message to another position, or lets its unit wait. -/
def Eng.send (e : Eng) (dst : Nat) (body : ZBody) (use : Purpose := .cascade) : Eng :=
  if e.sendWaits dst body then e.onZw fun z => { z with blocked := z.blocked ++ [(dst, body, use)] } else e.sendNow dst body use

/-- The messages whose unit waits are tried again, in order. -/
def Eng.unblock (e : Eng) : Eng :=
  let ws := e.zw.blocked
  if ws.isEmpty then e
  else ws.foldl (fun e w => e.send w.1 w.2.1 w.2.2) (e.onZw fun z => { z with blocked := [] })

/-- Some message of this kind, sent and not answered or still waiting to be sent, stands. -/
def Zw.awaits (z : Zw) (p : Purpose → Nat → ZBody → Bool) : Bool :=
  (z.tracked.any fun t => p t.use t.msg.dst.toNat t.msg.body) || z.blocked.any fun w => p w.2.2 w.1 w.2.1

/-- The uses of the messages to a position, sent and not answered or still waiting to be sent. -/
def Zw.usesTo (z : Zw) (dst : Nat) : List Purpose :=
  (z.tracked.filter (·.msg.dst.toNat == dst)).map (·.use) ++ (z.blocked.filter (·.1 == dst)).map (·.2.2)

/-- The messages that `p` picks by use and destination are given up, sent or not. -/
def Eng.giveUp (e : Eng) (p : Purpose → Nat → Bool) : Eng :=
  (e.onZw fun z => { z with tracked := z.tracked.filter fun t => !p t.use t.msg.dst.toNat,
                            blocked := z.blocked.filter fun w => !p w.2.2 w.1 }).unblock

/-- The work that sent the messages `p` picks by use ended: those not sent yet are given up, and the answers to the others are
discarded as they come. -/
def Eng.letGo (e : Eng) (p : Purpose → Bool) : Eng :=
  (e.onZw fun z => { z with tracked := z.tracked.map fun t => if p t.use then { t with use := .left } else t,
                            blocked := z.blocked.filter fun w => !p w.2.2 }).unblock

/-- How a flooded message is known again (R299, R317): a HELLO by its position and serial number, another by its source, term
and number. -/
def zFloodKey (m : ZMsg) : Nat × Nat × Nat × Nat :=
  match m.body with
  | .hello x => (0, x.position.toNat, x.serial.toNat, 0)
  | .lead _ term => (1, m.src.toNat, term.toNat, m.seq.toNat)
  | .failed term _ _ => (2, m.src.toNat, term.toNat, m.seq.toNat)
  | _ => (3, m.src.toNat, 0, m.seq.toNat)

/-- A flooded message has been seen. -/
def Zw.see (z : Zw) (m : ZMsg) : Zw := if z.seen.contains (zFloodKey m) then z else { z with seen := z.seen ++ [zFloodKey m] }

/-- Sends a hop-local message on every live port but one. -/
def Eng.cast (e : Eng) (m : ZMsg) (skip : Option Nat) : Eng :=
  if e.busy 7 then e
  else (List.range 8).foldl (fun e p =>
    let x := e.port' p
    if x.st == .live && skip != some p then
      (e.setPort p { x with queue := x.queue ++ [{ m with vc := false, arr := none }] }).pump p
    else e) e

/-- Floods a message of this engine (R299, R303, R304, R317): numbered, and known when it comes back. -/
def Eng.flood (e : Eng) (body : ZBody) : Eng :=
  let m : ZMsg := { vc := false, dst := 0, src := BitVec.ofNat 8 e.hth.pos, seq := e.zw.floodSeq, body := body,
                    hop := !zFlooded body }
  (e.onZw fun z => ({ z with floodSeq := z.floodSeq + 1 } : Zw).see m).cast m none

/-- The first tracked message that `p` picks is answered: it leaves the store. -/
def Eng.untrack (e : Eng) (p : Track → Bool) : Eng :=
  (e.onZw fun z => { z with tracked := z.tracked.eraseP p }).unblock

/-- Takes the oldest delivered message that `p` picks: it leaves the receive buffer. -/
def Eng.takeOf (e : Eng) (p : ZMsg → Bool) : Eng × Option ZMsg :=
  match e.zw.inbox.find? p with
  | none => (e, none)
  | some m => ((e.onZw fun z => { z with inbox := z.inbox.eraseP p }).owe m, some m)

/-- Takes the oldest delivered message whose body `p` picks. -/
def Eng.takeMsg (e : Eng) (p : ZBody → Bool) : Eng × Option ZMsg := e.takeOf fun m => p m.body

/-! ### Lanes in service, holds, and a port going down -/

/-- Logical lanes in service. -/
def ZPort.laneCount (x : ZPort) : Nat := (x.lanes.filter fun l => l.2.isSome).length

/-- The hold of the sweep's row issue for one lane ends; when no lane is left on the move the hold ends (R18, R282). -/
def Eng.releaseLane (e : Eng) (p : Fin 8) (lane : Fin 16) : Eng :=
  let mv := e.swp.moving.filter (· != (p, lane))
  { e with swp := { e.swp with moving := mv, holdAt := if mv.isEmpty then none else e.swp.holdAt,
                               holdReported := !mv.isEmpty && e.swp.holdReported } }

/-- A message that came in on port `p` takes up none of its receive buffer any more. -/
def disown (p : Nat) (m : ZMsg) : ZMsg := { m with arr := m.arr.map fun a => if a.port == p then { a with owes := false } else a }

/-- A port's receive buffer is gone: nothing that came in on it is owed. -/
def Zw.disown (z : Zw) (p : Nat) : Zw :=
  let d := List.map (Machine.disown p)
  { z with inbox := d z.inbox, stuck := d z.stuck, ports := z.ports.mapV {} fun x => { x with fwd := d x.fwd } }

/-- A port goes down (R283): pairs off, one port-down message, its unsent messages requeued, and LINK_DOWN to the lead
(R304). Causes: 0 lanes, 1 fibres dark, 2 integrity, 3 enable cleared, 4 mismatch. -/
def Eng.portDown (e : Eng) (p : Fin 8) (cause : Nat) : Eng :=
  let x := e.port' p
  if x.st = .down ∨ x.st = .dark then e
  else
    let lanes := x.laneCount
    let dark := x.pairs.map fun q => (q.1, { q.2 with safety := .off, tune := .idle, seen := false, unc := [] })
    let y := { x with st := .down, noKey := false, pairs := dark.filter (·.2 != {}), lanes := [], moves := [],
                      queue := [], fwd := [], replay := [], credit := [], owed := [], nak := false, ctls := [], reports := [] }
    let e := (List.finRange 16).foldl (fun e l => e.releaseLane p l) (e.setPort p y)
    let e := e.onZw fun z => { z.disown p with status := z.status ||| 0x10 }
    let e := e.postEvt 9 p 0x0900 (cause + lanes * 2 ^ 8)
    let e := (((x.queue ++ x.fwd).filter fun m => !zFlooded m.body && !m.hop).map (Machine.disown p)).foldl Eng.forward e
    if e.hth.st == .member || e.hth.st == .lead then
      match e.hth.farPos p with
      | none => e
      | some far =>
        let b : ZBody := .linkDown (BitVec.ofNat 3 p) (BitVec.ofNat 8 far)
        if e.hth.isLead then
          let m : ZMsg := { vc := false, dst := BitVec.ofNat 8 e.hth.pos, src := BitVec.ofNat 8 e.hth.pos, seq := 0, body := b }
          e.onZw fun z => { z with inbox := z.inbox ++ [m] }
        else if (e.route e.hth.lead).isSome then e.send e.hth.lead b
        else e.flood b
    else e

/-! ### Clappers (R341 to R346, R354) -/

/-- The value of a clapper. -/
def Eng.clap (e : Eng) (n : Nat) : W64 := e.clp.vals.get 0 n

/-- A waiter's condition (R80, R114): at least, or equal. -/
def condHolds (eq : Bool) (val v : W64) : Bool := if eq then v == val else decide (val ≤ v)

/-- The directors' and reels' waiters on clapper `n` are released when `v` meets their condition (R345): the detail of a
WAIT is the value that released it. -/
def Eng.wake (e : Eng) (n : Fin 8192) (v : W64) : Eng :=
  let e := (List.range 8).foldl (fun e d =>
    let x := e.dir d
    match x.st, x.wait with
    | .waiting, .clapper dst n' eq val _ =>
      if n' == n && condHolds eq val v then e.setDir d (x.cont.putI dst 0) else e
    | _, _ => e) e
  (List.range 64).foldl (fun e r =>
    (e.reel r).inflight.foldl (fun e c =>
      if c.type == 6 && c.phase == .running && fld (le c.body 0 2) 0 13 == n.val &&
          condHolds (le c.body 2 1 == 1) (BitVec.ofNat 64 (le c.body 8 8)) v then
        e.finishCmd r c.count 0 0 (v.setWidth 32)
      else e) e) e

/-- Queues a clapper operation at its bank (R354). -/
def Eng.clpQueue (e : Eng) (r : ClpReq) : Eng :=
  { e with clp := { e.clp with queues := e.clp.queues.modify [] (r.clapper.val % 16) (· ++ [r]) } }

/-- The lead releases barrier slot `b` for its next generation on every live position (R308). -/
def Eng.release (e : Eng) (s : Barrier) : Eng :=
  let w := s.cfg.toNat
  let rel : Fin 8192 := ⟨fld w 16 13, by unfold fld; exact Nat.mod_lt _ (by decide)⟩
  let val := BitVec.ofNat 64 (s.gen.toNat + 1)
  let e := e.clpQueue { req := 11, master := e.gln.peerMaster, clapper := rel, kind := .set, val := val, dst := none,
                        peer := none, cmd := none }
  (e.hth.liveList.filter (· != e.hth.pos)).foldl (fun e p => e.send p (.clpOp (BitVec.ofNat 13 rel.val) 0 val) .barrier) e

/-- The arrive clapper's value has reached count × (gen + 1) (R308). -/
def Barrier.full (s : Barrier) (arrive : W64) : Bool := decide (s.cnt * (s.gen.toNat + 1) ≤ arrive.toNat)

/-- Barrier logic after an operation took clapper `n` from `old` to `v` (R308): a release received sets gen; on the lead an
arrive clapper that reaches count × (gen + 1), or has reached it when gen advances, sends the release. -/
def Eng.barriers (e : Eng) (n : Fin 8192) (r : ClpReq) (old v : W64) : Eng :=
  (List.range 16).foldl (fun e b =>
    let s := e.hth.bars.get {} b
    let w := s.cfg.toNat
    if !bit w 31 then e
    else if fld w 16 13 == n.val && r.kind == .set && decide (10 ≤ r.req.val) then
      let s := { s with gen := v.setWidth 32 }
      let e := { e with hth := { e.hth with bars := e.hth.bars.set {} b s } }
      if e.hth.isLead && s.full (e.clap (fld w 0 13)) then e.release s else e
    else if fld w 0 13 == n.val && e.hth.isLead && s.full v && !s.full old then e.release s
    else e) e

/-- What a finished SIGNAL, COPY or INLINE_BAG reports in its detail word (R84). -/
def Cmd.detail (c : Cmd) : W32 := if c.type = 1 ∨ c.type = 3 then BitVec.ofNat 32 c.dir else 0

/-- The detail of a command that ends before its work is done (R84): a WAIT shows its clapper's low 32 bits. -/
def Eng.endDetail (e : Eng) (c : Cmd) : W32 :=
  if c.type = 6 then (e.clap (fld (le c.body 0 2) 0 13)).setWidth 32 else c.detail

/-- The flags of a command that ends before its work is done (R85): a LAUNCH's are those of the instructions its program ran. -/
def Eng.endFlags (e : Eng) (c : Cmd) : BitVec 4 := if c.type = 1 then (e.dir c.dir).flags else 0

/-- A clapper operation's outcome reaches its requester (R342, R346, R80): an instruction's register, a peer's
acknowledgement, a command. -/
def Eng.clpAnswer (e : Eng) (r : ClpReq) (old : W64) (ok : Bool) : Eng :=
  let e := match r.dst with
    | some (d, reg) =>
      if ok then
        let x := e.dir d
        let x := x.putI reg (if r.kind == .fetchAdd then old else 0)
        e.setDir d (if x.wait == .fetchAdd then x.cont else x)
      else e.progFault d 0x04 0
    | none => e
  let e := match r.peer with
    | some (p, n) =>
      let e := if ok then e else e.onZw fun z => { z with answers := z.answers.set 0 ((3 * p.toNat + 2) * 2 ^ 32 + n.toNat) 1 }
      e.send p.toNat (.clpAck !ok)
    | none => e
  match r.cmd with
  | some (n, c) =>
    match (e.reel n).inflight.find? (·.count == c) with
    | some q => e.finishCmd n c (if ok then 0 else 3) 0 q.detail
    | none => e
  | none => e

/-- A bank serves one operation (R342 to R345): checked at CLP, unless the register port has checked it already (R351), applied, and
its waiters evaluated. -/
def Eng.clpServe (e : Eng) (r : ClpReq) : Eng :=
  let e := { e with clp := { e.clp with last := e.clp.last.set 11 (r.clapper.val % 16) r.req.val } }
  let (e, ok) := if r.granted then (e, true) else e.check 1 r.master (r.kind == .fetchAdd) true r.clapper 1
  if ok then
    let old := e.clap r.clapper
    let v := if r.kind == .set then (if r.keepLow then r.val.extractLsb' 32 32 ++ old.setWidth 32 else r.val) else old + r.val
    let e := { e with clp := { e.clp with vals := e.clp.vals.set 0 r.clapper v } }
    let e := e.clpAnswer r old true
    (e.wake r.clapper v).barriers r.clapper r old v
  else e.clpAnswer r 0 false

/-- A requester's read of a clapper waits: operations of its own on that clapper wait at the bank (R344). -/
def Eng.clpHeld (e : Eng) (req : Fin 12) (n : Nat) : Bool :=
  (e.clp.queues.get [] (n % 16)).any fun r => r.req == req && r.clapper.val == n

/-- An operation presented alone at its bank: served at once, unless operations wait there
(R344, R354). -/
def Eng.clpPresent (e : Eng) (r : ClpReq) : Eng :=
  if !(e.clp.queues.get [] (r.clapper.val % 16)).isEmpty then e.clpQueue r else e.clpServe r

end Sys2Proof.Machine
end

