-- ==== Sys2Proof/Machine/Sward.lean ====
section
/-! DEFINITION. The commands and events of the sward cache and the memory ports (R227 to R254): enable and disable,
maintenance, misses, evictions, line failures and defects, PIN, the map-pin walk, the regulators and the far tier. -/

namespace Sys2Proof.Machine

open Sys2Proof

/-! ### Counter control (R43, R253) -/

/-- A write of a block's counter control: snap, then clear; the bits of `keep` are stored. -/
def Ctrs.write (c : Ctrs) (keep v : Nat) : Ctrs :=
  let c := if bit v 2 then { c with snap := c.live } else c
  let c := if bit v 3 then { c with live := [] } else c
  { c with ctl := BitVec.ofNat 32 (v &&& keep) }

/-- Counter control as read. -/
def Ctrs.read (c : Ctrs) : Nat := c.ctl.toNat
/-- Snapshot counter `i` (64 bits). -/
def Ctrs.snapAt (c : Ctrs) (i : Nat) : Nat := (c.snap.get 0 i).toNat

/-! ### Enable, disable, maintenance -/

/-- The sward becomes enabled (R237): every prefetch credit is 8, and the walk of the active map starts (R233). -/
def Eng.swdOn (e : Eng) : Eng :=
  { e with swd := { e.swd with enabled := true, pending := false, credit := [], low := [] },
           map := { e.map with pinWalk := true } }

/-- A write of LE_SWD_CTL (R237, R238). -/
def Eng.swdCtl (e : Eng) (v : Nat) : Eng :=
  let e := e.onSwd fun w => { w with pfEn := bit v 1 }
  let w := e.swd
  if bit v 0 then
    if w.pending || (w.enabled && !w.disabling) then e
    else if w.disabling then e.onSwd fun w => { w with enRefused := true }
    else if w.invalDone then e.swdOn
    else if (w.maint.map (·.op)) == some 1 then e.onSwd fun w => { w with pending := true }
    else e.onSwd fun w => { w with enRefused := true }
  else if w.pending then e.onSwd fun w => { w with pending := false }
  else if w.enabled && !w.disabling then e.onSwd fun w => { w with disabling := true }
  else e

/-- A write of op to LE_SWD_MAINT (R239): it starts the operation, or is discarded and sets maint_refused. -/
def Eng.swdMaint (e : Eng) (op : Nat) : Eng :=
  let w := e.swd
  let range := 4 ≤ op ∧ op ≤ 6
  let a := w.maintAddr.toNat
  let n := w.maintLen.toNat
  if op = 0 ∧ w.maint.isNone then e
  else if w.maint.isSome ∨ op = 7 ∨ (op = 1 ∧ (w.enabled ∨ w.disabling)) ∨ (op = 3 ∧ ¬ w.enabled) ∨
      (range ∧ (a % 128 ≠ 0 ∨ n % 128 ≠ 0 ∨ n = 0)) then
    e.onSwd fun w => { w with mtRefused := true }
  else e.onSwd fun w => { w with maint := some { op := op, addr := a, len := n } }

/-- The running maintenance operation completes (R239), and with it a pending enable (R237). -/
def Eng.maintEnd (e : Eng) : Eng :=
  match e.swd.maint with
  | none => e
  | some x =>
    let lines := e.swd.held x.addr x.len
    let e :=
      if x.op = 1 then e.onSwd fun w => { w.empty with invalDone := true }
      else if x.op = 2 then e.writeBackAll
      else if x.op = 3 then
        let e := e.writeBackAll
        e.onSwd fun w =>
          let kept (p : Nat × Option Line) : Bool := p.2.any Line.pinned
          let gone := w.lines.filter fun p => !kept p
          let w := gone.foldl (fun (w : Swd) p => match p.2 with
            | some l => w.unusedPf p.1 l
            | none => w) w
          { w with lines := w.lines.filter kept }
      else if x.op = 4 then lines.foldl (fun e k => (e.drainLine k).writeBack k) e
      else if x.op = 5 then lines.foldl (fun e k => e.invalidate k) e
      else lines.foldl (fun e k => ((e.drainLine k).writeBack k).invalidate k) e
    let e := e.onSwd fun w => { w with maint := none }
    if x.op = 1 ∧ e.swd.pending then e.swdOn else e

/-- The end of a disable (R238). -/
def Eng.disableEnd (e : Eng) : Eng :=
  if e.swd.disabling && e.swd.maint.isNone then
    e.writeBackAll.onSwd fun w => { w.empty with enabled := false, invalDone := false, disabling := false }
  else e

/-- Maintenance completion, as the row gives it. -/
def execMaintComplete (s : State) : Host.Outcome State Fault Refusal := .next (s.live Eng.maintEnd)

/-- The disable's write-back has finished. -/
def execSwardDisableEnd (s : State) : Host.Outcome State Fault Refusal := .next (s.live Eng.disableEnd)

/-! ### Registers of the sward -/

/-- Spare lines not named by any defect of slices (R245). -/
def Swd.sparesUsed (w : Swd) : Nat :=
  ((w.defects.filter (·.kind == 1)).map fun d => if d.st = 1 then 1 else if d.st = 2 then 2 else
    (if d.spare1 < 32 then 1 else 0) + (if d.spare2 < 32 then 1 else 0)).sum

/-- A 32-bit read of a sward register, at its block offset. -/
def swdRd (w : Swd) (map : MapSt) (off : Nat) : Nat :=
  match off with
  | 0x000 => b2n (w.enabled || w.pending) + 2 * b2n w.pfEn
  | 0x004 => b2n w.enabled + 2 * b2n w.pending + 4 * b2n w.invalDone + 8 * b2n w.disabling + 16 * b2n w.maint.isSome +
      32 * b2n map.pinWalk + 64 * b2n w.enRefused + 128 * b2n w.mtRefused + 256 * b2n w.uncorr + 512 * b2n w.remapped +
      1024 * b2n w.retired
  | 0x008 => w.ctrs.read
  | 0x010 => w.maintAddr.toNat
  | 0x018 => w.maintLen.toNat
  | 0x020 => (w.lines.filter fun p => match p.2 with
      | some l => l.pinned
      | none => false).length
  | 0x024 => 2048 - w.sparesUsed
  | 0x028 => (w.defects.filter fun d => d.kind == 1 && d.st == 3).length
  | _ => if 0x030 ≤ off ∧ off < 0x070 then w.ctrs.snapAt ((off - 0x030) / 8) else 0

/-- A write of a sward register. -/
def Eng.swdWr (e : Eng) (off v : Nat) : Eng :=
  match off with
  | 0x000 => e.swdCtl v
  | 0x004 => e.onSwd fun w =>
      { w with enRefused := w.enRefused && !bit v 6, mtRefused := w.mtRefused && !bit v 7, uncorr := w.uncorr && !bit v 8,
               remapped := w.remapped && !bit v 9, retired := w.retired && !bit v 10 }
  | 0x008 => e.onSwd fun w => { w with ctrs := w.ctrs.write 1 v }
  | 0x00C => e.swdMaint (v % 8)
  | 0x010 => e.onSwd fun w => { w with maintAddr := BitVec.ofNat 64 (v / 128 * 128) }
  | 0x018 => e.onSwd fun w => { w with maintLen := BitVec.ofNat 64 (v % 2 ^ 48 / 128 * 128) }
  | _ => e

/-! ### Misses and evictions -/

/-- The miss entry of a line returns (R229 to R231): its sectors are installed, and a demand miss may prefetch; a
fill that failed installs nothing. -/
def Eng.missFill (e : Eng) (line : Nat) (r : ReadRes) : Eng :=
  match e.swd.miss.find? (·.line == line) with
  | none => e
  | some x =>
    let e := e.onSwd fun w => { w with miss := w.miss.filter fun y => y.line != line }
    let e := e.answered (line * 128) 128
    if r = .ok ∧ e.swd.allocates then
      let was := (e.swd.lines.get none line).isSome
      let e := e.install x
      if x.demand && !was && (e.swd.lines.get none line).isSome then e.prefetch x.master line else e
    else e

/-- SWARD_MISS_FILL. -/
def execSwardMissFill (line : BitVec 57) (r : ReadRes) (s : State) : Host.Outcome State Fault Refusal :=
  .next (s.live fun e => e.missFill line.toNat (e.answer (line.toNat * 128) 128 r))

/-- EVICTION_DRAIN_ACK (R234): the oldest entry of the slice is in memory and freed. -/
def execEvictionDrainAck (slice : Fin 64) (s : State) : Host.Outcome State Fault Refusal :=
  .next (s.live fun e => e.drainOne slice)

/-! ### Line failures and defects (R244, R245, R391) -/

/-- A defect entry's 64 bits (R391). -/
def Defect.word (d : Defect) : W64 :=
  BitVec.ofNat 64 (d.kind + d.unit * 2 ^ 2 + d.index * 2 ^ 8 + d.way * 2 ^ 18 + d.st * 2 ^ 23 +
    d.spare1 % 32 * 2 ^ 25 + d.spare2 % 32 * 2 ^ 30)

/-- Spares a unit has used (R391): a value of 32 in a spare field means that none was taken. -/
def Swd.usedSpares (w : Swd) (kind unit : Nat) : List Nat :=
  (w.defects.filter fun d => d.kind == kind && d.unit == unit).flatMap fun d =>
    (if d.spare1 < 32 then [d.spare1] else []) ++ (if d.spare2 < 32 then [d.spare2] else [])

/-- The next failure at a location (R245): the first and second take a free spare, a third or one without a spare retires
it. `n` is how many spares a unit has. -/
def Swd.nextDefect (w : Swd) (kind unit index way n : Nat) : Defect :=
  let free := (List.range n).find? fun i => !(w.usedSpares kind unit).contains i
  let old := w.defects.find? fun d => d.kind == kind && d.unit == unit && d.index == index && d.way == way
  match old, free with
  | none, some i => { kind := kind, unit := unit, index := index, way := way, st := 1, spare1 := i, spare2 := 32 }
  | none, none => { kind := kind, unit := unit, index := index, way := way, st := 3, spare1 := 32, spare2 := 32 }
  | some d, some i => if d.st = 1 then { d with st := 2, spare2 := i } else { d with st := 3 }
  | some d, none => { d with st := 3 }

/-- Records a failing location (R245): its defect entry, its message to reel `m` with its fault log record, which is unwritten as
long as the entry is not in the option area (R393), and the option area write, unless the engine runs on defaults or the list is full
(`noWrite`). -/
def Eng.noteDefect (e : Eng) (noWrite : Bool) (d : Defect) (m : Nat) : Eng :=
  let same (x : Defect) : Bool := x.kind == d.kind && x.unit == d.unit && x.index == d.index && x.way == d.way
  let ds := if e.swd.defects.any same then e.swd.defects.map fun x => if same x then d else x else e.swd.defects ++ [d]
  let e := e.onSwd fun w => { w with defects := ds, defq := if noWrite then w.defq else w.defq ++ [d.word] }
  let (cls, code) := if d.kind = 1 then (7, 0x0701) else (4, 0x0402)
  let code := if d.st = 3 then code + 1 else code
  let e := e.logRec code cls d.unit d.word.toNat true
  let (e, rec) := e.mkRec cls d.unit code d.word.toNat
  let (e, us) := e.hand m rec
  e.recDenied m us

/-- A line failure (R244, R245): clean sectors are dropped, dirty ones with an uncorrectable error are lost with a message,
other dirty ones move to the eviction buffer, and the location is remapped or its way retired. A failure without an
uncorrectable sector is the corrected error that was seen twice, and is counted as corrected. -/
def Eng.lineFailure (e : Eng) (noWrite : Bool) (slice set way : Nat) (b0 b1 : Bool) : Eng :=
  if e.swd.wayRetired slice set way then e
  else
    let e := if b0 || b1 then e else e.onSwd (·.count 7 1)
    let e := match (e.swd.inSet slice set).find? fun p => p.2.way == way with
      | none => e
      | some (k, l) =>
        let lose (e : Eng) (bad : Bool) (sc : Sector) (sa : Nat) : Eng :=
          if bad && sc.dirty then (e.onSwd fun w => { w with uncorr := true }).postEvt 7 slice 0x0700 sa else e
        let e := lose (lose e b0 l.s0 (k * 128)) b1 l.s1 (k * 128 + 64)
        let l' := { l with s0 := if b0 then {} else l.s0, s1 := if b1 then {} else l.s1 }
        (e.onSwd fun w => { w with lines := w.lines.set none k (some l') }).evict k
    let d := e.swd.nextDefect 1 slice set way 32
    let e := e.onSwd fun w => { w with remapped := w.remapped || d.st != 3, retired := w.retired || d.st == 3 }
    e.noteDefect noWrite d e.evt

/-! ### The option area's writer (R369) -/

/-- One option copy's byte: erased bytes read 0xFF. -/
def nvByte (m : SMap Byte) (i : Nat) : Byte := m.get 0xFF i

/-- The 1,028 bytes of a copy (R365). -/
def nvCopy (m : SMap Byte) : List Byte := (List.range 1028).map (nvByte m)

/-- A copy passes its CRC (R366). -/
def nvOk (bs : List Byte) : Bool := crc32c (bs.take 1024) == le bs 0x400 4

/-- The slot of the defect list (R365) that an entry goes to: that of the same location, else the first empty one. -/
def defectSlot (bs : List Byte) (x : Nat) : Option Nat :=
  let at_ (i : Nat) : Nat := le bs (0x120 + 8 * i) 8
  let loc (v : Nat) : Nat := fld v 0 23
  ((List.range 91).find? fun i => at_ i != 0 && loc (at_ i) == loc x).orElse fun _ =>
    (List.range 91).find? fun i => at_ i == 0

/-- A whole copy with its generation and its CRC (R369). -/
def nvImage (bs : List Byte) (gen : Nat) : List Byte :=
  let b := splice (bs.take 1024) 0x3FC (leBytes 4 gen)
  b ++ leBytes 4 (crc32c b)

/-- The content a write of the option area starts from: the copy not committed at the last load, when an earlier write has
completed there, else the committed copy; and the generation it gets (R369). -/
def AlwaysOn.nvBase (a : AlwaysOn) : List Byte × Nat :=
  let other := nvCopy (if a.copyB then a.nvA else a.nvB)
  let gen := (le a.image 0x3FC 4 + 1) % 2 ^ 32
  if nvOk other && le other 0x3FC 4 == gen then (other, gen) else (a.image, gen)

/-- The defect list has no room for an entry, or nothing may be written (R367, R369). -/
def AlwaysOn.noWrite (a : AlwaysOn) (x : W64) : Bool := a.defaulted || (defectSlot a.nvBase.1 x.toNat).isNone

/-- Starts the engine's next defect write when the option area is idle (R369). Entries that find the list full are passed over and
set defect_full. -/
def State.nvStart (s : State) : State :=
  if !s.ao.nv.isEmpty then s
  else
    let (bs, gen) := s.ao.nvBase
    let q := s.eng.swd.defq.dropWhile fun x => (defectSlot bs x.toNat).isNone
    let ao := { s.ao with defectFull := s.ao.defectFull || decide (q.length < s.eng.swd.defq.length) }
    let nv := match q with
      | [] => []
      | x :: _ =>
        let im := nvImage (splice bs (0x120 + 8 * (defectSlot bs x.toNat).getD 0) (leBytes 8 x.toNat)) gen
        [{ copyB := !s.ao.copyB, image := im, byEngine := true }]
    { s with ao := { ao with nv := nv }, eng := s.eng.onSwd fun w => { w with defq := q.drop 1 } }

/-- SWARD_LINE_FAILURE. -/
def execSwardLineFailure (slice : Fin 64) (set : Fin 1024) (way : Fin 20) (b0 b1 : Bool) (work : Option (Fin 64)) (s : State) :
    Host.Outcome State Fault Refusal :=
  if s.runs then
    let no := s.ao.noWrite (s.eng.swd.nextDefect 1 slice set way 32).word
    let full := no && !s.ao.defaulted && !s.eng.swd.wayRetired slice set way
    let s := { s with eng := s.eng.behalf work fun e => e.lineFailure no slice set way b0 b1,
                      ao := { s.ao with defectFull := s.ao.defectFull || full } }
    .next s.nvStart
  else .next s

/-! ### PIN and the map-pin walk (R232, R233) -/

/-- A line is left unpinned (R232): the sward does not allocate, the line is not cacheable, or its set holds as many pinned
lines as it may. -/
def Eng.pinShort (e : Eng) (line : Nat) : Bool :=
  let sl := sliceOf line
  let st := setOf line
  let held := (e.swd.lines.get none line).any Line.pinned
  !e.swd.allocates || !e.mp.cacheable (line * 128) ||
    (!held && decide (e.swd.pinLimit sl st ≤ ((e.swd.inSet sl st).filter fun p => p.2.pinned).length))

/-- The sectors of a line that a fill would read from memory. -/
def Eng.lineFills (e : Eng) (line : Nat) : List Nat :=
  (sectorsOf (line * 128) 128).filter fun sa => (e.swd.sector sa).isNone && (e.swd.evbSector sa).isNone

/-- A slice's miss entries are all in use, and the fill of a line to pin needs one (R229). -/
def Eng.pinWaits (e : Eng) (line : Nat) : Bool :=
  !e.pinShort line && !(e.lineFills line).isEmpty && !(e.swd.miss.any (·.line == line)) &&
    decide (256 ≤ e.swd.entries (sliceOf line))

/-- What became of a line that was to be pinned (R232). -/
inductive PinRes where
  | pinned | short | denied | uncorr
  deriving DecidableEq, Repr

/-- Pins one line, program pin or map pin, filling through the narrow port what it lacks under master `m` (R232); a fill fails with
`bad`, or when it is cut off. -/
def Eng.pinLine (e : Eng) (m : Fin 64) (map bad : Bool) (line : Nat) : Eng × PinRes :=
  if e.pinShort line then (e, .short)
  else
    let fills := e.lineFills line
    let (e, ok) := if fills.isEmpty then (e, true) else e.check 3 m true false (line * 128) 128
    if !ok then (e, .denied)
    else if !fills.isEmpty && e.answer (line * 128) 128 (if bad then .uncorr else .ok) != .ok then
      (e.answered (line * 128) 128, .uncorr)
    else
      match e.allocate line true false with
      | (e, false) => (e, .short)
      | (e, true) =>
        let e := fills.foldl Eng.fetchSector e
        let e := e.install { line := line, w0 := true, w1 := true, demand := true, master := m }
        let pin (l : Line) : Line := if map then { l with mpin := true } else { l with ppin := true }
        (e.onSwd fun w => match w.lines.get none line with
          | some l => { w with lines := w.lines.set none line (some (pin l)) }
          | none => w, .pinned)

/-- Pins a PIN's lines in order, counting the short ones (LE_SWD_PIN_SHORT), up to one whose fill is denied or fails: the short
lines, and how the last line ended. Line `failAt` counted from the first meets an uncorrectable error, if it is filled. -/
def Eng.pinLines (e : Eng) (m : Fin 64) (failAt : Option Nat) : Nat → List Nat → Eng × Nat × PinRes
  | _, [] => (e, 0, .pinned)
  | i, k :: ks =>
    match e.pinLine m false (failAt == some i) k with
    | (e, .short) =>
      let (e, n, r) := (e.onSwd (·.count 6 1)).pinLines m failAt (i + 1) ks
      (e, n + 1, r)
    | (e, .pinned) => e.pinLines m failAt (i + 1) ks
    | (e, r) => (e, 0, r)

/-- Map-pins lines (R233): short ones are counted, and one whose fill is denied or fails is left as it is. -/
def Eng.mapPins (e : Eng) (ls : List Nat) : Eng :=
  ls.foldl (fun e k => match e.pinLine 63 true false k with
    | (e, .short) => e.onSwd (·.count 6 1)
    | (e, _) => e) e

/-- The instruction PIN (R112, R232): imm[0] unpins; sa holds the length, sb the address. -/
def execPin (d : Fin 8) (w : IWord) (s : State) : Host.Outcome State Fault Refusal :=
  .next (s.live fun e => e.insn d (iuses w true true true false 1) [w.sa, w.sb] fun x =>
    let a := (x.get w.sb).toNat
    let n := (x.get w.sa).toNat
    if a % 128 ≠ 0 ∨ n % 128 ≠ 0 ∨ n < 128 ∨ n > 2 ^ 37 then e.progFault d 0x0B 0
    else match e.takeTicket d w.dst with
      | (e, none) => e
      | (e, some k) =>
        let j : PinJob := { h := { x.hdr k 0 with prior := none }, addr := BitVec.ofNat 64 a, len := n, unpin := w.imm.getLsbD 0,
                            late := e.busy 5 }
        (e.onSwd fun w => { w with pins := w.pins ++ [j] }).onDir d (·.step 8))

/-- A PIN retires (R232): every line is pinned, short or unpinned, up to a line whose fill was denied or failed. It waits while
an enable is pending (R237), while a slice that it needs has no miss entry left (R229), and for the end of a restart in which it was
issued (R254). -/
def Eng.pinRetire (e : Eng) (k : Key) (failAt : Option Nat) : Eng :=
  match e.swd.pins.find? (·.h.key == k) with
  | none => e
  | some j =>
    let l0 := j.addr.toNat / 128
    let n := j.len / 128
    let e' := e.onSwd fun w => { w with pins := w.pins.filter fun p => p.h.key != k }
    let ls := (List.range n).map (l0 + ·)
    if j.late && e.busy 5 then e
    else if j.unpin then
      let un (l : Option Line) : Option Line := l.map fun l => { l with ppin := false }
      (e'.onSwd fun w =>
        { w with lines := w.lines.map fun p => if l0 ≤ p.1 ∧ p.1 < l0 + n then (p.1, un p.2) else p }).retire k 0 0
    else if e.swd.pending || ls.any e.pinWaits then e
    else
      let (e, short, r) := e'.pinLines j.h.master failAt 0 ls
      let e := if short = 0 then e
        else e.post (e.mreelOf j.h.reel) 7 (sliceOf l0) 0x0703 (short + workTag j.h.reel j.h.count)
      match r with
      | .denied => e.retire k 3 0
      | .uncorr => e.retire k 3 0b0100
      | _ => e.retire k 0 0

/-- PIN_RETIRE. -/
def execPinRetire (k : Key) (failAt : Option Nat) (s : State) : Host.Outcome State Fault Refusal :=
  .next (s.live fun e => e.pinRetire k failAt)

/-- The ranges of the tier-1 copies this position holds under the active map (R233): base and bytes. -/
def Eng.tier1 (e : Eng) : List (W64 × Nat) :=
  e.map.ents.flatMap fun x =>
    let len := x.rowCount * x.stride4 * 4
    let home := if x.tier = 1 ∧ x.home = e.hth.pos then [(x.base, len)] else []
    let reps := ((e.map.reps.drop x.repIdx).take x.nrep).filterMap fun r =>
      if r.tier = 1 ∧ r.position = e.hth.pos then some (r.base, len) else none
    home ++ reps

/-- The walk of R233: map pins of copies no longer in tier 1 are cleared, those of tier-1 copies set and filled. -/
def Eng.pinWalk (e : Eng) : Eng :=
  let now := e.tier1
  if !e.map.pinWalk || e.swd.pending || e.busy 5 || (now.flatMap fun r => linesOf r.1.toNat r.2).any e.pinWaits then e
  else
    let gone := e.map.oldPins.filter fun r => !now.contains r
    let inR (k : Nat) (r : W64 × Nat) : Bool := decide (r.1.toNat / 128 ≤ k) && decide (k * 128 < r.1.toNat + r.2)
    let keep (k : Nat) : Bool := !(gone.any (inR k)) || now.any (inR k)
    let un (l : Option Line) : Option Line := l.map fun l => { l with mpin := false }
    let e := e.onSwd fun w => { w with lines := w.lines.map fun p => if keep p.1 then p else (p.1, un p.2) }
    let e := if e.swd.allocates then now.foldl (fun e r => e.mapPins (linesOf r.1.toNat r.2)) e
      else e
    { e with map := { e.map with pinWalk := false, oldPins := now } }

/-- MAP_PIN_WALK. -/
def execMapPinWalk (s : State) : Host.Outcome State Fault Refusal := .next (s.live Eng.pinWalk)

/-! ### Memory ports -/

/-- A far-tier request has timed out (R251): far_timeout is set, one message is posted for the port that made it, and its
requester will be answered as uncorrectable. A prefetch that times out reports nothing (R230). -/
def Eng.farTimeout (e : Eng) (sector : Nat) (wide : Bool) : Eng :=
  let a := sector * 64
  if !e.mp.inFar a then e
  else if !wide && e.swd.miss.any fun x => x.line == a / 128 && !x.demand then
    e.onSwd fun w => { w with miss := w.miss.filter fun x => x.line != a / 128 }
  else
    let e := { e with mp := { e.mp with farTmo := true, dead := e.mp.dead ++ [sector] } }
    e.postEvt 8 (if wide then 64 + widePort a else sliceOf (a / 128)) 0x0800 a

/-- FAR_TIER_TIMEOUT; `work` is the reel of the command whose work made the request. -/
def execFarTierTimeout (sector : BitVec 58) (wide : Bool) (work : Option (Fin 64)) (s : State) : Host.Outcome State Fault Refusal :=
  .next (s.live fun e => e.behalf work fun e => e.farTimeout sector.toNat wide)

/-- One memory-port cycle of every regulator (R249), in quarter bytes at 1.6 GHz: 100 GB/s is 62.5 bytes, 10 GB/s 6.25
and 4 GB/s 2.5 bytes a cycle; credits stay at or below 65,536 bytes. -/
def Mp.refill (p : Mp) : Mp :=
  let up (c : SMap Int) (k : Nat) (r : Nat) : SMap Int := c.modify 0 k fun x => min (x + r) 262144
  let c := up p.credit 0 (p.allot.toNat * 250)
  let c := (List.range 16).foldl (fun c i => up c (i + 1) (fld (p.parts.get 0 i).toNat 20 12 * 25)) c
  { p with credit := up c 17 (fld p.farCfg.toNat 14 8 * 10) }

/-- REGULATOR_CREDIT_REFILL. -/
def execRegulatorCreditRefill (s : State) : Host.Outcome State Fault Refusal :=
  .next (s.live fun e => { e with mp := e.mp.refill })

/-- A write of `o` is acknowledged (R248). -/
def Mp.ack (p : Mp) (o : Owner) : Mp :=
  { p with acks := (p.acks.map fun x => if x.1 == o then (o, x.2 - 1) else x).filter fun x => x.2 != 0 }

/-- Rates and sizes as their registers store them: at most a bound. -/
def capTo (n v : Nat) : Nat := if v > n then n else v
/-- A write of 0 stores 1. -/
def atLeast1 (v : Nat) : Nat := if v = 0 then 1 else v

/-- A 32-bit read of a memory-port register. -/
def mpRd (p : Mp) (off : Nat) : Nat :=
  match off with
  | 0x000 => p.ctrs.read
  | 0x004 => 2 * b2n p.farTmo + 4 * b2n p.noTarget
  | 0x008 => p.allot.toNat
  | 0x00C => p.share.toNat
  | 0x010 => p.hbmBase.toNat
  | 0x018 => p.hbmSize
  | 0x060 => p.farBase.toNat
  | 0x068 => p.farCfg.toNat
  | 0x06C => p.farUs.toNat
  | _ =>
    if 0x020 ≤ off ∧ off < 0x060 then (p.parts.get 0 ((off - 0x020) / 4)).toNat
    else if 0x070 ≤ off ∧ off < 0x090 then p.ctrs.snapAt ((off - 0x070) / 8)
    else 0

/-- A write of a memory-port register. -/
def mpWr (p : Mp) (off v : Nat) : Mp :=
  match off with
  | 0x000 => { p with ctrs := p.ctrs.write 1 v }
  | 0x004 => { p with farTmo := p.farTmo && !bit v 1, noTarget := p.noTarget && !bit v 2 }
  | 0x008 => { p with allot := BitVec.ofNat 8 (capTo 200 (v % 256)) }
  | 0x00C => { p with share := BitVec.ofNat 8 (atLeast1 (fld v 0 4) + 16 * atLeast1 (fld v 4 4)) }
  | 0x010 => { p with hbmBase := BitVec.ofNat 64 (v / 2 ^ 30 * 2 ^ 30) }
  | 0x018 => { p with hbmSize := capTo 768 (v % 1024) }
  | 0x060 => { p with farBase := BitVec.ofNat 64 (v / 2 ^ 30 * 2 ^ 30) }
  | 0x068 => { p with farCfg := BitVec.ofNat 32 (capTo 4096 (fld v 0 13) + capTo 128 (fld v 14 8) * 2 ^ 14) }
  | 0x06C => { p with farUs := BitVec.ofNat 16 (atLeast1 (v % 65536)) }
  | _ => if 0x020 ≤ off ∧ off < 0x060 then { p with parts := p.parts.set 0 ((off - 0x020) / 4) (BitVec.ofNat 32 v) } else p

end Sys2Proof.Machine
end

