-- ==== Sys2Proof/Machine/HostCopy.lean ====
section
/-! DEFINITION. The host window and the copy engines (R255 to R272): window reads and writes, read-ahead, the window's
registers, STAGE, and the transfers of the copy engines; and the acknowledgement of writes (R248). -/

namespace Sys2Proof.Machine

open Sys2Proof

/-- Changes the host coupling block. -/
def Eng.onHc (e : Eng) (f : Hc → Hc) : Eng := { e with hc := f e.hc }
/-- Counts in a host coupling counter (R271). -/
def Hc.count (c : Hc) (i n : Nat) : Hc := { c with ctrs := c.ctrs.add i n }

/-! ### The window (R255 to R258) -/

/-- The master of window accesses. -/
def Hc.master (c : Hc) : Fin 64 := ⟨fld c.cfg.toNat 3 6, by unfold fld; exact Nat.mod_lt _ (by decide)⟩

/-- A window access that the window refuses for its size or for crossing a page (R255, R256). -/
def windowBad (off : BitVec 26) (n : Nat) : Bool :=
  n == 0 || decide (n > 512) || off.toNat / 4096 != (off.toNat + n - 1) / 4096

/-- The check of a window access (R256): why it is not served is recorded. -/
def Eng.windowCheck (e : Eng) (off : BitVec 26) (n : Nat) (wr : Bool) : Eng × Bool :=
  let a := e.hc.base.toNat + off.toNat
  if e.busy 8 || !bit e.hc.cfg.toNat 0 then (e.onHc fun c => { c with dropped := true }, false)
  else if windowBad off n then
    ((e.onHc fun c => { c with denied := true }).deny e.hc.master 4 (!wr) wr false a, false)
  else match e.check 4 e.hc.master (!wr) wr a n with
    | (e, true) => (e, true)
    | (e, false) => (e.onHc fun c => { c with denied := true }, false)

/-- All ones, as a read that is not served returns (R256). -/
def ones (n : Nat) : List Byte := List.replicate n 0xFF

/-- The buffer of a page. -/
def Hc.buf (c : Hc) (page : Nat) : Option RaBuf := c.bufs.find? (·.page == page)

/-- A window read (R255 to R258): from its page's buffer; waiting for its page while ra_en is 1; else from memory. -/
def Eng.windowRead (e : Eng) (off : BitVec 26) (n : Nat) : Eng :=
  match e.windowCheck off n false with
  | (e, false) => e.onHc fun c => { c with answer := some (ones n) }
  | (e, true) =>
    let a := e.hc.base.toNat + off.toNat
    let e := e.onHc (·.count 0 n)
    match e.hc.buf (a / 4096) with
    | some b =>
      e.onHc fun c => ({ c with bufs := c.bufs.erase b ++ [b], answer := some ((b.data.drop (a % 4096)).take n) }).count 2 1
    | none =>
      if bit e.hc.cfg.toNat 1 then e.onHc fun c => { c with reads := c.reads ++ [(a, n)] }
      else
        let (e, bs) := e.read false a n
        e.onHc fun c => { c with answer := some bs }

/-- HOST_WINDOW_READ. Before the first configured state the window drops it (R256). -/
def execHostWindowRead (off : BitVec 26) (len : Nat) (s : State) : Host.Outcome State Fault Refusal :=
  if s.runs then .next { s with eng := s.eng.windowRead off len }
  else .next { s with eng := s.eng.onHc fun c => { c with dropped := true, answer := some (ones len) } }

/-- A window write (R255 to R258): applied in arrival order, its page's buffer updated too. -/
def Eng.windowWrite (e : Eng) (off : BitVec 26) (bs : List Byte) : Eng :=
  match e.windowCheck off bs.length true with
  | (e, false) => e
  | (e, true) =>
    let a := e.hc.base.toNat + off.toNat
    let e := e.thruWr true a bs
    let upd (b : RaBuf) : RaBuf := if b.page == a / 4096 then { b with data := splice b.data (a % 4096) bs } else b
    e.onHc fun c => ({ c with bufs := c.bufs.map upd }).count 1 bs.length

/-- HOST_WINDOW_WRITE. -/
def execHostWindowWrite (off : BitVec 26) (data : List Byte) (s : State) : Host.Outcome State Fault Refusal :=
  if s.runs then .next { s with eng := s.eng.windowWrite off data }
  else .next { s with eng := s.eng.onHc fun c => { c with dropped := true } }

/-- Answers the window reads that waited for a page, oldest first, with bytes of it. -/
def Hc.serve (c : Hc) (page : Nat) (data : List Byte) : Hc :=
  let mine := c.reads.filter fun r => r.1 / 4096 == page
  let c := { c with reads := c.reads.filter fun r => r.1 / 4096 != page }
  mine.foldl (fun c r => { c with answer := some ((data.drop (r.1 % 4096)).take r.2) }) c

/-- A page fill returns (R258): the page goes into the least recently used buffer. A fill that met an error fills no buffer,
and its reads are answered with bytes the spec does not state (log entry 3). -/
def Eng.pageFill (e : Eng) (page : BitVec 14) (r : ReadRes) : Eng :=
  match e.hc.reads.find? fun x => x.1 / 4096 % 16384 == page.toNat with
  | none => e
  | some x =>
    let pg := x.1 / 4096
    if e.answer (pg * 4096) 4096 r = .ok then
      let (e, bs) := e.read false (pg * 4096) 4096
      let here := decide (e.hc.base.toNat ≤ pg * 4096) && decide (pg * 4096 < e.hc.base.toNat + 2 ^ 26)
      let keep (c : Hc) : Hc :=
        if here && bit c.cfg.toNat 1 then
          { c with bufs := (if c.bufs.length ≥ 16 then c.bufs.drop 1 else c.bufs) ++ [{ page := pg, data := bs }] }
        else c
      e.onHc fun c => (keep c).serve pg bs
    else
      let (e, bs) := (e.answered (pg * 4096) 4096).freeBytes 4096
      e.onHc fun c => c.serve pg bs

/-! ### The window's registers -/

/-- A commit of LE_HW_BASE (R260): the window moves, every buffer is discarded. -/
def Hc.move (c : Hc) (v : Nat) : Hc :=
  { c.discard (fun _ => true) with base := BitVec.ofNat 64 (v / 2 ^ 26 * 2 ^ 26) }

/-- A write of LE_HW_CFG (R259). -/
def Hc.setCfg (c : Hc) (v : Nat) : Hc :=
  let n : W32 := BitVec.ofNat 32 (v % 512)
  -- ra_en is bit 1, enable bit 0, master bits 8 to 3
  let c := if (n ^^^ c.cfg) &&& 0x1FB ≠ 0 then c.discard fun _ => true else c
  { c with cfg := n }

/-- A 32-bit read of a host coupling register. -/
def hcRd (c : Hc) (off : Nat) : Nat :=
  match off with
  | 0x000 => c.base.toNat
  | 0x008 => c.cfg.toNat
  | 0x010 => b2n c.dropped + 2 * b2n c.denied + 4 * b2n c.hostErr + 16 * c.bufs.length
  | 0x014 => c.ctrs.read
  | _ =>
    if 0x040 ≤ off ∧ off < 0x080 then
      let q := c.ces.get [] ((off - 0x040) / 4)
      b2n (match q with
        | x :: _ => x.started
        | [] => false) + 2 * q.length
    else if 0x080 ≤ off ∧ off < 0x0A8 then c.ctrs.snapAt ((off - 0x080) / 8)
    else 0

/-- A write of a host coupling register. -/
def hcWr (c : Hc) (off v : Nat) : Hc :=
  match off with
  | 0x000 => c.move v
  | 0x008 => c.setCfg v
  | 0x00C => if bit v 0 then c.discard fun _ => true else c
  | 0x010 => { c with dropped := c.dropped && !bit v 0, denied := c.denied && !bit v 1, hostErr := c.hostErr && !bit v 2 }
  | 0x014 => { c with ctrs := c.ctrs.write 1 v }
  | _ => c

/-! ### Copy engines (R262 to R267) -/

/-- The copy engine that takes a transfer (R262): of its direction, the lowest idle one, else the one with the fewest
queued transfers, below 16. -/
def Hc.pick (c : Hc) (dstHost : Bool) : Option Nat :=
  let es := (List.range 8).map fun i => if dstHost then i + 8 else i
  let len (i : Nat) : Nat := (c.ces.get [] i).length
  match es.find? fun i => len i == 0 with
  | some i => some i
  | none =>
    (es.filter fun i => decide (len i < 16)).foldl (fun b i => match b with
      | none => some i
      | some j => if len i < len j then some i else some j) none

/-- Queues a transfer on an engine. -/
def Hc.queue (c : Hc) (ce : Nat) (x : Xfer) : Hc := { c with ces := c.ces.modify [] ce (· ++ [x]) }

/-- The running transfer leaves its engine. -/
def Hc.pop (c : Hc) (ce : Nat) : Hc := { c with ces := c.ces.modify [] ce (·.drop 1) }

/-- The instruction STAGE (R112, R252, R262). A restarting block takes no transfer (R272). -/
def execStage (d : Fin 8) (w : IWord) (ext : W64) (s : State) : Host.Outcome State Fault Refusal :=
  .next (s.live fun e => e.insn d (iuses w true true true false 0 && decide (ext.toNat < 2 ^ 42)) [w.sa, w.sb] fun x =>
    let n := fld ext.toNat 0 40
    let sh := bit ext.toNat 40
    let dh := bit ext.toNat 41
    if n = 0 ∨ (sh ∧ dh) then e.progFault d 0x0B 0
    else match (if e.busy 8 then none else e.hc.pick dh) with
      | none => e.onDir d fun x => { x with stall := satAdd x.stall 1 }
      | some ce =>
        match e.takeTicket d w.dst with
        | (e, none) => e
        | (e, some k) =>
          let t : Xfer := { owner := .ticket k, src := x.get w.sa, dst := x.get w.sb, len := n, srcHost := sh,
                            dstHost := dh, master := x.master, started := false, moved := 0 }
          (e.onHc fun c => c.queue ce t).onDir d (·.step 16))

/-- The command a transfer works for: its own, or that of the program that staged it. -/
def Eng.xferCmd (e : Eng) (t : Xfer) : Option (Fin 64 × W24) :=
  match t.owner with
  | .cmd r c => some (r, c)
  | .ticket k => some ((e.dir k.dir).reel, (e.dir k.dir).count)
  | _ => none

/-- A transfer ends without success: its COPY gets a status and flags, its STAGE retires. -/
def Eng.xferFail (e : Eng) (t : Xfer) (cmdStatus tickStatus : Byte) (flags : BitVec 4) : Eng :=
  match t.owner with
  | .cmd r c =>
    let d := match (e.reel r).inflight.find? (·.count == c) with
      | some q => q.detail
      | none => 0
    e.finishCmd r c cmdStatus flags d
  | .ticket k => e.retire k tickStatus flags
  | _ => e

/-- The transfer is the loader's own use of an engine (R335): it reads files at the end of its operation. -/
def Xfer.ofLoader (t : Xfer) : Bool := match t.owner with
  | .loader _ => true
  | _ => false

/-- The loader takes an inbound copy engine for an operation, or for the load of a piece, as a COPY does (R262, R312, R335). With every
queue full, or while the block restarts (R272), it tries again at its end. -/
def Eng.loaderTake (e : Eng) (piece : Option (BitVec 16)) (m : Fin 64) : Eng :=
  let o : Owner := .loader piece
  if e.hc.ces.any fun q => q.2.any (·.owner == o) then e
  else match (if e.busy 8 then none else e.hc.pick false) with
    | none => e
    | some ce => e.onHc fun c => c.queue ce
        { owner := o, src := 0, dst := 0, len := 1, srcHost := true, dstHost := false, master := m, started := false, moved := 0 }

/-- The loader's operation runs on its engine. -/
def Eng.loading (e : Eng) (piece : Option (BitVec 16)) : Bool :=
  e.hc.ces.any fun q => (q.2.head?).any fun t => t.owner == .loader piece && t.started

/-- The loader's operation leaves its engine. -/
def Eng.loaderDone (e : Eng) (piece : Option (BitVec 16)) : Eng :=
  e.onHc fun c =>
    { c with ces := (c.ces.map fun q => (q.1, q.2.filter fun t => t.owner != .loader piece)).filter fun q => !q.2.isEmpty }

/-- COPY_TRANSFER_START (R265): the whole source and destination ranges are checked before anything is written. The loader's reads are
checked one by one. -/
def Eng.xferStart (e : Eng) (ce : Nat) : Eng :=
  match e.hc.ces.get [] ce with
  | [] => e
  | t :: _ =>
    if t.started || e.inReset 8 then e
    else
      let (e, ok1) := if t.ofLoader then (e, true) else e.checkMem t.srcHost true t.master true false t.src.toNat t.len
      let (e, ok2) := if t.ofLoader then (e, true) else if ok1 then e.checkMem t.dstHost true t.master false true t.dst.toNat t.len else (e, false)
      if ok2 then
        e.onHc fun c => { c with ces := c.ces.modify [] ce fun q => match q with
          | x :: r => { x with started := true } :: r
          | [] => [] }
      else (e.onHc fun c => c.pop ce).xferFail t 3 3 0

/-- COPY_TRANSFER_START, as the row gives it. -/
def execCopyTransferStart (ce : Fin 16) (s : State) : Host.Outcome State Fault Refusal :=
  .next (s.live fun e => e.xferStart ce)

/-- A transfer runs in descending order (R264): within device memory, upwards. -/
def Xfer.descends (t : Xfer) : Bool := !t.srcHost && !t.dstHost && decide (t.src.toNat < t.dst.toNat)

/-- The next request of a transfer (R263): its offset and its bytes, crossing no 4 KiB page on either side, at most 512
bytes on a host side. -/
def Xfer.request (t : Xfer) : Nat × Nat :=
  let left := t.len - t.moved
  let lim := if t.srcHost ∨ t.dstHost then 512 else 4096
  if t.descends then
    let back (a : Nat) : Nat := (a + left - 1) % 4096 + 1
    let n := min (min left lim) (min (back t.src.toNat) (back t.dst.toNat))
    (left - n, n)
  else
    let room (a : Nat) : Nat := 4096 - (a + t.moved) % 4096
    (t.moved, min (min left lim) (min (room t.src.toNat) (room t.dst.toNat)))

/-- The kind field of a transfer-error message (R387). -/
def errKind : ReadRes → Nat
  | .ok | .uncorr => 0
  | .farTimeout => 1
  | .hostRefused => 2
  | .hostTimeout => 3
  | .hostPoison => 4

/-- Whether an error is a host-side one (R266). -/
def hostSide : ReadRes → Bool
  | .hostRefused | .hostTimeout | .hostPoison => true
  | _ => false

/-- Who writes for a transfer: host-memory writes are posted and acknowledged by the flushing read alone (R267). -/
def Eng.xferWho (e : Eng) (t : Xfer) : Who :=
  { m := t.master, cmd := e.xferCmd t, own := if t.dstHost then .engine else t.owner }

/-- Bytes of a failed transfer that may or may not be written (R266): from the failing request to 64 KiB past its
destination page, each copied or not by a free choice. `n` counts them down. -/
def Eng.maybeCopy (e : Eng) (t : Xfer) : Nat → Nat → Eng
  | 0, _ => e
  | n + 1, o =>
    let (e, b) := e.freeBit
    let a := t.dst.toNat + o
    let e := if b then e.putBytes t.dstHost a (e.rdMem t.srcHost true (t.src.toNat + o) 1) else e
    let e := if b && !t.dstHost then { e with hc := e.hc.touch (e.xferCmd t) a 1 } else e
    if t.descends then if o = 0 then e else e.maybeCopy t n (o - 1) else e.maybeCopy t n (o + 1)

/-- COPY_REQUEST_RESPONSE (R263, R264, R266): the next request moves its bytes, or an error ends the transfer. The sectors of one request
are read in one step, from one side of a write-back to them, where R16 would let them differ (DESIGN CHOICE, log entry 191). -/
def Eng.xferRequest (e : Eng) (ce : Nat) (r : ReadRes) : Eng :=
  match e.hc.ces.get [] ce with
  | [] => e
  | t :: _ =>
    if !t.started || t.ofLoader || decide (t.len ≤ t.moved) || e.inReset 8 then e
    else
      let (o, n) := t.request
      let src := t.src.toNat + o
      let dst := t.dst.toNat + o
      let r := if t.srcHost then r else e.answer src n r
      if r = .ok then
        let (e, bs) := e.read t.srcHost src n
        let e := e.write (e.xferWho t) t.dstHost dst bs
        e.onHc fun c => ({ c with ces := c.ces.modify [] ce fun q => match q with
          | x :: rest => { x with moved := x.moved + n } :: rest
          | [] => [] }).count (if ce < 8 then 3 else 4) n
      else
        let e := e.answered src n
        let e := if hostSide r then e.onHc fun c => { c with hostErr := true } else e
        let (reel, tag) := match e.xferCmd t with
          | some (q, c) => (e.mreelOf q, workTag q c)
          | none => (e.evt, 0)
        let e := e.post reel 0xA ce 0x0A00 (src + errKind r * 2 ^ 64 + tag)
        let page := dst / 4096 * 4096
        let m := if t.descends then min (o + n) (dst + n - (page - 65536)) else min (t.len - o) (page + 4096 + 65536 - dst)
        let e := e.maybeCopy t m (if t.descends then o + n - 1 else o)
        (e.onHc fun c => c.pop ce).xferFail t 4 3 0b0100

/-- COPY_REQUEST_RESPONSE, as the row gives it. -/
def execCopyRequestResponse (ce : Fin 16) (r : ReadRes) (s : State) : Host.Outcome State Fault Refusal :=
  .next (s.live fun e => e.xferRequest ce r)

/-- The clapper operation of a COPY or INLINE_BAG whose work is done (R80): the add, or completion at once. -/
def Eng.workDone (e : Eng) (reel : Fin 64) (count : W24) (cl : Nat) (add : Nat) (detail : W32) (m : Fin 64) : Eng :=
  if bit cl 15 then
    e.clpPresent { req := 8, master := m, clapper := ⟨fld cl 0 13, by unfold fld; exact Nat.mod_lt _ (by decide)⟩,
                   kind := .add, val := BitVec.ofNat 64 add, dst := none, peer := none, cmd := some (reel, count) }
  else e.finishCmd reel count 0 0 detail

/-- COPY_TRANSFER_COMPLETE (R267): a COPY's work is done; a STAGE retires once its writes, and for host memory its
flushing read, are acknowledged (R248). -/
def Eng.xferDone (e : Eng) (ce : Nat) : Eng :=
  match e.hc.ces.get [] ce with
  | [] => e
  | t :: _ =>
    if !t.started || t.ofLoader || decide (t.moved < t.len) || e.inReset 8 then e
    else
      let e := e.onHc fun c => c.pop ce
      match t.owner with
      | .cmd r c =>
        match (e.reel r).inflight.find? (·.count == c) with
        | some q => if q.finished then e else e.workDone r c (le q.body 22 2) (le q.body 24 8) q.detail q.master
        | none => e
      | .ticket k =>
        let e := if t.dstHost then { e with mp := e.mp.owe t.owner } else e
        if e.mp.owed t.owner = 0 then e.retire k 0 0 else e.onHc fun c => { c with closing := c.closing ++ [k] }
      | _ => e

/-- COPY_TRANSFER_COMPLETE, as the row gives it. -/
def execCopyTransferComplete (ce : Fin 16) (s : State) : Host.Outcome State Fault Refusal :=
  .next (s.live fun e => e.xferDone ce)

/-- An acknowledgement of a write, or a flushing read's return (R248, R267): what waits for it goes on. -/
def Eng.writeAck (e : Eng) (o : Owner) : Eng :=
  let e := { e with mp := e.mp.ack o }
  match o with
  | .ticket k =>
    if e.hc.closing.contains k ∧ e.mp.owed o = 0 then
      (e.onHc fun c => { c with closing := c.closing.erase k }).retire k 0 0
    else e
  | .dirAcc d => e.settle d
  | _ => e

/-- MEMORY_WRITE_ACK. -/
def execMemoryWriteAck (o : Owner) (s : State) : Host.Outcome State Fault Refusal := .next (s.live fun e => e.writeAck o)

end Sys2Proof.Machine
end

