-- ==== Sys2Proof/Machine/Formats.lean ====
section
/-! DEFINITION. Number formats (R23 to R44): decoding and encoding, format words, block layout, block scales, the rotation,
requantization, FP32 arithmetic, and the grader's counting. -/

namespace Sys2Proof.Machine

open Sys2Proof

/-! ### Exact values -/

/-- 2^k for any integer k. -/
def pow2 (k : Int) : Rat := if 0 ≤ k then ((2 ^ k.toNat : Nat) : Rat) else mkRat 1 (2 ^ (-k).toNat)

/-- floor(log2 x) for a positive x. -/
def flog2 (x : Rat) : Int :=
  let n := x.num.toNat
  let d := x.den
  let k : Int := (Nat.log2 n : Int) - (Nat.log2 d : Int)
  if 0 ≤ k then (if d * 2 ^ k.toNat ≤ n then k else k - 1) else (if d ≤ n * 2 ^ (-k).toNat then k else k - 1)

/-- Nearest integer to a non-negative x, ties away from zero (R27). -/
def roundNta (x : Rat) : Nat := (2 * x.num.toNat + x.den) / (2 * x.den)

/-- A signed exact value; an exact zero is positive. -/
def XVal.ofRat (r : Rat) : XVal := .fin (decide (r < 0)) (if r < 0 then -r else r)
/-- A value is a NaN. -/
def XVal.isNan : XVal → Bool
  | .nan _ => true
  | _ => false
/-- A value is finite. -/
def XVal.isFin : XVal → Bool
  | .fin .. => true
  | _ => false
/-- The value as a rational; not used for values that are not finite. -/
def XVal.toRat : XVal → Rat
  | .fin s m => if s then -m else m
  | _ => 0
/-- The sign bit. -/
def XVal.sign : XVal → Bool
  | .nan s | .inf s | .fin s _ => s
/-- The canonical NaN that an operation produces (R29). -/
def qnan : XVal := .nan false
/-- Positive zero. -/
def xzero : XVal := .fin false 0
/-- The value with its sign flipped. -/
def XVal.neg : XVal → XVal
  | .nan _ => qnan
  | .inf s => .inf (!s)
  | .fin s m => .fin (!s) m

/-- The exact sum: of two zeros negative only when both are, and an exact cancellation positive; infinities of unlike signs
give NaN. -/
def XVal.add (a b : XVal) : XVal :=
  match a, b with
  | .nan _, _ | _, .nan _ => qnan
  | .inf s, .inf t => if s = t then .inf s else qnan
  | .inf s, _ => .inf s
  | _, .inf s => .inf s
  | .fin s m, .fin t n =>
    if m = 0 ∧ n = 0 then .fin (s && t) 0 else XVal.ofRat ((if s then -m else m) + (if t then -n else n))

/-- The exact product; infinity by zero gives NaN. -/
def XVal.mul (a b : XVal) : XVal :=
  match a, b with
  | .nan _, _ | _, .nan _ => qnan
  | .fin s m, .fin t n => .fin (s != t) (m * n)
  | .inf s, .fin t n => if n = 0 then qnan else .inf (s != t)
  | .fin s m, .inf t => if m = 0 then qnan else .inf (s != t)
  | .inf s, .inf t => .inf (s != t)

/-- The exact quotient; a nonzero value over zero gives infinity, zero over zero and infinity over infinity NaN. -/
def XVal.div (a b : XVal) : XVal :=
  match a, b with
  | .nan _, _ | _, .nan _ => qnan
  | .inf _, .inf _ => qnan
  | .inf s, .fin t _ => .inf (s != t)
  | .fin s _, .inf t => .fin (s != t) 0
  | .fin s m, .fin t n => if n = 0 then (if m = 0 then qnan else .inf (s != t)) else .fin (s != t) (m / n)

/-- a < b among values that are not NaN; zeros are equal. -/
def XVal.lt (a b : XVal) : Bool :=
  match a, b with
  | .nan _, _ | _, .nan _ => false
  | .inf s, .inf t => s && !t
  | .inf s, _ => s
  | _, .inf t => !t
  | .fin .., .fin .. => decide (a.toRat < b.toRat)

/-! ### The eight formats (R23, R24) -/

/-- A format code. -/
inductive Fmt where
  | fp32 | bf16 | fp16 | e4m3 | e5m2 | int8 | int4 | e2m1
  deriving DecidableEq, Repr

/-- The format of a code (R23). -/
def fmtOf (c : Nat) : Option Fmt :=
  match c with
  | 0 => some .fp32 | 1 => some .bf16 | 2 => some .fp16 | 3 => some .e4m3 | 4 => some .e5m2 | 5 => some .int8
  | 6 => some .int4 | 7 => some .e2m1 | _ => none

/-- Width in bits. -/
def Fmt.width : Fmt → Nat
  | .fp32 => 32 | .bf16 | .fp16 => 16 | .e4m3 | .e5m2 | .int8 => 8 | .int4 | .e2m1 => 4
/-- An integer format. -/
def Fmt.isInt : Fmt → Bool
  | .int8 | .int4 => true
  | _ => false
/-- Bits of the significand field. -/
def Fmt.man : Fmt → Nat
  | .fp32 => 23 | .bf16 => 7 | .fp16 => 10 | .e4m3 => 3 | .e5m2 => 2 | .e2m1 => 1 | _ => 0
/-- Exponent bias. -/
def Fmt.bias : Fmt → Int
  | .fp32 | .bf16 => 127 | .fp16 | .e5m2 => 15 | .e4m3 => 7 | .e2m1 => 1 | _ => 0
/-- Encoding of the largest finite value, without its sign. -/
def Fmt.maxCode : Fmt → Nat
  | .fp32 => 0x7F7FFFFF | .bf16 => 0x7F7F | .fp16 => 0x7BFF | .e4m3 => 0x7E | .e5m2 => 0x7B | .int8 => 127
  | .int4 => 7 | .e2m1 => 7
/-- The format has an infinity. -/
def Fmt.hasInf : Fmt → Bool
  | .fp32 | .bf16 | .fp16 | .e5m2 => true
  | _ => false
/-- A finite encode out of range becomes an infinity (R28). -/
def Fmt.overInf : Fmt → Bool
  | .fp32 | .bf16 | .fp16 => true
  | _ => false
/-- The canonical positive NaN (R29): none in a format without NaN. -/
def Fmt.nanCode : Fmt → Option Nat
  | .fp32 => some 0x7FC00000 | .bf16 => some 0x7FC0 | .fp16 => some 0x7E00 | .e4m3 => some 0x7F | .e5m2 => some 0x7E
  | _ => none

/-- The magnitude of a finite floating-point encoding without its sign (R24). -/
def Fmt.magOf (f : Fmt) (m : Nat) : Rat :=
  let w := f.man
  if m < 2 ^ w then (m : Rat) * pow2 (1 - f.bias - w)
  else ((2 ^ w + m % 2 ^ w : Nat) : Rat) * pow2 ((m / 2 ^ w : Nat) - f.bias - w)

/-- Decodes an encoding of the format's width (R24, R26). -/
def Fmt.decode (f : Fmt) (c : Nat) : XVal :=
  let h := 2 ^ (f.width - 1)
  let s := decide (h ≤ c % (2 * h))
  let m := c % h
  if f.isInt then (if s then .fin true ((h - m : Nat) : Rat) else .fin false (m : Rat))
  else if m ≤ f.maxCode then .fin s (f.magOf m)
  else if f.hasInf && m == f.maxCode + 1 then .inf s
  else .nan s

/-- The class of an encode (R42). -/
inductive EncCls where
  | plain | clipped | zeroed | nan
  deriving DecidableEq, Repr

/-- Puts the sign into an encoding of magnitude `m`. -/
def Fmt.signed (f : Fmt) (s : Bool) (m : Nat) : Nat :=
  if f.isInt then (if s && m != 0 then 2 ^ f.width - m else m) else m + (if s then 2 ^ (f.width - 1) else 0)

/-- The encoding, without sign, of the magnitude a finite value rounds to (R27); it exceeds `maxCode` out of range. -/
def Fmt.roundMag (f : Fmt) (y : Rat) : Nat :=
  if f.isInt then roundNta y
  else if y = 0 then 0
  else
    let emin := 1 - f.bias
    let e := max (flog2 y) emin
    (e - emin).toNat * 2 ^ f.man + roundNta (y / pow2 (e - f.man))

/-- Encodes a value (R27 to R30), with its class (R42). -/
def Fmt.encode (f : Fmt) : XVal → Nat × EncCls
  | .nan s => (match f.nanCode with
      | some c => f.signed s c
      | none => 0, .nan)
  | .inf s => if f.hasInf then (f.signed s (f.maxCode + 1), .plain) else (f.signed s f.maxCode, .clipped)
  | .fin s y =>
    let m := f.roundMag y
    if m > f.maxCode then (f.signed s (if f.overInf then f.maxCode + 1 else f.maxCode), .clipped)
    else (f.signed s m, if m == 0 && y != 0 then .zeroed else .plain)

/-- A value encoded once into FP32 and decoded again: the rounding of every FP32 step. -/
def XVal.r32 (x : XVal) : XVal := Fmt.fp32.decode (Fmt.fp32.encode x).1
/-- An FP32 word as a value. -/
def of32 (w : W32) : XVal := Fmt.fp32.decode w.toNat
/-- A value as an FP32 word. -/
def to32 (x : XVal) : W32 := BitVec.ofNat 32 (Fmt.fp32.encode x).1
/-- FP32 addition, one rounding. -/
def fadd (a b : XVal) : XVal := (a.add b).r32
/-- FP32 subtraction, one rounding. -/
def fsub (a b : XVal) : XVal := (a.add b.neg).r32
/-- FP32 multiplication, one rounding. -/
def fmul (a b : XVal) : XVal := (a.mul b).r32
/-- FP32 division, one rounding. -/
def fdiv (a b : XVal) : XVal := (a.div b).r32

/-- The square root of a non-negative rational rounded to FP32 (R27): the root's integer part at a scale that leaves more
than 24 significant bits, with a sticky half when it is inexact, has the same nearest encoding. -/
def sqrtRat (y : Rat) : Rat :=
  if y = 0 then 0
  else
    let e := flog2 y / 2
    -- y · 2^(2k) has its root between 2^40 and 2^42
    let k : Int := 40 - e
    let z := y * pow2 (2 * k)
    let r := Nat.sqrt (z.num.toNat / z.den)
    let exact := decide ((r * r : Nat) * z.den = z.num.toNat)
    (((2 * r + (if exact then 0 else 1) : Nat) : Rat)) * pow2 (-k - 1)

/-- FP32 square root, one rounding; of a negative value NaN, of a zero that zero. -/
def fsqrt : XVal → XVal
  | .nan _ => qnan
  | .inf s => if s then qnan else .inf false
  | .fin s m => if m = 0 then .fin s 0 else if s then qnan else (XVal.fin false (sqrtRat m)).r32

/-! ### The format word (R31) -/

/-- A checked format word. -/
structure Fw where
  fmt : Fmt
  sk  : Nat
  gs  : Nat
  rot : Nat
  deriving DecidableEq, Repr

/-- Rotation size of a rot code. -/
def rotSize (r : Nat) : Nat :=
  match r with
  | 1 => 64 | 2 => 256 | 3 => 1024 | 4 => 4096 | _ => 0

/-- Checks a format word; `len` is the row length that the same descriptor gives, if it gives one (R31). -/
def fwOf (w : Nat) (len : Option Nat) : Option Fw :=
  match fmtOf (fld w 0 4) with
  | none => none
  | some f =>
    let sk := fld w 4 2
    let gs := fld w 6 2
    let rot := fld w 8 3
    let badLen := match len with
      | some n => rot != 0 && n % rotSize rot != 0
      | none => false
    if sk == 3 || (gs == 3 && sk != 0) || decide (rot > 4) || (sk != 0 && decide (f.width ≥ 16)) || badLen ||
        fld w 11 5 != 0 then none
    else some { fmt := f, sk := sk, gs := 32 * 2 ^ gs, rot := rot }

/-- An unscaled, unrotated format word. -/
def Fw.plain (w : Fw) : Bool := w.sk == 0 && w.rot == 0
/-- Bytes of `n` elements of a format without scales (R32). -/
def Fmt.bytes (f : Fmt) (n : Nat) : Nat := (n * f.width + 7) / 8
/-- Bytes of a row of `n` elements (R32). -/
def Fw.rowBytes (w : Fw) (n : Nat) : Nat :=
  if w.sk = 0 then w.fmt.bytes n
  else n / w.gs * (1 + w.fmt.bytes w.gs) + (if n % w.gs = 0 then 0 else 1 + w.fmt.bytes (n % w.gs))

/-! ### Rows as bytes (R32 to R34) -/

/-- Element codes packed in bytes, `n` of them (R32). -/
def unpack (f : Fmt) (n : Nat) (bs : List Byte) : List Nat :=
  (List.range n).map fun i =>
    if f.width = 4 then fld (le bs (i / 2) 1) (4 * (i % 2)) 4 else le bs (i * (f.width / 8)) (f.width / 8)

/-- Nibbles as bytes, a pad nibble zero. -/
def nibbles : List Nat → List Byte
  | [] => []
  | [a] => [BitVec.ofNat 8 a]
  | a :: b :: r => BitVec.ofNat 8 (a + 16 * b) :: nibbles r

/-- Codes packed in bytes (R32). -/
def pack (f : Fmt) (cs : List Nat) : List Byte :=
  if f.width = 4 then nibbles cs else cs.flatMap fun c => leBytes (f.width / 8) c

/-- The scale a byte decodes to (R33). -/
def scaleOf (sk b : Nat) : XVal :=
  if sk = 1 then (if b = 255 then qnan else .fin false (pow2 ((b : Int) - 127))) else Fmt.e4m3.decode b

/-- A scaled element (R34): a zero scale makes it zero, but for NaN. -/
def scaled (s x : XVal) : XVal :=
  match s, x with
  | .fin t m, .inf u => if m = 0 then .fin (t != u) 0 else .inf (t != u)
  | _, _ => s.mul x

/-- The blocks of a scaled row: decodes `n` elements group by group. -/
def decodeBlocks (w : Fw) : Nat → Nat → List Byte → List XVal
  | 0, _, _ => []
  | k + 1, n, bs =>
    let g := min w.gs n
    let s := scaleOf w.sk (le bs 0 1)
    ((unpack w.fmt g (bs.drop 1)).map fun c => scaled s (w.fmt.decode c)) ++
      decodeBlocks w k (n - g) (bs.drop (1 + w.fmt.bytes g))

/-- Decodes a row, or a whole-block part of one, of `n` elements (R32 to R34). -/
def Fw.decodeRow (w : Fw) (n : Nat) (bs : List Byte) : List XVal :=
  if w.sk = 0 then (unpack w.fmt n bs).map w.fmt.decode
  else decodeBlocks w ((n + w.gs - 1) / w.gs) n bs

/-! ### The rotation (R37, R38) -/

/-- The unnormalised Walsh–Hadamard transform of 2^m values. -/
def wht : Nat → List Rat → List Rat
  | 0, xs => xs
  | m + 1, xs =>
    let h := 2 ^ m
    let a := wht m (xs.take h)
    let b := wht m (xs.drop h)
    (List.zipWith (· + ·) a b) ++ (List.zipWith (· - ·) a b)

/-- Rotates one segment of 2^m values (R37): one that holds a NaN or an infinity becomes NaN throughout (R38). -/
def rotSeg (m : Nat) (xs : List XVal) : List XVal :=
  if xs.all XVal.isFin then (wht m (xs.map XVal.toRat)).map fun r => XVal.ofRat (r * pow2 (-((m / 2 : Nat) : Int)))
  else xs.map fun _ => qnan

/-- Rotates segment after segment. -/
def rotSegs (m : Nat) : Nat → List XVal → List XVal
  | 0, xs => xs
  | k + 1, xs => if xs.isEmpty then [] else rotSeg m (xs.take (2 ^ m)) ++ rotSegs m k (xs.drop (2 ^ m))

/-- Applies the rotation of a rot code; it is its own inverse (R37). -/
def rotate (rot : Nat) (xs : List XVal) : List XVal :=
  if rot = 0 then xs else rotSegs (2 * rot + 4) (xs.length / rotSize rot + 1) xs

/-- From the domain of one rot code to that of another (R39); equal rotations apply no transform. -/
def convert (src dst : Nat) (xs : List XVal) : List XVal := if src = dst then xs else rotate dst (rotate src xs)

/-! ### Requantization (R35) and counting (R42) -/

/-- Encode counts (R42): elements, clipped, zeroed, NaN. -/
structure Cnt where
  el : Nat := 0
  clip : Nat := 0
  zero : Nat := 0
  nan : Nat := 0
  deriving DecidableEq, Repr

/-- Adds two counts. -/
def Cnt.add (a b : Cnt) : Cnt := ⟨a.el + b.el, a.clip + b.clip, a.zero + b.zero, a.nan + b.nan⟩

/-- The counts of a list of classes. -/
def countCls (cs : List EncCls) : Cnt :=
  ⟨cs.length, cs.countP (· == .clipped), cs.countP (· == .zeroed), cs.countP (· == .nan)⟩

/-- emax of R35. -/
def Fmt.emax : Fmt → Int
  | .e4m3 => 8 | .e5m2 => 15 | .int8 => 6 | _ => 2

/-- The largest finite value of a format that takes scales (R35). -/
def Fmt.maxFin (f : Fmt) : Rat := if f.isInt then (f.maxCode : Rat) else f.magOf f.maxCode

/-- The largest finite magnitude of a group; 0 if it holds no finite value. -/
def amaxOf (xs : List XVal) : Rat :=
  xs.foldl (fun m x => match x with
    | .fin _ y => max m y
    | _ => m) 0

/-- The scale byte and the scale of a group (R35). -/
def scaleFor (w : Fw) (xs : List XVal) : Nat × Rat :=
  let am := amaxOf xs
  if am = 0 then (if w.sk = 1 then 0x7F else 0x38, 1)
  else if w.sk = 1 then
    let e := min (max (flog2 am - w.fmt.emax) (-127)) 127
    ((e + 127).toNat, pow2 e)
  else
    let c := (Fmt.e4m3.encode (.fin false (am / w.fmt.maxFin))).1
    if c = 0 then (1, pow2 (-9)) else (c, Fmt.e4m3.magOf c)

/-- Requantizes groups of a row. -/
def encodeBlocks (w : Fw) : Nat → List XVal → List Byte × List EncCls
  | 0, _ => ([], [])
  | k + 1, xs =>
    if xs.isEmpty then ([], [])
    else
      let g := xs.take w.gs
      let (sb, s) := scaleFor w g
      let es := g.map fun x => match x with
        | .fin t m => w.fmt.encode (.fin t (m / s))
        | .inf t => w.fmt.encode (.inf t)
        | .nan _ => w.fmt.encode qnan
      let (bs, cs) := encodeBlocks w k (xs.drop w.gs)
      (BitVec.ofNat 8 sb :: pack w.fmt (es.map (·.1)) ++ bs, es.map (·.2) ++ cs)

/-- Encodes values that stand in the format word's own domain: the groups of R35 without its rotation. -/
def Fw.encodeDom (w : Fw) (xs : List XVal) : List Byte × Cnt :=
  if w.sk = 0 then
    let es := xs.map w.fmt.encode
    (pack w.fmt (es.map (·.1)), countCls (es.map (·.2)))
  else
    let (bs, cs) := encodeBlocks w (xs.length / w.gs + 1) xs
    (bs, countCls cs)

/-- Requantizes one row given in the unrotated domain (R35). -/
def Fw.requant (w : Fw) (xs : List XVal) : List Byte × Cnt := w.encodeDom (rotate w.rot xs)

/-- The bytes of a write of elements [a, a + xs.length) of a row (R408): in a 4-bit format without scales, an edge byte keeps
the outside nibble of `old`, the bytes there before the write; the byte offset in the row, and the bytes. -/
def edgeNibbles (f : Fmt) (rowLen a : Nat) (old : Nat → Byte) (cs : List Nat) : List Nat :=
  let b := a + cs.length
  let lead := if a % 2 = 1 then [fld (old (a / 2)).toNat 0 4] else []
  let tail := if b % 2 = 1 ∧ b < rowLen then [fld (old (b / 2)).toNat 4 4] else []
  if f.width = 4 then lead ++ cs ++ tail else cs

/-- Adds counts to the grader's live counters (R43): for encodes into table `table`, or into no table. -/
def Eng.graded (e : Eng) (table : Option Nat) (c : Cnt) : Eng :=
  let ctl := e.grd.ctrs.ctl.toNat
  if bit ctl 1 && table != some (fld ctl 16 12) then e
  else
    let k := (((e.grd.ctrs.add 0 c.el).add 1 c.clip).add 2 c.zero).add 3 c.nan
    { e with grd := { e.grd with ctrs := k } }

end Sys2Proof.Machine
end

