-- ==== Sys2Proof/Machine/Routes.lean ====
section
/-! DEFINITION. The heath's routes (R306), as every engine computes them from the shape, the live set and the failed links,
and hop counts under them (R62). -/

namespace Sys2Proof.Machine

open Sys2Proof

/-- The link at a port of a position is declared failed, named from either end (R304). -/
def Hth.isCut (h : Hth) (i port : Nat) : Bool :=
  h.cut.contains (i, port) || match h.farFrom i port with
    | some j => h.cut.contains (j, port + 1 - 2 * (port % 2))
    | none => false

/-- Walks `n` hops through one port direction of a ring: the position reached, if no link and no position on the way
failed. -/
def Hth.walk (h : Hth) (port : Nat) : Nat → Nat → Option Nat
  | 0, i => some i
  | n + 1, i =>
    if h.isCut i port then none
    else match h.farFrom i port with
      | some j => if h.isFailed j then none else h.walk port n j
      | none => none

/-- Coordinate and extent of a position in a dimension. -/
def Hth.coord (h : Hth) (dim i : Nat) : Nat × Nat :=
  let (x, y, z) := h.dims
  match dim with
  | 0 => (i % x, x)
  | 1 => (i / x % y, y)
  | _ => (i / (x * y), z)

/-- A step of a route: the first port and its dateline flag, the hops, and the position reached. -/
structure Leg where
  port : Nat
  dl   : Bool
  hops : Nat
  dest : Nat

/-- Corrects one dimension (R306): the shorter direction, + on a tie, unless something failed on that side. `none` when
neither side is whole; no port when the coordinate already agrees. -/
def Hth.leg (h : Hth) (dim i d : Nat) : Option (Option Leg) :=
  let (c, n) := h.coord dim i
  let t := (h.coord dim d).1
  if c = t then some none
  else
    let up := (t + n - c) % n
    let plus := (h.walk (2 * dim) up i).map fun j => Leg.mk (2 * dim) (c + 1 == n) up j
    let minus := (h.walk (2 * dim + 1) (n - up) i).map fun j => Leg.mk (2 * dim + 1) (c == 0) (n - up) j
    let best := if up ≤ n - up then plus.orElse fun _ => minus else minus.orElse fun _ => plus
    best.map some

/-- The route from `i` to `d` under a dimension order: the hops, and the first port with its dateline flag. -/
def Hth.path (h : Hth) : List Nat → Nat → Nat → Option (Nat × Option (Nat × Bool))
  | [], i, d => if i = d then some (0, none) else none
  | dim :: ds, i, d =>
    match h.leg dim i d with
    | none => none
    | some none => h.path ds i d
    | some (some l) =>
      match h.path ds l.dest d with
      | some (n, _) => some (l.hops + n, some (l.port, l.dl))
      | none => none

/-- The six dimension orders, in R306's order. -/
def dimOrders : List (List Nat) := [[0, 1, 2], [0, 2, 1], [1, 0, 2], [1, 2, 0], [2, 0, 1], [2, 1, 0]]

/-- The first order under which every pair of live positions has a path. -/
def Hth.order (h : Hth) : Option (List Nat) :=
  dimOrders.find? fun o => h.liveList.all fun i => h.liveList.all fun d => (h.path o i d).isSome

/-- The route from this engine to `d`: hops, first port and dateline flag. -/
def Hth.routeTo (h : Hth) (o : List Nat) (d : Nat) : Option (Nat × Nat × Bool) :=
  if h.isFailed d ∨ h.size ≤ d ∨ d = h.pos then none
  else if h.shape = 1 then some (1, (d + h.size - h.pos - 1) % h.size, false)
  else match h.path o h.pos d with
    | some (n, some (p, dl)) => some (n, p, dl)
    | _ => none

/-- Hops from this engine to a position under the heath's routing (R62): 0 to itself, and a number past every hop count
where there is no route. -/
def Hth.hops (h : Hth) (d : Nat) : Nat :=
  if d = h.pos then 0
  else match h.routeTo (h.order.getD [0, 1, 2]) d with
    | some (n, _) => n
    | none => 1000

/-- Recomputes LE_ZW_ROUTE (R306): port, dl and valid of every destination; alt_valid is 0. -/
def Eng.reroute (e : Eng) : Eng :=
  let h := e.hth
  let o := h.order.getD [0, 1, 2]
  let word (d : Nat) : W32 := match h.routeTo o d with
    | some (_, p, dl) => BitVec.ofNat 32 (p + b2n dl * 8 + 16)
    | none => 0
  let rs := (List.range 256).foldl (fun m d => SMap.set 0 m d (word d)) ([] : SMap W32)
  (e.onZw fun z => { z with routes := rs }).unstick

end Sys2Proof.Machine
end

