-- ==== Sys2Proof/Machine/Tables.lean ====
section
/-! DEFINITION. Table descriptors, stream descriptors, indices, and where the shard map places rows (R45 to R62, R103,
R104). -/

namespace Sys2Proof.Machine

open Sys2Proof

/-- Word `i` of a 32-byte descriptor. -/
def dword (x : BitVec 256) (i : Nat) : Nat := fld x.toNat (64 * i) 64

/-! ### Table descriptors (R46, R47) -/

/-- A table descriptor's fields (R46). -/
structure Tab where
  fw   : Nat
  len  : Nat
  iw   : Nat
  hash : Nat
  valid : Bool
  opt  : Nat
  stEn : Bool
  stTid : Nat
  rsv  : Bool
  rows : Nat
  oob  : Nat
  seed : Nat
  padRow : Nat
  padEn : Bool
  tid  : Nat
  deriving DecidableEq, Repr

/-- Reads a table descriptor's fields (R46). -/
def tabOf (x : BitVec 256) : Tab :=
  let w0 := dword x 0
  let w1 := dword x 1
  let w3 := dword x 3
  { fw := fld w0 0 16, len := fld w0 16 12 + 1, iw := fld w0 28 1, hash := fld w0 29 2, valid := bit w0 31,
    opt := fld w0 32 3, stEn := bit w0 35, stTid := fld w0 36 12,
    rsv := fld w0 48 16 != 0 || fld w1 43 21 != 0 || fld w3 42 6 != 0 || fld w3 60 4 != 0,
    rows := fld w1 0 41, oob := fld w1 41 2, seed := dword x 2, padRow := fld w3 0 41, padEn := bit w3 41,
    tid := fld w3 48 12 }

/-- The checked format word of a table. -/
def Tab.fmt (t : Tab) : Fw := (fwOf t.fw (some t.len)).getD { fmt := .fp32, sk := 0, gs := 32, rot := 0 }

/-- The reason a table descriptor loaded from number `n` is refused (R47), numbered as R105 reports it: 0 for none. -/
def tabReason (t : Tab) (n count : Nat) : Nat :=
  if !t.valid then 1
  else if (fwOf t.fw (some t.len)).isNone then 2
  else if t.hash = 3 ∨ 2 ≤ t.oob then 3
  else if t.rows = 0 ∨ 2 ^ 40 < t.rows then 4
  else if t.stEn ∧ (t.stTid = t.tid ∨ count ≤ t.stTid) then 5
  else if t.tid ≠ n then 6
  else if t.rsv then 7
  else 0

/-! ### Stream descriptors (R103, R104) -/

/-- A stream descriptor's fields (R103). -/
structure Str where
  base : Nat
  rows : Nat
  len  : Nat
  fw   : Nat
  stride : Nat
  role : Nat
  rsv  : Bool
  aux  : Nat
  deriving DecidableEq, Repr

/-- Reads a stream descriptor's fields (R103). -/
def strOf (x : BitVec 256) : Str :=
  let w1 := dword x 1
  let w2 := dword x 2
  { base := dword x 0, rows := fld w1 0 40, len := fld w1 40 13, fw := fld w2 0 16, stride := fld w2 16 32,
    role := fld w2 48 4, rsv := fld w1 53 11 != 0 || fld w2 52 12 != 0, aux := dword x 3 }

/-- The checked format word of a stream of rows. -/
def Str.fmt (s : Str) : Fw := (fwOf s.fw (some s.len)).getD { fmt := .fp32, sk := 0, gs := 32, rot := 0 }
/-- Bytes of a row, or of an item, of a stream. -/
def Str.item (s : Str) : Nat :=
  if s.role = 0 then s.fmt.rowBytes s.len else if s.role = 1 ∨ s.role = 4 then 4 else 8
/-- Bytes from one row or item to the next (R103, R104). -/
def Str.step (s : Str) : Nat := if s.role = 0 then s.stride else s.item
/-- Address of row or item `i`. -/
def Str.addr (s : Str) (i : Nat) : Nat := s.base + i * s.step
/-- Bytes from the first row's first byte to past the last row's last. -/
def Str.span (s : Str) : Nat := (s.rows - 1) * s.step + s.item

/-- Why a stream descriptor is refused (R104): the first failing check, 0 for none. `aux` says whether the instruction
gives aux a meaning, `roles` which roles it accepts. -/
def strReason (s : Str) (aux : Bool) (roles : List Nat) : Nat :=
  if 5 ≤ s.role then 1
  else if s.rows = 0 then 2
  else if s.role = 0 ∧ (s.len = 0 ∨ 4096 < s.len ∨ (fwOf s.fw (some s.len)).isNone ∨ s.stride % 4 ≠ 0 ∨
      s.stride < s.fmt.rowBytes s.len ∨ s.base % 4 ≠ 0) then 3
  else if s.role ≠ 0 ∧ (s.len ≠ 1 ∨ s.stride ≠ 0 ∨ s.fw ≠ 0) then 4
  else if ((s.role = 1 ∨ s.role = 4) ∧ s.base % 4 ≠ 0) ∨ ((s.role = 2 ∨ s.role = 3) ∧ s.base % 8 ≠ 0) then 5
  else if s.rsv ∨ (!aux ∧ s.aux ≠ 0) then 6
  else if !roles.contains s.role then 7
  else 0

/-- A stream operand's check: its descriptor register must hold a stream (R94). Answers the reason, 0 for none; a register of
another kind answers 0xFF. -/
def Dir.strChk (x : Dir) (i : BitVec 4) (aux : Bool) (roles : List Nat) : Nat :=
  if (x.desc i).kind = .stream then strReason (strOf (x.desc i).w) aux roles else 0xFF

/-! ### Indices (R49 to R52) -/

/-- The row a hash finds for an index (R51). -/
def Tab.hashRow (t : Tab) (x : Nat) : Nat :=
  if t.hash = 0 then x
  else if t.hash = 1 then x % t.rows
  else
    let h := (x ^^^ t.seed) % 2 ^ 64
    let h := h * 0x9E3779B97F4A7C15 % 2 ^ 64
    let h := h ^^^ (h / 2 ^ 29)
    let h := h * 0xBF58476D1CE4E5B9 % 2 ^ 64
    let h := h ^^^ (h / 2 ^ 32)
    h * t.rows / 2 ^ 64

/-- What an index addresses (R50 to R52): padding, a masked index, a row out of range that faults, or a row. -/
inductive Idx where
  | pad | masked | fault | row (r : Nat)
  deriving DecidableEq, Repr

/-- Resolves a zero-extended index of a table (R50 to R52). -/
def Tab.resolve (t : Tab) (x : Nat) : Idx :=
  if t.padEn ∧ x = t.padRow then .pad
  else if t.hash = 0 ∧ t.rows ≤ x then (if t.oob = 1 then .masked else .fault)
  else .row (t.hashRow x)

/-! ### The active map (R53 to R62) -/

/-- The sub-row bytes of a map entry under its table's format word (R48). -/
def Ent.bytes (x : Ent) (f : Fw) : Nat := f.rowBytes x.elemCount

/-- A copy of an entry (R62): its number (0 home, j + 1 replica j), position, tier and base. -/
structure Copy where
  num  : Nat
  pos  : Nat
  tier : Nat
  base : Nat
  deriving DecidableEq, Repr

/-- Address of the sub-row of `row` in a copy (R48). -/
def Copy.addr (c : Copy) (x : Ent) (row : Nat) : Nat := c.base + (row - x.firstRow) * (4 * x.stride4)

/-- The entry of index `i` in the map. -/
def MapSt.ent (m : MapSt) (i : Nat) : Option Ent := m.ents[i]?

/-- The entries of a table, with their indices (R59: none when unmapped). -/
def MapSt.tabEnts (m : MapSt) (t : Nat) : List (Nat × Ent) :=
  let (first, n) := m.index.get (0, 0) t
  (List.range n).filterMap fun i => (m.ents[first + i]?).map (first + i, ·)

/-- The table is mapped (R59). -/
def MapSt.mapped (m : MapSt) (t : Nat) : Bool := m.activeVer != 0 && (m.index.get (0, 0) t).2 != 0

/-- The entries that cover a row, in element order (R134). -/
def MapSt.rowEnts (m : MapSt) (t row : Nat) : List (Nat × Ent) :=
  sortBy (·.2.elemFirst)
    ((m.tabEnts t).filter fun x => decide (x.2.firstRow ≤ row) && decide (row < x.2.firstRow + x.2.rowCount))

/-- The descriptor of a mapped table, as the map check read it (R57). -/
def MapSt.tab (m : MapSt) (t : Nat) : Tab := tabOf (m.tabs.get 0 t)

/-- The copies of an entry that are not being reloaded (R62, R64). -/
def MapSt.copies (m : MapSt) (i : Nat) (x : Ent) : List Copy :=
  { num := 0, pos := x.home, tier := x.tier, base := x.base.toNat } ::
    (((List.range x.nrep).filterMap fun j => (m.reps[x.repIdx + j]?).map fun r =>
      ({ num := j + 1, pos := r.position, tier := r.tier, base := r.base.toNat } : Copy)).filter fun c =>
        !m.excluded.contains (i, c.num - 1))

/-- A request to a position must wait (R58, R142, R301): it is declared failed, or this engine is isolated and the position
is another. -/
def Eng.unreachable (e : Eng) (p : Nat) : Bool :=
  e.hth.isFailed p || (e.hth.st == .isolated && p != e.hth.pos)

/-- The copy a request uses (R62): the one here, else the fewest hops, else the lower position; a declared-failed position
is chosen only when every copy lies on one. -/
def Eng.chooseCopy (e : Eng) (cs : List Copy) : Option Copy :=
  let better (a b : Copy) : Bool :=
    let ha := e.hth.hops a.pos
    let hb := e.hth.hops b.pos
    decide (ha < hb) || (ha == hb && decide (a.pos < b.pos))
  let pick (cs : List Copy) : Option Copy := cs.foldl (fun b c => match b with
    | none => some c
    | some d => if better c d then some c else some d) none
  match pick (cs.filter fun c => !e.unreachable c.pos) with
  | some c => some c
  | none => pick cs

/-- Where a sub-row request goes (R58, R60, R61). -/
inductive Place where
  | held                       -- it waits in a retry queue
  | tier3                      -- only host memory holds it: "row not reachable"
  | at_ (c : Copy)             -- it issues to that copy
  deriving DecidableEq, Repr

/-- Where the copies of entry `i` let a sub-row be read (R58, R61, R62): at the chosen one of the reachable copies outside tier 3; not
at all where the reachable ones all lie in tier 3; later where none is reachable. -/
def Eng.copyFor (e : Eng) (i : Nat) (x : Ent) : Place :=
  let live := (e.map.copies i x).filter fun c => !e.unreachable c.pos
  match e.chooseCopy (live.filter (·.tier != 3)) with
  | some c => .at_ c
  | none => if live.isEmpty then .held else .tier3

/-- Routes a sub-row request of entry `i` (R58 to R62). -/
def Eng.place (e : Eng) (i : Nat) (x : Ent) : Place := if x.hold then .held else e.copyFor i x

/-- The shard is reachable only in tier 3 (R61, R181), be it held or not. -/
def Eng.onlyHost (e : Eng) (i : Nat) (x : Ent) : Bool :=
  e.copyFor i x == .tier3 || (e.map.copies i x).all (·.tier == 3)

/-! ### Old requests (R56) -/

/-- Requests outstanding under versions other than the active one: gather pieces issued, sweep runs streaming,
and a print's copy (R327). The requests of a src = 1 gather carry the version at their routing and count too, though no map routed
them (DEDUCED, log entry 192). -/
def Eng.oldOut (e : Eng) : Nat :=
  let v := e.map.activeVer
  let parts := (e.gln.gleans.map fun g => (g.elems.map fun x =>
    (x.parts.filter fun p => p.st == .issued && p.ver != v).length).sum).sum
  let runs := (e.swp.sweeps.map fun j => (j.todo.map fun rs => (rs.filter fun r => match r.copy with
    | some c => c.ver != v && r.cnt != 0
    | none => false).length).sum).sum
  let print := match e.tk.printing with
    | some f => if f.mapVer != v && !f.copy.isEmpty then 1 else 0
    | none => 0
  parts + runs + print

/-! ### Checks of streams (R108, R349) -/

/-- The check of a whole stream's bytes for one access of an instruction, along the wide path. -/
def Eng.checkStr (e : Eng) (h : Hdr) (s : Str) (rd wr : Bool) : Eng × Bool :=
  e.check 4 h.master rd wr s.base s.span

end Sys2Proof.Machine
end

