-- ==== Sys2Proof/Machine/Reels.lean ====
section
/-! DEFINITION. The reel front end (R65 to R92, R405 to R407): doorbells, fetch, torn slates, dispatch, the command checks,
the commands that need no other unit's chapter, and completion; and the reels' registers. -/

namespace Sys2Proof.Machine

open Sys2Proof

/-! ### A command reel's fields -/

/-- The reel is enabled. -/
def Reel.en (r : Reel) : Bool := bit r.cfg.toNat 0
/-- The reel lies in host memory. -/
def Reel.loc (r : Reel) : Bool := bit r.cfg.toNat 1
/-- Slots of the reel. -/
def Reel.size (r : Reel) : Nat := 2 ^ (fld r.cfg.toNat 2 4 + 4)
/-- Fetch priority. -/
def Reel.prio (r : Reel) : Nat := fld r.cfg.toNat 6 3
/-- Buffer slots it may hold (R75). -/
def Reel.credit (r : Reel) : Nat := fld r.cfg.toNat 13 7
/-- Master under which its commands act (R81). -/
def Reel.master (r : Reel) : Fin 64 := ⟨fld r.cfg.toNat 20 6, by unfold fld; exact Nat.mod_lt _ (by decide)⟩
/-- Nothing fetched and nothing dispatched is outstanding. -/
def Reel.idle (r : Reel) : Bool := r.slots.isEmpty && r.inflight.isEmpty
/-- The stamp of the expected lap of a count (R66). -/
def Reel.stamp (r : Reel) (c : W24) : Nat := 0x80 + c.toNat / r.size % 128
/-- Address of the slot of a count. -/
def Reel.slotAddr (r : Reel) (c : W24) : Nat := r.base.toNat + 64 * (c.toNat % r.size)

/-- The reel stops being eligible, by a halt or a disable: it is not aged, and has been passed over by no grant (R76). -/
def Reel.unaged (r : Reel) : Reel := { r with passed := 0, agedAt := none }

/-- A message reel that is disabled loses its held records (R91). -/
def MReel.dropHeld (r : MReel) : MReel := { r with held := [], lost := satAdd r.lost r.held.length }

/-- Changes command reel `n`. -/
def Eng.onReel (e : Eng) (n : Nat) (f : Reel → Reel) : Eng := e.setReel n (f (e.reel n))
/-- Changes message reel `m`. -/
def Eng.onMreel (e : Eng) (m : Nat) (f : MReel → MReel) : Eng := e.setMreel m (f (e.mreel m))

/-- Posts a message of command reel `n` to the message reel it names (R87). -/
def Eng.postReel (e : Eng) (n code payload : Nat) : Eng := e.post (e.mreelOf n) 1 n code payload

/-! ### Registers of the command reels (R71, R73, R75, R91) -/

/-- A doorbell (R71, R73). -/
def Eng.doorbell (e : Eng) (n : Nat) (v : W24) : Eng :=
  let r := e.reel n
  let d := (v - r.rd).toNat
  if r.size < d then
    (e.setReel n { r.unaged with halted := true, overrun := true, slots := [] }).postReel n 0x0011
      (v.toNat + r.rd.toNat * 2 ^ 32)
  else if d ≤ (r.wr - r.rd).toNat then
    if v = r.wr then e.setReel n { r with halted := false } else e
  else e.setReel n { r with wr := v, halted := false }

/-- Why an enable is refused (R75). -/
def Eng.enableBad (e : Eng) (n : Nat) (r : Reel) : Bool :=
  let others := ((List.range 64).map fun i => if i != n && (e.reel i).en then (e.reel i).credit else 0).sum
  decide (r.credit < 8) || decide (64 < r.credit) || decide (13 ≤ fld r.cfg.toNat 2 4) ||
    r.base.toNat % 4096 != 0 || decide (1024 < others + r.credit)

/-- A write of LE_REEL_CFG (R75, R91). -/
def Eng.reelCfg (e : Eng) (n : Nat) (v : W32) : Eng :=
  let r := e.reel n
  let raw := v.toNat
  let v := BitVec.ofNat 32 (raw % 2 ^ 26)
  let free := !r.en && r.idle
  -- loc bit 1, log2size bits 5:2, credit bits 19:13
  let fixed : W32 := 0x000FE03E
  let kept : W32 := if free then v else (v &&& ~~~fixed) ||| (r.cfg &&& fixed)
  let busy := !free && (v &&& fixed) != (r.cfg &&& fixed)
  let r' := { r with cfg := kept, cfgBusy := r.cfgBusy || busy }
  if bit kept.toNat 0 && !r.en then
    if e.enableBad n r' then
      let off := { r' with cfg := kept &&& 0xFFFFFFFE, cfgRefused := true }
      (e.setReel n off).postReel n 0x0012 raw
    else e.setReel n r'
  else if !bit kept.toNat 0 then e.setReel n { r'.unaged with slots := [] }
  else e.setReel n r'

/-- A write of LE_REEL_BASE (R91). -/
def Eng.reelBase (e : Eng) (n : Nat) (v : W64) : Eng :=
  let r := e.reel n
  if !r.en && r.idle then e.setReel n { r with base := BitVec.ofNat 64 (v.toNat / 4096 * 4096) }
  else e.setReel n { r with cfgBusy := true }

/-- A write of LE_REEL_RD (R91): RD, DONE and WR take the value. -/
def Eng.reelRd (e : Eng) (n : Nat) (v : W24) : Eng :=
  let r := e.reel n
  if !r.en && r.idle then e.setReel n { r with rd := v, done := v, wr := v }
  else e.setReel n { r with cfgBusy := true }

/-- LE_REEL_STATUS. -/
def Reel.status (r : Reel) : Nat :=
  b2n r.en + 2 * b2n r.halted + 4 * b2n r.torn + 8 * b2n r.overrun + 16 * b2n r.cfgRefused + 32 * b2n r.cfgBusy +
    64 * b2n r.idle + 128 * b2n r.fetchErr + 2 ^ 16 * r.slots.length

/-! ### Registers of the message reels (R89 to R91, R405) -/

/-- A write of LE_MREEL_CFG (R91, R405). -/
def Eng.mreelCfg (e : Eng) (m : Nat) (v : W32) : Eng :=
  let r := e.mreel m
  let raw := v.toNat
  let v := BitVec.ofNat 32 (raw % 2 ^ 18)
  let fixed : W32 := 0x3E
  let kept : W32 := if r.enabled then (v &&& ~~~fixed) ||| (r.cfg &&& fixed) else v
  let busy := r.enabled && (v &&& fixed) != (r.cfg &&& fixed)
  let r' := { r with cfg := kept, cfgBusy := r.cfgBusy || busy }
  if bit kept.toNat 0 && !r.enabled then
    if 11 ≤ fld kept.toNat 2 4 then
      let off := { r' with cfg := kept &&& 0xFFFFFFFE, cfgRefused := true }
      (e.setMreel m off).post e.evtReel 0xE m 0x0021 raw
    else (e.setMreel m r').flush m
  else if !bit kept.toNat 0 then
    e.setMreel m r'.dropHeld
  else e.setMreel m r'

/-- A write of LE_MREEL_BASE (R91). -/
def Eng.mreelBase (e : Eng) (m : Nat) (v : W64) : Eng :=
  let r := e.mreel m
  if r.enabled then e.setMreel m { r with cfgBusy := true }
  else e.setMreel m { r with base := BitVec.ofNat 64 (v.toNat / 4096 * 4096) }

/-- A write of LE_MREEL_RD (R89 to R91): it consumes records, and with bit 24 re-arms the interrupt. -/
def Eng.mreelRd (e : Eng) (m : Nat) (v : W32) : Eng :=
  let r := e.mreel m
  let rd : W24 := v.setWidth 24
  if r.size < (r.wr - rd).toNat then e.setMreel m { r with cfgBusy := true }
  else
    let e := e.setMreel m { r with rd := rd, armed := r.armed || bit v.toNat 24 }
    let e := if bit v.toNat 24 && rd != r.wr then e.irq m else e
    e.flush m

/-- LE_MREEL_STATUS. -/
def MReel.status (r : MReel) : Nat :=
  b2n r.enabled + 2 * b2n r.armed + 4 * b2n r.full + 8 * b2n r.cfgBusy + 16 * r.held.length + 2048 * b2n r.cfgRefused

/-- A 32-bit read of a reel-block register. The read of LE_MREEL_LOST is handled where its clearing is. -/
def Eng.feRd (e : Eng) (off : Nat) : Nat :=
  if off < 0x800 then
    let r := e.reel (off / 0x20)
    match off % 0x20 with
    | 0x00 => r.base.toNat
    | 0x08 => r.cfg.toNat
    | 0x10 => r.wr.toNat
    | 0x14 => r.rd.toNat
    | 0x18 => r.done.toNat
    | 0x1C => r.status
    | _ => 0
  else if off < 0xA00 then
    let r := e.mreel ((off - 0x800) / 0x20)
    match off % 0x20 with
    | 0x00 => r.base.toNat
    | 0x08 => r.cfg.toNat
    | 0x0C => r.wr.toNat
    | 0x10 => r.rd.toNat
    | 0x14 => r.lost.toNat
    | 0x18 => r.status
    | _ => 0
  else if off = 0xA00 then e.fe.evtReel.toNat
  else 0

/-- A write of a reel-block register. -/
def Eng.feWr (e : Eng) (off v : Nat) : Eng :=
  let w : W32 := BitVec.ofNat 32 v
  if off < 0x800 then
    let n := off / 0x20
    match off % 0x20 with
    | 0x00 => e.reelBase n (BitVec.ofNat 64 v)
    | 0x08 => e.reelCfg n w
    | 0x0C => e.doorbell n (w.setWidth 24)
    | 0x14 => e.reelRd n (w.setWidth 24)
    | 0x1C => e.onReel n fun r =>
        { r with torn := r.torn && !bit v 2, overrun := r.overrun && !bit v 3, cfgRefused := r.cfgRefused && !bit v 4,
                 cfgBusy := r.cfgBusy && !bit v 5, fetchErr := r.fetchErr && !bit v 7 }
    | _ => e
  else if off < 0xA00 then
    let m := (off - 0x800) / 0x20
    match off % 0x20 with
    | 0x00 => e.mreelBase m (BitVec.ofNat 64 v)
    | 0x08 => e.mreelCfg m w
    | 0x10 => e.mreelRd m w
    | 0x18 => e.onMreel m fun r => { r with cfgBusy := r.cfgBusy && !bit v 3, cfgRefused := r.cfgRefused && !bit v 11 }
    | _ => e
  else if off = 0xA00 then { e with fe := { e.fe with evtReel := BitVec.ofNat 4 v } }
  else e

/-! ### Fetch (R76, R72, R406) -/

/-- The reel may be granted a slot read (R76). -/
def Reel.eligible (r : Reel) : Bool :=
  r.en && !r.halted && decide (r.slots.length < (r.wr - r.rd).toNat) && decide (r.slots.length < r.credit)

/-- The reel the arbiter grants (R76): aged reels in the order they aged; else the lowest priority number, ties by a
rotating pointer. -/
def Eng.grantee (e : Eng) : Option Nat :=
  let el := (List.range 64).filter fun n => (e.reel n).eligible
  let aged := el.filterMap fun n => (e.reel n).agedAt.map fun g => (g, n)
  match aged.foldl (fun b x => match b with
      | none => some x
      | some y => if x.1 < y.1 then some x else some y) none with
  | some (_, n) => some n
  | none =>
    match (el.map fun n => (e.reel n).prio).min? with
    | none => none
    | some p =>
      let last := e.fe.last.get 63 p
      ((List.range 64).map fun i => (last + 1 + i) % 64).find? fun n =>
        (e.reel n).eligible && (e.reel n).prio == p

/-- Ages every eligible reel that a grant to `n` passed over (R76). -/
def Eng.age (e : Eng) (n : Nat) : Eng :=
  (List.range 64).foldl (fun e i =>
    let r := e.reel i
    if i = n ∨ ¬ r.eligible then
      if r.passed = 0 ∧ r.agedAt.isNone then e else e.setReel i r.unaged
    else
      let k := r.passed + 1
      e.setReel i { r with passed := k, agedAt := if 256 ≤ k ∧ r.agedAt.isNone then some e.fe.grants else r.agedAt }) e

/-- FETCH_GRANT: one slot read is granted (R76). -/
def Eng.fetchGrant (e : Eng) : Eng :=
  if e.busy 0 then e
  else match e.grantee with
    | none => e
    | some n =>
      let e := e.age n
      let fe := { e.fe with grants := e.fe.grants + 1, last := e.fe.last.set 63 (e.reel n).prio n }
      let e : Eng := { e with fe := fe }
      e.onReel n fun r => { r with slots := r.slots ++ [{ count := r.rd + BitVec.ofNat 24 r.slots.length, st := .reading }] }

/-- FETCH_GRANT, as the row gives it. -/
def execFetchGrant (s : State) : Host.Outcome State Fault Refusal := .next (s.live Eng.fetchGrant)

/-- The slots held, with each one's place within its command: the header of a command's first slot gives its length. `left`
is how many slots of the command remain. -/
def placeSlots : Nat → Nat → List Slot → List (Slot × Nat)
  | _, _, [] => []
  | left, pos, s :: rest =>
    if left = 0 then
      let len := match s.st with
        | .got bs => fld (le bs 2 1) 0 3
        | _ => 0
      (s, 0) :: placeSlots len 1 rest
    else (s, pos) :: placeSlots (left - 1) (pos + 1) rest

/-- The first slot from RD on that has not shown its lap decides (R72, R406): all re-reads returned without the lap make
the reel torn, a failed read halts it; its fetched slots are discarded. -/
def Eng.slotSettle (e : Eng) (n : Nat) : Eng :=
  let r := e.reel n
  let isGot (s : Slot) : Bool := match s.st with
    | .got _ => true
    | _ => false
  match (placeSlots 0 0 r.slots).find? fun x => !isGot x.1 with
  | none => e
  | some (s, pos) =>
    match s.st with
    | .exhausted last =>
      (e.setReel n { r.unaged with halted := true, torn := true, slots := [] }).postReel n 0x0010
        (s.count.toNat + r.stamp s.count * 2 ^ 32 + last.toNat * 2 ^ 40 + pos * 2 ^ 48)
    | .failed kind =>
      (e.setReel n { r.unaged with halted := true, fetchErr := true, slots := [] }).postReel n 0x0013
        (s.count.toNat + kind.toNat * 2 ^ 32 + pos * 2 ^ 48)
    | _ => e

/-- Sets the state of the slot at a count. -/
def Reel.setSlot (r : Reel) (c : W24) (st : SlotSt) : Reel :=
  { r with slots := r.slots.map fun s => if s.count == c then { s with st := st } else s }

/-- A read of the slot at `count` returns (R72, R406). -/
def Eng.slotReturn (e : Eng) (n : Nat) (count : W24) (k : Nat) (res : ReadRes) : Eng :=
  let r := e.reel n
  match r.slots.find? (·.count == count) with
  | none => e
  | some s =>
    let due := match s.st with
      | .reading => k == 0
      | .rereading issued returned _ => decide (1 ≤ k) && decide (k ≤ issued) && decide (returned < issued)
      | _ => false
    if !due then e
    else
      let a := r.slotAddr count
      let (e, ok) := e.checkMem r.loc true r.master true false a 64
      let res := if r.loc then res else e.answer a 64 res
      let e := if r.loc then e else e.answered a 64
      if !ok then (e.onReel n (·.setSlot count (.failed 0))).slotSettle n
      else if res ≠ .ok then (e.onReel n (·.setSlot count (.failed (if hostSide res then 2 else 1)))).slotSettle n
      else
        let (e, bs) := e.read r.loc a 64
        let st : SlotSt :=
          if le bs 0 1 = r.stamp count then .got bs
          else
            let b : Byte := bs.headD 0
            match s.st with
            | .rereading issued returned _ => if returned = 15 then .exhausted b else .rereading issued (returned + 1) b
            | _ => .rereading 0 0 b
        (e.onReel n (·.setSlot count st)).slotSettle n

/-- SLOT_READ_RETURN. -/
def execSlotReadReturn (n : Fin 64) (count : W24) (k : Fin 17) (r : ReadRes) (s : State) :
    Host.Outcome State Fault Refusal :=
  .next (s.live fun e => e.slotReturn n count k r)

/-- SLOT_REREAD: re-read k of a mismatched slot is issued (R72). -/
def execSlotReread (n : Fin 64) (count : W24) (k : Fin 17) (s : State) : Host.Outcome State Fault Refusal :=
  .next (s.live fun e =>
    match (e.reel n).slots.find? (·.count == count) with
    | some { st := .rereading issued returned last, .. } =>
      if k.val = issued + 1 then e.onReel n (·.setSlot count (.rereading k returned last)) else e
    | _ => e)

/-! ### The command checks (R70, R79, R80, R407) -/

/-- Body bytes that `n` slots hold begin at byte 16 of the first and byte 1 of the others (R67). -/
def bodyOf : List (List Byte) → List Byte
  | [] => []
  | s :: rest => s.drop 16 ++ rest.flatMap (·.drop 1)

/-- The fewest slots that hold a body (R70). -/
def slotsFor (b : Nat) : Nat := if b ≤ 48 then 1 else 1 + (b - 48 + 62) / 63

/-- A table's descriptor read from the array (R45), and whether R47 accepts it. -/
def Eng.tabAt (e : Eng) (n : Nat) : Tab × Bool :=
  let t := tabOf (BitVec.ofNat 256 (leNat (e.rdDev false (e.map.tblBase.toNat + 32 * n) 32)))
  (t, decide (n < e.map.tblCount) && tabReason t n e.map.tblCount == 0)

/-- Payload bytes of an INLINE_BAG body under its table's index width. -/
def bagPayload (e : Eng) (b : List Byte) : Nat :=
  let t := (e.tabAt (fld (le b 8 2) 0 12)).1
  let n := le b 12 4
  n * (if t.iw = 0 then 4 else 8) + (if bit (le b 10 1) 0 then 4 * n else 0)

/-- The body's required length: none while a field that fixes it lies outside its range (R407 step 2). -/
def bodyLen (e : Eng) (type : Nat) (b : List Byte) : Option Nat :=
  match type with
  | 0 => some 0
  | 1 => if le b 1 1 ≤ 8 then some (16 + 8 * le b 1 1) else none
  | 2 => if 1 ≤ le b 12 4 ∧ (e.tabAt (fld (le b 8 2) 0 12)).2 ∧ bagPayload e b ≤ 448 then some (32 + bagPayload e b)
      else none
  | 3 =>
    if bit (le b 21 1) 0 then (if 1 ≤ le b 16 5 ∧ le b 16 5 ≤ 448 then some (32 + le b 16 5) else none) else some 32
  | 4 | 7 => some 8
  | 5 | 6 => some 16
  | _ => if 1 ≤ le b 0 1 ∧ le b 0 1 ≤ 16 then some (8 + 8 * le b 0 1) else none

/-- A reserved byte, bit or value of the body is set (R407 step 4). -/
def bodyRsv (type : Nat) (b : List Byte) : Bool :=
  match type with
  | 1 => le b 2 6 != 0
  | 2 => fld (le b 8 2) 12 4 != 0 || fld (le b 10 1) 1 7 != 0 || le b 11 1 != 0 || fld (le b 16 2) 13 2 != 0 ||
      le b 18 6 != 0
  | 3 => fld (le b 21 1) 3 5 != 0 || fld (le b 22 2) 13 2 != 0
  | 4 => bit (le b 0 1) 0 || fld (le b 0 1) 5 3 != 0 || decide (1 < le b 1 1) || le b 2 6 != 0
  | 5 => fld (le b 0 2) 13 3 != 0 || decide (1 < le b 2 1) || le b 4 4 != 0
  | 6 => fld (le b 0 2) 13 3 != 0 || decide (1 < le b 2 1) || le b 3 1 != 0
  | 7 => decide (1 < le b 0 1) || le b 1 7 != 0
  | 8 => le b 1 7 != 0
  | _ => false

/-- Another field of the body lies outside its range or alignment (R407 step 5). -/
def bodyBad (type : Nat) (b : List Byte) : Bool :=
  match type with
  | 1 => (decide (7 < le b 0 1) && le b 0 1 != 0xFF) || le b 8 8 % 8 != 0
  | 2 => le b 0 8 % 8 != 0
  | 3 => !bit (le b 21 1) 0 && (le b 16 5 == 0 || fld (le b 21 1) 1 2 == 3)
  | 8 => (List.range (le b 0 1)).any fun k => le b (8 + 8 * k) 4 % 4 != 0 || decide (2 ^ 20 ≤ le b (8 + 8 * k) 4)
  | _ => false

/-- The type or the VIS value is reserved, or a reserved bit of the header is set (R407 step 1). -/
def hdrBad (hd : List Byte) : Bool :=
  decide (8 < le hd 1 1) || decide (4 < fld (le hd 3 1) 0 3) || fld (le hd 2 1) 3 5 != 0 || fld (le hd 3 1) 5 3 != 0 ||
    fld (le hd 8 8) 1 3 != 0

/-- The status a command's check gives (R407): 0 when it passes. `hd` is the first slot, `len` the slots it has. -/
def cmdCheck (e : Eng) (hd b : List Byte) (len : Nat) : Nat :=
  let type := le hd 1 1
  if hdrBad hd then 1
  else match bodyLen e type b with
    | none => 2
    | some n =>
      if slotsFor n ≠ len then 1
      else if bodyRsv type b then 1
      else if bodyBad type b then 2
      else 0

/-! ### Dispatch (R78) -/

/-- The director a LAUNCH takes: the one it names while it is idle, or for 0xFF the lowest idle one. -/
def Eng.launchDir (e : Eng) (x : Nat) : Option Nat :=
  let free (d : Nat) : Bool := (e.dir d).st == .idle && !(e.dir d).reserved
  if x = 0xFF then (List.range 8).find? free else if free x then some x else none

/-- A command's unit accepts it (R78, R262, R272): `none` while it cannot; otherwise the director or copy engine it uses, or an
INLINE_BAG's payload length. -/
def Eng.accepts (e : Eng) (type : Nat) (b : List Byte) : Option Nat :=
  if type = 1 then e.launchDir (le b 0 1)
  else if type = 3 ∧ ¬ bit (le b 21 1) 0 then (if e.busy 8 then none else e.hc.pick (bit (le b 21 1) 2))
  else some (if type = 3 then 0xFF else if type = 2 then bagPayload e b else 0)

/-- What a unit does when it accepts a command: a director is reserved, a transfer is queued. -/
def Eng.accept (e : Eng) (n : Fin 64) (c : Cmd) : Eng :=
  if c.type = 1 then e.onDir c.dir fun x => { x with reserved := true }
  else if c.type = 3 ∧ ¬ bit (le c.body 21 1) 0 then
    let t : Xfer := { owner := .cmd n c.count, src := BitVec.ofNat 64 (le c.body 0 8), dst := BitVec.ofNat 64 (le c.body 8 8),
                      len := le c.body 16 5, srcHost := bit (le c.body 21 1) 1, dstHost := bit (le c.body 21 1) 2,
                      master := c.master, started := false, moved := 0 }
    e.onHc fun h => h.queue c.dir t
  else e

/-- Every command dispatched and not completed, of one reel or of all (R80 FENCE). -/
def Eng.earlier (e : Eng) (n : Fin 64) (scope : Nat) : List (Fin 64 × W24) :=
  (if scope = 0 then [n] else List.finRange 64).flatMap fun (r : Fin 64) => (e.reel r).inflight.map fun c => (r, c.count)

/-- The read of an INLINE_BAG's descriptor through the sward (R45, R81, R228, R390): none while it waits (R229, R237), else how it
ends as a status: 0, access denied, or a fault. -/
def Eng.bagRead (e : Eng) (m : Fin 64) (type : Nat) (b : List Byte) (r : ReadRes) : Option (Eng × Nat) :=
  let t := fld (le b 8 2) 0 12
  if type = 2 ∧ t < e.map.tblCount then
    let a := e.map.tblBase.toNat + 32 * t
    match e.check 3 m true false a 32 with
    | (e, false) => some (e, 3)
    | (e, true) =>
      if e.swdWaits a 32 then none
      else some ((e.readSward m a 32).1.answered a 32, if e.answer a 32 r = .ok then 0 else 4)
  else some (e, 0)

/-- The detail of a refused command (R84): an inline COPY's 0xFF, else 0: no director and no engine was used, and no clapper read
(DESIGN CHOICE, log entry 184). -/
def refusedDetail (type : Nat) (b : List Byte) : W32 := if type = 3 ∧ bit (le b 21 1) 0 then 0xFF else 0

/-- COMMAND_DISPATCH: the next command of reel `n`, every slot of it shown, is dispatched when its ordering conditions hold
and its unit accepts it; RD advances (R78). `res` answers the read of an INLINE_BAG's descriptor: R407 gives no order between
that read and the other checks, and a denied or failed read decides first (DESIGN CHOICE, log entry 185). A command whose slot met an
uncorrectable error in the buffer ends with status fault (R389). -/
def Eng.dispatch (e : Eng) (n : Fin 64) (res : ReadRes) : Eng :=
  let r := e.reel n
  let bytes (s : Slot) : Option (List Byte) := match s.st with
    | .got bs => some bs
    | _ => none
  match r.slots.head?.bind bytes with
  | none => e
  | some hd =>
    let len := fld (le hd 2 1) 0 3 + 1
    let got := (r.slots.take len).filterMap bytes
    let held := r.inflight.any (fun c => c.type == 4 || c.type == 6) || (bit (le hd 3 1) 4 && !r.inflight.isEmpty)
    if e.busy 0 || held || got.length != len then e
    else
      let b := bodyOf got
      let type := le hd 1 1
      let lost := (r.slots.take len).any (·.lost)
      match (if lost then some (e, 4) else if hdrBad hd then some (e, 0) else e.bagRead r.master type b res) with
      | none => e
      | some (e, seen) =>
      let st := if seen = 0 then cmdCheck e hd b len else seen
      match (if st = 0 then e.accepts type b else some 0) with
      | none => e
      | some u =>
        let vis := fld (le hd 3 1) 0 3
        let aft := if type = 4 then e.earlier n (le b 1 1) else []
        let phase : CmdPhase := if st = 0 then .ready else .done (BitVec.ofNat 8 st) (if st = 4 then 0b0100 else 0) (refusedDetail type b)
        let c : Cmd :=
          { count := r.rd, stamp := hd.headD 0, type := BitVec.ofNat 8 type, vis := BitVec.ofNat 3 vis,
            notify := bit (le hd 3 1) 3, tag := BitVec.ofNat 32 (le hd 4 4), cHost := bit (le hd 8 8) 0,
            cAddr := BitVec.ofNat 64 (le hd 8 8 / 16 * 16), master := r.master, body := b, phase := phase,
            after := aft, dir := u }
        let e := e.onReel n fun r => { r with slots := r.slots.drop len, rd := r.rd + BitVec.ofNat 24 len,
                                              inflight := r.inflight ++ [c] }
        if st = 0 then e.accept n c else e

/-- COMMAND_DISPATCH. -/
def execCommandDispatch (n : Fin 64) (r : ReadRes) (s : State) : Host.Outcome State Fault Refusal :=
  .next (s.live fun e => e.dispatch n r)

/-! ### The commands (R79, R80) -/

/-- The oldest dispatched command of a type that its unit has not acted on yet. -/
def Reel.ready (r : Reel) (type : Nat) : Option Cmd :=
  r.inflight.find? fun c => c.type.toNat == type && c.phase == .ready

/-- Runs the action of the ready command of a type. -/
def Eng.act (e : Eng) (n : Fin 64) (type : Nat) (f : Eng → Cmd → Eng) : Eng :=
  if e.busy 0 then e
  else match (e.reel n).ready type with
    | none => e
    | some c => f e c

/-- A command's unit works on it. -/
def Eng.runCmd (e : Eng) (n : Fin 64) (c : Cmd) (f : Cmd → Cmd := id) : Eng :=
  e.onReel n fun r => { r with inflight := r.inflight.map fun x => if x.count == c.count then { f x with phase := .running } else x }

/-- NOP_COMMAND. -/
def execNopCommand (n : Fin 64) (s : State) : Host.Outcome State Fault Refusal :=
  .next (s.live fun e => e.act n 0 fun e c => e.finishCmd n c.count 0 0 0)

/-- LAUNCH: the director sets its state (R123, R124). -/
def Eng.launch (e : Eng) (n : Fin 64) (c : Cmd) : Eng :=
  let args := (List.range (le c.body 1 1)).map fun i => BitVec.ofNat 64 (le c.body (16 + 8 * i) 8)
  let ident : W64 := BitVec.ofNat 64 (c.count.toNat + n.val * 2 ^ 24 + c.dir * 2 ^ 32)
  let regs := (args.zipIdx.foldl (fun m x => SMap.set 0 m (x.2 + 1) x.1) ([] : SMap W64)).set 0 31 ident
  let prog : W64 := BitVec.ofNat 64 (le c.body 8 8)
  let x := e.dir c.dir
  let x' : Dir := { st := .running, regs := regs, pc := prog, tcount := x.tcount, tLaunch := x.tcount, stall := x.stall,
                    wrBusy := x.wrBusy, faulted := x.faulted, reel := n, count := c.count, master := c.master, reserved := true,
                    fetch := [BitVec.ofNat 64 (prog.toNat / 64)] }
  (e.setDir c.dir x').runCmd n c

/-- LAUNCH. -/
def execLaunch (n : Fin 64) (s : State) : Host.Outcome State Fault Refusal := .next (s.live fun e => e.act n 1 (·.launch n))

/-- A payload write of a command by the front end (R228): to host memory, or write-back to the sward, its pages recorded (R259). -/
def Eng.frontWrite (e : Eng) (cmd : Fin 64 × W24) (host : Bool) (a : Nat) (bs : List Byte) : Eng :=
  if host then e.putBytes true a bs
  else
    let e := e.back a bs
    { e with hc := e.hc.touch (some cmd) a bs.length }

/-- Writes the bytes of a list that a free bit picks: bytes that may or may not have been written. -/
def Eng.someBytes (e : Eng) (cmd : Fin 64 × W24) (host : Bool) (a : Nat) : List Byte → Eng
  | [] => e
  | b :: bs =>
    let (e, x) := e.freeBit
    (if x then e.frontWrite cmd host a [b] else e).someBytes cmd host (a + 1) bs

/-- Writes a free prefix of a list of bytes (R81). -/
def Eng.somePrefix (e : Eng) (cmd : Fin 64 × W24) (host : Bool) (a : Nat) : List Byte → Eng
  | [] => e
  | b :: bs =>
    match e.freeBit with
    | (e, true) => (e.frontWrite cmd host a [b]).somePrefix cmd host (a + 1) bs
    | (e, false) => e

/-- The payload write of an inline COPY or an INLINE_BAG (R81, R228, R267): denied anywhere, it may leave a prefix before
the denied region; a fill that failed leaves its sector alone and any of the other bytes written. A device write waits for the
sward (R229, R237). -/
def Eng.inlineWrite (e : Eng) (n : Fin 64) (c : Cmd) (host : Bool) (a : Nat) (bs : List Byte) (r : ReadRes) : Eng :=
  let first := e.acc.firstDenied (if host then 5 else 3) c.master false true a bs.length
  let hole := if host then none else e.mp.firstHole a bs.length
  let stop := (min (first.getD (a + bs.length)) (hole.getD (a + bs.length))) - a
  let (e, ok) := e.checkMem host false c.master false true a bs.length
  if !ok then (e.somePrefix (n, c.count) host a (bs.take stop)).finishCmd n c.count 3 0 c.detail
  else if !host && e.sectorsWait (e.fills a bs) then e
  else
    let bad := if host then [] else (e.fills a bs).filter fun x => e.answer x 64 r != .ok
    let e := if host then e else e.answered a bs.length
    match bad with
    | [] =>
      let e := e.frontWrite (n, c.count) host a bs
      let e := if host then e else { e with mp := e.mp.owe (.cmd n c.count) }
      (e.runCmd n c).workDone n c.count (le c.body (if c.type = 2 then 16 else 22) 2) (le c.body 24 8) c.detail c.master
    | x :: rest =>
      let (e, b) := e.freeBit
      let sa := if b then x else rest.getLastD x
      let e := e.someBytes (n, c.count) false a (bs.take (sa - a))
      let e := e.someBytes (n, c.count) false (sa + 64) (bs.drop (sa + 64 - a))
      e.finishCmd n c.count 4 0b0100 c.detail

/-- INLINE_BAG: the payload is written to dst unchanged (R80). -/
def execInlineBag (n : Fin 64) (r : ReadRes) (s : State) : Host.Outcome State Fault Refusal :=
  .next (s.live fun e => e.act n 2 fun e c =>
    e.inlineWrite n c false (le c.body 0 8) ((c.body.drop 32).take c.dir) r)

/-- COPY: an inline payload is written by the front end (R80); another COPY's transfer runs on its copy engine. -/
def execCopy (n : Fin 64) (r : ReadRes) (s : State) : Host.Outcome State Fault Refusal :=
  .next (s.live fun e => e.act n 3 fun e c =>
    if bit (le c.body 21 1) 0 then
      e.inlineWrite n c (bit (le c.body 21 1) 2) (le c.body 8 8) ((c.body.drop 32).take (le c.body 16 5)) r
    else e.runCmd n c)

/-- FENCE: once every command dispatched before it within its scope has completed, what they wrote is made visible along
the paths it names (R80, R82, R240, R259); a flushing read ends path 3 (R267). -/
def Eng.fence (e : Eng) (n : Fin 64) (c : Cmd) : Eng :=
  if c.after.any fun x => (e.reel x.1).inflight.any (·.count == x.2) then e
  else
    let paths : BitVec 4 := BitVec.ofNat 4 (le c.body 0 1 / 2)
    let all := le c.body 1 1 == 1
    let e := e.publish paths fun w => match w with
      | none => true
      | some (r, k) => (all || r == n) && !((e.reel r).inflight.any (·.count == k))
    let e := if bit paths.toNat 2 then { e with mp := e.mp.owe (.cmd n c.count) } else e
    e.finishCmd n c.count 0 0 0

/-- FENCE_COMMAND. -/
def execFenceCommand (n : Fin 64) (s : State) : Host.Outcome State Fault Refusal :=
  .next (s.live fun e => e.act n 4 (·.fence n))

/-- The position lies outside the heath or is declared failed (R80, R114). -/
def Hth.gone (h : Hth) (p : Nat) : Bool := decide (h.size ≤ p) || h.isFailed p

/-- SIGNAL: a clapper operation, local or on a peer (R80, R298, R346). -/
def Eng.signal (e : Eng) (n : Fin 64) (c : Cmd) : Eng :=
  let p := le c.body 3 1
  let op := le c.body 2 1
  let cl := fld (le c.body 0 2) 0 13
  let v : W64 := BitVec.ofNat 64 (le c.body 8 8)
  if e.hth.isSelf p then
    (e.runCmd n c).clpPresent
      { req := 8, master := c.master, clapper := ⟨cl, by unfold cl fld; exact Nat.mod_lt _ (by decide)⟩,
        kind := if op = 0 then .set else .add, val := v, dst := none, peer := none, cmd := some (n, c.count) }
  else if e.hth.gone p then e.finishCmd n c.count 7 0 0
  else (e.runCmd n c).send p (.clpOp (BitVec.ofNat 13 cl) (BitVec.ofNat 2 op) v) (.signal n c.count)

/-- SIGNAL. -/
def execSignal (n : Fin 64) (s : State) : Host.Outcome State Fault Refusal := .next (s.live fun e => e.act n 5 (·.signal n))

/-- WAIT: it begins to wait on a local clapper, behind the front end's own operations on it (R344); a condition that holds completes it
at once (R80, R342, R345). -/
def Eng.waitCmd (e : Eng) (n : Fin 64) (c : Cmd) : Eng :=
  let cl := fld (le c.body 0 2) 0 13
  if e.clpHeld 8 cl then e else
  let (e, ok) := e.check 1 c.master true false cl 1
  if !ok then e.finishCmd n c.count 3 0 0
  else if condHolds (le c.body 2 1 == 1) (BitVec.ofNat 64 (le c.body 8 8)) (e.clap cl) then
    e.finishCmd n c.count 0 0 ((e.clap cl).setWidth 32)
  else
    let us := le c.body 4 4
    e.runCmd n c fun x => { x with deadline := if us = 0 then none else some (e.hth.time + BitVec.ofNat 64 (1000 * us)) }

/-- WAIT. -/
def execWait (n : Fin 64) (s : State) : Host.Outcome State Fault Refusal := .next (s.live fun e => e.act n 6 (·.waitCmd n))

/-- A waiter's timeout, measured on the time base, has expired (R345). DESIGN CHOICE, log 222: the detail of a WAIT that timed out is its
clapper's value at that moment. -/
def Eng.waitTimeout (e : Eng) : WaitWho → Eng
  | .dir d =>
    let x := e.dir d
    match x.st, x.wait with
    | .waiting, .clapper dst _ _ _ (some t) =>
      if t ≤ e.hth.time then e.setDir d (x.cont.putI dst 6) else e
    | _, _ => e
  | .reel n =>
    match (e.reel n).inflight.find? fun c => c.type == 6 && c.phase == .running with
    | some c =>
      match c.deadline with
      | some t =>
        if t ≤ e.hth.time then e.finishCmd n c.count 6 0 ((e.clap (fld (le c.body 0 2) 0 13)).setWidth 32) else e
      | none => e
    | none => e

/-- WAIT_TIMEOUT. -/
def execWaitTimeout (w : WaitWho) (s : State) : Host.Outcome State Fault Refusal := .next (s.live fun e => e.waitTimeout w)

/-! ### Completion (R82 to R85) -/

/-- A completion record (R84). -/
def Cmd.record (c : Cmd) (n : Fin 64) (status : Byte) (flags : BitVec 4) (detail : W32) : List Byte :=
  [c.stamp, BitVec.ofNat 8 n.val, status, flags.setWidth 8] ++ leBytes 4 c.tag.toNat ++ leBytes 4 c.count.toNat ++
    leBytes 4 detail.toNat

/-- COMMAND_COMPLETE (R82, R84): once its writes are acknowledged, the results are made visible along VIS, the record is
written, DONE advances, and the message is posted. A record that may not be written makes an ok status access denied. -/
def Eng.complete (e : Eng) (n : Fin 64) (count : W24) : Eng :=
  match (e.reel n).inflight.find? (·.count == count) with
  | none => e
  | some c =>
    match c.phase with
    | .done status flags detail =>
      if e.mp.owed (.cmd n count) ≠ 0 then e
      else if c.vis = 3 ∧ ¬ c.flushed then
        let e := e.onReel n fun r =>
          { r with inflight := r.inflight.map fun x => if x.count == count then { x with flushed := true } else x }
        { e with mp := e.mp.owe (.cmd n count) }
      else
        let path : BitVec 4 := if c.vis = 1 then 1 else if c.vis = 2 then 2 else 0
        let e := e.publish path (· == some (n, count))
        let (e, ok) := if c.cAddr = 0 then (e, true) else e.checkMem c.cHost true c.master false true c.cAddr.toNat 16
        let status := if ok ∨ status ≠ 0 then status else 3
        let rec_ := c.record n status flags detail
        let e := if c.cAddr ≠ 0 ∧ ok then
            (e.putBytes c.cHost (c.cAddr.toNat + 4) (rec_.drop 4)).putBytes c.cHost c.cAddr.toNat (rec_.take 4)
          else e
        let e := e.onReel n fun r =>
          let fl := r.inflight.filter (·.count != count)
          { r with inflight := fl, done := match fl with
              | x :: _ => x.count
              | [] => r.rd }
        if status ≠ 0 then e.postReel n 0x0002 (leNat rec_)
        else if c.notify then e.postReel n 0x0001 (leNat rec_)
        else e
    | _ => e

/-- COMMAND_COMPLETE. -/
def execCommandComplete (n : Fin 64) (count : W24) (s : State) : Host.Outcome State Fault Refusal :=
  .next (s.live fun e => e.complete n count)

end Sys2Proof.Machine
end

