-- ==== Sys2Proof/Machine/DirInsns.lean ====
section
/-! DEFINITION. The directors' own instructions (R93 to R106, R111, R114, R115, R117, R125): control, scalar, loads and
stores, descriptors, synchronisation and messages. -/

namespace Sys2Proof.Machine

open Sys2Proof

/-! ### Control (R96 to R98) -/

/-- NOP. -/
def execNop (d : Fin 8) (w : IWord) (s : State) : Host.Outcome State Fault Refusal :=
  .next (s.live fun e => e.insn d (iuses w false false false false 0) [] fun _ => e.onDir d (·.step 8))

/-- The target of JMP and CALL (R96). -/
def Dir.target (x : Dir) (w : IWord) : W64 :=
  (if w.sa = 0 then x.pc else x.get w.sa) + w.imm.signExtend 64 * 8

/-- JMP. -/
def execJmp (d : Fin 8) (w : IWord) (s : State) : Host.Outcome State Fault Refusal :=
  .next (s.live fun e => e.insn d (iuses w false true false false (2 ^ 37 - 1)) [w.sa] fun x =>
    let t := x.target w
    if t.toNat % 8 ≠ 0 then e.progFault d 0x03 0 else e.onDir d fun x => { x with pc := t })

/-- The condition of a BR (R96). -/
def brHolds (c : Nat) (a b : W64) : Bool :=
  match c with
  | 0 => a == b
  | 1 => a != b
  | 2 => a.ult b
  | 3 => !a.ult b
  | 4 => a.slt b
  | _ => !a.slt b

/-- A 34-bit word offset in bytes (R96). -/
def off34 (w : IWord) : W64 := (w.imm.setWidth 34).signExtend 64 * 8

/-- BR. -/
def execBr (d : Fin 8) (w : IWord) (s : State) : Host.Outcome State Fault Refusal :=
  let c := fld w.imm.toNat 34 3
  .next (s.live fun e => e.insn d (iuses w false true true false (2 ^ 37 - 1) && decide (c < 6)) [w.sa, w.sb] fun x =>
    e.onDir d fun y => if brHolds c (x.get w.sa) (x.get w.sb) then { y with pc := y.pc + off34 w } else y.step 8)

/-- LOOP; with dst = s0 it decrements nothing and never branches (R97). -/
def execLoop (d : Fin 8) (w : IWord) (s : State) : Host.Outcome State Fault Refusal :=
  .next (s.live fun e => e.insn d (iuses w true false false false (2 ^ 34 - 1)) [w.dst] fun x =>
    let v := x.get w.dst - 1
    e.onDir d fun y =>
      let y := y.putI w.dst v
      if w.dst ≠ 0 ∧ v ≠ 0 then { y with pc := y.pc + off34 w } else y.step 8)

/-- CALL (R97). Where the target is misaligned and the stack is full, the spec gives no order: the misalignment is reported (DESIGN
CHOICE, log entry 179). -/
def execCall (d : Fin 8) (w : IWord) (s : State) : Host.Outcome State Fault Refusal :=
  .next (s.live fun e => e.insn d (iuses w false true false false (2 ^ 37 - 1)) [w.sa] fun x =>
    let t := x.target w
    if t.toNat % 8 ≠ 0 then e.progFault d 0x03 0
    else if 16 ≤ x.stack.length then e.progFault d 0x08 0
    else e.onDir d fun y => { y with stack := (y.pc + 8) :: y.stack, pc := t })

/-- RET. -/
def execRet (d : Fin 8) (w : IWord) (s : State) : Host.Outcome State Fault Refusal :=
  .next (s.live fun e => e.insn d (iuses w false false false false 0) [] fun x =>
    match x.stack with
    | [] => e.progFault d 0x09 0
    | a :: rest => e.onDir d fun y => { y with stack := rest, pc := a })

/-- HALT (R98): an unresolved stop makes it a program fault; otherwise the director drains and ends the program. -/
def execHalt (d : Fin 8) (w : IWord) (s : State) : Host.Outcome State Fault Refusal :=
  .next (s.live fun e =>
    e.insn d (iuses w false true false false (if w.sa = 0 then 0xFFFF else 0)) [w.sa] fun x =>
      if !x.stops.isEmpty then e.progFault d 0x0E 0
      else
        let code : W16 := if w.sa = 0 then w.imm.setWidth 16 else (x.get w.sa).setWidth 16
        (e.onDir d fun y => { y with st := .draining, exitNext := code, fetch := [] }).settle d)

/-! ### Scalar (R99, R100) -/

/-- The second operand of an operate instruction (R99). -/
def Dir.op2 (x : Dir) (w : IWord) : W64 := if w.sb ≠ 0 then x.get w.sb else w.imm.signExtend 64

/-- An operate instruction (R99): s[dst] takes `f a op2`. -/
def Eng.operate (e : Eng) (d : Fin 8) (w : IWord) (f : W64 → W64 → W64) : Eng :=
  e.insn d (iuses w true true true false (if w.sb = 0 then 2 ^ 37 - 1 else 0)) [w.sa, w.sb] fun x =>
    e.onDir d fun y => (y.putI w.dst (f (x.get w.sa) (x.op2 w))).step 8

/-- LI (R100). -/
def execLi (d : Fin 8) (w : IWord) (ext : Option W64) (s : State) : Host.Outcome State Fault Refusal :=
  .next (s.live fun e =>
    match ext with
    | none => e.insn d (iuses w true false false false (2 ^ 37 - 1)) [] fun _ =>
        e.onDir d fun y => (y.putI w.dst (w.imm.signExtend 64)).step 8
    | some v => e.insn d (iuses w true false false false 0) [] fun _ => e.onDir d fun y => (y.putI w.dst v).step 16)

/-- ADD. -/
def execAdd (d : Fin 8) (w : IWord) (s : State) : Host.Outcome State Fault Refusal :=
  .next (s.live fun e => e.operate d w fun a b => a + b)
/-- SUB. -/
def execSub (d : Fin 8) (w : IWord) (s : State) : Host.Outcome State Fault Refusal :=
  .next (s.live fun e => e.operate d w fun a b => a - b)
/-- MUL: the low 64 bits. -/
def execMul (d : Fin 8) (w : IWord) (s : State) : Host.Outcome State Fault Refusal :=
  .next (s.live fun e => e.operate d w fun a b => a * b)
/-- AND. -/
def execAnd (d : Fin 8) (w : IWord) (s : State) : Host.Outcome State Fault Refusal :=
  .next (s.live fun e => e.operate d w fun a b => a &&& b)
/-- OR. -/
def execOr (d : Fin 8) (w : IWord) (s : State) : Host.Outcome State Fault Refusal :=
  .next (s.live fun e => e.operate d w fun a b => a ||| b)
/-- XOR. -/
def execXor (d : Fin 8) (w : IWord) (s : State) : Host.Outcome State Fault Refusal :=
  .next (s.live fun e => e.operate d w fun a b => a ^^^ b)
/-- SHL: by op2 mod 64. -/
def execShl (d : Fin 8) (w : IWord) (s : State) : Host.Outcome State Fault Refusal :=
  .next (s.live fun e => e.operate d w fun a b => a <<< (b.toNat % 64))
/-- SHR: by op2 mod 64, zeros in. -/
def execShr (d : Fin 8) (w : IWord) (s : State) : Host.Outcome State Fault Refusal :=
  .next (s.live fun e => e.operate d w fun a b => a >>> (b.toNat % 64))

/-! ### Loads and stores (R101, R102) -/

/-- Bytes of an access (R101). -/
def accSize (w : IWord) : Nat := 8 / 2 ^ fld w.imm.toNat 35 2

/-- Address of an access (R101). -/
def Dir.memAddr (x : Dir) (w : IWord) : W64 := x.get w.sa + (w.imm.setWidth 35).signExtend 64

/-- LD (R101): checked and looked up at issue, which waits for the sward (R229, R237); its data return writes s[dst]. -/
def execLd (d : Fin 8) (w : IWord) (s : State) : Host.Outcome State Fault Refusal :=
  .next (s.live fun e => e.insn d (iuses w true true false false (2 ^ 37 - 1)) [w.sa] fun x =>
    let n := accSize w
    let a := x.memAddr w
    if a.toNat % n ≠ 0 then e.progFault d 0x03 0
    else match e.check 3 x.master true false a.toNat n with
      | (e, false) => e.progFault d 0x04 0
      | (e, true) =>
        if e.swdWaits a.toNat n then e else
        let (e, bs) := e.readSward x.master a.toNat n
        let l : LdReq := { dst := w.dst, addr := a, size := n, data := BitVec.ofNat 64 (leNat bs), pc := x.pc }
        let old := x.lds.map fun (q : LdReq) => if q.dst == w.dst then { q with dst := 0 } else q
        e.onDir d fun y => Dir.step { y with lds := old ++ [l] } 8)

/-- LD_DATA_RETURN: the oldest load in flight returns (R101, R102). -/
def Eng.ldReturn (e : Eng) (d : Fin 8) (r : ReadRes) : Eng :=
  let x := e.dir d
  match x.lds with
  | [] => e
  | l :: rest =>
    let r := e.answer l.addr.toNat l.size r
    let e := e.answered l.addr.toNat l.size
    let y := { x with lds := rest }
    let y := if x.st = .waiting ∧ x.wait = .load then { y with st := .running, wait := .none } else y
    if r = .ok then (e.setDir d (y.put l.dst l.data)).settle d
    else if y.st = .idle ∨ (y.st = .draining ∧ y.bad) then (e.setDir d y).settle d
    else (e.setDir d { y with pc := l.pc }).progFault d 0x05 0

/-- LD_DATA_RETURN. -/
def execLdDataReturn (d : Fin 8) (r : ReadRes) (s : State) : Host.Outcome State Fault Refusal :=
  .next (s.live fun e => e.ldReturn d r)

/-- ST (R101, R228): a write-back write; a fill that fails leaves the sector alone and faults. It waits for the sward (R229, R237). -/
def execSt (d : Fin 8) (w : IWord) (r : ReadRes) (s : State) : Host.Outcome State Fault Refusal :=
  .next (s.live fun e => e.insn d (iuses w false true true false (2 ^ 37 - 1)) [w.sa, w.sb] fun x =>
    let n := accSize w
    let a := (x.memAddr w).toNat
    if a % n ≠ 0 then e.progFault d 0x03 0
    else match e.check 3 x.master false true a n with
      | (e, false) => e.progFault d 0x04 0
      | (e, true) =>
        let bs := leBytes n (x.get w.sb).toNat
        if e.sectorsWait (e.fills a bs) then e
        else if !(e.fills a bs).isEmpty && e.answer a n r != .ok then (e.answered a n).progFault d 0x05 0
        else
          let e := e.back a bs
          let e := { e with hc := e.hc.touch (some (x.reel, x.count)) a n, mp := e.mp.owe (.dirAcc d) }
          e.onDir d (·.step 8))

/-! ### Instruction fetch (R125) -/

/-- The opcodes of the opcode table (R95), with the x bit they take. -/
def opcodeOk (op : Nat) : Bool :=
  decide (op ≤ 0x06) || (decide (0x10 ≤ op) && decide (op ≤ 0x1A)) ||
    [0x90, 0x20, 0x21, 0xA8, 0x29, 0xB0, 0xB1, 0xB2, 0xB3, 0xB4, 0xB5, 0xB6, 0xB7, 0xB8, 0x40, 0x41, 0x42, 0x43, 0x44,
      0x48, 0xC9, 0x50, 0x58, 0x59, 0x5A].contains op

/-- The sector the director needs next (R95, R125): the one at pc, or the one after it where that one is held and ends in an
instruction whose extension word follows. -/
def Dir.nextSector (x : Dir) : Nat :=
  let p := x.pc.toNat / 64
  let held := x.icache.get [] p
  if x.pc.toNat % 64 = 56 ∧ 0x80 ≤ le held 63 1 ∧ opcodeOk (le held 63 1) then (p + 1) % 2 ^ 58 else p

/-- INSTRUCTION_FETCH_RETURN: the oldest outstanding fetch, or one of the sector needed next, returns (R125). A denied or failed
fetch faults the program, and so does a reserved opcode that the cache holds at pc (R95). It waits for the sward (R237). -/
def Eng.fetchReturn (e : Eng) (d : Fin 8) (r : ReadRes) : Eng :=
  let x := e.dir d
  if x.st = .idle ∨ x.st = .draining then e
  else
    let sec := (x.fetch.head?.getD (BitVec.ofNat 64 x.nextSector)).toNat
    let a := sec * 64
    if e.swdWaits a 64 then e else
    let e := e.onDir d fun y => { y with fetch := y.fetch.drop 1 }
    match e.check 3 x.master true false a 64 with
    | (e, false) => e.progFault d 0x02 0
    | (e, true) =>
      let r := e.answer a 64 r
      let e := e.answered a 64
      if r ≠ .ok then e.progFault d 0x02 0
      else
        let (e, bs) := e.readSward x.master a 64
        let e := e.onDir d fun y => { y with icache := y.icache.set [] sec bs }
        let held := (e.dir d).icache.get [] (x.pc.toNat / 64)
        if x.st = .running ∧ ¬ held.isEmpty ∧ ¬ opcodeOk (le held (x.pc.toNat % 64 + 7) 1) then e.progFault d 0x01 0
        else e

/-- INSTRUCTION_FETCH_RETURN. -/
def execInstructionFetchReturn (d : Fin 8) (r : ReadRes) (s : State) : Host.Outcome State Fault Refusal :=
  .next (s.live fun e => e.fetchReturn d r)

/-! ### Descriptors (R105, R106) -/

/-- DLD: its read is sent, and the director waits for it (R105). -/
def execDld (d : Fin 8) (w : IWord) (s : State) : Host.Outcome State Fault Refusal :=
  let kind := fld w.imm.toNat 35 2
  .next (s.live fun e =>
    e.insn d (iuses w false true false true (if kind = 0 then 0xFFF else 2 ^ 37 - 1) && decide (kind < 2)) [w.sa] fun x =>
      let go (table : Bool) (num : Nat) (a : W64) : Eng :=
        match e.check 3 x.master true false a.toNat 32 with
        | (e, false) => e.progFault d 0x04 0
        | (e, true) =>
          if e.swdWaits a.toNat 32 then e else
          let (e, _) := e.readSward x.master a.toNat 32
          let q : DldReq := { desc := w.desc, table := table, num := num, addr := a, count := e.map.tblCount }
          e.onDir d fun y => { y with st := .waiting, wait := .desc q }
      if kind = 0 then
        let n := (x.get w.sa + (w.imm.setWidth 12).setWidth 64).toNat
        if e.map.tblCount ≤ n then e.progFault d 0x06 8
        else go true n (e.map.tblBase + BitVec.ofNat 64 (32 * n))
      else
        let a := x.get w.sa + (w.imm.setWidth 35).signExtend 64
        if a.toNat % 32 ≠ 0 then e.progFault d 0x03 0 else go false 0 a)

/-- DESCRIPTOR_READ_RETURN: the descriptor is checked, against the count as it stood when the load began (R45), and loaded (R47,
R105). -/
def Eng.descReturn (e : Eng) (d : Fin 8) (r : ReadRes) : Eng :=
  let x := e.dir d
  match x.st, x.wait with
  | .waiting, .desc q =>
    let a := q.addr.toNat
    let r := e.answer a 32 r
    let e := e.answered a 32
    if r ≠ .ok then e.progFault d 0x05 0
    else
      let v : BitVec 256 := BitVec.ofNat 256 (leNat (e.rdDev false a 32))
      let why := if q.table then tabReason (tabOf v) q.num q.count else 0
      if why ≠ 0 then e.progFault d 0x06 (BitVec.ofNat 8 why)
      else e.setDir d (x.cont.setDesc q.desc { kind := if q.table then .table else .stream, w := v })
  | _, _ => e

/-- DESCRIPTOR_READ_RETURN. -/
def execDescriptorReadReturn (d : Fin 8) (r : ReadRes) (s : State) : Host.Outcome State Fault Refusal :=
  .next (s.live fun e => e.descReturn d r)

/-- DSET (R106). -/
def execDset (d : Fin 8) (w : IWord) (s : State) : Host.Outcome State Fault Refusal :=
  let copy := w.imm.getLsbD 2
  .next (s.live fun e =>
    e.insn d (iuses w false (!copy) false true (if copy then 0x7C else 0x3)) (if copy then [] else [w.sa]) fun x =>
      if copy then e.onDir d fun y => (y.setDesc w.desc (x.desc (w.imm.extractLsb' 3 4))).step 8
      else
        let q := x.desc w.desc
        if q.kind = .table then e.progFault d 0x07 0
        else
          let i := fld w.imm.toNat 0 2
          let old := if q.kind = .empty then 0 else q.w
          let v : BitVec 256 := BitVec.ofNat 256 (leNat (splice (leBytes 32 old.toNat) (8 * i) (leBytes 8 (x.get w.sa).toNat)))
          e.onDir d fun y => (y.setDesc w.desc { kind := .stream, w := v }).step 8)

/-! ### Synchronisation (R111, R114, R115, R117) -/

/-- A word of the oldest unresolved stop record, as the stop registers lay it out (R111, R120). -/
def Dir.stopWord (x : Dir) (i : Nat) : W64 :=
  match x.stops with
  | [] => 0
  | q :: _ =>
    match i with
    | 0 => q.elem.setWidth 64
    | 1 => q.val
    | _ => BitVec.ofNat 64 (q.ticket.toNat + q.cause.toNat * 2 ^ 32 + (if q.stream then 2 ^ 52 else q.table.toNat * 2 ^ 40))

/-- What a mode-0 WAITT finds at once (R111): the outcome word, or none while the ticket is live. -/
def Dir.ticketNow (x : Dir) (t : W32) : Option W64 :=
  let d := (x.tcount - t).toNat
  if 256 ≤ d then some (if d < 2 ^ 31 then 5 else 6)
  else if (x.tLaunch - t).toNat < 2 ^ 31 then some 5
  else match x.slot t with
    | some q => if q.ticket = t then q.out.map outcomeWord else some 6
    | none => some 6

/-- WAITT (R111). The spec lists the words 0 to 2 of mode 2: word 3 is taken as a reserved field value (DEDUCED, log entry 181). -/
def execWaitt (d : Fin 8) (w : IWord) (s : State) : Host.Outcome State Fault Refusal :=
  let mode := fld w.imm.toNat 1 2
  let word := fld w.imm.toNat 3 2
  .next (s.live fun e =>
    e.insn d (iuses w true (mode == 0) false false (if mode = 2 then 0x1E else 0x06) && decide (mode < 3) && decide (word < 3))
      (if mode = 0 then [w.sa] else []) fun x =>
      if mode = 0 then
        let t : W32 := (x.get w.sa).setWidth 32
        match x.ticketNow t with
        | some v => e.onDir d fun y => (y.putI w.dst v).step 8
        | none => e.onDir d fun y => { y with st := .waiting, wait := .ticket w.dst t }
      else if mode = 1 then (e.onDir d fun y => { y with st := .waiting, wait := .allTickets w.dst }).settle d
      else e.onDir d fun y => (y.putI w.dst (x.stopWord word)).step 8)

/-- The clapper a clapper instruction names (R114): none from 8,192 on. -/
def Dir.clapper (x : Dir) (w : IWord) : Option (Fin 8192) :=
  let n := (x.get w.sa + (w.imm.setWidth 13).setWidth 64).toNat
  if h : n < 8192 then some ⟨n, h⟩ else none

/-- CWAIT (R114, R345). -/
def execCwait (d : Fin 8) (w : IWord) (s : State) : Host.Outcome State Fault Refusal :=
  let cond := fld w.imm.toNat 13 2
  .next (s.live fun e =>
    e.insn d (iuses w true true true false (2 ^ 35 - 1) && decide (cond < 2)) [w.sa, w.sb] fun x =>
      match x.clapper w with
      | none => e.progFault d 0x0B 0
      | some n =>
        if e.clpHeld ⟨d.val, by omega⟩ n then e else
        match e.check 1 x.master true false n 1 with
        | (e, false) => e.progFault d 0x04 0
        | (e, true) =>
          if condHolds (cond == 1) (x.get w.sb) (e.clap n) then e.onDir d fun y => (y.putI w.dst 0).step 8
          else
            let us := fld w.imm.toNat 15 20
            let dl := if us = 0 then none else some (e.hth.time + BitVec.ofNat 64 (1000 * us))
            e.onDir d fun y => { y with st := .waiting, wait := .clapper w.dst n (cond == 1) (x.get w.sb) dl })

/-- CSIG and CADD (R114, R298, R342, R346): presented at the local bank, the director waiting until it is served, or posted to
a peer. -/
def Eng.clapInsn (e : Eng) (d : Fin 8) (w : IWord) (kind : ClpKind) : Eng :=
  e.insn d (iuses w true true true false (2 ^ 21 - 1)) [w.sa, w.sb] fun x =>
    let p := fld w.imm.toNat 13 8
    match x.clapper w with
    | none => e.progFault d 0x0B 0
    | some n =>
      if e.hth.isSelf p then
        (e.onDir d fun y => { y with st := .waiting, wait := .fetchAdd }).clpPresent
          { req := ⟨d.val, by omega⟩, master := x.master, clapper := n, kind := kind, val := x.get w.sb,
            dst := some (d, w.dst), peer := none, cmd := none }
      else if e.hth.size ≤ p then e.progFault d 0x0A 0
      else if e.hth.isFailed p then e.onDir d fun y => (y.putI w.dst 7).step 8
      else
        let cl : BitVec 13 := BitVec.ofNat 13 n.val
        let e := e.send p (.clpOp cl (if kind = .set then 0 else 1) (x.get w.sb)) (.posted d cl)
        e.onDir d fun y => Dir.step ({ y with peerOps := y.peerOps + 1 }.putI w.dst 0) 8

/-- CSIG. -/
def execCsig (d : Fin 8) (w : IWord) (s : State) : Host.Outcome State Fault Refusal :=
  .next (s.live fun e => e.clapInsn d w .set)
/-- CADD. -/
def execCadd (d : Fin 8) (w : IWord) (s : State) : Host.Outcome State Fault Refusal :=
  .next (s.live fun e => e.clapInsn d w .fetchAdd)

/-- FENCE, the instruction (R115). -/
def execFence (d : Fin 8) (w : IWord) (s : State) : Host.Outcome State Fault Refusal :=
  .next (s.live fun e => e.insn d (iuses w false false false false 0x1E) [] fun _ =>
    (e.onDir d fun y => { y with st := .waiting, wait := .fence (w.imm.extractLsb' 1 4) }).settle d)

/-- MSG (R117). -/
def execMsg (d : Fin 8) (w : IWord) (s : State) : Host.Outcome State Fault Refusal :=
  .next (s.live fun e => e.insn d (iuses w false true true false 0x7FFF) [w.sa, w.sb] fun x =>
    let e := e.onDir d (·.step 8)
    e.post (e.mreelOf x.reel) 2 d (0x8000 + fld w.imm.toNat 0 15) ((x.get w.sa).toNat + (x.get w.sb).toNat * 2 ^ 64))

/-! ### Issue of data-path instructions (R107 to R109) -/

/-- A stream operand: its register, whether the instruction gives aux a meaning, and the roles it accepts. -/
structure Opnd where
  reg   : BitVec 4
  aux   : Bool
  roles : List Nat

/-- The first refusal among operands (R94, R104): wrong kinds first, then R104's checks in order: cause and detail. R104 orders the
checks of one descriptor; of several refused ones the first in field order is reported (DESIGN CHOICE, log entry 180). -/
def Dir.refuses (x : Dir) (tabs : List (BitVec 4)) (os : List Opnd) : Option (Byte × Byte) :=
  if (tabs.any fun i => (x.desc i).kind != .table) || (os.any fun o => (x.desc o.reg).kind != .stream) then some (0x07, 0)
  else ((os.map fun o => strReason (strOf (x.desc o.reg).w) o.aux o.roles).find? (· != 0)).map fun r =>
    (0x06, BitVec.ofNat 8 r)

/-- Issues a 16-byte ticketed instruction to the unit that runs `hs`: takes the ticket and hands the unit what it carries
(R107). -/
def Eng.issue (e : Eng) (hs : List Hdr) (d : Fin 8) (w : IWord) (x : Dir) (f : Eng → Hdr → Eng) : Eng :=
  match e.enqueue hs d w.dst with
  | (e, none) => e
  | (e, some k) => (f e (x.hdr k w.sb)).onDir d (·.step 16)

/-- Descriptor operand `i` (0 db, 1 dc, 2 dd, 3 de) of an extension word (R109). -/
def xdesc (ext : W64) (i : Nat) : BitVec 4 := BitVec.ofNat 4 (fld ext.toNat (4 * i) 4)

end Sys2Proof.Machine
end

