-- ==== Sys2Proof/Machine/Atomics.lean ====
section
/-! DEFINITION. Carrier atomics and PCIe AtomicOps (R19, R242, R243, R261), the return of wide-port reads (R228, R258), and
QNT (R113). -/

namespace Sys2Proof.Machine

open Sys2Proof

/-! ### Atomics (R242, R243) -/

/-- The sizes an atomic code accepts (R242); none for a reserved code. -/
def atomSizes (code : Nat) : List Nat :=
  if code = 1 ∨ code = 11 ∨ code = 12 then [4, 8, 16]
  else if code = 10 then [4]
  else if code ≤ 9 then [4, 8]
  else []

/-- What an atomic stores (R242), `n` being its size in bytes; none where it stores nothing. -/
def atomNew (code n old op cmp : Nat) : Option Nat :=
  let m := 2 ^ (8 * n)
  let o := op % m
  let s (x : Nat) : Int := if x < m / 2 then (x : Int) else (x : Int) - m
  match code with
  | 0 => some o
  | 1 => if old = cmp % m then some o else none
  | 2 => some ((old + o) % m)
  | 3 => some (old &&& o)
  | 4 => some (old ||| o)
  | 5 => some (old ^^^ o)
  | 6 => some (if s o < s old then o else old)
  | 7 => some (if s old < s o then o else old)
  | 8 => some (min old o)
  | 9 => some (max old o)
  | 10 => some (to32 ((of32 (BitVec.ofNat 32 old)).add (of32 (BitVec.ofNat 32 o)))).toNat
  | 12 => some o
  | _ => none

/-- The sward serves atomics (R19): it is not restarting, and no enable waits for its invalidate. -/
def Eng.serving (e : Eng) : Bool := !e.busy 5 && !e.swd.pending

/-- Where the bytes of an atomic come from: memory, unless the sward or an eviction buffer holds the sector. -/
def Eng.fromMemory (e : Eng) (sa : Nat) : Bool := (e.swd.sector sa).isNone && (e.swd.evbSector sa).isNone

/-- The access of an atomic (R243): its line is allocated and left dirty with the new bytes, or with the old ones where
nothing is stored; where nothing allocates it reads its sector from memory, but for one that returns nothing (`rd` false), and only a
store reaches memory (R246, R249). -/
def Eng.atomicTouch (e : Eng) (a n : Nat) (rd : Bool) (new : Option Nat) (old : Nat) : Eng :=
  let sa := a / 64 * 64
  let e' := e.backSector sa (a - sa) (leBytes n (new.getD old))
  if (e'.swd.sector sa).isSome then e'
  else
    let e := if rd && e.fromMemory sa then e.fetchSector sa else e
    match new with
    | some v => e.backSector sa (a - sa) (leBytes n v)
    | none => e

/-- An atomic waits: its sector's fill needs a miss entry, and its slice has none left (R229). -/
def Eng.atomicWaits (e : Eng) (code : Nat) (a n : Nat) : Bool :=
  e.serving && (atomSizes code).contains n && e.sectorsWait [a / 64 * 64]

/-- Performs an atomic (R242, R243): its response code and its returned value. Codes: 0 done, 1 not ready, 2 denied,
3 misaligned, 4 uncorrectable, 5 invalid. -/
def Eng.atomic (e : Eng) (code : Nat) (m : Fin 64) (addr : W64) (n : Nat) (op cmp : W128) (r : ReadRes) :
    Eng × BitVec 3 × W128 :=
  let a := addr.toNat
  if !e.serving then (e, 1, 0)
  else if !(atomSizes code).contains n then (e, 5, 0)
  else if a % n ≠ 0 then (e, 3, 0)
  else match e.check 3 m (code != 12) (code != 11) a n with
    | (e, false) => (e, 2, 0)
    | (e, true) =>
      let r := if e.fromMemory (a / 64 * 64) then e.answer a n r else r
      if r ≠ .ok then (e.answered a n, 4, 0)
      else
        let old := leNat (e.rdDev false a n)
        let e := e.atomicTouch a n (code != 12) (atomNew code n old op.toNat cmp.toNat) old
        (e.onSwd (·.count 5 1), 0, if code = 12 then 0 else BitVec.ofNat 128 old)

/-- A carrier atomic's answer reaches the port; the pages of what it stores are recorded as the carrier's writes (R259). -/
def Eng.carrierAtomic (e : Eng) (code : Nat) (m : Fin 64) (addr : W64) (n : Nat) (op cmp : W128) (r : ReadRes) : Eng :=
  if e.atomicWaits code addr.toNat n then e else
  let (e, c, v) := e.atomic code m addr n op cmp r
  let e := if c == 0 && (atomNew code n v.toNat op.toNat cmp.toNat).isSome then e.onHc fun h => h.wrote none addr.toNat n else e
  { e with port := { e.port with atomic := some (c, v) } }

/-- A carrier atomic; while the engine does not run it is answered "not ready" (R19, R364, R377). -/
def State.atomic (s : State) (code : Nat) (m : Fin 64) (addr : W64) (n : Nat) (op cmp : W128) (r : ReadRes) : State :=
  if s.runs then { s with eng := s.eng.carrierAtomic code m addr n op cmp r }
  else { s with eng := { s.eng with port := { s.eng.port with atomic := some (1, 0) } } }

/-- ATOMIC_SWAP. -/
def execAtomicSwap (m : Fin 64) (addr : W64) (size : Nat) (operand : W128) (r : ReadRes) (s : State) :
    Host.Outcome State Fault Refusal := .next (s.atomic 0 m addr size operand 0 r)
/-- ATOMIC_CAS. -/
def execAtomicCas (m : Fin 64) (addr : W64) (size : Nat) (new compare : W128) (r : ReadRes) (s : State) :
    Host.Outcome State Fault Refusal := .next (s.atomic 1 m addr size new compare r)
/-- ATOMIC_ADD. -/
def execAtomicAdd (m : Fin 64) (addr : W64) (size : Nat) (operand : W128) (r : ReadRes) (s : State) :
    Host.Outcome State Fault Refusal := .next (s.atomic 2 m addr size operand 0 r)
/-- ATOMIC_AND. -/
def execAtomicAnd (m : Fin 64) (addr : W64) (size : Nat) (operand : W128) (r : ReadRes) (s : State) :
    Host.Outcome State Fault Refusal := .next (s.atomic 3 m addr size operand 0 r)
/-- ATOMIC_OR. -/
def execAtomicOr (m : Fin 64) (addr : W64) (size : Nat) (operand : W128) (r : ReadRes) (s : State) :
    Host.Outcome State Fault Refusal := .next (s.atomic 4 m addr size operand 0 r)
/-- ATOMIC_XOR. -/
def execAtomicXor (m : Fin 64) (addr : W64) (size : Nat) (operand : W128) (r : ReadRes) (s : State) :
    Host.Outcome State Fault Refusal := .next (s.atomic 5 m addr size operand 0 r)
/-- ATOMIC_SMIN. -/
def execAtomicSmin (m : Fin 64) (addr : W64) (size : Nat) (operand : W128) (r : ReadRes) (s : State) :
    Host.Outcome State Fault Refusal := .next (s.atomic 6 m addr size operand 0 r)
/-- ATOMIC_SMAX. -/
def execAtomicSmax (m : Fin 64) (addr : W64) (size : Nat) (operand : W128) (r : ReadRes) (s : State) :
    Host.Outcome State Fault Refusal := .next (s.atomic 7 m addr size operand 0 r)
/-- ATOMIC_UMIN. -/
def execAtomicUmin (m : Fin 64) (addr : W64) (size : Nat) (operand : W128) (r : ReadRes) (s : State) :
    Host.Outcome State Fault Refusal := .next (s.atomic 8 m addr size operand 0 r)
/-- ATOMIC_UMAX. -/
def execAtomicUmax (m : Fin 64) (addr : W64) (size : Nat) (operand : W128) (r : ReadRes) (s : State) :
    Host.Outcome State Fault Refusal := .next (s.atomic 9 m addr size operand 0 r)
/-- ATOMIC_FADD. -/
def execAtomicFadd (m : Fin 64) (addr : W64) (size : Nat) (operand : W128) (r : ReadRes) (s : State) :
    Host.Outcome State Fault Refusal := .next (s.atomic 10 m addr size operand 0 r)
/-- ATOMIC_LOAD. -/
def execAtomicLoad (m : Fin 64) (addr : W64) (size : Nat) (r : ReadRes) (s : State) :
    Host.Outcome State Fault Refusal := .next (s.atomic 11 m addr size 0 0 r)
/-- ATOMIC_STORE. -/
def execAtomicStore (m : Fin 64) (addr : W64) (size : Nat) (operand : W128) (r : ReadRes) (s : State) :
    Host.Outcome State Fault Refusal := .next (s.atomic 12 m addr size operand 0 r)
/-- ATOMIC_INVALID: a reserved code or size. A code and size that R242 gives are not this event. -/
def execAtomicInvalid (m : Fin 64) (code : BitVec 4) (addr : W64) (size : Nat) (s : State) :
    Host.Outcome State Fault Refusal :=
  .next (if (atomSizes code.toNat).contains size then s else s.atomic code.toNat m addr size 0 0 .ok)

/-! ### PCIe AtomicOps (R261) -/

/-- A window atomic that the window does not serve (R256): dropped is set, its read data is 0xFF, and no response code is
stated for it (log entry 23). -/
def Eng.windowAtomicLost (e : Eng) (n : Nat) : Eng :=
  let e := e.onHc fun c => { c with dropped := true }
  let (e, b0) := e.freeBit
  let (e, b1) := e.freeBit
  let (e, b2) := e.freeBit
  let code : BitVec 3 := BitVec.ofNat 3 (b2n b0 + 2 * b2n b1 + 4 * b2n b2)
  { e with port := { e.port with atomic := some (code, BitVec.ofNat 128 (leNat (ones n))) } }

/-- A PCIe AtomicOp on the window (R261): performed in the sward under the window's master; its bytes' read-ahead buffers are
discarded (R259), and a refusal sets denied (R256). -/
def Eng.windowAtomic (e : Eng) (code : Nat) (sizes : List Nat) (off : BitVec 26) (n : Nat) (op cmp : W128) (r : ReadRes) :
    Eng :=
  if e.busy 8 || !bit e.hc.cfg.toNat 0 then e.windowAtomicLost n
  else
    let a := e.hc.base + off.setWidth 64
    if sizes.contains n && e.atomicWaits code a.toNat n then e else
    let (e, c, v) := if sizes.contains n then e.atomic code e.hc.master a n op cmp r else (e, 5, 0)
    let pg (p : Nat) : Bool := decide (p * 4096 < a.toNat + n) && decide (a.toNat < p * 4096 + 4096)
    let e := if c = 0 then e.onHc fun h => h.discard pg else e
    let e := if c = 2 then e.onHc fun h => { h with denied := true } else e
    { e with port := { e.port with atomic := some (c, v) } }

/-- A window atomic in any state: before the first configured state it is dropped and answered "not ready" (R256, R261). -/
def State.windowAtomic (s : State) (code : Nat) (sizes : List Nat) (off : BitVec 26) (n : Nat) (op cmp : W128) (r : ReadRes) :
    State :=
  if s.runs then { s with eng := s.eng.windowAtomic code sizes off n op cmp r }
  else
    let e := s.eng.onHc fun c => { c with dropped := true }
    { s with eng := { e with port := { e.port with atomic := some (1, 0) } } }

/-- PCIE_FETCHADD. -/
def execPcieFetchadd (off : BitVec 26) (size : Nat) (operand : W128) (r : ReadRes) (s : State) :
    Host.Outcome State Fault Refusal := .next (s.windowAtomic 2 [4, 8] off size operand 0 r)
/-- PCIE_SWAP. -/
def execPcieSwap (off : BitVec 26) (size : Nat) (operand : W128) (r : ReadRes) (s : State) :
    Host.Outcome State Fault Refusal := .next (s.windowAtomic 0 [4, 8] off size operand 0 r)
/-- PCIE_CAS. -/
def execPcieCas (off : BitVec 26) (size : Nat) (new compare : W128) (r : ReadRes) (s : State) :
    Host.Outcome State Fault Refusal := .next (s.windowAtomic 1 [4, 8, 16] off size new compare r)

/-! ### Wide reads (R228, R258) -/

/-- WIDE_READ_RETURN: a window page fill returns. The bytes of a unit's stream are taken at the unit's own row, so their
return changes nothing by itself (log entry 24). -/
def execWideReadReturn (u : WideUse) (r : ReadRes) (s : State) : Host.Outcome State Fault Refusal :=
  .next (s.live fun e =>
    match u with
    | .windowPage page => e.pageFill page r
    | .stream _ => e)

/-! ### QNT (R113) -/

/-- The instruction QNT. R104's checks of both streams come before R113's own, of the source's fmt_word and of the shapes (DESIGN CHOICE,
log 180). -/
def Eng.qntIssue (e : Eng) (d : Fin 8) (w : IWord) (ext : W64) : Eng :=
  let db := xdesc ext 0
  e.insn d (iuses w true false true true 0 && fld ext.toNat 4 60 == 0) [w.sb] fun x =>
    match x.refuses [] [⟨w.desc, false, [0]⟩, ⟨db, false, [0]⟩] with
    | some (c, r) => e.progFault d c r
    | none =>
      let a := strOf (x.desc w.desc).w
      let b := strOf (x.desc db).w
      if a.fw ≠ 0 ∨ a.rows ≠ b.rows ∨ a.len ≠ b.len then e.progFault d 0x06 7
      else e.issue e.hsQnt d w x fun e h =>
        { e with grd := { e.grd with qnts := e.grd.qnts ++ [{ h := h, src := (x.desc w.desc).w, dst := (x.desc db).w }] } }

/-- QNT. -/
def execQnt (d : Fin 8) (w : IWord) (ext : W64) (s : State) : Host.Outcome State Fault Refusal :=
  .next (s.live fun e => e.qntIssue d w ext)

/-- Requantizes rows `i` onwards, `n` of them (R35, R113): reads each, encodes, counts, writes. -/
def Eng.qntRows (e : Eng) (h : Hdr) (a b : Str) (i : Nat) : Nat → Eng × Cnt
  | 0 => (e, {})
  | n + 1 =>
    let (e, bs) := e.read false (a.addr i) (4 * a.len)
    let (out, c) := b.fmt.requant ((unpack .fp32 a.len bs).map Fmt.fp32.decode)
    let e := e.graded none c
    let e := e.putBytes false (b.addr i) out
    let e := e.onHc fun q => q.touch (some (h.reel, h.count)) (b.addr i) out.length
    let (e, c') := e.qntRows h a b (i + 1) n
    (e, c.add c')

/-- Rows done before the one that met an error: a free number below `n` (log entry 3). -/
def Eng.rowsBefore (e : Eng) : Nat → Eng × Nat
  | 0 => (e, 0)
  | n + 1 =>
    match e.freeBit with
    | (e, true) =>
      let (e, k) := e.rowsBefore n
      (e, k + 1)
    | (e, false) => (e, 0)

/-- QNT_RETIRE (R44, R113). Its writes are acknowledged by then (R248). -/
def Eng.qntRetire (e : Eng) (k : Key) (rd wr : ReadRes) : Eng :=
  match e.grd.qnts.find? (·.h.key == k) with
  | none => e
  | some j =>
    let a := strOf j.src
    let b := strOf j.dst
    let done (e : Eng) (st : Byte) (fl : BitVec 4) : Eng :=
      let e : Eng := { e with grd := { e.grd with qnts := e.grd.qnts.filter (·.h.key != k) } }
      e.retire k st fl
    match e.turn e.hsQnt j.h with
    | .wait => e
    | .dead => done e 4 0
    | .go =>
      let (e, ok) := e.checkStr j.h a true false
      let (e, ok) := if ok then e.checkStr j.h b false true else (e, false)
      let rd := e.answer a.base a.span rd
      if !ok then done e 3 0
      else if rd ≠ .ok ∨ wr ≠ .ok then
        let e := e.answered a.base a.span
        let (e, n) := e.rowsBefore (a.rows - 1)
        let (e, c) := e.qntRows j.h a b 0 n
        let (e, clip) := e.clipCheck j.h 0xFFFF c.el c.clip
        done e 3 (4 + (if clip then 1 else 0))
      else
        let (e, c) := e.qntRows j.h a b 0 a.rows
        let (e, clip) := e.clipCheck j.h 0xFFFF c.el c.clip
        done e (if clip then 2 else 0) (if clip then 1 else 0)

/-- QNT_RETIRE. -/
def execQntRetire (k : Key) (rd wr : ReadRes) (s : State) : Host.Outcome State Fault Refusal :=
  .next (s.live fun e => e.qntRetire k rd wr)

end Sys2Proof.Machine
end

