-- ==== Sys2Proof/Machine/Gleaning.lean ====
section
/-! DEFINITION. The index unit and the gleaners (R126 to R145), and the resumption of first-fault stops (R119 to R121):
GLEAN, UNIQ, RESUME, SKIPEL, FIXEL, and what happens to their requests and elements. -/

namespace Sys2Proof.Machine

open Sys2Proof

/-- Changes the gleaner block. -/
def Eng.onGln (e : Eng) (f : Gln → Gln) : Eng := { e with gln := f e.gln }
/-- Counts in a gleaner counter (R145). -/
def Eng.countGln (e : Eng) (i n : Nat) : Eng := e.onGln fun g => { g with ctrs := g.ctrs.add i n }
/-- The GLEAN of a ticket. -/
def Eng.glean (e : Eng) (k : Key) : Option Glean := e.gln.gleans.find? (·.h.key == k)
/-- Replaces a GLEAN. -/
def Eng.setGlean (e : Eng) (g : Glean) : Eng :=
  e.onGln fun x => { x with gleans := x.gleans.map fun y => if y.h.key == g.h.key then g else y }

/-! ### What a GLEAN gathers from -/

/-- The format word of a GLEAN's row source. -/
def Glean.fw (g : Glean) : Fw := if g.src then (strOf g.srcD).fmt else (tabOf g.srcD).fmt
/-- The table number of its row source, 0xFFFF where it names none (R387). -/
def Glean.table (g : Glean) : Nat := if g.src then 0xFFFF else (tabOf g.srcD).tid
/-- Bags of a GLEAN (R128). -/
def Glean.nBags (g : Glean) : Nat := if g.bags then (strOf g.offD).rows - 1 else (strOf g.idxD).rows
/-- Its bag `b`'s offsets, once they were read. -/
def Glean.bagAt (g : Glean) (b : Nat) : Option (Nat × Nat) :=
  if g.bags then g.bagOffs[b]? else if b < (strOf g.idxD).rows then some (b, b + 1) else none

/-- Byte offset of element `k` of a sub-row, `k` at a block boundary in a scaled format (R32). -/
def Fw.byteOff (w : Fw) (k : Nat) : Nat :=
  if w.sk = 0 then k * w.fmt.width / 8 else k / w.gs * (1 + w.fmt.bytes w.gs)

/-- The bytes of elements [a, b) of a sub-row: offset, length, and whether they start at a byte's second nibble. -/
def Fw.piece (w : Fw) (a b : Nat) : Nat × Nat × Bool :=
  let o := w.byteOff a
  (o, w.rowBytes b - o, w.sk == 0 && w.fmt.width == 4 && a % 2 == 1)

/-- Sectors that a request's bytes touch. -/
def Part.sectors (p : Part) : List Nat := sectorsOf p.addr p.bytes
/-- A request waits to be routed again: in a retry queue, or due. -/
def Part.isHeld (p : Part) : Bool := match p.st with
  | .held .. => true
  | _ => false
/-- A request's bytes have arrived, or its element is lost to it. -/
def Part.isDone (p : Part) : Bool := match p.st with
  | .got _ | .dead => true
  | _ => false

/-- Outcome bits 0 to 5 withhold an element's values (R136). -/
def withheld (outc : Byte) : Bool := outc.toNat % 64 != 0
/-- An element's values and its outcome are complete: every request has been answered (R136). -/
def Elem.done (x : Elem) : Bool := x.parts.all Part.isDone
/-- Sector slots an element holds (R139): those of its requests that wait, are outstanding or hold data. -/
def Elem.slots (x : Elem) : Nat := ((x.parts.filter (·.st != .dead)).map fun p => p.sectors.length).sum

/-- The lowest unresolved position (R135): a fault is one. -/
def Glean.frontier (g : Glean) : Nat :=
  let f := match (g.elems.filter fun x => !x.resolved).map (·.pos) with
    | [] => g.next
    | p :: ps => ps.foldl min p
  let f := match g.fault with
    | some (p, _) => min f p
    | none => f
  match g.iFault with
  | some (p, _) => min f p
  | none => f

/-- The lowest fault position, of either kind. -/
def Glean.stopAt (g : Glean) : Option Nat :=
  match g.fault, g.iFault with
  | some (p, _), some (q, _) => some (min p q)
  | some (p, _), none => some p
  | none, some (q, _) => some q
  | none, none => none

/-- Records a route-time fault, keeping the lowest; what was resolved at or above it is discarded when it takes effect. -/
def Glean.faultAt (g : Glean) (p : Nat) (v : W64) (cause : Byte) : Glean :=
  match g.fault with
  | some (q, _) => if p < q then { g with fault := some (p, v, cause) } else g
  | none => { g with fault := some (p, v, cause) }

/-- Records an instruction fault, keeping the lowest. -/
def Glean.iFaultAt (g : Glean) (p : Nat) (cause : Byte) (bag : Nat) : Glean :=
  match g.iFault with
  | some (q, _) => if p < q then { g with iFault := some (p, cause, bag) } else g
  | none => { g with iFault := some (p, cause, bag) }

/-- The gathered bytes of a complete element (R147): whole blocks in a scaled format, codes packed afresh otherwise. -/
def Glean.gathered (g : Glean) (x : Elem) : List Byte :=
  let w := g.fw
  let data (p : Part) : List Byte := match p.st with
    | .got bs => bs
    | _ => []
  if w.sk ≠ 0 then x.parts.flatMap data
  else pack w.fmt (x.parts.flatMap fun p =>
    let k := if p.odd then 1 else 0
    (unpack w.fmt (p.cnt + k) (data p)).drop k)

/-- The values of gathered bytes, in the source's rotation domain. -/
def Glean.values (g : Glean) (bs : List Byte) : List XVal := g.fw.decodeRow g.w bs

/-! ### Routing (R134, R60 to R62) -/

/-- Splits a window [a, b) of a row into requests (R134): one per entry whose element range meets it. Each is placed under
the active map; an element fault cause is answered where one cannot be. One that is held has the address that home gives it, which
fixes the sectors it counts for (R139). -/
def Eng.routeRow (e : Eng) (t : Nat) (w : Fw) (row a b : Nat) (since : W64) : List Part × Option Byte :=
  if !e.map.mapped t then ([], some 0x02)
  else
    let xs := (e.map.rowEnts t row).filter fun x => decide (x.2.elemFirst < b) && decide (a < x.2.elemFirst + x.2.elemCount)
    xs.foldl (fun (ps, f) (i, x) =>
      let lo := max a x.elemFirst
      let hi := min b (x.elemFirst + x.elemCount)
      let (o, n, odd) := w.piece (lo - x.elemFirst) (hi - x.elemFirst)
      let home : Copy := { num := 0, pos := x.home, tier := x.tier, base := x.base.toNat }
      let p : Part := { id := ps.length, ent := i, copy := 0, first := lo, cnt := hi - lo, pos := x.home, tier := x.tier,
                        addr := home.addr x row + o, bytes := n, odd := odd, ver := e.map.activeVer, st := .held since 0,
                        chunks := [] }
      match e.place i x with
      | .held => (ps ++ [p], f)
      | .tier3 => (ps ++ [p], f.or (some 0x03))
      | .at_ c =>
        (ps ++ [{ p with copy := c.num, pos := c.pos, tier := c.tier, addr := c.addr x row + o, st := .issued }], f))
      ([], none)

/-- Checks a list of requests' local reads (R134): the cause of a refusal. -/
def Eng.partsCheck (e : Eng) (m : Fin 64) (ps : List Part) : Eng × Bool :=
  ps.foldl (fun (e, ok) p =>
    if ok && p.st == .issued && p.pos == e.hth.pos then
      let (e, k) := e.check 3 m true false p.addr p.bytes
      (e, k)
    else (e, ok)) (e, true)

/-- The local requests wait for the sward: the stall that reaches the gleaners as back-pressure (R229, R237). -/
def Eng.partsWait (e : Eng) (ps : List Part) : Bool :=
  let sas := (ps.filter fun p => p.st == .issued && p.pos == e.hth.pos).flatMap Part.sectors
  !sas.isEmpty && e.sectorsWait sas

/-- Requests that are held enter their gleaner's retry queue, at the back (R141). -/
def Eng.enterQueue (e : Eng) (ps : List Part) : Eng × List Part :=
  let put (st : Nat × List Part) (p : Part) : Nat × List Part := match p.st with
    | .held since _ => (st.1 + 1, st.2 ++ [{ p with st := .held since st.1, due := false }])
    | _ => (st.1, st.2 ++ [p])
  let (n, ps) := ps.foldl put (e.gln.turns, [])
  (e.onGln fun g => { g with turns := n }, ps)

/-- Sends a request to its place (R60): a local one is looked up in the sward, sector by sector; a peer's is a read request
of up to 256 sectors. -/
def Eng.issuePart (e : Eng) (k : Key) (m : Fin 64) (pos : Nat) (p : Part) : Eng :=
  if p.st != .issued then e
  else if p.pos = e.hth.pos then
    p.sectors.foldl (fun e sa =>
      let hit := e.swd.enabled && (e.swd.sector sa).isSome
      (e.lookup m sa).countGln (if hit then 0 else if e.mp.inHbm sa then 1 else 2) 1) e
  else
    let n := p.sectors.length
    let s0 := p.addr / 64
    let ask (e : Eng) (s n : Nat) : Eng :=
      e.send p.pos (.readReq (BitVec.ofNat 58 s) (BitVec.ofNat 2 p.tier) (BitVec.ofNat 8 (n - 1))) (.read k pos p.id)
    let e := ask e s0 (min n 256)
    if 256 < n then ask e (s0 + 256) (n - 256) else e

/-- Sends every request of an element. -/
def Eng.issueElem (e : Eng) (g : Glean) (x : Elem) : Eng :=
  x.parts.foldl (fun e p => e.issuePart g.h.key g.h.master x.pos p) e

/-! ### Resolution (R128, R129, R132, R140) -/

/-- Whether a stream item may be read, and its bytes: 1 for a denial, 2 for an uncorrectable error. -/
def Eng.readItem (e : Eng) (m : Fin 64) (s : Str) (i : Nat) (r : ReadRes) : Eng × Nat × Nat :=
  let a := s.addr i
  let n := s.item
  match e.check 4 m true false a n with
  | (e, false) => (e, 1, 0)
  | (e, true) =>
    let r := e.answer a n r
    let e := e.answered a n
    if r ≠ .ok then (e, 2, 0)
    else
      let (e, bs) := e.read false a n
      (e, 0, leNat bs)

/-- The cause of a failed stream read (R388). -/
def streamCause (f : Nat) : Byte := if f = 1 then 0x40 else 0x41

/-- Reads the offsets of the bag that comes next (R128), and passes over empty bags: afterwards the next position lies in
bag `bag`, or no bag is left. The offsets of a bag that a stop fell behind are those read before it. Where off[0] itself cannot be
read, the first position of bag 0 is unknown: the fault takes the next position, 0 (DESIGN CHOICE, log entry 193). -/
def Eng.openBag (e : Eng) : Nat → Glean → ReadRes → Eng × Glean
  | 0, g, _ => (e, g)
  | fuel + 1, g, r =>
    if !g.bags then (e, { g with bag := g.next, total := some (strOf g.idxD).rows })
    else
      let full := match g.bagEnd with
        | some z => decide (g.next < z)
        | none => false
      if full || g.iFault.isSome then (e, g)
      else
        let b := if g.bagEnd.isNone then 0 else g.bag + 1
        match g.bagOffs[b]? with
        | some (lo, hi) => e.openBag fuel { g with bag := b, bagEnd := some hi, next := lo } r
        | none =>
        if g.nBags ≤ b then (e, { g with total := some g.next })
        else
          let s := strOf g.offD
          let (e, f0, lo) := e.readItem g.h.master s b r
          let (e, f1, hi) := if f0 = 0 then e.readItem g.h.master s (b + 1) r else (e, 0, 0)
          let first := if f0 = 0 then lo else g.next
          if f0 ≠ 0 ∨ f1 ≠ 0 then (e, g.iFaultAt first (streamCause (max f0 f1)) b)
          else if hi < lo ∨ (strOf g.idxD).rows < hi ∨ 2 ^ 24 < hi - lo ∨ (0 < b ∧ lo ≠ g.next) then
            (e, g.iFaultAt lo 0x42 b)
          else
            let g := { g with bag := b, bagEnd := some hi, bagOffs := g.bagOffs ++ [(lo, hi)], next := lo }
            e.openBag fuel g r

/-- Sector slots in use at a gleaner (R139). -/
def Eng.slotsAt (e : Eng) (gl : Nat) : Nat :=
  (e.gln.gleans.map fun g => (g.elems.map fun x => if x.gl.val = gl then x.slots else 0).sum).sum

/-- Sector slots in use at every gleaner. -/
def Eng.slotsAll (e : Eng) : Nat := (e.gln.gleans.map fun g => (g.elems.map Elem.slots).sum).sum

/-- The gleaner a group of 16 positions went to (R140). -/
def Glean.dealt (g : Glean) (pos : Nat) : Option (Fin 64) := (g.deals.find? (·.1 == pos / 16)).map (·.2)

/-- The gleaner a position goes to (R140): that of its group of 16, or for a new group the next one with a free slot. -/
def Eng.gleaner (e : Eng) (g : Glean) (pos : Nat) : Option (Fin 64) :=
  match g.dealt pos with
  | some q => some q
  | none =>
    (((List.range 64).map fun i => (e.gln.nextGl + i) % 64).find? fun i => decide (e.slotsAt i < 2048)).map fun i =>
      ⟨i % 64, Nat.mod_lt _ (by decide)⟩

/-- Deals a position's group to a gleaner (R140): the next new group starts at the one after it. -/
def Eng.deal (e : Eng) (g : Glean) (pos : Nat) (gl : Fin 64) : Eng × Glean :=
  if (g.dealt pos).isSome then (e, g)
  else (e.onGln fun q => { q with nextGl := (gl.val + 1) % 64 }, { g with deals := (pos / 16, gl) :: g.deals })

/-- What an index addresses for a GLEAN (R132): for src = 1 the all-ones index is padding. -/
def Glean.index (g : Glean) (x : Nat) : Idx :=
  if g.src then
    let s := strOf g.idxD
    if x = (if s.role = 1 then 2 ^ 32 - 1 else 2 ^ 64 - 1) then .pad
    else if (strOf g.srcD).rows ≤ x then .fault
    else .row x
  else (tabOf g.srcD).resolve x

/-- The requests of a row of a GLEAN. -/
def Eng.gleanParts (e : Eng) (g : Glean) (row : Nat) : List Part × Option Byte :=
  if g.src then
    let s := strOf g.srcD
    let (o, n, odd) := g.fw.piece g.eFirst (g.eFirst + g.w)
    ([{ id := 0, ent := 0, copy := 0, first := g.eFirst, cnt := g.w, pos := e.hth.pos, tier := 0, addr := s.addr row + o, bytes := n,
        odd := odd, ver := e.map.activeVer, st := .issued, chunks := [] }], none)
  else e.routeRow g.table g.fw row g.eFirst (g.eFirst + g.w) e.hth.time

/-- An element whose requests all issued is resolved. -/
def Elem.settle (x : Elem) : Elem := { x with resolved := x.resolved || !x.parts.any Part.isHeld }

/-- The index a FIXEL put in place at a position (R121). -/
def Glean.fixed (g : Glean) (p : Nat) : Option Nat := (g.fix.find? (·.1 == p)).map (·.2.toNat)

/-- Adds an element to a GLEAN. -/
def Glean.push (g : Glean) (x : Elem) : Glean := { g with elems := g.elems ++ [x], next := x.pos + 1 }

/-- Resolves one position (R132 to R135); a resolved one is counted (R145). Answers whether another may follow. -/
def Eng.resolve1 (e : Eng) (g : Glean) (r : ReadRes) : Eng × Glean × Bool :=
  let (e, g) := e.openBag (g.nBags + 2) g r
  let stop := g.fault.isSome || g.iFault.isSome || g.total == some g.next
  if stop then (e, g, false)
  else
    let p := g.next
    match e.gleaner g p with
    | none => (e, g, false)
    | some gl =>
      let (e, g) := e.deal g p gl
      let ix := strOf g.idxD
      let (e, f, v) := match g.fixed p with
        | some v => (e, 0, v)
        | none => e.readItem g.h.master ix p r
      let (e, fw, wt) := if g.wts ∧ f = 0 then e.readItem g.h.master (strOf g.wtD) p r else (e, 0, 0x3F800000)
      if f ≠ 0 ∨ fw ≠ 0 then (e, g.iFaultAt p (streamCause (max f fw)) g.bag, false)
      else
        let x : Elem := { pos := p, bag := g.bag, val := BitVec.ofNat 64 v, row := 0, weight := 0, outc := 0, parts := [],
                          resolved := true, gl := gl, redo := false }
        let adv (e : Eng) : Eng := e.countGln 5 1
        if g.skip.contains p then (adv e, g.push { x with outc := 4 }, true)
        else match g.index v with
          | .pad => (adv e, g.push { x with outc := 1 }, true)
          | .masked => (adv e, g.push { x with outc := 2 }, true)
          | .fault => (e.countGln 5 1, g.faultAt p (BitVec.ofNat 64 v) 0x01, false)
          | .row row =>
            let (ps, f) := e.gleanParts g row
            match f with
            | some c => (e.countGln 5 1, g.faultAt p (BitVec.ofNat 64 v) c, false)
            | none =>
              let x := { x with row := row, weight := BitVec.ofNat 32 wt, parts := ps, resolved := false }
              if decide (2048 < e.slotsAt gl + x.slots) || e.partsWait ps then (e, g, false)
              else match e.partsCheck g.h.master ps with
                | (e, false) => (e.countGln 5 1, g.faultAt p (BitVec.ofNat 64 v) 0x04, false)
                | (e, true) =>
                  let (e, ps) := e.enterQueue ps
                  let x := Elem.settle { x with parts := ps }
                  ((if x.resolved then adv e else e).issueElem g x, g.push x, true)

/-- Resolves a position of a second delivery (R168): its index, weight and bag are read again. One that cannot be routed now is lost
to the delivery (outcome bit 4), and one whose local read is refused denied (bit 3); the bag goes on (DESIGN CHOICE, log entry
213). -/
def Eng.redo1 (e : Eng) (g : Glean) (r : ReadRes) : Eng × Glean × Bool :=
  match g.redo with
  | [] => (e, g, false)
  | (b, p, z) :: rest =>
    let g' := { g with redo := if p + 1 < z then (b, p + 1, z) :: rest else rest }
    match e.gleaner g p with
    | none => (e, g, false)
    | some gl =>
      let (e, f, v) := match g.fixed p with
        | some v => (e, 0, v)
        | none => e.readItem g.h.master (strOf g.idxD) p r
      let (e, fw, wt) := if g.wts ∧ f = 0 then e.readItem g.h.master (strOf g.wtD) p r else (e, 0, 0x3F800000)
      if f ≠ 0 ∨ fw ≠ 0 then (e, g'.iFaultAt p (streamCause (max f fw)) b, false)
      else
        let x : Elem := { pos := p, bag := b, val := BitVec.ofNat 64 v, row := 0, weight := 0, outc := 0, parts := [],
                          resolved := true, gl := gl, redo := true }
        let add (x : Elem) : Glean := { g' with elems := g'.elems ++ [x] }
        match (if g.skip.contains p then .pad else g.index v) with
        | .pad => (e, add { x with outc := if g.skip.contains p then 4 else 1 }, true)
        | .masked => (e, add { x with outc := 2 }, true)
        | .fault => (e, add { x with outc := 16 }, true)
        | .row row =>
          let (ps, f) := e.gleanParts g row
          match f with
          | some _ => (e, add { x with outc := 16 }, true)
          | none =>
            let x := { x with row := row, weight := BitVec.ofNat 32 wt, parts := ps }
            if decide (2048 < e.slotsAt gl + x.slots) || e.partsWait ps then (e, g, false)
            else match e.partsCheck g.h.master ps with
              | (e, false) => (e, add { x with parts := [], outc := 8 }, true)
              | (e, true) =>
                let (e, ps) := e.enterQueue ps
                let x := { x with parts := ps }
                (e.issueElem g x, add x, true)

/-- Resolves up to `n` positions; `r` answers the reads of the last one. -/
def Eng.resolveN (e : Eng) (g : Glean) (r : ReadRes) : Nat → Eng × Glean
  | 0 => (e, g)
  | n + 1 =>
    let one := if g.redo.isEmpty then Eng.resolve1 else Eng.redo1
    let (e, g, more) := one e g (if n = 0 then r else .ok)
    if more then e.resolveN g r n else (e, g)

/-! ### Delivery (R131, R135, R136) -/

/-- The flags an element's outcome gives (R136). -/
def outFlags (outc : Byte) : BitVec 4 :=
  (if bit outc.toNat 5 then 0b0100 else 0) ||| (if bit outc.toNat 6 then 0b0010 else 0) |||
    (if fld outc.toNat 1 4 ≠ 0 then 0b1000 else 0)

/-- Counts an outcome of the denied or the lost kind: the first position and how many. -/
def tally (t : Option (Nat × Nat)) (p : Nat) : Option (Nat × Nat) :=
  match t with
  | none => some (p, 1)
  | some (q, n) => some (min p q, n + 1)

/-- An element leaves its GLEAN: its outcome joins the GLEAN's (R136). What a second delivery shows again was counted at the
first. -/
def Glean.take (g : Glean) (x : Elem) : Glean :=
  let old := ((g.outs.find? (·.1 == x.pos)).map (·.2)).getD 0
  let new := x.outc &&& ~~~old
  { g with elems := g.elems.filter fun y => !(y.pos == x.pos && y.redo == x.redo),
           outs := if new = 0 then g.outs else (x.pos, old ||| new) :: g.outs.filter (·.1 != x.pos),
           flags := g.flags ||| outFlags x.outc,
           denied := if bit new.toNat 3 then tally g.denied x.pos else g.denied,
           lost := if bit new.toNat 4 then tally g.lost x.pos else g.lost }

/-- An element may be handed over (R135): complete, and below the frontier. -/
def Glean.isReady (g : Glean) (x : Elem) : Bool := x.done && x.resolved && (x.redo || decide (x.pos < g.frontier))

/-- The next element that may be handed over. -/
def Glean.ready (g : Glean) : Option Elem := g.elems.find? g.isReady

/-- Writes row p of a plain GLEAN (R131) and its status byte. Answers whether both writes were made. -/
def Eng.plainRow (e : Eng) (g : Glean) (x : Elem) (wr : ReadRes) : Eng × Nat :=
  let s := strOf g.outD
  let a := s.addr x.pos
  let fo := s.fmt
  let data := g.gathered x
  let (bs, cnt) :=
    if withheld x.outc then ((fo.encodeDom (List.replicate g.w xzero)).1, ({} : Cnt))
    else if s.fw = (if g.src then (strOf g.srcD).fw else (tabOf g.srcD).fw) then (data, {})
    else fo.encodeDom (convert g.fw.rot fo.rot (g.values data))
  let (e, ok) := e.check 4 g.h.master false true a bs.length
  let (e, ok) := if ok ∧ s.aux ≠ 0 then e.check 4 g.h.master false true (s.aux + x.pos) 1 else (e, ok)
  if !ok then (e, 1)
  else if e.answer a bs.length wr ≠ .ok then (e.answered a bs.length, 2)
  else
    let e := (e.graded none cnt).write g.h.who false a bs
    (if s.aux = 0 then e else e.write g.h.who false (s.aux + x.pos) [x.outc], 0)

/-- Writes the rows that a plain GLEAN may write, in position order, so that a write that fails leaves nothing written above it
(R138). `wrs` answers the writes in order. -/
def Eng.plainOut (e : Eng) (g : Glean) (wrs : List ReadRes) : Nat → Eng × Glean
  | 0 => (e, g)
  | n + 1 =>
    match (if g.out then g.elems.head?.filter g.isReady else none) with
    | none => (e, g)
    | some x =>
      match e.plainRow g x (wrs.headD .ok) with
      | (e, 0) => e.plainOut (g.take x) (wrs.drop 1) n
      | (e, f) => (e, (g.take x).iFaultAt x.pos (if f = 1 then 0x43 else 0x44) x.bag)

/-- The GLEAN works: what it waits for has come (R108, R110). A continuation goes on with a GLEAN that has started, and takes no turn
(DEDUCED, log entry 194). -/
def Eng.gleanGo (e : Eng) (g : Glean) : Bool :=
  g.phase == .active && !e.inReset 1 &&
    (if g.root = g.h.key.ticket then e.turn e.hsGlean g.h else e.prior g.h) == .go

/-- Changes request `i` of the elements at a position. -/
def Glean.setPart (g : Glean) (pos i : Nat) (f : Part → Part) : Glean :=
  { g with elems := g.elems.map fun x =>
      if x.pos == pos then { x with parts := x.parts.map fun p => if p.id = i then f p else p } else x }

/-- Request `i` of the element at a position, with the element. -/
def Glean.part (g : Glean) (pos i : Nat) : Option (Elem × Part) :=
  (g.elems.find? (·.pos == pos)).bind fun x => (x.parts.find? (·.id == i)).map (x, ·)

/-- Changes the elements at a position. -/
def Glean.setElem (g : Glean) (pos : Nat) (f : Elem → Elem) : Glean :=
  { g with elems := g.elems.map fun x => if x.pos == pos then f x else x }

/-- Reroutes one queued request under the active map (R141, R142): it issues, splits, or, where it meets a held entry, returns to the
back of the queue; one that meets a route-time fault faults its element, or loses it once resolved. What it becomes may not exceed
the gleaner's slots (R139): while they or the sward keep it from issuing it has left the queue, is due, and is routed again when
its GLEAN works next (DEDUCED, log entry 211). -/
def Eng.reroute1 (e : Eng) (k : Key) (pos i : Nat) : Eng :=
  match e.glean k with
  | none => e
  | some g =>
    match g.part pos i with
    | none => e
    | some (x, p) =>
      match p.st with
      | .held since _ =>
        let put (qs : List Part) : Elem := { x with parts := x.parts.flatMap fun q => if q.id = i then qs else [q] }
        let fails (e : Eng) (c : Byte) : Eng :=
          let y := put [{ p with st := .dead, due := false }]
          if x.resolved then e.setGlean (g.setElem pos fun _ => { y with outc := y.outc ||| 0x10 })
          else (e.countGln 5 1).setGlean ((g.setElem pos fun _ => { y with resolved := true }).faultAt pos x.val c)
        let (qs, f) := e.routeRow g.table g.fw x.row p.first (p.first + p.cnt) since
        let fresh := (x.parts.foldl (fun m q => max m q.id) 0) + 1
        let qs := qs.zipIdx.map fun (q, j) => { q with id := if j = 0 then i else fresh + j }
        match f with
        | some c => fails e c
        | none =>
          let full := decide (2048 < e.slotsAt x.gl + (put qs).slots - x.slots)
          if full && qs.all Part.isHeld then
            let (e, qs) := e.enterQueue [p]
            e.setGlean (g.setElem pos fun _ => put qs)
          else if full || e.partsWait qs then
            e.setGlean (g.setElem pos fun _ => put [{ p with due := true }])
          else match e.partsCheck g.h.master qs with
            | (e, false) => fails e 0x04
            | (e, true) =>
              let (e, qs) := e.enterQueue qs
              let y := (put qs).settle
              let e := if !x.resolved && y.resolved then e.countGln 5 1 else e
              let e := qs.foldl (fun e q => e.issuePart g.h.key g.h.master pos q) e
              e.setGlean (g.setElem pos fun _ => y)
      | _ => e

/-- The queued requests of every active GLEAN that `p` picks, in the order in which they entered the queues: ticket, position,
number. -/
def Gln.queued (q : Gln) (p : Part → Bool) : List (Key × Nat × Nat) :=
  let all := q.gleans.flatMap fun g => if g.phase != .active then [] else
    g.elems.flatMap fun x => x.parts.filterMap fun y => match y.st with
      | .held _ ord => if p y then some (ord, g.h.key, x.pos, y.id) else none
      | _ => none
  (sortBy (·.1) all).map (·.2)

/-- RETRY_QUEUE_REROUTE (R141): every gleaner reroutes its queued requests in entry order. -/
def Eng.rerouteAll (e : Eng) : Eng := (e.gln.queued fun _ => true).foldl (fun e x => e.reroute1 x.1 x.2.1 x.2.2) e

/-- Requests of a GLEAN that a reroute found a place for, and that could not issue then, are routed again. -/
def Eng.rerouteDue (e : Eng) (k : Key) : Eng :=
  ((e.gln.queued (·.due)).filter (·.1 == k)).foldl (fun e x => e.reroute1 x.1 x.2.1 x.2.2) e

/-- INDEX_RESOLVE (R132): up to `n` positions are resolved, and routed. -/
def Eng.indexResolve (e : Eng) (k : Key) (n : Nat) (r : ReadRes) (wrs : List ReadRes) : Eng :=
  let e := e.rerouteDue k
  match e.glean k with
  | none => e
  | some g =>
    if !e.gleanGo g then e
    else
      let (e, g) := e.resolveN g r n
      let (e, g) := e.plainOut g wrs (g.elems.length + 1)
      e.setGlean g

/-- INDEX_RESOLVE. -/
def execIndexResolve (k : Key) (n : Fin 129) (r : ReadRes) (wrs : List ReadRes) (s : State) : Host.Outcome State Fault Refusal :=
  .next (s.live fun e => e.indexResolve k n r wrs)

/-- An element meets an uncorrectable sector (R136): its values are withheld, and one message is posted for it, at its first
delivery or its second. -/
def Eng.elemUncorr (e : Eng) (g : Glean) (x : Elem) (sa : Nat) : Eng × Glean :=
  let g' := g.setElem x.pos fun y => { y with outc := y.outc ||| 0x20 }
  if g.told.contains x.pos then (e, g')
  else (e.post (e.mreelOf g.h.reel) 3 x.gl 0x0301 (sa + x.pos * 2 ^ 64 + g.table * 2 ^ 112), { g' with told := x.pos :: g.told })

/-- SECTOR_RETURN (R135, R136): a local request of an element returns. Where a tedder write of the row is in flight, R16 lets its
sectors come from different sides; here a request's sectors come from one side (DESIGN CHOICE, log entry 191). -/
def Eng.sectorReturn (e : Eng) (k : Key) (pos i : Nat) (r : ReadRes) (wrs : List ReadRes) : Eng :=
  let e := e.rerouteDue k
  match e.glean k with
  | none => e
  | some g =>
    if !e.gleanGo g then e
    else match g.part pos i with
      | none => e
      | some (x, p) =>
        if p.st != .issued || p.pos != e.hth.pos then e
        else
          let r := e.answer p.addr p.bytes r
          let e := e.answered p.addr p.bytes
          let (e, g) :=
            if r = .ok then (e, g.setPart pos i fun q => { q with st := .got (e.rdDev false p.addr p.bytes) })
            else e.elemUncorr (g.setPart pos i fun q => { q with st := .dead }) x (p.addr / 64 * 64)
          let (e, g) := e.plainOut g wrs (g.elems.length + 1)
          e.setGlean g

/-- SECTOR_RETURN, as the row gives it. -/
def execSectorReturn (k : Key) (pos part : Nat) (r : ReadRes) (wrs : List ReadRes) (s : State) : Host.Outcome State Fault Refusal :=
  .next (s.live fun e => e.sectorReturn k pos part r wrs)

/-! ### Retirement (R119, R130, R136 to R138) -/

/-- Where a chain of continuations of a ticket has come to (R121). -/
def Dir.chase (x : Dir) : Nat → W32 → W32
  | 0, t => t
  | n + 1, t =>
    match x.slot t with
    | some s => if s.ticket = t then (match s.next with
        | some u => x.chase n u
        | none => t) else t
    | none => t

/-- The GLEAN that a ticket or one of its continuations names. -/
def Eng.gleanOf (e : Eng) (d : Fin 8) (t : W32) : Option Glean := e.glean { dir := d, ticket := (e.dir d).chase 257 t }

/-- Posts the messages of denied and of lost elements (R136). The spec names no gleaner for them: their source is instance 0
(DESIGN CHOICE, log entry 187). -/
def Eng.gleanMsgs (e : Eng) (g : Glean) : Eng :=
  let one (e : Eng) (code : Nat) (t : Option (Nat × Nat)) : Eng := match t with
    | none => e
    | some (p, n) => e.post (e.mreelOf g.h.reel) 3 0 code (p + min n 0xFFFFFFFF * 2 ^ 64 + workTag g.h.reel g.h.count)
  one (one e 0x0302 g.denied) 0x0303 g.lost

/-- A GLEAN's ticket retires; the GLEAN stays for its consumer. The messages of denied and lost elements are posted here: a GLEAN that
stops posts them for what it met so far, and its continuation for what it meets (DESIGN CHOICE, log entry 212). -/
def Eng.gleanEnd (e : Eng) (g : Glean) (phase : GleanPhase) (status : Byte) (flags : BitVec 4) : Eng :=
  let e := e.gleanMsgs g
  let g := { g with phase := phase, elems := [], redo := [], denied := none, lost := none, dead := status == 3 || status == 4 }
  let e := (e.setGlean g).letGo fun u => match u with
    | .read k _ _ => k == g.h.key
    | _ => false
  e.retire g.h.key status flags g.ff

/-- The element-fault message (R137, R138, R387); without a work tag (R386). -/
def Eng.elemFault (e : Eng) (g : Glean) (gl : Nat) (v : W64) (p : Nat) (cause : Byte) : Eng :=
  e.post (e.mreelOf g.h.reel) 3 gl 0x0300 (v.toNat + p % 2 ^ 40 * 2 ^ 64 + cause.toNat * 2 ^ 104 + g.table * 2 ^ 112)

/-- A fault that took effect ends the GLEAN (R119, R137, R138). -/
def Eng.gleanFault (e : Eng) (g : Glean) : Eng :=
  let gl (p : Nat) : Nat := ((g.dealt p).map (·.val)).getD 0
  let inst (c : Byte) (p bag : Nat) : Eng :=
    (e.elemFault g (gl p) 0 (if c = 0x42 then bag else p) c).gleanEnd g .retired 3 g.flags
  match g.fault, g.iFault with
  | some (p, v, c), i =>
    match i with
    | some (q, c', bag) => if q < p then inst c' q bag else
        if g.ff then e else (e.elemFault g (gl p) v p c).gleanEnd g .retired 3 g.flags
    | none => if g.ff then e else (e.elemFault g (gl p) v p c).gleanEnd g .retired 3 g.flags
  | none, some (q, c, bag) => inst c q bag
  | none, none => e

/-- The GLEAN falls back to a position (R119, R121): it is the next one again, in its own bag, and every fault found at it or above
is forgotten. -/
def Glean.fallBack (g : Glean) (p : Nat) : Glean :=
  let at_ := (g.bagOffs.zipIdx.find? fun x => decide (x.1.1 ≤ p) && decide (p < x.1.2)).map fun x => (x.2, x.1.2)
  let g := { g with next := p, fault := none, iFault := none }
  match at_ with
  | some (b, hi) => { g with bag := b, bagEnd := some hi }
  | none => g

/-- A first-fault stop (R119): the stop record joins the director's queue, and the ticket retires stopped. While the director
drains the stop is abandoned at once, which after a HALT is a program fault (R98, R122). A continuation's flags include those of its
chain's earlier tickets (DESIGN CHOICE, log entry 188). -/
def Eng.gleanStop (e : Eng) (g : Glean) (p : Nat) (v : W64) (c : Byte) : Eng :=
  let q : Stop := { elem := BitVec.ofNat 40 p, val := v, ticket := g.h.key.ticket, cause := c,
                    table := if g.src then 0 else BitVec.ofNat 12 g.table, stream := g.src }
  let g := g.fallBack p
  if (e.dir g.h.key.dir).st = .draining then (e.progFault g.h.key.dir 0x0E 0).gleanEnd g .retired 4 g.flags
  else (e.onDir g.h.key.dir fun x => { x with stops := x.stops ++ [q] }).gleanEnd g .stopped 1 g.flags

/-- The consumer of a GLEAN has retired (R130). -/
def Eng.consumerGone (e : Eng) (g : Glean) : Bool :=
  match g.consumer with
  | none => false
  | some k => !(e.wr.pools.any (·.h.key == k)) && !(e.ted.teds.any (·.h.key == k))

/-- A POOL still holds a wave bag of the GLEAN that may ask for its positions again (R168). -/
def Eng.waveOpen (e : Eng) (g : Glean) : Bool :=
  e.wr.pools.any fun j => g.consumer == some j.h.key && !j.fault && j.bags.any fun b =>
    b.twice && b.phase != .passed && b.phase != .drained

/-- GLEAN_RETIRE: the GLEAN's ticket retires when what its end waits for holds (R119, R130, R136 to R138). -/
def Eng.gleanRetire (e : Eng) (k : Key) : Eng :=
  match e.glean k with
  | none => e
  | some g =>
    let noUser := !g.out && g.consumer.isNone
    match g.phase with
    | .stopped | .retired => e
    | .discarding st => e.gleanEnd g .retired st g.flags
    | .active =>
      if e.prior g.h = .dead then e.gleanEnd g .retired 4 0
      else if e.consumerGone g ∨ (noUser ∧ (e.dir k.dir).st = .draining) then e.gleanEnd g .retired 4 0
      else match g.stopAt with
        | some p =>
          let below := g.elems.any fun x => decide (x.pos < p)
          let stops := g.ff && (match g.fault, g.iFault with
            | some (q, _), some (i, _) => decide (q ≤ i)
            | some _, none => true
            | _, _ => false)
          let unresolved := g.elems.any fun x => decide (x.pos < p) && !x.resolved
          if unresolved ∨ (stops ∧ ¬ g.redo.isEmpty) ∨ (below ∧ ¬ (noUser ∧ ¬ stops)) ∨ e.mp.owed (.ticket k) ≠ 0 then e
          else match stops, g.fault with
            | true, some (q, v, c) => e.gleanStop g q v c
            | _, _ => e.gleanFault g
        | none =>
          if g.total = some g.next ∧ g.elems.isEmpty ∧ g.redo.isEmpty ∧ ¬ noUser ∧ ¬ e.waveOpen g ∧
              e.mp.owed (.ticket k) = 0 then
            let fl := g.flags
            e.gleanEnd g .retired (okStatus fl) fl
          else e

/-- GLEAN_RETIRE. -/
def execGleanRetire (k : Key) (s : State) : Host.Outcome State Fault Refusal := .next (s.live fun e => e.gleanRetire k)

/-! ### Retry queues and failed positions (R141, R142) -/

/-- RETRY_LIMIT_EXPIRY (R141): a request that waited as long as the limit is removed and faults its element, or loses it. -/
def Eng.retryLimitExpiry (e : Eng) (k : Key) (pos : Nat) : Eng :=
  match e.glean k with
  | none => e
  | some g =>
    let lim := e.gln.retryLimit.toNat
    match g.elems.find? (·.pos == pos) with
    | none => e
    | some x =>
      let due (p : Part) : Bool := match p.st with
        | .held since _ => !p.due && decide (since.toNat + 1000 * lim ≤ e.hth.time.toNat)
        | _ => false
      if lim = 0 ∨ ¬ x.parts.any due then e
      else
        let e := e.onGln fun q => { q with limitHit := true }
        let g := g.setElem pos fun y => { y with parts := y.parts.map fun p => if due p then { p with st := .dead } else p }
        if x.resolved then e.setGlean (g.setElem pos fun y => { y with outc := y.outc ||| 0x10 })
        else (e.countGln 5 1).setGlean ((g.setElem pos fun y => { y with resolved := true }).faultAt pos x.val 0x05)

/-- RETRY_LIMIT_EXPIRY. -/
def execRetryLimitExpiry (k : Key) (pos : Nat) (s : State) : Host.Outcome State Fault Refusal :=
  .next (s.live fun e => e.retryLimitExpiry k pos)

/-- Requests outstanding at a failed position are cancelled into the retry queues (R142). -/
def Eng.cancelReads (e : Eng) (p : Nat) : Eng :=
  let now := e.hth.time
  let out (q : Part) : Part :=
    if q.pos == p && q.st == .issued then { q with st := .held now 0, chunks := [], bad := false } else q
  let hit (x : Elem) : Bool := x.parts.any fun q => q.pos == p && q.st == .issued
  let one (e : Eng) (g : Glean) : Eng :=
    let (e, xs) := g.elems.foldl (fun (st : Eng × List Elem) x =>
      if hit x then
        let old := x.parts.filter fun q => !(q.pos == p && q.st == .issued)
        let (e, new) := st.1.enterQueue ((x.parts.filter fun q => q.pos == p && q.st == .issued).map out)
        let ps := x.parts.map fun q => ((old ++ new).find? (·.id == q.id)).getD q
        (e, st.2 ++ [{ x with parts := ps }])
      else (st.1, st.2 ++ [x])) (e, [])
    e.setGlean { g with elems := xs }
  let e := e.gln.gleans.foldl one e
  e.giveUp fun u dst => match u with
    | .read _ _ _ => dst == p
    | _ => false

/-! ### GLEAN (R126, R127) -/

/-- The operand-range checks of a GLEAN (R127). `len` is L, `w` the window. -/
def gleanBad (g : Glean) (len cnt : Nat) (de : Str) : Bool :=
  let f := g.fw
  let ix := strOf g.idxD
  let mis (k : Nat) : Bool := (f.sk != 0 && k % f.gs != 0) || (f.rot != 0 && k % rotSize f.rot != 0)
  decide (len ≤ g.eFirst) || decide (len < g.eFirst + cnt) || mis g.eFirst || (mis cnt && g.eFirst + cnt != len) ||
    (g.out && g.bags) || (g.out && (de.len != cnt || decide (de.rows < ix.rows))) ||
    (g.wts && decide ((strOf g.wtD).rows < ix.rows)) ||
    (g.bags && (decide ((strOf g.offD).rows < 2) || decide (2 ^ 32 + 1 < (strOf g.offD).rows)))

/-- The instruction GLEAN. -/
def Eng.gleanIssue (e : Eng) (d : Fin 8) (w : IWord) (ext : W64) : Eng :=
  let out := w.imm.getLsbD 0
  let wts := w.imm.getLsbD 1
  let bags := w.imm.getLsbD 2
  let src := w.imm.getLsbD 3
  let db := xdesc ext 0
  let dc := xdesc ext 1
  let dd := xdesc ext 2
  let de := xdesc ext 3
  let used := (bags || dc == 0) && (wts || dd == 0) && (out || de == 0) && fld ext.toNat 42 22 == 0
  e.insn d (iuses w true false true true (0xF + 2 ^ 36) && used) [w.sb] fun x =>
    let row := (x.desc w.desc).w
    let roles := if src then [1, 2] else if (tabOf row).iw = 0 then [1] else [2]
    let os : List Opnd := (if src then [{ reg := w.desc, aux := false, roles := [0] }] else []) ++
      [{ reg := db, aux := false, roles := roles }] ++ (if bags then [{ reg := dc, aux := false, roles := [3] }] else []) ++
      (if wts then [{ reg := dd, aux := false, roles := [4] }] else []) ++
      (if out then [{ reg := de, aux := true, roles := [0] }] else [])
    match x.refuses (if src then [] else [w.desc]) os with
    | some (c, r) => e.progFault d c r
    | none =>
      let len := if src then (strOf row).len else (tabOf row).len
      let eFirst := fld ext.toNat 16 13
      let cnt := if fld ext.toNat 29 13 = 0 then len - eFirst else fld ext.toNat 29 13
      let mk (h : Hdr) : Glean :=
        { h := h, root := h.key.ticket, out := out, wts := wts, bags := bags, src := src, ff := w.imm.getLsbD 36, srcD := row,
          idxD := (x.desc db).w, offD := if bags then (x.desc dc).w else 0, wtD := if wts then (x.desc dd).w else 0,
          outD := if out then (x.desc de).w else 0, eFirst := eFirst, w := cnt, next := 0, bag := 0, bagEnd := none,
          bagOffs := [], total := none, elems := [], consumer := none, phase := .active, fault := none, iFault := none,
          skip := [], fix := [], redo := [], denied := none, lost := none, flags := 0,
          dead := false }
      if gleanBad (mk (x.hdr { dir := d, ticket := 0 } 0)) len cnt (strOf (x.desc de).w) then e.progFault d 0x0B 0
      else e.issue e.hsGlean d w x fun e h => e.onGln fun q =>
        -- a GLEAN that retired without a consumer is forgotten once its slot is taken again
        { q with gleans := (q.gleans.filter fun g => g.phase != .retired || (g.consumer.isSome && !e.consumerGone g) ||
            ((e.dir g.h.key.dir).slot g.h.key.ticket).any fun t => t.ticket == g.h.key.ticket) ++ [mk h] }

/-- GLEAN. -/
def execGlean (d : Fin 8) (w : IWord) (ext : W64) (s : State) : Host.Outcome State Fault Refusal :=
  .next (s.live fun e => e.gleanIssue d w ext)

/-! ### Resumption (R120, R121) -/

/-- RESUME, SKIPEL and FIXEL: the shown stop is resolved by a continuation with a ticket of its own. It stalls while the gleaners'
queue for the director is full (R107). -/
def Eng.resumeStop (e : Eng) (d : Fin 8) (w : IWord) (f : Glean → Nat → Glean) : Eng :=
  match (e.dir d).stops with
  | [] => e.progFault d 0x0D 0
  | q :: rest =>
    let old : Key := { dir := d, ticket := q.ticket }
    match e.enqueue e.hsGlean d w.dst with
    | (e, none) => e
    | (e, some k) =>
      let link (x : Dir) : Dir :=
        { x with stops := rest, slots := match x.slot q.ticket with
            | some t => if t.ticket = q.ticket then
                x.slots.set none (q.ticket.toNat % 256) (some { t with next := some k.ticket }) else x.slots
            | none => x.slots }
      let e := e.onDir d fun x => (link x).step 8
      e.onGln fun z => { z with gleans := z.gleans.map fun g =>
        if g.h.key == old then f { g with h := { g.h with key := k }, phase := .active } q.elem.toNat else g }

/-- RESUME: the continuation starts at the stopped element, unchanged. -/
def execResume (d : Fin 8) (w : IWord) (s : State) : Host.Outcome State Fault Refusal :=
  .next (s.live fun e => e.insn d (iuses w true false false false 0) [] fun _ => e.resumeStop d w fun g _ => g)

/-- SKIPEL: the stopped element is treated as padding, and recorded as skipped. -/
def execSkipel (d : Fin 8) (w : IWord) (s : State) : Host.Outcome State Fault Refusal :=
  .next (s.live fun e => e.insn d (iuses w true false false false 0) [] fun _ =>
    e.resumeStop d w fun g p => { g with skip := p :: g.skip })

/-- FIXEL: the stopped element's index is replaced, at the width of the index stream. -/
def execFixel (d : Fin 8) (w : IWord) (s : State) : Host.Outcome State Fault Refusal :=
  .next (s.live fun e => e.insn d (iuses w true true false false 0) [w.sa] fun x =>
    let a := x.get w.sa
    e.resumeStop d w fun g p =>
      { g with fix := (p, if (strOf g.idxD).role = 1 then (a.setWidth 32).setWidth 64 else a) :: g.fix })

/-! ### UNIQ (R133) -/

/-- The instruction UNIQ. -/
def Eng.uniqIssue (e : Eng) (d : Fin 8) (w : IWord) (ext : W64) : Eng :=
  let db := xdesc ext 0
  let dc := xdesc ext 1
  let dd := xdesc ext 2
  e.insn d (iuses w true true true true 0 && fld ext.toNat 12 52 == 0) [w.sa, w.sb] fun x =>
    let role := if (tabOf (x.desc w.desc).w).iw = 0 then 1 else 2
    match x.refuses [w.desc] [⟨db, false, [role]⟩, ⟨dc, false, [role]⟩, ⟨dd, false, [1]⟩] with
    | some (c, r) => e.progFault d c r
    | none =>
      let n := (strOf (x.desc db).w).rows
      if 1048576 < n ∨ (strOf (x.desc dc).w).rows < n ∨ (strOf (x.desc dd).w).rows < n ∨ (x.get w.sa).toNat % 8 ≠ 0 then
        e.progFault d 0x0B 0
      else e.issue e.hsUniq d w x fun e h =>
        let j : UniqJob := { h := h, tab := (x.desc w.desc).w, inp := (x.desc db).w, out := (x.desc dc).w,
                             inv := (x.desc dd).w, cnt := x.get w.sa }
        e.onGln fun q => { q with uniqs := q.uniqs ++ [j] }

/-- UNIQ. -/
def execUniq (d : Fin 8) (w : IWord) (ext : W64) (s : State) : Host.Outcome State Fault Refusal :=
  .next (s.live fun e => e.uniqIssue d w ext)

/-- The unique values in order of first occurrence, and the inverse list (R133). `keys` are the keys of `uniq`. -/
def uniqLists (t : Tab) : List Nat → List Nat → List Nat → List Nat → List Nat × List Nat
  | [], _, uniq, inv => (uniq, inv)
  | x :: xs, keys, uniq, inv =>
    if t.padEn ∧ x = t.padRow then uniqLists t xs keys uniq (inv ++ [0xFFFFFFFF])
    else
      let k := t.hashRow x
      match keys.findIdx? (· == k) with
      | some i => uniqLists t xs keys uniq (inv ++ [i])
      | none => uniqLists t xs (keys ++ [k]) (uniq ++ [x]) (inv ++ [keys.length])

/-- UNIQ_RETIRE: the lists are built and written, or a stream fault ends it; `r` answers its reads and `wr` its writes, which are
acknowledged by then (R248). -/
def Eng.uniqRetire (e : Eng) (k : Key) (r wr : ReadRes) : Eng :=
  match e.gln.uniqs.find? (·.h.key == k) with
  | none => e
  | some j =>
    let done (e : Eng) (st : Byte) (fl : BitVec 4 := 0) : Eng :=
      (e.onGln fun q => { q with uniqs := q.uniqs.filter (·.h.key != k) }).retire k st fl
    match e.turn e.hsUniq j.h with
    | .wait => e
    | .dead => done e 4
    | .go =>
      let s := strOf j.inp
      let (e, ok) := e.checkStr j.h s true false
      if !ok then done e 3
      else if e.answer s.base s.span r ≠ .ok then done (e.answered s.base s.span) 3 0b0100
      else
        let (e, bs) := e.read false s.base s.span
        let xs := (List.range s.rows).map fun i => le bs (i * s.item) s.item
        let (uq, inv) := uniqLists (tabOf j.tab) xs [] [] []
        let so := strOf j.out
        let si := strOf j.inv
        let (e, ok) := e.check 4 j.h.master false true so.base (uq.length * so.item)
        let (e, ok) := if ok then e.check 4 j.h.master false true si.base (inv.length * 4) else (e, false)
        let (e, ok) := if ok then e.check 4 j.h.master false true j.cnt.toNat 8 else (e, false)
        let outs : List (Nat × Nat) := [(so.base, uq.length * so.item), (si.base, inv.length * 4), (j.cnt.toNat, 8)]
        if !ok then done e 3
        else if outs.any fun x => e.answer x.1 x.2 wr != .ok then
          done (outs.foldl (fun e x => e.answered x.1 x.2) e) 3 0b0100
        else
          let put (e : Eng) (a : Nat) (bs : List Byte) : Eng := e.putBytes false a bs
          let e := put e so.base (uq.flatMap (leBytes so.item))
          let e := put e si.base (inv.flatMap (leBytes 4))
          let e := put e j.cnt.toNat (leBytes 8 uq.length)
          let cm := some (j.h.reel, j.h.count)
          let e := e.onHc fun c => ((c.touch cm so.base (uq.length * so.item)).touch cm si.base (inv.length * 4)).touch cm
            j.cnt.toNat 8
          done e 0

/-- UNIQ_RETIRE. -/
def execUniqRetire (k : Key) (r wr : ReadRes) (s : State) : Host.Outcome State Fault Refusal :=
  .next (s.live fun e => e.uniqRetire k r wr)

/-! ### Registers -/

/-- Requests in retry queues (LE_GLN_HELD). -/
def Eng.heldCount (e : Eng) : Nat :=
  (e.gln.gleans.map fun g => (g.elems.map fun x => (x.parts.filter fun p => p.isHeld && !p.due).length).sum).sum

/-- A 32-bit read of a gleaner register. -/
def Eng.glnRd (e : Eng) (off : Nat) : Nat :=
  let g := e.gln
  match off with
  | 0x000 => g.ctrs.read
  | 0x004 => b2n (g.gleans.all (fun x => x.phase == .retired || x.phase == .stopped) && g.uniqs.isEmpty && g.serve.isEmpty) + 2 * b2n g.limitHit +
      4 * b2n g.serveDenied
  | 0x008 => g.retryLimit.toNat
  | 0x00C => g.peerMaster.val
  | 0x010 => e.heldCount
  | 0x014 => e.slotsAll
  | _ => if 0x018 ≤ off ∧ off < 0x048 then g.ctrs.snapAt ((off - 0x018) / 8) else 0

/-- A write of a gleaner register. -/
def glnWr (g : Gln) (off v : Nat) : Gln :=
  match off with
  | 0x000 => { g with ctrs := g.ctrs.write 1 v }
  | 0x004 => { g with limitHit := g.limitHit && !bit v 1, serveDenied := g.serveDenied && !bit v 2 }
  | 0x008 => { g with retryLimit := BitVec.ofNat 20 v }
  | 0x00C => { g with peerMaster := ⟨v % 64, Nat.mod_lt _ (by decide)⟩ }
  | _ => g

end Sys2Proof.Machine
end

