-- ==== Sys2Proof/Machine/Pooling.lean ====
section
/-! DEFINITION. The windrow (R146 to R175): POOL, the placement of bags, the entry of records, accumulation passes and
replays, drains, and retirement. -/

namespace Sys2Proof.Machine

open Sys2Proof

/-! ### The exponential of R162 -/

/-- Fixed-point one of the interval arithmetic: 2^400. -/
def expOne : Nat := 2 ^ 400

/-- The series of e^(-x / 2^400), alternating from its term `t` of index `i`. -/
def expSeries (x : Nat) : Nat → Nat → Nat → Int
  | 0, _, _ => 0
  | n + 1, i, t => (t : Int) - expSeries x n (i + 1) (t * x / (expOne * (i + 1)))

/-- Squares an interval `n` times, rounding outwards. -/
def expSquare : Nat → Nat × Nat → Nat × Nat
  | 0, b => b
  | n + 1, (lo, hi) => expSquare n (lo * lo / expOne, (hi * hi + expOne - 1) / expOne)

/-- Bounds of e^(-y) × 2^400 for 0 < y ≤ 104: the argument is divided by 1,024, the series bounded, and squared ten
times. The margin covers the series' rounding of each of its 60 terms and its remainder. -/
def expBounds (y : Rat) : Nat × Nat :=
  let r := y.num.toNat * expOne / (y.den * 1024)
  expSquare 10 ((expSeries (r + 1) 60 0 expOne - 200).toNat, (expSeries r 60 0 expOne + 200).toNat)

/-- exp_nta(t) for t ≤ 0 (R162): the encoding both bounds have. Below -104 it underflows. -/
def expNta (t : Rat) : XVal :=
  if t = 0 then .fin false 1
  else if t < -104 then xzero
  else
    let (lo, hi) := expBounds (-t)
    let enc (n : Nat) : W32 := to32 (.fin false (mkRat n expOne))
    of32 (if enc lo = enc hi then enc lo else Config.expBoundary t.num t.den)

/-! ### Coefficients (R153, R161) -/

/-- The position contributes (R153). -/
def Rec.contributes (r : Rec) : Bool := !withheld r.outc

/-- The cases of a soft maximum (R161). -/
inductive Soft where
  | nan | inf (n : Nat) | noMass | scores (m : Rat)
  deriving DecidableEq, Repr

/-- The case that contributing positions' scores give (R161). -/
def softOf (rs : List Rec) : Soft :=
  let ss := (rs.filter Rec.contributes).map fun r => of32 r.weight
  let fins := (ss.filter XVal.isFin).map XVal.toRat
  if ss.any XVal.isNan then .nan
  else if ss.any (· == .inf false) then .inf (ss.countP (· == .inf false))
  else match fins with
    | [] => .noMass
    | s :: r => .scores (r.foldl max s)

/-- The soft-maximum coefficient of a score. -/
def Soft.coef (c : Soft) (s : XVal) : XVal :=
  match c, s with
  | .inf _, .inf false => .fin false 1
  | .scores m, .fin .. => expNta (s.toRat - m)
  | _, _ => xzero

/-- Records in position order. -/
def byPos (rs : List Rec) : List Rec := rs.mergeSort fun a b => decide (a.pos ≤ b.pos)

/-- The records whose scores count (R161, R162): those of the scan delivery where there are two. -/
def Bag.scored (b : Bag) : List Rec := byPos (if b.twice && b.redone then b.scan else b.recs)

/-- The coefficient of a record of a bag under an op. -/
def Bag.coef (b : Bag) (op : Nat) (c : Soft) (r : Rec) : XVal :=
  if op = 1 then of32 r.weight
  else if op = 5 then
    match (if b.twice && b.redone then b.scan.find? fun s => s.pos == r.pos && s.contributes else some r) with
    | some s => c.coef (of32 s.weight)
    | none => xzero
  else .fin false 1

/-- A term of a bag's accumulators: position, coefficient, values. -/
structure Term where
  pos : Nat
  c   : XVal
  xs  : List XVal

/-- The terms of a bag in position order (R153): a coefficient of zero adds nothing. -/
def Bag.terms (b : Bag) (op : Nat) (g : Glean) : List Term :=
  let c := softOf b.scored
  ((byPos b.recs).filter Rec.contributes).filterMap fun r =>
    match b.coef op c r with
    | .fin s m => if m = 0 then none else some { pos := r.pos, c := .fin s m, xs := g.values r.data }
    | k => some { pos := r.pos, c := k, xs := g.values r.data }

/-! ### Exact accumulation (R154 to R157) -/

/-- The input exponent (R154): of the product, or of the value in soft maximum; none for an input that is zero or not
finite. -/
def inExp (soft : Bool) (c x : XVal) : Option Int :=
  match c.mul x with
  | .fin _ y => if y = 0 then none else some (flog2 (if soft then (match x with
      | .fin _ m => m
      | _ => y) else y))
  | _ => none

/-- The larger of two exponents. -/
def maxExp : Option Int → Option Int → Option Int
  | some a, some b => some (max a b)
  | some a, none => some a
  | none, b => b

/-- The starting exponents of a bag's accumulators (R154). -/
def startAccs (soft : Bool) (w : Nat) (pre : List XVal) (ts : List Term) : List AccSt :=
  let one : XVal := .fin false 1
  let zero : List (Option Int) := if pre.isEmpty then List.replicate w none else pre.map (inExp false one)
  let es := ts.foldl (fun es t => List.zipWith (fun e x => maxExp e (inExp soft t.c x)) es t.xs) zero
  es.map fun e => { e := match e with
    | some m => m + 8
    | none => 0 }

/-- Adds one input to an accumulator (R155). -/
def AccSt.feed (a : AccSt) (y : XVal) : AccSt :=
  match y with
  | .nan _ => { a with nan := true }
  | .inf false => { a with pinf := true }
  | .inf true => { a with ninf := true }
  | .fin s m =>
    let n : Int := roundNta (m / pow2 (a.e - 64))
    { a with s := if s then a.s - n else a.s + n }

/-- One accumulation pass at the exponents held (R155). -/
def passExact (accs : List AccSt) (pre : List XVal) (ts : List Term) : List AccSt :=
  let zero := accs.map fun a => { e := a.e : AccSt }
  let first := if pre.isEmpty then zero else List.zipWith AccSt.feed zero pre
  let all := ts.foldl (fun as t => List.zipWith (fun a x => a.feed (t.c.mul x)) as t.xs) first
  all.map fun a => { a with ovf := decide (a.s < -(2 ^ 79)) || decide (a.s > 2 ^ 79 - 1) }

/-- The real result of an accumulator (R156, R157). -/
def AccSt.value (a : AccSt) : XVal :=
  if a.nan || (a.pinf && a.ninf) then qnan
  else if a.pinf then .inf false
  else if a.ninf then .inf true
  else if a.ovf then .inf (decide (a.s < 0))
  else XVal.ofRat ((a.s : Rat) * pow2 (a.e - 64))

/-! ### FP32 mode (R158, R169) -/

/-- One FP32 addition; a sum of finite values that rounds out of range is an overflow. -/
def AccSt.add32 (a : AccSt) (y : XVal) : AccSt :=
  let r := fadd a.fp y
  { a with fp := r, ovf := a.ovf || (a.fp.isFin && y.isFin && !r.isFin) }

/-- A segment's sums: its terms in position order. -/
def segment32 (start : List AccSt) (ts : List Term) : List AccSt :=
  ts.foldl (fun as t => List.zipWith (fun a x => a.add32 ((t.c.mul x).r32)) as t.xs) start

/-- All the sums of a bag: segment by segment, then the segments' sums in order. DESIGN CHOICE, log 210: a bag without contributing terms
keeps its preload as it is, a NaN with its sign. -/
def pass32 (w n seg : Nat) (pre : List XVal) (ts : List Term) : List AccSt :=
  let zero : List AccSt := List.replicate w {}
  let first := if pre.isEmpty then zero else pre.map fun x => { fp := x.r32 : AccSt }
  let segs := if seg = 0 then 1 else max 1 ((n + seg - 1) / seg)
  let part (i : Nat) : List Term := ts.filter fun t => seg == 0 || t.pos / seg == i
  (List.range (segs - 1)).foldl (fun as i =>
    List.zipWith (fun a b => { a.add32 b.fp with ovf := a.ovf || b.ovf || (a.add32 b.fp).ovf }) as
      (segment32 zero (part (i + 1)))) (segment32 first (part 0))

/-- FP32 Z (R158): the coefficients' sum in position order. -/
def z32 (cs : List XVal) : XVal := cs.foldl fadd xzero

/-! ### Max, min, top-k (R163, R164) -/

/-- a comes before b in the order of R163. -/
def ordLt (a b : XVal) : Bool :=
  a.lt b || (match a, b with
    | .fin true x, .fin false y => x == 0 && y == 0
    | _, _ => false)

/-- Folds a value of a position into max or min: NaN stays, and is positive (R29). -/
def foldBest (isMax : Bool) (l : List (XVal × Nat)) (x : XVal) (p : Nat) : List (XVal × Nat) :=
  match l with
  | [] => [(if x.isNan then qnan else x, p)]
  | (y, q) :: _ =>
    if y.isNan then [(y, q)] else if x.isNan then [(qnan, p)]
    else if (if isMax then ordLt y x else ordLt x y) then [(x, p)] else [(y, q)]

/-- Folds a value that is not NaN into a top-k list. -/
def foldTop (k : Nat) (l : List (XVal × Nat)) (x : XVal) (p : Nat) : List (XVal × Nat) :=
  let before := l.takeWhile fun (y, q) => !(ordLt y x || (y == x && decide (p < q)))
  (before ++ (x, p) :: l.drop before.length).take k

/-! ### POOLs, bags and bales -/

/-- Changes the windrow block. -/
def Eng.onWr (e : Eng) (f : Wr → Wr) : Eng := { e with wr := f e.wr }
/-- Counts in a windrow counter (R174). -/
def Eng.countWr (e : Eng) (i n : Nat) : Eng := e.onWr fun w => { w with ctrs := w.ctrs.add i n }
/-- The POOL of a ticket. -/
def Eng.pool (e : Eng) (k : Key) : Option PoolJob := e.wr.pools.find? (·.h.key == k)
/-- Replaces a POOL. -/
def Eng.setPool (e : Eng) (j : PoolJob) : Eng :=
  e.onWr fun w => { w with pools := w.pools.map fun p => if p.h.key == j.h.key then j else p }
/-- The linked GLEAN of a consumer (R130). -/
def Eng.linked (e : Eng) (k : Key) : Option Glean := e.gln.gleans.find? (·.consumer == some k)
/-- Replaces a bag of a POOL. -/
def PoolJob.setBag (j : PoolJob) (b : Bag) : PoolJob := { j with bags := j.bags.map fun x => if x.num == b.num then b else x }
/-- The op retains its records (R146). -/
def PoolJob.retains (j : PoolJob) : Bool := j.op ≤ 2 || j.op == 5
/-- Slices of a bag (R146). -/
def PoolJob.slices (j : PoolJob) : Nat := (if j.op = 6 then j.k else 1) * ((j.w + 255) / 256)
/-- Bytes of a half of the input store (R147). -/
def halfStore : Nat := 262144

/-- A bale. -/
def Wr.bale (w : Wr) (lane bale : Nat) : Bale := w.bales.get {} (2 * lane + bale)
/-- Sets a bale. -/
def Wr.setBale (w : Wr) (lane bale : Nat) (b : Bale) : Wr := { w with bales := w.bales.set {} (2 * lane + bale) b }

/-- A bag in a bale. -/
def Eng.bagIn (e : Eng) (x : Key × Nat) : Option (PoolJob × Bag) :=
  (e.pool x.1).bind fun j => (j.bags.find? (·.num == x.2)).map (j, ·)
/-- The bags of a bale. -/
def Eng.bagsIn (e : Eng) (b : Bale) : List (PoolJob × Bag) := b.bags.filterMap e.bagIn

/-- Slices of a bale that are not retired (R245, R173). -/
def Swd.baleSlices (w : Swd) (lane bale : Nat) : Nat :=
  64 - (w.defects.filter fun d => d.kind == 2 && d.unit == lane && d.st == 3 && d.index / 64 == bale).length

/-- The bale takes a bag of these slices and store bytes (R146 to R148). A half that a long bag holds takes no other. -/
def Eng.baleRoom (e : Eng) (lane bale : Nat) (slices store : Nat) : Bool :=
  let b := e.wr.bale lane bale
  let xs := e.bagsIn b
  b.st == .filling && !(xs.any (·.2.long)) &&
    decide ((xs.map fun x => x.1.slices).sum + slices ≤ e.swd.baleSlices lane bale) &&
    decide ((xs.map fun x => if x.1.retains then x.2.n * x.1.q else 0).sum + store ≤ halfStore)

/-- A stop left a bag of the bale open (R172). -/
def Eng.openStop (e : Eng) (b : Bale) : Bool :=
  (e.bagsIn b).any fun x => x.2.phase == .filling && (e.linked x.1.h.key).any (·.phase == .stopped)

/-- The bale of a lane that would take the bag (R148, R149): the one that already holds bags first, then the other; a bale that a stop
left a bag open in takes none, so the lane takes no further bag once its other bale is full (R172). DESIGN CHOICE, log 219: the other
bale begins to fill as soon as the first has no room for a bag, and a later smaller bag still enters the first. -/
def Eng.laneTakes (e : Eng) (lane : Nat) (slices store : Nat) : Option (Fin 2) :=
  let first : Fin 2 := if (e.wr.bale lane 0).bags.isEmpty && !(e.wr.bale lane 1).bags.isEmpty then 1 else 0
  [first, 1 - first].find? fun b => !e.openStop (e.wr.bale lane b) && e.baleRoom lane b slices store

/-- A free half of a lane (R168). -/
def Eng.freeHalf (e : Eng) (lane : Nat) (slices : Nat) : Option (Fin 2) :=
  ([0, 1] : List (Fin 2)).find? fun b => (e.wr.bale lane b).bags.isEmpty && e.baleRoom lane b slices 0

/-- The lanes in rotating order. -/
def Wr.lanes (w : Wr) : List (Fin 64) := (List.range 64).map fun i => ⟨(w.nextLane + i) % 64, Nat.mod_lt _ (by decide)⟩

/-! ### The instruction POOL (R150, R151) -/

/-- The operand-range checks of a POOL (R151). -/
def poolBad (j : PoolJob) (wts : Bool) : Bool :=
  let out := strOf j.outD
  let f := out.fmt
  let u (n : Nat) : Bool := (f.sk != 0 && n % f.gs != 0) || (f.rot != 0 && n % rotSize f.rot != 0)
  let r := (j.w + 255) / 256
  decide (out.rows < j.a + j.nBags) ||
    (if j.op ≤ 5 then decide (out.len < j.oFirst + j.w) else out.len != j.k * j.w) ||
    u j.oFirst || (u j.w && j.oFirst + j.w != out.len) ||
    (j.op == 7 && f.rot != 0 && j.w % rotSize f.rot != 0) ||
    (j.op == 6 && (decide (64 < j.k * r) || !([Fmt.fp32, .bf16, .fp16, .e5m2].contains f.fmt) || f.rot != 0 ||
      decide ((strOf j.posD).rows < (j.a + j.nBags) * j.k * j.w))) ||
    ((j.op == 1 || j.op == 5) && !wts) ||
    (j.pre != 0 && (decide (1 < j.op) || (strOf j.preD).len != j.w || (j.pre == 2 && decide ((strOf j.preD).rows < j.nBags)))) ||
    (decide (6 ≤ j.op) && (j.k == 0 || (j.op == 6 && decide (64 < j.k)) || decide (4096 < j.k))) ||
    out.aux % 8 != 0

/-- The instruction POOL. -/
def Eng.poolIssue (e : Eng) (d : Fin 8) (w : IWord) (ext : W64) : Eng :=
  let i := w.imm.toNat
  let op := fld i 0 4
  let fp := bit i 4
  let pre := fld i 5 2
  let k := fld i 7 13
  let oFirst := fld i 20 12
  let db := xdesc ext 0
  let dc := xdesc ext 1
  let ok := decide (op < 8) && (!fp || op ≤ 2 || op == 5) && decide (pre < 3) && (decide (6 ≤ op) || k == 0) &&
    (decide (op < 6) || oFirst == 0) && fld i 32 5 == 0 && (op == 6 || db == 0) && (pre != 0 || dc == 0) &&
    fld ext.toNat 8 56 == 0
  e.insn d (iuses w true true true true (2 ^ 37 - 1) && ok) [w.sa, w.sb] fun x =>
    let os : List Opnd := [⟨w.desc, true, [0]⟩] ++ (if op = 6 then [⟨db, false, [1]⟩] else []) ++
      (if pre ≠ 0 then [⟨dc, false, [0]⟩] else [])
    match x.refuses [] os with
    | some (c, r) => e.progFault d c r
    | none =>
      let t : W32 := (x.get w.sb).setWidth 32
      let live := w.sb != 0 && (match x.slot t with
        | some q => q.ticket == t
        | none => false)
      match (if live then (e.gleanOf d t).filter fun g => !g.out && g.consumer.isNone else none) with
      | none => e.progFault d 0x0B 0
      | some g =>
        let mk (h : Hdr) : PoolJob :=
          { h := h, op := op, fp32 := fp, pre := pre, k := k, oFirst := oFirst, a := (x.get w.sa).toNat,
            outD := (x.desc w.desc).w, posD := if op = 6 then (x.desc db).w else 0,
            preD := if pre ≠ 0 then (x.desc dc).w else 0, fill := e.wr.fill, w := g.w,
            q := (8 + g.fw.rowBytes g.w + 7) / 8 * 8, nBags := g.nBags, bags := [], next := 0, flags := 0, fault := false,
            nEl := 0, nClip := 0, ovf := [] }
        if poolBad (mk (x.hdr { dir := d, ticket := 0 } 0)) g.wts then e.progFault d 0x0B 0
        else e.issue e.hsPool d w x fun e h =>
          (e.setGlean { g with consumer := some h.key }).onWr fun z => { z with pools := z.pools ++ [mk h] }

/-- POOL. -/
def execPool (d : Fin 8) (w : IWord) (ext : W64) (s : State) : Host.Outcome State Fault Refusal :=
  .next (s.live fun e => e.poolIssue d w ext)

/-! ### Placing bags (R148, R160, R168) -/

/-- The POOL works (R110, R152): it has not faulted, and its GLEAN has not retired fault or aborted. -/
def Eng.poolGo (e : Eng) (j : PoolJob) (g : Glean) : Bool := !j.fault && !g.dead && !e.busy 2

/-- Reads a bag's preload row (R160): the values in the table's rotation, or a failure with whether it was uncorrectable. -/
def Eng.preload (e : Eng) (j : PoolJob) (g : Glean) (b : Nat) (r : ReadRes) : Eng × Except Bool (List XVal) :=
  if j.pre = 0 then (e, .ok [])
  else
    let s := strOf j.preD
    let a := s.addr (if j.pre = 1 then 0 else b)
    match e.check 4 j.h.master true false a s.item with
    | (e, false) => (e, .error false)
    | (e, true) =>
      let r := e.answer a s.item r
      let e := e.answered a s.item
      if r ≠ .ok then (e, .error true)
      else
        let (e, bs) := e.read false a s.item
        (e, .ok (convert s.fmt.rot g.fw.rot (s.fmt.decodeRow s.len bs)))

/-- A POOL meets an instruction fault (R152). -/
def Eng.poolFault (e : Eng) (j : PoolJob) (uncorr : Bool) : Eng :=
  e.setPool { j with fault := true, flags := j.flags ||| (if uncorr then 0b0100 else 0) }

/-- The halves a bag would take: one with room, or for a long bag free halves of distinct lanes (R148, R168). -/
def Eng.places (e : Eng) (j : PoolJob) (n seg : Nat) (long : Bool) : Option (List (Fin 64 × Fin 2)) :=
  let ls := e.wr.lanes
  if long then
    let free := ls.filterMap fun (l : Fin 64) => (e.freeHalf l j.slices).map fun b => (l, b)
    let segs := (n + seg - 1) / seg
    if segs ≤ 32 then (if segs ≤ free.length then some (free.take segs) else none)
    else if free.isEmpty then none
    else some (free.take 32)
  else
    (ls.findSome? fun (l : Fin 64) =>
      (e.laneTakes l j.slices (if j.retains then n * j.q else 0)).map fun b => (l, b)).map fun x => [x]

/-- BAG_PLACE: the POOL's next bag is dealt to a lane (R148). -/
def Eng.bagPlace (e : Eng) (k : Key) (r : ReadRes) : Eng :=
  match e.pool k, e.linked k with
  | some j, some g =>
    if !e.poolGo j g || (e.wr.waitLong.isSome && e.wr.waitLong != some k) then e
    else match (if j.next < j.nBags then g.bagAt j.next else none) with
      | none => e
      | some (lo, hi) =>
        let n := hi - lo
        let long := j.retains && decide (halfStore < n * j.q)
        let seg := if long then halfStore / j.q else n
        match e.places j n seg long with
        | none => if long then e.onWr fun w => { w with waitLong := some k } else e
        | some ps =>
          match e.preload j g j.next r with
          | (e, .error u) => e.poolFault j u
          | (e, .ok pre) =>
            let segs := if long then (n + seg - 1) / seg else 1
            let b : Bag :=
              { num := j.next, first := lo, n := n, places := ps, seg := seg, long := long,
                twice := decide (32 < segs) && (!j.fp32 || j.op == 5), phase := if n = 0 then .entered else .filling,
                entered := 0, redone := false, recs := [], scan := [], pre := pre, best := List.replicate j.w [],
                slots := [], d := 0, nanExcl := 0, flags := 0, accs := [], replays := 0, bad := false }
            let e := e.setPool { j with bags := j.bags ++ [b], next := j.next + 1 }
            let e := ps.foldl (fun e p => e.onWr fun w =>
              let old := w.bale p.1 p.2
              w.setBale p.1 p.2 { old with bags := old.bags ++ [(k, b.num)] }) e
            let last := (ps.getLast?.map (·.1.val)).getD 0
            (if long then e.countWr 2 1 else e).onWr fun w => { w with nextLane := (last + 1) % 64, waitLong := none }
  | _, _ => e

/-- BAG_PLACE, as the row gives it. -/
def execBagPlace (k : Key) (r : ReadRes) (s : State) : Host.Outcome State Fault Refusal :=
  .next (s.live fun e => e.bagPlace k r)

/-! ### Records enter (R147, R153, R163 to R165, R171) -/

/-- Status bits 3 to 8 of a position's outcome (R171). -/
def outStatus (outc : Byte) : BitVec 12 := BitVec.ofNat 12 (fld outc.toNat 1 6 * 8)

/-- Folds one record into a bag. -/
def Bag.enter (b : Bag) (j : PoolJob) (g : Glean) (x : Elem) : Bag :=
  let p := x.pos - b.first
  let live := !withheld x.outc
  let data := if live then g.gathered x else []
  let b := { b with flags := b.flags ||| outStatus x.outc, entered := b.entered + 1, d := if live then b.d + 1 else b.d }
  let b := { b with phase := if b.entered = b.n then .entered else b.phase }
  if j.retains then
    let rec' : Rec := { pos := p, outc := x.outc, weight := x.weight, data := data }
    { b with recs := b.recs ++ [rec'] }
  else if !live then b
  else if j.op = 7 then (if p < j.k then { b with slots := b.slots ++ [(p, g.values data)] } else b)
  else
    let xs := convert g.fw.rot 0 (g.values data)
    if j.op = 6 then
      { b with best := List.zipWith (fun l v => if v.isNan then l else foldTop j.k l v p) b.best xs,
               nanExcl := min (b.nanExcl + xs.countP XVal.isNan) (2 ^ 24 - 1) }
    else { b with best := List.zipWith (fun l v => foldBest (j.op == 3) l v p) b.best xs }

/-- RECORD_ENTRY: the next element of the GLEAN that is below the frontier, and whose bag has its place, enters (R130,
R135). -/
def Eng.recordEntry (e : Eng) (k : Key) : Eng :=
  match e.pool k, e.linked k with
  | some j, some g =>
    if !e.poolGo j g || g.phase != .active then e
    else match g.ready with
      | none => e
      | some x =>
        match j.bags.find? fun b => b.num == x.bag && b.phase == .filling && b.redone == x.redo with
        | none => e
        | some b => (e.setGlean (g.take x)).setPool (j.setBag (b.enter j g x))
  | _, _ => e

/-! ### Accumulation (R149, R154 to R158, R161, R168, R169) -/

/-- The bale is the home of the bag. -/
def Bag.homeAt (b : Bag) (lane : Fin 64) (bale : Fin 2) : Bool := b.places.head? == some (lane, bale)

/-- Asks the GLEAN for the second delivery of a bag (R168): its records are gathered again. -/
def Eng.redeliver (e : Eng) (j : PoolJob) (b : Bag) : Eng :=
  match e.linked j.h.key with
  | none => e
  | some g =>
    (e.setGlean { g with redo := g.redo ++ [(b.num, b.first, b.first + b.n)] }).countWr 3 b.n

/-- A bag's pass starts: its exponents are fixed (R154), and a bag that was scanned is delivered again (R168). DESIGN CHOICE, log 43: its
status bits (R171) keep the outcomes of the first delivery, and the second adds its own. -/
def Eng.startBag (e : Eng) (k : Key) (num : Nat) : Eng :=
  match e.bagIn (k, num), e.linked k with
  | some (j, b), some g =>
    if !j.retains || b.phase != .entered then e
    else
      let accs := if j.fp32 then [] else startAccs (j.op == 5) j.w b.pre (b.terms j.op g)
      if b.twice then
        let left := b.recs.map fun r => { r with data := [] }
        let b := { b with accs := accs, scan := left, recs := [], d := 0, entered := 0, redone := true, phase := .filling }
        (e.setPool (j.setBag b)).redeliver j b
      else e.setPool (j.setBag { b with accs := accs })
  | _, _ => e

/-- BALE_ACCUMULATION_START: all the bale's records have entered and the lane's other bale has drained (R149). While a stop
leaves a bag open in the other bale, this one only fills (R172); DEDUCED, log 195: it does not accumulate either, since the lane
would else take further bags. -/
def Eng.baleStart (e : Eng) (lane : Fin 64) (bale : Fin 2) : Eng :=
  let b := e.wr.bale lane bale
  let xs := e.bagsIn b
  if b.st != .filling || xs.isEmpty || !(xs.all fun x => x.2.phase == .entered) ||
      (e.wr.bale lane (1 - bale)).st != .filling || e.openStop (e.wr.bale lane (1 - bale)) || e.busy 2 then e
  else if xs.any (·.1.retains) then
    let e := e.onWr fun w => w.setBale lane bale { b with st := .accum }
    xs.foldl (fun e x => if x.2.homeAt lane bale then e.startBag x.1.h.key x.2.num else e) e
  else
    let e := e.onWr fun w => w.setBale lane bale { b with st := .draining }
    xs.foldl (fun e x => match e.bagIn (x.1.h.key, x.2.num) with
      | some (j, y) => e.setPool (j.setBag { y with phase := .passed })
      | none => e) e

/-- BALE_ACCUMULATION_START, as the row gives it. -/
def execBaleAccumulationStart (lane : Fin 64) (bale : Fin 2) (s : State) : Host.Outcome State Fault Refusal :=
  .next (s.live fun e => e.baleStart lane bale)

/-- A bag's pass at its exponents. -/
def Bag.pass (b : Bag) (j : PoolJob) (g : Glean) : Bag :=
  if !j.retains then b
  else if j.fp32 then { b with accs := pass32 j.w b.n b.seg b.pre (b.terms j.op g) }
  else { b with accs := passExact b.accs b.pre (b.terms j.op g) }

/-- Raises the exponents of overflowing accumulators (R155). -/
def Bag.raise (b : Bag) : Bag :=
  if b.accs.any (·.ovf) then
    { b with accs := b.accs.map fun a => if a.ovf then { a with e := a.e + 16 } else a, replays := b.replays + 1 }
  else b

/-- A bag passed: its overflow is reported (R156), and the halves its segments held are free (R168). -/
def Eng.bagPassed (e : Eng) (j : PoolJob) (b : Bag) : Eng :=
  let ovf := j.retains && b.accs.any (·.ovf)
  let home := (b.places.head?.map (·.1.val)).getD 0
  let b := { b with phase := .passed, flags := b.flags ||| (if ovf then 4 else 0) }
  let j := j.setBag b
  let j := if ovf && !j.fp32 then { j with ovf := j.ovf ++ [(b.num, home)] } else j
  let e := e.setPool j
  let e := if ovf && !j.fp32 then e.onWr fun w => { w with fallback := true } else e
  (b.places.drop 1).foldl (fun e p => e.onWr fun w => w.setBale p.1 p.2 {}) e

/-- The end of a bale's pass (R155, R156, R169): a replay, or on to the drain. -/
def Eng.passEnd (e : Eng) (lane : Fin 64) (bale : Fin 2) : Eng :=
  let b := e.wr.bale lane bale
  let xs := (e.bagsIn b).filter fun x => x.2.homeAt lane bale
  let ready := xs.all fun x => x.2.phase == .entered &&
    x.2.places.all fun p => (e.wr.bale p.1 p.2).st == .accum
  if b.st != .accum || xs.isEmpty || !ready || e.busy 2 then e
  else
    let ys := xs.filterMap fun x => (e.linked x.1.h.key).map fun g => (x.1.h.key, x.2.pass x.1 g)
    let put (e : Eng) (k : Key) (y : Bag) : Eng := match e.pool k with
      | some j => e.setPool (j.setBag y)
      | none => e
    let spill (k : Key) (y : Bag) : Bool := match e.pool k with
      | some j => j.retains && !j.fp32 && y.accs.any (·.ovf)
      | none => false
    if (ys.any fun y => spill y.1 y.2) && decide (b.replays < 3) then
      let e := (e.onWr fun w => w.setBale lane bale { b with replays := b.replays + 1 }).countWr 1 1
      ys.foldl (fun e y =>
        let z := if spill y.1 y.2 then y.2.raise else y.2
        match (if z.twice then e.pool y.1 else none) with
        | some j => (put e y.1 { z with recs := [], d := 0, entered := 0, phase := .filling }).redeliver j z
        | none => put e y.1 z) e
    else
      let e := e.onWr fun w => w.setBale lane bale { b with st := .draining }
      ys.foldl (fun e y => match e.pool y.1 with
        | some j => e.bagPassed j y.2
        | none => e) e

/-- The bag that owns slice `i` of a bale: slices are taken in the order of placement. -/
def Eng.sliceOwner (e : Eng) (b : Bale) (i : Nat) : Option (PoolJob × Bag) :=
  ((e.bagsIn b).foldl (fun (st : Nat × Option (PoolJob × Bag)) x =>
    let hi := st.1 + x.1.slices
    (hi, if st.1 ≤ i ∧ i < hi then some x else st.2)) (0, none)).2

/-- A bag is lost to an uncorrectable error of the lane's storage (R173): it drains as +0, with one message. -/
def Eng.bagLost (e : Eng) (lane : Fin 64) (x : Option (PoolJob × Bag)) : Eng :=
  let e := e.onWr fun w => { w with uncorr := true }
  match x with
  | none => e
  | some (j, b) =>
    if b.bad || b.phase == BagPhase.drained then e
    else
      let e := e.setPool (j.setBag { b with bad := true, flags := b.flags ||| 0x80 })
      e.post (e.mreelOf j.h.reel) 4 lane 0x0401 (j.a + b.num + workTag j.h.reel j.h.count)

/-- An uncorrectable error of a lane's storage (R173): the bag that owns the place is lost, and a line of a bale is remapped, with
a message to the reel of the bag's work, if it has one. A store's location is only rewritten (R389). -/
def Eng.baleError (e : Eng) (noWrite : Bool) (lane : Fin 64) (err : WrErr) : Eng :=
  match err with
  | .line l =>
    if e.swd.defects.any fun d => d.kind == 2 && d.unit == lane.val && d.index == l.val && d.st == 3 then e
    else
      let x := e.sliceOwner (e.wr.bale lane (l / 64)) (l % 64)
      let m := match x with
        | some (j, _) => e.mreelOf j.h.reel
        | none => e.evt
      (e.bagLost lane x).noteDefect noWrite (e.swd.nextDefect 2 lane l 0 8) m
  | .store bale slice => e.bagLost lane (e.sliceOwner (e.wr.bale lane bale) slice)

/-- A windrow command of a lane: the error of the lane's storage that it meets first, if any (R173), then its effect. -/
def State.windrow (s : State) (lane : Fin 64) (err : Option WrErr) (f : Eng → Eng) : State :=
  match s.runs, err with
  | false, _ => s
  | true, none => s.live f
  | true, some (.store b i) => s.live fun e => f (e.baleError true lane (.store b i))
  | true, some (.line l) =>
    let no := s.ao.noWrite (s.eng.swd.nextDefect 2 lane l 0 8).word
    let s := { s with eng := f (s.eng.baleError no lane (.line l)),
                      ao := { s.ao with defectFull := s.ao.defectFull || (no && !s.ao.defaulted) } }
    s.nvStart

/-- RECORD_ENTRY, as the row gives it: `lane` is the lane whose storage it touches. -/
def execRecordEntry (k : Key) (lane : Fin 64) (err : Option WrErr) (s : State) : Host.Outcome State Fault Refusal :=
  .next (s.windrow lane err fun e => e.recordEntry k)

/-- BALE_PASS_END, as the row gives it. -/
def execBalePassEnd (lane : Fin 64) (bale : Fin 2) (err : Option WrErr) (s : State) :
    Host.Outcome State Fault Refusal :=
  .next (s.windrow lane err fun e => e.passEnd lane bale)

/-! ### The drain (R159, R161, R163 to R166, R171, R408) -/

/-- The exact result vector of a bag, the rotation it stands in, and its empty flag. DESIGN CHOICE, log 220: in FP32 mode Z of a long
soft maximum is one FP32 sum over all its positions in order (R158), where R169 sums it exactly. -/
def Bag.result (b : Bag) (j : PoolJob) (g : Glean) (outRot : Nat) : List XVal × Nat × Bool :=
  let v := b.accs.map fun a => if j.fp32 then a.fp else a.value
  let quot (a z : XVal) : XVal := if j.fp32 then (a.div z).r32 else a.div z
  let num (n : Nat) : XVal := .fin false (n : Rat)
  let zeros := List.replicate j.w xzero
  if j.op ≤ 1 then (v, g.fw.rot, b.d == 0)
  else if j.op = 2 then (if b.d = 0 then (zeros, g.fw.rot, true) else (v.map fun a => quot a (num b.d), g.fw.rot, false))
  else if j.op = 5 then
    match softOf b.scored with
    | .nan => (List.replicate j.w qnan, g.fw.rot, false)
    | .noMass => (zeros, g.fw.rot, true)
    | .inf n => (v.map fun a => quot a (num n), g.fw.rot, false)
    | .scores m =>
      let cs := (b.scored.filter Rec.contributes).map fun r => (Soft.scores m).coef (of32 r.weight)
      let z := if j.fp32 then z32 cs else XVal.fin false ((cs.map XVal.toRat).sum)
      (v.map fun a => quot a z, g.fw.rot, false)
  else if j.op = 6 then
    ((List.range j.k).flatMap fun i => b.best.map fun l => ((l[i]?).map (·.1)).getD (.inf true), 0, b.d == 0)
  else if j.op = 7 then
    ((List.range j.k).flatMap fun i => match b.slots.find? (·.1 == i) with
      | some (_, xs) => convert g.fw.rot outRot xs
      | none => zeros, outRot, b.d == 0)
  else (if b.d = 0 then List.replicate j.w (of32 j.fill) else b.best.map fun l => (l.head?.map (·.1)).getD xzero, 0, b.d == 0)

/-- The bytes of a window [o, o + n) of a row at `row` (R166, R408): offset in the row, bytes, counts. -/
def Eng.window (e : Eng) (host : Bool) (f : Fw) (rowLen row o : Nat) (xs : List XVal) (counted : Bool) : Nat × List Byte × Cnt :=
  if f.sk ≠ 0 then
    let (bs, c) := f.encodeDom xs
    (f.byteOff o, bs, if counted then c else {})
  else
    let es := xs.map f.fmt.encode
    let cs := edgeNibbles f.fmt rowLen o (fun i => (e.rdMem host true (row + i) 1).headD 0) (es.map (·.1))
    (f.byteOff o, pack f.fmt cs, if counted then countCls (es.map (·.2)) else {})

/-- An edge byte of a 4-bit window is read before the write (R408). -/
def edgeRead (f : Fw) (rowLen o n : Nat) : Bool :=
  f.sk == 0 && f.fmt.width == 4 && (o % 2 == 1 || ((o + n) % 2 == 1 && decide (o + n < rowLen)))

/-- A status entry (R171). -/
def Bag.status (b : Bag) : Nat :=
  b.flags.toNat + min b.replays 3 * 2 ^ 16 + b2n b.long * 2 ^ 18 + b2n b.redone * 2 ^ 19 + b.nanExcl * 2 ^ 24

/-- The bag leaves its bale; the bale is empty when all its bags have drained. -/
def Eng.leaveBale (e : Eng) (b : Bag) : Eng :=
  match b.places.head? with
  | none => e
  | some (l, n) =>
    let x := e.wr.bale l n
    if (e.bagsIn x).all fun y => y.2.phase == .drained then e.onWr fun w => w.setBale l n {} else e

/-- BAG_DRAIN: a bag's result is converted, encoded and written with its positions and its status entry (R166); `r`
answers the writes, and the read of an edge byte. DESIGN CHOICE, log 196: a top-k's drained values are bale-drain encodes, which
R166 counts; the 'top-k values' that R42 leaves uncounted are read as the output of TOPK. DESIGN CHOICE, log 221: its row, its positions
and its status entry are checked before any of them is written, and where one may not be written none is. -/
def Eng.bagDrain (e : Eng) (k : Key) (num : Nat) (r : ReadRes) : Eng :=
  match e.bagIn (k, num), e.linked k with
  | some (j, b), some g =>
    if b.phase != .passed || j.fault || e.busy 2 then e
    else
      let out := strOf j.outD
      let f := out.fmt
      let (v, rot, empty) := b.result j g f.rot
      let xs := if b.bad then List.replicate v.length xzero else convert rot f.rot v
      let row := out.addr (j.a + num)
      let (off, bs, cnt) := e.window false f out.len row j.oFirst xs (!b.bad)
      let sh := decide (b.n < j.k) && j.op == 7
      let tr := decide (j.k < b.n) && j.op == 7
      let fl : BitVec 12 := b.flags ||| (if empty then 1 else 0) |||
        (if !b.bad && (v ++ xs).any XVal.isNan then 2 else 0) ||| (if sh then 0x200 else 0) ||| (if tr then 0x400 else 0) |||
        (if cnt.clip ≠ 0 then 0x800 else 0)
      let b := { b with flags := fl }
      let pos := strOf j.posD
      let pa := pos.base + 4 * ((j.a + num) * j.k * j.w)
      let pn := if j.op = 6 ∧ ¬ b.bad then 4 * (j.k * j.w) else 0
      let sa := out.aux + 8 * (j.a + num)
      let (e, ok) := e.check 4 j.h.master (edgeRead f out.len j.oFirst xs.length) true (row + off) bs.length
      let (e, ok) := if ok then e.check 4 j.h.master false true pa pn else (e, false)
      let (e, ok) := if ok ∧ out.aux ≠ 0 then e.check 4 j.h.master false true sa 8 else (e, ok)
      let r := e.answer (row + off) bs.length r
      let e := e.answered (row + off) bs.length
      if !ok then e.poolFault j false
      else if r ≠ .ok then e.poolFault j true
      else
        let e := (e.graded none cnt).write j.h.who false (row + off) bs
        let ranks := (List.range j.k).flatMap fun i => b.best.flatMap fun l =>
          leBytes 4 (((l[i]?).map (·.2)).getD 0xFFFFFFFF)
        let e := if pn = 0 then e else e.write j.h.who false pa ranks
        let e := if out.aux = 0 then e else e.write j.h.who false sa (leBytes 8 b.status)
        let tf : BitVec 4 := (if bit fl.toNat 7 then 0b0100 else 0) ||| (if bit fl.toNat 8 then 0b0010 else 0) |||
          (if fl ≠ 0 ∨ b.nanExcl ≠ 0 then 0b1000 else 0)
        let j := { j with flags := j.flags ||| tf, nEl := j.nEl + cnt.el, nClip := j.nClip + cnt.clip }
        let e := e.setPool (j.setBag { b with phase := .drained, recs := [], scan := [], accs := [], best := [], slots := [] })
        (e.leaveBale b).countWr 0 1
  | _, _ => e

/-- BAG_DRAIN, as the row gives it: `lane` is the bag's home lane. -/
def execBagDrain (k : Key) (bag : Nat) (r : ReadRes) (lane : Fin 64) (err : Option WrErr) (s : State) :
    Host.Outcome State Fault Refusal :=
  .next (s.windrow lane err fun e => e.bagDrain k bag r)

/-! ### Retirement (R152, R172, R175) -/

/-- Bags of a POOL leave the windrow without a result: those that `p` picks. A bale they leave is free when it holds
nothing else. -/
def Eng.dropBags (e : Eng) (j : PoolJob) (p : Bag → Bool) : Eng :=
  let gone := (j.bags.filter p).map (·.num)
  let e := e.setPool { j with bags := j.bags.filter fun b => !p b }
  e.onWr fun w =>
    { w with bales := (w.bales.map fun x =>
        let left := x.2.bags.filter fun y => !(y.1 == j.h.key && gone.contains y.2)
        (x.1, if left.isEmpty then {} else { x.2 with bags := left })).filter fun x => x.2 != {} }

/-- A POOL ends: it leaves the windrow, and its GLEAN's record of it goes with it. -/
def Eng.poolEnd (e : Eng) (j : PoolJob) (status : Byte) (flags : BitVec 4) : Eng :=
  let e := e.dropBags j fun _ => true
  let e := e.onWr fun w =>
    { w with pools := w.pools.filter (·.h.key != j.h.key), waitLong := if w.waitLong = some j.h.key then none else w.waitLong }
  -- a GLEAN that lost its consumer discards what it holds (R130); one that has retired is forgotten
  let e := e.onGln fun q => { q with gleans := (q.gleans.map fun g =>
    if g.consumer == some j.h.key && g.phase == .active && (status == 3 || status == 4) then
      { g with phase := .discarding 4, elems := [], redo := [] } else g).filter fun g =>
      !(g.consumer == some j.h.key && g.phase == .retired) }
  e.retire j.h.key status flags

/-- The pooling-overflow message (R156). -/
def Eng.overflowMsg (e : Eng) (j : PoolJob) : Eng :=
  match j.ovf with
  | [] => e
  | x :: r =>
    let first := r.foldl (fun (a : Nat × Nat) b => if b.1 < a.1 then b else a) x
    e.post (e.mreelOf j.h.reel) 4 first.2 0x0400 (j.a + first.1 + j.ovf.length * 2 ^ 64 + workTag j.h.reel j.h.count)

/-- A POOL's completion: its overflow message (R156), the check of its clip share whatever its status (R44), and its end.
`status` gives the status, from the flags. -/
def Eng.poolDone (e : Eng) (j : PoolJob) (status : BitVec 4 → Byte) : Eng :=
  let (e, clip) := (e.overflowMsg j).clipCheck j.h 0xFFFF j.nEl j.nClip
  let fl := j.flags ||| (if clip then 1 else 0)
  e.poolEnd j (status fl) fl

/-- POOL_RETIRE: every bag has drained and the GLEAN has retired, or the POOL or its GLEAN ended early (R152). After a dead
GLEAN the bags left open are discarded, and those that were complete still drain (R172). -/
def Eng.poolRetire (e : Eng) (k : Key) : Eng :=
  match e.pool k with
  | none => e
  | some j =>
    let dead := match e.linked k with
      | some g => g.dead
      | none => true
    let quiet := e.mp.owed (.ticket k) == 0
    if j.fault then (if quiet then e.poolDone j fun _ => 3 else e)
    else if dead then
      let open' := j.bags.any fun b => b.phase == .filling
      let rest := j.bags.any fun b => b.phase != .drained
      if open' then e.dropBags j fun b => b.phase == .filling
      else if rest || !quiet then e
      else e.poolDone j fun _ => 4
    else
      let gone := match e.linked k with
        | some g => g.phase == .retired
        | none => false
      if gone && j.next == j.nBags && (j.bags.all fun b => b.phase == .drained) && quiet then e.poolDone j okStatus else e

/-- POOL_RETIRE, as the row gives it. -/
def execPoolRetire (k : Key) (s : State) : Host.Outcome State Fault Refusal := .next (s.live fun e => e.poolRetire k)

/-- A restart of the windrow (R175): every POOL retires aborted, and everything it held is discarded. -/
def Eng.wrRestart (e : Eng) : Eng :=
  let e := e.wr.pools.foldl (fun e j => e.poolDone j fun _ => 4) e
  e.onWr fun w => { w with pools := [], bales := [], waitLong := none }

/-! ### Registers -/

/-- A 32-bit read of a windrow register. -/
def wrRd (w : Wr) (off : Nat) : Nat :=
  match off with
  | 0x000 => w.ctrs.read
  | 0x004 => b2n (w.pools.isEmpty && w.bales.all fun x => x.2.bags.isEmpty) + 2 * b2n w.fallback + 4 * b2n w.uncorr
  | 0x008 => w.fill.toNat
  | _ => if 0x010 ≤ off ∧ off < 0x030 then w.ctrs.snapAt ((off - 0x010) / 8) else 0

/-- A write of a windrow register. -/
def wrWr (w : Wr) (off v : Nat) : Wr :=
  match off with
  | 0x000 => { w with ctrs := w.ctrs.write 1 v }
  | 0x004 => { w with fallback := w.fallback && !bit v 1, uncorr := w.uncorr && !bit v 2 }
  | 0x008 => { w with fill := BitVec.ofNat 32 v }
  | _ => w

end Sys2Proof.Machine
end

