-- ==== Sys2Proof/Machine/Sweeping.lean ====
section
/-! DEFINITION. The sweep (R176 to R200): SWEEP, its tiles, queries, rows and scores, the merge unit's lists, and TOPK. -/

namespace Sys2Proof.Machine

open Sys2Proof

/-- Changes the sweep block. -/
def Eng.onSwp (e : Eng) (f : Swp → Swp) : Eng := { e with swp := f e.swp }
/-- Counts in a sweep counter (R199). -/
def Eng.countSwp (e : Eng) (i n : Nat) : Eng := e.onSwp fun w => { w with ctrs := w.ctrs.add i n }
/-- The SWEEP of a ticket. -/
def Eng.sweepOf (e : Eng) (k : Key) : Option SweepJob := e.swp.sweeps.find? (·.h.key == k)
/-- Replaces a SWEEP. -/
def Eng.setSweep (e : Eng) (j : SweepJob) : Eng :=
  e.onSwp fun w => { w with sweeps := w.sweeps.map fun x => if x.h.key == j.h.key then j else x }
/-- The TOPK of a ticket. -/
def Eng.topkOf (e : Eng) (k : Key) : Option TopkJob := e.swp.topks.find? (·.h.key == k)
/-- Replaces a TOPK. -/
def Eng.setTopk (e : Eng) (j : TopkJob) : Eng :=
  e.onSwp fun w => { w with topks := w.topks.map fun x => if x.h.key == j.h.key then j else x }

/-! ### A SWEEP's parts (R176, R180) -/

/-- The format word of the row source. -/
def SweepJob.fw (j : SweepJob) : Fw := if j.src then (strOf j.srcD).fmt else (tabOf j.srcD).fmt
/-- Elements of a row. -/
def SweepJob.len (j : SweepJob) : Nat := if j.src then (strOf j.srcD).len else (tabOf j.srcD).len
/-- The table number, 0xFFFF for a stream (R387). -/
def SweepJob.table (j : SweepJob) : Nat := if j.src then 0xFFFF else (tabOf j.srcD).tid
/-- Queries of a group, Q (R180). -/
def SweepJob.perGroup (j : SweepJob) : Nat := (j.nq + j.ng - 1) / j.ng
/-- The queries that a group holds. -/
def SweepJob.queriesOf (j : SweepJob) (g : Nat) : List Nat :=
  (List.range (min j.nq ((g + 1) * j.perGroup) - g * j.perGroup)).map (g * j.perGroup + ·)
/-- Tiles of a group. -/
def SweepJob.groupSize (j : SweepJob) : Nat := j.nt / j.ng
/-- Tile `i` of a group. -/
def SweepJob.tile (j : SweepJob) (g i : Nat) : Nat := j.t0 + g * j.groupSize + i
/-- The group that holds a query. -/
def SweepJob.groupOf (j : SweepJob) (q : Nat) : Nat := q / j.perGroup

/-- Queries a tile holds (R176). -/
def qCap (f : Fmt) (len : Nat) : Nat := min 1024 (32768 / (f.width * ((len + 127) / 128)))

/-- The entry field of rows that no entry makes sweepable. -/
def noEnt : Nat := 65536

/-- Splits rows [lo, hi) of a table by the active map (R184): runs of its entries, and the rows that are not sweepable. -/
def Eng.sweepSplit (e : Eng) (t len lo hi : Nat) : List Run × List Run :=
  let bad (a b : Nat) : List Run := if a < b then [{ first := a, cnt := b - a, ent := noEnt, copy := none }] else []
  if !e.map.mapped t then ([], bad lo hi)
  else
    let xs := (e.map.tabEnts t).filter fun x =>
      x.2.elemFirst == 0 && decide (x.2.firstRow < hi) && decide (lo < x.2.firstRow + x.2.rowCount)
    let (cur, good, out) := xs.foldl (fun (st : Nat × List Run × List Run) (x : Nat × Ent) =>
      let (cur, good, out) := st
      let a := max cur x.2.firstRow
      let b := min hi (x.2.firstRow + x.2.rowCount)
      let r : Run := { first := a, cnt := b - a, ent := x.1, copy := none }
      if b ≤ a then st
      else if x.2.elemCount < len then (b, good, out ++ bad cur b)
      else (b, good ++ [r], out ++ bad cur a)) (lo, [], [])
    (good, out ++ bad cur hi)

/-! ### The instruction SWEEP (R180, R181) -/

/-- The operand-range checks of a SWEEP (R181). -/
def Eng.sweepBad (e : Eng) (j : SweepJob) (rows : Nat) : Bool :=
  let dc := strOf j.qD
  let de := strOf j.outD
  let t := tabOf j.srcD
  let runs := e.sweepSplit t.tid j.len j.r0 (j.r0 + j.n)
  decide (64 < j.t0 + j.nt) || j.nt == 0 || j.ng == 0 || decide (j.nt < j.ng) || j.nt % j.ng != 0 ||
    decide (qCap dc.fmt.fmt j.len < j.perGroup) || decide (65536 < j.nq) ||
    dc.len != j.len || dc.fmt.rot != 0 || (j.qrot && j.fw.rot == 0) ||
    decide (rows ≤ j.r0) || decide (rows - j.r0 < j.n) || decide (2 ^ 32 < j.n) ||
    (!j.src && (!runs.2.isEmpty || runs.1.any fun r => match e.map.ent r.ent with
      | some x => e.onlyHost r.ent x
      | none => true)) ||
    (j.out && (!([Fmt.fp32, .bf16, .fp16].contains de.fmt.fmt) || !de.fmt.plain || de.len != j.n || decide (4096 < j.n) ||
      decide (de.rows < j.nq))) ||
    (j.filt && decide ((strOf j.filtD).rows < (j.n + 31) / 32))

/-- The instruction SWEEP. -/
def Eng.sweepIssue (e : Eng) (d : Fin 8) (w : IWord) (ext : W64) : Eng :=
  let i := w.imm.toNat
  let out := bit i 0
  let src := bit i 2
  let filt := bit i 3
  let db := xdesc ext 0
  let dc := xdesc ext 1
  let de := xdesc ext 3
  let ok := fld i 24 13 == 0 && (filt || db == 0) && xdesc ext 2 == 0 && (out || de == 0) && fld ext.toNat 49 15 == 0
  e.insn d (iuses w true true true true (2 ^ 37 - 1) && ok) [w.sa, w.sb] fun x =>
    let os : List Opnd := (if src then [⟨w.desc, false, [0]⟩] else []) ++ (if filt then [⟨db, false, [1]⟩] else []) ++
      [⟨dc, false, [0]⟩] ++ (if out then [⟨de, false, [0]⟩] else [])
    match x.refuses (if src then [] else [w.desc]) os with
    | some (c, r) => e.progFault d c r
    | none =>
      let row := (x.desc w.desc).w
      let rows := if src then (strOf row).rows else (tabOf row).rows
      let r0 := (x.get w.sa).toNat
      let cnt := fld ext.toNat 16 33
      let nt := fld i 10 7
      let ng := fld i 17 7
      let mk (h : Hdr) : SweepJob :=
        { h := h, out := out, qrot := bit i 1, src := src, filt := filt, srcD := row,
          filtD := if filt then (x.desc db).w else 0, qD := (x.desc dc).w, outD := if out then (x.desc de).w else 0, r0 := r0,
          n := if cnt = 0 then rows - r0 else cnt, t0 := fld i 4 6, nt := nt, ng := ng, nq := (strOf (x.desc dc).w).rows,
          topk := none, tiles := false, queries := none, todo := List.replicate ng [], turn := List.replicate ng 0,
          deferred := [], arrived := [], used := [], badRows := [], uncorr := false, div := false, lost := false,
          fault := false, ended := false }
      if e.sweepBad (mk (x.hdr { dir := d, ticket := 0 } 0)) rows then e.progFault d 0x0B 0
      else e.issue e.hsSweep d w x fun e h => e.onSwp fun z =>
        -- an ended SWEEP is forgotten once its ticket's slot is taken again
        { z with sweeps := (z.sweeps.filter fun s => !s.ended ||
            ((e.dir s.h.key.dir).slot s.h.key.ticket).any fun t => t.ticket == s.h.key.ticket) ++ [mk h] }

/-- SWEEP. -/
def execSweep (d : Fin 8) (w : IWord) (ext : W64) (s : State) : Host.Outcome State Fault Refusal :=
  .next (s.live fun e => e.sweepIssue d w ext)

/-! ### Tiles and queries (R182, R183) -/

/-- The SWEEP has reached the point at which it takes its tiles (R183). -/
def Eng.wantsTiles (e : Eng) (j : SweepJob) : Bool :=
  !j.tiles && !j.ended && !j.fault && e.turn e.hsSweep j.h == .go &&
    (j.out || (j.topk.bind e.topkOf).any fun t => t.reserved.isSome)

/-- A tile is held by a SWEEP. -/
def Swp.held (w : Swp) (t : Nat) : Bool :=
  w.sweeps.any fun j => j.tiles && decide (j.t0 ≤ t) && decide (t < j.t0 + j.nt)

/-- SWEEP_TILES_TAKEN: the SWEEP takes its tiles, in acceptance order among those that wait for tiles (R183), and its range
is laid out by the active map (R184). -/
def Eng.tilesTaken (e : Eng) (k : Key) : Eng :=
  match e.sweepOf k with
  | none => e
  | some j =>
    let before := e.swp.sweeps.takeWhile fun x => x.h.key != k
    let free := (List.range j.nt).all fun i => !e.swp.held (j.t0 + i)
    if !e.wantsTiles j || !free || before.any e.wantsTiles || e.busy 3 then e
    else
      let (good, bad) := if j.src then ([({ first := j.r0, cnt := j.n, ent := 0, copy := none } : Run)], [])
        else e.sweepSplit j.table j.len j.r0 (j.r0 + j.n)
      let groups := List.range j.ng
      let later := groups.flatMap fun (g : Nat) => bad.map fun (r : Run) => (g, r, e.hth.time)
      e.setSweep { j with tiles := true, todo := List.replicate j.ng good, deferred := later }

/-- SWEEP_TILES_TAKEN, as the row gives it. -/
def execSweepTilesTaken (k : Key) (s : State) : Host.Outcome State Fault Refusal := .next (s.live fun e => e.tilesTaken k)

/-- A query as it stands in the store (R182, R41): its bytes unchanged, or rotated and requantized once. -/
def SweepJob.loadQuery (j : SweepJob) (bs : List Byte) : List XVal :=
  let f := (strOf j.qD).fmt
  let xs := f.decodeRow j.len bs
  if j.fw.rot = 0 ∨ j.qrot then xs else f.decodeRow j.len ({ f with rot := 0 }.encodeDom (rotate j.fw.rot xs)).1

/-- QUERY_LOAD: the queries are read and loaded, and the filter's range is checked (R182, R185); `r` answers both. -/
def Eng.queryLoad (e : Eng) (k : Key) (r : ReadRes) : Eng :=
  match e.sweepOf k with
  | none => e
  | some j =>
    if !j.tiles || j.queries.isSome || j.fault || j.ended || e.busy 3 then e
    else
      let s := strOf j.qD
      let (e, ok) := e.checkStr j.h s true false
      let (e, ok) := if ok && j.filt then e.check 4 j.h.master true false (strOf j.filtD).base ((j.n + 31) / 32 * 4) else (e, ok)
      let fs := (strOf j.filtD).base
      let fn := if j.filt then (j.n + 31) / 32 * 4 else 0
      let r := e.answer fs fn (e.answer s.base s.span r)
      let e := (e.answered s.base s.span).answered fs fn
      if !ok then e.setSweep { j with fault := true }
      else if r ≠ .ok then e.setSweep { j with fault := true, uncorr := true }
      else
        let (e, qs) := (List.range s.rows).foldl (fun (st : Eng × List (List XVal)) i =>
          let (e, bs) := st.1.read false (s.addr i) s.item
          (e, st.2 ++ [j.loadQuery bs])) (e, [])
        e.setSweep { j with queries := some qs }

/-- QUERY_LOAD, as the row gives it. -/
def execQueryLoad (k : Key) (r : ReadRes) (s : State) : Host.Outcome State Fault Refusal :=
  .next (s.live fun e => e.queryLoad k r)

/-! ### Scores (R177, R178) -/

/-- The exact dot product of a row and a query; a zero sum is positive. -/
def dotExact (row query : List XVal) : XVal :=
  match (List.zipWith XVal.mul row query).foldl XVal.add xzero with
  | .fin s m => if m = 0 then xzero else .fin s m
  | x => x

/-- The score (R177): encoded into FP32 once. -/
def score (row query : List XVal) : XVal := (dotExact row query).r32

/-! ### Candidates (R188) -/

/-- Index of a tile's query in the candidate stores. -/
def partKey (tile q : Nat) : Nat := 65536 * tile + q

/-- Sends a tile's partial list of a query to the merge unit; while 16 of the tile wait there, the list waits in the tile. -/
def Swp.sendList (w : Swp) (k : Key) (tile q : Nat) : Swp :=
  let p := w.parts.get {} (partKey tile q)
  if p.cands.isEmpty && p.nans == 0 then w
  else
    let l : SentList := { sweep := k, query := q, cands := p.cands, nans := p.nans }
    let w := { w with parts := w.parts.set {} (partKey tile q) { tau := p.tau } }
    if (w.sent.get [] tile).length < 16 then { w with sent := w.sent.modify [] tile (· ++ [l]) }
    else { w with full := w.full.modify [] tile (· ++ [l]) }

/-- A score reaches a tile's partial list (R188); `start` is the starting threshold. -/
def Swp.offer (w : Swp) (k : Key) (tile q row : Nat) (start s : XVal) : Swp :=
  let p := w.parts.get {} (partKey tile q)
  if s.isNan then { w with parts := w.parts.set {} (partKey tile q) { p with nans := p.nans + 1 } }
  else if ordLt s (p.tau.getD start) then w
  else
    let w := { w with parts := w.parts.set {} (partKey tile q) { p with cands := p.cands ++ [{ score := s, row := row }] } }
    if 8 ≤ p.cands.length + 1 then w.sendList k tile q else w

/-- The starting threshold of a SWEEP's tiles (R188). -/
def Eng.startTau (e : Eng) (j : SweepJob) : XVal :=
  match (j.topk.bind e.topkOf).bind (·.floor) with
  | some f => of32 f
  | none => .inf true

/-- Every tile of a group sends its nonempty partial lists: the group's range has ended (R188). -/
def Eng.flushGroup (e : Eng) (k : Key) (g : Nat) : Eng :=
  match e.sweepOf k with
  | none => e
  | some j =>
    if j.out || !((j.todo.getD g []).all (·.cnt == 0)) || j.deferred.any (·.1 == g) then e
    else e.onSwp fun w => (List.range j.groupSize).foldl (fun w i =>
      (j.queriesOf g).foldl (fun w q => w.sendList k (j.tile g i) q) w) w

/-! ### Rows (R179, R184 to R187) -/

/-- Several writes of one work that one acknowledgement answers. -/
def Eng.writeAll (e : Eng) (w : Who) (xs : List (Nat × List Byte)) : Eng :=
  if xs.isEmpty then e
  else
    let e := xs.foldl (fun e x => e.putBytes false x.1 x.2) e
    let hc := xs.foldl (fun (c : Hc) x => c.touch w.cmd x.1 x.2.length) e.hc
    { e with hc := hc, mp := e.mp.owe w.own }

/-- Writes a row's element of every query of a group (R187). Answers whether the writes were made. -/
def Eng.plainScores (e : Eng) (j : SweepJob) (g row : Nat) (f : Nat → XVal) (wr : ReadRes) : Eng × Nat :=
  let de := strOf j.outD
  let n := de.fmt.fmt.width / 8
  let xs := (j.queriesOf g).map fun q =>
    (de.addr q + (row - j.r0) * n, leBytes n (de.fmt.fmt.encode (f q)).1)
  let (e, ok) := xs.foldl (fun (st : Eng × Bool) x =>
    if st.2 then st.1.check 4 j.h.master false true x.1 n else st) (e, true)
  if !ok then (e, 1)
  else if wr ≠ .ok ∧ ¬ xs.isEmpty then (e, 2)
  else (e.writeAll j.h.who xs, 0)

/-- Chooses the copy of a run that starts to stream, in every group that has not started it (R184): none while the rows
must wait. -/
def Eng.startRun (e : Eng) (j : SweepJob) (r : Run) : Option RunCopy :=
  if j.src then
    let s := strOf j.srcD
    some { num := 0, pos := e.hth.pos, tier := 0, base := s.base, first := 0, stride := s.stride, ver := e.map.activeVer }
  else match e.map.ent r.ent with
    | none => none
    | some x => match e.place r.ent x with
      | .at_ c => some { num := c.num, pos := c.pos, tier := c.tier, base := c.base, first := x.firstRow,
                         stride := 4 * x.stride4, ver := e.map.activeVer }
      | _ => none

/-- Brings a started run to the head of a group's list: runs that cannot stream are deferred (R184). -/
def Eng.headRun (e : Eng) : Nat → SweepJob → Nat → SweepJob
  | 0, j, _ => j
  | n + 1, j, g =>
    match j.todo.getD g [] with
    | [] => j
    | r :: rest =>
      if r.cnt = 0 then e.headRun n { j with todo := j.todo.set g rest } g
      else match r.copy with
        | some _ => j
        | none => match e.startRun j r with
          | some c =>
            let start (x : Run) : Run := if x.copy.isNone && x.ent == r.ent && x.first == r.first then { x with copy := some c } else x
            { j with todo := j.todo.map fun rs => rs.map start, used := if j.used.contains (r.ent, c.num) then j.used
                       else j.used ++ [(r.ent, c.num)] }
          | none =>
            e.headRun n { j with todo := j.todo.set g rest, deferred := j.deferred ++ [(g, r, e.hth.time)] } g

/-- Key of a peer's sector. -/
def peerSector (pos s : Nat) : Nat := pos * 2 ^ 58 + s

/-- A stream request for a peer's sector is outstanding. -/
def Eng.asked (e : Eng) (k : Key) (pos s : Nat) : Bool :=
  e.zw.awaits fun u dst b => u == .stream k && dst == pos && (match b with
    | .streamReq a _ m => decide (a.toNat ≤ s) && decide (s ≤ a.toNat + m.toNat)
    | _ => false)

/-- What a row's read answers. -/
inductive RowGot where
  | notYet | denied | uncorr | bytes (bs : List Byte)

/-- The bytes of a row from its copy: read here, or from the sectors a peer streamed (R184). A row whose sectors were not
asked for yet is asked for, as one run of up to 4 KiB of its copy. DESIGN CHOICE, log 191: a row read here is read in one step, so
that all its sectors stand on one side of any tedder write-back, where R16 asks it of each sector alone. -/
def Eng.fetchRow (e : Eng) (j : SweepJob) (r : Run) (c : RunCopy) (res : ReadRes) : Eng × RowGot :=
  let a := c.base + (r.first - c.first) * c.stride
  let n := if j.src then (strOf j.srcD).item else c.stride
  if c.pos = e.hth.pos ∧ c.tier = 1 ∧ e.swdWaits a n then (e, .notYet)
  else if c.pos = e.hth.pos then
    match e.check (if c.tier = 1 then 3 else 4) j.h.master true false a n with
    | (e, false) => (e, .denied)
    | (e, true) =>
      let res := e.answer a n res
      let e := e.answered a n
      if res ≠ .ok then (e, .uncorr)
      else if c.tier = 1 then
        let (e, bs) := e.readSward j.h.master a n
        (e, .bytes bs)
      else
        let (e, bs) := e.read false a n
        (e, .bytes bs)
  else
    let ss := (sectorsOf a n).map (· / 64)
    let got := ss.map fun s => j.arrived.get none (peerSector c.pos s)
    if got.any (· == some none) then (e, .uncorr)
    else if got.all Option.isSome then
      (e, .bytes (((got.flatMap fun x => (x.join).getD []).drop (a % 64)).take n))
    else
      let need := ss.filter fun s => (j.arrived.get none (peerSector c.pos s)).isNone && !e.asked j.h.key c.pos s
      match need with
      | [] => (e, .notYet)
      | s :: _ =>
        let last := (c.base + (r.first + r.cnt - c.first) * c.stride - 1) / 64
        let m := min 64 (last - s + 1)
        (e.send c.pos (.streamReq (BitVec.ofNat 58 s) (BitVec.ofNat 2 c.tier) (BitVec.ofNat 6 (m - 1))) (.stream j.h.key), .notYet)

/-- A row is excluded by the filter (R185). -/
def Eng.filtered (e : Eng) (j : SweepJob) (row : Nat) : Bool :=
  j.filt && bit (leNat (e.rdMem false true ((strOf j.filtD).base + (row - j.r0) / 32 * 4) 4)) ((row - j.r0) % 32)

/-- A group consumes its next row (R179, R184 to R188). Answers whether a row was consumed. -/
def Eng.sweepRow (e : Eng) (k : Key) (g tile : Nat) (res wr : ReadRes) : Eng × Bool :=
  match e.sweepOf k with
  | none => (e, false)
  | some j0 =>
    let j := e.headRun (j0.n + 2) j0 g
    let e := e.setSweep j
    match (if j.fault then [] else j.todo.getD g []) with
    | [] => (e, false)
    | r :: rest => match r.copy with
      | none => (e, false)
      | some c =>
        let (e, got) := e.fetchRow j r c res
        let row := r.first
        let j := { j with todo := j.todo.set g ({ r with first := row + 1, cnt := r.cnt - 1 } :: rest) }
        let skip := e.filtered j row
        let fail (e : Eng) (j : SweepJob) (st : Nat) : Eng :=
          e.setSweep (if st = 0 then j else { j with fault := true, uncorr := j.uncorr || st == 2 })
        match got with
        | .notYet => (e, false)
        | .denied => (e.setSweep { j with fault := true }, true)
        | .uncorr =>
          if skip then
            if j.out then
              let (e, st) := e.plainScores j g row (fun _ => .inf true) wr
              (fail e j st, true)
            else (e.setSweep j, true)
          else
            let first := !j.badRows.contains row
            let j := { j with uncorr := true, badRows := if first then row :: j.badRows else j.badRows }
            let e := e.onSwp fun w => { w with uncorr := true }
            let e := if first then e.post (e.mreelOf j.h.reel) 5 tile 0x0500
                (row + j.table * 2 ^ 48 + workTag j.h.reel j.h.count) else e
            if j.out then
              let (e, st) := e.plainScores j g row (fun _ => qnan) wr
              (fail e j st, true)
            else (e.setSweep j, true)
        | .bytes bs =>
          let xs := j.fw.decodeRow j.len bs
          let qs := j.queries.getD []
          if j.out then
            let f (q : Nat) : XVal := if skip then .inf true else dotExact xs (qs.getD q [])
            let (e, st) := e.plainScores j g row f wr
            (fail (if skip then e else e.countSwp 0 1) j st, true)
          else if skip then (e.setSweep j, true)
          else
            let tau := e.startTau j
            let e := (e.setSweep j).onSwp fun w => (j.queriesOf g).foldl (fun w q =>
              w.offer k tile q row tau (score xs (qs.getD q []))) w
            (e.countSwp 0 1, true)

/-- The tile that takes a group's next pair (R179): in rotating order, one that holds no list the merge unit has no place for
(R188). -/
def Eng.nextTile (e : Eng) (j : SweepJob) (g : Nat) : Option Nat :=
  let t := j.turn.getD g 0
  ((List.range j.groupSize).map fun i => (t + i) % j.groupSize).find? fun i =>
    (e.swp.full.get [] (j.tile g i)).isEmpty

/-- SWEEP_ROW_PAIR: a group consumes up to two rows (R179). While a lane is on the move the pair is held (R18). -/
def Eng.rowPair (e : Eng) (k : Key) (g : Nat) (r0 r1 wr : ReadRes) : Eng :=
  match e.sweepOf k with
  | none => e
  | some j =>
    if !j.tiles || j.queries.isNone || j.fault || j.ended || decide (j.ng ≤ g) || e.busy 3 then e
    else if !e.swp.moving.isEmpty then e
    else match e.nextTile j g with
      | none => e
      | some i =>
        let (e, one) := e.sweepRow k g (j.tile g i) r0 wr
        let e := if one then (e.sweepRow k g (j.tile g i) r1 wr).1 else e
        let e := match e.sweepOf k with
          | some j => if one then e.setSweep { j with turn := j.turn.set g ((i + 1) % j.groupSize) } else e
          | none => e
        e.flushGroup k g

/-- SWEEP_ROW_PAIR, as the row gives it: within an allowance of nothing, after a thermal trip, no pair issues (R197, R380). -/
def execSweepRowPair (k : Key) (group : Fin 64) (r0 r1 wr : ReadRes) (s : State) : Host.Outcome State Fault Refusal :=
  .next (if s.ao.allow = 0 then s else s.live fun e => e.rowPair k group r0 r1 wr)

/-! ### The merge unit (R188, R192 to R194) -/

/-- a is ranked above b in mode 0's order (R193): larger score, then lower row. -/
def rankAbove (a b : Cand) : Bool := ordLt b.score a.score || (a.score == b.score && decide (a.row < b.row))

/-- Inserts an eligible entry into a list of at most k. Answers whether it entered. -/
def insertCand (k : Nat) (l : List Cand) (x : Cand) : List Cand × Bool :=
  let before := l.takeWhile fun y => rankAbove y x
  ((before ++ x :: l.drop before.length).take k, decide (before.length < k))

/-- An entry meets the floor (R193). -/
def TopkJob.meets (t : TopkJob) (s : XVal) : Bool :=
  match t.floor with
  | some f => !ordLt s (of32 f)
  | none => true

/-- PARTIAL_LIST_ACCEPT: the merge unit takes the oldest list that waits from a tile, and inserts its candidates (R188,
R196). -/
def Eng.acceptList (e : Eng) (tile : Nat) : Eng :=
  match e.swp.sent.get [] tile with
  | [] => e
  | l :: rest =>
    let wait := e.swp.full.get [] tile
    let e := e.onSwp fun w => { w with sent := w.sent.set [] tile (rest ++ wait.take 1), full := w.full.set [] tile (wait.drop 1) }
    match ((e.sweepOf l.sweep).bind (·.topk)).bind e.topkOf with
    | none => e
    | some t =>
      let ex := t.excl.get [] l.query
      let (out, n) := l.cands.foldl (fun (st : List Cand × Nat) x =>
        if t.meets x.score && !ex.contains x.row then
          let (l, ok) := insertCand t.k st.1 x
          (l, st.2 + b2n ok)
        else st) (t.lists.get [] l.query, 0)
      let t := { t with lists := t.lists.set [] l.query out, nans := t.nans.modify 0 l.query (· + l.nans) }
      (e.setTopk t).countSwp 1 n

/-- PARTIAL_LIST_ACCEPT, as the row gives it. -/
def execPartialListAccept (tile : Fin 64) (s : State) : Host.Outcome State Fault Refusal :=
  .next (s.live fun e => if e.busy 3 then e else e.acceptList tile)

/-- THRESHOLD_UPDATE: the value of rank k - 1 of a full list goes to the tiles that hold the query (R188). -/
def Eng.threshold (e : Eng) (k : Key) (q : Nat) : Eng :=
  match e.topkOf k with
  | none => e
  | some t =>
    match (t.sweep.bind e.sweepOf), (t.lists.get [] q)[t.k - 1]? with
    | some j, some c =>
      if !j.tiles || decide (j.nq ≤ q) then e
      else e.onSwp fun w => (List.range j.groupSize).foldl (fun w i =>
        let key := partKey (j.tile (j.groupOf q) i) q
        let p := w.parts.get {} key
        let up := match p.tau with
          | some x => ordLt x c.score
          | none => true
        if up then { w with parts := w.parts.set {} key { p with tau := some c.score } } else w) w
    | _, _ => e

/-- THRESHOLD_UPDATE, as the row gives it. -/
def execThresholdUpdate (k : Key) (q : Nat) (s : State) : Host.Outcome State Fault Refusal :=
  .next (s.live fun e => e.threshold k q)

/-! ### Deferred entries (R184) -/

/-- SWEEP_DEFER_LIMIT: the runs of an entry deferred as long as the retry limit are abandoned (R184). -/
def Eng.deferLimit (e : Eng) (k : Key) (ent : Nat) : Eng :=
  match e.sweepOf k with
  | none => e
  | some j =>
    let lim := e.gln.retryLimit.toNat
    let due (x : Nat × Run × W64) : Bool :=
      x.2.1.ent == ent && decide (x.2.2.toNat + 1000 * lim ≤ e.hth.time.toNat)
    let gone := j.deferred.filter due
    if lim = 0 ∨ gone = [] ∨ j.ended then e
    else
      let e := e.onSwp fun w => { w with lost := true }
      let j := { j with deferred := j.deferred.filter fun x => !due x, lost := true }
      let e := e.setSweep j
      if j.out then
        let (e, st) := gone.foldl (fun (s : Eng × Nat) x =>
          (List.range x.2.1.cnt).foldl (fun (s : Eng × Nat) i =>
            if s.2 = 0 then s.1.plainScores j x.1 (x.2.1.first + i) (fun _ => qnan) .ok else s) s) (e, 0)
        if st = 0 then e else e.setSweep { j with fault := true }
      else (List.range j.ng).foldl (fun e g => e.flushGroup k g) e

/-- SWEEP_DEFER_LIMIT, as the row gives it. -/
def execSweepDeferLimit (k : Key) (entry : Nat) (s : State) : Host.Outcome State Fault Refusal :=
  .next (s.live fun e => e.deferLimit k entry)

/-- At a commit a SWEEP lays out again, by the new map, the runs that have not started and those that were deferred (R184). A
deferred run that can stream now joins its group's list; one that still cannot stays deferred since the time it was. -/
def Eng.sweepCommit (e : Eng) : Eng :=
  e.onSwp fun w => { w with sweeps := w.sweeps.map fun j =>
    if j.src || !j.tiles then j
    else
      let again (rs : List Run) : List Run × List Run :=
        rs.foldl (fun (st : List Run × List Run) r =>
          if r.copy.isSome then (st.1 ++ [r], st.2)
          else
            let (a, b) := e.sweepSplit j.table j.len r.first (r.first + r.cnt)
            (st.1 ++ a, st.2 ++ b)) ([], [])
      let can (r : Run) : Bool := (e.startRun j r).isSome
      let later := j.deferred.map fun x => (x.1, again [x.2.1], x.2.2)
      let todo := j.todo.zipIdx.map fun (rs, g) =>
        (again rs).1 ++ (later.filter (·.1 == g)).flatMap fun x => x.2.1.1.filter can
      let fresh := j.todo.zipIdx.flatMap fun (rs, g) => ((again rs).2).map fun r => (g, r, e.hth.time)
      let old := later.flatMap fun x => ((x.2.1.1.filter fun r => !can r) ++ x.2.1.2).map fun r => (x.1, r, x.2.2)
      { j with todo := todo, deferred := old ++ fresh } }

/-- Rows of a run that a peer has streamed whole. -/
def SweepJob.gotRows (j : SweepJob) (r : Run) (c : RunCopy) : Nat :=
  ((List.range r.cnt).takeWhile fun i =>
    (sectorsOf (c.base + (r.first + i - c.first) * c.stride) c.stride).all fun a =>
      (j.arrived.get none (peerSector c.pos (a / 64))).isSome).length

/-- A position was declared failed: rows not received from it wait for the next commit (R184). -/
def Eng.sweepFailed (e : Eng) (p : Nat) : Eng :=
  let e := e.onSwp fun w => { w with sweeps := w.sweeps.map fun j =>
    let cut (r : Run) : List Run × List Run := match r.copy with
      | some c =>
        if c.pos = p ∧ c.pos ≠ e.hth.pos then
          let n := j.gotRows r c
          let left : Run := { first := r.first + n, cnt := r.cnt - n, ent := r.ent, copy := none }
          (if n = 0 then [] else [{ r with cnt := n }], if left.cnt = 0 then [] else [left])
        else ([r], [])
      | none => ([r], [])
    let late := j.todo.zipIdx.flatMap fun (rs, g) => rs.flatMap fun r => (cut r).2.map fun (x : Run) => (g, x, e.hth.time)
    { j with todo := j.todo.map fun rs => rs.flatMap fun r => (cut r).1, deferred := j.deferred ++ late } }
  e.giveUp fun u dst => match u with
    | .stream _ => dst == p
    | _ => false

/-! ### Retirement of a SWEEP (R186, R187, R189) -/

/-- A SWEEP ends: its tiles and their lists are free, and its TOPK learns of it. -/
def Eng.sweepEnd (e : Eng) (j : SweepJob) (status : Byte) : Eng :=
  let bad := status == 3 || status == 4
  let fl : BitVec 4 := (if j.uncorr then 0b0100 else 0) ||| (if j.div then 0b0010 else 0) ||| (if j.lost then 0b1000 else 0)
  let e := e.onSwp fun w =>
    { w with parts := w.parts.filter (fun p => !(j.tiles && decide (j.t0 ≤ p.1 / 65536) && decide (p.1 / 65536 < j.t0 + j.nt))),
             sent := (w.sent.map fun x => (x.1, x.2.filter fun l => l.sweep != j.h.key)).filter fun x => !x.2.isEmpty,
             full := (w.full.map fun x => (x.1, x.2.filter fun l => l.sweep != j.h.key)).filter fun x => !x.2.isEmpty,
             topks := w.topks.map fun t => if t.sweep == some j.h.key then
               { t with swFlags := some (j.uncorr, j.div, j.lost), dead := t.dead || bad } else t }
  let e := e.letGo fun u => u == .stream j.h.key
  let e := e.setSweep { j with ended := true, tiles := false, arrived := [], queries := none, todo := [], deferred := [] }
  e.retire j.h.key (if bad then status else okStatus fl) fl

/-- SWEEP_RETIRE: every row is scored, excluded or lost and every partial list accepted, or the SWEEP ended early. -/
def Eng.sweepRetire (e : Eng) (k : Key) : Eng :=
  match e.sweepOf k with
  | none => e
  | some j =>
    let quiet := e.mp.owed (.ticket k) == 0
    let topkDead : Bool := match j.topk with
      | none => false
      | some t => (e.topkOf t).isNone
    let lists := (List.range j.nt).any fun i =>
      (e.swp.sent.get [] (j.t0 + i)).any (·.sweep == k) || (e.swp.full.get [] (j.t0 + i)).any (·.sweep == k) ||
        (List.range j.nq).any fun q =>
          let p := e.swp.parts.get {} (partKey (j.t0 + i) q)
          !p.cands.isEmpty || p.nans != 0
    if j.ended then e
    else if e.prior j.h = .dead then e.sweepEnd j 4
    else if j.fault then (if quiet then e.sweepEnd j 3 else e)
    else if topkDead ∨ (¬ j.out ∧ j.topk.isNone ∧ (e.dir k.dir).st = .draining) then e.sweepEnd j 4
    else if j.queries.isSome ∧ (j.todo.all fun rs => rs.all fun r => r.cnt == 0) ∧ j.deferred.isEmpty ∧ ¬ (lists ∧ ¬ j.out) ∧ quiet then
      e.sweepEnd j 0
    else e

/-- SWEEP_RETIRE, as the row gives it. -/
def execSweepRetire (k : Key) (s : State) : Host.Outcome State Fault Refusal := .next (s.live fun e => e.sweepRetire k)

/-! ### The instruction TOPK (R190, R191) -/

/-- An output or input list format that TOPK accepts (R191). -/
def listFmt (f : Fw) : Bool := [Fmt.fp32, .bf16, .fp16, .e5m2].contains f.fmt && f.plain

/-- The operand-range checks of a TOPK (R191). -/
def topkBad (t : TopkJob) : Bool :=
  let out := strOf t.outD
  let dc := strOf t.inD
  let dd := strOf t.offD
  !listFmt out.fmt || out.len != t.k || decide (out.rows < t.a + t.q) || decide ((strOf t.posD).rows < (t.a + t.q) * t.k) ||
    decide (1048576 < t.q * t.k) || (match t.floor with
      | some f => (of32 f).isNan
      | none => false) ||
    (t.exOn && dd.rows != t.q + 1) ||
    (t.mode1 && (dc.rows % t.q != 0 || !listFmt dc.fmt || decide (1024 < dc.len) || decide (dd.rows < dc.rows * dc.len))) ||
    out.aux % 8 != 0

/-- The instruction TOPK. -/
def Eng.topkIssue (e : Eng) (d : Fin 8) (w : IWord) (ext : W64) : Eng :=
  let i := w.imm.toNat
  let m1 := bit i 0
  let ex := bit i 1
  let fl := bit i 2
  let x := ext.toNat
  let db := xdesc ext 0
  let dc := xdesc ext 1
  let dd := xdesc ext 2
  let ok := !(m1 && ex) && fld i 21 16 == 0 && (m1 || ex || (dc == 0 && dd == 0)) && xdesc ext 3 == 0 &&
    (m1 || fld x 16 16 == 0) && (fl || fld x 32 32 == 0)
  e.insn d (iuses w true true true true (2 ^ 37 - 1) && ok) [w.sa, w.sb] fun y =>
    let os : List Opnd := [⟨w.desc, true, [0]⟩, ⟨db, false, [2]⟩] ++
      (if m1 then [⟨dc, false, [0]⟩, ⟨dd, false, [2]⟩] else if ex then [⟨dc, false, [2]⟩, ⟨dd, false, [3]⟩] else [])
    match y.refuses [] os with
    | some (c, r) => e.progFault d c r
    | none =>
      let tk : W32 := (y.get w.sb).setWidth 32
      let live := w.sb != 0 && (match y.slot tk with
        | some q => q.ticket == tk
        | none => false)
      let sw := if live then e.sweepOf { dir := d, ticket := tk } else none
      let dpos := fld i 13 8
      let mk (h : Hdr) (q : Nat) : TopkJob :=
        { h := h, mode1 := m1, exOn := ex, floor := if fl then some (BitVec.ofNat 32 (fld x 32 32)) else none,
          k := fld i 3 10 + 1, q := q, dpos := BitVec.ofNat 8 dpos, a := (y.get w.sa).toNat, outD := (y.desc w.desc).w,
          posD := (y.desc db).w, inD := if m1 || ex then (y.desc dc).w else 0, offD := if m1 || ex then (y.desc dd).w else 0,
          sweep := if m1 then none else sw.map (·.h.key), reserved := none, excl := [], lists := [], nans := [],
          swFlags := if m1 then none else sw.bind fun s => if s.ended then some (s.uncorr, s.div, s.lost) else none,
          dead := !m1 && sw.any (·.ended), fault := false, outs := none }
      let q := if m1 then fld x 16 16 + 1 else ((sw.map (·.nq)).getD 0)
      let linkBad := if m1 then sw.isSome else match sw with
        | some s => s.out || s.topk.isSome
        | none => true
      if !e.hth.isSelf dpos && decide (e.hth.size ≤ dpos) then e.progFault d 0x0A 0
      else if linkBad || topkBad (mk (y.hdr { dir := d, ticket := 0 } 0) q) then e.progFault d 0x0B 0
      else e.issue e.hsTopk d w y fun e h => e.onSwp fun z =>
        let tie (s : SweepJob) : SweepJob :=
          if !m1 && some s.h.key == sw.map (·.h.key) then { s with topk := some h.key } else s
        { z with topks := z.topks ++ [mk h q], sweeps := z.sweeps.map tie }

/-- TOPK. -/
def execTopk (d : Fin 8) (w : IWord) (ext : W64) (s : State) : Host.Outcome State Fault Refusal :=
  .next (s.live fun e => e.topkIssue d w ext)

/-! ### Reservation (R192) -/

/-- A TOPK ends: its entries are released, and a SWEEP that still runs for it will end aborted. -/
def Eng.topkEnd (e : Eng) (t : TopkJob) (status : Byte) (flags : BitVec 4) : Eng :=
  let e := e.onSwp fun w => { w with topks := w.topks.filter fun x => x.h.key != t.h.key }
  let e := e.letGo fun u => u == .topk t.h.key
  e.retire t.h.key status flags

/-- The TOPK may start (R108, R110): a linked one in its turn, one of mode 1 after its prior ticket too. -/
def Eng.topkGo (e : Eng) (t : TopkJob) : Bool := e.turn e.hsTopk (if t.mode1 then t.h else t.h.linked) == .go

/-- Merge-store entries not reserved. -/
def Swp.mergeFree (w : Swp) : Nat := 1048576 - (w.topks.map fun t => t.reserved.getD 0).sum

/-- TOPK_RESERVE: the exclusion lists are read and the entries reserved, in acceptance order (R192); `r` answers the reads. -/
def Eng.topkReserve (e : Eng) (k : Key) (r : ReadRes) : Eng :=
  match e.topkOf k with
  | none => e
  | some t =>
    let before := e.swp.topks.takeWhile fun x => x.h.key != k
    let blocks (x : TopkJob) : Bool := x.reserved.isNone && !x.dead && (e.topkGo x || x.h.key.dir == k.dir)
    if t.reserved.isSome || t.dead || !e.topkGo t || before.any blocks || e.busy 3 then e
    else
      let dd := strOf t.offD
      let dc := strOf t.inD
      let off (i : Nat) : Nat := leNat (e.rdMem false true (dd.addr i) 8)
      let total := if t.exOn then off t.q else 0
      let (e, ok) := if t.exOn then e.checkStr t.h dd true false else (e, true)
      let need := t.q * t.k + total
      if !ok then e.topkEnd t 3 0
      else if t.exOn ∧ e.answer dd.base dd.span r ≠ .ok then (e.answered dd.base dd.span).topkEnd t 3 0b0100
      else if 1048576 < need then e.topkEnd t 3 0
      else if e.swp.mergeFree < need then e
      else
        let (e, ok) := if t.exOn then e.check 4 t.h.master true false dc.base (8 * total) else (e, true)
        if !ok then e.topkEnd t 3 0
        else if t.exOn ∧ e.answer dc.base (8 * total) .ok ≠ .ok then (e.answered dc.base (8 * total)).topkEnd t 3 0b0100
        else
          let e := if t.exOn then (e.wideMove dd.base dd.span).wideMove dc.base (8 * total) else e
          let list (j : Nat) : List Nat :=
            (List.range (off (j + 1) - off j)).map fun i => leNat (e.rdMem false true (dc.addr (off j + i)) 8)
          let ex := if t.exOn then (List.range t.q).foldl (fun m j => SMap.set [] m j (list j)) ([] : SMap (List Nat)) else []
          e.setTopk { t with reserved := some need, excl := ex }

/-- TOPK_RESERVE, as the row gives it. -/
def execTopkReserve (k : Key) (r : ReadRes) (s : State) : Host.Outcome State Fault Refusal :=
  .next (s.live fun e => e.topkReserve k r)

/-! ### Merging lists in memory (R193, R196) -/

/-- Reads one input list in rank order into a query's list: the list, the NaNs skipped (R196), and the entries inserted
(R199). -/
def mergeList (t : TopkJob) : List (XVal × Nat) → List Cand × Nat × Nat → List Cand × Nat × Nat
  | [], st => st
  | (v, p) :: rest, (l, n, ins) =>
    let x : Cand := { score := v, row := p }
    if v.isNan then mergeList t rest (l, n + 1, ins)
    else if p = 2 ^ 64 - 1 ∨ ¬ t.meets v then (l, n, ins)
    else if l.any fun y => y.row == p && !rankAbove x y then mergeList t rest (l, n, ins)
    else
      let l := l.filter fun y => y.row != p
      if t.k ≤ l.length ∧ ¬ (l.getLast?.any fun y => rankAbove x y) then (l, n, ins)
      else mergeList t rest ((insertCand t.k l x).1, n, ins + 1)

/-- Reads and merges the inputs of mode 1: none where a read was refused, with whether it was uncorrectable. -/
def Eng.mergeInputs (e : Eng) (t : TopkJob) (r : ReadRes) : Eng × Except Bool TopkJob :=
  let dc := strOf t.inD
  let dd := strOf t.offD
  let (e, ok) := e.checkStr t.h dc true false
  let (e, ok) := if ok then e.check 4 t.h.master true false dd.base (8 * (dc.rows * dc.len)) else (e, false)
  if !ok then (e, .error false)
  else if e.answer dd.base (8 * (dc.rows * dc.len)) (e.answer dc.base dc.span r) ≠ .ok then
    ((e.answered dc.base dc.span).answered dd.base (8 * (dc.rows * dc.len)), .error true)
  else
    let row (i : Nat) : List (XVal × Nat) :=
      (dc.fmt.decodeRow dc.len (e.rdMem false true (dc.addr i) dc.item)).zip
        ((List.range dc.len).map fun x => leNat (e.rdMem false true (dd.addr (i * dc.len + x)) 8))
    let one (j : Nat) : List Cand × Nat × Nat :=
      (List.range (dc.rows / t.q)).foldl (fun st i => mergeList t (row (i * t.q + j)) st) ([], 0, 0)
    let (t, ins) := (List.range t.q).foldl (fun (st : TopkJob × Nat) j =>
      let r := one j
      ({ st.1 with lists := st.1.lists.set [] j r.1, nans := st.1.nans.set 0 j r.2.1 }, st.2 + r.2.2)) (t, 0)
    let e := (e.wideMove dc.base dc.span).wideMove dd.base (8 * (dc.rows * dc.len))
    (e.countSwp 1 ins, .ok t)

/-! ### Writing out (R194, R195) -/

/-- The status entry of a query (R194). -/
def TopkJob.status (t : TopkJob) (j : Nat) : Nat :=
  let n := (t.lists.get [] j).length
  let (u, d, l) := t.swFlags.getD (false, false, false)
  b2n (n == 0) + 2 * b2n u + 4 * b2n d + 8 * b2n l + n * 2 ^ 16 + min (t.nans.get 0 j) (2 ^ 32 - 1) * 2 ^ 32

/-- The writes of a query's outputs, in order: values, positions, status (R194). -/
def TopkJob.outputs (t : TopkJob) (j : Nat) : List (Nat × List Byte) :=
  let out := strOf t.outD
  let l := t.lists.get [] j
  let ranks := (List.range t.k).map fun i => l[i]?
  let vals := ranks.map fun x => (out.fmt.fmt.encode ((x.map (·.score)).getD (.inf true))).1
  let poss := ranks.flatMap fun x => leBytes 8 ((x.map (·.row)).getD (2 ^ 64 - 1))
  [(out.addr (t.a + j), pack out.fmt.fmt vals), ((strOf t.posD).base + 8 * ((t.a + j) * t.k), poss)] ++
    (if out.aux = 0 then [] else [(out.aux + 8 * (t.a + j), leBytes 8 (t.status j))])

/-- Flags of a TOPK's ticket (R195). -/
def TopkJob.flags (t : TopkJob) : BitVec 4 :=
  let (u, d, _) := t.swFlags.getD (false, false, false)
  let any := (List.range t.q).any fun j => t.status j % 16 != 0 || t.nans.get 0 j != 0
  (if u then 0b0100 else 0) ||| (if d then 0b0010 else 0) ||| (if any then 0b1000 else 0)

/-- Bytes in pieces of at most 1,024, for write messages (R288). -/
def pieces : Nat → Nat → List Byte → List (Nat × List Byte)
  | 0, _, _ => []
  | n + 1, a, bs => if bs.isEmpty then [] else (a, bs.take 1024) :: pieces n (a + 1024) (bs.drop 1024)

/-- Writes the outputs here in order, up to the first refusal or the first fill that fails: the error, none where all
are written, says whether it was uncorrectable. -/
def Eng.topkLocal (e : Eng) (t : TopkJob) (xs : List (Nat × List Byte)) : Eng × Option Bool :=
  xs.foldl (fun (st : Eng × Option Bool) x =>
    if st.2.isSome then st
    else match st.1.check 4 t.h.master false true x.1 x.2.length with
      | (e, false) => (e, some false)
      | (e, true) =>
        if e.answer x.1 x.2.length .ok ≠ .ok then (e.answered x.1 x.2.length, some true)
        else
          let e := e.putBytes false x.1 x.2
          (e.onHc fun c => c.touch t.h.who.cmd x.1 x.2.length, none)) (e, none)

/-- A TOPK that writes to a peer sends its next write, once the one before it was acknowledged: after a fault the rest are not
written (R195). -/
def Eng.topkNext (e : Eng) (k : Key) : Eng :=
  match e.topkOf k with
  | none => e
  | some t =>
    match t.fault, t.outs with
    | false, some (x :: rest) =>
      if e.hth.isFailed t.dpos.toNat then e.setTopk { t with fault := true }
      else (e.setTopk { t with outs := some rest }).send t.dpos.toNat (.write (BitVec.ofNat 64 x.1) x.2) (.topk k)
    | _, _ => e

/-- TOPK_WRITE_OUT: after its SWEEP has retired, or its inputs were read, a TOPK writes its lists and retires (R195). With
dpos elsewhere, the writes are sent in turn, and the TOPK retires once the peer has acknowledged the last. -/
def Eng.topkWriteOut (e : Eng) (k : Key) (rd wr : ReadRes) : Eng :=
  match e.topkOf k with
  | none => e
  | some t =>
    let waits := e.zw.awaits fun u _ _ => u == .topk k
    if e.busy 3 then e
    else if t.dead ∨ e.prior t.h = .dead then e.topkEnd t 4 0
    else if t.fault then e.topkEnd t 3 0
    else if t.outs.isSome then (if waits || !(t.outs == some []) then e else e.topkEnd t (okStatus t.flags) t.flags)
    else if t.reserved.isNone ∨ (¬ t.mode1 ∧ t.swFlags.isNone) then e
    else
      match (if t.mode1 then e.mergeInputs t rd else (e, .ok t)) with
      | (e, .error u) => e.topkEnd t 3 (if u then 0b0100 else 0)
      | (e, .ok t) =>
        let xs := (List.range t.q).flatMap t.outputs
        if e.hth.isSelf t.dpos.toNat then
          let a := (xs.head?.map (·.1)).getD 0
          let n := (xs.head?.map (·.2.length)).getD 0
          if e.answer a n wr ≠ .ok then (e.answered a n).topkEnd t 3 0b0100
          else match e.topkLocal t xs with
            | (e, none) => e.topkEnd t (okStatus t.flags) t.flags
            | (e, some u) => e.topkEnd t 3 (if u then 0b0100 else 0)
        else if e.hth.isFailed t.dpos.toNat then e.topkEnd t 3 0
        else
          let outs := xs.flatMap fun x => pieces (x.2.length / 1024 + 1) x.1 x.2
          (e.setTopk { t with outs := some outs }).topkNext k

/-- TOPK_WRITE_OUT, as the row gives it. -/
def execTopkWriteOut (k : Key) (rd wr : ReadRes) (s : State) : Host.Outcome State Fault Refusal :=
  .next (s.live fun e => e.topkWriteOut k rd wr)

/-- A peer refused an output write of a TOPK (R195). -/
def Eng.topkRefused (e : Eng) (k : Key) : Eng :=
  match e.topkOf k with
  | some t => e.setTopk { t with fault := true }
  | none => e

/-- TOPKs whose outputs go to a position that was declared failed fault (R195). -/
def Eng.topkFailed (e : Eng) (p : Nat) : Eng :=
  let ks := (e.zw.usesTo p).filterMap fun u => match u with
    | .topk k => some k
    | _ => none
  let e := e.giveUp fun u dst => match u with
    | .topk _ => dst == p
    | _ => false
  ks.foldl (fun e k => e.topkRefused k) e

/-! ### Restart and registers (R199, R200) -/

/-- A restart of the sweep block (R200): every SWEEP and TOPK retires aborted; a hold of R18 in force persists. -/
def Eng.swpRestart (e : Eng) : Eng :=
  let e := e.swp.sweeps.foldl (fun e j => if j.ended then e else e.sweepEnd j 4) e
  let e := e.swp.topks.foldl (fun e t => e.topkEnd t 4 0) e
  e.onSwp fun w => { w with sweeps := w.sweeps.filter (·.ended), topks := [], parts := [], sent := [], full := [] }

/-- A 32-bit read of a sweep register; `paced` says that the allowance is below full rate. -/
def swpRd (w : Swp) (paced : Bool) (off : Nat) : Nat :=
  let busy := ((List.range 64).map fun t => b2n (w.held t) * 2 ^ t).sum
  match off with
  | 0x000 => w.ctrs.read
  | 0x004 => b2n ((w.sweeps.all (·.ended)) && w.topks.isEmpty) + 2 * b2n (!w.moving.isEmpty) + 4 * b2n paced +
      8 * b2n w.uncorr + 16 * b2n w.lost
  | 0x008 => busy
  | 0x010 => w.mergeFree
  | _ => if 0x018 ≤ off ∧ off < 0x038 then w.ctrs.snapAt ((off - 0x018) / 8) else 0

/-- A write of a sweep register. -/
def swpWr (w : Swp) (off v : Nat) : Swp :=
  match off with
  | 0x000 => { w with ctrs := w.ctrs.write 1 v }
  | 0x004 => { w with uncorr := w.uncorr && !bit v 3, lost := w.lost && !bit v 4 }
  | _ => w

end Sys2Proof.Machine
end

