-- ==== Sys2Proof/Machine/Tedding.lean ====
section
/-! DEFINITION. The tedder (R201 to R226): update sets, TED and its records, OPT and its rows, the six optimizers, and the
write-back of rows. -/

namespace Sys2Proof.Machine

open Sys2Proof

/-- Changes the tedder block. -/
def Eng.onTed (e : Eng) (f : Ted → Ted) : Eng := { e with ted := f e.ted }
/-- Counts in a tedder counter (R225). -/
def Eng.countTed (e : Eng) (i n : Nat) : Eng := e.onTed fun t => { t with ctrs := t.ctrs.add i n }
/-- The TED of a ticket. -/
def Eng.tedOf (e : Eng) (k : Key) : Option TedJob := e.ted.teds.find? (·.h.key == k)
/-- Replaces a TED. -/
def Eng.setTed (e : Eng) (j : TedJob) : Eng :=
  e.onTed fun t => { t with teds := t.teds.map fun x => if x.h.key == j.h.key then j else x }
/-- The OPT of a ticket. -/
def Eng.optOf (e : Eng) (k : Key) : Option OptJob := e.ted.opts.find? (·.h.key == k)
/-- Replaces an OPT. -/
def Eng.setOpt (e : Eng) (j : OptJob) : Eng :=
  e.onTed fun t => { t with opts := t.opts.map fun x => if x.h.key == j.h.key then j else x }
/-- Update set `k`. -/
def Eng.tset (e : Eng) (k : Nat) : TSet := e.ted.sets.get {} k
/-- Sets update set `k`. -/
def Eng.setTset (e : Eng) (k : Nat) (s : TSet) : Eng := e.onTed fun t => { t with sets := t.sets.set {} k s }

/-- The lane of a row (R207). -/
def laneOf (tid row : Nat) : Nat := (tid % 16) ^^^ xorFold 4 10 (row % 2 ^ 40)

/-- The ranges of state elements of a window (R212): first element and count. -/
def stRanges (opt len t w : Nat) : List (Nat × Nat) :=
  match opt with
  | 2 | 3 => [(t, w)]
  | 4 => [(0, 1)]
  | 5 => [(t, w), (len + t, w)]
  | 6 => [(0, len), (len, 1)]
  | _ => []

/-- The state length an optimizer needs (R212). -/
def stLen (opt len : Nat) : Nat :=
  match opt with
  | 4 => 1 | 5 => 2 * len | 6 => len + 1 | _ => len

/-! ### Routing rows (R206, R216, R220) -/

/-- Entries in element order cover elements [lo, hi). -/
def covers (lo hi : Nat) (xs : List (Nat × Ent)) : Bool :=
  decide (hi ≤ xs.foldl (fun c x => if x.2.elemFirst ≤ c then max c (x.2.elemFirst + x.2.elemCount) else c) lo)

/-- The entries of a row that meet elements [lo, hi), in element order, when they cover them. -/
def Eng.rowRange (e : Eng) (tid row lo hi : Nat) : Option (List (Nat × Ent)) :=
  if !e.map.mapped tid then none
  else
    let xs := ((e.map.rowEnts tid row).filter fun x =>
      decide (x.2.elemFirst < hi) && decide (lo < x.2.elemFirst + x.2.elemCount))
    if covers lo hi xs then some xs else none

/-- The replicas that the active map gives each of these entries (R63). -/
def Eng.replicasOf (e : Eng) (xs : List (Nat × Ent)) : List (Nat × List Rep) :=
  xs.map fun x => (x.1, (e.map.reps.drop x.2.repIdx).take x.2.nrep)

/-- A lane claims a row of an entry (R216). -/
def Eng.claimedIn (e : Eng) (x : Ent) : Bool :=
  e.ted.lanes.any fun l => l.2.any fun c => (c.ents ++ c.stEnts.flatten).any fun y =>
    y.2.table == x.table && decide (x.firstRow ≤ c.row) && decide (c.row < x.firstRow + x.rowCount)

/-- A comparison that holds the claims of its entry's rows holds this one (R64, R328). -/
def Eng.comparing (e : Eng) (tid row : Nat) : Bool :=
  e.map.cmps.any fun c => c.begun && c.h.ent.table == tid && decide (c.h.ent.firstRow ≤ row) &&
    decide (row < c.h.ent.firstRow + c.h.ent.rowCount)

/-- Every entry is homed here. -/
def Eng.allHome (e : Eng) (xs : List (Nat × Ent)) : Bool := xs.all fun x => x.2.home == e.hth.pos

/-- An entry holds rows back (R220). -/
def Eng.holdsBack (e : Eng) (xs : List (Nat × Ent)) : Bool := xs.any fun x => x.2.hold || e.hth.isFailed x.2.home

/-! ### TED (R203, R204) -/

/-- The table's checks of R204. `sr` is the state table's refusal reason. -/
def tedBad (t st : Tab) (sr tFirst w dbRows glRows : Nat) (mapped : Bool) (dc : Str) : Bool :=
  let f := t.fmt
  let u (n : Nat) : Bool := (f.sk != 0 && n % f.gs != 0) || (f.rot != 0 && n % rotSize f.rot != 0)
  let sg := st.fmt
  t.opt == 0 || t.opt == 7 || !mapped || decide (dbRows < glRows) ||
    decide (t.len < tFirst + w) || u tFirst || (u w && tFirst + w != t.len) ||
    ((t.opt == 4 || t.opt == 6) && (tFirst != 0 || w != t.len)) ||
    (t.opt != 1 && (!t.stEn || sr != 0 || decide (st.rows < t.rows) || st.len != stLen t.opt t.len || sg.rot != 0 ||
      (sg.sk != 0 && (t.len % sg.gs != 0 || tFirst % sg.gs != 0 || w % sg.gs != 0)))) ||
    dc.fw != 0 || dc.len != 64 || dc.stride != 256 || dc.base % 256 != 0 || decide (2 ^ 28 ≤ dc.rows)

/-- The set takes a TED's contributions: it is another TED's set with the same table, window and record area (R204). -/
def TSet.matches (s : TSet) (j : TedJob) : Bool :=
  (tabOf s.tab).tid == (tabOf j.tab).tid && s.tFirst == j.tFirst && s.w == j.w && s.area.toNat == (strOf j.areaD).base

/-- Spoils a set (R208): the first cause is kept. -/
def Eng.spoil (e : Eng) (k : Nat) (cause : Nat) : Eng :=
  let s := e.tset k
  if s.spoiled || !s.opened then e
  else (e.setTset k { s with spoiled := true, cause := BitVec.ofNat 16 cause }).onTed fun t => { t with spoiled := true }

/-- A TED is applied to its set (R201, R202): it opens or joins it, or ends aborted. One that lost internal storage while it waited
spoils the set it opens (R389, log 216). -/
def Eng.tedJoin (e : Eng) (j : TedJob) : Eng :=
  let s := e.tset j.set
  if !s.opened then
    let a := strOf j.areaD
    let s : TSet := { opened := true, tab := j.tab, stTab := j.stTab, tFirst := j.tFirst, w := j.w,
                      area := BitVec.ofNat 64 a.base, areaLen := a.rows * 256, spoiled := j.fault, cause := if j.fault then 6 else 0 }
    ((e.setTset j.set s).setTed { j with joined := true }).onTed fun t => { t with spoiled := t.spoiled || j.fault }
  else if s.spoiled then e.setTed { j with joined := true, abort := true }
  else if s.matches j then e.setTed { j with joined := true }
  else (e.setTed { j with joined := true, abort := true }).spoil j.set 7

/-- An OPT has left its set: the TEDs that waited for it alone are applied, in acceptance order (R202). -/
def Eng.tedRelease (e : Eng) (k : Key) : Eng :=
  let free := e.ted.teds.filter fun j => j.behind == [k]
  let e := e.onTed fun t => { t with teds := t.teds.map fun j => { j with behind := j.behind.filter (· != k) } }
  free.foldl (fun e j => e.tedJoin { j with behind := [] }) e

/-- The open set that a TED of these operands would join has others (R204): the set that is open now, or, while an OPT of it has
not retired, the one that the first TED accepted after the last such OPT will open. -/
def Eng.tedClash (e : Eng) (j : TedJob) : Bool :=
  match j.behind.getLast? with
  | none => (e.tset j.set).opened && !(e.tset j.set).matches j
  | some o => match e.ted.teds.find? fun x => x.set == j.set && x.behind.contains o with
    | none => false
    | some x =>
      !({ tab := x.tab, tFirst := x.tFirst, w := x.w, area := BitVec.ofNat 64 (strOf x.areaD).base : TSet }.matches j)

/-- The instruction TED; `r` answers the read of the state table's descriptor. -/
def Eng.tedIssue (e : Eng) (d : Fin 8) (w : IWord) (ext : W64) (r : ReadRes) : Eng :=
  let i := w.imm.toNat
  let set : Fin 16 := ⟨fld i 0 4, by unfold fld; exact Nat.mod_lt _ (by decide)⟩
  let tFirst := fld i 4 12
  let db := xdesc ext 0
  let dc := xdesc ext 1
  e.insn d (iuses w true false true true 0xFFFF && fld ext.toNat 8 56 == 0) [w.sb] fun x =>
    let row := (x.desc w.desc).w
    let t := tabOf row
    match x.refuses [w.desc] [⟨db, false, [if t.iw = 0 then 1 else 2]⟩, ⟨dc, false, [0]⟩] with
    | some (c, q) => e.progFault d c q
    | none =>
      let tk : W32 := (x.get w.sb).setWidth 32
      let live := w.sb != 0 && (match x.slot tk with
        | some q => q.ticket == tk
        | none => false)
      match (if live then (e.gleanOf d tk).filter fun g => !g.out && !g.bags && g.consumer.isNone else none) with
      | none => e.progFault d 0x0B 0
      | some g =>
        let need := decide (2 ≤ t.opt) && decide (t.opt ≤ 6) && t.stEn && decide (t.stTid < e.map.tblCount)
        let a := (e.map.tblBase + BitVec.ofNat 64 (32 * t.stTid)).toNat
        if need ∧ e.swdWaits a 32 then e else
        let (e, ok) := if need then e.check 3 x.master true false a 32 else (e, true)
        if !ok then e.progFault d 0x04 0
        else if need ∧ e.answer a 32 r ≠ .ok then (e.answered a 32).progFault d 0x05 0
        else
          let (e, bs) := if need then e.readSward x.master a 32 else (e, [])
          let stW : BitVec 256 := BitVec.ofNat 256 (leNat bs)
          let sr := if need then tabReason (tabOf stW) t.stTid e.map.tblCount else 1
          let dcS := strOf (x.desc dc).w
          let behind := (e.ted.opts.filter fun o => o.set == set).map (·.h.key)
          let mk (h : Hdr) : TedJob :=
            { h := h, set := set, tFirst := tFirst, w := g.w, tab := row, stTab := stW, idxD := (x.desc db).w,
              areaD := (x.desc dc).w, behind := behind, joined := false, fault := false, abort := false, flags := 0 }
          let clash := e.tedClash (mk (x.hdr { dir := d, ticket := 0 } 0))
          if tedBad t (tabOf stW) sr tFirst g.w (strOf (x.desc db).w).rows (strOf g.idxD).rows (e.map.mapped t.tid) dcS || clash then
            e.progFault d 0x0B 0
          else e.issue e.hsTed d w x fun e h =>
            let e := (e.setGlean { g with consumer := some h.key }).onTed fun z => { z with teds := z.teds ++ [mk h] }
            if behind.isEmpty then e.tedJoin (mk h) else e

/-- TED. -/
def execTed (d : Fin 8) (w : IWord) (ext : W64) (r : ReadRes) (s : State) : Host.Outcome State Fault Refusal :=
  .next (s.live fun e => e.tedIssue d w ext r)

/-! ### Contributions (R205 to R208) -/

/-- A contribution is foreign (R206): no entry homed here holds its row and its whole target window. -/
def Eng.foreign (e : Eng) (s : TSet) (row : Nat) : Bool :=
  let t := tabOf s.tab
  !e.map.mapped t.tid || !((e.map.rowEnts t.tid row).any fun x => x.2.home == e.hth.pos &&
    decide (x.2.elemFirst ≤ s.tFirst) && decide (s.tFirst + s.w ≤ x.2.elemFirst + x.2.elemCount))

/-- Directory entries in use in a lane (R207). -/
def Ted.dirUsed (t : Ted) (lane : Nat) : Nat :=
  (t.sets.map fun x => (x.2.ents.filter fun v => laneOf (tabOf x.2.tab).tid v.row == lane).length).sum

/-- Appends a record and chains it (R207): the engine, and a spoil cause (0 for none). The new record and the 'next' of the row's
last one are both checked before either is written (log 217). -/
def Eng.appendRec (e : Eng) (j : TedJob) (g : Glean) (x : Elem) (row : Nat) (wr : ReadRes) : Eng × Nat :=
  let s := e.tset j.set
  let tid := (tabOf s.tab).tid
  let data := padTo 16 (g.gathered x)
  let q := 16 + data.length
  let off := s.used / 16
  let old := s.ents.find? (·.row == row)
  if s.areaLen < s.used + q then (e, 4)
  else if old.isNone ∧ 65536 ≤ e.ted.dirUsed (laneOf tid row) then (e, 5)
  else
    let a := s.area.toNat + s.used
    let div := bit x.outc.toNat 6
    let head := leBytes 8 (row % 2 ^ 41 + b2n div * 2 ^ 41) ++ leBytes 4 x.weight.toNat ++ leBytes 4 0xFFFFFFFF
    let link := match old with
      | some v => [(s.area.toNat + 16 * v.last + 12, leBytes 4 off)]
      | none => []
    let ws := (a, head ++ data) :: link
    let (e, ok) := ws.foldl (fun (st : Eng × Bool) w =>
      if !st.2 then st
      else match st.1.check 4 j.h.master false true w.1 w.2.length with
        | (e, false) => (e, false)
        | (e, true) => (e.answered w.1 w.2.length, e.answer w.1 w.2.length wr == .ok)) (e, true)
    if !ok then (e, 6)
    else
      let e := e.writeAll j.h.who ws
      let fw := if g.src then (strOf g.srcD).fw else (tabOf g.srcD).fw
      let ents := match old with
        | some v => s.ents.map fun u => if u.row == row then { v with last := off, n := v.n + 1 } else u
        | none => s.ents ++ [{ row := row, head := off, last := off, n := 1 }]
      let fmts := if (s.fmts.head?.map (·.2)) == some fw then s.fmts else (off, fw) :: s.fmts
      ((e.setTset j.set { s with used := s.used + q, ents := ents, fmts := fmts, contrib := s.contrib + 1,
                                 div := s.div || div }).countTed 1 1, 0)

/-- A position is dropped (R205); a masked or skipped one flags the TED (R209). -/
def Eng.tedDrop (e : Eng) (j : TedJob) (flag : Bool) : Eng :=
  let s := e.tset j.set
  (e.setTset j.set { s with dropped := s.dropped + 1 }).setTed
    { j with flags := j.flags ||| (if flag then 0b1000 else 0) }

/-- CONTRIBUTION_RECORD: the next position that the GLEAN delivers is dropped, recorded, or spoils the set (R205 to R208). -/
def Eng.contribution (e : Eng) (k : Key) (rd wr : ReadRes) : Eng :=
  match e.tedOf k, e.linked k with
  | some j, some g =>
    if !j.joined || g.dead || g.phase != .active || e.busy 4 || e.turn e.hsTed j.h.linked != .go then e
    else match g.ready with
      | none => e
      | some x =>
        let e := e.setGlean (g.take x)
        let s := e.tset j.set
        let o := x.outc.toNat
        let spoil (e : Eng) (c : Nat) (f : BitVec 4) : Eng :=
          (e.setTed { j with fault := true, flags := j.flags ||| f }).spoil j.set c
        if j.fault || j.abort then e
        else if s.spoiled then e.setTed { j with abort := true }
        else if fld o 0 3 ≠ 0 then e.tedDrop j (fld o 1 2 != 0)
        else if withheld x.outc then spoil e 3 (if bit o 5 then 0b0100 else 0)
        else
          let (e, f, v) := e.readItem j.h.master (strOf j.idxD) x.pos rd
          if f ≠ 0 then spoil e 6 0
          else match (tabOf s.tab).resolve v with
            | .pad => e.tedDrop j false
            | .masked => e.tedDrop j true
            | .fault => spoil e 1 0
            | .row row =>
              if e.foreign s row then spoil e 2 0
              else match e.appendRec j g x row wr with
                | (e, 0) => e.setTed { j with flags := j.flags ||| (if bit o 6 then 0b0010 else 0) }
                | (e, c) => spoil e c 0
  | _, _ => e

/-- CONTRIBUTION_RECORD, as the row gives it. -/
def execContributionRecord (k : Key) (rd wr : ReadRes) (s : State) : Host.Outcome State Fault Refusal :=
  .next (s.live fun e => e.contribution k rd wr)

/-! ### Retirement of a TED (R208, R209) -/

/-- A TED ends: an aborted one spoils its open set (R208), and its GLEAN discards what it still holds (R130). -/
def Eng.tedEnd (e : Eng) (j : TedJob) (status : Byte) : Eng :=
  let e := if status == 4 && j.joined then e.spoil j.set 7 else e
  let e := e.onTed fun t =>
    { t with teds := t.teds.filter fun x => x.h.key != j.h.key,
             opts := t.opts.map fun o => { o with after := o.after.filter (· != j.h.key) } }
  let e := e.onGln fun q => { q with gleans := (q.gleans.map fun g =>
    if g.consumer == some j.h.key && g.phase == .active && (status == 3 || status == 4) then
      { g with phase := .discarding 4, elems := [], redo := [] } else g).filter fun g =>
      !(g.consumer == some j.h.key && g.phase == .retired) }
  e.retire j.h.key status j.flags

/-- TED_RETIRE: every delivered position was dropped or recorded and the GLEAN chain has retired, or the TED ends aborted. -/
def Eng.tedRetire (e : Eng) (k : Key) : Eng :=
  match (match e.rs.get none 4 with
    | some (.inReset ..) => none
    | _ => e.tedOf k) with
  | none => e
  | some j =>
    let g := e.linked k
    let dead := match g with
      | some g => g.dead
      | none => true
    let quiet := e.mp.owed (.ticket k) == 0
    if j.fault then (if quiet && (dead || g.any (·.phase == .retired)) then e.tedEnd j 3 else e)
    else if dead then (if quiet then e.tedEnd j 4 else e)
    else if j.abort then (if quiet && g.any (·.phase == .retired) then e.tedEnd j 4 else e)
    else if j.joined && g.any (·.phase == .retired) && quiet then e.tedEnd j (okStatus j.flags)
    else e

/-- TED_RETIRE, as the row gives it. -/
def execTedRetire (k : Key) (s : State) : Host.Outcome State Fault Refusal := .next (s.live fun e => e.tedRetire k)

/-! ### The instruction OPT (R210) -/

/-- OPT. -/
def execOpt (d : Fin 8) (w : IWord) (ext : W64) (s : State) : Host.Outcome State Fault Refusal :=
  let set : Fin 16 := ⟨fld w.imm.toNat 0 4, by unfold fld; exact Nat.mod_lt _ (by decide)⟩
  .next (s.live fun e => e.insn d (iuses w true true true true 0xF && ext == 0) [w.sa, w.sb] fun x =>
    match x.refuses [] [⟨w.desc, true, [4]⟩] with
    | some (c, r) => e.progFault d c r
    | none =>
      let p := strOf (x.desc w.desc).w
      if p.rows < 8 ∨ p.aux % 64 ≠ 0 then e.progFault d 0x0B 0
      else e.issue e.hsTed d w x fun e h => e.onTed fun z =>
        let before := ((z.teds.filter fun j => j.set == set).map (·.h.key)) ++
          ((z.opts.filter fun o => o.set == set).map (·.h.key))
        let o : OptJob :=
          { h := h, set := set, t := x.get w.sa, parD := (x.desc w.desc).w, after := before, started := false, params := [],
            fault := false, todo := [], waiting := [], rows := 0, contrib := 0, replayed := 0, maxRep := 0, moved := 0,
            moved1 := none, uncorr := 0, nonfin := 0, fallback := false, flags := 0, nEl := 0, nClip := 0 }
        { z with opts := z.opts ++ [o] })

/-- The OPT may start (R202, R210): its prior ticket and what its set waited for have retired. -/
def Eng.optReady (e : Eng) (o : OptJob) : Bool :=
  e.turn e.hsTed o.h == .go && o.after.isEmpty && match e.tk.cuts with
    | c :: _ => c.opts.contains o.h.key
    | [] => true

/-- An OPT starts (R202, R210): its step number is checked now that its set is resolved, and one that an Adam optimizer cannot take
faults the program with 'operand range' before a row is touched (log 56). The parameter block is read once, at the first row; an
empty or spoiled set has none. -/
def Eng.optStart (e : Eng) (o : OptJob) (r : ReadRes) : Eng :=
  if o.started || !e.optReady o then e
  else
    let s := e.tset o.set
    let t := tabOf s.tab
    let p := strOf o.parD
    if s.opened && (t.opt == 5 || t.opt == 6) && (o.t == 0 || decide (2 ^ 32 ≤ o.t.toNat)) then
      (e.setOpt { o with started := true, fault := true }).progFault o.h.key.dir 0x0B 0
    else if !s.opened || s.spoiled || s.ents.isEmpty then e.setOpt { o with started := true }
    else
      let (e, ok) := e.check 4 o.h.master true false p.base 32
      let r := e.answer p.base 32 r
      let e := e.answered p.base 32
      if !ok then e.setOpt { o with started := true, fault := true }
      else if r ≠ .ok then e.setOpt { o with started := true, fault := true }
      else
        let (e, bs) := e.read false p.base 32
        let ws : List W32 := (List.range 8).map fun i => BitVec.ofNat 32 (le bs (4 * i) 4)
        let bad := ws.getD 7 0 != 0
        e.setOpt { o with started := true, params := ws, fault := o.fault || bad, todo := if bad then [] else s.ents.map (·.row) }

/-! ### Claims (R216, R217, R220) -/

/-- An OPT has, or may still get, a row of a table to step (R217): until it has started, its set's rows and the table of any TED
that may still record for it. -/
def Eng.optHas (e : Eng) (o : OptJob) (tid row : Nat) : Bool :=
  let s := e.tset o.set
  if o.started then s.opened && (tabOf s.tab).tid == tid && (o.todo.contains row || o.waiting.any (·.1 == row))
  else (s.opened && (tabOf s.tab).tid == tid && !s.spoiled && s.ents.any (·.row == row)) ||
    e.ted.teds.any fun j => o.after.contains j.h.key && (tabOf j.tab).tid == tid && !j.fault && !j.abort

/-- A row counts as moved (R220). -/
def OptJob.move (o : OptJob) (row : Nat) : OptJob :=
  { o with todo := o.todo.filter (· != row), waiting := o.waiting.filter (·.1 != row), moved := o.moved + 1,
           moved1 := o.moved1.orElse fun _ => some row }

/-- How a row of a set routes under the active map (R216, R220). -/
inductive RowRoute where
  | held                                   -- it waits for a commit
  | moved
  | home (row : List (Nat × Ent)) (state : List (List (Nat × Ent)))

/-- Routes a row of a set and its state row (R216, R220). -/
def Eng.routeSetRow (e : Eng) (s : TSet) (row : Nat) : RowRoute :=
  let t := tabOf s.tab
  let st := tabOf s.stTab
  let rows := e.rowRange t.tid row s.tFirst (s.tFirst + s.w)
  let sts := (stRanges t.opt t.len s.tFirst s.w).map fun x => e.rowRange st.tid row x.1 (x.1 + x.2)
  let xs := rows.getD []
  let ys := sts.map fun y => y.getD []
  if rows.isNone || sts.any Option.isNone then .moved
  else if e.holdsBack (xs ++ ys.flatten) then .held
  else if e.allHome (xs ++ ys.flatten) then .home xs ys
  else .moved

/-- A commit routes a waiting row again (R220): it waits on, is moved, or is free for its lane to claim. -/
def Eng.rerouteRow (e : Eng) (k : Key) (row : Nat) : Eng :=
  match e.optOf k with
  | none => e
  | some o => match e.routeSetRow (e.tset o.set) row with
    | .held => e
    | .moved => (e.setOpt (o.move row)).onTed fun z => { z with moved := true }
    | .home .. => e.setOpt { o with waiting := o.waiting.filter (·.1 != row), todo := o.todo ++ [row] }

/-- A commit routes every waiting row again (R220). -/
def Eng.rerouteRows (e : Eng) : Eng :=
  (e.ted.opts.flatMap fun o => o.waiting.map fun w => (o.h.key, w.1)).foldl (fun e x => e.rerouteRow x.1 x.2) e

/-- ROW_CLAIM: the row's lane claims it and routes it (R216, R220), unless a comparison of copies holds the row or its state row
(R328); `r` answers the parameter block's read at the OPT's first row. -/
def Eng.rowClaim (e : Eng) (k : Key) (lane : Fin 16) (row : Nat) (r : ReadRes) : Eng :=
  let e := match e.optOf k with
    | some o => if e.busy 4 then e else e.optStart o r
    | none => e
  match e.optOf k with
  | none => e
  | some o =>
    let s := e.tset o.set
    let t := tabOf s.tab
    let before := e.ted.opts.takeWhile fun x => x.h.key != k
    if !o.started || !o.todo.contains row || laneOf t.tid row != lane.val || (e.ted.lanes.get none lane).isSome ||
        (before.any fun x => e.optHas x t.tid row) || e.comparing t.tid row ||
        (t.opt != 1 && e.comparing (tabOf s.stTab).tid row) || e.busy 4 then e
    else match e.routeSetRow s row with
      | .held => e.setOpt { o with todo := o.todo.filter (· != row), waiting := o.waiting ++ [(row, e.hth.time)] }
      | .moved => (e.setOpt (o.move row)).onTed fun z => { z with moved := true }
      | .home xs ys =>
        let c : Claim := { k := k, row := row, ents := xs, repl := e.replicasOf (xs ++ ys.flatten), stEnts := ys, st := .claimed,
                           writes := [], reps := [], taps := [], wr := .ok, recs := 0, replays := 0, peers := 0 }
        (e.setOpt { o with todo := o.todo.filter (· != row) }).onTed fun z =>
          { z with lanes := z.lanes.set none lane (some c) }

/-- ROW_CLAIM, as the row gives it. -/
def execRowClaim (k : Key) (lane : Fin 16) (row : Nat) (r : ReadRes) (s : State) : Host.Outcome State Fault Refusal :=
  .next (s.live fun e => e.rowClaim k lane row r)

/-- TEDDER_ROW_WAIT_LIMIT: a row that waited as long as the retry limit is treated as moved (R220). -/
def Eng.rowWaitLimit (e : Eng) (k : Key) (row : Nat) : Eng :=
  match e.optOf k with
  | none => e
  | some o =>
    let lim := e.gln.retryLimit.toNat
    if lim ≠ 0 ∧ (o.waiting.any fun w => w.1 == row && decide (w.2.toNat + 1000 * lim ≤ e.hth.time.toNat)) then
      (e.setOpt (o.move row)).onTed fun z => { z with moved := true }
    else e

/-- TEDDER_ROW_WAIT_LIMIT, as the row gives it. -/
def execTedderRowWaitLimit (k : Key) (row : Nat) (s : State) : Host.Outcome State Fault Refusal :=
  .next (s.live fun e => e.rowWaitLimit k row)

/-! ### The six optimizers (R211 to R215) -/

/-- The bias correction: the exact value of 1 - beta^t, encoded to FP32 once (R213). -/
def bias (w : W32) (t : Nat) : XVal :=
  match of32 w with
  | .nan _ => qnan
  | .inf s => .inf (!(s && t % 2 == 1))
  | .fin s a => (XVal.ofRat (1 - (if s && t % 2 == 1 then -(a ^ t) else a ^ t))).r32

/-- The exact sum of squares over a row divided by its length, encoded once (R213). -/
def rowMean (g : List XVal) (len : Nat) : XVal :=
  ((g.foldl (fun s x => s.add (x.mul x)) xzero).div (.fin false (len : Rat))).r32

/-- An optimizer's parameters and constants of one OPT (R210, R213). -/
structure OptPar where
  opt : Nat
  len : Nat
  lr : XVal
  mu : XVal
  b1 : XVal
  b2 : XVal
  eps : XVal
  wd : XVal
  gs : XVal
  c1 : XVal
  c2 : XVal

/-- The parameters of an OPT. -/
def OptJob.par (o : OptJob) (t : Tab) : OptPar :=
  let p (i : Nat) : XVal := of32 (o.params.getD i 0)
  { opt := t.opt, len := t.len, lr := p 0, mu := p 1, b1 := p 2, b2 := p 3, eps := p 4, wd := p 5, gs := p 6,
    c1 := if t.opt = 5 ∨ t.opt = 6 then bias (o.params.getD 2 0) o.t.toNat else xzero,
    c2 := if t.opt = 5 ∨ t.opt = 6 then bias (o.params.getD 3 0) o.t.toNat else xzero }

/-- One optimizer step (R213): the accumulated gradient, the row window and the state elements, all as FP32 values, give
the new row and state. On a right-hand side m and v are the values before the step, but on the last line of the Adam branches. -/
def OptPar.step (p : OptPar) (acc w st : List XVal) : List XVal × List XVal :=
  let g0 := acc.map fun a => fmul a p.gs
  let g := if p.opt ≤ 4 then List.zipWith (fun g w => fadd g (fmul p.wd w)) g0 w else g0
  let n := w.length
  let down (w d : XVal) : XVal := fsub w (fmul p.lr d)
  let frac (w g den : XVal) : XVal := fsub w (fdiv (fmul p.lr g) den)
  let den (v : XVal) : XVal := fadd (fsqrt v) p.eps
  let mom (m g : XVal) : XVal := fadd (fmul p.b1 m) (fmul (fsub (.fin false 1) p.b1) g)
  let vel (v q : XVal) : XVal := fadd (fmul p.b2 v) (fmul (fsub (.fin false 1) p.b2) q)
  let adam (w m v : XVal) : XVal :=
    fsub w (fmul p.lr (fadd (fdiv (fdiv m p.c1) (den (fdiv v p.c2))) (fmul p.wd w)))
  match p.opt with
  | 1 => (List.zipWith down w g, [])
  | 2 => (List.zipWith down w st, List.zipWith (fun m g => fadd (fmul p.mu m) g) st g)
  | 3 => (List.zipWith (fun w x => frac w x.1 (den x.2)) w (g.zip st), List.zipWith (fun v g => fadd v (fmul g g)) st g)
  | 4 =>
    let v := st.headD xzero
    (List.zipWith (fun w g => frac w g (den v)) w g, [fadd v (rowMean g p.len)])
  | 5 =>
    let m := List.zipWith mom (st.take n) g
    let v := List.zipWith (fun v g => vel v (fmul g g)) (st.drop n) g
    (List.zipWith (fun w x => adam w x.1 x.2) w (m.zip v), m ++ v)
  | 6 =>
    let m := List.zipWith mom (st.take n) g
    let v := vel (st.getD n xzero) (rowMean g p.len)
    (List.zipWith (fun w m => adam w m v) w m, m ++ [v])
  | _ => (w, st)

/-- A pass with the tedder's 64-bit accumulators (R211). -/
def passTed (accs : List AccSt) (ts : List Term) : List AccSt :=
  (passExact accs [] ts).map fun a => { a with ovf := decide (a.s < -(2 ^ 63)) || decide (a.s > 2 ^ 63 - 1) }

/-- Passes and up to three replays (R211): the accumulators and the replays made. -/
def accumTed : Nat → List AccSt → List Term → List AccSt × Nat
  | 0, accs, ts => (passTed accs ts, 0)
  | n + 1, accs, ts =>
    let bs := passTed accs ts
    if bs.any (·.ovf) then
      let (r, k) := accumTed n (bs.map fun a => if a.ovf then { a with e := a.e + 16 } else a) ts
      (r, k + 1)
    else (bs, 0)

/-! ### Reading and writing rows (R216) -/

/-- A failed read: none, denied, or uncorrectable. -/
inductive RdFail where
  | fine | denied | uncorr
  deriving DecidableEq, Repr

/-- Gradient format of the record at an offset in 16-byte units. -/
def TSet.fmtAt (s : TSet) (off : Nat) : Fw :=
  (fwOf (((s.fmts.find? fun x => decide (x.1 ≤ off)).map (·.2)).getD 0) none).getD { fmt := .fp32, sk := 0, gs := 32, rot := 0 }

/-- Reads a row's records along its chain (R207, R211), de-rotated; a chain is followed for at most as many records as the set
holds. -/
def Eng.readChain (e : Eng) (m : Fin 64) (s : TSet) (res : ReadRes) : Nat → Nat → Eng × List Term × RdFail
  | 0, _ => (e, [], .fine)
  | n + 1, off =>
    let f := s.fmtAt off
    let len := 16 + (f.rowBytes s.w + 15) / 16 * 16
    let a := s.area.toNat + 16 * off
    match e.check 4 m true false a len with
    | (e, false) => (e, [], .denied)
    | (e, true) =>
      let r := e.answer a len res
      let e := e.answered a len
      if r ≠ .ok then (e, [], .uncorr)
      else
        let (e, bs) := e.read false a len
        let t : Term := { pos := 0, c := of32 (BitVec.ofNat 32 (le bs 8 4)), xs := convert f.rot 0 (f.decodeRow s.w (bs.drop 16)) }
        let nx := le bs 12 4
        if nx = 0xFFFFFFFF then (e, [t], .fine)
        else
          let (e, ts, w) := e.readChain m s res n nx
          (e, t :: ts, w)

/-- Where an entry's part of elements [lo, hi) of a row lies (R48): address, bytes, whether it starts at an odd nibble, elements. -/
def rowPiece (f : Fw) (x : Ent) (row lo hi : Nat) : Nat × Nat × Bool × Nat :=
  let a := max lo x.elemFirst - x.elemFirst
  let b := min hi (x.elemFirst + x.elemCount) - x.elemFirst
  let (o, n, odd) := f.piece a b
  (x.base.toNat + (row - x.firstRow) * (4 * x.stride4) + o, n, odd, b - a)

/-- The sward makes the read of elements [lo, hi) of a row wait (R229, R237, R254). -/
def Eng.rowWaits (e : Eng) (f : Fw) (xs : List (Nat × Ent)) (row lo hi : Nat) : Bool :=
  xs.any fun x =>
    let (a, n, _, _) := rowPiece f x.2 row lo hi
    x.2.tier != 3 && e.swdWaits a n

/-- Reads the elements [lo, hi) of a row from entries homed here, in the stored rotation domain (R216). -/
def Eng.readRowPart (e : Eng) (m : Fin 64) (f : Fw) (xs : List (Nat × Ent)) (row lo hi : Nat) (res : ReadRes) :
    Eng × List XVal × RdFail :=
  xs.foldl (fun (st : Eng × List XVal × RdFail) x =>
    let (e, vs, w) := st
    if w ≠ .fine then st
    else
      let (addr, n, odd, cnt) := rowPiece f x.2 row lo hi
      let host := x.2.tier == 3
      match e.check (if host then 5 else 3) m true false addr n with
      | (e, false) => (e, vs, .denied)
      | (e, true) =>
        let r := if host then res else e.answer addr n res
        let e := if host then e else e.answered addr n
        if r ≠ .ok then (e, vs, .uncorr)
        else
          let (e, bs) := if host then (e, e.host.rdN addr n) else e.readSward m addr n
          (e, vs ++ (f.decodeRow (cnt + b2n odd) bs).drop (b2n odd), .fine)) (e, [], .fine)

/-- The data of a take record (R323, R408), from the home writes of its entries in element order: elements, whether they begin at a
byte's second nibble, and bytes. The bytes stand entry after entry; in a 4-bit format without scales the elements are packed by their
numbers in the row, and the nibbles outside the window are those of home's edge bytes, or zero where home has no such nibble
(log 215). -/
def tapData (f : Fw) (lo : Nat) (ps : List (Nat × Bool × List Byte)) : List Byte :=
  if f.sk = 0 ∧ f.fmt.width = 4 then
    let nib (p : Nat × Bool × List Byte) : List Nat := unpack f.fmt (2 * p.2.2.length) p.2.2
    let cs := ps.flatMap fun p => ((nib p).drop (b2n p.2.1)).take p.1
    let lead := match ps.head? with
      | some p => if p.2.1 then (nib p).headD 0 else 0
      | none => 0
    let tail := match ps.getLast? with
      | some p => ((nib p).drop (b2n p.2.1 + p.1)).headD 0
      | none => 0
    pack f.fmt ((if lo % 2 = 1 then [lead] else []) ++ cs ++ if (lo + cs.length) % 2 = 1 then [tail] else [])
  else ps.flatMap fun p => p.2.2

/-- The home writes, the replica writes, the take record and the counts of the elements [lo, lo + xs.length) of a row, given in the
stored rotation domain (R216, R219, R63). -/
def Eng.rowWrites (e : Eng) (f : Fw) (es : List (Nat × Ent)) (repl : List (Nat × List Rep)) (tid row lo : Nat) (xs : List XVal) :
    List RowWrite × List RowWrite × TapRec × Cnt :=
  let (hs, rs, ps, cnt) := es.foldl (fun (st : List RowWrite × List RowWrite × List (Nat × Bool × List Byte) × Cnt) x =>
    let (hs, rs, ps, cnt) := st
    let a := max lo x.2.elemFirst
    let b := min (lo + xs.length) (x.2.elemFirst + x.2.elemCount)
    let off := (row - x.2.firstRow) * (4 * x.2.stride4)
    let (o, bs, c) := e.window (x.2.tier == 3) f x.2.elemCount (x.2.base.toNat + off) (a - x.2.elemFirst)
      ((xs.drop (a - lo)).take (b - a)) true
    let h : RowWrite := { pos := x.2.home, tier := x.2.tier, addr := x.2.base.toNat + off + o, data := bs }
    let reps := (((repl.find? (·.1 == x.1)).map (·.2)).getD []).map fun q =>
      ({ pos := q.position, tier := q.tier, addr := q.base.toNat + off + o, data := bs } : RowWrite)
    (hs ++ [h], rs ++ reps, ps ++ [(b - a, (a - x.2.elemFirst) % 2 == 1, bs)], cnt.add c)) ([], [], [], {})
  (hs, rs, { table := tid, row := row, first := lo, cnt := xs.length, data := tapData f lo ps }, cnt)

/-- A write of a row's piece on this engine, through its tier (R216). -/
def Eng.putRow (e : Eng) (h : Hdr) (w : RowWrite) : Eng × Bool :=
  let host := w.tier == 3
  match e.check (if host then 5 else 3) h.master false true w.addr w.data.length with
  | (e, false) => (e, false)
  | (e, true) =>
    if host then ({ e with host := e.host.wrN w.addr w.data }, true)
    else ((e.thruWr false w.addr w.data).onHc fun c => c.touch (some (h.reel, h.count)) w.addr w.data.length, true)

/-- A row's writes are made: home, then the replicas, here or over Zwiastiz (R216); a refused one faults the OPT. A replica on
a failed position is not written. -/
def Eng.writeHome (e : Eng) (lane : Fin 16) (c : Claim) : Eng :=
  match e.optOf c.k with
  | none => e
  | some o =>
    let fail (e : Eng) : Eng := match e.optOf c.k with
      | some o => e.setOpt { o with fault := true }
      | none => e
    let here (x : RowWrite) : Bool := x.pos == e.hth.pos
    let (e, ok) := if c.wr ≠ .ok then (fail e, false)
      else (c.writes ++ c.reps.filter here).foldl (fun (st : Eng × Bool) x =>
        if !st.2 then st
        else match st.1.putRow o.h x with
          | (e, true) => (e, true)
          | (e, false) => (fail e, false)) (e, true)
    let away := if ok then (c.reps.filter fun x => !here x && !e.hth.isFailed x.pos).flatMap fun x =>
        (pieces (x.data.length / 1024 + 1) x.addr x.data).map fun y => (x.pos, y) else []
    let e := away.foldl (fun e x => e.send x.1 (.write (BitVec.ofNat 64 x.2.1) x.2.2) (.replica lane)) e
    let c := { c with st := .written, peers := away.length, recs := if ok then c.recs else 0 }
    let c := { c with writes := if ok then c.writes else [] }
    e.onTed fun z => { z with lanes := z.lanes.set none lane (some c) }

/-- ROW_STEP: the lane reads the records, the row and its state, accumulates, steps, requantizes, and writes home unless the
tap has to accept the copies first (R211, R213, R216, R219, R221). A denied read ends the row with the OPT's fault and no message
(log 60). -/
def Eng.rowStep (e : Eng) (lane : Fin 16) (rec' row st wr : ReadRes) : Eng :=
  match e.ted.lanes.get none lane with
  | none => e
  | some c =>
    match (if c.st = .claimed ∧ ¬ e.busy 4 then e.optOf c.k else none) with
    | none => e
    | some o =>
      let s := e.tset o.set
      let t := tabOf s.tab
      let sf := (tabOf s.stTab).fmt
      let f := t.fmt
      let ent := (s.ents.find? (·.row == c.row)).getD { row := c.row, head := 0, last := 0, n := 0 }
      let hi := s.tFirst + s.w
      let rs := stRanges t.opt t.len s.tFirst s.w
      let waits := e.rowWaits f c.ents c.row s.tFirst hi ||
        (rs.zip c.stEnts).any fun y => e.rowWaits sf y.2 c.row y.1.1 (y.1.1 + y.1.2)
      if waits then e else
      let (e, ts, f1) := e.readChain o.h.master s rec' s.contrib ent.head
      let (e, ws, f2) := if f1 = .fine then e.readRowPart o.h.master f c.ents c.row s.tFirst hi row else (e, [], .fine)
      let (e, ss, f3) := (rs.zip c.stEnts).foldl (fun (x : Eng × List (List XVal) × RdFail) y =>
        let (e, vs, w) := x
        if f1 ≠ .fine ∨ f2 ≠ .fine ∨ w ≠ .fine then x
        else
          let (e, v, w) := e.readRowPart o.h.master sf y.2 c.row y.1.1 (y.1.1 + y.1.2) st
          (e, vs ++ [v], w)) (e, [], .fine)
      let leave (e : Eng) : Eng := e.onTed fun z => { z with lanes := z.lanes.set none lane none }
      if f1 = .denied ∨ f2 = .denied ∨ f3 = .denied then leave (e.setOpt { o with fault := true })
      else if f1 ≠ .fine ∨ f2 ≠ .fine ∨ f3 ≠ .fine then
        let what := b2n (f1 != .fine) + 2 * b2n (f2 != .fine) + 4 * b2n (f3 != .fine)
        let e := e.setOpt { o with uncorr := o.uncorr + 1, flags := o.flags ||| 0b0100 }
        let e := (leave e).onTed fun z => { z with uncorr := true }
        e.post (e.mreelOf o.h.reel) 6 lane 0x0601
          (c.row + t.tid * 2 ^ 48 + what * 2 ^ 64 + workTag o.h.reel o.h.count)
      else
        let (accs, reps) := accumTed 3 (startAccs false s.w [] ts) ts
        let fb := accs.any (·.ovf)
        let (nw, ns) := (o.par t).step (accs.map AccSt.value) ((convert f.rot 0 ws).map XVal.r32) (ss.flatten.map XVal.r32)
        let nonf := nw.any fun x => !x.isFin
        let (h1, r1, t1, c1) := e.rowWrites f c.ents c.repl t.tid c.row s.tFirst (convert 0 f.rot nw)
        let (h2, r2, t2, c2, _) := (rs.zip c.stEnts).foldl
          (fun (x : List RowWrite × List RowWrite × List TapRec × Cnt × List XVal) y =>
            let (h, r, t, k, left) := x
            let (h', r', t', k') := e.rowWrites sf y.2 c.repl (tabOf s.stTab).tid c.row y.1.1 (left.take y.1.2)
            (h ++ h', r ++ r', t ++ [t'], k.add k', left.drop y.1.2)) ([], [], [], {}, ns)
        let e := (e.graded (some t.tid) c1).graded (some (tabOf s.stTab).tid) c2
        let e := e.setOpt { o with fallback := o.fallback || fb, nonfin := o.nonfin + b2n nonf, nEl := o.nEl + c1.el + c2.el,
                                   nClip := o.nClip + c1.clip + c2.clip }
        let e := (if fb then e.onTed fun z => { z with fallback := true } else e).countTed 2 reps
        let c := { c with writes := h1 ++ h2, reps := r1 ++ r2, taps := t1 :: t2, wr := wr, recs := ts.length, replays := reps }
        if e.tk.tap then e.onTed fun z => { z with lanes := z.lanes.set none lane (some { c with st := .tap }) }
        else e.writeHome lane c

/-- ROW_STEP, as the row gives it. -/
def execRowStep (lane : Fin 16) (rec' row st wr : ReadRes) (s : State) : Host.Outcome State Fault Refusal :=
  .next (s.live fun e => e.rowStep lane rec' row st wr)

/-- ROW_RELEASE: the home writes are acknowledged, the tap has accepted and every replica has acknowledged (R216). -/
def Eng.rowRelease (e : Eng) (lane : Fin 16) : Eng :=
  match e.ted.lanes.get none lane with
  | none => e
  | some c =>
    if c.st ≠ .written ∨ c.peers ≠ 0 then e
    else
      let e := e.onTed fun z => { z with lanes := z.lanes.set none lane none }
      match e.optOf c.k with
      | none => e
      | some o =>
        if c.writes.isEmpty then e
        else (e.setOpt { o with rows := o.rows + 1, contrib := o.contrib + c.recs, replayed := o.replayed + b2n (c.replays != 0),
                                maxRep := max o.maxRep c.replays }).countTed 0 1

/-- ROW_RELEASE, as the row gives it. -/
def execRowRelease (lane : Fin 16) (s : State) : Host.Outcome State Fault Refusal := .next (s.live fun e => e.rowRelease lane)

/-- A peer answered a replica write (R216): a denial or an error faults the OPT. -/
def Eng.replicaAck (e : Eng) (lane : Fin 16) (status : Nat) : Eng :=
  match e.ted.lanes.get none lane with
  | none => e
  | some c =>
    let e := e.onTed fun z => { z with lanes := z.lanes.set none lane (some { c with peers := c.peers - 1 }) }
    match (if status = 0 then none else e.optOf c.k) with
    | some o => e.setOpt { o with fault := true }
    | none => e

/-- Replica writes to a position that was declared failed are given up (R216). -/
def Eng.replicaFailed (e : Eng) (p : Nat) : Eng :=
  let lanes := (e.zw.usesTo p).filterMap fun u => match u with
    | .replica l => some l
    | _ => none
  let e := e.giveUp fun u dst => match u with
    | .replica _ => dst == p
    | _ => false
  lanes.foldl (fun e l => e.replicaAck l 0) e

/-! ### OPT completion (R222) -/

/-- The OPT's summary (R222). -/
def OptJob.summary (o : OptJob) (s : TSet) : List Byte :=
  leBytes 8 o.rows ++ leBytes 8 o.contrib ++ leBytes 8 s.dropped ++ leBytes 8 o.replayed ++ leBytes 4 o.moved ++
    leBytes 4 o.uncorr ++ leBytes 4 o.nonfin ++
    leBytes 1 o.maxRep ++ leBytes 1 (b2n s.spoiled + 2 * b2n o.fallback + 4 * b2n s.div) ++ leBytes 2 s.cause.toNat ++
    leBytes 8 o.t.toNat ++ leBytes 8 0

/-- The check of an OPT's clip share at its completion (R44). -/
def Eng.optClip (e : Eng) (o : OptJob) : Eng × Bool :=
  let s := e.tset o.set
  if s.opened then e.clipCheck o.h (tabOf s.tab).tid o.nEl o.nClip else (e, false)

/-- An OPT leaves the tedder: what waited for it goes on. -/
def Eng.optLeave (e : Eng) (k : Key) : Eng :=
  let e := e.onTed fun z =>
    { z with opts := (z.opts.filter fun o => o.h.key != k).map fun o => { o with after := o.after.filter (· != k) } }
  e.tedRelease k

/-- OPT_RETIRE: every row was written or refused; the summary is written, the set released, and the OPT retires (R222). An
OPT whose prior ticket failed leaves its set as it stands (R202). -/
def Eng.optRetire (e : Eng) (k : Key) (rd wr : ReadRes) : Eng :=
  match e.optOf k with
  | none => e
  | some o =>
    if e.busy 4 then e
    else if !o.started && e.prior o.h == .dead then (e.optLeave k).retire k 4 0
    else
      let e := e.optStart o rd
      match e.optOf k with
      | none => e
      | some o =>
        let own := e.ted.lanes.any fun l => l.2.any fun c => c.k == k
        if !o.started || !o.todo.isEmpty || !o.waiting.isEmpty || own then e
        else
          let s := e.tset o.set
          let tid := (tabOf s.tab).tid
          let e := match o.moved1 with
            | some r => e.post (e.mreelOf o.h.reel) 6 (laneOf tid r) 0x0600
                (r + tid * 2 ^ 48 + min o.moved 0xFFFFFFFF * 2 ^ 64 + workTag o.h.reel o.h.count)
            | none => e
          let aux := (strOf o.parD).aux
          let (e, ok) := if aux = 0 then (e, true) else e.check 4 o.h.master false true aux 64
          let sumBad := aux != 0 && ok && e.answer aux 64 wr != .ok
          let e := if aux = 0 ∨ ¬ ok ∨ sumBad then e.answered aux 64
            else (e.putBytes false aux (o.summary s)).onHc fun c => c.touch (some (o.h.reel, o.h.count)) aux 64
          let (e, clip) := e.optClip o
          let fl : BitVec 4 := o.flags ||| (if clip then 1 else 0) ||| (if o.nonfin ≠ 0 then 0b1000 else 0) |||
            (if s.div then 0b0010 else 0)
          let bad := o.fault || s.spoiled || o.moved != 0 || o.uncorr != 0 || !ok || sumBad
          let e := if s.opened && !s.spoiled && o.params != [] then
              { e with tk := { e.tk with lastOpt := e.tk.lastOpt.set 0 tid o.t } } else e
          let e := (e.setTset o.set {}).optLeave k
          e.retire k (if bad then 3 else okStatus fl) fl

/-- OPT_RETIRE, as the row gives it. -/
def execOptRetire (k : Key) (rd wr : ReadRes) (s : State) : Host.Outcome State Fault Refusal :=
  .next (s.live fun e => e.optRetire k rd wr)

/-! ### Restart and registers (R225, R226) -/

/-- The acknowledgements of the replica writes of some lanes are no longer waited for (R226): they are discarded as they come. -/
def Eng.leaveReplicas (e : Eng) (p : Fin 16 → Bool) : Eng :=
  let left (u : Purpose) : Purpose := match u with
    | .replica l => if p l then .left else u
    | _ => u
  e.onZw fun z => { z with tracked := z.tracked.map fun t => { t with use := left t.use },
                           blocked := z.blocked.map fun w => (w.1, w.2.1, left w.2.2) }

/-- An OPT ends aborted with its lanes' rows (R226, R294): its set is released with every record, and no summary is written. -/
def Eng.optAbort (e : Eng) (o : OptJob) (fl : BitVec 4) : Eng :=
  let (e, clip) := e.optClip o
  let mine (l : Fin 16) : Bool := (e.ted.lanes.get none l).any fun c => c.k == o.h.key
  let e := e.leaveReplicas mine
  let e := e.onTed fun z => { z with lanes := z.lanes.filter fun l => l.2.all fun c => c.k != o.h.key }
  let e := (e.setTset o.set {}).optLeave o.h.key
  e.retire o.h.key 4 (o.flags ||| fl ||| (if clip then 1 else 0))

/-- A restart of the tedder (R226): TEDs and OPTs retire aborted, every set is discarded. The block is idle once the rows that had
reached their home write are complete; at its timeout the writes already sent to replicas go on, and a row whose copies the tap has
not accepted is not written (R21). -/
def Eng.tedRestart (e : Eng) : Eng :=
  let clips := e.ted.opts.foldl (fun (st : Eng × List (Key × Bool)) o =>
    let (e, c) := st.1.optClip o
    (e, st.2 ++ [(o.h.key, c)])) (e, [])
  let e := clips.1.onTed fun z => { z with sets := [], lanes := [] }
  let e := e.ted.teds.foldl (fun e j => e.tedEnd j 4) e
  let e := clips.2.foldl (fun e x => (e.onTed fun z => { z with opts := z.opts.filter fun o => o.h.key != x.1 }).retire
    x.1 4 (if x.2 then 1 else 0)) e
  (e.leaveReplicas fun _ => true).onTed fun z => { z with sets := [], teds := [], opts := [], lanes := [] }

/-- A 32-bit read of a tedder register. -/
def tedRd (t : Ted) (off : Nat) : Nat :=
  match off with
  | 0x000 => t.ctrs.read
  | 0x004 => b2n (t.teds.isEmpty && t.opts.isEmpty && t.sets.all fun s => !s.2.opened) + 2 * b2n t.spoiled + 4 * b2n t.moved +
      8 * b2n t.uncorr + 16 * b2n t.fallback
  | 0x008 => ((List.range 16).map fun k =>
      let s := t.sets.get {} k
      b2n s.opened * 2 ^ k + b2n s.spoiled * 2 ^ (16 + k)).sum
  | 0x00C => 1048576 - (t.sets.map fun s => s.2.ents.length).sum
  | _ => if 0x010 ≤ off ∧ off < 0x030 then t.ctrs.snapAt ((off - 0x010) / 8) else 0

/-- A write of a tedder register. -/
def tedWr (t : Ted) (off v : Nat) : Ted :=
  match off with
  | 0x000 => { t with ctrs := t.ctrs.write 1 v }
  | 0x004 => { t with spoiled := t.spoiled && !bit v 1, moved := t.moved && !bit v 2, uncorr := t.uncorr && !bit v 3,
                      fallback := t.fallback && !bit v 4 }
  | _ => t

end Sys2Proof.Machine
end

