-- ==== Sys2Proof/Machine/Maps.lean ====
section
/-! DEFINITION. The shard map's commits (R53 to R58): the check of a staged map, its activation or refusal; the drain of old
requests; replica comparison and reload (R64); the table block's registers. -/

namespace Sys2Proof.Machine

open Sys2Proof

/-! ### Messages to the lead (R298, R312) -/

/-- A message whose destination is this engine is delivered to it at once. -/
def Eng.toSelf (e : Eng) (b : ZBody) : Eng :=
  let p := BitVec.ofNat 8 e.hth.pos
  e.onZw fun z => { z with inbox := z.inbox ++ [{ vc := false, dst := p, src := p, seq := 0, body := b }] }

/-- Sends a cascade message to a position, itself included. -/
def Eng.sendTo (e : Eng) (p : Nat) (b : ZBody) : Eng := if p = e.hth.pos then e.toSelf b else e.send p b

/-- Sends a cascade message to the lead. -/
def Eng.toLead (e : Eng) (b : ZBody) : Eng := if e.hth.isLead then e.toSelf b else e.sendTo e.hth.lead b

/-! ### A staged map's bytes (R53) -/

/-- A map's header. -/
structure MapHdr where
  version : Nat
  nEnt : Nat
  nRep : Nat
  crc  : Nat
  rsv  : Bool

/-- Reads a header from its 64 bytes. -/
def mapHdr (bs : List Byte) : MapHdr :=
  { version := le bs 0 4, nEnt := le bs 4 4, nRep := le bs 8 4, crc := le bs 0x10 4,
    rsv := le bs 0xC 4 != 0 || le bs 0x14 44 != 0 }

/-- Reads a shard entry from its 32 bytes, with whether a reserved field is nonzero. -/
def entOf (bs : List Byte) : Ent × Bool :=
  let w0 := le bs 0 8
  let w1 := le bs 8 8
  let w3 := le bs 24 8
  ({ firstRow := fld w0 0 41, table := fld w0 41 12, tier := fld w0 53 3, home := fld w0 56 8, rowCount := fld w1 0 41,
     elemFirst := fld w1 41 12, hold := bit w1 53, base := BitVec.ofNat 64 (le bs 16 8), elemCount := fld w3 0 13,
     stride4 := fld w3 13 13, nrep := fld w3 26 3, repIdx := fld w3 32 16 },
   fld w1 54 10 != 0 || fld w3 29 3 != 0 || fld w3 48 16 != 0)

/-- An entry as the 32 bytes of a map (R53). -/
def Ent.toBytes (x : Ent) : List Byte :=
  leBytes 8 (x.firstRow + x.table * 2 ^ 41 + x.tier * 2 ^ 53 + x.home * 2 ^ 56) ++
    leBytes 8 (x.rowCount + x.elemFirst * 2 ^ 41 + b2n x.hold * 2 ^ 53) ++ leBytes 8 x.base.toNat ++
    leBytes 8 (x.elemCount + x.stride4 * 2 ^ 13 + x.nrep * 2 ^ 26 + x.repIdx * 2 ^ 32)

/-- Reads a replica entry from its 16 bytes, with whether a reserved field is nonzero. -/
def repOf (bs : List Byte) : Rep × Bool :=
  let w1 := le bs 8 8
  ({ base := BitVec.ofNat 64 (le bs 0 8), position := fld w1 0 8, tier := fld w1 8 3 }, fld w1 11 53 != 0)

/-- A replica entry as the 16 bytes of a map. -/
def Rep.toBytes (x : Rep) : List Byte := leBytes 8 x.base.toNat ++ leBytes 8 (x.position + x.tier * 2 ^ 8)

/-- Pieces of `n` bytes of a list, `k` of them. -/
def chunksOf (n : Nat) : Nat → List Byte → List (List Byte)
  | 0, _ => []
  | k + 1, bs => bs.take n :: chunksOf n k (bs.drop n)

/-- Bytes of a map. -/
def mapBytes (nEnt nRep : Nat) : Nat := 0x8040 + 32 * nEnt + 16 * nRep

/-- A whole map's bytes (R53), from its tables' index, its entries and its replicas. -/
def mapImage (version : Nat) (index : SMap (Nat × Nat)) (ents : List Ent) (reps : List Rep) : List Byte :=
  let body := ((List.range 4096).flatMap fun t =>
      let (f, n) := index.get (0, 0) t
      leBytes 8 (f + n * 2 ^ 32)) ++ ents.flatMap Ent.toBytes ++ reps.flatMap Rep.toBytes
  leBytes 4 version ++ leBytes 4 ents.length ++ leBytes 4 reps.length ++ leBytes 4 0 ++ leBytes 4 (crc32c body) ++
    List.replicate 44 0 ++ body

/-! ### The check (R54) -/

/-- v follows u (R55). -/
def follows (v u : W32) : Bool := let d := (v - u).toNat; decide (1 ≤ d) && decide (d < 2 ^ 31)

/-- Whether the ranges (first, count), sorted, tile elements [pos, n) without a gap or an overlap. -/
def tiles : Nat → Nat → List (Nat × Nat) → Bool
  | pos, n, [] => decide (pos = n)
  | pos, n, (a, c) :: r => decide (a = pos) && tiles (a + c) n r

/-- Reason 3 of R54: every element of every row is covered once. Rows between two ends of entries are covered alike. -/
def coverOk (rows len : Nat) (xs : List Ent) : Bool :=
  let cuts := (0 :: xs.flatMap fun x => [x.firstRow, x.firstRow + x.rowCount]).filter fun r => decide (r < rows)
  cuts.all fun r =>
    let mine := (xs.filter fun x => decide (x.firstRow ≤ r) && decide (r < x.firstRow + x.rowCount)).map fun x =>
      (x.elemFirst, min (x.elemFirst + x.elemCount) len - x.elemFirst)
    tiles 0 len ((mine.filter fun p => p.2 != 0).mergeSort fun a b => decide (a.1 ≤ b.1))

/-- Reason 4 of R54 for an entry of a table. -/
def rangeBad (t : Tab) (x : Ent) : Bool :=
  let f := t.fmt
  let mis (k : Nat) : Bool := (f.sk != 0 && k % f.gs != 0) || (f.rot != 0 && k % rotSize f.rot != 0)
  mis x.elemFirst || (mis x.elemCount && x.elemFirst + x.elemCount != t.len) || x.elemCount == 0 ||
    decide (4096 < x.elemCount) || decide (t.len < x.elemFirst + x.elemCount) || decide (x.stride4 * 4 < x.bytes f)

/-- Reason 5 of R54 for an entry: `n` is the heath's size. -/
def placeBad (n : Nat) (reps : List Rep) (x : Ent) : Bool :=
  let rs := (reps.drop x.repIdx).take x.nrep
  let ps := x.home :: rs.map (·.position)
  decide (3 < x.tier) || rs.any (fun r => decide (3 < r.tier)) || ps.any (fun p => decide (n ≤ p)) ||
    decide (ps.dedup.length ≠ ps.length)

/-- Reason 8 of R54 for an entry's rows. -/
def rowsBad (tab : Tab) (x : Ent) : Bool :=
  x.rowCount == 0 || decide (2 ^ 40 < x.rowCount) || decide (tab.rows < x.firstRow + x.rowCount)

/-- The entries are sorted by first_row and then elem_first. -/
def entsSorted : List Ent → Bool
  | x :: y :: r => (decide (x.firstRow < y.firstRow) || (x.firstRow == y.firstRow && decide (x.elemFirst ≤ y.elemFirst))) &&
      entsSorted (y :: r)
  | _ => true

/-- A parsed map. -/
structure MapImg where
  version : W32
  index : SMap (Nat × Nat)
  ents  : List Ent
  reps  : List Rep
  tabs  : SMap (BitVec 256)

/-- The end of the HBM range or far-tier window that holds an address (R227). -/
def Mp.rangeEnd (p : Mp) (a : Nat) : Option Nat :=
  if p.inHbm a then some (p.hbmBase.toNat + p.hbmSize * 2 ^ 30)
  else if p.inFar a then some (p.farBase.toNat + fld p.farCfg.toNat 0 13 * 2 ^ 30)
  else none

/-- How a read of the map's check is answered: `bad` is the one that met an uncorrectable error. -/
def mapRes (bad : Option MapRead) (x : MapRead) : ReadRes := if bad = some x then .uncorr else .ok

/-- The check of one table (R54): its reasons, and its descriptor. `stray` are entries that name it in no range of the index: they
are held to its element and row bounds alone. An unmapped table (`cnt` = 0) is checked for these. -/
def Eng.tableCheck (e : Eng) (bad : Option MapRead) (ents stray : List Ent) (t first cnt : Nat) : Eng × List Nat × BitVec 256 :=
  let past := decide (ents.length < first + cnt)
  if past ∧ stray = [] then (e, [7], 0)
  else
    let mine := if past then [] else (ents.drop first).take cnt
    let all := mine ++ stray
    let order := (if entsSorted mine && mine.all (fun x => x.table == t) then [] else [8]) ++ (if past then [7] else [])
    if e.map.tblCount ≤ t then (e, 8 :: order, 0)
    else
      let a := e.map.tblBase.toNat + 32 * t
      match e.check 3 63 true false a 32 with
      | (e, false) => (e, 8 :: order, 0)
      | (e, true) =>
        if e.answer a 32 (mapRes bad (.desc t)) ≠ .ok then (e, 9 :: order, 0)
        else
          let (e, bs) := e.readSward 63 a 32
          let w : BitVec 256 := BitVec.ofNat 256 (leNat bs)
          let tab := tabOf w
          if tabReason tab t e.map.tblCount ≠ 0 then (e, 8 :: order, w)
          else
            (e, order ++ (if mine = [] ∨ coverOk tab.rows tab.len mine then [] else [3]) ++
              (if all.any (rangeBad tab) then [4] else []) ++ (if all.any (rowsBad tab) then [8] else []), w)

/-- The entries that no range of the index holds. -/
def strays (ents : List Ent) (idx : List (Nat × Nat × Nat)) : List Ent :=
  (ents.zipIdx.filter fun x => !idx.any fun y => decide (y.2.1 ≤ x.2) && decide (x.2 < y.2.1 + y.2.2)).map (·.1)

/-- The check of every table of the index that is mapped or that an entry outside the index names. -/
def Eng.tablesCheck (e : Eng) (bad : Option MapRead) (ents stray : List Ent) :
    List (Nat × Nat × Nat) → Eng × List Nat × SMap (BitVec 256)
  | [] => (e, [], [])
  | (t, f, n) :: rest =>
    let mine := stray.filter (·.table == t)
    let (e, rs, w) := if n = 0 ∧ mine = [] then (e, [], 0) else e.tableCheck bad ents mine t (if n = 0 then 0 else f) n
    let (e, rs', m) := e.tablesCheck bad ents stray rest
    (e, rs ++ rs', if n = 0 then m else m.set 0 t w)

/-- The lowest of a list of reasons, 0 for none. -/
def lowest (rs : List Nat) : Nat := rs.min?.getD 0

/-- An entry's or a replica's reason that needs no table (R54): 4 and 8 of every entry's counts, 5 of every replica. -/
def shapeReasons (n : Nat) (ents : List Ent) (reps : List Rep) : List Nat :=
  (if ents.any (fun x => x.elemCount == 0 || decide (4096 < x.elemCount)) then [4] else []) ++
    (if ents.any (placeBad n reps) || reps.any (fun r => decide (3 < r.tier) || decide (n ≤ r.position)) then [5] else []) ++
    (if ents.any (fun x => x.rowCount == 0 || decide (2 ^ 40 < x.rowCount)) then [8] else [])

/-- The check of the staged map (R54): its reason, 0 when it passes, its version, and the map. `bad` is the read that met an
uncorrectable error: the reasons that need its bytes are not evaluated. The version of a header that cannot be read is free. -/
def Eng.mapCheck (e : Eng) (bad : Option MapRead) : Eng × Nat × W32 × MapImg :=
  let no : MapImg := { version := 0, index := [], ents := [], reps := [], tabs := [] }
  let noHdr (e : Eng) (why : Nat) : Eng × Nat × W32 × MapImg :=
    let (e, v) := e.freeBytes 4
    (e, why, BitVec.ofNat 32 (leNat v), no)
  let base := e.map.stagedBase.toNat
  match e.mp.rangeEnd base with
  | none => noHdr e 7
  | some fin =>
    if fin < base + 64 then noHdr e 7
    else match e.check 4 63 true false base 64 with
    | (e, false) => noHdr e 8
    | (e, true) =>
      if e.answer base 64 (mapRes bad .header) ≠ .ok then noHdr (e.answered base 64) 9 else
      let (e, hb) := e.read false base 64
      let h := mapHdr hb
      let v : W32 := BitVec.ofNat 32 h.version
      let len := mapBytes h.nEnt h.nRep
      let r2 := if v = 0 ∨ (e.map.activeVer ≠ 0 ∧ !follows v e.map.activeVer) then [2] else []
      if h.nEnt = 0 ∨ 262144 < h.nEnt ∨ 65536 < h.nRep ∨ fin < base + len then (e, lowest (7 :: r2), v, no)
      else
        let r8 := if h.rsv then [8] else []
        match e.check 4 63 true false (base + 64) (len - 64) with
        | (e, false) => (e, lowest (8 :: r2), v, no)
        | (e, true) =>
          if e.answer base len (mapRes bad .body) ≠ .ok then (e.answered base len, lowest (9 :: r2 ++ r8), v, no)
          else
            let (e, body) := e.read false (base + 64) (len - 64)
            let raw := (chunksOf 8 4096 body).map leNat
            let es := (chunksOf 32 h.nEnt (body.drop 0x8000)).map entOf
            let rs := (chunksOf 16 h.nRep (body.drop (0x8000 + 32 * h.nEnt))).map repOf
            let ents := es.map (·.1)
            let reps := rs.map (·.1)
            let all := raw.zipIdx.map fun (w, t) => (t, fld w 0 32, fld w 32 16)
            let idx := all.filter fun x => x.2.2 != 0
            let (e, why, tabs) := e.tablesCheck bad ents (strays ents idx) all
            let own := (if crc32c body ≠ h.crc then [1] else []) ++ r2 ++ r8 ++
              (if (raw.any fun w => fld w 48 16 != 0) || es.any (·.2) || rs.any (·.2) then [8] else []) ++
              shapeReasons e.hth.size ents reps ++ (if all.any (fun x => decide (h.nEnt < x.2.1 + x.2.2)) then [7] else []) ++
              (if ents.any (fun x => decide (h.nRep < x.repIdx + x.nrep)) then [7] else [])
            let index := idx.foldl (fun (m : SMap (Nat × Nat)) x => m.set (0, 0) x.1 x.2) []
            (e, lowest (own ++ why), v, { version := v, index := index, ents := ents, reps := reps, tabs := tabs })

/-! ### Commit (R54 to R58) -/

/-- A refusal is recorded and reported (R54). -/
def Eng.mapRefuse (e : Eng) (version : W32) (why : Nat) : Eng :=
  let e := { e with map := { e.map with refused := true, reason := BitVec.ofNat 4 why } }
  e.post e.evtReel 0 0 0x0102 (version.toNat + why * 2 ^ 32)

/-- The answer to the lead's COMMIT (R292, R312): kept for a COMMIT that is sent again. -/
def Eng.commitAnswer (e : Eng) (v : W32) (why : BitVec 4) : Eng :=
  let rs := (v, why) :: e.hth.results.filter (·.1 != v)
  ({ e with hth := { e.hth with results := rs } } : Eng).toLead (.commitResult v why false)

/-- The start of a commit (R54); `lead` says whether a COMMIT of the lead asks for it (R312). A second one while a check runs
is refused with reason 6: its version is read as the check reads it, and is free where it may not be read. -/
def Eng.commitStart (e : Eng) (lead : Bool) : Eng :=
  if e.map.pending then
    let (e, ok) := e.check 4 63 true false e.map.stagedBase.toNat 4
    let (e, bs) := if ok then (e, e.rdDev true e.map.stagedBase.toNat 4) else e.freeBytes 4
    let v : W32 := BitVec.ofNat 32 (leNat bs)
    let e := e.mapRefuse v 6
    if lead then e.commitAnswer v 6 else e
  else { e with map := { e.map with pending := true, fromLead := lead } }

/-- Among a map's entries, the one and the copy of it (0 home, j + 1 replica j) that stand for a copy of entry `x` at a base and a
position (R62, R64): the same part of the same table, at the same place. -/
def findCopy (ents : List Ent) (reps : List Rep) (x : Ent) (base : W64) (pos : Nat) : Option (Nat × Nat) :=
  ents.zipIdx.findSome? fun (y, i) =>
    if x.table = y.table ∧ x.firstRow = y.firstRow ∧ x.rowCount = y.rowCount ∧ x.elemFirst = y.elemFirst ∧
        x.elemCount = y.elemCount then
      let cs := (y.base, y.home) :: ((reps.drop y.repIdx).take y.nrep).map fun r => (r.base, r.position)
      (cs.findIdx? (· == (base, pos))).map fun j => (i, j)
    else none

/-- The entry and copy of a new map that stand for entry `x.1` and copy `x.2` of the old one. -/
def MapSt.sameCopy (m : MapSt) (n : MapImg) (x : Nat × Nat) : Option (Nat × Nat) :=
  (m.ents[x.1]?).bind fun a =>
    let old : Option (W64 × Nat) := if x.2 = 0 then some (a.base, a.home)
      else (m.reps[a.repIdx + x.2 - 1]?).map fun r => (r.base, r.position)
    old.bind fun o => findCopy n.ents n.reps a o.1 o.2

/-- The new map becomes active (R56, R57): held requests and waiting rows are routed again (R58, R220), sweeps lay out their waiting runs again, and
the pin walk starts (R233). Comparisons go on, and reloads of copies that the new map keeps (R64). Requests under way keep their
version. -/
def Eng.activate (e : Eng) (n : MapImg) : Eng :=
  let m := e.map
  let same := m.sameCopy n
  let move (xs : List (Nat × Nat)) : List (Nat × Nat) :=
    xs.filterMap fun x => (same (x.1, x.2 + 1)).map fun y => (y.1, y.2 - 1)
  let ma := m.matched.foldl (fun (s : SMap W64) x => match same (x.1, 0) with
    | some y => s.set 0 y.1 x.2
    | none => s) []
  let m' : MapSt := { m with activeBase := m.stagedBase, activeVer := n.version, pending := false, fromLead := false,
                             oldWait := true, oldLead := m.fromLead, index := n.index, ents := n.ents, reps := n.reps,
                             tabs := n.tabs, pinWalk := true, excluded := move m.excluded,
                             unloaded := move m.unloaded, matched := ma }
  let sw := e.swp.sweeps.map fun (j : SweepJob) => { j with used := j.used.filterMap same }
  let use (u : Purpose) : Purpose := match u with
    | .reload i j => (same (i, j + 1)).elim .left fun y => .reload y.1 (y.2 - 1)
    | _ => u
  -- the lead frees a placement that its map moved once every engine is done (R312); a map of software that places rows on a rejoined
  -- position makes it a target again (R305)
  let moved := if m.fromLead then (m.ents.filter fun x => x.base != 0 &&
      !n.ents.any fun y => y.home == x.home && y.base == x.base).map fun x => (n.version, x) else []
  let homes := n.ents.map (·.home) ++ n.reps.map (·.position)
  let rj := if m.fromLead then e.hth.rejoined else homes.foldl (fun (s : BitVec 256) p => s &&& ~~~(1#256 <<< p)) e.hth.rejoined
  let e : Eng := { e with map := m', hth := { e.hth with rejoined := rj, old := e.hth.old ++ moved }, swp := { e.swp with sweeps := sw },
                          zw := { e.zw with tracked := e.zw.tracked.map fun t => { t with use := use t.use },
                                            blocked := e.zw.blocked.map fun w => (w.1, w.2.1, use w.2.2) } }
  e.rerouteAll.rerouteRows.sweepCommit

/-- The check of the staged map ends (R54): the map becomes active or is refused, and a COMMIT of the lead is answered. -/
def Eng.mapCheckEnd (e : Eng) (bad : Option MapRead) : Eng :=
  if !e.map.pending || e.swdWaits 0 0 then e
  else
    let lead := e.map.fromLead
    let (e, why, v, n) := e.mapCheck bad
    if why = 0 then
      let e := e.activate n
      if lead then e.commitAnswer v 0 else e
    else
      let e := { e with map := { e.map with pending := false, fromLead := false } }
      let e := e.mapRefuse v why
      if lead then e.commitAnswer v (BitVec.ofNat 4 why) else e

/-- MAP_CHECK_END. -/
def execMapCheckEnd (bad : Option MapRead) (s : State) : Host.Outcome State Fault Refusal :=
  .next (s.live fun e => e.mapCheckEnd bad)

/-- No request is outstanding under a replaced version (R56): done is set, and the lead is told (R312). -/
def Eng.oldDrained (e : Eng) : Eng :=
  if !e.map.oldWait || e.oldOut != 0 then e
  else
    let lead := e.map.oldLead
    let e := { e with map := { e.map with done := true, oldWait := false, oldLead := false } }
    if lead then e.toLead (.commitResult e.map.activeVer 0 true) else e

/-- MAP_OLD_DRAINED. -/
def execMapOldDrained (s : State) : Host.Outcome State Fault Refusal := .next (s.live Eng.oldDrained)

/-! ### Replica comparison (R63, R64) -/

/-- The home copy's number in the active map. -/
def MapSt.homeAt (m : MapSt) (h : HomeEnt) : Option Nat :=
  ((findCopy m.ents m.reps h.ent h.ent.base h.ent.home).filter (·.2 == 0)).map (·.1)

/-- A replica's entry and number in the active map. -/
def MapSt.repAt (m : MapSt) (h : HomeEnt) (r : Rep) : Option (Nat × Nat) :=
  ((findCopy m.ents m.reps h.ent r.base r.position).filter (·.2 != 0)).map fun y => (y.1, y.2 - 1)

/-- Entry `i` of the active map with its replicas (R327, R328). -/
def Eng.homeEnt (e : Eng) (i : Nat) (x : Ent) : HomeEnt :=
  { ent := x, idx := i, bytes := x.bytes (e.map.tab x.table).fmt, reps := (e.map.reps.drop x.repIdx).take x.nrep,
    last := e.map.matched.get 0 i }

/-- Work that read a replica of an entry is marked divergent (R64, R136, R184). -/
def Eng.markDivergent (e : Eng) (h : HomeEnt) (r : Rep) : Eng :=
  let len := h.ent.rowCount * (4 * h.ent.stride4)
  let read (p : Part) : Bool := p.pos == r.position && !p.isHeld && decide (r.base.toNat ≤ p.addr) &&
    decide (p.addr < r.base.toNat + len)
  let mark (x : Elem) : Elem := if x.parts.any read then { x with outc := x.outc ||| 0x40 } else x
  let each (g : Glean) : Glean := if g.src then g else { g with elems := g.elems.map mark }
  let e := e.onGln fun q => { q with gleans := q.gleans.map each }
  match e.map.repAt h r with
  | none => e
  | some (i, j) =>
    let mark (s : SweepJob) : SweepJob := if s.used.contains (i, j + 1) then { s with div := true } else s
    e.onSwp fun w => { w with sweeps := w.sweeps.map mark }

/-- The sub-rows of an entry's copy at a base: addresses and bytes (R48, R63). -/
def Ent.subRows (x : Ent) (n base : Nat) : List (Nat × Nat) :=
  (List.range x.rowCount).map fun i => (base + i * (4 * x.stride4), n)

/-- Sectors that rise by one, as runs of at most 64: the first and the count. -/
def sectorRuns : List Nat → List (Nat × Nat)
  | [] => []
  | s :: rest => match sectorRuns rest with
    | (a, n) :: rs => if a = s + 1 ∧ n < 64 then (s, n + 1) :: rs else (s, 1) :: (a, n) :: rs
    | [] => [(s, 1)]

/-- The bytes of a home copy's sub-rows, `n` bytes each. -/
def Eng.homeRows (e : Eng) (x : Ent) (n : Nat) : List (Nat × List Byte) :=
  (x.subRows n x.base.toNat).map fun (a, n) => (a, e.rdMem (x.tier == 3) true a n)

/-- Writes the home copy's rows to replica `j` of entry `i`, over Zwiastiz (R63, R64). -/
def Eng.reloadRep (e : Eng) (i j : Nat) (h : HomeEnt) (r : Rep) : Eng :=
  let x := h.ent
  let e : Eng := { e with map := { e.map with unloaded := e.map.unloaded.filter (· != (i, j)) } }
  if e.hth.isFailed r.position then e
  else ((e.homeRows x h.bytes).flatMap fun (a, bs) => pieces (bs.length / 1024 + 1) (r.base.toNat + (a - x.base.toNat)) bs).foldl
    (fun e y => e.send r.position (.write (BitVec.ofNat 64 y.1) y.2) (.reload i j)) e

/-- A write of a replica's reload was denied or failed: it stays excluded until it is loaded again (R64). -/
def Eng.notLoaded (e : Eng) (i j : Nat) : Eng :=
  if e.map.unloaded.contains (i, j) then e else { e with map := { e.map with unloaded := e.map.unloaded ++ [(i, j)] } }

/-- The list's values, none where one of them is. -/
def allSome {α : Type} : List (Option α) → Option (List α)
  | [] => some []
  | x :: xs => x.bind fun y => (allSome xs).map (y :: ·)

/-- Replica `j`'s sub-rows as its peer streamed them: none where a sector failed. -/
def RepCmp.bytes (c : RepCmp) (j : Nat) (r : Rep) : Option (List Byte) :=
  let one (y : Nat × Nat) : Option (List Byte) :=
    (allSome ((sectorsOf y.1 y.2).map fun s => (c.got.get none (j * 2 ^ 58 + s / 64)).join)).map fun (ss : List (List Byte)) =>
      (ss.flatten.drop (y.1 % 64)).take y.2
  (allSome ((c.h.ent.subRows c.h.bytes r.base.toNat).map one)).map List.flatten

/-- The replicas that take part in a comparison: those on positions that have not failed. -/
def Eng.cmpReps (e : Eng) (h : HomeEnt) : List (Nat × Rep) :=
  (h.reps.zipIdx.map fun (r, j) => (j, r)).filter fun y => !e.hth.isFailed y.2.position

/-- The end of a comparison whose sectors have all come, once its claims are released (R64). A copy that fails its own checks is
repaired from one that passes: home from a replica, a replica from home. Where every copy passes, a differing replica is excluded
and reloaded from home, with one message; one that equals home is readmitted, and where all do the comparison matched. Copies that
the active map no longer places are neither excluded nor written. Of several replicas that differ, the message names the position
of the lowest-numbered one (DESIGN CHOICE, log entry 214). -/
def Eng.repJudge (e : Eng) (c : RepCmp) : Eng :=
  let h := c.h
  let x := h.ent
  let home := e.map.homeAt h
  let got := (e.cmpReps h).map fun y => (y.2, e.map.repAt h y.2, c.bytes y.1 y.2)
  let reload (e : Eng) (y : Rep × Option (Nat × Nat) × Option (List Byte)) : Eng := match y.2.1 with
    | some (i, j) => e.reloadRep i j h y.1
    | none => e
  if c.home.isNone || got.any (·.2.2.isNone) then
    let (e, ok) := match c.home, home, got.findSome? (·.2.2) with
      | some _, _, _ => (e, true)
      | none, some _, some bs => ((x.subRows h.bytes x.base.toNat).zipIdx.foldl (fun e ((a, n), k) =>
          e.putBytes (x.tier == 3) a ((bs.drop (k * n)).take n)) e, true)
      | _, _, _ => (e, false)
    if ok then (got.filter (·.2.2.isNone)).foldl reload e else e
  else
    let differ := got.filter fun y => y.2.2 != c.home
    let same := (got.filter fun y => y.2.2 == c.home).filterMap (·.2.1)
    let e := { e with map := { e.map with excluded := e.map.excluded.filter fun y => !same.contains y } }
    match differ, home with
    | [], some i => { e with map := { e.map with matched := e.map.matched.set 0 i c.seq } }
    | [], none => e
    | y :: _, _ =>
      let e := differ.foldl (fun e y => e.markDivergent h y.1) e
      let new := (differ.filterMap (·.2.1)).filter fun z => !e.map.excluded.contains z
      let e := { e with map := { e.map with excluded := e.map.excluded ++ new } }
      let last := match home with
        | some i => e.map.matched.get 0 i
        | none => h.last
      let e := e.behalf c.work fun e =>
        e.postEvt 0 0 0x0103 (x.table + y.1.position * 2 ^ 16 + (home.getD h.idx) * 2 ^ 32 + last.toNat * 2 ^ 64)
      differ.foldl reload e

/-- A comparison has begun and none of its stream requests is unanswered: it ends. -/
def Eng.repDone (e : Eng) (num : Nat) : Eng :=
  let waits := e.zw.awaits fun u _ _ => match u with
    | .compare n _ => n == num
    | _ => false
  match e.map.cmps.find? (·.num == num) with
  | some c =>
    if waits || !c.begun then e
    else ({ e with map := { e.map with cmps := e.map.cmps.filter fun (c : RepCmp) => c.num != num } } : Eng).repJudge c
  | none => e

/-- A comparison begins once no lane claims a row of its entry (R64, R328): home's rows are read here, and the replicas' rows are asked
of their peers by stream requests. It holds the claims of its rows until all have come. -/
def Eng.repBegin (e : Eng) (num : Nat) : Eng :=
  match e.map.cmps.find? (·.num == num) with
  | none => e
  | some c =>
    let x := c.h.ent
    if c.begun || e.claimedIn x then e
    else
      let rows := x.subRows c.h.bytes x.base.toNat
      let bad := c.bad || (x.tier != 3 && rows.any fun y => e.answer y.1 y.2 .ok != .ok)
      let e := if x.tier = 3 then e else rows.foldl (fun e y => (e.answered y.1 y.2).wideMove y.1 y.2) e
      let c' := { c with begun := true, home := if bad then none else some ((e.homeRows x c.h.bytes).flatMap (·.2)) }
      let e := { e with map := { e.map with cmps := e.map.cmps.map fun (y : RepCmp) => if y.num == num then c' else y } }
      let ask (e : Eng) (y : Nat × Rep) : Eng :=
        (sectorRuns (((x.subRows c.h.bytes y.2.base.toNat).flatMap fun (a, n) => (sectorsOf a n).map (· / 64)).dedup)).foldl
          (fun e r => e.send y.2.position (.streamReq (BitVec.ofNat 58 r.1) (BitVec.ofNat 2 y.2.tier) (BitVec.ofNat 6 (r.2 - 1)))
            (.compare num y.1)) e
      ((e.cmpReps c.h).foldl ask e).repDone num

/-- Every comparison that waits for a claim begins, if it can. -/
def Eng.repTurn (e : Eng) : Eng := ((e.map.cmps.filter fun c => !c.begun).map (·.num)).foldl Eng.repBegin e

/-- A comparison of an entry is asked for (R64, R328), in place of one of the same entry that is under way. -/
def Eng.repStart (e : Eng) (h : HomeEnt) (bad : Bool) (work : Option (Fin 64)) : Eng :=
  if h.reps.isEmpty then e
  else
    let mine (c : RepCmp) : Bool := c.h.ent.table == h.ent.table && c.h.ent.firstRow == h.ent.firstRow &&
      c.h.ent.elemFirst == h.ent.elemFirst
    let old := (e.map.cmps.filter mine).map (·.num)
    let e := e.letGo fun u => match u with
      | .compare n _ => old.contains n
      | _ => false
    let num := e.map.cmps.foldl (fun n c => max n c.num) 0 + 1
    let c : RepCmp := { num := num, h := h, bad := bad, begun := false, home := none, seq := e.tk.printSeq, work := work, got := [] }
    ({ e with map := { e.map with cmps := (e.map.cmps.filter fun c => !mine c) ++ [c] } } : Eng).repBegin num

/-- A position was declared failed: comparisons and reloads go on without its replicas (R64). -/
def Eng.repFailed (e : Eng) (p : Nat) : Eng :=
  let e := e.giveUp fun u dst => dst == p && (match u with
    | .compare _ _ => true
    | .reload _ _ => true
    | _ => false)
  (e.map.cmps.map (·.num)).foldl Eng.repDone e

/-- A write of rep_check (R64): every entry homed here with replicas is compared. `bad` are the entries whose home copies fail their
own checks; where the access does not say, whether one does is free (DESIGN CHOICE, log entry 72). -/
def Eng.repCheck (e : Eng) (bad : Option (List Nat)) : Eng :=
  (e.map.ents.zipIdx.filter fun x => x.1.home == e.hth.pos && x.1.nrep != 0).foldl (fun e (x, i) =>
    let (e, b) := match bad with
      | some l => (e, l.contains i)
      | none => e.freeBit
    e.repStart (e.homeEnt i x) b e.fe.cause) e

/-- REPLICA_RELOAD_END: the replica has been reloaded, its digest equals home's, and it is readmitted (R64). -/
def execReplicaReloadEnd (entry rep : Nat) (s : State) : Host.Outcome State Fault Refusal :=
  .next (s.live fun e =>
    if (e.zw.awaits fun u _ _ => u == .reload entry rep) || e.map.unloaded.contains (entry, rep) then e
    else { e with map := { e.map with excluded := e.map.excluded.filter (· != (entry, rep)) } })

/-! ### Registers of the table block (R45, R59) -/

/-- A 32-bit read of a table-block register. -/
def Eng.tblRd (e : Eng) (off : Nat) : Nat :=
  let m := e.map
  match off with
  | 0x000 => m.tblBase.toNat
  | 0x008 => m.tblCount
  | 0x010 => m.stagedBase.toNat
  | 0x018 => m.activeBase.toNat
  | 0x020 => m.activeVer.toNat
  | 0x028 => b2n m.pending + 2 * b2n m.done + 4 * b2n m.refused + 8 * b2n m.stagedBusy + 256 * m.reason.toNat
  | 0x02C => e.oldOut
  | _ => 0

/-- A write of LE_MAP_STAGED_BASE (R59). -/
def MapSt.stage (m : MapSt) (v : Nat) : MapSt :=
  if m.pending then { m with stagedBusy := true } else { m with stagedBase := BitVec.ofNat 64 (v / 64 * 64) }

/-- A write of a table-block register; `homeBad` is for a write of rep_check alone. -/
def Eng.tblWr (e : Eng) (off v : Nat) (homeBad : Option (List Nat) := none) : Eng :=
  match off with
  | 0x000 => { e with map := { e.map with tblBase := BitVec.ofNat 64 (v / 4096 * 4096) } }
  | 0x008 => { e with map := { e.map with tblCount := min 4096 (fld v 0 13) } }
  | 0x010 => { e with map := e.map.stage v }
  | 0x024 =>
    let e := if bit v 0 then e.commitStart false else e
    if bit v 1 then e.repCheck homeBad else e
  | 0x028 => { e with map := { e.map with done := e.map.done && !bit v 1, refused := e.map.refused && !bit v 2,
                                          stagedBusy := e.map.stagedBusy && !bit v 3 } }
  | _ => e

end Sys2Proof.Machine
end

