-- ==== Sys2Proof/Machine/Links.lean ====
section
/-! DEFINITION. The Zwiastiz links (R273 to R293): light, bring-up, calibration, lane moves, frames and replay, keys, delivery
end to end, and the link block's registers. What arrives in a frame is delivered to `inbox`; the rows of each message type
take it from there. -/

namespace Sys2Proof.Machine

open Sys2Proof

/-! ### Pairs and lanes (R273) -/

/-- Lane pair `n` of a port. -/
def ZPort.pair (x : ZPort) (n : Nat) : Pair := x.pairs.get {} n
/-- Sets a lane pair. -/
def ZPort.setPair (x : ZPort) (n : Nat) (q : Pair) : ZPort := { x with pairs := x.pairs.set {} n q }
/-- Changes a lane pair. -/
def ZPort.onPair (x : ZPort) (n : Nat) (f : Pair → Pair) : ZPort := x.setPair n (f (x.pair n))
/-- A spare pair. -/
def isSpare (n : Nat) : Bool := n % 9 == 8
/-- The logical lane that uses a working pair at bring-up. -/
def pairLane (n : Nat) : Nat := 8 * (n / 9) + n % 9
/-- The logical lane in service that uses a pair. -/
def ZPort.laneUsing (x : ZPort) (n : Nat) : Option Nat := (x.lanes.find? fun l => l.2 == some n).map (·.1)
/-- The move of a logical lane. -/
def ZPort.moveOf (x : ZPort) (lane : Nat) : Option Move := x.moves.find? (·.lane.val == lane)
/-- The move in progress to a spare pair. -/
def ZPort.moveTo (x : ZPort) (n : Nat) : Option Move := x.moves.find? (·.spare.val == n)
/-- The port's lanes leave fewer than min_lanes in service. -/
def ZPort.short (x : ZPort) : Bool := decide (x.laneCount < x.minLanes)
/-- Headroom of a heater code (R279). -/
def headOf (code : BitVec 12) : Nat := min code.toNat (4095 - code.toNat) / 16
/-- Headroom of a lane pair (R279). -/
def Pair.head (q : Pair) : Nat := min (min (headOf q.tx) (headOf q.rx)) q.far.val
/-- Dark, with its record kept. -/
def Pair.dark (q : Pair) : Pair := { q with safety := .off, tune := .idle, unc := [] }
/-- Retired, used or failed: dark for good. -/
def Pair.retire (q : Pair) : Pair := { q.dark with bad := true }

/-- Sets w1c bits of LE_ZW_STATUS. -/
def Eng.zwStatus (e : Eng) (bits : BitVec 8) : Eng := e.onZw fun z => { z with status := z.status ||| bits }

/-! ### Bring-up (R276, R278) -/

/-- Bring-up starts: every usable pair enters probe. -/
def ZPort.bringUp (x : ZPort) : ZPort :=
  let ps := (List.range 18).foldl (fun (m : SMap Pair) n =>
    let q := x.pair n
    if q.bad || q.taken then m
    else m.set {} n { q with safety := .probe, tune := .idle, seen := false, unc := [] }) x.pairs
  { x with st := .probing, pairs := ps, lanes := [], noKey := false, bad := [] }

/-- A write of LE_ZW_PORT_CFG (R278, R283). -/
def Eng.portCfg (e : Eng) (p : Fin 8) (v : Nat) : Eng :=
  let x := e.port' p
  let dim : BitVec 2 := BitVec.ofNat 2 (fld v 1 2)
  let ml := min 16 (atLeast1 (fld v 3 5))
  let en := bit v 0
  let y := if x.enable then { x with cfgBusy := x.cfgBusy || dim != x.dim || ml != x.minLanes }
    else { x with dim := dim, minLanes := ml }
  if en && !x.enable then e.setPort p { y.bringUp with enable := true }
  else if !en && x.enable then (e.setPort p { y with enable := false }).portDown p 3
  else e.setPort p y

/-- PROBE_DETECTED (R276, R278, R282): the pair lights; at bring-up a spare is recorded and returns to off. -/
def Eng.probeDetected (e : Eng) (p : Fin 8) (n : Nat) : Eng :=
  e.onPort p fun x =>
    let q := x.pair n
    if q.safety ≠ .probe ∨ q.bad then x
    else if isSpare n && (x.moveTo n).isNone then x.setPair n { q.dark with seen := true }
    else
      let y := x.setPair n { q with safety := .lit, tune := .locking, seen := q.seen || isSpare n }
      { y with st := if x.st = .probing then .locking else x.st }

/-- PROBE_DETECTED, as the row gives it. -/
def execProbeDetected (p : Fin 8) (n : Fin 18) (s : State) : Host.Outcome State Fault Refusal :=
  .next (s.live fun e => e.probeDetected p n)

/-- RING_LOCKED (R278). -/
def execRingLocked (p : Fin 8) (n : Fin 18) (tx rx : BitVec 12) (s : State) : Host.Outcome State Fault Refusal :=
  .next (s.live fun e => e.onPort p fun x =>
    let q := x.pair n
    if q.safety ≠ .lit ∨ q.tune ≠ .locking then x
    else
      let y := x.setPair n { q with tune := .training, tx := tx, rx := rx }
      { y with st := if x.st = .locking then .training else x.st })

/-- Working pairs that have trained. -/
def ZPort.trained (x : ZPort) : List Nat :=
  (List.range 18).filter fun n => !isSpare n && (x.pair n).tune == .trained && (x.pair n).safety == .lit

/-- The end that asked for a move names the frame boundary at which it switches, once the spare has trained (R282). DESIGN CHOICE,
log 197: the boundary before the second next frame. -/
def ZPort.agree (x : ZPort) (n : Nat) : ZPort :=
  match x.moveTo n with
  | some m =>
    if m.mine then
      let at_ := x.txNext + 1
      let fix (y : Move) : Move := if y.lane == m.lane then { y with swAt := some (BitVec.ofNat 64 at_) } else y
      { x with moves := x.moves.map fix, ctls := x.ctls ++ [.switchAt m.lane (BitVec.ofNat 64 at_)] }
    else x
  | none => x

/-- EQUALISER_TRAINED (R278): enough trained lanes let the port align; on a live port, and on an aligned one that waits for its keys,
the lane joins the service. -/
def Eng.equaliserTrained (e : Eng) (p : Fin 8) (n : Nat) : Eng :=
  e.onPort p fun x =>
    let q := x.pair n
    if q.safety ≠ .lit ∨ q.tune ≠ .training then x
    else
      let y := x.setPair n { q with tune := .trained }
      let up := y.st = .locking ∨ y.st = .training
      let y := if up ∧ y.minLanes ≤ y.trained.length then { y with st := .aligning } else y
      if y.st ≠ .live ∧ ¬ (y.st = .aligning ∧ y.noKey) then y
      else if isSpare n then y.agree n
      else { y with lanes := y.lanes.set none (pairLane n) (some n) }

/-- EQUALISER_TRAINED, as the row gives it. -/
def execEqualiserTrained (p : Fin 8) (n : Fin 18) (s : State) : Host.Outcome State Fault Refusal :=
  .next (s.live fun e => e.equaliserTrained p n)

/-- The key slot in use. -/
def KeyDir.slot (k : KeyDir) : KeySlot := if k.act then k.s1 else k.s0

/-- An aligned port with a key in the active slot of each direction goes live, unless fewer than min_lanes lanes are left (R278). -/
def Eng.goLive (e : Eng) (p : Fin 8) : Eng :=
  let x := e.port' p
  if x.short then e.portDown p 0
  else if x.tx.slot.ok && x.rx.slot.ok then
    let e := e.setPort p { x with st := .live, noKey := false }
    -- every lane of a live port is stable or declared failed, so no hold of an earlier move is left (R18, R294)
    (((List.finRange 16).foldl (fun e l => e.releaseLane p l) e).unstick).pump p
  else e.setPort p { x with noKey := true }

/-- PORT_ALIGN (R278): the lanes deskew, the frame counters become 0, and the port goes live if both active slots hold keys. -/
def Eng.portAlign (e : Eng) (p : Fin 8) : Eng :=
  let x := e.port' p
  if x.st ≠ .aligning ∨ x.trained.length < x.minLanes then e
  else
    let ls := x.trained.foldl (fun (m : SMap (Option Nat)) n => m.set none (pairLane n) (some n)) []
    let y := { x with lanes := ls, txNext := 0, rxNext := 0, tx := { x.tx with base := 0, sw := none },
                      rx := { x.rx with base := 0, sw := none }, nak := false, out := false, replay := [], credit := [], owed := [],
                      told := 0, swTold := false, ctls := [], reports := [] }
    (e.setPort p y).goLive p

/-- PORT_ALIGN, as the row gives it. -/
def execPortAlign (p : Fin 8) (s : State) : Host.Outcome State Fault Refusal := .next (s.live fun e => e.portAlign p)

/-- The port has aligned its lanes: it is live, or waits for its keys (R278). -/
def ZPort.aligned (x : ZPort) : Bool := x.st == .live || (x.st == .aligning && x.noKey)

/-- A lane leaves service; too few lanes take the port down (R278, R283). -/
def Eng.dropLane (e : Eng) (p : Fin 8) (lane : Nat) : Eng :=
  let e := e.onPort p fun x => { x with lanes := x.lanes.set none lane none }
  if (e.port' p).aligned ∧ (e.port' p).short then e.portDown p 0 else e

/-- A pair is retired (R281): its logical lane leaves service. -/
def Eng.retirePair (e : Eng) (p : Fin 8) (n : Nat) : Eng :=
  let lane := (e.port' p).laneUsing n
  let e := (e.onPort p fun x => x.onPair n Pair.retire).zwStatus 0x08
  match lane with
  | some l => e.dropLane p l
  | none => e

/-- A move fails (R282): the spare is marked failed, the pair is retired with it, and the lane is declared failed, which
releases its hold. -/
def Eng.moveFail (e : Eng) (p : Fin 8) (m : Move) : Eng :=
  let e := e.onPort p fun x => { x.onPair m.spare Pair.retire with moves := x.moves.filter (·.lane != m.lane) }
  let e := (e.onPort p fun x => x.onPair m.src Pair.retire).zwStatus 0x08
  (e.releaseLane p m.lane).dropLane p m.lane

/-- BRING_UP_TIMEOUT (R278): a pair that does not lock or train in time is retired; a port at bring-up that can no longer reach
min_lanes goes down with one message. -/
def Eng.bringUpTimeout (e : Eng) (p : Fin 8) (n : Nat) : Eng :=
  let x := e.port' p
  let q := x.pair n
  if q.safety ≠ .lit ∨ (q.tune ≠ .locking ∧ q.tune ≠ .training) then e
  else match x.moveTo n with
    | some m => e.moveFail p m
    | none =>
      let e := e.retirePair p n
      let y := e.port' p
      let left := ((List.range 18).filter fun i => !isSpare i && !(y.pair i).bad && !(y.pair i).taken).length
      if y.st ≠ .live ∧ left < y.minLanes then e.portDown p 0 else e

/-- BRING_UP_TIMEOUT, as the row gives it. -/
def execBringUpTimeout (p : Fin 8) (n : Fin 18) (s : State) : Host.Outcome State Fault Refusal :=
  .next (s.live fun e => e.bringUpTimeout p n)

/-! ### Moves to a spare (R281, R282) -/

/-- A lane is on the move: the sweep's row issue is held (R18). -/
def Eng.holdLane (e : Eng) (p : Fin 8) (lane : Fin 16) : Eng :=
  let mv := if e.swp.moving.contains (p, lane) then e.swp.moving else e.swp.moving ++ [(p, lane)]
  { e with swp := { e.swp with moving := mv, holdAt := e.swp.holdAt.or (some e.hth.time) } }

/-- A fibre's spare may be taken. -/
def ZPort.spareFree (x : ZPort) (s : Nat) : Bool :=
  (x.pair s).seen && !(x.pair s).bad && !(x.pair s).taken && !x.moves.any (·.spare.val == s)

/-- The move of a lane begins (R282): this end asked for it, or acknowledges the far end's request and probes the spare. -/
def Eng.moveStart (e : Eng) (p : Fin 8) (lane : Fin 16) (n s : Fin 18) (mine dark : Bool) : Eng :=
  let m : Move := { lane := lane, src := n, spare := s, mine := mine, begun := !mine, dark := dark, swAt := none,
                    switched := false, since := e.hth.time }
  let probe (q : Pair) : Pair := { q with safety := .probe, tune := .idle }
  let c : MoveCtl := if mine then .request lane else .ack lane
  let e := e.onPort p fun x => { (if mine then x else x.onPair s probe) with moves := x.moves ++ [m], ctls := x.ctls ++ [c] }
  (e.holdLane p lane).countZw 6 1

/-- A pair needs moving (R281): its lane moves to the fibre's spare, or the pair is retired. -/
def Eng.needsMoving (e : Eng) (p : Fin 8) (n : Fin 18) (dark : Bool) : Eng :=
  let x := e.port' p
  match x.laneUsing n with
  | none => e
  | some l =>
    if h : l < 16 then
      if x.moves.any (fun m => m.lane.val == l && !m.switched) then
        if dark then e.dropLane p l else e
      else
        let s : Fin 18 := ⟨9 * (n.val / 9) + 8, by omega⟩
        if !isSpare n && x.spareFree s then
          let e := if dark then e.dropLane p l else e
          if (e.port' p).st = .live then e.moveStart p ⟨l, h⟩ n s true dark else e
        else match x.moveTo n with
          | some m => e.moveFail p m
          | none => e.retirePair p n
    else e

/-- The move this end asked for begins: the spare is probed (R282). -/
def ZPort.begin (x : ZPort) (m : Move) : ZPort :=
  let go (y : Move) : Move := if y.lane == m.lane then { y with begun := true } else y
  { x.onPair m.spare (fun q => { q with safety := .probe, tune := .idle }) with moves := x.moves.map go }

/-- MOVE_REQUEST (R282): the far end's request is acknowledged, both ends set moving, and the sweep is held. A request that
crosses this end's own request for the lane begins that move. -/
def Eng.moveRequest (e : Eng) (p : Fin 8) (lane : Fin 16) : Eng :=
  let x := e.port' p
  match x.lanes.get none lane, x.moveOf lane with
  | _, some m => if m.mine && !m.begun then e.onPort p fun x => { x.begin m with ctls := x.ctls ++ [.ack lane] } else e
  | some n, none =>
    let s : Fin 18 := if lane.val < 8 then 8 else 17
    if h : n < 18 then
      if x.st = .live ∧ x.spareFree s then e.moveStart p lane ⟨n, h⟩ s false false else e
    else e
  | none, none => e

/-- MOVE_REQUEST, as the row gives it. -/
def execMoveRequest (p : Fin 8) (lane : Fin 16) (s : State) : Host.Outcome State Fault Refusal :=
  .next (s.live fun e => e.moveRequest p lane)

/-- LANE_SWITCH (R282): at the agreed frame boundary the lane carries its cells on the trained spare; the old pair goes off and is marked used. -/
def Eng.laneSwitch (e : Eng) (p : Fin 8) (lane : Fin 16) : Eng :=
  match (e.port' p).moveOf lane with
  | none => e
  | some m =>
    if m.switched ∨ m.swAt.isNone ∨ ((e.port' p).pair m.spare).tune ≠ .trained then e
    else
      let take (q : Pair) : Pair := { q with taken := true }
      let sw (y : Move) : Move := if y.lane == lane then { y with switched := true } else y
      (e.onPort p fun x =>
        let y := (x.onPair m.src Pair.retire).onPair m.spare take
        { y with lanes := y.lanes.set none lane (some m.spare.val), moves := y.moves.map sw }).zwStatus 0x04

/-- LANE_SWITCH, as the row gives it. -/
def execLaneSwitch (p : Fin 8) (lane : Fin 16) (s : State) : Host.Outcome State Fault Refusal :=
  .next (s.live fun e => e.laneSwitch p lane)

/-- MOVE_TIMEOUT (R282). -/
def Eng.moveTimeout (e : Eng) (p : Fin 8) (lane : Fin 16) : Eng :=
  match (e.port' p).moveOf lane with
  | none => e
  | some m =>
    if m.switched ∨ e.hth.time.toNat < m.since.toNat + 1000 * fld e.zw.cal.toNat 16 16 then e else e.moveFail p m

/-- MOVE_TIMEOUT, as the row gives it. -/
def execMoveTimeout (p : Fin 8) (lane : Fin 16) (s : State) : Host.Outcome State Fault Refusal :=
  .next (s.live fun e => e.moveTimeout p lane)

/-! ### Light and calibration (R276, R279) -/

/-- LOSS_OF_LIGHT (R276, R281, R283): lit pairs go to shut; both fibre pairs dark take the port down; a wavelength dark alone
needs moving; the lanes of a dark fibre leave service. -/
def Eng.lossOfLight (e : Eng) (p : Fin 8) (pairs : List (Fin 18)) : Eng :=
  let x := e.port' p
  let gone := (List.finRange 18).filter fun n => pairs.contains n && (x.pair n).safety == .lit
  let left (f : Nat) : Bool := (List.finRange 18).any fun n =>
    n.val / 9 == f && (x.pair n).safety == .lit && !gone.contains n
  if gone.isEmpty then e
  else
    let shut (x : ZPort) (n : Fin 18) : ZPort := x.onPair n fun q => { q.dark with safety := .shut }
    let e := (e.onPort p fun x => { gone.foldl shut x with lol := true }).countZw 7 gone.length
    if x.aligned ∧ !left 0 ∧ !left 1 then e.portDown p 1
    else gone.foldl (fun (e : Eng) (n : Fin 18) =>
      match (e.port' p).moveTo n with
      | some m => e.moveFail p m
      | none =>
        if left (n.val / 9) then e.needsMoving p n true
        else match (e.port' p).laneUsing n with
          | some l => e.dropLane p l
          | none => e) e

/-- LOSS_OF_LIGHT, as the row gives it. -/
def execLossOfLight (p : Fin 8) (pairs : List (Fin 18)) (s : State) : Host.Outcome State Fault Refusal :=
  .next (s.live fun e => e.lossOfLight p pairs)

/-- SHUT_RECOVERY (R276): after 100 ms a shut pair returns to probe. -/
def execShutRecovery (p : Fin 8) (n : Fin 18) (s : State) : Host.Outcome State Fault Refusal :=
  .next (s.live fun e => e.onPort p fun x =>
    if (x.pair n).safety = .shut then x.onPair n fun q => { q with safety := .probe, tune := .idle } else x)

/-- A heater code corrected toward zero detuning, by at most 256 codes (R279). -/
def correct (code : BitVec 12) (d : Int) : BitVec 12 :=
  let step := max (-256) (min 256 d)
  BitVec.ofNat 12 (min 4095 ((code.toNat : Int) - step).toNat)

/-- A detuning beyond the capture range of 20 pm, where 4,096 heater codes span 480 pm (R279). -/
def beyond (d : Int) : Bool := decide (81920 < d.natAbs * 480)

/-- A pilot measured a detuning beyond the capture range (R279). -/
def pilotLost (b : Pilot) : Bool := beyond b.rxDetune || beyond b.farDetune

/-- The lit pairs that need moving: those that lost lock, and those whose headroom is below the threshold (R281); the lower
wavelength comes first. -/
def Eng.moveWeak (e : Eng) (p : Fin 8) (lost : Fin 18 → Bool) : Eng :=
  (List.finRange 18).foldl (fun (e : Eng) (n : Fin 18) =>
    let q := (e.port' p).pair n
    if q.safety == .lit && (lost n || decide (q.head < fld e.zw.cal.toNat 0 7)) then e.needsMoving p n false else e) e

/-- The headroom of this end's two rings of a pair, as it reports it (R279). -/
def Pair.own (q : Pair) : Fin 128 := ⟨min (min (headOf q.tx) (headOf q.rx)) 127, by omega⟩

/-- PILOT_BLOCK (R279, R281, R282): the filter rings' heaters are corrected and the far modulators' detunings are due to be
reported; switched moves found within capture are stable; pairs that lost lock or lack headroom need moving. -/
def Eng.pilotBlock (e : Eng) (p : Fin 8) (ps : List Pilot) : Eng :=
  if (e.port' p).st ≠ .live then e
  else
    let fix (x : ZPort) (b : Pilot) : ZPort :=
      if (x.pair b.pair).safety = .lit then
        let y := x.onPair b.pair fun q => { q with rx := correct q.rx b.rxDetune }
        let rep : Detune := { pair := b.pair, codes := b.farDetune, head := (y.pair b.pair).own }
        { y with reports := (y.reports.filter (·.pair != b.pair)) ++ [rep] }
      else x
    let e := e.onPort p fun x => ps.foldl fix x
    let e := (e.port' p).moves.foldl (fun e m =>
      match ps.find? (·.pair == m.spare) with
      | none => e
      | some b =>
        if pilotLost b then e.moveFail p m
        else if m.switched then
          (e.onPort p fun x => { x with moves := x.moves.filter (·.lane != m.lane) }).releaseLane p m.lane
        else e) e
    e.moveWeak p fun n => ps.any fun b => b.pair == n && pilotLost b

/-- PILOT_BLOCK, as the row gives it. -/
def execPilotBlock (p : Fin 8) (ps : List Pilot) (s : State) : Host.Outcome State Fault Refusal :=
  .next (s.live fun e => e.pilotBlock p ps)

/-! ### Delivery end to end (R292) -/

/-- Delivers early messages whose turn has come. -/
def Zw.settle : Nat → Zw → Nat → Zw
  | 0, z, _ => z
  | n + 1, z, k =>
    match z.early.find? fun m => zKey m == k && m.seq == z.rxSeq.get 0 k with
    | none => z
    | some m =>
      ({ z with early := z.early.erase m, inbox := z.inbox ++ [m], rxSeq := z.rxSeq.set 0 k (m.seq + 1) } : Zw).settle n k

/-- The message itself still waits for its unit: it will be acknowledged then. -/
def Eng.unanswered' (e : Eng) (m : ZMsg) : Bool :=
  let same (y : ZMsg) : Bool := zKey y == zKey m && y.seq == m.seq
  e.zw.inbox.any same || (e.gln.serve.any fun w => same w.2) ||
    (e.clp.queues.any fun q => q.2.any fun r => r.peer == some (m.src, m.seq) && zCls m.body == 2)

/-- A duplicate of a tracked message is acknowledged again (R292). A write, a clapper operation or a COMMIT gets the answer it
had; a request, a LOAD or a STATUS_REQ, which is answered from what the unit holds, is put to its unit again. -/
def Eng.ackAgain (e : Eng) (m : ZMsg) : Eng :=
  let st := e.zw.answers.get 0 (zKey m * 2 ^ 32 + m.seq.toNat)
  if e.unanswered' m then e
  else match m.body with
    | .readReq .. | .streamReq .. | .load _ | .statusReq _ => e.onZw fun z => { z with inbox := z.inbox ++ [{ m with arr := none }] }
    | .write .. => e.send m.src.toNat (.writeAck st)
    | .clpOp .. => e.send m.src.toNat (.clpAck (st == 1))
    | .commit v _ _ => match e.hth.results.find? (·.1 == v) with
      | some r => e.send m.src.toNat (.commitResult v r.2 false)
      | none => e
    | _ => e

/-- A message for this position (R292): delivered in order, kept while early, or a duplicate. -/
def Eng.deliver (e : Eng) (m : ZMsg) : Eng :=
  let k := zKey m
  let want := e.zw.rxSeq.get 0 k
  if m.seq = want then
    e.onZw fun z => ({ z with inbox := z.inbox ++ [m], rxSeq := z.rxSeq.set 0 k (want + 1) } : Zw).settle (z.early.length) k
  else if (m.seq - want).toNat < 2 ^ 31 then
    let used := (e.zw.early.map fun x => 16 * zCells x.body).sum
    let e := e.owe m
    if 262144 < used + 16 * zCells m.body ∨ e.zw.early.any fun y => zKey y == k && y.seq == m.seq then e
    else e.onZw fun z => { z with early := z.early ++ [{ m with arr := none }] }
  else ((e.owe m).countZw 5 1).ackAgain m

/-- A message of a verified frame enters its VC of the port's receive buffer (R284, R288 to R290): a reserved one is discarded
and counted; a flooded one is delivered hop-local; one for this position is delivered; another is forwarded. -/
def Eng.arrive (e : Eng) (p : Fin 8) (msg : ZMsg) : Eng :=
  let m := { msg with arr := some { port := p, chan := zChan msg, owes := true } }
  match m.body with
  | .reserved => (e.owe m).countZw 2 1
  | b =>
    if zFlooded b || m.hop then e.onZw fun z => { z with inbox := z.inbox ++ [{ m with dst := BitVec.ofNat 8 p }] }
    else if m.dst.toNat = e.hth.pos then e.deliver m
    else e.forward m

/-! ### Frames (R284, R285, R287) -/

/-- Uncorrectable codewords of a frame: a lane with more than 4 in 1 ms has a lane fault (R281). -/
def Eng.uncWords (e : Eng) (p : Fin 8) (lanes : List (Fin 16)) : Eng :=
  let now := e.hth.time
  lanes.foldl (fun e l =>
    match (e.port' p).lanes.get none l with
    | none => e
    | some n =>
      if h : n < 18 then
        let near (t : W64) : Bool := decide ((now - t).toNat < 1000000)
        let e := e.onPort p fun x => x.onPair n fun q => { q with unc := q.unc.filter near ++ [now] }
        if 4 < ((e.port' p).pair n).unc.length then e.needsMoving p ⟨n, h⟩ false else e
      else e) e

/-- Sectors that a gleaner's serve buffer holds (R143). -/
def Gln.serving (g : Gln) (gl : Fin 64) : Nat :=
  (g.serve.map fun w => match w.2.body with
    | .readReq _ _ n => if w.1 = gl then n.toNat + 1 else 0
    | _ => 0).sum

/-- Read requests of peers move into the serve buffers, oldest first, while one has room for all their sectors (R143, R144): the
others wait in their port's receive credits. DESIGN CHOICE, log 199: into the lowest-numbered buffer with room. -/
def Eng.serveFill' : Nat → Eng → Eng
  | 0, e => e
  | n + 1, e =>
    let isRead (m : ZMsg) : Bool := match m.body with
      | .readReq .. => true
      | _ => false
    match e.zw.inbox.find? isRead with
    | none => e
    | some m =>
      let need := match m.body with
        | .readReq _ _ n => n.toNat + 1
        | _ => 0
      match (List.finRange 64).find? fun gl => decide (e.gln.serving gl + need ≤ 256) with
      | none => e
      | some gl =>
        Eng.serveFill' n ((e.takeOf isRead).1.onGln fun g => { g with serve := g.serve ++ [(gl, { m with arr := none })] })

/-- The serve buffers take what they have room for, unless the gleaners were asked to go idle (R143, R371). -/
def Eng.serveFill (e : Eng) : Eng := if e.busy 1 then e else e.serveFill' e.zw.inbox.length

/-- A frame that verifies in order: its messages arrive. From sw_frame on the new receive slot verifies, and the old one is kept
until an acknowledgement of that frame is sent (R286, see `ZPort.emit`). -/
def Eng.acceptFrame (e : Eng) (p : Fin 8) (f : ZFrame) : Eng :=
  let e := e.onPort p fun x => { x with rxNext := x.rxNext + 1, bad := x.bad.set 0 f.num.toNat 0, nak := false }
  (f.msgs.foldl (fun e m => e.arrive p m) e).serveFill

/-- FRAME_RECEIVE (R284, R285, R287): a frame whose tag fails is counted by its number, whatever other frames do between; one that
was received before changes nothing else. -/
def Eng.frameReceive (e : Eng) (p : Fin 8) (f : ZFrame) : Eng :=
  let x := e.port' p
  if x.st ≠ .live then e
  else
    let e := ((e.countZw 0 f.corrected).countZw 1 f.uncorrLanes.length).uncWords p f.uncorrLanes
    if (e.port' p).st ≠ .live then e
    else if !f.fecOk then e.onPort p fun x => { x with nak := true }
    else if !f.tagOk then
      let n := f.num.toNat
      let again := x.bad.get 0 n + 1
      let e := (e.onPort p fun x => { x with nak := true, bad := x.bad.set 0 n again }).countZw 2 1
      if 8 ≤ again then
        let e := (e.onPort p fun x => { x with integrity := true }).portDown p 2
        e.postEvt 9 p 0x0901 n
      else e
    else if f.num.toNat < x.rxNext then e.onPort p fun x => { x with bad := x.bad.set 0 f.num.toNat 0 }
    else if f.num.toNat ≠ x.rxNext then e.onPort p fun x => { x with nak := true }
    else e.acceptFrame p f

/-- FRAME_RECEIVE, as the row gives it. -/
def execFrameReceive (p : Fin 8) (f : ZFrame) (s : State) : Host.Outcome State Fault Refusal :=
  .next (s.live fun e => e.frameReceive p f)

/-- Lane-move control in a link control cell (R282, R284). -/
def Eng.moveCtl (e : Eng) (p : Fin 8) : MoveCtl → Eng
  | .none => e
  | .request lane => e.moveRequest p lane
  | .ack lane =>
    match (e.port' p).moveOf lane with
    | some m =>
      if m.mine && !m.begun then e.onPort p fun x => x.begin m else e
    | none => e
  | .switchAt lane frame =>
    let at_ (y : Move) : Move := if y.lane == lane then { y with swAt := some frame } else y
    e.onPort p fun x => { x with moves := x.moves.map at_ }

/-- Acknowledged frames leave the replay buffer; the old transmit slot is given up once the switch frame is acknowledged
(R285, R286). `ack` holds the low 48 bits of a frame number at most 2^47 behind the last sent. -/
def ZPort.acked (x : ZPort) (ack : Nat) : ZPort :=
  let done (n : Nat) : Bool := decide ((ack + 2 ^ 48 - n % 2 ^ 48) % 2 ^ 48 < 2 ^ 47)
  let tx := match x.tx.sw with
    | some n => if decide (n < x.txNext) && done n then { x.tx with act := !x.tx.act, sw := none, base := n } else x.tx
    | none => x.tx
  { x with replay := x.replay.filter fun f => !done f.num, tx := tx }

/-- A detuning report of the far end (R279): the modulator ring's heater is corrected, and the far rings' headroom is known. -/
def ZPort.detune (x : ZPort) (r : Detune) : ZPort :=
  if (x.pair r.pair).safety = .lit then x.onPair r.pair fun q => { q with tx := correct q.tx r.codes, far := r.head } else x

/-- LINK_CONTROL (R279, R284 to R286, R289): acks and naks, key switch, credits, detuning reports, move control; the port sends
what it now may. -/
def Eng.linkControl (e : Eng) (p : Fin 8) (c : ZCtl) : Eng :=
  if (e.port' p).st ≠ .live then e
  else
    let e := e.onPort p fun x => x.acked c.ack.toNat
    let e := if c.nak then e.countZw 3 (e.port' p).replay.length else e
    let e := if c.keySw then e.onPort p fun x => { x with rx := { x.rx with sw := some c.swFrame.toNat } } else e
    let add (m : SMap Int) (y : BitVec 8 × Nat) : SMap Int := m.modify 0 y.2 fun r => r + 16 * (y.1.toNat : Int)
    let e := (e.onPort p fun x => { x with credit := (c.credits.take 6).zipIdx.foldl add x.credit }).pump p
    let e := e.onPort p fun x => c.reports.foldl ZPort.detune x
    let e := if c.reports.isEmpty then e else e.moveWeak p fun _ => false
    e.moveCtl p c.ctl

/-- LINK_CONTROL, as the row gives it. -/
def execLinkControl (p : Fin 8) (c : ZCtl) (s : State) : Host.Outcome State Fault Refusal :=
  .next (s.live fun e => e.linkControl p c)

/-! ### Keys (R286) -/

/-- Both slots are in use while a switch is pending; a load then is discarded. A direction whose active slot holds no key
takes the key there (log entry 25); otherwise the inactive slot takes it. -/
def KeyDir.load (k : KeyDir) (s : KeySlot) : Option KeyDir :=
  if k.sw.isSome then none
  else
    let slot1 := if k.slot.ok then !k.act else k.act
    some (if slot1 then { k with s1 := s } else { k with s0 := s })

/-- A write of LE_ZW_KEY_CTL (R286): a load, then a switch of a transmit direction. A port that waits in align for its keys goes
live with the second (R278). -/
def Eng.keyCtl (e : Eng) (v : Nat) : Eng :=
  let p := fld v 0 3
  let rx := bit v 3
  let x := e.port' p
  let s : KeySlot := { key := e.zw.key, salt := e.zw.salt, ok := true }
  let e := if bit v 4 then
      match (if rx then x.rx else x.tx).load s with
      | none => e.zwStatus 0x20
      | some k =>
        let e := e.setPort p (if rx then { x with rx := k } else { x with tx := k })
        if x.st = .aligning ∧ x.noKey then e.goLive ⟨p, by unfold p fld; exact Nat.mod_lt _ (by decide)⟩ else e
    else e
  if bit v 5 && !rx && (e.port' p).tx.sw.isNone then
    (e.onPort p fun x => { x with tx := { x.tx with sw := some (x.txNext + 63) }, swTold := false, out := false }).pump p
  else e

/-- KEY_EXHAUSTED (R286): a direction that reached 2^62 frames under its key sends nothing further. -/
def Eng.keyExhausted (e : Eng) (p : Fin 8) : Eng :=
  let x := e.port' p
  if x.out ∨ !x.spent then e
  else (e.setPort p { x with out := true }).postEvt 9 p 0x0902 0

/-- KEY_EXHAUSTED, as the row gives it. -/
def execKeyExhausted (p : Fin 8) (s : State) : Host.Outcome State Fault Refusal := .next (s.live fun e => e.keyExhausted p)

/-! ### Resends (R293) -/

/-- The reel whose command's work sent a message (R87). -/
def Eng.useReel (e : Eng) : Purpose → Option (Fin 64)
  | .read k _ _ | .topk k | .stream k => some (e.dir k.dir).reel
  | .replica lane => (e.ted.lanes.get none lane).map fun c => (e.dir c.k.dir).reel
  | .signal r _ => some r
  | .posted d _ => some (e.dir d).reel
  | .compare num _ => (e.map.cmps.find? fun c => c.num == num).bind fun c => c.work
  | .barrier | .cascade | .reload .. | .left => none

/-- E2E_TIMEOUT: a tracked message that had no answer for timeout_us is resent under its number; when the retries are spent its
destination is unreachable. -/
def Eng.e2eTimeout (e : Eng) (dst : Nat) (cls : Nat) (seq : W32) : Eng :=
  let hit (t : Track) : Bool := t.msg.dst.toNat == dst && zCls t.msg.body == cls && t.msg.seq == seq
  match e.zw.tracked.find? hit with
  | none => e
  | some t =>
    if t.lost ∨ e.hth.time.toNat < t.at_.toNat + 1000 * fld e.zw.e2e.toNat 0 16 then e
    else if t.sent < fld e.zw.e2e.toNat 16 4 then
      let up (y : Track) : Track := if hit y then { y with sent := y.sent + 1, at_ := e.hth.time } else y
      ((e.onZw fun z => { z with tracked := z.tracked.map up }).countZw 4 1).forward t.msg
    else
      let first := !(e.zw.tracked.any fun y => y.lost && y.msg.dst.toNat == dst)
      let up (y : Track) : Track := if hit y then { y with lost := true } else y
      let e := (e.onZw fun z => { z with tracked := z.tracked.map up, stuck := z.stuck ++ [t.msg] }).zwStatus 0x02
      if first then
        e.behalf (e.useReel t.use) fun e => e.postEvt 9 (fld (e.zw.routes.get 0 dst).toNat 0 3) 0x0903 (dst + cls * 256)
      else e

/-- E2E_TIMEOUT, as the row gives it. -/
def execE2eTimeout (dst : BitVec 8) (cls : Fin 3) (seq : W32) (s : State) : Host.Outcome State Fault Refusal :=
  .next (s.live fun e => e.e2eTimeout dst.toNat cls seq)

/-! ### Registers -/

/-- Least headroom of the lit pairs that `p` picks, 0 if there is none. -/
def ZPort.leastHead (x : ZPort) (p : Nat → Bool) : Nat :=
  (((List.range 18).filter fun n => p n && (x.pair n).safety == .lit).map fun n => (x.pair n).head).min?.getD 0

/-- State code of a port. -/
def PSt.code : PSt → Nat
  | .dark => 0 | .probing => 1 | .locking => 2 | .training => 3 | .aligning => 4 | .live => 5 | .down => 6

/-- LE_ZW_PORT_STATUS. -/
def ZPort.status (x : ZPort) : Nat :=
  let sp (s : Nat) : Bool := (x.pair s).taken || (x.pair s).bad
  x.st.code + x.laneCount * 8 + b2n (sp 8) * 2 ^ 8 + b2n (sp 17) * 2 ^ 9 + b2n x.noKey * 2 ^ 10 +
    b2n (!x.moves.isEmpty) * 2 ^ 11 + b2n x.lol * 2 ^ 12 + b2n x.integrity * 2 ^ 13 + b2n x.cfgBusy * 2 ^ 14

/-- The slot a direction uses at its next frame. -/
def KeyDir.cur (k : KeyDir) (next : Nat) : Bool :=
  match k.sw with
  | some n => if n ≤ next then !k.act else k.act
  | none => k.act

/-- A 32-bit read of a link register. -/
def Eng.zwRd (e : Eng) (off : Nat) : Nat :=
  let z := e.zw
  if 0x800 ≤ off ∧ off < 0x900 then
    let x := e.port' ((off - 0x800) / 0x20)
    match off % 0x20 with
    | 0x00 => b2n x.enable + 2 * x.dim.toNat + 8 * x.minLanes
    | 0x04 => x.status
    | 0x08 => ((List.range 18).map fun n => b2n (x.pair n).bad * 2 ^ n).sum
    | 0x0C => x.leastHead (fun n => n / 9 == 0) + 2 ^ 8 * x.leastHead (fun n => n / 9 == 1)
    | 0x10 => b2n (x.tx.cur x.txNext) + 2 * b2n (x.rx.cur x.rxNext) + 4 * b2n x.tx.sw.isSome + 8 * b2n x.rx.sw.isSome
    | _ => 0
  else if 0x400 ≤ off ∧ off < 0x800 then (z.routes.get 0 ((off - 0x400) / 4)).toNat
  else if 0x040 ≤ off ∧ off < 0x080 then z.ctrs.snapAt ((off - 0x040) / 8)
  else
    match off with
    | 0x000 => z.ctrs.read
    | 0x004 =>
      let lv := (List.range 8).filter fun p => (e.port' p).st == .live
      let heads := (lv.filter fun p => (e.port' p).pairs.any fun q => q.2.safety == .lit).map fun p =>
        (e.port' p).leastHead fun _ => true
      b2n (!lv.isEmpty) + (z.status.toNat &&& 0x3E) + 2 ^ 8 * (heads.min?.getD 0)
    | 0x008 => z.cal.toNat
    | 0x00C => z.e2e.toNat
    | _ => 0

/-- A write of a link register. -/
def Eng.zwWr (e : Eng) (off v : Nat) : Eng :=
  if 0x800 ≤ off ∧ off < 0x900 then
    let p : Fin 8 := ⟨(off - 0x800) / 0x20 % 8, Nat.mod_lt _ (by decide)⟩
    match off % 0x20 with
    | 0x00 => e.portCfg p v
    | 0x04 => e.onPort p fun x => { x with lol := x.lol && !bit v 12, integrity := x.integrity && !bit v 13,
                                           cfgBusy := x.cfgBusy && !bit v 14 }
    | _ => e
  else if 0x400 ≤ off ∧ off < 0x800 then
    (e.onZw fun z => { z with routes := z.routes.set 0 ((off - 0x400) / 4) (BitVec.ofNat 32 (v % 1024)) }).unstick
  else if 0x018 ≤ off ∧ off < 0x038 then
    e.onZw fun z => { z with key := BitVec.ofNat 256 (leNat (splice (leBytes 32 z.key.toNat) (off - 0x018) (leBytes 4 v))) }
  else
    match off with
    | 0x000 => e.onZw fun z => { z with ctrs := z.ctrs.write 1 v }
    | 0x004 => e.onZw fun z => { z with status := z.status &&& ~~~(BitVec.ofNat 8 (v &&& 0x3E)) }
    | 0x008 => e.onZw fun z =>
        { z with cal := BitVec.ofNat 32 (fld v 0 7 + fld v 8 7 * 2 ^ 8 + atLeast1 (fld v 16 16) * 2 ^ 16) }
    | 0x00C => e.onZw fun z => { z with e2e := BitVec.ofNat 32 (atLeast1 (fld v 0 16) + fld v 16 4 * 2 ^ 16) }
    | 0x010 => e.keyCtl v
    | 0x014 => e.onZw fun z => { z with salt := BitVec.ofNat 32 v }
    | _ => e

end Sys2Proof.Machine
end

