-- ==== Sys2Proof/Machine/Messages.lean ====
section
/-! DEFINITION. What the units do with the messages that reach them (R142, R143, R184, R288, R346): reads served and
answered, writes performed and acknowledged, runs streamed, peer clapper operations. Each row takes the oldest delivered
message of its type. -/

namespace Sys2Proof.Machine

open Sys2Proof

/-! ### Gathers between engines (R142, R143) -/

/-- The read that a peer's read request asks for (R143), one response for each sector; `bad` are the sectors, counted from its
first, that met an uncorrectable error. A refused request of several sectors is answered with one denial for all of them (DESIGN
CHOICE, log entry 189). The sectors count as served, and not in the sward, hbm and far counters of this engine's own gathers
(DESIGN CHOICE, log entry 190). -/
def Eng.serveRead (e : Eng) (m : ZMsg) (sector n : Nat) (bad : List Nat) : Eng :=
  let dst := m.src.toNat
  let a := sector * 64
  match e.check 3 e.gln.peerMaster true false a (64 * n) with
  | (e, false) => (e.onGln fun g => { g with serveDenied := true }).send dst (.readRsp 0 true false [])
  | (e, true) =>
    (List.range n).foldl (fun e i =>
      let sa := a + 64 * i
      let r := e.answer sa 64 (if bad.contains i then .uncorr else .ok)
      let (e, bs) := e.readSward e.gln.peerMaster sa 64
      if r = .ok then (e.countGln 4 1).send dst (.readRsp (BitVec.ofNat 8 i) false false bs)
      else (e.answered sa 64).send dst (.readRsp (BitVec.ofNat 8 i) false true [])) e

/-- READ_REQUEST (R143): the request that a serve buffer has held longest is served, once the sward takes its reads. -/
def Eng.readRequest (e : Eng) (bad : List Nat) : Eng :=
  let e := e.serveFill
  match e.gln.serve with
  | [] => e
  | (_, m) :: rest => match m.body with
    | .readReq s _ n =>
      if e.inReset 1 || e.swdWaits (s.toNat * 64) (64 * (n.toNat + 1)) then e
      else ((e.onGln fun g => { g with serve := rest }).serveRead m s.toNat (n.toNat + 1) bad).serveFill
    | _ => e

/-- READ_REQUEST, as the row gives it. -/
def execReadRequest (bad : List Nat) (s : State) : Host.Outcome State Fault Refusal := .next (s.live fun e => e.readRequest bad)

/-- A part whose chunks cover its sectors has its bytes, or is dead where a request of it failed. -/
def Part.assemble (p : Part) : Part :=
  let pick (sa : Nat) : Option (List Byte) := (p.chunks.find? fun c => decide (c.1 ≤ sa / 64) &&
    decide (sa / 64 < c.1 + c.2.length / 64)).map fun c => (c.2.drop (64 * (sa / 64 - c.1))).take 64
  let got := p.sectors.map pick
  if got.all Option.isSome then
    if p.bad then { p with st := .dead }
    else { p with st := .got (((got.flatMap fun x => x.getD []).drop (p.addr % 64)).take p.bytes) }
  else p

/-- A request of a gather has been answered whole (R142): its sectors from `first` on, which stand for nothing where `bad`. -/
def Eng.readDone (e : Eng) (k : Key) (pos i first : Nat) (bs : List Byte) (bad : Bool) (wrs : List ReadRes) : Eng :=
  match e.glean k with
  | none => e
  | some g =>
    match g.part pos i with
    | none => e
    | some (_, p) =>
      if p.st != .issued then e
      else
        let g := g.setPart pos i fun q =>
          ({ q with chunks := q.chunks ++ [(first, bs)], bad := q.bad || bad } : Part).assemble
        let (e, g) := e.plainOut g wrs (g.elems.length + 1)
        e.setGlean g

/-- A response denied a request of an element, or gave one of its sectors as uncorrectable (R136, R143): `sa` is its address. -/
def Eng.readBad (e : Eng) (k : Key) (pos i sa : Nat) (denied : Bool) : Eng :=
  match e.glean k with
  | none => e
  | some g =>
    match g.part pos i with
    | none => e
    | some (x, p) =>
      if p.st != .issued then e
      else if denied then e.setGlean (g.setElem pos fun y => { y with outc := y.outc ||| 0x08 })
      else
        let (e, g) := e.elemUncorr g x sa
        e.setGlean g

/-- READ_RESPONSE (R142): the oldest request to that peer that lacks the sector takes it; a late response is discarded, and so is one
to a request whose work has ended (R119). -/
def Eng.readResponse (e : Eng) (wrs : List ReadRes) : Eng :=
  let (e, m) := e.takeMsg fun b => match b with
    | .readRsp .. => true
    | _ => false
  match m with
  | some m => match m.body with
    | .readRsp idx denied uncorr data =>
      let mine (t : Track) : Bool := t.msg.dst == m.src && (match t.msg.body with
        | .readReq _ _ n => decide (idx.toNat ≤ n.toNat) && !t.got.any fun x => x.1 == idx.toNat
        | _ => false)
      match e.zw.tracked.find? mine with
      | none => e
      | some t => match t.msg.body, t.use with
        | .readReq s _ n, .read k pos i =>
          let cnt := n.toNat + 1
          if denied then
            ((e.untrack (· == t)).readBad k pos i 0 true).readDone k pos i s.toNat (List.replicate (64 * cnt) 0) true wrs
          else
            let t' := { t with got := t.got ++ [(idx.toNat, if uncorr then [] else data)] }
            let e := if uncorr then e.readBad k pos i (64 * (s.toNat + idx.toNat)) false else e.countGln 3 1
            if t'.got.length = cnt then
              let bs := (sortBy (·.1) t'.got).flatMap fun x => if x.2.isEmpty then List.replicate 64 0 else x.2
              (e.untrack (· == t)).readDone k pos i s.toNat bs (t'.got.any (·.2.isEmpty)) wrs
            else e.onZw fun z => { z with tracked := z.tracked.map fun y => if y == t then t' else y }
        | .readReq _ _ n, .left =>
          let t' := { t with got := t.got ++ [(idx.toNat, [])] }
          if denied || t'.got.length == n.toNat + 1 then e.untrack (· == t)
          else e.onZw fun z => { z with tracked := z.tracked.map fun y => if y == t then t' else y }
        | _, _ => e
    | _ => e
  | none => e

/-- READ_RESPONSE, as the row gives it. -/
def execReadResponse (wrs : List ReadRes) (s : State) : Host.Outcome State Fault Refusal :=
  .next (s.live fun e => e.readResponse wrs)

/-! ### Writes (R288) -/

/-- The lead's map writes are acknowledged (R312): its COMMITs go out. -/
def Eng.commitsOut (e : Eng) : Eng :=
  let waits := e.zw.awaits fun u _ b => match b, u with
    | .write .., .cascade => true
    | _, _ => false
  if !e.hth.writing || waits then e
  else
    let (v, n, c) := e.hth.commit
    let e := { e with hth := { e.hth with writing := false } }
    e.hth.liveList.foldl (fun e p => e.sendTo p (.commit v n c)) e

/-- WRITE (R288): checked under LE_GLN_PEER_MASTER at WIDE, performed and acknowledged. -/
def Eng.writeMsg (e : Eng) (r : ReadRes) : Eng :=
  let (e, m) := e.takeMsg fun b => match b with
    | .write .. => true
    | _ => false
  match m with
  | some m => match m.body with
    | .write a bs =>
      let done (e : Eng) (st : BitVec 2) : Eng :=
        (e.onZw fun z => { z with answers := z.answers.set 0 (zKey m * 2 ^ 32 + m.seq.toNat) st }).send m.src.toNat
          (.writeAck st)
      match e.check 4 e.gln.peerMaster false true a.toNat bs.length with
      | (e, false) => done e 1
      | (e, true) =>
        if e.answer a.toNat bs.length r ≠ .ok then done (e.answered a.toNat bs.length) 2
        else done (e.putBytes false a.toNat bs) 0
    | _ => e
  | none => e

/-- WRITE, as the row gives it. -/
def execWrite (r : ReadRes) (s : State) : Host.Outcome State Fault Refusal := .next (s.live fun e => e.writeMsg r)

/-- WRITE_ACKNOWLEDGEMENT (R288): the oldest write to that position is answered; its unit learns the outcome. -/
def Eng.writeAckMsg (e : Eng) : Eng :=
  let (e, m) := e.takeMsg fun b => match b with
    | .writeAck .. => true
    | _ => false
  match m with
  | some m => match m.body with
    | .writeAck st =>
      let mine (t : Track) : Bool := t.msg.dst == m.src && (match t.msg.body with
        | .write .. => true
        | _ => false)
      match e.zw.tracked.find? mine with
      | none => e
      | some t =>
        let e := e.untrack mine
        match t.use with
        | .replica lane => e.replicaAck lane st.toNat
        | .topk k => if st = 0 then e.topkNext k else e.topkRefused k
        | .reload i j => if st = 0 then e else e.notLoaded i j
        | .cascade => e.commitsOut
        | _ => e
    | _ => e
  | none => e

/-- WRITE_ACKNOWLEDGEMENT, as the row gives it. -/
def execWriteAcknowledgement (s : State) : Host.Outcome State Fault Refusal := .next (s.live Eng.writeAckMsg)

/-! ### Sweep runs (R184) -/

/-- STREAM_REQUEST (R184): the run is read through the wide ports under LE_GLN_PEER_MASTER and answered in one message, or in
two past 32 sectors. A message with an uncorrectable sector, of `bad`, says so for the whole of it, which is all its header can (R288). The
sectors of a denied or uncorrectable message are free. -/
def Eng.streamRequest (e : Eng) (bad : List Nat) : Eng :=
  let (e, m) := e.takeMsg fun b => match b with
    | .streamReq .. => true
    | _ => false
  match m with
  | some m => match m.body with
    | .streamReq s _ n1 =>
      let n := n1.toNat + 1
      let a := s.toNat * 64
      let parts : List (Nat × Nat) := if n ≤ 32 then [(0, n)] else [(0, 32), (32, n - 32)]
      let fail (e : Eng) (x : Nat × Nat) (d u : Bool) : Eng :=
        let (e, bs) := e.freeBytes (64 * x.2)
        e.send m.src.toNat (.streamData (BitVec.ofNat 8 x.1) d u bs)
      match e.check 4 e.gln.peerMaster true false a (64 * n) with
      | (e, false) => parts.foldl (fun e x => fail e x true false) (e.onGln fun g => { g with serveDenied := true })
      | (e, true) =>
        parts.foldl (fun e x =>
          let at_ := a + 64 * x.1
          let hit := bad.any fun i => decide (x.1 ≤ i) && decide (i < x.1 + x.2)
          let r := e.answer at_ (64 * x.2) (if hit then .uncorr else .ok)
          let e := e.answered at_ (64 * x.2)
          if r ≠ .ok then fail e x false true
          else
            let (e, bs) := e.read false at_ (64 * x.2)
            e.send m.src.toNat (.streamData (BitVec.ofNat 8 x.1) false false bs)) e
    | _ => e
  | none => e

/-- STREAM_REQUEST, as the row gives it. -/
def execStreamRequest (bad : List Nat) (s : State) : Host.Outcome State Fault Refusal :=
  .next (s.live fun e => e.streamRequest bad)

/-- The sectors of a run reach the SWEEP that asked for them (R184, R186); a denial faults it. -/
def Eng.streamSweep (e : Eng) (k : Key) (src s first cnt : Nat) (denied : Bool) (data : Option (List Byte)) : Eng :=
  match e.sweepOf k with
  | none => e
  | some j =>
    if denied then e.setSweep { j with fault := true }
    else
      let put (a : SMap (Option (Option (List Byte)))) (i : Nat) : SMap (Option (Option (List Byte))) :=
        a.set none (peerSector src (s + first + i)) (some (data.map fun bs => (bs.drop (64 * i)).take 64))
      e.setSweep { j with arrived := (List.range cnt).foldl put j.arrived }

/-- The sectors of a replica reach the comparison that asked for them (R64); those denied or uncorrectable stand for nothing. -/
def Eng.streamCompare (e : Eng) (num j s first cnt : Nat) (data : Option (List Byte)) : Eng :=
  let put (a : SMap (Option (Option (List Byte)))) (n : Nat) : SMap (Option (Option (List Byte))) :=
    a.set none (j * 2 ^ 58 + s + first + n) (some (data.map fun bs => (bs.drop (64 * n)).take 64))
  let fill (c : RepCmp) : RepCmp := if c.num = num then { c with got := (List.range cnt).foldl put c.got } else c
  { e with map := { e.map with cmps := e.map.cmps.map fill } }

/-- STREAM_DATA (R64, R184): the sectors a peer streamed arrive at the work that asked for them. -/
def Eng.streamDataMsg (e : Eng) : Eng :=
  let (e, m) := e.takeMsg fun b => match b with
    | .streamData .. => true
    | _ => false
  match m with
  | some m => match m.body with
    | .streamData idx denied uncorr data =>
      let mine (t : Track) : Bool := t.msg.dst == m.src && (match t.msg.body with
        | .streamReq _ _ n => decide (idx.toNat ≤ n.toNat) && !t.got.any fun x => x.1 == idx.toNat
        | _ => false)
      match e.zw.tracked.find? mine with
      | none => e
      | some t => match t.msg.body with
        | .streamReq s _ n1 =>
          let n := n1.toNat + 1
          let first := idx.toNat
          let cnt := if first = 0 then min n 32 else n - first
          let t' := { t with got := t.got ++ [(first, [])] }
          let last := t'.got.length == (if n ≤ 32 then 1 else 2)
          let e := if last then e.untrack (· == t)
            else e.onZw fun z => { z with tracked := z.tracked.map fun y => if y == t then t' else y }
          let bs := if denied || uncorr then none else some data
          match t.use with
          | .stream k => e.streamSweep k m.src.toNat s.toNat first cnt denied bs
          | .compare i j =>
            let e := e.streamCompare i j s.toNat first cnt bs
            if last then e.repDone i else e
          | _ => e
        | _ => e
    | _ => e
  | none => e

/-- STREAM_DATA, as the row gives it. -/
def execStreamData (s : State) : Host.Outcome State Fault Refusal := .next (s.live Eng.streamDataMsg)

/-! ### Peer clapper operations (R346) -/

/-- CLAPPER_OPERATION (R346): presented at its bank under LE_GLN_PEER_MASTER; the answer goes back when it is served. An
operation code other than set and add is reserved: the message is discarded and counted (R288). -/
def Eng.clapperOperation (e : Eng) : Eng :=
  let (e, m) := e.takeMsg fun b => match b with
    | .clpOp .. => true
    | _ => false
  match m with
  | some m => match m.body with
    | .clpOp n op v =>
      if 2 ≤ op.toNat then e.countZw 2 1
      else
        e.clpPresent { req := 10, master := e.gln.peerMaster, clapper := n.toFin, kind := if op = 0 then .set else .add, val := v,
                       dst := none, peer := some (m.src, m.seq), cmd := none }
    | _ => e
  | none => e

/-- CLAPPER_OPERATION, as the row gives it. -/
def execClapperOperation (s : State) : Host.Outcome State Fault Refusal := .next (s.live Eng.clapperOperation)

/-- A posted operation of a director has been answered, or is given up. -/
def Eng.postedDone (e : Eng) (d : Fin 8) : Eng := (e.onDir d fun x => { x with peerOps := x.peerOps - 1 }).settle d

/-- A command that waits for a peer's answer is in flight. -/
def Eng.cmdDetail (e : Eng) (reel : Fin 64) (count : W24) : W32 :=
  (((e.reel reel).inflight.find? (·.count == count)).map e.endDetail).getD 0

/-- CLAPPER_ACKNOWLEDGEMENT (R346): the oldest operation sent to that position is answered. -/
def Eng.clapperAck (e : Eng) : Eng :=
  let (e, m) := e.takeMsg fun b => match b with
    | .clpAck .. => true
    | _ => false
  match m with
  | some m => match m.body with
    | .clpAck denied =>
      let mine (t : Track) : Bool := t.msg.dst == m.src && (match t.msg.body with
        | .clpOp .. => true
        | _ => false)
      match e.zw.tracked.find? mine with
      | none => e
      | some t =>
        let e := e.untrack mine
        match t.use with
        | .signal reel count => e.finishCmd reel count (if denied then 3 else 0) 0 (e.cmdDetail reel count)
        | .posted d cl =>
          let x := e.dir d
          let e := if denied then
              ({ e with clp := { e.clp with peerDenied := true } } : Eng).post (e.mreelOf x.reel) 2 d 0x0201
                (m.src.toNat + cl.toNat * 2 ^ 16 + workTag x.reel x.count)
            else e
          e.postedDone d
        | _ => e
    | _ => e
  | none => e

/-- CLAPPER_ACKNOWLEDGEMENT, as the row gives it. -/
def execClapperAcknowledgement (s : State) : Host.Outcome State Fault Refusal := .next (s.live Eng.clapperAck)

end Sys2Proof.Machine
end

