-- ==== Sys2Proof/Machine/Heath.lean ====
section
/-! DEFINITION. The heath (R296 to R318): joining, the lead, heartbeats and failure, link failures, the time base, barriers
released at a failure, re-homing, and the heath block's registers. -/

namespace Sys2Proof.Machine

open Sys2Proof

/-! ### Positions -/

/-- Changes the heath block. -/
def Eng.onHth (e : Eng) (f : Hth → Hth) : Eng := { e with hth := f e.hth }
/-- The set of one position. -/
def posBit (p : Nat) : BitVec 256 := 1#256 <<< p
/-- The set of a list of positions. -/
def posSet (ps : List Nat) : BitVec 256 := ps.foldl (fun s p => s ||| posBit p) 0
/-- A quorum of the heath (R301): more than half of the size, or exactly half with position 0. -/
def Hth.quorum (h : Hth) (ps : List Nat) : Bool :=
  decide (h.size < 2 * ps.length) || (decide (h.size = 2 * ps.length) && ps.contains 0)
/-- The shape bits of LE_HTH_CFG, in place. -/
def Hth.shapeBits (h : Hth) : BitVec 22 := BitVec.ofNat 22 (fld h.cfg.toNat 8 14 * 2 ^ 8)
/-- lead_pref. -/
def Hth.pref (h : Hth) : Bool := h.cfg.getLsbD 22
/-- This engine's HELLO (R299). -/
def Hth.hello (h : Hth) : Hello :=
  { serial := h.serial, position := BitVec.ofNat 8 h.pos, shape := h.shapeBits, heathId := h.id, pref := h.pref,
    poolBase := h.poolBase, poolSize := h.poolSize }
/-- The engine takes part in a heath. -/
def Hth.inHeath (h : Hth) : Bool := h.st != .alone
/-- Positions whose HELLOs were heard. -/
def Hth.greeted (h : Hth) : List Nat := (List.range 256).filter fun p => (h.hellos.get none p).isSome

/-- Floods a message that arrived on a port to the other live ports (R299, R317). -/
def Eng.refloodMsg (e : Eng) (m : ZMsg) : Eng := (e.onZw fun z => z.see m).cast m (some m.dst.toNat)

/-- The lead acts (R301): it holds a quorum; an engine alone in its heath is its own lead. -/
def Hth.acts (h : Hth) : Bool := h.shape == 0 || (h.st == .lead && h.quorum h.liveList)

/-- Enters the isolated state and reports it (R301). -/
def Eng.isolate (e : Eng) (heard : Nat) : Eng :=
  if e.hth.st = .isolated then e
  else (e.onHth fun h => { h with st := .isolated, claim := false }).postEvt 0 0 0x0105 (heard + e.hth.term.toNat * 2 ^ 32)

/-- A member or lead that holds no quorum any more is isolated (R301). -/
def Eng.checkQuorum (e : Eng) : Eng :=
  if (e.hth.st == .member || e.hth.st == .lead) && !e.hth.quorum e.hth.liveList then e.isolate e.hth.liveList.length else e

/-! ### A position is declared failed (R303) -/

/-- The messages to a position whose unit waits join those that await its answer; untracked ones are dropped. -/
def Zw.gather (z : Zw) (hit : Nat → Bool) (pos : Nat) (now : W64) : Zw :=
  let ts := (z.blocked.filter fun w => hit w.1 && zTracked w.2.1).map fun w : Nat × ZBody × Purpose =>
    ({ msg := { vc := false, dst := BitVec.ofNat 8 w.1, src := BitVec.ofNat 8 pos, seq := 0, body := w.2.1 }, use := w.2.2, sent := 0,
       got := [], lost := false, at_ := now } : Track)
  { z with tracked := z.tracked ++ ts, blocked := z.blocked.filter fun w => !hit w.1 }

/-- Tracked clapper operations to a failed position are discarded and counted (R346): a SIGNAL completes unreachable, a
posted operation no longer holds back its director. -/
def Eng.clapperFailed (e : Eng) (p : Nat) : Eng :=
  let hit (t : Track) : Bool := t.msg.dst.toNat == p && (match t.msg.body with
    | .clpOp .. => true
    | _ => false)
  let ts := e.zw.tracked.filter hit
  let e := e.onZw fun z => { z with tracked := z.tracked.filter fun t => !hit t }
  let e : Eng := { e with clp := { e.clp with dropped := e.clp.dropped || !ts.isEmpty, dropCnt := satAdd e.clp.dropCnt ts.length } }
  ts.foldl (fun e t => match t.use with
    | .signal reel count => e.finishCmd reel count 7 0 (e.cmdDetail reel count)
    | .posted d _ => e.postedDone d
    | _ => e) e

/-- A position homes rows of a table whose optimizer code is 1 to 6 (R316). -/
def MapSt.trains (m : MapSt) (p : Nat) : Bool :=
  m.ents.any fun x => x.home == p && (let o := (m.tab x.table).opt; decide (1 ≤ o) && decide (o ≤ 6))

/-- The lead releases every enabled barrier slot at a failure (R309). -/
def Eng.barrierFail (e : Eng) : Eng :=
  (List.range 16).foldl (fun e b =>
    let s := e.hth.bars.get {} b
    let w := s.cfg.toNat
    if !bit w 31 then e
    else
      let rel : Fin 8192 := ⟨fld w 16 13, by unfold fld; exact Nat.mod_lt _ (by decide)⟩
      let val := BitVec.ofNat 64 (s.gen.toNat + 1) ||| (1#64 <<< 63)
      let e := e.clpQueue { req := 11, master := e.gln.peerMaster, clapper := rel, kind := .set, val := val, dst := none,
                            peer := none, cmd := none }
      (e.hth.liveList.filter (· != e.hth.pos)).foldl
        (fun e p => e.send p (.clpOp (BitVec.ofNat 13 rel.val) 0 val) .barrier) e) e

/-- What every engine does when a position is declared failed (R303): its bits, its requests, its clapper operations, the
position-failed message. Routes are computed afterwards. -/
def Eng.declare (e : Eng) (p : Nat) : Eng :=
  if e.hth.isFailed p then e
  else
    let b := posBit p
    -- of a failed lead, the position that leads next reports whether it homed trained rows (R300, R316)
    let leads := if p = e.hth.lead ∧ !e.hth.isLead then (e.hth.liveList.filter (· != p)).head? == some e.hth.pos else e.hth.isLead
    let homed := e.map.ents.filter fun x => x.home == p && !x.hold
    let e := e.onHth fun h => { h with failed := h.failed ||| b, live := h.live &&& ~~~b, missed := h.missed.set 0 p 0,
                                       await := h.await.filter (· != p), lostEnts := homed ++ h.lostEnts,
                                       again := h.again.filter (· != p), rejoined := h.rejoined &&& ~~~b }
    let e := e.onZw fun z => { z.gather (· == p) e.hth.pos e.hth.time with seen := z.seen.filter fun s => !(s.1 == 0 && s.2.1 == p) }
    let e := (((((e.cancelReads p).sweepFailed p).topkFailed p).replicaFailed p).repFailed p).clapperFailed p
    let e := (e.onZw fun z => { z with tracked := z.tracked.filter (fun t => t.msg.dst.toNat != p),
                                       stuck := z.stuck.filter fun m => m.dst.toNat != p }).unblock
    let trained := leads && e.map.trains p
    let e := e.postEvt 0 0 0x0104 (p + b2n trained * 2 ^ 8 + e.hth.term.toNat * 2 ^ 32)
    e.commitsOut

/-- Announces a failed position or link and keeps it for repeating (R303). -/
def Eng.announce (e : Eng) (pos : Option (BitVec 8)) (link : Option (BitVec 8 × BitVec 3)) : Eng :=
  (e.flood (.failed e.hth.term pos link)).onHth fun h =>
    if h.said.contains (pos, link) then h else { h with said := h.said ++ [(pos, link)], saidAt := if h.said.isEmpty then h.time else h.saidAt }

/-- The lead declares a position failed: announced, applied, and its barriers released (R303, R309). -/
def Eng.leadFail (e : Eng) (p : Nat) : Eng :=
  if e.hth.isFailed p then e
  else
    let e := ((e.announce (some (BitVec.ofNat 8 p)) none).declare p).barrierFail
    if p = e.hth.pos then e.isolate e.hth.liveList.length else e

/-- While no dimension order connects every pair, the lead declares failed the highest position that cannot reach it under
x-y-z order (R306); a lead that this would leave without a quorum is isolated instead (R301). -/
def Eng.fitOrders : Nat → Eng → Eng
  | 0, e => e
  | n + 1, e =>
    if e.hth.shape ≠ 2 ∨ e.hth.order.isSome then e
    else match (e.hth.liveList.reverse).find? fun p => p != e.hth.pos && (e.hth.path [0, 1, 2] p e.hth.pos).isNone with
      | some p =>
        let near := e.hth.liveList.filter (· != p)
        if e.hth.quorum near then (e.leadFail p).fitOrders n else e.isolate near.length
      | none => e

/-! ### Re-homing: the plan (R311, R313, R314) -/

/-- An entry of a new map with its replicas, and the piece it is if it was lost. -/
structure NewEnt where
  ent   : Ent
  reps  : List Rep
  piece : Option Piece

/-- A piece of the plan covers an entry of the active map. -/
def Piece.covers (p : Piece) (x : Ent) : Bool :=
  p.pos == x.home && p.entry.table == x.table && p.entry.firstRow == x.firstRow && p.entry.rowCount == x.rowCount &&
    p.entry.elemFirst == x.elemFirst && p.entry.elemCount == x.elemCount

/-- The pieces an entry is split into: rows [first, first + n) over the survivors (R311). `src` is the restore directory entry
that holds their rows (log entry 26). -/
def splitRows (ps : List Nat) (src : W64) (x : Ent) : List NewEnt :=
  let s := ps.length
  let one (k : Nat) (p : Nat) : NewEnt :=
    let lo := k * (x.rowCount / s) + min k (x.rowCount % s)
    let n := x.rowCount / s + b2n (decide (k < x.rowCount % s))
    let y := { x with firstRow := x.firstRow + lo, rowCount := n, home := p, tier := 0, hold := true, base := 0, nrep := 0 }
    { ent := y, reps := [], piece := some { num := 0, pos := p, order := ⟨0, 0, src, 0, 0⟩, entry := y, status := 0,
                                            bytes := 0, sent := false, noRoom := true } }
  (ps.zipIdx.map fun (p, k) => one k p).filter fun y => y.ent.rowCount != 0

/-- Address of a position's restore directory entry (R335). -/
def Eng.dirEntry (e : Eng) (p : Nat) : W64 := e.tk.dir + BitVec.ofNat 64 (64 * p)

/-- The restore directory entry of the position whose files hold an entry's rows (R315, log entry 26): the one that homed them when it
was declared failed, and otherwise its home. -/
def Eng.srcOf (e : Eng) (x : Ent) : W64 :=
  let holds (y : Ent) : Bool := y.table == x.table && decide (y.firstRow ≤ x.firstRow) &&
    decide (x.firstRow + x.rowCount ≤ y.firstRow + y.rowCount) && decide (y.elemFirst ≤ x.elemFirst) &&
    decide (x.elemFirst + x.elemCount ≤ y.elemFirst + y.elemCount)
  e.dirEntry (((e.hth.lostEnts.find? holds).map (·.home)).getD x.home)

/-- The survivors that lost rows are spread over (R305, R311): the live positions, but those that rejoined and have had no rows placed
on them since. -/
def Hth.survivors (h : Hth) : List Nat := h.liveList.filter fun p => !h.rejoined.getLsbD p

/-- A position holds no rows of the lead's plan: it is declared failed, or rejoined since (R303, R305). -/
def Hth.lostPos (h : Hth) (p : Nat) : Bool := h.isFailed p || h.rejoined.getLsbD p

/-- One entry of the active map under the plan (R311, R314). A position that rejoined homes nothing (R305). -/
def Eng.planEnt (e : Eng) (x : Ent) : List NewEnt :=
  let h := e.hth
  let rs := ((e.map.reps.drop x.repIdx).take x.nrep).filter fun r => !h.lostPos r.position
  if h.lostPos x.home then
    match rs.mergeSort fun a b => decide (a.position ≤ b.position) with
    | r :: _ =>
      [{ ent := { x with home := r.position, base := r.base, tier := r.tier }, reps := rs.filter (· != r), piece := none }]
    | [] =>
      splitRows h.survivors (e.srcOf x) x
  else
    match (if x.hold then h.plan.find? fun p => p.covers x else none) with
    | some p =>
      if p.status = 1 then [{ ent := { x with hold := false }, reps := rs, piece := none }]
      else [{ ent := x, reps := rs, piece := some p }]
    | none =>
      let p : Piece := { num := 0, pos := x.home, order := ⟨0, 0, e.srcOf x, 0, 0⟩, entry := x, status := 0, bytes := 0,
                         sent := false, noRoom := true }
      [{ ent := x, reps := rs, piece := if x.hold && x.base == 0 then some p else none }]

/-- A survivor's pool: base and end (R311). -/
def Hth.pool (h : Hth) (p : Nat) : Nat × Nat :=
  let (b, s) := if p = h.pos then (h.poolBase.toNat, h.poolSize.toNat)
    else match h.hellos.get none p with
      | some x => (x.poolBase.toNat, x.poolSize.toNat)
      | none => (0, 0)
  (b, b + s * 2 ^ 30)

/-- Bytes of an entry's rows at its stride. -/
def Ent.span (x : Ent) : Nat := x.rowCount * (4 * x.stride4)

/-- Allocates the pieces without a place, in plan order, above the entries that take up room in each pool (R311, R313). Answers the
bytes that are short. -/
def Hth.allocate (h : Hth) (kept : List Ent) : List NewEnt → SMap Nat → Nat → List NewEnt × Nat
  | [], _, short => ([], short)
  | y :: ys, tops, short =>
    match y.piece with
    | some p =>
      if p.noRoom then
        let (b, fin) := h.pool p.pos
        let used := (kept.filter fun x => x.home == p.pos && decide (b ≤ x.base.toNat) && decide (x.base.toNat < fin)).map
          fun x => x.base.toNat + x.span
        let at_ := (((used.max?.getD b).max b).max (tops.get 0 p.pos) + 63) / 64 * 64
        if at_ + y.ent.span ≤ fin then
          let x := { y.ent with base := BitVec.ofNat 64 at_ }
          let (r, s) := h.allocate kept ys (tops.set 0 p.pos (at_ + y.ent.span)) short
          ({ y with ent := x, piece := some { p with entry := x, noRoom := false } } :: r, s)
        else
          let (r, s) := h.allocate kept ys tops (short + y.ent.span)
          (y :: r, s)
      else
        let (r, s) := h.allocate kept ys tops short
        (y :: r, s)
    | none =>
      let (r, s) := h.allocate kept ys tops short
      (y :: r, s)

/-- The highest map version known (R55, R315): a version 0 is none. -/
def Eng.knownVer (e : Eng) : W32 :=
  if e.hth.version ≠ 0 ∧ (e.map.activeVer = 0 ∨ follows e.hth.version e.map.activeVer) then e.hth.version else e.map.activeVer

/-- The version after the highest one known (R312, R315), never 0. -/
def Eng.nextVersion (e : Eng) : W32 :=
  let v := e.knownVer + 1
  if v = 0 then 1 else v

/-- Pieces of at most `n` bytes of a list, with their offsets. -/
def writesOf (n : Nat) : Nat → Nat → List Byte → List (Nat × List Byte)
  | 0, _, _ => []
  | k + 1, o, bs => if bs.isEmpty then [] else (o, bs.take n) :: writesOf n k (o + n) (bs.drop n)

/-- The lead commits a map (R312): it is written into every live engine's map buffer, its own under the housekeeping master (R347,
R348), and COMMIT goes out once every write is acknowledged. -/
def Eng.leadCommit (e : Eng) (index : SMap (Nat × Nat)) (ents : List Ent) (reps : List Rep) : Eng :=
  let v := e.nextVersion
  let img := mapImage v.toNat index ents reps
  let crc := le img 0x10 4
  let buf := e.hth.mapbuf.toNat
  let e := e.onHth fun h => { h with version := v, writing := true,
                                     commit := (v, BitVec.ofNat 32 img.length, BitVec.ofNat 32 crc) }
  let (e, ok) := e.check 4 63 false true buf img.length
  let e := if ok then e.putBytes false buf img else e
  let ws := writesOf 1024 (img.length / 1024 + 1) buf img
  let e := (e.hth.liveList.filter (· != e.hth.pos)).foldl (fun e p =>
    ws.foldl (fun e w => e.send p (.write (BitVec.ofNat 64 w.1) w.2)) e) e
  e.commitsOut

/-- The new map's table index, entries and replicas from its entries by table. -/
def layoutMap (ts : List (Nat × List NewEnt)) : SMap (Nat × Nat) × List NewEnt × List Rep :=
  let sorted := ts.map fun (t, xs) => (t, xs.mergeSort fun a b =>
    decide (a.ent.firstRow < b.ent.firstRow) ||
      (a.ent.firstRow == b.ent.firstRow && decide (a.ent.elemFirst ≤ b.ent.elemFirst)))
  let index := (sorted.foldl (fun (st : SMap (Nat × Nat) × Nat) x =>
    (st.1.set (0, 0) x.1 (st.2, x.2.length), st.2 + x.2.length)) ([], 0)).1
  let flat := sorted.flatMap (·.2)
  let (xs, reps) := flat.foldl (fun (st : List NewEnt × List Rep) y =>
    (st.1 ++ [{ y with ent := { y.ent with nrep := y.reps.length, repIdx := st.2.length } }], st.2 ++ y.reps)) ([], [])
  (index, xs, reps)

/-- LOAD orders for the planned pieces of a position that have none yet (R312). -/
def Eng.sendLoads (e : Eng) (p : Nat) : Eng :=
  let due (x : Piece) : Bool := x.pos == p && !x.sent && !x.noRoom
  let xs := e.hth.plan.filter due
  let e := e.onHth fun h => { h with plan := h.plan.map fun x => if due x then { x with sent := true } else x }
  xs.foldl (fun e x => e.sendTo p (.load x.order)) e

/-- The lead plans over the active map and the live set, in ascending entry order, and commits the plan if it changes the map (R311
to R314). Old placements that some engine may still read are not used again (R312). -/
def Eng.plan (e : Eng) : Eng :=
  if e.map.activeVer = 0 ∨ !e.hth.await.isEmpty ∨ !e.hth.acts then e
  else
    let m := e.map
    let order := sortBy (·.1) (m.index.flatMap fun (t, f, n) => (List.range n).map fun i => (f + i, t))
    let all := order.flatMap fun (i, t) => ((m.ents[i]?).toList.flatMap e.planEnt).map fun y => (t, y)
    let kept := all.filterMap fun (_, y) => match y.piece with
      | some p => if p.noRoom then none else some y.ent
      | none => some y.ent
    let (ys, short) := e.hth.allocate (kept ++ e.hth.old.map (·.2)) (all.map (·.2)) [] 0
    let placed := m.index.map fun (t, _) => (t, (((all.map (·.1)).zip ys).filter fun y => y.1 == t).map (·.2))
    let (index, xs, reps) := layoutMap placed
    let next := (((e.hth.plan.filter (·.sent)).map (·.num)).max?.map (· + 1)).getD 0
    let (ps, _) := (xs.zipIdx).foldl (fun (st : List Piece × Nat) (y, i) => match y.piece with
      | none => st
      | some p =>
        if p.noRoom then (st.1 ++ [p], st.2)
        else
          let num := if p.sent then p.num else st.2 % 65535
          let o : LoadOrder := { piece := BitVec.ofNat 16 num, entry := BitVec.ofNat 32 i, src := p.order.src,
                                 len := BitVec.ofNat 64 y.ent.span, target := y.ent.base }
          (st.1 ++ [{ p with num := num, order := o, entry := y.ent }], if p.sent then st.2 else st.2 + 1)) ([], next)
    let same := xs.map (·.ent) == m.ents && reps == m.reps
    let e := e.onHth fun h => { h with plan := ps, capacity := h.capacity || short != 0 }
    let e := if short = 0 then e else e.postEvt 0 0 0x0106 short
    if same then e.hth.liveList.foldl Eng.sendLoads e else e.leadCommit index (xs.map (·.ent)) reps

/-- The lead's declarations (R301, R303, R306, R311): announced and applied, the routes computed, and a plan made; a lead that they
would leave without a quorum is isolated instead. -/
def Eng.leadDeclare (e : Eng) (ps : List Nat) : Eng :=
  let near := e.hth.liveList.filter fun p => !ps.contains p
  if !e.hth.quorum near then e.isolate near.length
  else (((ps.foldl (fun e p => e.leadFail p) e).fitOrders 256).reroute.checkQuorum).plan

/-! ### The lead (R300, R315) -/

/-- This engine becomes lead (R300): the term advances and LEAD is flooded. -/
def Eng.becomeLead (e : Eng) : Eng :=
  let e := e.onHth fun h => { h with st := .lead, lead := h.pos, term := h.term + 1, claim := true, said := [], plan := [],
                                     mayStep := false, slew := 0, baseAt := h.time, again := [] }
  e.flood (.lead (BitVec.ofNat 8 e.hth.pos) e.hth.term)

/-- A new lead asks every live position for its pieces (R315), and waits for one answer for each held piece of its map. -/
def Eng.askPieces (e : Eng) : Eng :=
  let held := (e.map.ents.filter fun x => x.hold && x.base != 0 && e.hth.live.getLsbD x.home).map (·.home)
  let e := e.onHth fun h => { h with await := held }
  e.hth.liveList.foldl (fun e p => e.sendTo p (.statusReq e.hth.term)) e

/-- The lead was declared failed (R300, R301, R303, R315): the lowest live position leads; an engine without a quorum is isolated. -/
def Eng.takeover (e : Eng) (old : Nat) : Eng :=
  if !e.hth.quorum e.hth.liveList then e.isolate e.hth.liveList.length
  else match e.hth.liveList with
  | [] => e
  | p :: _ =>
    if p = e.hth.pos then
      let e := e.becomeLead
      let e := ((e.announce (some (BitVec.ofNat 8 old)) none).barrierFail).askPieces
      ((e.fitOrders 256).reroute.checkQuorum).plan
    else (e.onHth fun h => { h with lead := p }).reroute

/-! ### Joining (R299) -/

/-- Joining ends (R299, R300): the heard positions are live, the others declared failed, and a lead is elected, unless one has told
of itself. -/
def Eng.joinEnd (e : Eng) : Eng :=
  let h := e.hth
  let ps := h.greeted
  let serial (p : Nat) : Nat := ((h.hellos.get none p).map fun x => x.serial.toNat).getD 0
  let first := (ps.mergeSort fun a b => decide (serial a ≤ serial b)).headD h.pos
  let pref0 := ((h.hellos.get none 0).map (·.pref)).getD false
  let lead := if h.led then h.lead else if pref0 then 0 else first
  let rest := (List.range h.size).filter fun p => !ps.contains p
  let e := e.onHth fun h => { h with st := .member, live := posSet ps, lead := lead, mayStep := true, heard := posSet ps,
                                     missed := [], led := false }
  if lead = h.pos then e.becomeLead.leadDeclare rest
  else (rest.foldl (fun e p => e.declare p) e).reroute

/-- HELLOs from every position of the heath have arrived (R299): joining ends at once. -/
def Eng.joinDone (e : Eng) : Eng :=
  if (List.range e.hth.size).all fun p => (e.hth.hellos.get none p).isSome then e.joinEnd else e

/-- A write of join = 1 (R299, R376). -/
def Eng.join (e : Eng) (fwBad : Bool) : Eng :=
  let h := e.hth
  if h.st ≠ .alone then e
  else if fwBad || !hthCfgOk h.cfg.toNat then e.onHth fun h => { h with cfgBusy := true }
  else if h.shape = 0 then e
  else
    let e := e.onHth fun h => { h with st := .joining, joinAt := h.time, live := 0, failed := 0, cut := [], led := false,
                                       period := h.time.toNat / 10000, hellos := SMap.set none [] h.pos (some h.hello) }
    let e := e.onZw fun z => { z with seen := z.seen.filter fun s => s.1 != 0 }
    (e.flood (.hello e.hth.hello)).joinDone

/-- A member follows a lead whose LEAD reached it while it was joining or isolated (R301, R305). DESIGN CHOICE, log 104: every position
that is not failed is live. -/
def Hth.follow (h : Hth) : Hth :=
  let all := posSet ((List.range h.size).filter fun p => !h.isFailed p)
  { h with st := .member, live := all, heard := all, missed := [], led := false }

/-- JOIN_TIMEOUT (R299, R301): 1 s after join = 1. An engine that comes back to a running heath hears no quorum of HELLOs, and follows
the lead that admitted it (R305, log 104): it knows of no position yet whether it rejoined, so until a map places rows on one it takes
each for such, itself too. -/
def Eng.joinTimeout (e : Eng) : Eng :=
  if e.hth.st ≠ .joining ∨ e.hth.time.toNat < e.hth.joinAt.toNat + 1000000000 then e
  else if e.hth.quorum e.hth.greeted then e.joinEnd
  else if e.hth.led then (e.onHth fun h => { h.follow with mayStep := true, rejoined := BitVec.allOnes 256 }).reroute
  else e.isolate e.hth.greeted.length

/-- JOIN_TIMEOUT, as the row gives it. -/
def execJoinTimeout (s : State) : Host.Outcome State Fault Refusal := .next (s.live Eng.joinTimeout)

/-- HELLO (R297, R299, R305, R310): a mismatched neighbour's port goes down; a new HELLO is forwarded and recorded; joining
ends when every position was heard; a failed position is admitted again. A HELLO that was seen shows that its live position works
(DESIGN CHOICE, log 104). -/
def Eng.helloMsg (e : Eng) (port : Fin 8) : Eng :=
  let (e, m) := e.takeOf fun m => m.dst.toNat == port.val && (match m.body with
    | .hello _ => true
    | _ => false)
  match m with
  | some m => match m.body with
    | .hello x =>
      let p := x.position.toNat
      let wrong := e.hth.farPos port != some m.src.toNat
      let other := p == m.src.toNat && (x.heathId != e.hth.id || x.shape != e.hth.shapeBits)
      if !e.hth.inHeath then e
      else if wrong || other then (e.portDown port 4).onHth fun h => { h with mismatch := true }
      else if e.zw.seen.contains (zFloodKey m) then e.onHth fun h => if h.live.getLsbD p then { h with heard := h.heard ||| posBit p } else h
      else
        let e := e.refloodMsg { m with src := BitVec.ofNat 8 e.hth.pos }
        let e := e.onHth fun h => { h with hellos := h.hellos.set none p (some x) }
        if e.hth.st = .joining then e.joinDone
        else if e.hth.isFailed p && p != e.hth.pos then
          let b := posBit p
          let e := e.onHth fun h => { h with failed := h.failed &&& ~~~b, live := h.live ||| b, heard := h.heard ||| b,
                                             rejoined := h.rejoined ||| b,
                                             said := h.said.filter fun s => s.1 != some x.position }
          let e := e.reroute
          if e.hth.st = .lead then e.flood (.lead (BitVec.ofNat 8 e.hth.pos) e.hth.term) else e
        else e
    | _ => e
  | none => e

/-- HELLO, as the row gives it. -/
def execHello (port : Fin 8) (s : State) : Host.Outcome State Fault Refusal := .next (s.live fun e => e.helloMsg port)

/-- LEAD (R300, R301): the lead and the term are taken over, and isolation ends. An engine that joins goes on joining, as R299 says when
that ends. A new term is a takeover, after which a member may step (R307). -/
def Eng.leadMsg (e : Eng) : Eng :=
  let (e, m) := e.takeMsg fun b => match b with
    | .lead .. => true
    | _ => false
  match m with
  | some m => match m.body with
    | .lead p term =>
      let k := zFloodKey m
      let h := e.hth
      let old := decide (term.toNat < h.term.toNat)
      let mine := h.st == .lead && term == h.term && decide (h.pos ≤ p.toNat)
      if !h.inHeath || old || mine || (e.zw.seen.contains k && h.st != .isolated && h.st != .joining) then e
      else
        let e := e.refloodMsg m
        let e := e.onHth fun h =>
          let h' := if h.st = .joining then { h with led := true } else if h.st = .isolated then h.follow else { h with st := .member }
          { h' with lead := p.toNat, term := term, claim := false, mayStep := h.mayStep || term != h.term, plan := [], await := [],
                    said := if term = h.term then h.said else [], missed := [] }
        e.reroute
    | _ => e
  | none => e

/-- LEAD, as the row gives it. -/
def execLead (s : State) : Host.Outcome State Fault Refusal := .next (s.live Eng.leadMsg)

/-! ### Heartbeats (R302, R303) -/

/-- This engine's heartbeat. -/
def Eng.beat (e : Eng) : Beat :=
  { heathId := e.hth.id, lead := BitVec.ofNat 8 e.hth.lead, claim := e.hth.claim, pref := e.hth.pref,
    term := e.hth.term.setWidth 16, mapVer := e.map.activeVer.setWidth 16, beat := e.hth.beat }

/-- COMMIT is sent again to the engines that answered with reason 6 (R312). DESIGN CHOICE, log 200: at the end of a heartbeat
period of the lead, which outlasts a check. -/
def Eng.commitAgain (e : Eng) : Eng :=
  if !e.hth.acts then e
  else
    let (v, n, c) := e.hth.commit
    let ps := e.hth.again
    ps.foldl (fun e p => e.sendTo p (.commit v n c)) (e.onHth fun h => { h with again := [] })

/-- HEARTBEAT_PERIOD (R299, R301 to R303): at the end of a period of 10 µs of the time base a joining engine sends HELLO; a member
counts the positions it missed, acts on three misses in a row, and sends its heartbeats. -/
def Eng.heartbeatPeriod (e : Eng) : Eng :=
  let now := e.hth.time.toNat / 10000
  let ended (e : Eng) : Eng := e.onHth fun h => { h with period := now }
  if now ≤ e.hth.period then e
  else match e.hth.st with
  | .joining => (ended e).flood (.hello e.hth.hello)
  | .member | .lead =>
    let e := ended e
    let others := e.hth.liveList.filter (· != e.hth.pos)
    let e := e.onHth fun h =>
      { h with missed := others.foldl (fun (m : SMap Nat) p => m.set 0 p (if h.heard.getLsbD p then 0 else m.get 0 p + 1)) h.missed,
               heard := 0 }
    let gone := others.filter fun p => decide (3 ≤ e.hth.missed.get 0 p)
    let near := e.hth.liveList.filter fun p => !gone.contains p
    let e := if !e.hth.quorum near then e.isolate near.length
      else if e.hth.st = .lead then (if gone.isEmpty then e else e.leadDeclare gone)
      else if gone.contains e.hth.lead then (e.declare e.hth.lead).takeover e.hth.lead
      else e
    if e.hth.st = .isolated then e
    else
      let e := e.onHth fun h => { h with beat := h.beat + 1 }
      let e := e.commitAgain
      (e.hth.liveList.filter (· != e.hth.pos)).foldl (fun e p => e.send p (.heartbeat e.beat)) e
  | _ => e

/-- HEARTBEAT_PERIOD, as the row gives it. -/
def execHeartbeatPeriod (s : State) : Host.Outcome State Fault Refusal := .next (s.live Eng.heartbeatPeriod)

/-- A map version from its low 16 bits: the one nearest to another (R302). -/
def nearVersion (v : W32) (low : W16) : W32 :=
  let d := low - v.setWidth 16
  if d.toNat < 2 ^ 15 then v + d.setWidth 32 else v - (-d).setWidth 32

/-- HEARTBEAT (R300, R302, R303, R315): its position was heard, and its map version is known; of two claims the lower position's
stands. DESIGN CHOICE, log 218: while no version is known, the upper 16 bits of a reported one are taken as 0. -/
def Eng.heartbeatMsg (e : Eng) : Eng :=
  let (e, m) := e.takeMsg fun b => match b with
    | .heartbeat _ => true
    | _ => false
  match m with
  | some m => match m.body with
    | .heartbeat b =>
      let p := m.src.toNat
      let h := e.hth
      if e.hth.isFailed p || (h.st != .member && h.st != .lead) then e
      else
        let lose := b.claim && h.claim && decide (p < h.pos)
        let v := if e.knownVer = 0 then b.mapVer.setWidth 32 else nearVersion e.knownVer b.mapVer
        let later := v != 0 && (h.version == 0 || follows v h.version)
        e.onHth fun h =>
          { h with heard := h.heard ||| posBit p, version := if later then v else h.version, claim := h.claim && !lose, st := if lose then .member else h.st,
                   lead := if lose then p else h.lead, plan := if lose then [] else h.plan,
                   await := if lose then [] else h.await }
    | _ => e
  | none => e

/-- HEARTBEAT, as the row gives it. -/
def execHeartbeat (s : State) : Host.Outcome State Fault Refusal := .next (s.live Eng.heartbeatMsg)

/-- A link has failed (R304). -/
def Eng.cutLink (e : Eng) (p port : Nat) : Eng :=
  if e.hth.cut.contains (p, port) then e else e.onHth fun h => { h with cut := h.cut ++ [(p, port)] }

/-- FAILED (R303, R304, R306, R317): a repeat travels on, and changes nothing where it was applied. -/
def Eng.failedMsg (e : Eng) : Eng :=
  let (e, m) := e.takeMsg fun b => match b with
    | .failed .. => true
    | _ => false
  match m with
  | some m => match m.body with
    | .failed term pos link =>
      if !e.hth.inHeath || decide (term.toNat < e.hth.term.toNat) || e.zw.seen.contains (zFloodKey m) then e
      else
        let e := e.refloodMsg m
        let e := match link with
          | some (q, k) => e.cutLink q.toNat k.toNat
          | none => e
        match pos with
        | some p =>
          if e.hth.isFailed p.toNat then e
          else
            let lost := p.toNat == e.hth.lead && e.hth.st == .member && p.toNat != e.hth.pos
            let e := e.declare p.toNat
            if lost then e.takeover p.toNat
            else if e.hth.st = .lead then ((e.barrierFail.reroute).checkQuorum).plan
            else e.reroute.checkQuorum
        | none => e.reroute
    | _ => e
  | none => e

/-- FAILED, as the row gives it. -/
def execFailed (s : State) : Host.Outcome State Fault Refusal := .next (s.live Eng.failedMsg)

/-- FAILED_REPEAT (R303): every 1 ms the lead repeats its announcements. -/
def Eng.failedRepeat (e : Eng) : Eng :=
  if e.hth.st ≠ .lead ∨ e.hth.time.toNat < e.hth.saidAt.toNat + 1000000 then e
  else e.hth.said.foldl (fun e s => e.flood (.failed e.hth.term s.1 s.2)) (e.onHth fun h => { h with saidAt := h.time })

/-- FAILED_REPEAT, as the row gives it. -/
def execFailedRepeat (s : State) : Host.Outcome State Fault Refusal := .next (s.live Eng.failedRepeat)

/-- LINK_DOWN (R304): the lead declares the higher position of a mesh pair, or the link of a torus; a flooded one travels
on. -/
def Eng.linkDownMsg (e : Eng) : Eng :=
  let (e, m) := e.takeMsg fun b => match b with
    | .linkDown .. => true
    | _ => false
  match m with
  | some m => match m.body with
    | .linkDown port far =>
      if m.hop && e.zw.seen.contains (zFloodKey m) then e
      else
        let e := if m.hop then e.refloodMsg m else e
        if e.hth.st ≠ .lead then e
        else if e.hth.shape = 1 then e.leadDeclare [max m.src.toNat far.toNat]
        else
          ((e.announce none (some (m.src, port))).cutLink m.src.toNat port.toNat).leadDeclare []
    | _ => e
  | none => e

/-- LINK_DOWN, as the row gives it. -/
def execLinkDown (s : State) : Host.Outcome State Fault Refusal := .next (s.live Eng.linkDownMsg)

/-! ### The time base (R307) -/

/-- TIME_BASE_SEND (R307): every 100 µs. -/
def Eng.timeBaseSend (e : Eng) : Eng :=
  if e.hth.st ≠ .lead ∨ e.hth.time.toNat < e.hth.baseAt.toNat + 100000 then e
  else
    let e := e.onHth fun h => { h with baseAt := h.time }
    (e.hth.liveList.filter (· != e.hth.pos)).foldl (fun e p => e.send p (.timeBase e.hth.time (BitVec.ofNat 8 e.hth.pos))) e

/-- TIME_BASE_SEND, as the row gives it. -/
def execTimeBaseSend (s : State) : Host.Outcome State Fault Refusal := .next (s.live Eng.timeBaseSend)

/-- The correction toward the lead's time (R307): one step forward when it is allowed, else a slew. -/
def Hth.correct (h : Hth) (lead : Nat) : Hth :=
  let h' := { h with mayStep := false }
  if h.mayStep ∧ h.time.toNat < lead then { h' with time := BitVec.ofNat 64 lead, slew := 0 }
  else { h' with slew := (lead : Int) - h.time.toNat }

/-- TIME_BASE (R307): `delay` is the path delay measured for the route at bring-up, in ns. -/
def Eng.timeBaseMsg (e : Eng) (delay : Nat) : Eng :=
  let (e, m) := e.takeMsg fun b => match b with
    | .timeBase .. => true
    | _ => false
  match m with
  | some m => match m.body with
    | .timeBase t lead =>
      if e.hth.st ≠ .member ∨ lead.toNat ≠ e.hth.lead then e else e.onHth fun h => h.correct (t.toNat + delay)
    | _ => e
  | none => e

/-- TIME_BASE, as the row gives it. -/
def execTimeBase (delay : Nat) (s : State) : Host.Outcome State Fault Refusal := .next (s.live fun e => e.timeBaseMsg delay)

/-- One cycle of the 100 MHz reference (R307): 10 ns, and a slew of at most 1 ns in a microsecond, never backward. -/
def Hth.tick (h : Hth) : Hth :=
  if h.slew ≠ 0 ∧ h.slewAt.toNat + 1000 ≤ h.time.toNat then
    if 0 < h.slew then { h with time := h.time + 11, slew := h.slew - 1, slewAt := h.time }
    else { h with time := h.time + 9, slew := h.slew + 1, slewAt := h.time }
  else { h with time := h.time + 10 }

/-! ### Re-homing: the messages (R312, R313, R315) -/

/-- A write of rehome = 1 (R313): the lead plans again. -/
def Eng.rehome (e : Eng) : Eng := if e.hth.isLead then e.plan else e

/-- COMMIT (R312): the map in LE_HTH_MAPBUF is staged and committed; an isolated engine commits no map (R301). -/
def Eng.commitMsg (e : Eng) : Eng :=
  let (e, m) := e.takeMsg fun b => match b with
    | .commit .. => true
    | _ => false
  match m with
  | none => e
  | some m =>
    if m.src.toNat ≠ (if e.hth.isLead then e.hth.pos else e.hth.lead) ∨ e.hth.st = .isolated ∨
        (e.hth.st = .alone ∧ e.hth.shape ≠ 0) then e
    else if e.map.pending then e.commitStart true
    else
      let e : Eng := { e with map := { e.map with stagedBase := e.hth.mapbuf } }
      e.commitStart true

/-- COMMIT, as the row gives it. -/
def execCommit (s : State) : Host.Outcome State Fault Refusal := .next (s.live Eng.commitMsg)

/-- Old placements whose version every live engine has reported done are free again (R312). -/
def Hth.freeOld (h : Hth) : Hth :=
  let past (v : W32) : Bool := h.liveList.all fun p => h.dones.any fun d => d.1 == p && (d.2 == v || follows d.2 v)
  { h with old := h.old.filter fun o => !past o.1 }

/-- COMMIT_RESULT (R312): after reason 6 COMMIT is due again; a commit that passed lets the LOAD orders go out; done frees old
placements. -/
def Eng.commitResultMsg (e : Eng) : Eng :=
  let (e, m) := e.takeMsg fun b => match b with
    | .commitResult .. => true
    | _ => false
  match m with
  | some m => match m.body with
    | .commitResult v reason done =>
      let p := m.src.toNat
      let e := if done then e else e.untrack fun t => t.msg.dst == m.src && (match t.msg.body with
        | .commit .. => true
        | _ => false)
      if !e.hth.isLead then e
      else
        let e := e.onHth fun h => { h with version := if reason = 0 ∧ (h.version = 0 ∨ follows v h.version) then v else h.version }
        let cv := e.hth.commit.1
        if done then e.onHth fun h => ({ h with dones := (p, v) :: h.dones.filter (·.1 != p) } : Hth).freeOld
        else if reason = 6 then e.onHth fun h => { h with again := if h.again.contains p then h.again else h.again ++ [p] }
        else if reason = 0 ∧ v = cv then e.sendLoads p
        else e
    | _ => e
  | none => e

/-- COMMIT_RESULT, as the row gives it. -/
def execCommitResult (s : State) : Host.Outcome State Fault Refusal := .next (s.live Eng.commitResultMsg)

/-- LOAD (R312): the survivor takes the order and begins to load its piece. -/
def Eng.loadMsg (e : Eng) : Eng :=
  let (e, m) := e.takeMsg fun b => match b with
    | .load _ => true
    | _ => false
  match m with
  | some m => match m.body, (match m.body with
      | .load o => e.map.ents[o.entry.toNat]?
      | _ => none) with
    | .load o, some x =>
      let n := o.piece.toNat
      match e.hth.loads.find? fun p => p.num == n && p.order == o with
      | some p => e.toLead (.loadStatus o.piece p.status p.bytes)
      | none =>
        let p : Piece := { num := n, pos := e.hth.pos, order := o, entry := x, status := 0, bytes := 0, sent := true,
                           noRoom := false }
        ((e.onHth fun h => { h with loads := (h.loads.filter (·.num != n)) ++ [p] }).loaderTake (some o.piece) e.tk.ldMaster).toLead
          (.loadStatus o.piece 0 0)
    | _, _ => e
  | none => e

/-- LOAD, as the row gives it. -/
def execLoad (s : State) : Host.Outcome State Fault Refusal := .next (s.live Eng.loadMsg)

/-- The piece number of a report on a held entry that no LOAD has named (DESIGN CHOICE, log entry 201). -/
def noPiece : Nat := 0xFFFF

/-- A new lead learns of a piece (R315): a survivor reports its pieces in map order, so the report stands for the first held
entry there that no piece of the plan covers. One that no LOAD has named is still to be ordered. -/
def Eng.learnPiece (e : Eng) (p num : Nat) (st : BitVec 2) (bytes : W64) : Eng :=
  match e.map.ents.zipIdx.find? fun (x, _) => x.hold && x.base != 0 && x.home == p && !e.hth.plan.any fun y => y.covers x with
  | none => e
  | some (x, i) =>
    let o : LoadOrder := { piece := BitVec.ofNat 16 num, entry := BitVec.ofNat 32 i, src := e.srcOf x,
                           len := BitVec.ofNat 64 x.span, target := x.base }
    let y : Piece := { num := num, pos := p, order := o, entry := x, status := st, bytes := bytes, sent := num != noPiece,
                       noRoom := false }
    e.onHth fun h => { h with plan := h.plan ++ [y] }

/-- LOAD_STATUS (R312, R315). -/
def Eng.loadStatusMsg (e : Eng) : Eng :=
  let (e, m) := e.takeMsg fun b => match b with
    | .loadStatus .. => true
    | _ => false
  match m with
  | some m => match m.body with
    | .loadStatus n st bytes =>
      let p := m.src.toNat
      let e := e.untrack fun t => t.msg.dst == m.src && (match t.msg.body with
        | .load o => o.piece == n
        | .statusReq _ => true
        | _ => false)
      if !e.hth.isLead then e
      else
        let known := n.toNat != noPiece && e.hth.plan.any fun x => x.pos == p && x.num == n.toNat
        let e := if known || !e.hth.await.contains p then
            e.onHth fun h => { h with plan := h.plan.map fun x =>
              if x.pos == p && x.num == n.toNat then { x with status := st, bytes := bytes } else x }
          else e.learnPiece p n.toNat st bytes
        if e.hth.await.contains p then
          let e := e.onHth fun h => { h with await := h.await.erase p }
          if e.hth.await.isEmpty then e.plan else e
        else e
    | _ => e
  | none => e

/-- LOAD_STATUS, as the row gives it. -/
def execLoadStatus (s : State) : Host.Outcome State Fault Refusal := .next (s.live Eng.loadStatusMsg)

/-- STATUS_REQ (R315): every piece of this engine that its map still holds is reported, in map order. -/
def Eng.statusReqMsg (e : Eng) : Eng :=
  let (e, m) := e.takeMsg fun b => match b with
    | .statusReq _ => true
    | _ => false
  match m with
  | some m => match m.body with
    | .statusReq term =>
      if term.toNat < e.hth.term.toNat then e
      else
        let mine := e.map.ents.filter fun x => x.hold && x.home == e.hth.pos && x.base != 0
        mine.foldl (fun e x =>
          match e.hth.loads.find? fun p => p.order.target == x.base with
          | some p => e.sendTo m.src.toNat (.loadStatus (BitVec.ofNat 16 p.num) p.status p.bytes)
          | none => e.sendTo m.src.toNat (.loadStatus (BitVec.ofNat 16 noPiece) 0 0)) e
    | _ => e
  | none => e

/-- STATUS_REQ, as the row gives it. -/
def execStatusReq (s : State) : Host.Outcome State Fault Refusal := .next (s.live Eng.statusReqMsg)

/-- REHOME_RELEASE_COMMIT (R312): at most once in a millisecond, hold is cleared on every piece verified since the last
commit. -/
def Eng.releaseCommit (e : Eng) : Eng :=
  let h := e.hth
  let early := match h.relAt with
    | some t => decide (h.time.toNat < t.toNat + 1000000)
    | none => false
  let freed (x : Ent) : Bool := x.hold && h.plan.any fun p => p.status == 1 && p.covers x
  if !h.acts || early || h.writing || e.map.pending || !e.map.ents.any freed then e
  else
    let ents := e.map.ents.map fun x => if freed x then { x with hold := false } else x
    let e := e.onHth fun h => { h with relAt := some h.time }
    e.leadCommit e.map.index ents e.map.reps

/-- REHOME_RELEASE_COMMIT, as the row gives it. -/
def execRehomeReleaseCommit (s : State) : Host.Outcome State Fault Refusal := .next (s.live Eng.releaseCommit)

/-! ### Leaving, and registers (R318) -/

/-- A restart of the link block ends membership (R294, R318). -/
def Hth.leave (h : Hth) : Hth :=
  { h with st := .alone, claim := false, hellos := [], heard := 0, missed := [], said := [], plan := [], await := [],
           writing := false, slew := 0, mayStep := false, rejoined := 0, lostEnts := [], old := [], dones := [], again := [],
           results := [] }

/-- State code of LE_HTH_STATUS. -/
def HSt.code : HSt → Nat
  | .alone => 0 | .joining => 1 | .member => 2 | .lead => 3 | .isolated => 4

/-- A 32-bit read of a heath register. -/
def hthRd (h : Hth) (off : Nat) : Nat :=
  if 0x100 ≤ off ∧ off < 0x200 then
    let b := h.bars.get {} ((off - 0x100) / 0x10)
    match off % 0x10 with
    | 0x0 => b.cfg.toNat
    | 0x4 => b.cnt
    | 0x8 => b.gen.toNat
    | _ => 0
  else if 0x040 ≤ off ∧ off < 0x060 then fld h.live.toNat (8 * (off - 0x040)) 32
  else if 0x060 ≤ off ∧ off < 0x080 then fld h.failed.toNat (8 * (off - 0x060)) 32
  else
    match off with
    | 0x000 => h.cfg.toNat
    | 0x004 => h.id.toNat
    | 0x00C => h.st.code + 8 * b2n h.mismatch + 16 * b2n h.capacity + 32 * b2n h.cfgBusy + h.lead * 2 ^ 8 +
        h.liveList.length * 2 ^ 16
    | 0x010 => h.serial.toNat
    | 0x018 => h.time.toNat
    | 0x020 => h.poolBase.toNat
    | 0x028 => h.poolSize.toNat
    | 0x02C => h.term.toNat
    | 0x030 => h.mapbuf.toNat
    | 0x038 => (h.loads.filter fun p => p.status != 1).length + 2 ^ 16 * b2n (h.loads.any fun p => p.status == 0)
    | _ => 0

/-- A write of a heath register. -/
def Eng.hthWr (e : Eng) (fwBad : Bool) (off v : Nat) : Eng :=
  if 0x100 ≤ off ∧ off < 0x200 then
    let i := (off - 0x100) / 0x10
    let b := e.hth.bars.get {} i
    let set (b : Barrier) : Eng := e.onHth fun h => { h with bars := h.bars.set {} i b }
    match off % 0x10 with
    | 0x0 => set { b with cfg := BitVec.ofNat 32 (v &&& 0x9FFF1FFF) }
    | 0x4 => set { b with cnt := atLeast1 (fld v 0 9) }
    | _ => e
  else
    match off with
    | 0x000 =>
      if e.hth.st = .alone then e.onHth fun h => { h with cfg := BitVec.ofNat 23 v }
      else e.onHth fun h => { h with cfgBusy := true }
    | 0x004 =>
      if e.hth.st = .alone then e.onHth fun h => { h with id := BitVec.ofNat 16 v }
      else e.onHth fun h => { h with cfgBusy := true }
    | 0x008 =>
      let e := if bit v 0 then e.join fwBad else e
      if bit v 1 then e.rehome else e
    | 0x00C => e.onHth fun h => { h with mismatch := h.mismatch && !bit v 3, capacity := h.capacity && !bit v 4,
                                         cfgBusy := h.cfgBusy && !bit v 5 }
    | 0x020 => e.onHth fun h => { h with poolBase := BitVec.ofNat 64 (v / 2 ^ 30 * 2 ^ 30) }
    | 0x028 => e.onHth fun h => { h with poolSize := BitVec.ofNat 10 v }
    | 0x030 => e.onHth fun h => { h with mapbuf := BitVec.ofNat 64 (v / 64 * 64) }
    | _ => e

end Sys2Proof.Machine
end

