-- ==== Sys2Proof/Machine/Taking.lean ====
section
/-! DEFINITION. The take unit (R319 to R340): cuts, the take stream, files and the areas they are written to, prints, DIGEST,
the loader and the verification by replay; the take unit's registers. -/

namespace Sys2Proof.Machine

open Sys2Proof

/-- Changes the take unit. -/
def Eng.onTk (e : Eng) (f : Tk → Tk) : Eng := { e with tk := f e.tk }
/-- Sets bits of LE_TK_STATUS. -/
def Eng.tkStatus (e : Eng) (bits : BitVec 11) : Eng := e.onTk fun k => { k with status := k.status ||| bits }
/-- The unit is enabled. -/
def Tk.enabled (k : Tk) : Bool := k.ctl.getLsbD 0
/-- Bytes of a block. -/
def blk : Nat := 4096
/-- Blocks that hold `n` bytes. -/
def blocksOf (n : Nat) : Nat := (n + 4095) / 4096

/-! ### Areas (R324) -/

/-- The main or the mirror area. -/
def Tk.area (k : Tk) (mir : Bool) : Area := if mir then k.mir else k.main
/-- Changes an area. -/
def Tk.onArea (k : Tk) (mir : Bool) (f : Area → Area) : Tk :=
  if mir then { k with mir := f k.mir } else { k with main := f k.main }
/-- Block `i` of an area may be written: the one after it does not reach FREE. -/
def Area.room (a : Area) (i : Nat) : Bool := decide (i + 1 < a.freed + a.blocks.toNat)
/-- The area is full (R324), or counts as full because its last write was denied (R352). -/
def Area.full (a : Area) : Bool := a.denied || !a.room a.wr
/-- An area in use is full: the main area, and the mirror area where it has blocks (R324). -/
def Tk.full (k : Tk) (mir : Bool) : Bool := k.enabled && (k.area mir).blocks != 0 && (k.area mir).full
/-- Address of block `i`. -/
def Area.addr (a : Area) (i : Nat) : Nat := a.base.toNat + blk * (i % a.blocks.toNat)
/-- A write of FREE: the area is freed on to that offset. -/
def Area.release (a : Area) (v : W32) : Area :=
  let n := a.blocks.toNat
  { a with free := v, freed := if n = 0 then a.freed else a.freed + (v.toNat + n - a.freed % n) % n }
/-- A write of the area's size: WR stays where it is, and what lies between FREE and WR counts as in use. -/
def Area.resize (a : Area) (v : W32) : Area :=
  let n := v.toNat
  let off := if a.blocks = 0 then 0 else a.wr % a.blocks.toNat
  if n = 0 then { a with blocks := v, wr := off, freed := off }
  else
    let w := n + off % n
    { a with blocks := v, wr := w, freed := w - (off % n + n - a.free.toNat % n) % n }

/-- Writes a block under the housekeeping master (R324, R347), as the work of a TAKE_NOW where one asked for the file: whether it was
granted; a denial makes the area count as full (R352). The trailer is acknowledged by its own event (FILE_CLOSE). -/
def Eng.takeBlock (e : Eng) (mir : Bool) (i : Nat) (own : Owner) (cmd : Option (Fin 64 × W24)) (bs : List Byte) : Eng × Bool :=
  let host := e.tk.ctl.getLsbD (if mir then 4 else 3)
  let a := (e.tk.area mir).addr i
  match e.checkMem host true 63 false true a blk with
  | (e, false) => (e.onTk fun k => k.onArea mir fun a => { a with denied := true }, false)
  | (e, true) => (e.write { m := 63, cmd := cmd, own := own } host a bs, true)

/-! ### The blocks of a file (R325, R326) -/

/-- The header block of a file's main or mirror copy. -/
def Eng.header (e : Eng) (f : File) (mir : Bool) : List Byte :=
  padTo blk (leBytes 4 0x4C544B31 ++ leBytes 1 (b2n f.print) ++ leBytes 1 (b2n f.aligned + 2 * b2n f.closes + 4 * b2n mir) ++
    leBytes 2 e.hth.pos ++ leBytes 8 f.seq.toNat ++ leBytes 8 f.dataPos.toNat ++ leBytes 8 f.time.toNat ++
    leBytes 8 e.hth.serial.toNat ++ leBytes 4 f.mapVer.toNat ++ leBytes 4 e.hth.id.toNat ++ leBytes 8 f.nBody ++
    leBytes 8 f.printSeq.toNat ++ leBytes 8 f.prev.toNat)

/-- Blocks from the header through the schedule section. -/
def File.nData (f : File) : Nat := 1 + f.nBody + 29
/-- Blocks of a CRC table over `n` blocks. -/
def crcBlocks (n : Nat) : Nat := blocksOf (4 * n)
/-- Blocks of a trailer with `m` shard entries. -/
def trailerBlocks (m : Nat) : Nat := 1 + (m - 61 + 62) / 63
/-- Shard entries of a print. -/
def File.shards (f : File) : Nat := f.copy.length + f.sects.length
/-- All blocks of a file. -/
def File.total (f : File) : Nat := f.nData + crcBlocks f.nData + trailerBlocks f.shards

/-- The data blocks of a copy: the mirror's header differs. -/
def Eng.dataBlocks (e : Eng) (f : File) (mir : Bool) : List (List Byte) :=
  if mir then e.header f true :: f.blocks.drop 1 else f.blocks

/-- The CRC table of a copy whose data blocks are complete (R326). -/
def crcTable (bs : List (List Byte)) : List Byte := padTo blk (bs.flatMap fun b => leBytes 4 (crc32c b))

/-- A shard table entry (R326). -/
def Section.entry (s : Section) : List Byte :=
  leBytes 2 s.ent.table ++ leBytes 2 s.ent.elemFirst ++ leBytes 2 s.ent.elemCount ++ leBytes 2 0 ++
    leBytes 8 s.ent.firstRow ++ leBytes 8 s.ent.rowCount ++ leBytes 8 s.block ++ leBytes 32 s.sha.toNat

/-- A trailer block from its bytes 0 to 4,091. -/
def sealBlock (bs : List Byte) : List Byte :=
  let b := (bs ++ List.replicate 4092 0).take 4092
  b ++ leBytes 4 (crc32c b)

/-- Later blocks of a trailer: 63 shard entries each. -/
def moreTrailer : Nat → List (List Byte) → List (List Byte)
  | 0, _ => []
  | n + 1, xs => sealBlock (xs.take 63).flatten :: moreTrailer n (xs.drop 63)

/-- The trailer of a copy (R326). -/
def Eng.trailer (e : Eng) (f : File) (mir : Bool) : List (List Byte) :=
  let data := e.dataBlocks f mir
  let crc := crcTable data
  let sched := data.drop (1 + f.nBody)
  let sha := sha256 (if f.print then sched.flatten else (data.drop 1).flatten)
  let xs := f.sects.map Section.entry
  sealBlock (leBytes 8 f.seq.toNat ++ leBytes 8 f.total ++ leBytes 8 (crcBlocks f.nData) ++
      leBytes 8 (if f.print then f.sects.length else 0) ++ sha256 crc ++ sha ++ List.replicate 32 0 ++ (xs.take 61).flatten) ::
    moreTrailer (trailerBlocks xs.length - 1) (xs.drop 61)

/-- Block `i` of a copy up to its CRC table, once it is known. -/
def Eng.fileBlock (e : Eng) (f : File) (mir : Bool) (i : Nat) : Option (List Byte) :=
  let data := e.dataBlocks f mir
  if i < f.nData then data[i]?
  else if data.length < f.nData then none
  else some (((crcTable data).drop (blk * (i - f.nData))).take blk)

/-- Writes what may be written of a cut file to one area, block by block: a known block, with room, in file order; body blocks
written while it was open are skipped. -/
def Eng.pushFile : Nat → Eng → Bool → File → Eng × File
  | 0, e, _, f => (e, f)
  | n + 1, e, mir, f =>
    match (if mir then f.mstart else some f.start) with
    | none => (e, f)
    | some start =>
      let i := if mir then f.mput else f.put
      if (e.tk.area mir).denied || !(e.tk.area mir).room (start + i) then (e, f)
      else match (if i < f.nData + crcBlocks f.nData then e.fileBlock f mir i else none) with
        | none => (e, f)
        | some bs =>
          let next := if i = 0 then 1 + (if mir then f.mskip else f.skip) else i + 1
          match e.takeBlock mir (start + i) .takeFile f.cmd bs with
          | (e, true) => e.pushFile n mir (if mir then { f with mput := next } else { f with put := next })
          | (e, false) => (e, f)

/-- Writes what may be written of a cut file to its areas. -/
def Eng.push (e : Eng) (f : File) : Eng × File :=
  let n := f.total
  let (e, f) := e.pushFile n false f
  e.pushFile n true f

/-- Writes the full body blocks of the open file while its areas have room (R323, R324). -/
def Eng.stream : Nat → Eng → Eng
  | 0, e => e
  | n + 1, e =>
    match e.tk.opened with
    | none => e
    | some f =>
      let bs := (f.body.drop (blk * f.put)).take blk
      let mir := f.mstart.isSome
      if bs.length < blk || e.tk.main.full || (mir && e.tk.mir.full) then e
      else
        let (e, ok) := e.takeBlock false e.tk.main.wr .takeFile none bs
        let (e, ok2) := if mir then e.takeBlock true e.tk.mir.wr .takeFile none bs else (e, true)
        let adv (a : Area) : Area := { a with wr := a.wr + 1 }
        if !ok || !ok2 then e
        else
          let e := e.onTk fun k => (if mir then (k.onArea false adv).onArea true adv else k.onArea false adv)
          (e.onTk fun k => { k with opened := some { f with put := f.put + 1 } }).stream n

/-- Everything the take unit can write now is written; an area whose last write was denied is tried again. -/
def Eng.takeFlow (e : Eng) : Eng :=
  let again (a : Area) : Area := { a with denied := false }
  let e := e.onTk fun k => (k.onArea false again).onArea true again
  let (e, c) := match e.tk.closing with
    | some f => let (e, f) := e.push f; (e, some f)
    | none => (e, none)
  let (e, p) := match e.tk.printing with
    | some f => let (e, f) := e.push f; (e, some f)
    | none => (e, none)
  let e := e.onTk fun k => { k with closing := c, printing := p }
  match e.tk.opened with
  | some f => e.stream (f.body.length / blk + 1)
  | none => e

/-- A new open file takes its header block in the areas it streams to. -/
def Tk.openFile (k : Tk) : Tk :=
  let mir := k.ctl.getLsbD 2 && k.mir.blocks != 0
  let f : File := { start := k.main.wr, mstart := if mir then some k.mir.wr else none }
  let adv (a : Area) : Area := { a with wr := a.wr + 1 }
  let k := k.onArea false adv
  { (if mir then k.onArea true adv else k) with opened := some f, told := none }

/-- Appends records to the open file. -/
def Eng.record (e : Eng) (bs : List Byte) : Eng :=
  match e.tk.opened with
  | none => e
  | some f =>
    let e := e.onTk fun k => { k with opened := some { f with body := f.body ++ bs } }
    e.stream ((f.body.length + bs.length) / blk + 1)

/-! ### Records (R323) -/

/-- A row record. -/
def TapRec.bytes (t : TapRec) : List Byte :=
  leBytes 8 (t.row + t.table * 2 ^ 41 + 2 ^ 53) ++ leBytes 8 (t.first + t.cnt * 2 ^ 16 + t.data.length * 2 ^ 32) ++ padTo 16 t.data

/-- A note record. -/
def noteBytes (step a : W64) : List Byte := leBytes 8 (2 * 2 ^ 53) ++ leBytes 8 step.toNat ++ leBytes 8 a.toNat ++ leBytes 8 0

/-- The sward makes a row's home and local replica writes wait (R229, R237, R254). -/
def Eng.writesWait (e : Eng) (c : Claim) : Bool :=
  (c.writes ++ c.reps).any fun x => x.pos == e.hth.pos && x.tier != 3 && e.swdWaits x.addr x.data.length

/-- TAP_ACCEPT (R21, R219, R324): the tap takes a row's copies unless an area is full, and the row is then written home. -/
def Eng.tapAccept (e : Eng) (lane : Fin 16) : Eng :=
  match e.ted.lanes.get none lane with
  | none => e
  | some c =>
    if c.st ≠ .tap ∨ e.inReset 4 ∨ e.writesWait c then e
    else
      let e := if e.tk.main.denied || e.tk.mir.denied then e.takeFlow else e
      if e.tk.tap && (e.tk.full false || e.tk.full true) then e
      else
        let e := if e.tk.tap then e.record (c.taps.flatMap TapRec.bytes) else e
        e.writeHome lane c

/-- TAP_ACCEPT, as the row gives it. -/
def execTapAccept (lane : Fin 16) (s : State) : Host.Outcome State Fault Refusal := .next (s.live fun e => e.tapAccept lane)

/-- The tap becomes inactive: no lane waits on it any longer (R21, R323). -/
def Eng.tapOff (e : Eng) : Eng :=
  let e := e.onTk fun k => { k with tap := false }
  (List.finRange 16).foldl (fun e l => e.tapAccept l) e

/-! ### The schedule section (R325) -/

/-- A number per index, as `w` bytes each. -/
def tableBytes (n w : Nat) (f : Nat → Nat) : List Byte := (List.range n).flatMap fun i => leBytes w (f i)

/-- The schedule state as the section's 29 blocks. -/
def Eng.schedule (e : Eng) : List Byte :=
  let stream (s : Stream) : List Byte :=
    leBytes 16 s.k.toNat ++ leBytes 16 s.c.toNat ++ leBytes 16 s.c0.toNat ++ leBytes 8 s.d.toNat ++ leBytes 8 0
  tableBytes 64 16 (fun n =>
      let r := e.reel n
      r.wr.toNat + r.rd.toNat * 2 ^ 24 + r.done.toNat * 2 ^ 48 + b2n (bit r.cfg.toNat 0) * 2 ^ 72 + b2n r.halted * 2 ^ 73) ++
    tableBytes 16 16 (fun m =>
      let r := e.mreel m
      r.wr.toNat + r.rd.toNat * 2 ^ 24 + b2n r.enabled * 2 ^ 48) ++
    tableBytes 8 4 (fun d => (e.dir d).tcount.toNat) ++ tableBytes 16 4 (fun b => (e.hth.bars.get {} b).gen.toNat) ++
    List.replicate 0xAA0 0 ++ tableBytes 8192 8 (fun n => (e.clap n).toNat) ++
    ((List.range 256).flatMap fun s => stream (e.smp.streams.get {} s)) ++
    tableBytes 4096 8 (fun t => (e.tk.lastOpt.get 0 t).toNat)

/-! ### Cuts (R319 to R322) -/

/-- The interval in use, clamped (LE_TK_INTERVAL). -/
def Tk.span (k : Tk) : Nat :=
  if k.ctl.getLsbD 1 then max 10 (min 3600 k.interval.toNat) else max 1 k.interval.toNat

/-- The interval is due (R320), as of the last cut made: always while none has been made since the enable. -/
def Eng.due (e : Eng) : Bool :=
  match e.tk.lastCut with
  | none => true
  | some (s, t) =>
    if e.tk.ctl.getLsbD 1 then decide (e.tk.span * 1000000000 ≤ (e.hth.time - t).toNat)
    else decide (e.tk.span ≤ (e.tk.step - s).toNat)

/-- A cut is requested (R321): the OPTs accepted before it may run, later ones wait. -/
def Eng.cutRequest (e : Eng) (print : Bool) (byTake : Option Hdr) (note : W64) (cmd : Option (Fin 64 × W24)) : Eng :=
  let c : Cut := { print := print, byTake := byTake, note := note, pos := e.tk.step, cmd := cmd,
                   opts := e.ted.opts.map fun o => o.h.key, at_ := e.hth.time }
  e.onTk fun k => { k with cuts := k.cuts ++ [c] }

/-- In replay mode a TAKE compares its note (R339). -/
def Eng.replay (e : Eng) (h : Hdr) (a : W64) : Eng :=
  let e := e.onTk fun k => { k with ctl := k.ctl &&& 0x1F }
  if a = e.tk.replayExp then e.tkStatus 0x200
  else (e.tkStatus 0x400).post (e.mreelOf h.reel) 0xB 0 0x0B02 (e.tk.replayExp.toNat + a.toNat * 2 ^ 64)

/-- What a TAKE does once it has its ticket (R319, R320, R339). -/
def Eng.takeStep (e : Eng) (h : Hdr) (a : W64) (print cond : Bool) : Eng :=
  let e := e.onTk fun k => { k with step := k.step + 1 }
  if e.tk.ctl.getLsbD 5 then (e.replay h a).retire h.key 0 0
  else if !e.tk.enabled then e.retire h.key 0 0
  else if cond && !e.due then (e.record (noteBytes e.tk.step a)).retire h.key 0 0
  else e.cutRequest print (some h) a none

/-- The instruction TAKE. -/
def execTake (d : Fin 8) (w : IWord) (s : State) : Host.Outcome State Fault Refusal :=
  .next (s.live fun e => e.insn d (iuses w true true false false 3) [w.sa] fun x =>
    match e.takeTicket d w.dst with
    | (e, none) => e
    | (e, some k) =>
      (e.onDir d (·.step 8)).takeStep { x.hdr k 0 with prior := none } (x.get w.sa) (w.imm.getLsbD 0) (w.imm.getLsbD 1))

/-- TAKE_NOW (R320, R321): a cut at once, or "invalid operand" while the unit is disabled. `same` says that it arrived in the cycle
of the latest TAKE's cut request, which is then at the present time: it joins that cut, a print if either asks for one. -/
def Eng.takeNow (e : Eng) (n : Fin 64) (c : Cmd) (same : Bool) : Eng :=
  let print := le c.body 0 1 == 1
  if !e.tk.enabled then e.finishCmd n c.count 2 0 0
  else
    let e := e.runCmd n c
    match e.tk.cuts.getLast? with
    | some x =>
      if same && x.byTake.isSome && x.cmd.isNone && x.at_ == e.hth.time then
        let y : Cut := { x with print := x.print || print, cmd := some (n, c.count) }
        e.onTk fun k => { k with cuts := k.cuts.dropLast ++ [y] }
      else e.cutRequest print none 0 (some (n, c.count))
    | none => e.cutRequest print none 0 (some (n, c.count))

/-- TAKE_NOW, as the row gives it. -/
def execTakeNow (n : Fin 64) (same : Bool) (s : State) : Host.Outcome State Fault Refusal :=
  .next (s.live fun e => e.act n 7 fun e c => e.takeNow n c same)

/-- A print's sections: each starts a block (R327). -/
def sectionBlocks (h : HomeEnt) : Nat := blocksOf (h.ent.rowCount * h.bytes)

/-- The blocks already written of a file that a TAKE_NOW asks for count as its work (R82, R259, R321). -/
def Eng.claimBlocks (e : Eng) (f : File) : Eng :=
  let one (e : Eng) (mir : Bool) (start n : Nat) : Eng :=
    if e.tk.ctl.getLsbD (if mir then 4 else 3) then e
    else (List.range n).foldl (fun e i => e.onHc fun c => c.touch f.cmd ((e.tk.area mir).addr (start + 1 + i)) blk) e
  let e := one e false f.start f.skip
  match f.mstart with
  | some s => one e true s f.mskip
  | none => e

/-- The switch of a cut (R320, R321, R325, R329): the open file is cut, its header fields fixed and its blocks reserved, and a
new file opens. -/
def Eng.switch (e : Eng) (c : Cut) : Eng :=
  let e := if e.tk.opened.isNone then e.onTk Tk.openFile else e
  let e := if c.byTake.isSome then e.record (noteBytes c.pos c.note) else e
  match e.tk.opened with
  | none => e
  | some f =>
    let k := e.tk
    let seq := k.seq + 1
    let want := c.print || (k.printInt != 0 && seq.toNat % k.printInt.toNat == 0) || !k.cutMade || k.status.getLsbD 7
    let running := match k.printing with
      | some p => !p.copy.isEmpty
      | none => false
    let print := want && !running
    let ents := if print then (e.map.ents.zipIdx.filter fun x => x.1.home == e.hth.pos).map fun x => e.homeEnt x.2 x.1 else []
    let recs := blocksOf f.body.length
    let f : File := { f with
      seq := seq, print := print, aligned := c.byTake.isSome, closes := !print && k.copyEnd, dataPos := c.pos,
      time := e.hth.time, mapVer := e.map.activeVer, printSeq := if print then seq else k.printSeq, prev := k.seq,
      sched := e.schedule, copy := ents, nBody := recs + (ents.map sectionBlocks).sum, skip := f.put,
      mskip := if f.mstart.isSome then f.put else 0, put := 0, mput := 0, cmd := c.cmd }
    let mnew := print && f.mstart.isNone && k.mir.blocks != 0
    let f := if mnew then { f with mstart := some k.mir.wr } else f
    let body := chunksOf blk recs (padTo blk f.body)
    let tail := if print && !ents.isEmpty then [] else chunksOf blk 29 f.sched
    let f := { f with blocks := e.header f false :: body ++ tail }
    let grow (n : Nat) (a : Area) : Area := { a with wr := a.wr + n }
    let k := k.onArea false (grow (f.total - 1 - f.skip))
    let k := if mnew then k.onArea true (grow f.total)
      else if f.mstart.isSome then k.onArea true (grow (f.total - 1 - f.skip)) else k
    let st := if want && running then k.status ||| 0x040 else k.status
    let k := { k with seq := seq, status := if print then st &&& 0x77F else st, printSeq := f.printSeq, cutMade := true,
                      tap := true, copyEnd := print && ents.isEmpty, cuts := k.cuts.drop 1,
                      lastCut := some (c.pos, e.hth.time),
                      closing := if print && !ents.isEmpty then k.closing else some f,
                      printing := if print && !ents.isEmpty then some f else k.printing }
    let e : Eng := { e with tk := k.openFile }
    let e := (e.claimBlocks f).takeFlow
    match c.byTake with
    | some h => e.retire h.key 0 0
    | none => e

/-- TEDDER_DRAIN_END (R321, R322, R340): the OPTs accepted before the request have retired and no file is closing; a unit that was asked
to go idle switches no more. -/
def Eng.drainEnd (e : Eng) : Eng :=
  match e.tk.cuts with
  | [] => e
  | c :: _ =>
    let waits := e.busy 9 || e.tk.closing.isSome || (e.tk.printing.any fun p => p.copy.isEmpty)
    if waits || (e.ted.opts.any fun o => c.opts.contains o.h.key) then e else e.switch c

/-- TEDDER_DRAIN_END, as the row gives it. -/
def execTedderDrainEnd (s : State) : Host.Outcome State Fault Refusal := .next (s.live Eng.drainEnd)

/-! ### Completion (R325, R332) -/

/-- A complete take is secured (R332). -/
def Tk.isSecured (k : Tk) (d : Done) : Bool :=
  let p := d.printSeq.toNat
  let has (n : Nat) : Bool := k.dones.any fun x => x.seq.toNat == n
  !d.print && (k.dones.any fun x => x.print && x.seq == d.printSeq) && ((List.range (d.seq.toNat - p)).all fun i => has (p + 1 + i)) &&
    k.dones.any fun x => x.closes && decide (p < x.seq.toNat) && decide (x.seq.toNat ≤ d.seq.toNat)

/-- LE_TK_SECURED_SEQ follows the complete files, and files of prints older than the secured take's are forgotten. -/
def Tk.secure (k : Tk) : Tk :=
  let s := ((k.dones.filter k.isSecured).map fun d => d.seq.toNat).max?.getD 0
  let k := { k with secured := BitVec.ofNat 64 (max s k.secured.toNat) }
  match k.dones.find? fun d => d.seq == k.secured with
  | some d => { k with dones := k.dones.filter fun x => decide (d.printSeq.toNat ≤ x.seq.toNat) }
  | none => k

/-- FILE_CLOSE (R325): every earlier block is acknowledged, and the trailer is written and acknowledged; the file is complete. -/
def Eng.fileClose (e : Eng) : Eng :=
  let e := match e.tk.closing, e.tk.printing with
    | none, some p => if p.copy.isEmpty then e.onTk fun k => { k with closing := some p, printing := none } else e
    | _, _ => e
  match e.tk.closing with
  | none => e
  | some f =>
    let n := f.nData + crcBlocks f.nData
    let at_ (start : Nat) (mir : Bool) : Bool :=
      (List.range (trailerBlocks f.sects.length)).all fun i => (e.tk.area mir).room (start + n + i)
    let ready := f.put == n && at_ f.start false && (match f.mstart with
      | some s => f.mput == n && at_ s true
      | none => true)
    if !ready || e.mp.owed .takeFile != 0 then e.takeFlow
    else
      let put (x : Eng × Bool) (mir : Bool) (start : Nat) : Eng × Bool :=
        (e.trailer f mir).zipIdx.foldl (fun (x : Eng × Bool) y =>
          let (e, ok) := x.1.takeBlock mir (start + n + y.2) .engine f.cmd y.1
          (e, x.2 && ok)) x
      let x := put (e, true) false f.start
      let (e, ok) := match f.mstart with
        | some s => put x true s
        | none => x
      if !ok then e
      else
        let d : Done := { seq := f.seq, print := f.print, closes := f.closes, printSeq := f.printSeq }
        let e := e.onTk fun k => ({ k with closing := none, dones := k.dones ++ [d] } : Tk).secure
        let e := match f.cmd with
          | some (r, c) => e.finishCmd r c 0 0 0
          | none => e
        e.takeFlow

/-- FILE_CLOSE, as the row gives it. -/
def execFileClose (s : State) : Host.Outcome State Fault Refusal := .next (s.live Eng.fileClose)

/-- PRINT_COPY (R327, R328): the next section is copied while no lane claims a row of it, in the layout of the cut's map, and its
entry's copies are compared. Bytes that cannot be read are free. -/
def Eng.printCopy (e : Eng) (r : ReadRes) : Eng :=
  match e.tk.printing with
  | none => e
  | some f =>
    match f.copy with
    | [] => e
    | h :: rest =>
      let x := h.ent
      let b := h.bytes
      if e.claimedIn x then e
      else
        let host := x.tier == 3
        let (e, bytes) := (List.range x.rowCount).foldl (fun (st : Eng × List Byte) i =>
          let a := x.base.toNat + i * (4 * x.stride4)
          match st.1.checkMem host true 63 true false a b with
          | (e, false) => let (e, bs) := e.freeBytes b; (e, st.2 ++ bs)
          | (e, true) =>
            if (if host then r else e.answer a b r) ≠ .ok then
              let (e, bs) := (if host then e else e.answered a b).freeBytes b
              (e, st.2 ++ bs)
            else let (e, bs) := e.read host a b; (e, st.2 ++ bs)) (e, [])
        let s : Section := { ent := x, block := f.blocks.length, sha := shaNat bytes }
        let new := chunksOf blk (blocksOf bytes.length) (padTo blk bytes)
        let tail := if rest.isEmpty then chunksOf blk 29 f.sched else []
        let f := { f with copy := rest, sects := f.sects ++ [s], blocks := f.blocks ++ new ++ tail }
        let e := e.onTk fun k => { k with printing := some f, copyEnd := k.copyEnd || rest.isEmpty }
        (e.repStart h (r != ReadRes.ok) (f.cmd.map (·.1))).takeFlow

/-- PRINT_COPY, as the row gives it. -/
def execPrintCopy (r : ReadRes) (s : State) : Host.Outcome State Fault Refusal := .next (s.live fun e => e.printCopy r)

/-- AREA_FULL (R324): one message per file, of whichever of its areas fills first. -/
def Eng.areaFull (e : Eng) (mir : Bool) : Eng :=
  let seq := e.tk.seq + 1
  if !e.tk.full mir || e.tk.told == some seq then e
  else
    (e.onTk fun k => { k with told := some seq }).postEvt 0xB 0 0x0B00 (seq.toNat + b2n mir * 2 ^ 64)

/-- AREA_FULL, as the row gives it. -/
def execAreaFull (mir : Bool) (s : State) : Host.Outcome State Fault Refusal := .next (s.live fun e => e.areaFull mir)

/-! ### DIGEST (R330, R331) -/

/-- The instruction DIGEST. -/
def execDigest (d : Fin 8) (w : IWord) (ext : W64) (s : State) : Host.Outcome State Fault Refusal :=
  .next (s.live fun e => e.insn d (iuses w true true true false 1) [w.sa, w.sb] fun x =>
    let n := (x.get w.sb).toNat
    if 2 ^ 40 ≤ n ∨ ext.toNat % 32 ≠ 0 then e.progFault d 0x0B 0
    else match e.enqueue e.hsDigest d w.dst with
      | (e, none) => e
      | (e, some k) =>
        let j : DigJob := { h := { x.hdr k 0 with prior := none }, src := x.get w.sa, len := n, dst := ext, sha := w.imm.getLsbD 0 }
        (e.onTk fun t => { t with digs := t.digs ++ [j] }).onDir d (·.step 16))

/-- DIGEST_RETIRE: the range is read and the digest written; a denial or an error retires it with fault (R331). -/
def Eng.digestRetire (e : Eng) (k : Key) (rd wr : ReadRes) : Eng :=
  match e.tk.digs.find? (·.h.key == k) with
  | none => e
  | some j =>
    if e.busy 9 then e
    else
      let e := e.onTk fun t => { t with digs := t.digs.filter (·.h.key != k) }
      let a := j.src.toNat
      match e.check 4 j.h.master true false a j.len with
      | (e, false) => e.retire k 3 0
      | (e, true) =>
        let rd := if j.len = 0 then .ok else e.answer a j.len rd
        let e := e.answered a j.len
        if rd ≠ .ok then e.retire k 3 0b0100
        else
          let (e, bs) := e.read false a j.len
          let out := if j.sha then sha256 bs else leBytes 4 (crc32c bs) ++ List.replicate 28 0
          match e.check 4 j.h.master false true j.dst.toNat 32 with
          | (e, false) => e.retire k 3 0
          | (e, true) =>
            if e.answer j.dst.toNat 32 wr ≠ .ok then (e.answered j.dst.toNat 32).retire k 3 0b0100
            else
              let e := (e.putBytes false j.dst.toNat out).onHc fun c => c.touch (some (j.h.reel, j.h.count)) j.dst.toNat 32
              e.retire k 0 0

/-- DIGEST_RETIRE, as the row gives it. -/
def execDigestRetire (k : Key) (rd wr : ReadRes) (s : State) : Host.Outcome State Fault Refusal :=
  .next (s.live fun e => e.digestRetire k rd wr)

/-! ### Reading files back (R335, R336) -/

/-- A file whose header, CRC table and trailer hold (R336): the addresses of its copies (0 for no mirror), what its header and trailer say,
the CRCs of its blocks, and whether the mirror served any of them. -/
structure Frame where
  main  : Nat
  mir   : Nat
  seq   : Nat
  nBody : Nat
  print : Bool
  total : Nat
  prev  : Nat
  dataPos : Nat
  printSeq : Nat
  crcs  : List Nat
  shards : List (List Byte)
  sha   : List Byte
  used  : Bool

/-- How the loader reads (R335): its master, and how the host answers its reads of main and of mirror copies. -/
structure Rdr where
  m    : Fin 64
  main : ReadRes
  mir  : ReadRes

/-- Why the loader has no bytes: the access is denied (R352), or they fail (R336). -/
inductive FileErr where
  | denied | bad
  deriving DecidableEq, Repr

/-- A read of a file's bytes by the loader (R262, R335), checked under its master at HOST and counted as inbound bytes (R271). -/
def Eng.fileRd (e : Eng) (q : Rdr) (mir : Bool) (a n : Nat) : Eng × Except FileErr (List Byte) :=
  match e.check 5 q.m true false a n with
  | (e, false) => (e, .error .denied)
  | (e, true) =>
    if (if mir then q.mir else q.main) = .ok then (e.onHc (·.count 3 n), .ok (e.host.rdN a n)) else (e, .error .bad)

/-- `n` bytes at an offset of a file's mirror copy, at `b` (0 for none), that pass a test. -/
def Eng.second (e : Eng) (q : Rdr) (b off n : Nat) (ok : List Byte → Bool) : Eng × Except FileErr (List Byte × Bool) :=
  if b = 0 then (e, .error .bad)
  else match e.fileRd q true (b + off) n with
    | (e, .ok bs) => (e, if ok bs then .ok (bs, true) else .error .bad)
    | (e, .error x) => (e, .error x)

/-- `n` bytes at an offset of a file's main copy, at `a`, that pass a test, or else those of its mirror copy (R336), with whether the
mirror served. A denial ends the operation and is no failing block (R352). -/
def Eng.pick (e : Eng) (q : Rdr) (a b off n : Nat) (ok : Bool → List Byte → Bool) : Eng × Except FileErr (List Byte × Bool) :=
  match e.fileRd q false (a + off) n with
  | (e, .error .denied) => (e, .error .denied)
  | (e, .error .bad) => e.second q b off n (ok true)
  | (e, .ok bs) => if ok false bs then (e, .ok (bs, false)) else e.second q b off n (ok true)

/-- Blocks [i, i + n) of a file, each as `f` gives it: the bytes and whether the mirror served, or the block that fails. -/
def eachBlock (f : Eng → Nat → Eng × Except FileErr (List Byte × Bool)) : Nat → Eng → Nat → Eng × Except Nat (List Byte × Bool)
  | 0, e, _ => (e, .ok ([], false))
  | n + 1, e, i => match f e i with
    | (e, .error _) => (e, .error i)
    | (e, .ok (b, u)) => match eachBlock f n e (i + 1) with
      | (e, .ok (bs, v)) => (e, .ok (b ++ bs, u || v))
      | (e, .error j) => (e, .error j)

/-- A header block as the main or the mirror copy holds it (R325). -/
def headerAs (h : List Byte) (mir : Bool) : List Byte := splice h 5 (leBytes 1 (fld (le h 5 1) 0 2 + 4 * b2n mir))

/-- A copy's header block may be its own: magic number, heath ID and the mirror bit (R325, R336). -/
def headerOk (id : W16) (mir : Bool) (h : List Byte) : Bool :=
  le h 0 4 == 0x4C544B31 && le h 44 4 == id.toNat && bit (le h 5 1) 2 == mir

/-- A trailer block's own CRC holds (R326). -/
def sealOk (t : List Byte) : Bool := le t 4092 4 == crc32c (t.take 4092)

/-- The frame of a file by a header block that the main or the mirror copy gave (R336). The trailer's blocks are checked by their own
CRCs, the CRC table by the SHA-256 of the trailer that serves, and the header by the table's first entry; the two copies' tables differ
in that entry alone. -/
def Eng.frameWith (e : Eng) (q : Rdr) (a b : Nat) (h : List Byte) (hm : Bool) : Eng × Except FileErr Frame :=
  let n := 1 + le h 48 8 + 29
  let c := crcBlocks n
  let first (_ : Bool) (t : List Byte) : Bool :=
    sealOk t && le t 0 8 == le h 8 8 && le t 16 8 == c && le t 8 8 == n + c + trailerBlocks (le t 24 8)
  match e.pick q a b (blk * (n + c)) blk first with
  | (e, .error x) => (e, .error x)
  | (e, .ok (t, tm)) =>
    let own (bs : List Byte) : List Byte := leBytes 4 (crc32c (headerAs h tm)) ++ bs.drop 4
    let table (mir : Bool) (bs : List Byte) : Bool :=
      sha256 (own bs) == (t.drop 32).take 32 && (mir != tm || own bs == bs)
    match e.pick q a b (blk * n) (blk * c) table with
    | (e, .error x) => (e, .error x)
    | (e, .ok (crc, cm)) =>
      let k := le t 24 8
      match eachBlock (fun e i => e.pick q a b (blk * i) blk fun _ s => sealOk s) (trailerBlocks k - 1) e (n + c + 1) with
      | (e, .error _) => (e, .error .bad)
      | (e, .ok (more, mm)) =>
        let ents := chunksOf 64 (min k 61) (t.drop 128) ++
          ((chunksOf blk (trailerBlocks k - 1) more).flatMap fun s => chunksOf 64 63 s)
        (e, .ok { main := a, mir := b, seq := le h 8 8, nBody := le h 48 8, print := le h 4 1 == 1, total := le t 8 8,
                  prev := le h 64 8, dataPos := le h 16 8, printSeq := le h 56 8, crcs := (chunksOf 4 n crc).map leNat,
                  shards := ents.take k, sha := (t.drop 64).take 32, used := hm || tm || cm || mm })

/-- The frame of a file at its copies' addresses (0 for no mirror): by the main copy's header, or else by the mirror's. -/
def Eng.frameOf (e : Eng) (q : Rdr) (a b : Nat) : Eng × Except FileErr Frame :=
  let try' (e : Eng) (mir : Bool) (x : Except FileErr (List Byte)) : Eng × Except FileErr Frame := match x with
    | .ok h => if headerOk e.hth.id mir h then e.frameWith q a b h mir else (e, .error .bad)
    | .error r => (e, .error r)
  let (e, x) := e.fileRd q false a blk
  match try' e false x with
  | (e, .error .bad) =>
    if b = 0 then (e, .error .bad)
    else
      let (e, y) := e.fileRd q true b blk
      try' e true y
  | r => r

/-- Block `i` of a file, by its CRC, from the main copy or else from the mirror (R336). -/
def Frame.block (f : Frame) (q : Rdr) (e : Eng) (i : Nat) : Eng × Except FileErr (List Byte × Bool) :=
  e.pick q f.main f.mir (blk * i) blk fun _ s => f.crcs[i]? == some (crc32c s)

/-- Block `i` of a file's mirror copy. -/
def Frame.block2 (f : Frame) (q : Rdr) (e : Eng) (i : Nat) : Eng × Except FileErr (List Byte × Bool) :=
  e.second q f.mir (blk * i) blk fun s => f.crcs[i]? == some (crc32c s)

/-- Blocks whose bytes `g` picks must have a given SHA-256; the mirror's are read when the first reading fails it (R336). -/
def Frame.checked (f : Frame) (q : Rdr) (e : Eng) (i n : Nat) (g : List Byte → List Byte) (sha : List Byte) :
    Eng × Except Nat (List Byte × Bool) :=
  match eachBlock (f.block q) n e i with
  | (e, .error j) => (e, .error j)
  | (e, .ok (bs, u)) =>
    if sha256 (g bs) = sha then (e, .ok (bs, u || f.used))
    else match eachBlock (f.block2 q) n e i with
      | (e, .ok (bs, _)) => (e, if sha256 (g bs) = sha then .ok (bs, true) else .error i)
      | (e, .error j) => (e, .error j)

/-- A row record read back; `odd` says that its data start at a byte's second nibble. -/
structure RowRec where
  table : Nat
  row   : Nat
  first : Nat
  cnt   : Nat
  data  : List Byte
  odd   : Bool := false

/-- The row records of a take's body (R323); none where it holds a reserved kind. Zero bytes to the end are padding. -/
def parseRecs : Nat → List Byte → Option (List RowRec)
  | 0, _ => some []
  | k + 1, bs =>
    let head := le bs 0 8
    let kind := fld head 53 3
    if bs.all (· == 0) then some []
    else if kind = 2 then parseRecs k (bs.drop 32)
    else if kind = 1 then
      let rng := le bs 8 8
      let n := fld rng 32 32
      (parseRecs k (bs.drop (16 + (n + 15) / 16 * 16))).map fun rs =>
        { table := fld head 41 12, row := fld head 0 41, first := fld rng 0 12, cnt := fld rng 16 13,
          data := (bs.drop 16).take n, odd := fld rng 0 1 == 1 } :: rs
    else none

/-- The elements of a row record that an entry holds: their range within its sub-row and their bytes, the first byte's offset in the
sub-row, and whether an edge byte is read first (R408); `old` are the sub-row's bytes. -/
def RowRec.part (r : RowRec) (f : Fw) (x : Ent) (old : Nat → Byte) : Option (Nat × List Byte × Bool) :=
  let lo := max r.first x.elemFirst
  let hi := min (r.first + r.cnt) (x.elemFirst + x.elemCount)
  if hi ≤ lo then none
  else
    let a := lo - x.elemFirst
    if f.sk = 0 ∧ f.fmt.width = 4 then
      let k := b2n r.odd
      let cs := (((unpack f.fmt (r.cnt + k) r.data).drop (k + (lo - r.first))).take (hi - lo))
      some (f.byteOff a, pack f.fmt (edgeNibbles f.fmt x.elemCount a old cs), edgeRead f x.elemCount a (hi - lo))
    else
      let (so, n, _) := f.piece (lo - r.first) (hi - r.first)
      some (f.byteOff a, (r.data.drop so).take n, false)

/-- The copies of an entry that this engine holds: their bases and tiers. -/
def Eng.localCopies (e : Eng) (x : Ent) : List (Nat × Nat) :=
  (if x.home = e.hth.pos then [(x.base.toNat, x.tier)] else []) ++
    ((e.map.reps.drop x.repIdx).take x.nrep).filterMap fun y =>
      if y.position = e.hth.pos then some (y.base.toNat, y.tier) else none

/-- An entry of the active map belongs to those a load writes: every one, or the piece of a re-homing load (R312, R335). -/
def loadsEnt (only : Option Ent) (x : Ent) : Bool :=
  match only with
  | none => true
  | some y => x.table == y.table && x.firstRow == y.firstRow && x.elemFirst == y.elemFirst

/-- The local copies of a row that a load writes: the entry, its sub-row's address in the copy, and the copy's tier. -/
def Eng.loadCopies (e : Eng) (only : Option Ent) (r : RowRec) : List (Ent × Nat × Nat) :=
  ((e.map.rowEnts r.table r.row).filter fun y => loadsEnt only y.2).flatMap fun (_, x) =>
    (e.localCopies x).map fun c => (x, c.1 + (r.row - x.firstRow) * (4 * x.stride4), c.2)

/-- Writes a row to every copy of it that the active map places here (R335), through the sward as a tedder write-back; `only`
restricts the entries. Answers whether every write was granted. -/
def Eng.loadRow (e : Eng) (m : Fin 64) (only : Option Ent) (r : RowRec) : Eng × Bool :=
  let f := (e.map.tab r.table).fmt
  (e.loadCopies only r).foldl (fun (st : Eng × Bool) (x, row, tier) =>
    let host := tier == 3
    match r.part f x (fun i => (st.1.rdMem host false (row + i) 1).headD 0) with
    | none => st
    | some (o, bs, edge) =>
      match st.1.checkMem host false m edge true (row + o) bs.length with
      | (e, false) => (e, false)
      | (e, true) => (if host then { e with host := e.host.wrN (row + o) bs } else e.thruWr false (row + o) bs, st.2)) (e, true)

/-- A written row reads back as it was written (R336, verify = 1). -/
def Eng.readBack (e : Eng) (m : Fin 64) (only : Option Ent) (r : RowRec) : Eng × Bool :=
  let f := (e.map.tab r.table).fmt
  (e.loadCopies only r).foldl (fun (st : Eng × Bool) (x, row, tier) =>
    let host := tier == 3
    match r.part f x (fun i => (st.1.rdMem host false (row + i) 1).headD 0) with
    | none => st
    | some (o, bs, _) =>
      match st.1.checkMem host false m true false (row + o) bs.length with
      | (e, false) => (e, false)
      | (e, true) => (e, st.2 && e.rdMem host false (row + o) bs.length == bs)) (e, true)

/-- Why an operation failed: the file's sequence number and the block. -/
abbrev LoadFail := Nat × Nat

/-- The rows of a print's section (R326, R327), from its shard table entry and its bytes. -/
def Eng.sectionRows (e : Eng) (s bs : List Byte) : List RowRec :=
  let t := fld (le s 0 2) 0 12
  let b := (e.map.tab t).fmt.rowBytes (le s 4 2)
  (List.range (le s 16 8)).map fun i =>
    { table := t, row := le s 8 8 + i, first := le s 2 2, cnt := le s 4 2, data := (bs.drop (b * i)).take b }

/-- Does `f` for every record, and answers whether it was granted for each. -/
def Eng.eachRow (e : Eng) (rs : List RowRec) (f : Eng → RowRec → Eng × Bool) : Eng × Bool :=
  rs.foldl (fun (st : Eng × Bool) r => let (e, ok) := f st.1 r; (e, st.2 && ok)) (e, true)

/-- Loads a print (R335, R336): every block is checked against its CRC, every section and the schedule section against its SHA-256, and
with `verify` a section is read back once it is written; the bytes it reads back are those of that digest. Answers whether the mirror
served. -/
def Eng.loadPrint (e : Eng) (q : Rdr) (verify : Bool) (only : Option Ent) (f : Frame) : Eng × Except LoadFail Bool :=
  let one (st : Eng × Except LoadFail Bool) (s : List Byte) : Eng × Except LoadFail Bool :=
    match st with
    | (e, .error x) => (e, .error x)
    | (e, .ok used) =>
      let n := (e.map.tab (fld (le s 0 2) 0 12)).fmt.rowBytes (le s 4 2) * le s 16 8
      match f.checked q e (le s 24 8) (blocksOf n) (fun bs => bs.take n) ((s.drop 32).take 32) with
      | (e, .error j) => (e, .error (f.seq, j))
      | (e, .ok (bs, u)) =>
        let rs := e.sectionRows s bs
        let (e, ok) := e.eachRow rs fun e r => e.loadRow q.m only r
        let (e, same) := if verify then e.eachRow rs fun e r => e.readBack q.m only r else (e, true)
        (e, if ok && same then .ok (used || u) else .error (f.seq, le s 24 8))
  match f.shards.foldl one (e, .ok false) with
  | (e, .error x) => (e, .error x)
  | (e, .ok used) => match f.checked q e (1 + f.nBody) 29 id f.sha with
    | (e, .error j) => (e, .error (f.seq, j))
    | (e, .ok (_, u)) => (e, .ok (used || u))

/-- Applies a take's records (R335, R336). -/
def Eng.loadTake (e : Eng) (q : Rdr) (only : Option Ent) (f : Frame) : Eng × Except LoadFail Bool :=
  match f.checked q e 1 (f.nBody + 29) id f.sha with
  | (e, .error j) => (e, .error (f.seq, j))
  | (e, .ok (bs, u)) =>
    match parseRecs bs.length (bs.take (blk * f.nBody)) with
    | none => (e, .error (f.seq, 1))
    | some rs =>
      let (e, ok) := e.eachRow rs fun e r => e.loadRow q.m only r
      (e, if ok then .ok u else .error (f.seq, 1))

/-- The takes that a directory entry lists, from an address on, in the chain of sequence numbers. The walk ends at a file that fails or
breaks the chain, whose expected number it answers. -/
def takesAt (q : Rdr) : Nat → Eng → Nat → Nat → Nat → Eng × List Frame × Option Nat
  | 0, e, _, _, _ => (e, [], none)
  | n + 1, e, a, b, prev =>
    match e.frameOf q a b with
    | (e, .error _) => (e, [], some (prev + 1))
    | (e, .ok f) =>
      if f.seq ≠ prev + 1 ∨ f.prev ≠ prev ∨ f.print then (e, [], some (prev + 1))
      else
        let (e, r, w) := takesAt q n e (a + blk * f.total) (if b = 0 then 0 else b + blk * f.total) f.seq
        (e, f :: r, w)

/-- A directory entry (R335). -/
structure DirRow where
  base  : Nat
  print : Nat
  mir   : Nat
  takes : Nat
  tmir  : Nat
  n     : Nat

/-- The directory entry at an address of host memory: none where the read is denied or fails. -/
def Eng.dirRow (e : Eng) (m : Fin 64) (a : Nat) (r : ReadRes) : Eng × Option DirRow :=
  match e.fileRd { m := m, main := r, mir := r } false a 64 with
  | (e, .error _) => (e, none)
  | (e, .ok b) =>
    (e, some { base := le b 0 8, print := le b 8 8, mir := le b 16 8, takes := le b 24 8, tmir := le b 32 8, n := le b 40 4 })

/-- Op 1 (R335): a position's print, then its takes up to the base. -/
def Eng.loadAll (e : Eng) (q : Rdr) (verify : Bool) (only : Option Ent) (d : DirRow) : Eng × Except LoadFail Bool :=
  match e.frameOf q d.print d.mir with
  | (e, .error _) => (e, .error (d.base, 0))
  | (e, .ok f) =>
    if !f.print then (e, .error (f.seq, 0))
    else
      let (e, ts, broken) := takesAt q (min d.n (d.base - f.seq)) e d.takes d.tmir f.seq
      let x := ts.foldl (fun (st : Eng × Except LoadFail Bool) t =>
        match st with
        | (e, .error x) => (e, .error x)
        | (e, .ok u) => match e.loadTake q only t with
          | (e, .ok v) => (e, .ok (u || v))
          | (e, .error x) => (e, .error x)) (e.loadPrint q verify only f)
      match x.2, broken with
      | .ok _, some n => (x.1, .error (n, 0))
      | _, _ => x

/-- The listed file of a sequence number. -/
def Eng.findFile (e : Eng) (q : Rdr) (d : DirRow) (seq : Nat) : Eng × Option Frame :=
  match e.frameOf q d.print d.mir with
  | (e, .error _) => (e, none)
  | (e, .ok f) => if f.seq = seq then (e, some f)
    else
      let (e, ts, _) := takesAt q d.n e d.takes d.tmir f.seq
      (e, ts.find? fun x => x.seq == seq)

/-! ### The schedule state (R334, R337) -/

/-- A stream set under R334. -/
def Eng.setStream (e : Eng) (s : Nat) (bs : List Byte) (pos : Nat) : Eng :=
  let c0 := le bs 32 16
  let d := le bs 48 8
  let c : W128 := BitVec.ofNat 128 (c0 + pos * d)
  let old : W128 := BitVec.ofNat 128 (le bs 16 16)
  let st := e.smp.streams.get {} s
  let new : Stream := { st with k := BitVec.ofNat 128 (le bs 0 16), c := c, c0 := BitVec.ofNat 128 c0, d := BitVec.ofNat 64 d }
  let e : Eng := { e with smp := { e.smp with streams := e.smp.streams.set {} s new } }
  if old = c then e
  else (e.tkStatus 0x100).postEvt 0xB 0 0x0B03 (s + ((old - c).toNat % 2 ^ 64) * 2 ^ 64)

/-- Op 3 (R337): the schedule section `b` of file `f` is set. A disabled command reel stops being eligible (R76), and a disabled message
reel's held records are lost (R91). -/
def Eng.setSchedule (e : Eng) (f : Frame) (b : List Byte) : Eng :=
  let e := (List.range 64).foldl (fun e n =>
    let r := e.reel n
    let v : W24 := BitVec.ofNat 24 (fld (le b (16 * n) 16) 48 24)
    e.setReel n { r.unaged with cfg := r.cfg &&& 0xFFFFFFFE, wr := v, rd := v, done := v, slots := [] }) e
  let e := (List.range 16).foldl (fun e m =>
    let r := e.mreel m
    let v : W24 := BitVec.ofNat 24 (le b (0x400 + 16 * m) 3)
    e.setMreel m { r.dropHeld with cfg := r.cfg &&& 0xFFFFFFFE, wr := v, rd := v }) e
  let e := (List.range 8).foldl (fun e d => e.onDir d fun x =>
    { x with tcount := BitVec.ofNat 32 (le b (0x500 + 4 * d) 4), slots := [] }) e
  let bars := (List.range 16).foldl (fun (m : SMap Barrier) i =>
    m.set {} i { m.get {} i with gen := BitVec.ofNat 32 (le b (0x520 + 4 * i) 4) }) e.hth.bars
  let vals := (List.range 8192).foldl (fun (m : SMap W64) n => m.set 0 n (BitVec.ofNat 64 (le b (0x1000 + 8 * n) 8))) e.clp.vals
  let e : Eng := { e with hth := { e.hth with bars := bars }, clp := { e.clp with vals := vals } }
  let e := (List.range 256).foldl (fun e s => e.setStream s ((b.drop (0x11000 + 64 * s)).take 64) f.dataPos) e
  e.onTk fun k => { k with step := BitVec.ofNat 64 f.dataPos, seq := BitVec.ofNat 64 f.seq, secured := BitVec.ofNat 64 f.seq,
                           printSeq := BitVec.ofNat 64 f.printSeq, dones := [] }

/-! ### The loader (R335 to R337) -/

/-- A write of LE_TK_LOAD_CTL (R335, R337): an operation takes an inbound copy engine as a COPY does (R262). -/
def Eng.loadCtl (e : Eng) (v : Nat) : Eng :=
  let op := fld v 0 3
  let p := fld v 4 8
  let m : Fin 64 := ⟨fld v 12 6, by unfold fld; exact Nat.mod_lt _ (by decide)⟩
  let refuse := e.onTk fun k => { k with loadSt := k.loadSt ||| 0b01000 }
  if e.tk.load.isSome then refuse
  else
    let running := (List.range 8).any fun d => (e.dir d).st != .idle
    let bad := decide (4 ≤ op) || (op == 3 && (e.tk.enabled || running || p != e.hth.pos))
    if bad then refuse
    else if op = 0 then e
    else
      let o : Load := { op := op, pos := p, verify := bit v 3, master := m, work := e.fe.cause }
      (e.onTk fun k => { k with load := some o, ldMaster := m }).loaderTake none m

/-- The loader operation's own work: whether the mirror served, or where it failed. -/
def Eng.loadRun (e : Eng) (o : Load) (r main mir : ReadRes) : Eng × Except LoadFail Bool :=
  let q : Rdr := { m := o.master, main := main, mir := mir }
  let seq := e.tk.loadSeq.toNat
  match e.dirRow o.master (e.tk.dir.toNat + 64 * o.pos) r with
  | (e, none) => (e, .error (if o.op = 1 then 0 else seq, 0))
  | (e, some d) =>
    if o.op = 1 then e.loadAll q o.verify none d
    else match e.findFile q d seq with
      | (e, none) => (e, .error (seq, 0))
      | (e, some f) =>
        if o.op = 2 then (if f.print then (e, .error (seq, 0)) else e.loadTake q none f)
        else
          let (e, x) := if f.print then f.checked q e (1 + f.nBody) 29 id f.sha
            else
              let (e, y) := f.checked q e 1 (f.nBody + 29) id f.sha
              (e, y.map fun y => (y.1.drop (blk * f.nBody), y.2))
          match x with
          | .error j => (e, .error (seq, j))
          | .ok (bs, u) => (e.setSchedule f bs, .ok u)

/-- An operation or a re-homing load fails: failed is set, with one message giving the position, the file's sequence number and the
block (R336). -/
def Eng.loadFailed (e : Eng) (pos seq j : Nat) : Eng :=
  (e.onTk fun k => { k with loadSt := k.loadSt ||| 0b00100 }).postEvt 0xB 0 0x0B01 (pos + j % 2 ^ 48 * 2 ^ 16 + seq * 2 ^ 64)

/-- The end of the operation that software started (R335, R336): done, or failed with one message. -/
def Eng.loadEnd (e : Eng) (o : Load) (r main mir : ReadRes) : Eng :=
  let (e, x) := e.loadRun o r main mir
  let e := e.onTk fun k => { k with load := none }
  match x with
  | .ok u => e.onTk fun k => { k with loadSt := k.loadSt ||| 0b00010 ||| (if u then 0b10000 else 0) }
  | .error (seq, j) => e.loadFailed o.pos seq j

/-- A re-homing load (R312): op 1 restricted to the rows of its piece, from the directory entry that the order names. -/
def Eng.pieceLoad (e : Eng) (p : Piece) (r main mir : ReadRes) : Eng :=
  let q : Rdr := { m := e.tk.ldMaster, main := main, mir := mir }
  let y : Eng × Except LoadFail Bool := match e.dirRow q.m p.order.src.toNat r with
    | (e, none) => (e, .error (0, 0))
    | (e, some d) => e.loadAll q false (some p.entry) d
  let e := y.1
  let (e, st) : Eng × BitVec 2 := match y.2 with
    | .ok _ => (e, 1)
    | .error (seq, j) => (e.loadFailed (((p.order.src - e.tk.dir).toNat / 64) % 256) seq j, 2)
  let n : W64 := if st = 1 then p.order.len else 0
  let e := e.onHth fun h => { h with loads := h.loads.map fun (q : Piece) =>
    if q.num == p.num then { q with status := st, bytes := n } else q }
  e.toLead (.loadStatus (BitVec.ofNat 16 p.num) st n)

/-- LOADER_OPERATION_END (R335, R336): the operation of software, or with none the oldest re-homing load (R312), ends, once its copy
engine runs it; an operation that found every queue full takes its engine now. `r` answers the read of the directory entry, `main` and
`mir` the reads of main and of mirror copies. Its writes wait as every access through the sward does (R237, R254). -/
def Eng.loaderEnd (e : Eng) (r main mir : ReadRes) : Eng :=
  if e.busy 9 || e.swdWaits 0 0 then e
  else match e.tk.load with
    | some o =>
      if !e.loading none then e.loaderTake none o.master
      else e.behalf o.work fun e => (e.loadEnd o r main mir).loaderDone none
    | none =>
      match e.hth.loads.find? (·.status == 0) with
      | none => e
      | some p =>
        let n : BitVec 16 := BitVec.ofNat 16 p.num
        if !e.loading (some n) then e.loaderTake (some n) e.tk.ldMaster
        else (e.pieceLoad p r main mir).loaderDone (some n)

/-- LOADER_OPERATION_END, as the row gives it. -/
def execLoaderOperationEnd (r main mir : ReadRes) (s : State) : Host.Outcome State Fault Refusal :=
  .next (s.live fun e => e.loaderEnd r main mir)

/-! ### Restart and registers (R340) -/

/-- The unit is disabled or restarted: the open file is discarded, cuts that wait end without a cut, the tap is inactive. -/
def Eng.takeOff (e : Eng) (aborted : Bool) : Eng :=
  let cs := e.tk.cuts
  let e := (e.onTk fun k => { k with opened := none, cuts := [], lastCut := none, cutMade := false }).tapOff
  cs.foldl (fun e c =>
    let e := match c.byTake with
      | some h => e.retire h.key (if aborted then 4 else 0) 0
      | none => e
    match c.cmd with
    | some (r, n) => e.finishCmd r n (if aborted then 5 else 2) 0 0
    | none => e) e

/-- A restart of the take unit (R340). -/
def Eng.tkRestart (e : Eng) : Eng :=
  let cmds := (e.tk.closing.bind (·.cmd)).toList ++ (e.tk.printing.bind (·.cmd)).toList
  let digs := e.tk.digs
  let e := e.onTk fun k => { k with ctl := k.ctl &&& 0x3E }
  let e := (e.takeOff true).onTk fun k =>
    { k with closing := none, printing := none, copyEnd := false, digs := [], load := none,
             loadSt := if k.load.isSome then k.loadSt ||| 0b00100 else k.loadSt, status := k.status ||| 0x080 }
  let e := digs.foldl (fun e j => e.retire j.h.key 4 0) (e.loaderDone none)
  cmds.foldl (fun e c => e.finishCmd c.1 c.2 5 0 0) e

/-- A write of LE_TK_CTL (R323). -/
def Eng.tkCtl (e : Eng) (v : Nat) : Eng :=
  let new : BitVec 6 := BitVec.ofNat 6 v
  let k := e.tk
  if k.enabled then
    let e := if (new ^^^ k.ctl) &&& 0x1E ≠ 0 then e.tkStatus 0x010 else e
    let e := e.onTk fun k => { k with ctl := (k.ctl &&& 0x1E) ||| (new &&& 0x21) }
    if bit v 0 then e else e.takeOff false
  else if bit v 0 ∧ k.main.blocks = 0 then (e.onTk fun k => { k with ctl := new &&& 0x3E }).tkStatus 0x020
  else e.onTk fun k => { k with ctl := new, lastCut := none, cutMade := false }

/-- A 32-bit read of a take unit register. -/
def tkRd (k : Tk) (off : Nat) : Nat :=
  let wr (a : Area) : Nat := if a.blocks = 0 then a.wr else a.wr % a.blocks.toNat
  match off with
  | 0x000 => k.ctl.toNat
  | 0x004 => k.interval.toNat
  | 0x008 => k.printInt.toNat
  | 0x00C => b2n k.opened.isSome + 2 * b2n k.closing.isSome + 4 * b2n (k.printing.any fun p => !p.copy.isEmpty) +
      8 * b2n (k.full false || k.full true) +
      (k.status.toNat / 16) * 16
  | 0x010 => k.seq.toNat
  | 0x018 => k.secured.toNat
  | 0x020 => k.step.toNat
  | 0x028 => k.main.base.toNat
  | 0x030 => k.main.blocks.toNat
  | 0x034 => k.main.free.toNat
  | 0x038 => wr k.main
  | 0x040 => k.mir.base.toNat
  | 0x048 => k.mir.blocks.toNat
  | 0x04C => k.mir.free.toNat
  | 0x050 => wr k.mir
  | 0x058 => b2n k.load.isSome + (k.loadSt.toNat / 2) * 2
  | 0x060 => k.loadSeq.toNat
  | 0x068 => k.dir.toNat
  | 0x070 => k.replayExp.toNat
  | _ => 0

/-- A write of a take unit register. -/
def Eng.tkWr (e : Eng) (off v : Nat) : Eng :=
  let idle (f : Tk → Tk) : Eng := if e.tk.enabled then e.tkStatus 0x010 else e.onTk f
  match off with
  | 0x000 => e.tkCtl v
  | 0x004 => e.onTk fun k => { k with interval := BitVec.ofNat 16 v }
  | 0x008 => e.onTk fun k => { k with printInt := BitVec.ofNat 16 v }
  | 0x00C => e.onTk fun k => { k with status := k.status &&& ~~~(BitVec.ofNat 11 (v &&& 0x770)) }
  | 0x020 => idle fun k => { k with step := BitVec.ofNat 64 v }
  | 0x028 => idle fun k => k.onArea false fun a => { a with base := BitVec.ofNat 64 (v / 4096 * 4096) }
  | 0x030 => idle fun k => k.onArea false fun a => a.resize (BitVec.ofNat 32 v)
  | 0x034 => (e.onTk fun k => k.onArea false fun a => a.release (BitVec.ofNat 32 v)).takeFlow
  | 0x040 => idle fun k => k.onArea true fun a => { a with base := BitVec.ofNat 64 (v / 4096 * 4096) }
  | 0x048 => idle fun k => k.onArea true fun a => a.resize (BitVec.ofNat 32 v)
  | 0x04C => (e.onTk fun k => k.onArea true fun a => a.release (BitVec.ofNat 32 v)).takeFlow
  | 0x054 => e.loadCtl v
  | 0x058 => e.onTk fun k => { k with loadSt := k.loadSt &&& ~~~(BitVec.ofNat 5 (v &&& 0x1E)) }
  | 0x060 => e.onTk fun k => { k with loadSeq := BitVec.ofNat 64 v }
  | 0x068 => e.onTk fun k => { k with dir := BitVec.ofNat 64 (v / 64 * 64) }
  | 0x070 => e.onTk fun k => { k with replayExp := BitVec.ofNat 64 v }
  | _ => e

end Sys2Proof.Machine
end

