-- ==== Sys2Proof/Machine/Sampling.lean ====
section
/-! DEFINITION. The sampler (R355 to R358), the clapper banks' arbitration (R354), and the registers of both blocks. -/

namespace Sys2Proof.Machine

open Sys2Proof

/-! ### SAMPLE (R356, R357) -/

/-- Changes the sampler. -/
def Eng.onSmp (e : Eng) (f : Smp → Smp) : Eng := { e with smp := f e.smp }
/-- Stream `s`. -/
def Smp.stream (x : Smp) (s : Nat) : Stream := x.streams.get {} s
/-- Sets a stream. -/
def Smp.setStream (x : Smp) (s : Nat) (v : Stream) : Smp := { x with streams := x.streams.set {} s v }

/-- The mode accepts the role, and the bound lies within its range (R356). A value of sa is given only in mode 2. -/
def sampleFits (mode role : Nat) (sa : BitVec 5) (n : Nat) : Bool :=
  match mode with
  | 0 => role == 1 && sa == 0
  | 1 => role == 4 && sa == 0
  | _ => (role == 1 && decide (1 ≤ n) && decide (n ≤ 2 ^ 32)) || (role == 2 && decide (1 ≤ n) && decide (n ≤ 2 ^ 40))

/-- Blocks a SAMPLE of `rows` values consumes (R357). -/
def sampleBlocks (role rows : Nat) : Nat := ((if role = 2 then 2 * rows else rows) + 3) / 4

/-- The instruction SAMPLE (R356, R358): its blocks are reserved when it is accepted. -/
def Eng.sampleIssue (e : Eng) (d : Fin 8) (w : IWord) (ext : W64) : Eng :=
  let s := fld w.imm.toNat 0 8
  let mode := fld w.imm.toNat 8 2
  e.insn d (iuses w true true true true 0x3FF && ext == 0 && mode != 3) [w.sa, w.sb] fun x =>
    match x.refuses [] [⟨w.desc, false, [1, 2, 4]⟩] with
    | some (c, r) => e.progFault d c r
    | none =>
      let o := strOf (x.desc w.desc).w
      let n := (x.get w.sa).toNat
      if !sampleFits mode o.role w.sa n then e.progFault d 0x0B 0
      else match e.check 2 x.master false true s 1 with
        | (e, false) => e.progFault d 0x04 0
        | (e, true) => e.issue e.hsSample d w x fun e h =>
          let st := e.smp.stream s
          let j : SampleJob := { h := h, out := (x.desc w.desc).w, mode := mode, n := n, k := st.k, c := st.c }
          e.onSmp fun q => { (q.setStream s { st with c := st.c + BitVec.ofNat 128 (sampleBlocks o.role o.rows) }) with
            jobs := q.jobs ++ [j] }

/-- SAMPLE. -/
def execSample (d : Fin 8) (w : IWord) (ext : W64) (s : State) : Host.Outcome State Fault Refusal :=
  .next (s.live fun e => e.sampleIssue d w ext)

/-- Value `i` of a SAMPLE from its words (R357). -/
def sampleValue (mode role n : Nat) (words : List Nat) (i : Nat) : List Byte :=
  let w := words.getD i 0
  match mode with
  | 0 => leBytes 4 w
  | 1 => leBytes 4 (to32 (.fin false (mkRat (w / 256) (2 ^ 24)))).toNat
  | _ =>
    if role = 2 then leBytes 8 ((words.getD (2 * i) 0 + words.getD (2 * i + 1) 0 * 2 ^ 32) * n / 2 ^ 64)
    else leBytes 4 (w * n / 2 ^ 32)

/-- SAMPLE_RETIRE (R358): every value is written, or a denial or an error retires it with fault. -/
def Eng.sampleRetire (e : Eng) (k : Key) (wr : ReadRes) : Eng :=
  match e.smp.jobs.find? (·.h.key == k) with
  | none => e
  | some j =>
    let drop (e : Eng) : Eng := e.onSmp fun q => { q with jobs := q.jobs.filter (·.h.key != k) }
    match e.turn e.hsSample j.h with
    | .wait => e
    | .dead => (drop e).retire k 4 0
    | .go =>
      let e := drop e
      let o := strOf j.out
      match e.checkStr j.h o false true with
      | (e, false) => e.retire k 3 0
      | (e, true) =>
        if e.answer o.base o.span wr ≠ .ok then (e.answered o.base o.span).retire k 3 0b0100
        else
          let words := philoxWords j.k (sampleBlocks o.role o.rows) j.c
          let e := (List.range o.rows).foldl (fun e i => e.putBytes false (o.addr i) (sampleValue j.mode o.role j.n words i)) e
          (e.onHc fun q => q.touch (some (j.h.reel, j.h.count)) o.base o.span).retire k 0 0

/-- SAMPLE_RETIRE, as the row gives it. -/
def execSampleRetire (k : Key) (wr : ReadRes) (s : State) : Host.Outcome State Fault Refusal :=
  .next (s.live fun e => e.sampleRetire k wr)

/-! ### Registers of the sampler -/

/-- Word `i` of a 128-bit register. -/
def word128 (v : W128) (i : Nat) : Nat := fld v.toNat (32 * i) 32

/-- A 128-bit register with words 0 to 2 staged or kept and word 3 written (R358). -/
def commit128 (old : W128) (staged : SMap (Option W32)) (w3 : Nat) : W128 :=
  let w (i : Nat) : Nat := match staged.get none i with
    | some v => v.toNat
    | none => word128 old i
  BitVec.ofNat 128 (w 0 + w 1 * 2 ^ 32 + w 2 * 2 ^ 64 + w3 % 2 ^ 32 * 2 ^ 96)

/-- A 128-bit register with one word replaced. -/
def setWord128 (old : W128) (i v : Nat) : W128 :=
  BitVec.ofNat 128 (leNat (splice (leBytes 16 old.toNat) (4 * i) (leBytes 4 v)))

/-- A 32-bit read of a sampler register. -/
def smpRd (x : Smp) (off : Nat) : Nat :=
  if off = 0x4000 then b2n x.jobs.isEmpty
  else if 0x4000 < off then 0
  else
    let s := x.stream (off / 0x40)
    let o := off % 0x40
    if o < 0x10 then word128 s.k (o / 4)
    else if o < 0x20 then word128 s.c (o % 0x10 / 4)
    else if o < 0x30 then word128 s.c0 (o % 0x10 / 4)
    else if o = 0x30 then s.d.toNat
    else 0

/-- A write of a sampler register (R358); the pair LE_SMP_DPS takes 64 bits at its low offset. -/
def smpWr (x : Smp) (off v : Nat) : Smp :=
  if 0x4000 ≤ off then x
  else
    let n := off / 0x40
    let s := x.stream n
    let o := off % 0x40
    let w : W32 := BitVec.ofNat 32 v
    if o < 0x0C then x.setStream n { s with kst := s.kst.set none (o / 4) (some w) }
    else if o < 0x10 then x.setStream n { s with k := commit128 s.k s.kst v, kst := [] }
    else if o < 0x1C then x.setStream n { s with cst := s.cst.set none (o % 0x10 / 4) (some w) }
    else if o < 0x20 then x.setStream n { s with c := commit128 s.c s.cst v, cst := [] }
    else if o < 0x30 then x.setStream n { s with c0 := setWord128 s.c0 (o % 0x10 / 4) v }
    else if o = 0x30 then x.setStream n { s with d := BitVec.ofNat 64 v }
    else x

/-! ### Clapper banks (R343, R354) -/

/-- How many requesters stand before `r` when the pointer last served `last` (R354). -/
def turnOf (last r : Nat) : Nat := (r + 12 - (last + 1) % 12) % 12

/-- The operation a bank serves next: the first of the requester whose turn comes first. -/
def pickTurn (last : Nat) (q : List ClpReq) : Option ClpReq :=
  match (q.map fun r => turnOf last r.req).min? with
  | none => none
  | some t => q.find? fun r => turnOf last r.req == t

/-- CLAPPER_BANK_OPERATION (R342, R345, R354): the operations presented in this cycle join those that wait, and the bank serves
one. -/
def Eng.bankOperation (e : Eng) (bank : Fin 16) (pres : List ClpPres) : Eng :=
  let mine := pres.filter fun p => p.clapper.val % 16 == bank.val
  let e := mine.foldl (fun e p => e.clpQueue { req := p.req, master := p.master, clapper := p.clapper, kind := p.kind,
                                               val := p.val, dst := p.dst, peer := p.peer, cmd := p.cmd }) e
  let q := e.clp.queues.get [] bank.val
  match pickTurn (e.clp.last.get 11 bank.val) q with
  | none => e
  | some r => ({ e with clp := { e.clp with queues := e.clp.queues.set [] bank.val (q.erase r) } } : Eng).clpServe r

/-- Waiters in progress (LE_CLP_STATUS). -/
def Eng.waiters (e : Eng) : Nat :=
  ((List.range 8).filter fun d => match (e.dir d).wait with
    | .clapper .. => true
    | _ => false).length +
  ((List.range 64).map fun n => ((e.reel n).inflight.filter fun c => c.type == 6 && c.phase == .running).length).sum

/-- A commit of a clapper pair by a register write (R343): requester 9. With no low word written, the low word is the clapper's
when its bank serves the commit. -/
def Eng.clpCommit (e : Eng) (m : Fin 64) (n : Fin 8192) (kind : ClpKind) (v : W64) (keepLow : Bool) : Eng :=
  e.clpPresent { req := 9, master := m, clapper := n, kind := kind, val := v, dst := none, peer := none, cmd := none,
                 keepLow := keepLow, granted := true }

/-- A 32-bit read of a clapper register; a read of LE_CLP_DROPPED clears it (see `clpAfterRd`). -/
def Eng.clpRd (e : Eng) (off : Nat) : Nat :=
  if off < 0x10000 then (e.clap (off / 8)).toNat
  else if off = 0x20000 then b2n e.clp.peerDenied + 2 * b2n e.clp.dropped + 4 * e.waiters
  else if off = 0x20004 then e.clp.dropCnt.toNat
  else 0

/-- A write of a clapper register, a pair's 64 bits at its low offset; `keepLow`: no low word was written. -/
def Eng.clpWr (e : Eng) (m : Fin 64) (off v : Nat) (keepLow : Bool := false) : Eng :=
  let n : Fin 8192 := ⟨off % 0x10000 / 8, by omega⟩
  if off < 0x10000 then e.clpCommit m n .set (BitVec.ofNat 64 v) keepLow
  else if off < 0x20000 then e.clpCommit m n .add (BitVec.ofNat 64 v) false
  else if off = 0x20000 then
    { e with clp := { e.clp with peerDenied := e.clp.peerDenied && !bit v 0, dropped := e.clp.dropped && !bit v 1 } }
  else e

end Sys2Proof.Machine
end

