-- ==== Sys2Proof/Machine/Restarting.lean ====
section
/-! DEFINITION. Restarts of a block (R371, R372) with what each block's chapter says of its own (R92, R143, R254, R272, R294),
and errors of internal storage with the handler's automatic restarts (R389, R396). -/

namespace Sys2Proof.Machine

open Sys2Proof

/-! ### Work that ends before its time -/

/-- A SWEEP, TOPK, TED or OPT ends with a status and flags. A TED that fails spoils its set with cause 6 and retires as R208 says; an OPT
that fails finishes its rows and retires fault, so that every contribution is counted (R223, log 216). -/
def Eng.endScan (e : Eng) (k : Key) (st : Byte) (fl : BitVec 4) : Eng :=
  let e := match e.sweepOf k with
    | some j => if j.ended then e else e.sweepEnd { j with uncorr := j.uncorr || bit fl.toNat 2 } st
    | none => e
  let e := match e.topkOf k with
    | some t => e.topkEnd t st fl
    | none => e
  let e := match e.tedOf k with
    | some j =>
      let j := { j with flags := j.flags ||| fl }
      if st == 3 then
        let e := e.setTed { j with fault := true }
        if j.joined && !j.abort then e.spoil j.set 6 else e
      else e.tedEnd j st
    | none => e
  match e.optOf k with
  | some o => if st == 3 then e.setOpt { o with fault := true, flags := o.flags ||| fl } else e.optAbort o fl
  | none => e

/-- A PIN, QNT, SAMPLE, DIGEST, STAGE or TAKE ends with a status and flags. -/
def Eng.endOther (e : Eng) (k : Key) (st : Byte) (fl : BitVec 4) : Eng :=
  let mine (h : Hdr) : Bool := h.key == k
  let held := (e.swd.pins.any fun j => mine j.h) || (e.grd.qnts.any fun j => mine j.h) || (e.smp.jobs.any fun j => mine j.h) ||
    (e.tk.digs.any fun j => mine j.h) || (e.hc.ces.any fun q => q.2.any fun t => t.owner == .ticket k) ||
    e.hc.closing.contains k || (e.tk.cuts.any fun c => c.byTake.any mine)
  if !held then e
  else
    let cut (c : Cut) : Cut := if c.byTake.any mine then { c with byTake := none } else c
    let e := e.onSwd fun w => { w with pins := w.pins.filter fun j => !mine j.h }
    let e : Eng := { e with grd := { e.grd with qnts := e.grd.qnts.filter fun j => !mine j.h },
                            smp := { e.smp with jobs := e.smp.jobs.filter fun j => !mine j.h } }
    let e := e.onTk fun t => { t with digs := t.digs.filter (fun j => !mine j.h), cuts := t.cuts.map cut }
    let ces := (e.hc.ces.map fun q => (q.1, q.2.filter fun t => t.owner != .ticket k)).filter fun q => !q.2.isEmpty
    let e := e.onHc fun c => { c with ces := ces, closing := c.closing.filter (· != k) }
    e.retire k st fl

/-- The work of a ticket ends with a status and flags, wherever it runs. -/
def Eng.endTicket (e : Eng) (k : Key) (st : Byte) (fl : BitVec 4) : Eng :=
  let e : Eng := match e.glean k with
    | some g => if g.phase == GleanPhase.retired || g.phase == GleanPhase.stopped then e else e.gleanEnd g .retired st (g.flags ||| fl)
    | none => e
  let e := match e.gln.uniqs.find? (·.h.key == k) with
    | some _ => (e.onGln fun q => { q with uniqs := q.uniqs.filter (·.h.key != k) }).retire k st fl
    | none => e
  let e := match e.pool k with
    | some j => e.poolDone { j with flags := j.flags ||| fl } fun _ => st
    | none => e
  (e.endScan k st fl).endOther k st fl

/-! ### Restarts of the blocks without one of their own -/

/-- The directors stop issuing when block 0 is asked to restart (R372): each abandons its stops and drains, and its LAUNCH will
end aborted. -/
def Eng.stopDirectors (e : Eng) : Eng :=
  (List.finRange 8).foldl (fun e (d : Fin 8) =>
    let x := e.dir d
    if x.st = .idle then e
    else
      let cause := if x.cause = 0 ∧ ¬ x.stops.isEmpty then 0x0E else x.cause
      let e := e.setDir d { x with st := .draining, wait := .none, fetch := [], aborted := true, cause := cause }
      (e.abandonStops d).settle d) e

/-- A restart of the reel front end and the directors (R92, R372): dispatched commands end aborted, each with the flags and the detail of
its own work (R85), fetched ones are discarded
with RD left at the first of them, every director is idle, and no ticket survives. -/
def Eng.feRestart (e : Eng) : Eng :=
  let cmd (c : Cmd) : Cmd := match c.phase with
    | .done _ fl det => { c with phase := .done 5 fl det }
    | _ => { c with phase := .done 5 (e.endFlags c) (e.endDetail c) }
  let reel (r : Reel) : Reel := { r with slots := [], inflight := r.inflight.map cmd }
  let dir (x : Dir) : Dir :=
    { x with st := .idle, wait := .none, slots := [], stops := [], reserved := false, lds := [], fetch := [], icache := [] }
  let req (r : ClpReq) : ClpReq := { r with dst := none, cmd := none }
  { e with fe := { e.fe with reels := e.fe.reels.mapV {} reel },
           dirs := e.dirs.mapV {} dir,
           grd := { e.grd with qnts := [] },
           smp := { e.smp with jobs := [] },
           clp := { e.clp with queues := e.clp.queues.mapV [] fun q => q.map req } }

/-- A restart of the gleaners (R143, R145): every GLEAN and UNIQ retires aborted, their requests are discarded, and the serve requests in
progress are answered with a denial. -/
def Eng.glnRestart (e : Eng) : Eng :=
  let one (e : Eng) (g : Glean) : Eng :=
    match g.phase with
    | .retired => e
    | .stopped => e.setGlean { g with phase := .retired, elems := [], redo := [], dead := true }
    | _ => e.gleanEnd g .retired 4 g.flags
  let e := e.gln.gleans.foldl one e
  let us := e.gln.uniqs
  let e := us.foldl (fun e j => e.retire j.h.key 4 0) (e.onGln fun q => { q with uniqs := [] })
  let ms := e.gln.serve
  ms.foldl (fun e w => e.send w.2.src.toNat (.readRsp 0 true false [])) (e.onGln fun g => { g with serve := [] })

/-- A write of sectors that may have been cut off (R254): each is written or lost by a free choice. Answers the lost ones. -/
def Eng.someSectors (e : Eng) : List (Nat × List Byte) → Eng × List Nat
  | [] => (e, [])
  | (a, bs) :: rest =>
    let (e, b) := e.freeBit
    let (e, lost) := (if b then { e with dev := e.dev.wrN a bs } else e).someSectors rest
    (e, if b then lost else a :: lost)

/-- The sectors that the sward has not written: the eviction buffers' entries, oldest first, then dirty lines. -/
def Swd.unwritten (w : Swd) : List (Nat × List Byte) :=
  let two (k : Nat) (d0 d1 : Option (List Byte)) : List (Nat × List Byte) :=
    (d0.map fun b => (k * 128, b)).toList ++ (d1.map fun b => (k * 128 + 64, b)).toList
  let dirt (s : Sector) : Option (List Byte) := if s.valid && s.dirty then some s.data else none
  (w.evb.flatMap fun q => q.2.flatMap fun v => two v.line v.d0 v.d1) ++
    w.lines.flatMap fun p => match p.2 with
      | some l => two p.1 (dirt l.s0) (dirt l.s1)
      | none => []

/-- The sward's timeout (R254): the sectors not yet written are lost, and one message gives the first address and their
count. -/
def Eng.swdCutOff (e : Eng) : Eng :=
  let (e, lost) := e.someSectors e.swd.unwritten
  let e := e.onSwd Swd.empty
  match lost.min? with
  | some a => e.postEvt 7 (sliceOf (a / 128)) 0x0704 (a + lost.length * 2 ^ 64)
  | none => e

/-- After a restart of the sward (R254): disabled with inval_done 0 and no pin; remaps and retirements are kept, PINs retire
aborted, but for those issued during the restart, which waited for its end. -/
def Eng.swdRestart (e : Eng) : Eng :=
  let ps := e.swd.pins.filter fun j => !j.late
  let late := (e.swd.pins.filter (·.late)).map fun j => { j with late := false }
  let e := e.onSwd fun w =>
    { w.empty with enabled := false, pending := false, invalDone := false, disabling := false, maint := none, pins := late }
  ps.foldl (fun e j => e.retire j.h.key 4 0) e

/-- The requests that the memory ports have not answered: director loads, fetches and descriptor reads, reel slots, gathered
sectors, sward misses, the running transfers' next requests and the window's page reads; as sector numbers. -/
def Eng.unanswered (e : Eng) : List Nat :=
  let sec (a n : Nat) : List Nat := (sectorsOf a n).map (· / 64)
  let dirs := e.dirs.flatMap fun p =>
    (p.2.lds.flatMap fun l => sec l.addr.toNat l.size) ++ (p.2.fetch.flatMap fun a => sec a.toNat 64) ++
      (match p.2.wait with
      | .desc q => sec q.addr.toNat 32
      | _ => [])
  let reels := e.fe.reels.flatMap fun p => if p.2.loc then [] else
    p.2.slots.flatMap fun s => match s.st with
      | .reading => sec (p.2.slotAddr s.count) 64
      | .rereading .. => sec (p.2.slotAddr s.count) 64
      | _ => []
  let parts := e.gln.gleans.flatMap fun g => g.elems.flatMap fun x => x.parts.flatMap fun q =>
    if q.st == .issued && q.pos == e.hth.pos then q.sectors.map (· / 64) else []
  let misses := e.swd.miss.flatMap fun m => [2 * m.line, 2 * m.line + 1]
  let copies := e.hc.ces.flatMap fun q => q.2.flatMap fun t =>
    if t.started && !t.srcHost then sec (t.src.toNat + t.request.1) t.request.2 else []
  let pages := e.hc.reads.flatMap fun w => sec (w.1 / 4096 * 4096) 4096
  (dirs ++ reels ++ parts ++ misses ++ copies ++ pages).dedup

/-- No write of an owner is unacknowledged any more. -/
def Mp.forgive (p : Mp) (o : Owner) : Mp := { p with acks := p.acks.filter fun x => x.1 != o }

/-- The writes of an owner that the memory ports left unanswered are answered as uncorrectable (R254): its instruction ends with fault,
its command with status 4, and an ST faults its program. What waits for a flushing read of host memory (R267) waits on, and take blocks
count as written (log 120). -/
def Eng.writeCut (e : Eng) (o : Owner) : Eng :=
  let off : Eng := { e with mp := e.mp.forgive o }
  match o with
  | .ticket k => if e.hc.closing.contains k then e else off.endTicket k 3 0b0100
  | .cmd r c => match (e.reel r).inflight.find? (fun (q : Cmd) => q.count == c) with
    | some q => if (q.type = 2 ∨ (q.type = 3 ∧ bit (le q.body 21 1) 0)) ∧ ¬ q.flushed then off.finishCmd r c 4 0b0100 q.detail else e
    | none => off
  | .dirAcc d =>
    let x := e.dir d
    if (match x.wait with
      | .fence _ => true
      | _ => false) then e
    else if x.st = .idle ∨ (x.st = .draining ∧ x.bad) then off.settle d
    else off.progFault d 0x05 0
  | _ => off

/-- The memory ports' timeout (R254): every unanswered request is answered as uncorrectable. -/
def Eng.mpCutOff (e : Eng) : Eng :=
  let own := e.mp.acks.map (·.1)
  own.foldl Eng.writeCut ({ e with mp := { e.mp with cut := (e.mp.cut ++ e.unanswered).dedup } } : Eng)

/-- A write that a reset cuts off (R361): each sector of its destination is as before it or as after it, by a free choice. -/
def Eng.cutWrite (e : Eng) (host : Bool) (a : Nat) (bs : List Byte) : Eng :=
  (sectorsOf a bs.length).foldl (fun e sa =>
    let (o, part) := sliceFor a bs sa
    match e.freeBit with
    | (e, false) => e
    | (e, true) =>
      if host then { e with host := e.host.wrN (sa + o) part } else { e with dev := e.dev.wrN (sa + o) part }) e

/-- The writes in flight (R361), with their memory, address and bytes: the eviction buffers' entries and the next requests of the
running transfers. -/
def Eng.flying (e : Eng) : List (Bool × Nat × List Byte) :=
  let half (a : Nat) (d : Option (List Byte)) : List (Bool × Nat × List Byte) := (d.map fun bs => (false, a, bs)).toList
  (e.swd.evb.flatMap fun q => q.2.flatMap fun v => half (v.line * 128) v.d0 ++ half (v.line * 128 + 64) v.d1) ++
    (e.hc.ces.flatMap fun q => (q.2.filter fun t => t.started && !t.ofLoader).map fun t =>
      (t.dstHost, t.dst.toNat + t.request.1, e.rdMem t.srcHost true (t.src.toNat + t.request.1) t.request.2))

/-- A reset cuts off the writes in flight (R361). -/
def Eng.cutOff (e : Eng) : Eng := e.flying.foldl (fun e w => e.cutWrite w.1 w.2.1 w.2.2) e

/-- A restart of the host coupling block (R272): unfinished transfers end aborted, their destinations partly written, and every
buffer is empty. -/
def Eng.hcRestart (e : Eng) : Eng :=
  let one (e : Eng) (t : Xfer) : Eng :=
    let e := if t.started && !t.ofLoader then
        let (o, n) := t.request
        let m := min 65536 (if t.descends then o + n else t.len - t.moved)
        e.maybeCopy t m (if t.descends then o + n - 1 else o)
      else e
    e.xferFail t 5 4 0
  let ts := e.hc.ces.flatMap (·.2)
  ts.foldl one (e.onHc fun c => { c with ces := [], bufs := [] })

/-- The link block stops (R294): every pair is off, forwarded and queued messages are dropped, and the work of each tracked
message ends aborted. -/
def Eng.zwStop (e : Eng) : Eng :=
  let off (x : ZPort) : ZPort :=
    { x with pairs := x.pairs.mapV {} fun q => { q.dark with seen := false }, lanes := [], moves := [],
             queue := [], fwd := [], replay := [], credit := [], owed := [], nak := false, noKey := false, ctls := [], reports := [],
             st := if x.st = .down then .down else .dark }
  let e := e.onZw fun z => z.gather (fun _ => true) e.hth.pos e.hth.time
  let ts := e.zw.tracked
  let e := e.onZw fun z => { z with ports := z.ports.mapV {} off, early := [], tracked := [],
                                    stuck := [], inbox := [], seen := [] }
  let one (e : Eng) (t : Track) : Eng := match t.use with
    | .read k _ _ => e.endTicket k 4 0
    | .topk k => e.endTicket k 4 0
    | .stream k => e.endTicket k 4 0
    | .replica lane => match e.ted.lanes.get none lane with
      | some c => e.endTicket c.k 4 0
      | none => e
    | .signal reel count => e.finishCmd reel count 5 0 (e.cmdDetail reel count)
    | .posted d _ => e.postedDone d
    | .compare i _ => { e with map := { e.map with cmps := e.map.cmps.filter fun (c : RepCmp) => c.num != i } }
    | .reload i j => e.notLoaded i j
    | .barrier | .cascade | .left => e
  let e := ts.foldl one e
  e.onHth Hth.leave

/-- The link block returns (R294): each enabled port that was not down brings up again. -/
def Eng.zwReturn (e : Eng) : Eng :=
  let up (x : ZPort) : ZPort := if x.enable && !x.wasDown then x.bringUp else { x with wasDown := false }
  e.onZw fun z => { z with ports := z.ports.mapV {} fun p => { up p with wasDown := false } }

/-! ### The restart sequence (R371, R372) -/

/-- Blocks that hold a director's ticket (R372). -/
def Eng.holdsTickets (e : Eng) : Nat → Bool
  | 1 => (e.gln.gleans.any fun g => g.phase != .retired && g.phase != .stopped) || !e.gln.uniqs.isEmpty
  | 2 => !e.wr.pools.isEmpty
  | 3 => (e.swp.sweeps.any fun j => !j.ended) || !e.swp.topks.isEmpty
  | 4 => !e.ted.teds.isEmpty || !e.ted.opts.isEmpty
  | 5 => !e.swd.pins.isEmpty
  | 8 => !e.hc.closing.isEmpty || e.hc.ces.any fun q => q.2.any fun t => match t.owner with
    | .ticket _ => true
    | _ => false
  | 9 => !e.tk.digs.isEmpty || e.tk.cuts.any fun c => c.byTake.isSome
  | _ => false

/-- The block has nothing in flight (R371). -/
def Eng.isIdle (e : Eng) : Nat → Bool
  | 0 => (e.dirs.all fun p => p.2.st == .idle) && e.fe.reels.all fun p => p.2.inflight.isEmpty
  | 5 => e.swd.miss.isEmpty && e.swd.pins.all (·.late)
  | 6 => e.mp.acks.isEmpty && e.unanswered.isEmpty
  | 1 => !e.holdsTickets 1 && e.gln.serve.isEmpty
  | 4 => e.ted.lanes.all fun l => l.2.all fun c => c.st != .tap && c.st != .written
  | 7 => e.zw.ports.all fun p => p.2.queue.isEmpty && p.2.fwd.isEmpty
  | 8 => (e.hc.ces.all fun q => q.2.isEmpty) && e.hc.reads.isEmpty && e.hc.closing.isEmpty
  | 9 => e.tk.closing.isNone && e.tk.printing.isNone && e.tk.digs.isEmpty && e.tk.load.isNone
  | b => !e.holdsTickets b

/-- Step 1 of R371: the block is asked to go idle; a block already restarting ignores it (R372). -/
def Eng.restartAsk (e : Eng) (b : Nat) : Eng :=
  if e.busy b then e
  else
    let e : Eng := { e with rs := e.rs.set none b (some (.idleReq e.hth.time e.fe.cause)), flt := { e.flt with last := e.flt.last.set none b (some e.hth.time) } }
    let down (x : ZPort) : ZPort := { x with wasDown := x.st == .down }
    match b with
    | 0 => e.stopDirectors
    | 7 => e.onZw fun z => { z with ports := z.ports.mapV {} down }
    | 9 => e.tapOff
    | _ => e

/-- The reel whose CONFIG command asked for the block's restart (R87). -/
def Eng.rsWork (e : Eng) (b : Nat) : Option (Fin 64) := match e.rs.get none b with
  | some (.idleReq _ work) | some (.inReset _ work) => work
  | none => none

/-- The block was asked to go idle, and is still (R371). -/
def Eng.idleAsked (e : Eng) (b : Nat) : Bool := match e.rs.get none b with
  | some (.idleReq ..) => true
  | _ => false

/-- LE_RST_IDLE_TIMEOUT, in µs, has passed since the block was asked to go idle (R371). -/
def Eng.askedFor (e : Eng) (us : Nat) (b : Nat) : Bool := match e.rs.get none b with
  | some (.idleReq t _) => decide (t.toNat + 1000 * us ≤ e.hth.time.toNat)
  | _ => false

/-- Steps 2 and 3: the block enters reset, idle or at its timeout. -/
def Eng.restartEnter (e : Eng) (b : Nat) (expired : Bool) : Eng :=
  let e : Eng := { e with rs := e.rs.set none b (some (.inReset expired (e.rsWork b))) }
  match b with
  | 5 => if expired then e.swdCutOff else e.writeBackAll
  | 6 => if expired then e.mpCutOff else e
  | 7 => e.zwStop
  | _ => e

/-- Blocks that a timeout of block 0 restarts as well (R372). -/
def Eng.restartOthers (e : Eng) : Eng :=
  ((List.range 10).filter e.holdsTickets).foldl (fun e b =>
    match e.rs.get none b with
    | some (.inReset ..) => e
    | _ => (e.restartAsk b).restartEnter b true) e

/-- Step 4: work still in flight ends aborted, and the block returns as its chapter says. -/
def Eng.restartBlock (e : Eng) : Nat → Eng
  | 0 => e.feRestart
  | 1 => e.glnRestart
  | 2 => e.wrRestart
  | 3 => e.swpRestart
  | 4 => e.tedRestart
  | 5 => e.swdRestart
  | 7 => e.zwReturn
  | 8 => e.hcRestart
  | 9 => e.tkRestart
  | _ => e

/-- Step 5: the block-restarted message (R387). -/
def Eng.restartMsg (e : Eng) (b : Nat) (expired : Bool) (work : Option (Fin 64)) : Eng :=
  e.behalf work fun e => e.postEvt 0 0 0x0101 (b + b2n expired * 2 ^ 8)

/-- BLOCK_IDLE (R371): a block that was asked to and has nothing in flight enters reset. -/
def execBlockIdle (b : Fin 10) (s : State) : Host.Outcome State Fault Refusal :=
  .next (s.live fun e =>
    if e.idleAsked b && e.isIdle b then e.restartEnter b false else e)

/-- IDLE_TIMEOUT_EXPIRY (R371, R372): it changes nothing before LE_RST_IDLE_TIMEOUT has passed by the time base (log 112). -/
def execIdleTimeoutExpiry (b : Fin 10) (s : State) : Host.Outcome State Fault Refusal :=
  .next (if s.runs && s.eng.askedFor s.ao.idleUs.toNat b then
      let e := s.eng.restartEnter b true
      { s with ao := { s.ao with toExpired := true }, eng := if b.val = 0 then e.restartOthers else e }
    else s)

/-! ### Errors of internal storage (R389, R396) -/

/-- The restart block of a source class (R87, R371). -/
def blockOf (cls : Nat) : Option Nat :=
  match cls with
  | 1 | 2 | 0xE => some 0
  | 3 => some 1
  | 4 => some 2
  | 5 => some 3
  | 6 => some 4
  | 7 => some 5
  | 8 => some 6
  | 9 => some 7
  | 0xA => some 8
  | 0xB => some 9
  | _ => none

/-- The handler's automatic restart (R396), run by the control firmware: at most once a second for a block. -/
def Eng.autoRestart (e : Eng) (b : Nat) : Eng :=
  if !bit e.flt.auto.toNat b then e
  else
    let recent := (e.flt.last.get none b).any fun t => decide (e.hth.time.toNat < t.toNat + 1000000000)
    if recent then { e with flt := { e.flt with autoHeld := true } } else e.restartAsk b

/-- Storage that a running program owns fails (R389): it ends as at a data-path fault (log entry 186). -/
def Eng.storageProg (e : Eng) (d : Fin 8) : Eng :=
  (e.onDir d fun x => { x with flags := x.flags ||| 0b0100 }).progFault d 0x0C 0

/-- Storage that a command owns fails (R389): a running program ends as at a data-path fault, another dispatched command ends with
status fault, and a LAUNCH that has not begun gives its director back; a command in the buffer ends so when it is dispatched. -/
def Eng.storageCmd (e : Eng) (r : Fin 64) (c : W24) : Eng :=
  match (e.reel r).inflight.find? (fun (q : Cmd) => q.count == c) with
  | some q =>
    if h : q.type = 1 ∧ q.phase = CmdPhase.running ∧ q.dir < 8 then e.storageProg ⟨q.dir, h.2.2⟩
    else
      let e := if q.type = 1 ∧ q.phase = CmdPhase.ready then e.onDir q.dir fun x => { x with reserved := false } else e
      e.finishCmd r c 4 0b0100 (e.endDetail q)
  | none => e.onReel r fun x => { x with slots := x.slots.map fun y => if y.count == c then { y with lost := true } else y }

/-- An error of storage that no chapter covers (R389): the work that owns it ends with status fault, and one message is
posted. -/
def Eng.storageError (e : Eng) (fwOk : Bool) (cls : BitVec 4) (inst : W16) (o : Owner) : Eng :=
  let cmd : Option (Fin 64 × W24) := match o with
    | .cmd r c => some (r, c)
    | .ticket k => some ((e.dir k.dir).reel, (e.dir k.dir).count)
    | .dirAcc d => some ((e.dir d).reel, (e.dir d).count)
    | .engine => none
    | .takeFile => none
    | .loader _ => none
  let (m, tag) := match cmd with
    | some (r, c) => (e.mreelOf r, workTag r c)
    | none => (e.evt, 0)
  let e := match o with
    | .cmd r c => e.storageCmd r c
    | .ticket k => e.endTicket k 3 0b0100
    | .dirAcc d => e.storageProg d
    | _ => e
  let e : Eng := { e with flt := { e.flt with storageErr := true } }
  let e := e.post m 0 0 0x0107 (cls.toNat + inst.toNat * 2 ^ 16 + tag)
  match blockOf cls.toNat with
  | some b => if fwOk then e.autoRestart b else e
  | none => e

/-- A corrected error is counted (R389), the sward's by its own counter. -/
def Eng.corrected (e : Eng) (cls : Nat) : Eng :=
  if cls = 7 then e.onSwd (·.count 7 1) else { e with flt := { e.flt with corr := satAdd e.flt.corr 1 } }

/-- A copy of memory with an uncorrectable error is dropped, so that it is fetched again (R389): an instruction sector of a director
or a read-ahead page of the window. -/
def Eng.dropCopy (e : Eng) (cls inst a : Nat) : Eng :=
  if cls = 2 then e.onDir (inst % 8) fun x => { x with icache := x.icache.set [] (a / 64) [] }
  else if cls = 0xA then e.onHc (·.discard fun page => page == a / 4096)
  else e

/-- A word of retained memory has an uncorrectable error, until it is written again (R374). -/
def Eng.retFail (e : Eng) (i : Nat) : Eng := if e.retBad.contains i then e else { e with retBad := e.retBad ++ [i] }

/-- INTERNAL_STORAGE_ERROR (R389; of retained memory, which runs always: R374). The handler is the control firmware's: without a
verified image nothing restarts (R376). -/
def execInternalStorageError (cls : BitVec 4) (inst : W16) (err : StorageErr) (s : State) : Host.Outcome State Fault Refusal :=
  .next (match err with
    | .retained i => { s with eng := s.eng.retFail i }
    | .single => s.live fun e => e.corrected cls.toNat
    | .copy a => s.live fun e => (e.dropCopy cls.toNat inst.toNat a.toNat).corrected cls.toNat
    | .lost o => s.live fun e => e.storageError s.ao.fwOk cls inst o)

end Sys2Proof.Machine
end

