-- ==== Sys2Proof/Machine/Island.lean ====
section
/-! DEFINITION. The always-on island (R360 to R384): the two resets, the option load, the first configured state, the firmware
check, the clock failure, the option area's writers, the gaffer and the TAP. -/

namespace Sys2Proof.Machine

open Sys2Proof

/-! ### Retained memory and the resets (R360, R361, R374) -/

/-- Clears the magic and every other word of retained memory, as power-on does (R374). -/
def retBlank : SMap W32 := SMap.set 0 [] 0 0x4C524D31

/-- The reset snapshot (R374): the count of assertions, the cause, time base, secured sequence, term, map version, program
counters. -/
def Eng.snapshot (e : Eng) (cause : Nat) : Eng :=
  let dw (x : W64) : List Nat := [x.toNat, x.toNat / 2 ^ 32]
  let e1 := (e.setRet 1 (satAdd (e.retw 1) 1)).setRets 2 [cause, 0]
  let e2 := e1.setRets 4 (dw e.hth.time ++ dw e.tk.secured ++ [e.hth.term.toNat, e.map.activeVer.toNat])
  e2.setRets 16 ((List.range 8).flatMap fun d => dw (e.dir d).pc)

/-- Everything but always-on is held in reset (R361): retained memory and the memories of the carrier stay. -/
def Eng.held (e : Eng) : Eng := { ret := e.ret, retBad := e.retBad, dev := e.dev, host := e.host, free := e.free }

/-- A copy of the option area whose write a reset cut off (R369): its generation is free and its CRC fails. -/
def Eng.tornCopy (e : Eng) (m : SMap Byte) : Eng × SMap Byte :=
  let (e, gen) := e.freeBytes 4
  let bs := splice (nvCopy m) 0x3FC gen
  let bad := splice bs 0x400 (leBytes 4 ((crc32c (bs.take 1024) + 1) % 2 ^ 32))
  (e, (List.range 1028).foldl (fun m i => m.set 0xFF i (bad.getD i 0)) m)

/-- A write of the option area that a reset cuts off leaves its copy torn (R369). -/
def State.tearNv (s : State) : State :=
  match s.ao.nv with
  | [] => s
  | w :: _ =>
    let (e, m) := s.eng.tornCopy (if w.copyB then s.ao.nvB else s.ao.nvA)
    { s with eng := e, ao := if w.copyB then { s.ao with nvB := m } else { s.ao with nvA := m } }

/-- What a reset cuts off (R361, R369): a write of the option area, and the memory writes in flight. -/
def State.cutOff (s : State) : State := { s.tearNv with eng := s.tearNv.eng.cutOff }

/-- POWER_ON_RESET (R360, R374): only the non-volatile contents are kept, and host memory, which is the host's. -/
def execPowerOnReset (s : State) : Host.Outcome State Fault Refusal :=
  let t := s.cutOff
  .next { pending := s.pending,
          ao := { nvA := t.ao.nvA, nvB := t.ao.nvB },
          eng := { ret := retBlank, host := t.eng.host, free := t.eng.free } }

/-- LE_RST_N_ASSERT (R360, R361): a low level of at least 3 always-on cycles. While reset is held already nothing more
happens. -/
def execLeRstNAssert (low : Nat) (s : State) : Host.Outcome State Fault Refusal :=
  if low < 3 ∨ s.ao.phase = .inReset then .next s
  else
    let cause := if s.ao.clkFail then 2 else 1
    let t := s.cutOff
    .next { pending := s.pending,
            ao := { cause := BitVec.ofNat 2 cause, nvA := t.ao.nvA, nvB := t.ao.nvB, temp := t.ao.temp, hottest := t.ao.hottest,
                    bkp := t.ao.bkp, tapIr := t.ao.tapIr, tapCap := t.ao.tapCap, tapId := t.ao.tapId, tapByp := t.ao.tapByp,
                    dbgReg := t.ao.dbgReg },
            eng := (t.eng.snapshot cause).held }

/-- The generation of a copy, read unchecked (R366). -/
def nvGen (m : SMap Byte) : Nat := le (nvCopy m) 0x3FC 4

/-- RESET_RELEASE (R362, R366): step 1, the load of the newer copy; equal generations choose A. -/
def execResetRelease (s : State) : Host.Outcome State Fault Refusal :=
  if s.ao.phase = .inReset then
    let d := (nvGen s.ao.nvB + 2 ^ 32 - nvGen s.ao.nvA) % 2 ^ 32
    .next { s with ao := { s.ao with phase := .loading (decide (1 ≤ d ∧ d < 2 ^ 31)) 0 } }
  else .next s

/-! ### The option load (R365 to R368) -/

/-- A field of the option area: its offset, its size, what its value must satisfy, and its safe default (R365). -/
structure OptField where
  off  : Nat
  size : Nat
  ok   : Nat → Bool
  dflt : Nat

/-- The fields that are checked, in order (R365, R368); t_thr and t_trip by themselves. -/
def optFields : List OptField :=
  [⟨0x100, 1, fun v => v == 1, 1⟩, ⟨0x101, 1, fun _ => true, 0⟩, ⟨0x102, 1, fun v => decide (v < 2), 0⟩,
   ⟨0x103, 1, fun v => v == 0, 0⟩, ⟨0x104, 4, fun v => decide (v < 2 ^ 23) && hthCfgOk v, 0⟩, ⟨0x108, 2, fun _ => true, 0⟩,
   ⟨0x10A, 1, fun v => decide (v < 64), 0⟩, ⟨0x10B, 1, fun v => decide (v < 64), 0x3F⟩,
   ⟨0x10C, 1, fun v => decide (15 ≤ v) && decide (v ≤ 90), 15⟩, ⟨0x10D, 1, fun v => decide (1 ≤ v), 50⟩,
   ⟨0x10E, 1, fun v => decide (60 ≤ v) && decide (v ≤ 120), 95⟩,
   ⟨0x10F, 1, fun v => decide (70 ≤ v) && decide (v ≤ 125), 105⟩,
   ⟨0x110, 2, fun v => decide (1 ≤ v), 1000⟩, ⟨0x112, 3, fun v => decide (1 ≤ v) && decide (v < 2 ^ 20), 100⟩,
   ⟨0x115, 1, fun v => decide (v < 128), 0⟩, ⟨0x116, 10, fun v => v == 0, 0⟩, ⟨0x3F8, 4, fun v => v == 0, 0⟩]

/-- The field fails its check: by its value, or because opt_ver makes it fail (R368). -/
def OptField.fails (f : OptField) (bs : List Byte) : Bool :=
  !f.ok (le bs f.off f.size) || (le bs 0x100 1 != 1 && decide (0x101 ≤ f.off) && decide (f.off < 0x120))

/-- Puts a field's safe default in place. -/
def OptField.reset (f : OptField) (bs : List Byte) : List Byte := splice bs f.off (leBytes f.size f.dflt)

/-- The image with every failing field at its safe default, and the offset of the first failing field (R368): t_thr and t_trip fail
together unless the copy's t_thr lies below its t_trip. -/
def optCheck (bs : List Byte) : List Byte × Option Nat :=
  let pair (f : OptField) : Bool := (f.off == 0x10E || f.off == 0x10F) && !decide (le bs 0x10E 1 < le bs 0x10F 1)
  let bad := optFields.filter fun f => f.fails bs || pair f
  (bad.foldl (fun b f => f.reset b) bs, (bad.map OptField.off).min?)

/-- The image of safe defaults (R367); the nominal trims and the padding of its CRC are no one's but the trims' own. -/
def optDefaults (trims : List Byte) : List Byte :=
  let z : List Byte := splice (List.replicate 1028 (0 : Byte)) 8 (trims.take 248)
  optFields.foldl (fun b f => f.reset b) z

/-- OPTION_LOAD_ATTEMPT_END (R366): the copy read passes its CRC and is committed, or the other copy is tried, or after three
failures the safe defaults are. -/
def execOptionLoadAttemptEnd (s : State) : Host.Outcome State Fault Refusal :=
  match s.ao.phase with
  | .loading b fails =>
    let bs := nvCopy (if b then s.ao.nvB else s.ao.nvA)
    if nvOk bs then
      let first := (optCheck bs).2
      .next { s with ao := { s.ao with phase := .pll, loaded := true, copyB := b, attempts := fails, image := bs,
                                       byteBad := first.isSome, badOffset := BitVec.ofNat 10 (first.getD 0) } }
    else if fails + 1 < 3 then .next { s with ao := { s.ao with phase := .loading (!b) (fails + 1), attempts := fails + 1 } }
    else
      let (e, trims) := s.eng.freeBytes 248
      .next { s with ao := { s.ao with phase := .pll, defaulted := true, attempts := 3, image := optDefaults trims }, eng := e }
  | _ => .next s

/-! ### The first configured state (R362, R370, R392) -/

/-- Reads a defect entry (R391); none where R392 skips it for its own content. -/
def readDefect (v : Nat) : Option Defect :=
  let d : Defect := { kind := fld v 0 2, unit := fld v 2 6, index := fld v 8 10, way := fld v 18 5, st := fld v 23 2,
                      spare1 := fld v 25 5, spare2 := fld v 30 5 }
  let ranges := if d.kind = 1 then decide (d.way < 20)
    else decide (d.index < 128) && d.way == 0 && decide (d.spare1 < 8) && decide (d.spare2 < 8)
  if (d.kind = 1 ∨ d.kind = 2) ∧ d.st ≠ 0 ∧ ranges ∧ v < 2 ^ 35 then some d else none

/-- Spares an entry needs (R392). -/
def Defect.needs (d : Defect) : List Nat := if d.st = 1 then [d.spare1] else if d.st = 2 then [d.spare1, d.spare2] else []

/-- Spares an entry names: a retired location keeps its own in use (R391). -/
def Defect.names (d : Defect) : List Nat := if d.st = 1 then [d.spare1] else [d.spare1, d.spare2]

/-- Step 4 of R362: the entries in list order, and whether one was skipped (R392). A state-1 entry has no second spare. -/
def applyDefects : List Nat → List Defect → List Defect × Bool
  | [], ds => (ds, false)
  | v :: vs, ds =>
    if v = 0 then applyDefects vs ds
    else match readDefect v with
      | none => ((applyDefects vs ds).1, true)
      | some d =>
        let used := (ds.filter fun x => x.kind == d.kind && x.unit == d.unit).flatMap Defect.names
        if d.needs.any used.contains then ((applyDefects vs ds).1, true)
        else applyDefects vs (ds ++ [if d.st = 1 then { d with spare2 := 32 } else d])

/-- The defect entries of the fault log that the option area lacks (R369), oldest slot first. -/
def Eng.flagged (e : Eng) : List W64 :=
  ((List.range 120).filter e.logFlag).map fun j =>
    BitVec.ofNat 64 ((e.retw (64 + 8 * j + 4)).toNat + (e.retw (64 + 8 * j + 5)).toNat * 2 ^ 32)

/-- PLL_LOCK (R362, R370): the islands are released, the defect list is applied, and the committed options take effect: the first
configured state, in which the firmware check starts (R375). -/
def execPllLock (s : State) : Host.Outcome State Fault Refusal :=
  if s.ao.phase ≠ .pll ∨ s.ao.clkFail then .next s
  else
    let (im, _) := optCheck s.ao.image
    let f (o n : Nat) : Nat := le im o n
    let list := if s.ao.defaulted then [] else (List.range 91).map fun i => f (0x120 + 8 * i) 8
    let (ds, skipped) := applyDefects list []
    let e := s.eng
    let e := e.onHth fun h => { h with cfg := BitVec.ofNat 23 (f 0x104 4), id := BitVec.ofNat 16 (f 0x108 2),
                                       serial := BitVec.ofNat 64 (f 0 8) }
    let e : Eng := { e with acc := { e.acc with cfgMaster := BitVec.ofNat 6 (f 0x10A 1), enforce := BitVec.ofNat 6 (f 0x10B 1) } }
    let e := e.onSwd fun w => { w with defects := ds, defq := if s.ao.defaulted then [] else e.flagged }
    let e := (List.finRange 8).foldl (fun e (p : Fin 8) => if bit (f 0x101 1) p then e.portCfg p 0x61 else e) e
    let ao := { s.ao with phase := .configured, cap := f 0x10C 1, ramp := f 0x10D 1, tThr := f 0x10E 1, tTrip := f 0x10F 1,
                          hold := f 0x110 2, idleUs := BitVec.ofNat 20 (f 0x112 3), dbgCfg := BitVec.ofNat 7 (f 0x115 1),
                          byteBad := s.ao.byteBad || skipped, fwChk := true }
    .next (({ s with ao := ao, eng := e } : State).nvStart)

/-- FIRMWARE_CHECK_END (R375, R370): fw_ok, and with auto_join the join; or fw_bad with the first reason that holds. -/
def execFirmwareCheckEnd (hdrOk crcOk sigOk : Bool) (version : W32) (s : State) : Host.Outcome State Fault Refusal :=
  if !s.runs || !s.ao.fwChk then .next s
  else
    let ok := hdrOk && crcOk && sigOk
    let reason : BitVec 2 := if !hdrOk then 3 else if !crcOk then 1 else if !sigOk then 2 else 0
    let auto := bit (le (optCheck s.ao.image).1 0x102 1) 0
    .next { s with ao := { s.ao with fwChk := false, fwOk := ok, fwBad := !ok, fwReason := reason,
                                     fwVersion := if hdrOk then version.setWidth 16 else 0 },
                   eng := if ok && auto then s.eng.join false else s.eng }

/-- CLOCK_FAILURE (R377): clk_fail, the islands held, the lasers dark, the log record, and the signal to the carrier's reset pin
logic. -/
def execClockFailure (s : State) : Host.Outcome State Fault Refusal :=
  if s.ao.clkFail then .next s
  else
    let dark (x : ZPort) : ZPort := { x with pairs := x.pairs.mapV {} Pair.dark }
    let e := (s.eng.logRec 0x0108 0 0 0 false).onZw fun z => { z with ports := z.ports.mapV {} dark }
    .next { s with ao := { s.ao with clkFail := true, pinSignal := true }, eng := e }

/-! ### The option area's writers (R369) -/

/-- The unwritten flags of log records whose entries an image holds are cleared (R393). -/
def Eng.clearFlags (e : Eng) (im : List Byte) : Eng :=
  (List.range 120).foldl (fun e j =>
    let v := (e.retw (64 + 8 * j + 4)).toNat + (e.retw (64 + 8 * j + 5)).toNat * 2 ^ 32
    if e.logFlag j && (List.range 91).any (fun i => le im (0x120 + 8 * i) 8 == v) then
      (e.setRet (64 + 8 * j + 2) (e.retw (64 + 8 * j + 2) &&& 0xFEFFFFFF)).setRet 33 (e.retw 33 - 1)
    else e) e

/-- Stores a whole copy. -/
def nvStore (im : List Byte) : SMap Byte :=
  (List.range 1028).foldl (fun m i => m.set 0xFF i (im.getD i 0)) []

/-- OPTION_AREA_WRITE_END (R369): the copy is written; the other writer goes next when it waits (R354). -/
def execOptionAreaWriteEnd (s : State) : Host.Outcome State Fault Refusal :=
  match s.ao.nv with
  | [] => .next s
  | w :: rest =>
    let ao := if w.copyB then { s.ao with nvB := nvStore w.image } else { s.ao with nvA := nvStore w.image }
    let e := if w.byEngine then s.eng.clearFlags w.image else s.eng
    let t : State := { s with ao := { ao with nv := [] }, eng := e }
    if w.byEngine && !rest.isEmpty then .next { t with ao := { t.ao with nv := rest } }
    else
      let t := if s.runs then t.nvStart else t
      .next { t with ao := { t.ao with nv := t.ao.nv ++ rest } }

/-- MANAGEMENT_OPTION_WRITE (R369): a whole copy from the carrier's management path, with the next generation, waits behind a
write that runs. It needs the copy of the last load, so nothing starts before one has ended. -/
def execManagementOptionWrite (image : List Byte) (s : State) : Host.Outcome State Fault Refusal :=
  if s.ao.phase = .pll ∨ s.ao.phase = .configured then
    let im := nvImage ((image ++ List.replicate 1024 0).take 1024) ((le s.ao.image 0x3FC 4 + 1) % 2 ^ 32)
    .next { s with ao := { s.ao with nv := s.ao.nv ++ [{ copyB := !s.ao.copyB, image := im, byEngine := false }] } }
  else .next s

/-! ### The gaffer (R378 to R381) -/

/-- The effective cap in units of 10 W (R379). -/
def AlwaysOn.effCap (a : AlwaysOn) : Nat := min a.cap a.thermal

/-- The allowance fraction over 130,560 (R378): b = C − p_fixed − C × 60 / 900, over 680 W, from 1/64 to 1. -/
def allowance (c pFixed : Nat) : Nat := min 130560 (max 2040 ((1792 * (c : Int) - 192 * (pFixed : Int)).toNat))

/-- The readings of the sensors (R380): T, the hottest, and the number of the first sensor that gives it; a sensor without a valid
reading counts as t_thr and sets sensor_bad. -/
def AlwaysOn.sense (a : AlwaysOn) (readings : List (Option Nat)) : AlwaysOn × Nat × Nat :=
  let ts := readings.map fun r => r.getD a.tThr
  let t := ts.max?.getD a.tThr
  ({ a with sensorBad := a.sensorBad || readings.contains none, hottest := t }, t, (ts.idxOf? t).getD 0)

/-- A lit lane pair of a live port has headroom below the pacing threshold (R280). -/
def Eng.paces (e : Eng) : Bool :=
  (List.finRange 8).any fun p =>
    let x := e.port' p
    x.st == .live && (List.finRange 18).any fun n =>
      (x.pair n).safety == .lit && decide ((x.pair n).head < fld e.zw.cal.toNat 8 7)

/-- The message of a reading that trips the gaffer anew (R380). -/
def Eng.tripMsg (e : Eng) (a : AlwaysOn) (sensor t : Nat) : Eng :=
  if a.tTrip ≤ t ∧ !a.trip then e.postEvt 0xC 0 0x0C01 (t % 256 + sensor % 256 * 2 ^ 8) else e

/-- GAFFER_EVALUATION (R378, R380): the estimate and the reading, the trip, f, and the over-cap count. Sensing goes on before
the first configured state (R364). The sweep's share of f does not rise while a pair lacks headroom (R280). -/
def execGafferEvaluation (power pFixed : Nat) (readings : List (Option Nat)) (s : State) : Host.Outcome State Fault Refusal :=
  let (a, t, sensor) := s.ao.sense readings
  let a := { a with temp := t }
  if !s.runs then .next { s with ao := a }
  else
    let trips := decide (a.tTrip ≤ t)
    let e := s.eng.tripMsg a sensor t
    let trip := trips || (a.trip && !decide (t + 5 < a.tTrip))
    let f := if trip then 0 else allowance a.effCap pFixed
    let high := decide (f = 2040) && decide (10 * a.effCap < power)
    let cnt := if high then min 10 (a.overCnt + 1) else 0
    let raise := cnt == 10 && a.overCnt != 10
    let a' := { a with trip := trip, f := f, allow := if s.eng.paces then min a.allow f else f, evald := true,
                       power := min power 2047, overCnt := cnt, overCap := a.overCap || raise }
    let e := if raise then e.postEvt 0xC 0 0x0C00 (min power 65535 + 10 * a.effCap * 2 ^ 16) else e
    .next { s with ao := a', eng := e }

/-- THERMAL_CAP_STEP (R380): 10 W down at or above t_thr, to 150 W; 10 W up below t_thr − 2 °C, to 900 W. A reading at or above
t_trip trips here too. -/
def execThermalCapStep (readings : List (Option Nat)) (s : State) : Host.Outcome State Fault Refusal :=
  if !s.runs then .next s
  else
    let (a, t, sensor) := s.ao.sense readings
    let cap := if a.tThr ≤ t then max 15 (a.thermal - 1) else if t + 2 < a.tThr then min 90 (a.thermal + 1) else a.thermal
    let e := s.eng.tripMsg a sensor t
    let a := { a with thermal := cap }
    .next { s with ao := if a.tTrip ≤ t then { a with trip := true, f := 0, allow := 0 } else a, eng := e }

/-- HOLD_LIMIT_EXPIRY (R381): hold_long, and one message a hold. -/
def execHoldLimitExpiry (s : State) : Host.Outcome State Fault Refusal :=
  match s.eng.swp.moving, s.eng.swp.holdAt with
  | (p, lane) :: _, some since =>
    if !s.runs || s.eng.swp.holdReported || decide (s.eng.hth.time.toNat ≤ since.toNat + s.ao.hold * 1000) then .next s
    else
      let us := (s.eng.hth.time.toNat - since.toNat) / 1000
      let e := s.eng.postEvt 0xC 0 0x0C02 (p.val + lane.val * 2 ^ 8 + us % 2 ^ 32 * 2 ^ 32)
      let e : Eng := { e with swp := { e.swp with holdReported := true } }
      .next { s with ao := { s.ao with holdLong := true }, eng := e }
  | _, _ => .next s

/-! ### The TAP (R382) -/

/-- TAP_RESET: TMS high for 5 cycles of TCK selects IDCODE. -/
def execTapReset (tck : Nat) (s : State) : Host.Outcome State Fault Refusal :=
  .next (if 5 ≤ tck then { s with ao := { s.ao with tapIr := 0x01 } } else s)

/-- The data register that an instruction code selects: every code but IDCODE and DBG_REG acts as BYPASS. -/
def tapSel (code : Byte) : TapSel := if code = 0x01 then .idcode else if code = 0x20 then .dbgReg else .bypass

/-- A scan of the instruction register: Capture-IR loads 0x01, and Update-IR selects what was shifted in. -/
def AlwaysOn.scanIr (a : AlwaysOn) : Option Byte → AlwaysOn
  | some code => { a with tapCap := 0x01, tapIr := code }
  | none => a

/-- Capture-DR of the selected register: IDCODE's value; 0 into BYPASS (PRESUMED, log 138: IEEE 1149.1 says so); into DBG_REG the data
of the last access with done and denied, or all ones while dbg_en is 0 (R383). -/
def AlwaysOn.captureDr (a : AlwaysOn) : AlwaysOn :=
  match tapSel a.tapIr with
  | .idcode => { a with tapId := 0xB4C0D0A3 }
  | .bypass => { a with tapByp := false }
  | .dbgReg =>
    let keep := a.dbgReg.toNat / 2 ^ 32 % 2 ^ 33
    { a with dbgReg := if a.dbgCfg.getLsbD 0 then
        BitVec.ofNat 72 (a.dbgData.toNat + keep * 2 ^ 32 + b2n a.dbgDone * 2 ^ 65 + b2n a.dbgDenied * 2 ^ 66)
      else BitVec.allOnes 72 }

/-! ### Time without commands -/

/-- The cycles of one reference cycle on which row issue is held (R199), and on which lanes wait at the tap (R219): both islands
run at 1.9 GHz (R3). -/
def Eng.countHeld (e : Eng) : Eng :=
  let e := if e.swp.moving.isEmpty then e else e.countSwp 2 19
  e.countTed 3 (19 * (e.ted.lanes.filter fun l => l.2.any fun c => c.st == .tap).length)

/-- One cycle of the 100 MHz reference without a command: the time base runs on (R307, R377), held cycles count, ports with
something to report send it (R284), and comparisons that wait for a claim begin where they can (R328). DESIGN CHOICE: log entry 6. -/
def State.tick (s : State) : State := s.live fun e => (e.countHeld.report.repTurn).onHth Hth.tick

end Sys2Proof.Machine
end

