-- ==== Sys2Proof/Machine/Regs.lean ====
section
/-! DEFINITION. The register space (R4 to R6, R398 to R404): its blocks, the access checks, 64-bit pairs and their latches, writes
that wait for a restart, the blocks without a file of their own, and the commands that read and write registers, CONFIG
(R81) and DBG_REG (R383) among them. -/

namespace Sys2Proof.Machine

open Sys2Proof

/-! ### The blocks' own registers: always-on, fault, access, directors, grader -/

/-- A read of an always-on register (R384). -/
def State.aoRd (s : State) (off : Nat) : Nat :=
  let a := s.ao
  if 0x4000 ≤ off then
    (s.eng.retw ((off - 0x4000) / 4)).toNat
  else if 0x400 ≤ off ∧ off < 0x804 then le a.image (off - 0x400) 4
  else if 0x080 ≤ off ∧ off < 0x100 then (a.bkp.get 0 ((off - 0x080) / 4)).toNat
  else
    match off with
    | 0x000 => 0x004C0DB0
    | 0x004 =>
      let busy := ((List.range 10).map fun b => b2n (s.eng.busy b) * 2 ^ (16 + b)).sum
      b2n (a.phase == .configured) + 2 * a.cause.toNat + 8 * b2n a.clkFail + 16 * b2n a.toExpired + 32 * b2n a.retUncorr +
        64 * b2n a.retRefused + busy
    | 0x00C => a.idleUs.toNat
    | 0x010 =>
      let loading := match a.phase with
        | .inReset | .loading .. => true
        | _ => false
      b2n loading + 2 * b2n a.loaded + 4 * b2n a.defaulted + 8 * b2n a.copyB + 16 * a.attempts + 64 * b2n a.byteBad +
        128 * b2n a.defectFull + 256 * b2n (!a.nv.isEmpty) + 1024 * a.badOffset.toNat
    | 0x014 => b2n a.fwChk + 2 * b2n a.fwOk + 4 * b2n a.fwBad + 8 * a.fwReason.toNat + 2 ^ 16 * a.fwVersion.toNat
    | 0x018 => a.cap
    | 0x01C => a.ramp
    | 0x020 => a.hold
    | 0x024 => a.tThr + 256 * a.tTrip
    | 0x028 =>
      b2n (decide (a.f < 130560)) + 2 * b2n a.overCap + 4 * b2n (decide (a.thermal < a.cap) || decide (a.tThr ≤ a.hottest)) + 8 * b2n a.trip +
        16 * b2n a.sensorBad + 32 * b2n a.holdLong + 64 * b2n a.gafBusy
    | 0x02C => a.power + 2 ^ 12 * (a.temp % 256) + 2 ^ 20 * (if a.evald then a.f / 510 else 0)
    | 0x030 => a.dbgCfg.toNat
    | _ => 0

/-- What a read of an always-on register changes: an uncorrectable retained word sets ret_uncorr (R374). -/
def State.aoAfterRd (s : State) (off : Nat) : State :=
  if 0x4000 ≤ off ∧ s.eng.retBad.contains ((off - 0x4000) / 4) then { s with ao := { s.ao with retUncorr := true } } else s

/-- A write of an always-on register. -/
def State.aoWr (s : State) (off v : Nat) : State :=
  let a := s.ao
  let on (a : AlwaysOn) : State := { s with ao := a }
  if 0x5000 ≤ off then { s with eng := s.eng.setRet ((off - 0x4000) / 4) (BitVec.ofNat 32 v) }
  else if 0x4000 ≤ off then on { a with retRefused := true }
  else if 0x080 ≤ off ∧ off < 0x100 then on { a with bkp := a.bkp.set 0 ((off - 0x080) / 4) (BitVec.ofNat 32 v) }
  else
    match off with
    | 0x004 => on { a with toExpired := a.toExpired && !bit v 4, retUncorr := a.retUncorr && !bit v 5,
                           retRefused := a.retRefused && !bit v 6 }
    -- no block runs after a clock failure, and what ends that state resets them all (log 137)
    | 0x008 => if s.runs then { s with eng := ((List.range 10).filter (bit v)).foldl (fun e b => e.restartAsk b) s.eng } else s
    | 0x00C => on { a with idleUs := BitVec.ofNat 20 (atLeast1 (fld v 0 20)) }
    | 0x010 => on { a with byteBad := a.byteBad && !bit v 6, defectFull := a.defectFull && !bit v 7 }
    | 0x018 => on { a with cap := max 15 (min 90 (fld v 0 7)) }
    | 0x01C => on { a with ramp := atLeast1 (fld v 0 8) }
    | 0x020 => on { a with hold := atLeast1 (fld v 0 16) }
    | 0x024 =>
      if fld v 0 8 < fld v 8 8 then on { a with tThr := fld v 0 8, tTrip := fld v 8 8 } else on { a with gafBusy := true }
    | 0x028 => on { a with overCap := a.overCap && !bit v 1, sensorBad := a.sensorBad && !bit v 4,
                           holdLong := a.holdLong && !bit v 5, gafBusy := a.gafBusy && !bit v 6 }
    | _ => s

/-- A read of a fault register. -/
def fltRd (f : Flt) (off : Nat) : Nat :=
  match off with
  | 0x000 => f.auto.toNat
  | 0x004 => b2n f.storageErr + 2 * b2n f.autoHeld
  | 0x008 => f.corr.toNat
  | _ => 0

/-- A write of a fault register. -/
def fltWr (f : Flt) (off v : Nat) : Flt :=
  match off with
  | 0x000 => { f with auto := BitVec.ofNat 10 v }
  | 0x004 => { f with storageErr := f.storageErr && !bit v 0, autoHeld := f.autoHeld && !bit v 1 }
  | _ => f

/-- A read of an access register (R349, R350, R353). -/
def accRd (c : Acc) (off : Nat) : Nat :=
  if 0x200 ≤ off ∧ off < 0xE00 then
    let g := c.regions.get {} ((off - 0x200) / 0x40)
    match off % 0x40 with
    | 0x00 => b2n g.en
    | 0x08 => g.base.toNat
    | 0x10 => g.limit.toNat
    | 0x18 => g.rd.toNat
    | 0x20 => g.wr.toNat
    | _ => 0
  else
    match off with
    | 0x000 => c.cfgMaster.toNat + 64 * b2n c.lock + 256 * c.enforce.toNat
    | 0x004 => b2n c.denyValid
    | 0x008 => c.denyInfo.toNat
    | 0x00C => c.denyCnt.toNat
    | 0x010 => c.denyAddr.toNat
    | _ => 0

/-- A write of an access register. -/
def accWr (c : Acc) (off v : Nat) : Acc :=
  if 0x200 ≤ off ∧ off < 0xE00 then
    let i := (off - 0x200) / 0x40
    let g := c.regions.get {} i
    let set (g : Region) : Acc := { c with regions := c.regions.set {} i g }
    match off % 0x40 with
    | 0x00 => set { g with en := bit v 0 }
    | 0x08 => set { g with base := BitVec.ofNat 64 v }
    | 0x10 => set { g with limit := BitVec.ofNat 64 v }
    | 0x18 => set { g with rd := BitVec.ofNat 64 v }
    | 0x20 => set { g with wr := BitVec.ofNat 64 v }
    | _ => c
  else
    match off with
    | 0x000 => { c with cfgMaster := BitVec.ofNat 6 v, lock := c.lock || bit v 6, enforce := BitVec.ofNat 6 (v / 256) }
    | 0x004 => { c with denyValid := c.denyValid && !bit v 0 }
    | _ => c

/-- State code of LE_DIR_STATUS: only a wait on WAITT, CWAIT or LD shows as waiting. -/
def Dir.code (x : Dir) : Nat :=
  match x.st, x.wait with
  | .idle, _ => 0
  | .running, _ => 1
  | .draining, _ => 3
  | .waiting, .ticket .. => 2
  | .waiting, .allTickets _ => 2
  | .waiting, .clapper .. => 2
  | .waiting, .load => 2
  | .waiting, _ => 1

/-- A read of a director's register. -/
def dirRd (x : Dir) (off : Nat) : Nat :=
  match off with
  | 0x00 => x.code + 4 * b2n x.faulted + 8 * b2n (!x.stops.isEmpty) + 16 * b2n x.wrBusy + 256 * x.stops.length +
      2 ^ 24 * x.reel.val
  | 0x04 => x.cause.toNat + 256 * x.detail.toNat
  | 0x08 => x.pc.toNat
  | 0x10 => (x.stopWord 0).toNat
  | 0x18 => (x.stopWord 1).toNat
  | 0x20 => (x.stopWord 2).toNat
  | 0x28 => x.tcount.toNat
  | 0x2C => x.exit.toNat
  | 0x30 => x.stall.toNat
  | _ => 0

/-- A write of a director's register. -/
def dirWr (x : Dir) (off v : Nat) : Dir :=
  match off with
  | 0x00 => { x with faulted := x.faulted && !bit v 2, wrBusy := x.wrBusy && !bit v 4 }
  | 0x28 => if x.st = .idle then { x with tcount := BitVec.ofNat 32 v } else { x with wrBusy := true }
  | _ => x

/-- A read of a grader register. -/
def grdRd (g : Grd) (off : Nat) : Nat :=
  match off with
  | 0x000 => g.ctrs.read
  | 0x004 => b2n g.clipHit
  | 0x008 => g.thresh.toNat
  | _ => if 0x010 ≤ off ∧ off < 0x030 then g.ctrs.snapAt ((off - 0x010) / 8) else 0

/-- A write of a grader register. -/
def grdWr (g : Grd) (off v : Nat) : Grd :=
  match off with
  | 0x000 => { g with ctrs := g.ctrs.write 0x0FFF0003 v }
  | 0x004 => { g with clipHit := g.clipHit && !bit v 0 }
  | 0x008 => { g with thresh := BitVec.ofNat 16 v }
  | _ => g

/-! ### The map of the space (R398 to R400) -/

/-- The block of an offset, numbered down the table of R398, and its base; 19 is the reserved range. -/
def regBlock (off : Nat) : Nat × Nat :=
  if off < 0x8000 then (0, 0)
  else if off < 0x18000 then (off / 0x1000 - 7, off / 0x1000 * 0x1000)
  else if off < 0x20000 then (17, 0x18000)
  else if off < 0x60000 then (18, 0x20000)
  else (19, 0x60000)

/-- A block's bit in LE_RST_RESTART (R398). -/
def restartBit : Nat → Option Nat
  | 3 | 4 => some 0
  | 7 => some 1
  | 8 => some 2
  | 9 => some 3
  | 10 => some 4
  | 11 => some 5
  | 12 => some 6
  | 13 => some 8
  | 14 => some 7
  | 16 => some 9
  | _ => none

/-- The offset is the low word of a 64-bit pair (R4). -/
def isPair (off : Nat) : Bool :=
  let (b, base) := regBlock off
  let o := off - base
  let snap (lo hi : Nat) : Bool := decide (lo ≤ o) && decide (o < hi) && o % 8 == 0
  match b with
  | 2 => o == 0x10 || (decide (0x200 ≤ o) && decide (o < 0xE00) && [0x08, 0x10, 0x18, 0x20].contains (o % 0x40))
  | 3 => decide (o < 0xA00) && o % 0x20 == 0
  | 4 => decide (o < 0x200) && [0x08, 0x10, 0x18, 0x20].contains (o % 0x40)
  | 5 => [0x00, 0x10, 0x18].contains o
  | 6 => snap 0x10 0x30
  | 7 => snap 0x18 0x48
  | 8 => snap 0x10 0x30
  | 9 => o == 0x08 || snap 0x18 0x38
  | 10 => snap 0x10 0x30
  | 11 => o == 0x10 || o == 0x18 || snap 0x30 0x70
  | 12 => o == 0x10 || o == 0x60 || snap 0x70 0x90
  | 13 => o == 0x00 || snap 0x80 0xA8
  | 14 => snap 0x40 0x80
  | 15 => [0x10, 0x18, 0x20, 0x30].contains o
  | 16 => [0x10, 0x18, 0x20, 0x28, 0x40, 0x60, 0x68, 0x70].contains o
  | 17 => decide (o < 0x4000) && o % 0x40 == 0x30
  | 18 => decide (o < 0x20000) && o % 8 == 0
  | _ => false

/-- The target that checks an access and its unit there (R400): the sampler's and the clappers' blocks, but for their status registers,
have their own. DESIGN CHOICE, log 147: behind their streams and clappers the units count on. -/
def regTarget (off : Nat) : Nat × Nat :=
  if 0x18000 ≤ off ∧ off < 0x20000 ∧ off ≠ 0x1C000 then (2, (off - 0x18000) / 64)
  else if 0x20000 ≤ off ∧ off < 0x40000 then (1, (off - 0x20000) % 0x10000 / 8)
  else if 0x40008 ≤ off ∧ off < 0x60000 then (1, (off - 0x20000) / 8)
  else (0, off)

/-- The value a register read finds: 64 bits at a pair's low word, else 32. -/
def State.blkRd (s : State) (off : Nat) : Nat :=
  let e := s.eng
  let (b, base) := regBlock off
  let o := off - base
  match b with
  | 0 => s.aoRd o
  | 1 => fltRd e.flt o
  | 2 => accRd e.acc o
  | 3 => e.feRd o
  | 4 => if o < 0x200 then dirRd (e.dir (o / 0x40)) (o % 0x40) else 0
  | 5 => e.tblRd o
  | 6 => grdRd e.grd o
  | 7 => e.glnRd o
  | 8 => wrRd e.wr o
  | 9 => swpRd e.swp (decide (s.ao.allow < 130560)) o
  | 10 => tedRd e.ted o
  | 11 => swdRd e.swd e.map o
  | 12 => mpRd e.mp o
  | 13 => hcRd e.hc o
  | 14 => e.zwRd o
  | 15 => hthRd e.hth o
  | 16 => tkRd e.tk o
  | 17 => smpRd e.smp o
  | 18 => e.clpRd o
  | _ => 0xFFFFFFFF

/-- What a register read changes: rc registers clear (R6), an uncorrectable retained word is noted. -/
def State.afterRd (s : State) (off : Nat) : State :=
  let e := s.eng
  let (b, base) := regBlock off
  let o := off - base
  match b with
  | 0 => s.aoAfterRd o
  | 1 => if o = 0x008 then { s with eng := { e with flt := { e.flt with corr := 0 } } } else s
  | 2 => if o = 0x00C then { s with eng := { e with acc := { e.acc with denyCnt := 0 } } } else s
  | 3 =>
    if 0x800 ≤ o ∧ o < 0xA00 ∧ o % 0x20 = 0x14 then
      { s with eng := e.onMreel ((o - 0x800) / 0x20) fun r => { r with lost := 0 } }
    else s
  | 4 => if o < 0x200 ∧ o % 0x40 = 0x30 then { s with eng := e.onDir (o / 0x40) fun x => { x with stall := 0 } } else s
  | 18 => if o = 0x20004 then { s with eng := { e with clp := { e.clp with dropCnt := 0 } } } else s
  | _ => s

/-- Every message reel writes what it owes, when a write of the regions, the enforcement or the memory map may let a denied record
pass (R89). DESIGN CHOICE, log 182. -/
def Eng.flushAll (e : Eng) : Eng := (List.range 16).foldl (fun e m => e.flush m) e

/-- A register write: 64 bits at a pair's low word, else 32. `homeBad` lists the entries whose home rows fail their checks, where
the write starts a comparison (R64), and is none where the access does not say (log 72); `keepLow` says that no low word was written. -/
def State.blkWr (s : State) (m : Fin 64) (off v : Nat) (homeBad : Option (List Nat) := none) (keepLow : Bool := false) : State :=
  let e := s.eng
  let (b, base) := regBlock off
  let o := off - base
  let eng (e : Eng) : State := { s with eng := e }
  match b with
  | 0 => s.aoWr o v
  | 1 => eng { e with flt := fltWr e.flt o v }
  | 2 =>
    let e : Eng := { e with acc := accWr e.acc o v }
    eng (if o = 0x004 then e else e.flushAll)
  | 3 => eng (e.feWr o v)
  | 4 => if o < 0x200 then eng (e.onDir (o / 0x40) fun x => dirWr x (o % 0x40) v) else s
  | 5 => eng (e.tblWr o v homeBad)
  | 6 => eng { e with grd := grdWr e.grd o v }
  | 7 => eng { e with gln := glnWr e.gln o v }
  | 8 => eng { e with wr := wrWr e.wr o v }
  | 9 => eng { e with swp := swpWr e.swp o v }
  | 10 => eng { e with ted := tedWr e.ted o v }
  | 11 => eng (e.swdWr o v)
  | 12 =>
    let e : Eng := { e with mp := mpWr e.mp o v }
    eng (if o < 0x010 then e else e.flushAll)
  | 13 => eng { e with hc := hcWr e.hc o v }
  | 14 => eng (e.zwWr o v)
  | 15 => eng (e.hthWr s.ao.fwBad o v)
  | 16 => eng (e.tkWr o v)
  | 17 => eng { e with smp := smpWr e.smp o v }
  | 18 => eng (e.clpWr m o v keepLow)
  | _ => s

/-! ### Accesses (R4, R5, R401, R402) -/

/-- A pair's latch of one master (R5). -/
def latchKey (m : Fin 64) (off : Nat) : Nat := m.val * 2 ^ 20 + off

/-- Changes a latch. -/
def State.onLatch (s : State) (m : Fin 64) (off : Nat) (f : PairLatch → PairLatch) : State :=
  { s with eng := { s.eng with port := { s.eng.port with latches := s.eng.port.latches.modify {} (latchKey m off) f } } }

/-- A master's latch for a pair. -/
def State.latch (s : State) (m : Fin 64) (off : Nat) : PairLatch := s.eng.port.latches.get {} (latchKey m off)

/-- The answer to a read (R4). -/
def State.respond (s : State) (m : Fin 64) (v : Nat) : State :=
  { s with eng := { s.eng with port := { s.eng.port with resp := some { master := m, data := BitVec.ofNat 64 v } } } }

/-- How an access ends: performed with what a read returned, denied, or waiting. -/
inductive AccOut where
  | done (data : Nat)
  | denied
  | waits
  deriving DecidableEq, Repr

/-- Performs a granted access at its block (R5, R6). -/
def State.perform (s : State) (m : Fin 64) (off : Nat) (a : RegAcc) (homeBad : Option (List Nat) := none) : State × Nat :=
  match a with
  | .wr64 v => ((s.onLatch m off fun l => { l with wr := none }).blkWr m off v.toNat, 0)
  | .rd64 => (s, s.blkRd off)
  | .wr32 v =>
    if isPair off then (s.onLatch m off fun l => { l with wr := some v }, 0)
    else if 4 ≤ off ∧ isPair (off - 4) then
      let (lo, own) := match (s.latch m (off - 4)).wr with
        | some w => (w.toNat, false)
        | none => (s.blkRd (off - 4) % 2 ^ 32, true)
      ((s.onLatch m (off - 4) fun l => { l with wr := none }).blkWr m (off - 4) (v.toNat * 2 ^ 32 + lo) none own, 0)
    else (s.blkWr m off v.toNat homeBad, 0)
  | .rd32 =>
    if isPair off then
      let v := s.blkRd off
      (s.onLatch m off fun l => { l with rd := some (BitVec.ofNat 32 (v / 2 ^ 32)) }, v % 2 ^ 32)
    else if 4 ≤ off ∧ isPair (off - 4) then
      (s, match (s.latch m (off - 4)).rd with
        | some w => w.toNat
        | none => s.blkRd (off - 4) / 2 ^ 32 % 2 ^ 32)
    else (s.afterRd off, s.blkRd off % 2 ^ 32)
  | .bad _ => (s, 0)

/-- The access writes. -/
def RegAcc.writes : RegAcc → Bool
  | .wr32 _ | .wr64 _ => true
  | .bad w => w
  | _ => false

/-- Bytes of the access. -/
def RegAcc.size : RegAcc → Nat
  | .wr32 _ | .rd32 => 4
  | _ => 8

/-- The check of an access (R399, R400, R350): no target in the reserved range; its target's regions; the lock of the access
block. -/
def Eng.regCheck (e : Eng) (m : Fin 64) (off : Nat) (a : RegAcc) : Eng × Bool :=
  if 0x60000 ≤ off then (e.deny m 0 (!a.writes) a.writes false off, false)
  else
    let (t, u) := regTarget off
    match e.check t m (!a.writes) a.writes u (if t = 0 then a.size else 1) with
    | (e, false) => (e, false)
    | (e, true) =>
      if a.writes ∧ (regBlock off).1 = 2 ∧ e.acc.lock ∧ m.val ≠ e.acc.cfgMaster.toNat then (e.deny m 0 false true false off, false)
      else (e, true)

/-- The block of an offset is restarting (R402). -/
def Eng.regBusy (e : Eng) (off : Nat) : Bool := (restartBit (regBlock off).1).any e.busy

/-- Performs an access on behalf of the work of a reel's command, so that its messages go to that reel's message reel (R87). -/
def State.performFor (s : State) (work : Option (Fin 64)) (m : Fin 64) (off : Nat) (a : RegAcc)
    (homeBad : Option (List Nat)) : State × Nat :=
  match work with
  | none => s.perform m off a homeBad
  | some r =>
    let (t, v) := ({ s with eng := { s.eng with fe := { s.eng.fe with cause := some r } } } : State).perform m off a homeBad
    ({ t with eng := { t.eng with fe := { t.eng.fe with cause := none } } }, v)

/-- Something of the master's has not taken effect yet (R401): an access that waits, or a clapper commit at its bank. -/
def Eng.portHeld (e : Eng) (m : Fin 64) : Bool :=
  (e.port.waiting.any fun w => w.master == m) || e.clp.queues.any fun q => q.2.any fun r => r.req == 9 && r.master == m

/-- A read of a clapper's value waits behind the port's own operations on it (R344). -/
def Eng.readHeld (e : Eng) (off : Nat) (a : RegAcc) : Bool :=
  !a.writes && decide (0x20000 ≤ off) && decide (off < 0x30000) && e.clpHeld 9 ((off - 0x20000) / 8)

/-- An access with nothing of its master before it (R401, R402): refused for its size or alignment (R4); or checked, then performed, or
kept while its block restarts or the port's own operations on the clapper that it reads wait. -/
def State.serve (s : State) (m : Fin 64) (off : Nat) (a : RegAcc) (passed : Bool) (homeBad : Option (List Nat))
    (work : Option (Fin 64)) : State × AccOut :=
  match a with
  | .bad w => ({ s with eng := s.eng.deny m (regTarget off).1 (!w) w true off }, .denied)
  | _ =>
    let (e, ok) := if passed then (s.eng, true) else s.eng.regCheck m off a
    let s : State := { s with eng := e }
    if !ok then (s, .denied)
    else if (a.writes && e.regBusy off) || e.readHeld off a then (s, .waits)
    else
      let (s, v) := s.performFor work m off a homeBad
      (s, .done v)

/-- Keeps an access waiting. -/
def State.wait (s : State) (w : WaitAcc) : State :=
  { s with eng := { s.eng with port := { s.eng.port with waiting := s.eng.port.waiting ++ [w] } } }

/-- The access is of a size and an alignment that R4 allows. -/
def RegAcc.good : RegAcc → Bool
  | .bad _ => false
  | _ => true

/-- An access while the islands are held (R364, R377, R384): of the always-on block reads are served, and from the first configured state
on its writes too and its regions at REG decide. DESIGN CHOICE, log 137: no denial is recorded while the access block is held. -/
def State.accessHeld (s : State) (m : Fin 64) (off : Nat) (a : RegAcc) : State × AccOut :=
  if !a.good || decide (0x8000 ≤ off) then (s, .denied)
  else if s.ao.phase ≠ .configured then if a.writes then (s, .denied) else (s.aoAfterRd off, .done (s.aoRd off))
  else if (s.eng.acc.firstDenied 0 m (!a.writes) a.writes off a.size).isSome then (s, .denied)
  else
    let (s, v) := s.perform m off a
    (s, .done v)

/-- An access of a master (R4, R401, R402). -/
def State.access (s : State) (m : Fin 64) (off : Nat) (a : RegAcc) (homeBad : Option (List Nat) := none) (dbg : Bool := false)
    (cfg : Option (Fin 64 × W24 × Nat) := none) : State × AccOut :=
  if !s.runs then s.accessHeld m off a
  else if s.eng.portHeld m then (s.wait { master := m, off := off, acc := a, passed := false, dbg := dbg, cfg := cfg }, .waits)
  else match s.serve m off a false homeBad (cfg.map (·.1)) with
    | (s, .waits) => (s.wait { master := m, off := off, acc := a, passed := true, dbg := dbg, cfg := cfg }, .waits)
    | x => x

/-- The answer to an access that waited: to the carrier's port, or to DBG_REG (R6, R383). -/
def State.answer (s : State) (w : WaitAcc) (v : Nat) (denied : Bool) : State :=
  if w.dbg then
    let d : W32 := if w.acc.writes then s.ao.dbgData else BitVec.ofNat 32 v
    { s with ao := { s.ao with dbgDone := true, dbgDenied := denied, dbgData := d } }
  else if w.acc.writes then s
  else s.respond w.master v

/-- The writes of a CONFIG command from one on, in body order (R81): the first denied one stops it, and one that waits holds the later
ones back. -/
def State.configRun (s : State) (n : Fin 64) (count : W24) (k : Nat) : Nat → State
  | 0 => { s with eng := s.eng.finishCmd n count 0 0 0 }
  | left + 1 =>
    match (s.eng.reel n).inflight.find? fun c => c.count == count && c.phase == .running with
    | none => s
    | some c =>
      match s.access c.master (le c.body (8 + 8 * k) 4) (.wr32 (BitVec.ofNat 32 (le c.body (12 + 8 * k) 4)))
        (cfg := some (n, count, k)) with
      | (s, .denied) => { s with eng := s.eng.finishCmd n count 3 0 0 }
      | (s, .waits) => s
      | (s, .done _) => s.configRun n count (k + 1) left

/-- A CONFIG command goes on after a write of it that waited (R81). -/
def State.configGo (s : State) (x : (Fin 64 × W24 × Nat) × Bool) : State :=
  let (n, count, k) := x.1
  match (s.eng.reel n).inflight.find? fun c => c.count == count && c.phase == .running with
  | none => s
  | some c =>
    if x.2 then s.configRun n count (k + 1) (le c.body 0 1 - (k + 1)) else { s with eng := s.eng.finishCmd n count 3 0 0 }

/-- The waiting accesses are tried again, in arrival order, each behind those of its master (R401, R402). Answers the CONFIG writes that
ended, and whether each was granted. -/
def State.drainWaiting (s : State) : List WaitAcc → State × List ((Fin 64 × W24 × Nat) × Bool)
  | [] => (s, [])
  | w :: ws =>
    if s.eng.portHeld w.master then (s.wait w).drainWaiting ws
    else match s.serve w.master w.off w.acc w.passed none (w.cfg.map (·.1)) with
      | (s, .waits) => (s.wait { w with passed := true }).drainWaiting ws
      | (s, .denied) =>
        let (s, cs) := (s.answer w 0xFFFFFFFF true).drainWaiting ws
        (s, (w.cfg.toList.map fun c => (c, false)) ++ cs)
      | (s, .done v) =>
        let (s, cs) := (s.answer w v false).drainWaiting ws
        (s, (w.cfg.toList.map fun c => (c, true)) ++ cs)

/-- What waits at the register port is tried again, and the CONFIG commands whose writes ended go on. -/
def State.drainPort (s : State) : State :=
  let ws := s.eng.port.waiting
  let (s, cs) := ({ s with eng := { s.eng with port := { s.eng.port with waiting := [] } } } : State).drainWaiting ws
  cs.foldl State.configGo s

/-- A 32-bit register write (R4). -/
def State.regWr (s : State) (m : Fin 64) (off : Nat) (v : W32) : State := (s.access m off (.wr32 v)).1

/-- A 64-bit write of a pair (R5). -/
def State.regWr64 (s : State) (m : Fin 64) (off : Nat) (v : W64) : State := (s.access m off (.wr64 v)).1

/-- A 32-bit register read and its answer (R4, R352). -/
def State.regRd (s : State) (m : Fin 64) (off : Nat) : State :=
  match s.access m off .rd32 with
  | (s, .done v) => s.respond m v
  | (s, .denied) => s.respond m 0xFFFFFFFF
  | (s, .waits) => s

/-- BLOCK_RESTART_RELEASE (R371, R402, R403): the block returns, its latches are dropped, one message is posted, and the
writes that waited take effect. -/
def execBlockRestartRelease (b : Fin 10) (s : State) : Host.Outcome State Fault Refusal :=
  .next (match s.runs, s.eng.rs.get none b with
    | true, some (.inReset expired work) =>
      let e := s.eng.restartBlock b
      let mine (k : Nat) : Bool := restartBit (regBlock (k % 2 ^ 20)).1 == some b.val
      let port := { e.port with latches := e.port.latches.filter (fun l => !mine l.1) }
      let e : Eng := { e with rs := e.rs.set none b none, port := port }
      -- what waited for the block to return goes on (R143, R294)
      let e := (e.serveFill.unblock).restartMsg b expired work
      ({ s with eng := e } : State).drainPort
    | _, _ => s)

/-! ### The commands that access registers -/

/-- REGISTER_WRITE (R6). A misaligned offset is REGISTER_ACCESS_BAD_SIZE's. -/
def execRegisterWrite (m : Fin 64) (off : BitVec 20) (v : W32) (s : State) : Host.Outcome State Fault Refusal :=
  .next (if off.toNat % 4 = 0 then s.regWr m off.toNat v else s)

/-- REGISTER_ACCESS_BAD_SIZE (R4): no effect, 0xFFFF_FFFF to a reader, and from the first configured state a denial with the size bit at the
block's target, in its turn among the master's accesses (R401). An access that R4 allows is none. -/
def execRegisterAccessBadSize (m : Fin 64) (off : BitVec 20) (size : Nat) (write : Bool) (s : State) :
    Host.Outcome State Fault Refusal :=
  let o := off.toNat
  let good := (size == 4 && o % 4 == 0) || (size == 8 && o % 8 == 0 && isPair o)
  if good then .next s
  else match s.access m o (.bad write) with
    | (s, .denied) => .next (if write then s else s.respond m 0xFFFFFFFF)
    | (s, _) => .next s

/-- REGISTER_ACCESS_NO_TARGET (R399). -/
def execRegisterAccessNoTarget (m : Fin 64) (off : BitVec 20) (write : Bool) (s : State) :
    Host.Outcome State Fault Refusal :=
  .next (if off.toNat < 0x60000 ∨ off.toNat % 4 ≠ 0 then s
    else if write then s.regWr m off.toNat 0 else s.regRd m off.toNat)

/-- PAIR_LOW_WORD_READ (R5). -/
def execPairLowWordRead (m : Fin 64) (off : BitVec 20) (s : State) : Host.Outcome State Fault Refusal :=
  .next (if isPair off.toNat then s.regRd m off.toNat else s)

/-- PAIR_HIGH_WORD_WRITE (R5): `off` is the pair's high word. -/
def execPairHighWordWrite (m : Fin 64) (off : BitVec 20) (v : W32) (s : State) : Host.Outcome State Fault Refusal :=
  .next (if 4 ≤ off.toNat ∧ isPair (off.toNat - 4) then s.regWr m off.toNat v else s)

/-- BLOCK_RESTART_REQUEST (R371): a write of LE_RST_RESTART. -/
def execBlockRestartRequest (m : Fin 64) (v : W32) (s : State) : Host.Outcome State Fault Refusal :=
  .next (s.regWr m 0x00008 v)

/-- DENY_VALID_CLEAR (R353). -/
def execDenyValidClear (m : Fin 64) (s : State) : Host.Outcome State Fault Refusal := .next (s.regWr m 0x09004 1)

/-- ACC_CTL_LOCK (R350): a write of LE_ACC_CTL with lock set. -/
def execAccCtlLock (m : Fin 64) (v : W32) (s : State) : Host.Outcome State Fault Refusal :=
  .next (s.regWr m 0x09000 (v ||| 0x40))

/-- ACC_DENY_CNT_READ (R353). -/
def execAccDenyCntRead (m : Fin 64) (s : State) : Host.Outcome State Fault Refusal := .next (s.regRd m 0x0900C)

/-- FLT_CORR_READ (R389). -/
def execFltCorrRead (m : Fin 64) (s : State) : Host.Outcome State Fault Refusal := .next (s.regRd m 0x08008)

/-- DIR_STALL_READ (R107). -/
def execDirStallRead (m : Fin 64) (d : Fin 8) (s : State) : Host.Outcome State Fault Refusal :=
  .next (s.regRd m (0x0B030 + 0x40 * d.val))

/-- CLP_DROPPED_READ (R346). -/
def execClpDroppedRead (m : Fin 64) (s : State) : Host.Outcome State Fault Refusal := .next (s.regRd m 0x40004)

/-- The counter control register of a block (R43). -/
def ctlOf : CtrBlk → Nat
  | .grd => 0x0D000 | .gln => 0x0E000 | .wr => 0x0F000 | .swp => 0x10000 | .ted => 0x11000
  | .swd => 0x12008 | .mp => 0x13000 | .hc => 0x14014 | .zw => 0x15000

/-- COUNTER_SNAP (R43): a write of the block's counter control with snap set. -/
def execCounterSnap (m : Fin 64) (b : CtrBlk) (v : W32) (s : State) : Host.Outcome State Fault Refusal :=
  .next (s.regWr m (ctlOf b) (v ||| 4))

/-- COUNTER_CLEAR (R43): a write of the block's counter control with clear set. -/
def execCounterClear (m : Fin 64) (b : CtrBlk) (v : W32) (s : State) : Host.Outcome State Fault Refusal :=
  .next (s.regWr m (ctlOf b) (v ||| 8))

/-- MAP_COMMIT (R54). -/
def execMapCommit (m : Fin 64) (s : State) : Host.Outcome State Fault Refusal := .next (s.regWr m 0x0C024 1)

/-- MAP_STAGED_BASE_WRITE (R59). -/
def execMapStagedBaseWrite (m : Fin 64) (v : W64) (s : State) : Host.Outcome State Fault Refusal :=
  .next (s.regWr64 m 0x0C010 v)

/-- REP_CHECK (R64). -/
def execRepCheck (m : Fin 64) (homeBad : List Nat) (s : State) : Host.Outcome State Fault Refusal :=
  .next (s.access m 0x0C024 (.wr32 2) (some homeBad)).1

/-- REEL_DOORBELL (R71). -/
def execReelDoorbell (m n : Fin 64) (v : W32) (s : State) : Host.Outcome State Fault Refusal :=
  .next (s.regWr m (0x0A00C + 0x20 * n.val) v)

/-- REEL_CFG_WRITE (R91). -/
def execReelCfgWrite (m n : Fin 64) (v : W32) (s : State) : Host.Outcome State Fault Refusal :=
  .next (s.regWr m (0x0A008 + 0x20 * n.val) v)

/-- REEL_RD_WRITE (R91). -/
def execReelRdWrite (m n : Fin 64) (v : W32) (s : State) : Host.Outcome State Fault Refusal :=
  .next (s.regWr m (0x0A014 + 0x20 * n.val) v)

/-- REEL_BASE_WRITE (R91). -/
def execReelBaseWrite (m n : Fin 64) (v : W64) (s : State) : Host.Outcome State Fault Refusal :=
  .next (s.regWr64 m (0x0A000 + 0x20 * n.val) v)

/-- MREEL_CFG_WRITE (R405). -/
def execMreelCfgWrite (m : Fin 64) (n : Fin 16) (v : W32) (s : State) : Host.Outcome State Fault Refusal :=
  .next (s.regWr m (0x0A808 + 0x20 * n.val) v)

/-- MREEL_RD_WRITE (R90, R91). -/
def execMreelRdWrite (m : Fin 64) (n : Fin 16) (v : W32) (s : State) : Host.Outcome State Fault Refusal :=
  .next (s.regWr m (0x0A810 + 0x20 * n.val) v)

/-- MREEL_LOST_READ (R89). -/
def execMreelLostRead (m : Fin 64) (n : Fin 16) (s : State) : Host.Outcome State Fault Refusal :=
  .next (s.regRd m (0x0A814 + 0x20 * n.val))

/-- CONFIG (R81), under the reel's master. -/
def execConfig (n : Fin 64) (s : State) : Host.Outcome State Fault Refusal :=
  .next (if !s.runs || s.eng.busy 0 then s
    else match (s.eng.reel n).ready 8 with
      | none => s
      | some c => ({ s with eng := s.eng.runCmd n c } : State).configRun n c.count 0 (le c.body 0 1))

/-- CLAPPER_BANK_OPERATION (R354, R401): what waits at the register port for the bank goes on after it. -/
def execClapperBankOperation (bank : Fin 16) (pres : List ClpPres) (s : State) : Host.Outcome State Fault Refusal :=
  .next (if s.runs then ({ s with eng := s.eng.bankOperation bank pres } : State).drainPort else s)

/-- CLP_VAL_COMMIT (R343): a 64-bit write of the value pair. -/
def execClpValCommit (m : Fin 64) (n : Fin 8192) (v : W64) (s : State) : Host.Outcome State Fault Refusal :=
  .next (s.regWr64 m (0x20000 + 8 * n.val) v)

/-- CLP_ADD_COMMIT (R343): a 64-bit write of the add alias. -/
def execClpAddCommit (m : Fin 64) (n : Fin 8192) (v : W64) (s : State) : Host.Outcome State Fault Refusal :=
  .next (s.regWr64 m (0x30000 + 8 * n.val) v)

/-- SMP_KEY_COMMIT (R358): the write of word 3 of K. -/
def execSmpKeyCommit (m : Fin 64) (x : Fin 256) (v : W32) (s : State) : Host.Outcome State Fault Refusal :=
  .next (s.regWr m (0x1800C + 0x40 * x.val) v)

/-- SMP_CTR_COMMIT (R358): the write of word 3 of C. -/
def execSmpCtrCommit (m : Fin 64) (x : Fin 256) (v : W32) (s : State) : Host.Outcome State Fault Refusal :=
  .next (s.regWr m (0x1801C + 0x40 * x.val) v)

/-- SWARD_ENABLE (R237). -/
def execSwardEnable (m : Fin 64) (v : W32) (s : State) : Host.Outcome State Fault Refusal :=
  .next (s.regWr m 0x12000 (v ||| 1))

/-- SWARD_DISABLE (R238). -/
def execSwardDisable (m : Fin 64) (v : W32) (s : State) : Host.Outcome State Fault Refusal :=
  .next (s.regWr m 0x12000 (v &&& 0xFFFFFFFE))

/-- INVALIDATE_ALL (R239). -/
def execInvalidateAll (m : Fin 64) (s : State) : Host.Outcome State Fault Refusal := .next (s.regWr m 0x1200C 1)
/-- WRITE_BACK_ALL (R239). -/
def execWriteBackAll (m : Fin 64) (s : State) : Host.Outcome State Fault Refusal := .next (s.regWr m 0x1200C 2)
/-- FLUSH_ALL (R239). -/
def execFlushAll (m : Fin 64) (s : State) : Host.Outcome State Fault Refusal := .next (s.regWr m 0x1200C 3)
/-- WRITE_BACK_RANGE (R239). -/
def execWriteBackRange (m : Fin 64) (s : State) : Host.Outcome State Fault Refusal := .next (s.regWr m 0x1200C 4)
/-- INVALIDATE_RANGE (R239). -/
def execInvalidateRange (m : Fin 64) (s : State) : Host.Outcome State Fault Refusal := .next (s.regWr m 0x1200C 5)
/-- FLUSH_RANGE (R239). -/
def execFlushRange (m : Fin 64) (s : State) : Host.Outcome State Fault Refusal := .next (s.regWr m 0x1200C 6)

/-- HW_BASE_COMMIT (R260). -/
def execHwBaseCommit (m : Fin 64) (v : W64) (s : State) : Host.Outcome State Fault Refusal := .next (s.regWr64 m 0x14000 v)
/-- RA_DROP (R259). -/
def execRaDrop (m : Fin 64) (s : State) : Host.Outcome State Fault Refusal := .next (s.regWr m 0x1400C 1)
/-- HW_CFG_WRITE (R259). -/
def execHwCfgWrite (m : Fin 64) (v : W32) (s : State) : Host.Outcome State Fault Refusal := .next (s.regWr m 0x14008 v)

/-- PORT_ENABLE (R278, R283): a write of LE_ZW_PORT_CFG. -/
def execPortEnable (m : Fin 64) (p : Fin 8) (v : W32) (s : State) : Host.Outcome State Fault Refusal :=
  .next (s.regWr m (0x15800 + 0x20 * p.val) v)
/-- KEY_LOAD (R286): a write of LE_ZW_KEY_CTL with load set. -/
def execKeyLoad (m : Fin 64) (v : W32) (s : State) : Host.Outcome State Fault Refusal :=
  .next (s.regWr m 0x15010 ((v &&& 0xF) ||| 0x10))
/-- KEY_SWITCH (R286): a write of LE_ZW_KEY_CTL with switch set. -/
def execKeySwitch (m : Fin 64) (v : W32) (s : State) : Host.Outcome State Fault Refusal :=
  .next (s.regWr m 0x15010 ((v &&& 0xF) ||| 0x20))

/-- JOIN (R299): a write of LE_HTH_CTL. -/
def execJoin (m : Fin 64) (s : State) : Host.Outcome State Fault Refusal := .next (s.regWr m 0x16008 1)
/-- REHOME (R313): a write of LE_HTH_CTL. -/
def execRehome (m : Fin 64) (s : State) : Host.Outcome State Fault Refusal := .next (s.regWr m 0x16008 2)

/-- AREA_FREE_WRITE (R324). -/
def execAreaFreeWrite (m : Fin 64) (mirror : Bool) (v : W32) (s : State) : Host.Outcome State Fault Refusal :=
  .next (s.regWr m (if mirror then 0x1704C else 0x17034) v)
/-- LOAD_POSITION (R335): loader operation 1. -/
def execLoadPosition (m : Fin 64) (v : W32) (s : State) : Host.Outcome State Fault Refusal :=
  .next (s.regWr m 0x17054 ((v &&& 0x3FFF8) ||| 1))
/-- APPLY_TAKE (R335): loader operation 2. -/
def execApplyTake (m : Fin 64) (v : W32) (s : State) : Host.Outcome State Fault Refusal :=
  .next (s.regWr m 0x17054 ((v &&& 0x3FFF8) ||| 2))
/-- SET_SCHEDULE_STATE (R337): loader operation 3. -/
def execSetScheduleState (m : Fin 64) (v : W32) (s : State) : Host.Outcome State Fault Refusal :=
  .next (s.regWr m 0x17054 ((v &&& 0x3FFF8) ||| 3))
/-- TK_CTL_WRITE (R323). -/
def execTkCtlWrite (m : Fin 64) (v : W32) (s : State) : Host.Outcome State Fault Refusal := .next (s.regWr m 0x17000 v)

/-! ### DBG_REG (R383) -/

/-- DBG_REG_UPDATE (R382, R383): with DBG_REG selected, one aligned 32-bit access under dbg_master while dbg_en is 1. An offset outside
the space or misaligned is answered as R4 and R399 say. Update-DR of another register has no effect. -/
def execDbgRegUpdate (ir : Option Byte) (data off : W32) (write : Bool) (s : State) : Host.Outcome State Fault Refusal :=
  let s : State := { s with ao := s.ao.scanIr ir }
  if tapSel s.ao.tapIr ≠ .dbgReg ∨ !s.ao.dbgCfg.getLsbD 0 then .next s
  else
    let m : Fin 64 := ⟨fld s.ao.dbgCfg.toNat 1 6, by unfold fld; exact Nat.mod_lt _ (by decide)⟩
    let o := off.toNat
    let acc : RegAcc := if write then .wr32 data else .rd32
    let (s, out) : State × AccOut := s.access m o (if o % 4 = 0 then acc else .bad write) (dbg := true)
    let val : W32 := match out with
      | .done v => if write then data else BitVec.ofNat 32 v
      | .denied => if write then data else 0xFFFFFFFF
      | .waits => data
    let reg : BitVec 72 := BitVec.ofNat 72 (data.toNat + o * 2 ^ 32 + b2n write * 2 ^ 64)
    .next { s with ao := { s.ao with dbgData := val, dbgDone := out != .waits, dbgDenied := out == .denied, dbgReg := reg } }

/-- DBG_REG_CAPTURE (R382, R383): Capture-DR of the selected register. -/
def execDbgRegCapture (ir : Option Byte) (s : State) : Host.Outcome State Fault Refusal :=
  .next { s with ao := (s.ao.scanIr ir).captureDr }

end Sys2Proof.Machine
end

