-- ==== Sys2Proof/Machine/Dispatch.lean ====
section
/-! DEFINITION. One arm per command and event, in the order of spec/opcode_table.json, each one call of its meaning. -/

namespace Sys2Proof.Machine

open Sys2Proof

def exec (i : Instr) (s : State) : Host.Outcome State Fault Refusal :=
  match i with
  | .powerOnReset => Sys2Proof.Machine.execPowerOnReset s
  | .leRstNAssert low => Sys2Proof.Machine.execLeRstNAssert low s
  | .resetRelease => Sys2Proof.Machine.execResetRelease s
  | .optionLoadAttemptEnd => Sys2Proof.Machine.execOptionLoadAttemptEnd s
  | .pllLock => Sys2Proof.Machine.execPllLock s
  | .firmwareCheckEnd hdrOk crcOk sigOk version => Sys2Proof.Machine.execFirmwareCheckEnd hdrOk crcOk sigOk version s
  | .clockFailure => Sys2Proof.Machine.execClockFailure s
  | .gafferEvaluation power pFixed readings => Sys2Proof.Machine.execGafferEvaluation power pFixed readings s
  | .thermalCapStep readings => Sys2Proof.Machine.execThermalCapStep readings s
  | .holdLimitExpiry => Sys2Proof.Machine.execHoldLimitExpiry s
  | .blockRestartRequest m v => Sys2Proof.Machine.execBlockRestartRequest m v s
  | .blockIdle b => Sys2Proof.Machine.execBlockIdle b s
  | .idleTimeoutExpiry b => Sys2Proof.Machine.execIdleTimeoutExpiry b s
  | .blockRestartRelease b => Sys2Proof.Machine.execBlockRestartRelease b s
  | .internalStorageError cls inst err => Sys2Proof.Machine.execInternalStorageError cls inst err s
  | .optionAreaWriteEnd => Sys2Proof.Machine.execOptionAreaWriteEnd s
  | .tapReset tck => Sys2Proof.Machine.execTapReset tck s
  | .dbgRegUpdate ir data off write => Sys2Proof.Machine.execDbgRegUpdate ir data off write s
  | .dbgRegCapture ir => Sys2Proof.Machine.execDbgRegCapture ir s
  | .registerWrite m off v => Sys2Proof.Machine.execRegisterWrite m off v s
  | .registerAccessBadSize m off size write => Sys2Proof.Machine.execRegisterAccessBadSize m off size write s
  | .registerAccessNoTarget m off write => Sys2Proof.Machine.execRegisterAccessNoTarget m off write s
  | .pairLowWordRead m off => Sys2Proof.Machine.execPairLowWordRead m off s
  | .pairHighWordWrite m off v => Sys2Proof.Machine.execPairHighWordWrite m off v s
  | .denyValidClear m => Sys2Proof.Machine.execDenyValidClear m s
  | .accCtlLock m v => Sys2Proof.Machine.execAccCtlLock m v s
  | .accDenyCntRead m => Sys2Proof.Machine.execAccDenyCntRead m s
  | .fltCorrRead m => Sys2Proof.Machine.execFltCorrRead m s
  | .dirStallRead m d => Sys2Proof.Machine.execDirStallRead m d s
  | .clpDroppedRead m => Sys2Proof.Machine.execClpDroppedRead m s
  | .counterSnap m b v => Sys2Proof.Machine.execCounterSnap m b v s
  | .counterClear m b v => Sys2Proof.Machine.execCounterClear m b v s
  | .mapCommit m => Sys2Proof.Machine.execMapCommit m s
  | .mapCheckEnd r => Sys2Proof.Machine.execMapCheckEnd r s
  | .mapPinWalk => Sys2Proof.Machine.execMapPinWalk s
  | .mapOldDrained => Sys2Proof.Machine.execMapOldDrained s
  | .mapStagedBaseWrite m v => Sys2Proof.Machine.execMapStagedBaseWrite m v s
  | .repCheck m homeBad => Sys2Proof.Machine.execRepCheck m homeBad s
  | .reelDoorbell m n v => Sys2Proof.Machine.execReelDoorbell m n v s
  | .reelCfgWrite m n v => Sys2Proof.Machine.execReelCfgWrite m n v s
  | .reelRdWrite m n v => Sys2Proof.Machine.execReelRdWrite m n v s
  | .reelBaseWrite m n v => Sys2Proof.Machine.execReelBaseWrite m n v s
  | .mreelCfgWrite m n v => Sys2Proof.Machine.execMreelCfgWrite m n v s
  | .mreelRdWrite m n v => Sys2Proof.Machine.execMreelRdWrite m n v s
  | .mreelLostRead m n => Sys2Proof.Machine.execMreelLostRead m n s
  | .fetchGrant => Sys2Proof.Machine.execFetchGrant s
  | .slotReadReturn n count k r => Sys2Proof.Machine.execSlotReadReturn n count k r s
  | .slotReread n count k => Sys2Proof.Machine.execSlotReread n count k s
  | .commandDispatch n r => Sys2Proof.Machine.execCommandDispatch n r s
  | .commandComplete n count => Sys2Proof.Machine.execCommandComplete n count s
  | .nopCommand n => Sys2Proof.Machine.execNopCommand n s
  | .launch n => Sys2Proof.Machine.execLaunch n s
  | .inlineBag n r => Sys2Proof.Machine.execInlineBag n r s
  | .copy n r => Sys2Proof.Machine.execCopy n r s
  | .fenceCommand n => Sys2Proof.Machine.execFenceCommand n s
  | .signal n => Sys2Proof.Machine.execSignal n s
  | .wait n => Sys2Proof.Machine.execWait n s
  | .waitTimeout w => Sys2Proof.Machine.execWaitTimeout w s
  | .takeNow n same => Sys2Proof.Machine.execTakeNow n same s
  | .config n => Sys2Proof.Machine.execConfig n s
  | .nop d w => Sys2Proof.Machine.execNop d w s
  | .jmp d w => Sys2Proof.Machine.execJmp d w s
  | .br d w => Sys2Proof.Machine.execBr d w s
  | .loop d w => Sys2Proof.Machine.execLoop d w s
  | .call d w => Sys2Proof.Machine.execCall d w s
  | .ret d w => Sys2Proof.Machine.execRet d w s
  | .halt d w => Sys2Proof.Machine.execHalt d w s
  | .li d w ext => Sys2Proof.Machine.execLi d w ext s
  | .add d w => Sys2Proof.Machine.execAdd d w s
  | .sub d w => Sys2Proof.Machine.execSub d w s
  | .mul d w => Sys2Proof.Machine.execMul d w s
  | .and d w => Sys2Proof.Machine.execAnd d w s
  | .or d w => Sys2Proof.Machine.execOr d w s
  | .xor d w => Sys2Proof.Machine.execXor d w s
  | .shl d w => Sys2Proof.Machine.execShl d w s
  | .shr d w => Sys2Proof.Machine.execShr d w s
  | .ld d w => Sys2Proof.Machine.execLd d w s
  | .ldDataReturn d r => Sys2Proof.Machine.execLdDataReturn d r s
  | .st d w r => Sys2Proof.Machine.execSt d w r s
  | .instructionFetchReturn d r => Sys2Proof.Machine.execInstructionFetchReturn d r s
  | .dld d w => Sys2Proof.Machine.execDld d w s
  | .dset d w => Sys2Proof.Machine.execDset d w s
  | .stage d w ext => Sys2Proof.Machine.execStage d w ext s
  | .pin d w => Sys2Proof.Machine.execPin d w s
  | .pinRetire k failAt => Sys2Proof.Machine.execPinRetire k failAt s
  | .uniq d w ext => Sys2Proof.Machine.execUniq d w ext s
  | .uniqRetire k r wr => Sys2Proof.Machine.execUniqRetire k r wr s
  | .glean d w ext => Sys2Proof.Machine.execGlean d w ext s
  | .indexResolve k n r wrs => Sys2Proof.Machine.execIndexResolve k n r wrs s
  | .sectorReturn k pos part r wr => Sys2Proof.Machine.execSectorReturn k pos part r wr s
  | .gleanRetire k => Sys2Proof.Machine.execGleanRetire k s
  | .retryLimitExpiry k pos => Sys2Proof.Machine.execRetryLimitExpiry k pos s
  | .resume d w => Sys2Proof.Machine.execResume d w s
  | .skipel d w => Sys2Proof.Machine.execSkipel d w s
  | .fixel d w => Sys2Proof.Machine.execFixel d w s
  | .pool d w ext => Sys2Proof.Machine.execPool d w ext s
  | .bagPlace k r => Sys2Proof.Machine.execBagPlace k r s
  | .recordEntry k lane err => Sys2Proof.Machine.execRecordEntry k lane err s
  | .baleAccumulationStart lane bale => Sys2Proof.Machine.execBaleAccumulationStart lane bale s
  | .balePassEnd lane bale err => Sys2Proof.Machine.execBalePassEnd lane bale err s
  | .bagDrain k bag r lane err => Sys2Proof.Machine.execBagDrain k bag r lane err s
  | .poolRetire k => Sys2Proof.Machine.execPoolRetire k s
  | .sweep d w ext => Sys2Proof.Machine.execSweep d w ext s
  | .sweepTilesTaken k => Sys2Proof.Machine.execSweepTilesTaken k s
  | .queryLoad k r => Sys2Proof.Machine.execQueryLoad k r s
  | .sweepRowPair k group r0 r1 wr => Sys2Proof.Machine.execSweepRowPair k group r0 r1 wr s
  | .partialListAccept tile => Sys2Proof.Machine.execPartialListAccept tile s
  | .thresholdUpdate k query => Sys2Proof.Machine.execThresholdUpdate k query s
  | .sweepDeferLimit k entry => Sys2Proof.Machine.execSweepDeferLimit k entry s
  | .sweepRetire k => Sys2Proof.Machine.execSweepRetire k s
  | .topk d w ext => Sys2Proof.Machine.execTopk d w ext s
  | .topkReserve k r => Sys2Proof.Machine.execTopkReserve k r s
  | .topkWriteOut k rd wr => Sys2Proof.Machine.execTopkWriteOut k rd wr s
  | .ted d w ext r => Sys2Proof.Machine.execTed d w ext r s
  | .contributionRecord k rd wr => Sys2Proof.Machine.execContributionRecord k rd wr s
  | .tedRetire k => Sys2Proof.Machine.execTedRetire k s
  | .opt d w ext => Sys2Proof.Machine.execOpt d w ext s
  | .rowClaim k lane row r => Sys2Proof.Machine.execRowClaim k lane row r s
  | .rowStep lane rec row st wr => Sys2Proof.Machine.execRowStep lane rec row st wr s
  | .tedderRowWaitLimit k row => Sys2Proof.Machine.execTedderRowWaitLimit k row s
  | .tapAccept lane => Sys2Proof.Machine.execTapAccept lane s
  | .rowRelease lane => Sys2Proof.Machine.execRowRelease lane s
  | .optRetire k rd wr => Sys2Proof.Machine.execOptRetire k rd wr s
  | .qnt d w ext => Sys2Proof.Machine.execQnt d w ext s
  | .sample d w ext => Sys2Proof.Machine.execSample d w ext s
  | .cwait d w => Sys2Proof.Machine.execCwait d w s
  | .csig d w => Sys2Proof.Machine.execCsig d w s
  | .cadd d w => Sys2Proof.Machine.execCadd d w s
  | .waitt d w => Sys2Proof.Machine.execWaitt d w s
  | .fence d w => Sys2Proof.Machine.execFence d w s
  | .take d w => Sys2Proof.Machine.execTake d w s
  | .digest d w ext => Sys2Proof.Machine.execDigest d w ext s
  | .msg d w => Sys2Proof.Machine.execMsg d w s
  | .clpValCommit m n v => Sys2Proof.Machine.execClpValCommit m n v s
  | .clpAddCommit m n v => Sys2Proof.Machine.execClpAddCommit m n v s
  | .clapperBankOperation bank pres => Sys2Proof.Machine.execClapperBankOperation bank pres s
  | .smpKeyCommit m is v => Sys2Proof.Machine.execSmpKeyCommit m is v s
  | .smpCtrCommit m is v => Sys2Proof.Machine.execSmpCtrCommit m is v s
  | .atomicSwap m addr size operand r => Sys2Proof.Machine.execAtomicSwap m addr size operand r s
  | .atomicCas m addr size new compare r => Sys2Proof.Machine.execAtomicCas m addr size new compare r s
  | .atomicAdd m addr size operand r => Sys2Proof.Machine.execAtomicAdd m addr size operand r s
  | .atomicAnd m addr size operand r => Sys2Proof.Machine.execAtomicAnd m addr size operand r s
  | .atomicOr m addr size operand r => Sys2Proof.Machine.execAtomicOr m addr size operand r s
  | .atomicXor m addr size operand r => Sys2Proof.Machine.execAtomicXor m addr size operand r s
  | .atomicSmin m addr size operand r => Sys2Proof.Machine.execAtomicSmin m addr size operand r s
  | .atomicSmax m addr size operand r => Sys2Proof.Machine.execAtomicSmax m addr size operand r s
  | .atomicUmin m addr size operand r => Sys2Proof.Machine.execAtomicUmin m addr size operand r s
  | .atomicUmax m addr size operand r => Sys2Proof.Machine.execAtomicUmax m addr size operand r s
  | .atomicFadd m addr size operand r => Sys2Proof.Machine.execAtomicFadd m addr size operand r s
  | .atomicLoad m addr size r => Sys2Proof.Machine.execAtomicLoad m addr size r s
  | .atomicStore m addr size operand r => Sys2Proof.Machine.execAtomicStore m addr size operand r s
  | .atomicInvalid m code addr size => Sys2Proof.Machine.execAtomicInvalid m code addr size s
  | .swardMissFill line r => Sys2Proof.Machine.execSwardMissFill line r s
  | .evictionDrainAck slice => Sys2Proof.Machine.execEvictionDrainAck slice s
  | .swardLineFailure slice set way sec0Bad sec1Bad work => Sys2Proof.Machine.execSwardLineFailure slice set way sec0Bad sec1Bad work s
  | .swardEnable m v => Sys2Proof.Machine.execSwardEnable m v s
  | .swardDisable m v => Sys2Proof.Machine.execSwardDisable m v s
  | .swardDisableEnd => Sys2Proof.Machine.execSwardDisableEnd s
  | .invalidateAll m => Sys2Proof.Machine.execInvalidateAll m s
  | .writeBackAll m => Sys2Proof.Machine.execWriteBackAll m s
  | .flushAll m => Sys2Proof.Machine.execFlushAll m s
  | .writeBackRange m => Sys2Proof.Machine.execWriteBackRange m s
  | .invalidateRange m => Sys2Proof.Machine.execInvalidateRange m s
  | .flushRange m => Sys2Proof.Machine.execFlushRange m s
  | .maintComplete => Sys2Proof.Machine.execMaintComplete s
  | .farTierTimeout sector wide work => Sys2Proof.Machine.execFarTierTimeout sector wide work s
  | .hostWindowRead off len => Sys2Proof.Machine.execHostWindowRead off len s
  | .hostWindowWrite off data => Sys2Proof.Machine.execHostWindowWrite off data s
  | .pcieFetchadd off size operand r => Sys2Proof.Machine.execPcieFetchadd off size operand r s
  | .pcieSwap off size operand r => Sys2Proof.Machine.execPcieSwap off size operand r s
  | .pcieCas off size new compare r => Sys2Proof.Machine.execPcieCas off size new compare r s
  | .hwBaseCommit m v => Sys2Proof.Machine.execHwBaseCommit m v s
  | .raDrop m => Sys2Proof.Machine.execRaDrop m s
  | .hwCfgWrite m v => Sys2Proof.Machine.execHwCfgWrite m v s
  | .copyTransferStart ce => Sys2Proof.Machine.execCopyTransferStart ce s
  | .copyRequestResponse ce r => Sys2Proof.Machine.execCopyRequestResponse ce r s
  | .copyTransferComplete ce => Sys2Proof.Machine.execCopyTransferComplete ce s
  | .portEnable m p v => Sys2Proof.Machine.execPortEnable m p v s
  | .probeDetected p n => Sys2Proof.Machine.execProbeDetected p n s
  | .ringLocked p n txCode rxCode => Sys2Proof.Machine.execRingLocked p n txCode rxCode s
  | .equaliserTrained p n => Sys2Proof.Machine.execEqualiserTrained p n s
  | .portAlign p => Sys2Proof.Machine.execPortAlign p s
  | .bringUpTimeout p n => Sys2Proof.Machine.execBringUpTimeout p n s
  | .lossOfLight p pairs => Sys2Proof.Machine.execLossOfLight p pairs s
  | .shutRecovery p n => Sys2Proof.Machine.execShutRecovery p n s
  | .pilotBlock p ps => Sys2Proof.Machine.execPilotBlock p ps s
  | .moveRequest p lane => Sys2Proof.Machine.execMoveRequest p lane s
  | .laneSwitch p lane => Sys2Proof.Machine.execLaneSwitch p lane s
  | .moveTimeout p lane => Sys2Proof.Machine.execMoveTimeout p lane s
  | .frameReceive p f => Sys2Proof.Machine.execFrameReceive p f s
  | .linkControl p c => Sys2Proof.Machine.execLinkControl p c s
  | .keyLoad m v => Sys2Proof.Machine.execKeyLoad m v s
  | .keySwitch m v => Sys2Proof.Machine.execKeySwitch m v s
  | .keyExhausted p => Sys2Proof.Machine.execKeyExhausted p s
  | .readRequest r => Sys2Proof.Machine.execReadRequest r s
  | .readResponse wrs => Sys2Proof.Machine.execReadResponse wrs s
  | .write r => Sys2Proof.Machine.execWrite r s
  | .writeAcknowledgement => Sys2Proof.Machine.execWriteAcknowledgement s
  | .streamRequest r => Sys2Proof.Machine.execStreamRequest r s
  | .streamData => Sys2Proof.Machine.execStreamData s
  | .clapperOperation => Sys2Proof.Machine.execClapperOperation s
  | .clapperAcknowledgement => Sys2Proof.Machine.execClapperAcknowledgement s
  | .e2eTimeout dst cls seq => Sys2Proof.Machine.execE2eTimeout dst cls seq s
  | .join m => Sys2Proof.Machine.execJoin m s
  | .joinTimeout => Sys2Proof.Machine.execJoinTimeout s
  | .hello port => Sys2Proof.Machine.execHello port s
  | .lead => Sys2Proof.Machine.execLead s
  | .heartbeatPeriod => Sys2Proof.Machine.execHeartbeatPeriod s
  | .heartbeat => Sys2Proof.Machine.execHeartbeat s
  | .failed => Sys2Proof.Machine.execFailed s
  | .failedRepeat => Sys2Proof.Machine.execFailedRepeat s
  | .linkDown => Sys2Proof.Machine.execLinkDown s
  | .timeBaseSend => Sys2Proof.Machine.execTimeBaseSend s
  | .timeBase delay => Sys2Proof.Machine.execTimeBase delay s
  | .rehome m => Sys2Proof.Machine.execRehome m s
  | .commit => Sys2Proof.Machine.execCommit s
  | .commitResult => Sys2Proof.Machine.execCommitResult s
  | .load => Sys2Proof.Machine.execLoad s
  | .loadStatus => Sys2Proof.Machine.execLoadStatus s
  | .statusReq => Sys2Proof.Machine.execStatusReq s
  | .rehomeReleaseCommit => Sys2Proof.Machine.execRehomeReleaseCommit s
  | .tedderDrainEnd => Sys2Proof.Machine.execTedderDrainEnd s
  | .fileClose => Sys2Proof.Machine.execFileClose s
  | .printCopy r => Sys2Proof.Machine.execPrintCopy r s
  | .areaFull mirror => Sys2Proof.Machine.execAreaFull mirror s
  | .areaFreeWrite m mirror v => Sys2Proof.Machine.execAreaFreeWrite m mirror v s
  | .loadPosition m v => Sys2Proof.Machine.execLoadPosition m v s
  | .applyTake m v => Sys2Proof.Machine.execApplyTake m v s
  | .setScheduleState m v => Sys2Proof.Machine.execSetScheduleState m v s
  | .loaderOperationEnd r main mir => Sys2Proof.Machine.execLoaderOperationEnd r main mir s
  | .tkCtlWrite m v => Sys2Proof.Machine.execTkCtlWrite m v s
  | .memoryWriteAck o => Sys2Proof.Machine.execMemoryWriteAck o s
  | .regulatorCreditRefill => Sys2Proof.Machine.execRegulatorCreditRefill s
  | .managementOptionWrite image => Sys2Proof.Machine.execManagementOptionWrite image s
  | .descriptorReadReturn d r => Sys2Proof.Machine.execDescriptorReadReturn d r s
  | .wideReadReturn u r => Sys2Proof.Machine.execWideReadReturn u r s
  | .qntRetire k rd wr => Sys2Proof.Machine.execQntRetire k rd wr s
  | .digestRetire k rd wr => Sys2Proof.Machine.execDigestRetire k rd wr s
  | .sampleRetire k wr => Sys2Proof.Machine.execSampleRetire k wr s
  | .replicaReloadEnd entry rep => Sys2Proof.Machine.execReplicaReloadEnd entry rep s

end Sys2Proof.Machine
end

