-- ==== Sys2Proof/Safety.lean ====
section
/-! DEFINITION. The terms in which claims speak: when a register access is served, when a director executes, what a command has
been told, and the invariant of the always-on island. -/

namespace Sys2Proof.Machine

open Sys2Proof

/-- The access is granted and served at once: the engine runs, R4 allows its size and alignment, nothing of its master waits before it
(R401), its offset has a target, its target's table grants it (R349, R350), the access block is not locked against it, a write's block
is not restarting (R402), and no operation of the port on a clapper that it reads waits (R344). -/
def State.serves (s : State) (m : Fin 64) (off : Nat) (a : RegAcc) : Bool :=
  s.runs && a.good && !s.eng.portHeld m && decide (off < 0x60000) &&
    (s.eng.acc.firstDenied (regTarget off).1 m (!a.writes) a.writes (regTarget off).2
      (if (regTarget off).1 = 0 then a.size else 1)).isNone &&
    !(a.writes && s.eng.regBusy off) && !s.eng.readHeld off a &&
    !(a.writes && (regBlock off).1 == 2 && s.eng.acc.lock && m.val != s.eng.acc.cfgMaster.toNat)

/-- Director `d` executes its next instruction: the engine runs, the director is running, its block is not restarting, and no
source register of the instruction waits for a load (R95, R101, R102). -/
def State.executes (s : State) (d : Fin 8) (reads : List (BitVec 5)) : Bool :=
  s.runs && s.eng.canRun d && !reads.any (s.eng.dir d).pendingLd

/-- The engine runs and its reel front end is not restarting: a command of a reel can act. -/
def State.fronts (s : State) : Bool := s.runs && !s.eng.busy 0

/-- Command `c` of reel `n` is the one its type's unit acts on next: the front end runs, `c` is dispatched and ready, no older
command of its type is, and no other command in flight has its count. `pre` and `post` are the commands before and behind it. -/
def State.acting (s : State) (n : Fin 64) (type : Nat) (pre : List Cmd) (c : Cmd) (post : List Cmd) : Prop :=
  s.fronts = true ∧ (s.eng.reel n.val).inflight = pre ++ c :: post ∧ (∀ x ∈ pre ++ post, x.count ≠ c.count) ∧
    c.type.toNat = type ∧ c.phase = .ready ∧ ∀ x ∈ pre, x.type.toNat = type → x.phase ≠ .ready

/-- The state with the commands in flight of reel `n` replaced, and nothing else changed. -/
def State.setInflight (s : State) (n : Fin 64) (cs : List Cmd) : State :=
  { s with eng := s.eng.setReel n.val { s.eng.reel n.val with inflight := cs } }

/-- The state with director `d` replaced, and nothing else changed. -/
def State.setDir (s : State) (d : Fin 8) (x : Dir) : State := { s with eng := s.eng.setDir d x }

/-- The command completes as an instruction that writes `v` to s[dst] and goes on `len` bytes further: s0 stays zero, every other
scalar register stands, and nothing else changes, but that a load in flight to s[dst] no longer writes it (R93, R102). -/
def State.Computes (s : State) (d : Fin 8) (c : Instr) (dst : BitVec 5) (v : W64) (len : Nat) : Prop :=
  ∃ y : Dir, exec c s = .next (s.setDir d y) ∧
    y = { s.eng.dir d.val with regs := y.regs, lds := y.lds, pc := (s.eng.dir d.val).pc + BitVec.ofNat 64 len } ∧
    ∀ r, y.get r = if r = dst ∧ r ≠ 0 then v else (s.eng.dir d.val).get r

/-- The command completes as a program fault (R118): the cause is recorded, the director drains or has ended its program, and the
instruction had no effect on its registers, its stack, its pc, or the always-on island. -/
def State.Faults (s : State) (d : Fin 8) (c : Instr) (cause : Byte) : Prop :=
  ∃ t, exec c s = .next t ∧ (t.eng.dir d.val).faulted = true ∧ (t.eng.dir d.val).cause = cause ∧
    ((t.eng.dir d.val).st = .draining ∨ (t.eng.dir d.val).st = .idle) ∧ (t.eng.dir d.val).pc = (s.eng.dir d.val).pc ∧
    (t.eng.dir d.val).regs = (s.eng.dir d.val).regs ∧ (t.eng.dir d.val).stack = (s.eng.dir d.val).stack ∧
    (t.eng.dir d.val).descs = (s.eng.dir d.val).descs ∧ (t.eng.dir d.val).tcount = (s.eng.dir d.val).tcount ∧ t.ao = s.ao

/-- Between `s` and `t` director `d` issued an instruction `len` bytes long (R107): it took the next ticket, whose slot is live and
without an outcome, s[dst] holds the ticket, and the director goes on; its other slots and everything else of it stand, and so do
the other directors, both memories, the reels and the always-on island. -/
def State.Issues (s t : State) (d : Fin 8) (dst : BitVec 5) (len : Nat) : Prop :=
  ∃ x y tk, x = s.eng.dir d.val ∧ y = t.eng.dir d.val ∧ tk = x.nextTicket ∧
    y = { x with regs := y.regs, lds := y.lds, tcount := tk, slots := y.slots, pc := x.pc + BitVec.ofNat 64 len } ∧
    (∀ r, y.get r = if r = dst ∧ r ≠ 0 then tk.setWidth 64 else x.get r) ∧
    y.slot tk = some { ticket := tk, out := none } ∧ (∀ u, u.toNat % 256 ≠ tk.toNat % 256 → y.slot u = x.slot u) ∧
    (∀ k, k ≠ d.val → t.eng.dir k = s.eng.dir k) ∧ t.eng.dev = s.eng.dev ∧ t.eng.host = s.eng.host ∧
    t.eng.fe = s.eng.fe ∧ t.ao = s.ao

/-- The command completes as an instruction that waits for a ticket's slot or for its unit's issue queue: its director counts one
stall and does nothing else (R107). -/
def State.Stalls (s : State) (d : Fin 8) (c : Instr) : Prop :=
  exec c s = .next (s.setDir d { s.eng.dir d.val with stall := satAdd (s.eng.dir d.val).stall 1 })

/-- The command completes as a data-path instruction with its descriptor operands: a descriptor that R104 refuses faults with
R104's cause and `bad` operands with cause 0x0B; else it is issued, `post` saying what its unit holds of it, or stalls while the
slot of its ticket is held or its unit, which runs `hs`, has no room in its issue queue for the director (R107). -/
def State.IssuesJob (s : State) (d : Fin 8) (c : Instr) (w : IWord) (len : Nat) (tabs : List (BitVec 4)) (os : List Opnd)
    (hs : List Hdr) (bad : Prop) (post : State → Hdr → Prop) : Prop :=
  (∀ q, (s.eng.dir d.val).refuses tabs os = some q → s.Faults d c q.1) ∧
  ((s.eng.dir d.val).refuses tabs os = none → bad → s.Faults d c 0x0B) ∧
  ((s.eng.dir d.val).refuses tabs os = none → ¬ bad →
    ((s.eng.dir d.val).slotFree (s.eng.dir d.val).nextTicket = true → s.eng.queueFull hs d = false → ∃ t, exec c s = .next t ∧ s.Issues t d w.dst len ∧
      post t ((s.eng.dir d.val).hdr { dir := d, ticket := (s.eng.dir d.val).nextTicket } w.sb)) ∧
    ((s.eng.dir d.val).slotFree (s.eng.dir d.val).nextTicket = false ∨ s.eng.queueFull hs d = true → s.Stalls d c))

/-- Ticket `k` is live in slot `q`: it has no outcome yet, and no stop record names it (R107, R119). -/
def State.ticketLive (s : State) (k : Key) (q : TSlot) : Prop :=
  (s.eng.dir k.dir.val).slot k.ticket = some q ∧ q.ticket = k.ticket ∧ q.out = none ∧
    ∀ p ∈ (s.eng.dir k.dir.val).stops, p.ticket ≠ k.ticket

/-- The ticket's director does not wait at a FENCE, whose publication would write the sward back when the ticket retires (R115). -/
def State.noFence (s : State) (k : Key) : Prop := ∀ p, (s.eng.dir k.dir.val).wait ≠ .fence p

/-- Between `s` and `t` the ticket in slot `q` retired with a status and flags (R107, R111, R118): its slot holds the outcome, its
flags join its program's, and a fault ends a program that was executing or waiting, with cause 0x0C. -/
def State.Retires (s t : State) (k : Key) (q : TSlot) (status : Byte) (flags : BitVec 4) : Prop :=
  (t.eng.dir k.dir.val).slot k.ticket = some { q with out := some (status, flags) } ∧
  (t.eng.dir k.dir.val).flags = (s.eng.dir k.dir.val).flags ||| flags ∧
  (status = 3 → ((s.eng.dir k.dir.val).st = .running ∨ (s.eng.dir k.dir.val).st = .waiting) →
    (t.eng.dir k.dir.val).faulted = true ∧ (t.eng.dir k.dir.val).cause = 0x0C)

/-- The range may be read or written by the master at the WIDE target (R349, R227). -/
def Eng.wideOk (e : Eng) (m : Fin 64) (rd wr : Bool) (a n : Nat) : Prop :=
  e.mp.firstHole a n = none ∧ e.acc.firstDenied 4 m rd wr a n = none

/-- The link messages this engine has still to see acknowledged by a neighbour, with their destinations and numbers (R285, R290):
those without a route, those queued at a port, sent or passed on, and those in a port's replay buffer. -/
def Eng.outgoing (e : Eng) : List (BitVec 8 × W32 × ZBody) :=
  (e.zw.stuck ++ (List.range 8).flatMap fun p =>
    (e.port' p).queue ++ (e.port' p).fwd ++ (e.port' p).replay.flatMap fun f => f.msgs).map fun m => (m.dst, m.seq, m.body)

/-- These bodies go to position `dst` without a wait (R289, R293, R294): the link block was not asked to go idle, no message waits
to be sent there, the tracked store has room for them, and their responses have space. -/
def Eng.sendsNow (e : Eng) (dst : BitVec 8) (bs : List ZBody) : Prop :=
  e.busy 7 = false ∧ (∀ w ∈ e.zw.blocked, w.1 ≠ dst.toNat) ∧
    e.zw.stored + ((bs.filter zStored).map fun b => 16 * zCells b).sum ≤ 8388608 ∧
    e.zw.reserved + (bs.map rspCells).sum ≤ 9728

/-- The state with the message between `pre` and `post` of the inbox taken, and nothing else changed: its cells are owed to the far
end of the port it came in on (R289). -/
def State.took (s : State) (pre post : List ZMsg) (z : ZMsg) : State :=
  { s with eng := ({ s.eng with zw := { s.eng.zw with inbox := pre ++ post } } : Eng).owe z }

/-- Between `s` and `t` the bodies were sent to position `dst` in order, numbered on from the last of their class (R292). -/
def State.Sends (s t : State) (dst : BitVec 8) (bs : List ZBody) : Prop :=
  t.eng.outgoing.Perm (s.eng.outgoing ++ bs.zipIdx.map fun x =>
    (dst, s.eng.zw.txSeq.get 0 (3 * dst.toNat + zCls x.1) + BitVec.ofNat 32 x.2, x.1))

/-- The counters of a block (R43). -/
def Eng.ctrs (e : Eng) : CtrBlk → Ctrs
  | .grd => e.grd.ctrs
  | .gln => e.gln.ctrs
  | .wr => e.wr.ctrs
  | .swp => e.swp.ctrs
  | .ted => e.ted.ctrs
  | .swd => e.swd.ctrs
  | .mp => e.mp.ctrs
  | .hc => e.hc.ctrs
  | .zw => e.zw.ctrs

/-- T is the hottest of the readings, a sensor without a valid one counting as t_thr (R380); without sensors it is t_thr. -/
def AlwaysOn.hears (a : AlwaysOn) (readings : List (Option Nat)) (t : Nat) : Prop :=
  (readings = [] → t = a.tThr) ∧ (∀ r ∈ readings, r.getD a.tThr ≤ t) ∧ (readings ≠ [] → ∃ r ∈ readings, r.getD a.tThr = t)

/-- The invariant of the always-on island: the ranges that the gaffer's and the reset's registers clamp to (R371, R378 to
R381), the option load's attempts (R366), and the length of an image that waits to take effect. -/
def AlwaysOn.Inv (a : AlwaysOn) : Prop :=
  (15 ≤ a.cap ∧ a.cap ≤ 90) ∧ (15 ≤ a.thermal ∧ a.thermal ≤ 90) ∧ (1 ≤ a.ramp ∧ a.ramp ≤ 255) ∧
  (1 ≤ a.hold ∧ a.hold ≤ 65535) ∧ 1 ≤ a.idleUs.toNat ∧ (a.tThr < 256 ∧ a.tTrip < 256) ∧
  ((a.f = 0 ∧ a.trip = true) ∨ (2040 ≤ a.f ∧ a.f ≤ 130560)) ∧ a.allow ≤ a.f ∧ a.attempts ≤ 3 ∧
  (∀ b n, a.phase = .loading b n → n < 3) ∧
  (a.phase = .pll → a.image.length = 1028)

/-- Both memories are in their canonical form. -/
def Eng.memWf (e : Eng) : Prop := e.dev.wf = true ∧ e.host.wf = true

end Sys2Proof.Machine
end

