-- ==== Sys2Proof/WellFormed.lean ====
section
/-! DEFINITION. Which commands and events the outside world can present: the conditions on their operands that the spec states
and the types of Syntax.lean leave open. An ill-formed term breaks one of them, which `Instr.problem` names. The meanings
stay total: on an ill-formed term they do what their docstrings say. -/

namespace Sys2Proof

open Sys2Proof.Machine

/-- What an ill-formed command or event breaks. -/
inductive Problem where
  | shortReset        -- LE_RST_N is asserted by a low level of at least 3 cycles (R360)
  | atomicSize        -- an atomic of a size its operation does not have is ATOMIC_INVALID (R242)
  | atomicServed      -- ATOMIC_INVALID with an operation and a size that are served (R242)
  | windowAtomicSize  -- a PCIe AtomicOp of a size the window has none of (R261)
  | misaligned        -- a register access that R4 does not allow
  | allowedAccess     -- REGISTER_ACCESS_BAD_SIZE on an access that R4 allows
  | hasTarget         -- REGISTER_ACCESS_NO_TARGET below 0x60000 (R399)
  | notPair           -- a pair row on a register that is no pair (R5)
  | firstRead         -- SLOT_REREAD is one of the re-reads 1 to 16 (R72)
  | emptyAccess       -- a window access of no bytes (R255)
  | otherBank         -- an operation presented at a bank that does not hold its clapper (R354)
  | twicePresented    -- a requester presents one operation at a time (R354)
  | longImage         -- an option copy is 1,020 bytes before its generation and its CRC (R369)
  | messageBytes      -- a message's data does not have the length of its type (R288)
  | creditCount       -- a link control cell returns credits of six virtual channels (R284)
  | noPairs           -- LOSS_OF_LIGHT names the pairs that lost light (R276)
  | pairTwice         -- a pilot block measures each lane pair once (R279)
  deriving DecidableEq, Repr

/-- The first element of a list stands in it once, and so on. -/
def distinct {α : Type} [DecidableEq α] : List α → Bool
  | [] => true
  | x :: xs => !xs.contains x && distinct xs

/-- The data of a message has the length its type gives it (R288). -/
def ZBody.lenOk : ZBody → Bool
  | .readRsp _ denied uncorr data => data.length == if denied || uncorr then 0 else 64
  | .write _ data => decide (1 ≤ data.length) && decide (data.length ≤ 1024)
  | .streamData _ denied uncorr data =>
    if denied then data.length == 0
    else if uncorr && data.isEmpty then true
    else data.length % 64 == 0 && decide (64 ≤ data.length) && decide (data.length ≤ 2048)
  | _ => true

/-- A condition, or the problem when it does not hold. -/
def need (ok : Bool) (p : Problem) : Option Problem := if ok then none else some p

/-- What is wrong with a command or event; none where it is well formed. -/
def Instr.problem : Instr → Option Problem
  | .leRstNAssert low => need (decide (3 ≤ low)) .shortReset
  | .atomicSwap _ _ n _ _ | .atomicAdd _ _ n _ _ | .atomicAnd _ _ n _ _ | .atomicOr _ _ n _ _ | .atomicXor _ _ n _ _
  | .atomicSmin _ _ n _ _ | .atomicSmax _ _ n _ _ | .atomicUmin _ _ n _ _ | .atomicUmax _ _ n _ _ =>
    need (n == 4 || n == 8) .atomicSize
  | .atomicCas _ _ n _ _ _ | .atomicLoad _ _ n _ | .atomicStore _ _ n _ _ =>
    need (n == 4 || n == 8 || n == 16) .atomicSize
  | .atomicFadd _ _ n _ _ => need (n == 4) .atomicSize
  | .atomicInvalid _ code _ n => need (!(atomSizes code.toNat).contains n) .atomicServed
  | .pcieFetchadd _ n _ _ | .pcieSwap _ n _ _ => need (n == 4 || n == 8) .windowAtomicSize
  | .pcieCas _ n _ _ _ => need (n == 4 || n == 8 || n == 16) .windowAtomicSize
  | .registerWrite _ off _ => need (off.toNat % 4 == 0) .misaligned
  | .registerAccessBadSize _ off size _ =>
    need (!((size == 4 && off.toNat % 4 == 0) || (size == 8 && off.toNat % 8 == 0 && isPair off.toNat))) .allowedAccess
  | .registerAccessNoTarget _ off _ =>
    if off.toNat % 4 ≠ 0 then some .misaligned else need (decide (0x60000 ≤ off.toNat)) .hasTarget
  | .pairLowWordRead _ off => need (isPair off.toNat) .notPair
  | .pairHighWordWrite _ off _ => need (decide (4 ≤ off.toNat) && isPair (off.toNat - 4)) .notPair
  | .slotReread _ _ k => need (k != 0) .firstRead
  | .hostWindowRead _ n => need (n != 0) .emptyAccess
  | .hostWindowWrite _ data => need (!data.isEmpty) .emptyAccess
  | .clapperBankOperation bank pres =>
    if pres.any fun p => p.clapper.val % 16 != bank.val then some .otherBank
    else need (distinct (pres.map ClpPres.req)) .twicePresented
  | .managementOptionWrite image => need (decide (image.length ≤ 1020)) .longImage
  | .frameReceive _ f => need (f.msgs.all fun m => m.body.lenOk) .messageBytes
  | .linkControl _ c => need (c.credits.length == 6) .creditCount
  | .lossOfLight _ pairs => need (!pairs.isEmpty) .noPairs
  | .pilotBlock _ ps => need (distinct (ps.map Pilot.pair)) .pairTwice
  | _ => none

/-- The command or event is well formed. -/
def Instr.wellFormed (i : Instr) : Bool := i.problem.isNone

end Sys2Proof
end

