-- ==== Sys2Proof/Certificates/Slice0/Obligations.lean ====
section
/-! DEFINITION. The statements for the provers. Each docstring names the rules it rests on; a clause that rests on the model's own
choice says so and names the log entry. -/

open Sys2Proof Sys2Proof.Machine

/-- A step takes the command at the front of the queue and runs it on the state with the queue's rest: that all commands stand in one
ordered queue is the model's choice (log entry 166). Every command completes in every state, no row stops: that a command outside its
condition changes nothing is the model's choice (log entry 1). R307. On an empty queue one cycle of the 100 MHz reference passes, the
model's choice (log entry 6): a running engine's time base goes on by 10 ns, or by 11 or 9 once in a microsecond while it slews, one
toward the lead's time and never back; the held cycles of the sweep are counted (R199); registers, memories, clappers and reels stand. An
engine that is held in reset stands still. -/
def Obligations.StepRunsTheFrontCommand : Prop :=
  (∀ (c : Instr) (s : State), step { s with pending := c :: s.pending } = exec c s) ∧
  (∀ (c : Instr) (s : State), ∃ t, exec c s = .next t) ∧
  (∀ s : State, s.pending = [] → s.runs = false → step s = .next s) ∧
  ∀ s : State, s.pending = [] → s.runs = true → (∀ c ∈ s.eng.map.cmps, c.begun = true) → ∃ t, step s = .next t ∧
    t.pending = [] ∧ t.ao = s.ao ∧
    (s.eng.hth.slew = 0 ∨ s.eng.hth.time.toNat < s.eng.hth.slewAt.toNat + 1000 → t.eng.hth = { s.eng.hth with time := s.eng.hth.time + 10 }) ∧
    (0 < s.eng.hth.slew → s.eng.hth.slewAt.toNat + 1000 ≤ s.eng.hth.time.toNat →
      t.eng.hth = { s.eng.hth with time := s.eng.hth.time + 11, slew := s.eng.hth.slew - 1, slewAt := s.eng.hth.time }) ∧
    (s.eng.hth.slew < 0 → s.eng.hth.slewAt.toNat + 1000 ≤ s.eng.hth.time.toNat →
      t.eng.hth = { s.eng.hth with time := s.eng.hth.time + 9, slew := s.eng.hth.slew + 1, slewAt := s.eng.hth.time }) ∧
    (s.eng.swp.ctrs.ctl.toNat % 2 = 1 → s.eng.swp.moving ≠ [] →
      t.eng.swp.ctrs.live.get 0 2 = s.eng.swp.ctrs.live.get 0 2 + 19) ∧
    (s.eng.swp.moving = [] → t.eng.swp = s.eng.swp) ∧
    t.eng.dev = s.eng.dev ∧ t.eng.host = s.eng.host ∧ t.eng.clp = s.eng.clp ∧ t.eng.fe = s.eng.fe ∧ t.eng.dirs = s.eng.dirs ∧
    t.eng.map = s.eng.map ∧ t.eng.acc = s.eng.acc ∧ t.eng.swd = s.eng.swd ∧ t.eng.mp = s.eng.mp

/-- R360, R361, R373, R374. Power-on reset keeps the non-volatile contents; LE_RST_N, low for at least 3 cycles, also keeps device
memory, the backup registers, the TAP's instruction register and retained memory outside its reset snapshot. Everything else is at its
reset value. A shorter level does nothing, and neither does one while reset is held. That a copy of the option area whose write is cut
off is torn (log entry 29), that host memory and the queue stand over power-on (log entry 126), and which writes are in flight (log entry
127: of a memory, a byte differs only where one of them goes, and nothing differs while there is none) is the model's choice. -/
def Obligations.ResetsKeepOnlyWhatTheyKeep : Prop :=
  ∀ s : State,
    (∃ t, exec .powerOnReset s = .next t ∧ t.pending = s.pending ∧
      t.ao = { nvA := t.ao.nvA, nvB := t.ao.nvB } ∧
      t.eng = { ret := t.eng.ret, host := t.eng.host, free := t.eng.free } ∧
      (∀ x, t.eng.host.rd x ≠ s.eng.host.rd x →
        ∃ w ∈ s.eng.flying, w.1 = true ∧ w.2.1 ≤ x ∧ x < w.2.1 + w.2.2.length) ∧
      (s.eng.flying = [] → t.eng.host = s.eng.host) ∧
      t.eng.retw 0 = 0x4C524D31 ∧ (∀ i, 0 < i → t.eng.retw i = 0) ∧
      (s.ao.nv = [] → t.ao.nvA = s.ao.nvA ∧ t.ao.nvB = s.ao.nvB)) ∧
    (∀ low, (low < 3 ∨ s.ao.phase = .inReset) → exec (.leRstNAssert low) s = .next s) ∧
    (∀ low, 3 ≤ low → s.ao.phase ≠ .inReset → ∃ t, exec (.leRstNAssert low) s = .next t ∧ t.pending = s.pending ∧
      t.ao.phase = .inReset ∧ t.ao.bkp = s.ao.bkp ∧ t.ao.tapIr = s.ao.tapIr ∧ t.ao.clkFail = false ∧ t.ao.cause = (if s.ao.clkFail then 2 else 1) ∧
      t.eng = { ret := t.eng.ret, retBad := t.eng.retBad, dev := t.eng.dev, host := t.eng.host, free := t.eng.free } ∧
      (∀ x, t.eng.dev.rd x ≠ s.eng.dev.rd x →
        ∃ w ∈ s.eng.flying, w.1 = false ∧ w.2.1 ≤ x ∧ x < w.2.1 + w.2.2.length) ∧
      (∀ x, t.eng.host.rd x ≠ s.eng.host.rd x →
        ∃ w ∈ s.eng.flying, w.1 = true ∧ w.2.1 ≤ x ∧ x < w.2.1 + w.2.2.length) ∧
      (s.eng.flying = [] → t.eng.dev = s.eng.dev ∧ t.eng.host = s.eng.host) ∧
      t.eng.retw 1 = satAdd (s.eng.retw 1) 1 ∧
      (t.eng.retw 4).toNat + (t.eng.retw 5).toNat * 2 ^ 32 = s.eng.hth.time.toNat ∧
      (∀ i, 32 ≤ i → t.eng.retw i = s.eng.retw i) ∧
      (s.ao.nv = [] → t.ao.nvA = s.ao.nvA ∧ t.ao.nvB = s.ao.nvB))

/-- R362, R366. The release of reset begins the load of the newer copy, generations compared modulo 2^32 and equal ones choosing
A. A copy that passes its CRC is committed; one that fails makes the loader try the other, and the third failure commits the
safe defaults: their trims are free (log entry 129), their generation and CRC 0 (log entry 131), both the model's choice.
R369. The end of a write of the option area stores its image into its copy, and leaves the other copy; a management write's
image gets the next generation and waits for the area: when such a write starts and which copy it goes to is the model's choice
(log entry 134). -/
def Obligations.OptionsAreLoadedAndWrittenByCopy : Prop :=
   (∀ s : State,
      (s.ao.phase = .inReset → ∃ d b, d = (nvGen s.ao.nvB + 2 ^ 32 - nvGen s.ao.nvA) % 2 ^ 32 ∧
        (b = true ↔ 1 ≤ d ∧ d < 2 ^ 31) ∧
        exec .resetRelease s = .next { s with ao := { s.ao with phase := .loading b 0 } }) ∧
      (∀ b fails, s.ao.phase = .loading b fails →
        (nvOk (nvCopy (if b then s.ao.nvB else s.ao.nvA)) = true →
          ∃ t, exec .optionLoadAttemptEnd s = .next t ∧ t.ao.phase = .pll ∧ t.ao.loaded = true ∧ t.ao.copyB = b ∧
            t.ao.attempts = fails ∧ t.ao.image = nvCopy (if b then s.ao.nvB else s.ao.nvA) ∧ t.eng = s.eng ∧
            t.pending = s.pending) ∧
        (nvOk (nvCopy (if b then s.ao.nvB else s.ao.nvA)) = false → fails < 2 →
          exec .optionLoadAttemptEnd s =
            .next { s with ao := { s.ao with phase := .loading (!b) (fails + 1), attempts := fails + 1 } }) ∧
        (nvOk (nvCopy (if b then s.ao.nvB else s.ao.nvA)) = false → 2 ≤ fails →
          ∃ t trims, exec .optionLoadAttemptEnd s = .next t ∧ List.length trims = 248 ∧ t.ao.phase = .pll ∧
            t.ao.defaulted = true ∧ t.ao.attempts = 3 ∧ t.ao.image = optDefaults trims ∧ t.pending = s.pending))) ∧
   (∀ s : State,
      (∀ w rest, s.ao.nv = w :: rest → w.image.length = 1028 → ∃ t, exec .optionAreaWriteEnd s = .next t ∧
        nvCopy (if w.copyB then t.ao.nvB else t.ao.nvA) = w.image ∧
        (if w.copyB then t.ao.nvA = s.ao.nvA else t.ao.nvB = s.ao.nvB) ∧ t.ao.image = s.ao.image ∧
        t.eng.dev = s.eng.dev ∧ t.eng.host = s.eng.host ∧ t.eng.dirs = s.eng.dirs) ∧
      (∀ image, s.ao.phase = .configured → image.length = 1020 → ∃ t w, exec (.managementOptionWrite image) s = .next t ∧
        t = { s with ao := { s.ao with nv := s.ao.nv ++ [w] } } ∧ w.copyB = !s.ao.copyB ∧ w.byEngine = false ∧
        w.image.take 1020 = image ∧ le w.image 0x3FC 4 = (le s.ao.image 0x3FC 4 + 1) % 2 ^ 32 ∧ nvOk w.image = true))

/-- R362, R370, R375. At the PLLs' lock the engine is configured: the gaffer, the reset block, the debug and access blocks and the
heath's identity take the committed options, each checked (R368), and the firmware check starts. Its end sets fw_ok, or fw_bad
with the first reason that holds. -/
def Obligations.ConfiguredStateTakesTheOptions : Prop :=
  ∀ s : State,
    (s.ao.phase = .pll → s.ao.clkFail = false → ∃ t im, exec .pllLock s = .next t ∧ im = (optCheck s.ao.image).1 ∧ t.ao.phase = .configured ∧
      t.ao.fwChk = true ∧ t.ao.cap = le im 0x10C 1 ∧ t.ao.ramp = le im 0x10D 1 ∧ t.ao.tThr = le im 0x10E 1 ∧
      t.ao.tTrip = le im 0x10F 1 ∧ t.ao.hold = le im 0x110 2 ∧ t.ao.idleUs = BitVec.ofNat 20 (le im 0x112 3) ∧
      t.ao.dbgCfg = BitVec.ofNat 7 (le im 0x115 1) ∧ t.eng.acc.cfgMaster = BitVec.ofNat 6 (le im 0x10A 1) ∧
      t.eng.acc.enforce = BitVec.ofNat 6 (le im 0x10B 1) ∧ t.eng.hth.cfg = BitVec.ofNat 23 (le im 0x104 4) ∧
      t.eng.hth.id = BitVec.ofNat 16 (le im 0x108 2) ∧ t.eng.hth.serial = BitVec.ofNat 64 (le im 0 8) ∧
      t.eng.dev = s.eng.dev ∧ t.eng.host = s.eng.host) ∧
    (∀ hdr crc sig v, s.runs = true → s.ao.fwChk = true →
      ∃ t, exec (.firmwareCheckEnd hdr crc sig v) s = .next t ∧ t.ao.fwChk = false ∧
        t.ao.fwOk = (hdr && crc && sig) ∧ t.ao.fwBad = !(hdr && crc && sig) ∧
        (hdr = false → t.ao.fwReason = 3) ∧ (hdr = true → crc = false → t.ao.fwReason = 1) ∧
        (hdr = true → crc = true → sig = false → t.ao.fwReason = 2) ∧
        (hdr = true → t.ao.fwVersion = v.setWidth 16))

/-- R377, R382, R383. A clock failure sets clk_fail, signals the carrier's reset pin logic, darkens every lane pair and logs the
failure, and another changes nothing. TMS held for five cycles selects IDCODE; a scan of the instruction register shows 0x01 and selects
what was shifted in: Capture-DR under IDCODE loads 0xB4C0_D0A3, under every code but IDCODE and DBG_REG the BYPASS bit (0, the model's
choice, log entry 138), and Update-DR then has no effect. Under DBG_REG, while dbg_en is 0, Capture-DR loads all ones and Update-DR has
no effect; while it is 1, they load the last access's data with done and denied, and make one access of dbg_master. That the scan comes
with the row is the model's choice (log entry 138). -/
def Obligations.ClockFailureAndDebugPort : Prop :=
  ∀ s : State,
    (s.ao.clkFail = false → ∃ t, exec .clockFailure s = .next t ∧ t.ao = { s.ao with clkFail := true, pinSignal := true } ∧
      t.runs = false ∧ t.eng.retw 32 = s.eng.retw 32 + 1 ∧
      (∀ p n : Nat, ((t.eng.zw.ports.get {} p).pairs.get {} n).safety = .off) ∧
      t.eng.dev = s.eng.dev ∧ t.eng.host = s.eng.host) ∧
    (s.ao.clkFail = true → exec .clockFailure s = .next s) ∧
    (∀ tck, exec (.tapReset tck) s = .next { s with ao := { s.ao with tapIr := if 5 ≤ tck then 1 else s.ao.tapIr } }) ∧
    (∃ t, exec (.dbgRegCapture (some 1)) s = .next t ∧
      t.ao = { s.ao with tapIr := 1, tapCap := 1, tapId := 0xB4C0D0A3 } ∧ t.eng = s.eng) ∧
    (∀ code, code ≠ 1 → code ≠ 0x20 →
      (∃ t, exec (.dbgRegCapture (some code)) s = .next t ∧
        t.ao = { s.ao with tapIr := code, tapCap := 1, tapByp := false } ∧ t.eng = s.eng) ∧
      ∀ data off w, exec (.dbgRegUpdate (some code) data off w) s = .next { s with ao := { s.ao with tapIr := code, tapCap := 1 } }) ∧
    (s.ao.tapIr ≠ 0x20 → ∀ data off w, exec (.dbgRegUpdate none data off w) s = .next s) ∧
    (∀ ir, (ir = some 0x20 ∨ (ir = none ∧ s.ao.tapIr = 0x20)) →
      (s.ao.dbgCfg.getLsbD 0 = false → ∀ data off w, ∃ t, exec (.dbgRegUpdate ir data off w) s = .next t ∧ t.eng = s.eng ∧
        t.ao.dbgData = s.ao.dbgData ∧ t.ao.dbgDone = s.ao.dbgDone) ∧
      (s.ao.dbgCfg.getLsbD 0 = false → ∃ t, exec (.dbgRegCapture ir) s = .next t ∧ t.ao.dbgReg = BitVec.allOnes 72 ∧
        t.eng = s.eng) ∧
      (s.ao.dbgCfg.getLsbD 0 = true → ∃ t, exec (.dbgRegCapture ir) s = .next t ∧ t.eng = s.eng ∧
        t.ao.dbgReg.extractLsb' 0 32 = s.ao.dbgData ∧ t.ao.dbgReg.getLsbD 65 = s.ao.dbgDone ∧
        t.ao.dbgReg.getLsbD 66 = s.ao.dbgDenied) ∧
      (∀ (m : Fin 64) (off : W32), s.ao.dbgCfg.getLsbD 0 = true → m.val = (s.ao.dbgCfg.toNat / 2) % 64 → off.toNat % 4 = 0 →
        (∀ data, s.serves m off.toNat (.wr32 data) = true → ∃ t, exec (.dbgRegUpdate ir data off true) s = .next t ∧
          t.eng = (s.perform m off.toNat (.wr32 data)).1.eng ∧ t.ao.dbgDone = true ∧ t.ao.dbgDenied = false) ∧
        (∀ data, s.serves m off.toNat .rd32 = true → ∃ t, exec (.dbgRegUpdate ir data off false) s = .next t ∧
          t.ao.dbgData = BitVec.ofNat 32 (s.perform m off.toNat .rd32).2 ∧ t.ao.dbgDone = true ∧ t.ao.dbgDenied = false)))
/-- R378 to R381, R280. The gaffer: T is the hottest of the sensors' readings, a sensor without a valid one counting as t_thr and setting
sensor_bad. An evaluation sets f to 0 at or above t_trip, and otherwise, unless a trip is still in force, to
the share of 680 W that the effective cap leaves, between 1/64 and 1 (over 130,560); the sweep's allowance follows f, but does not
rise while a lit pair of a live port lacks headroom; a thermal step moves the thermal cap by 10 W within 150 W and 900 W, and trips
at a reading of t_trip; a hold past its limit is reported once. None of the cap registers moves. Each row completes in every state:
before the first configured state only sensing goes on (R364), and a hold that is not over its limit or was reported changes nothing.
That trip and release are judged at each evaluation (log entry 136), that a hold is measured on the time base (log entry 168) and that the
share held back stands in state (log entry 204) is the model's choice. -/
def Obligations.GafferSetsTheAllowance : Prop :=
  (∀ s : State,
    (∀ power pf readings T, s.ao.hears readings T → s.runs = false → exec (.gafferEvaluation power pf readings) s =
      .next { s with ao := { s.ao with temp := T, hottest := T, sensorBad := s.ao.sensorBad || readings.contains none } }) ∧
    (∀ readings, s.runs = false → exec (.thermalCapStep readings) s = .next s) ∧
    ((s.runs = false ∨ s.eng.swp.moving = [] ∨ s.eng.swp.holdAt = none ∨ s.eng.swp.holdReported = true ∨
        ∃ since, s.eng.swp.holdAt = some since ∧ s.eng.hth.time.toNat ≤ since.toNat + s.ao.hold * 1000) →
      exec .holdLimitExpiry s = .next s)) ∧
  ∀ s : State, s.runs = true →
    (∀ power pf readings T, s.ao.hears readings T → ∃ t,
      exec (.gafferEvaluation power pf readings) s = .next t ∧ t.ao.temp = T ∧ t.ao.hottest = T ∧
      (s.ao.tTrip ≤ T → t.ao.f = 0 ∧ t.ao.trip = true) ∧
      (T < s.ao.tTrip → s.ao.trip = true → s.ao.tTrip ≤ T + 5 → t.ao.f = 0 ∧ t.ao.trip = true) ∧
      (T < s.ao.tTrip → (s.ao.trip = false ∨ T + 5 < s.ao.tTrip) → t.ao.trip = false ∧
        t.ao.f = min 130560 (max 2040 (1792 * (min s.ao.cap s.ao.thermal : Int) - 192 * (pf : Int)).toNat)) ∧
      t.ao.allow = (if s.eng.paces then min s.ao.allow t.ao.f else t.ao.f) ∧
      t.ao.sensorBad = (s.ao.sensorBad || readings.contains none) ∧ t.ao.cap = s.ao.cap ∧ t.ao.thermal = s.ao.thermal ∧
      (T < s.ao.tTrip → s.ao.overCnt < 9 → t.eng = s.eng)) ∧
    (∀ readings T, s.ao.hears readings T → ∃ t, exec (.thermalCapStep readings) s = .next t ∧
      t.ao = { s.ao with
        sensorBad := s.ao.sensorBad || readings.contains none, hottest := T,
        thermal := if s.ao.tThr ≤ T then max 15 (s.ao.thermal - 1)
          else if T + 2 < s.ao.tThr then min 90 (s.ao.thermal + 1) else s.ao.thermal,
        trip := s.ao.trip || decide (s.ao.tTrip ≤ T),
        f := if s.ao.tTrip ≤ T then 0 else s.ao.f, allow := if s.ao.tTrip ≤ T then 0 else s.ao.allow } ∧
      t.eng.dirs = s.eng.dirs ∧ t.eng.hth = s.eng.hth ∧ (T < s.ao.tTrip ∨ s.ao.trip = true → t.eng = s.eng)) ∧
    (∀ p rest since, s.eng.swp.moving = p :: rest → s.eng.swp.holdAt = some since → s.eng.swp.holdReported = false →
      since.toNat + s.ao.hold * 1000 < s.eng.hth.time.toNat →
      ∃ t, exec .holdLimitExpiry s = .next t ∧ t.ao = { s.ao with holdLong := true } ∧
        t.eng.swp = { s.eng.swp with holdReported := true } ∧ t.eng.dirs = s.eng.dirs ∧
        exec .holdLimitExpiry t = .next t)

/-- R371, R372. A restart: a write of LE_RST_RESTART asks the named blocks, but those already restarting, to go idle, and notes the
time; a block that is idle enters reset, as does one that was asked LE_RST_IDLE_TIMEOUT ago, which sets to_expired; it returns at its
release, with nothing waiting at the register port. The other blocks' restarts stand, but for a timeout of block 0, which takes along
those that hold tickets (log entry 118, the model's choice); that the timeout runs on the time base is log entry 112's.
R389. A single-bit error, and one in storage that only copies memory, counts as corrected, the sward's by its own counter, and ends
nothing. Any other error of internal storage sets storage_err and ends the work that owns the location: a command in flight is
finished with status fault and the uncorrectable flag, one in the buffer is marked and ends so at its dispatch, a LAUNCH that has not
begun gives its director back, and one whose program runs ends by its program's fault, 0x0C (log entry 186). Kinds of error and where
they count (log entry 202) and the owner's uncorrectable flag (log entry 125) are the model's choice too. R374. A word of retained
memory with such an error reads all ones. -/
def Obligations.BlocksRestartAndStorageErrorsEndTheirOwner : Prop :=
   (∀ s : State,
      (∀ (m : Fin 64) (v : W32), s.serves m 8 (.wr32 v) = true → ∃ t, exec (.blockRestartRequest m v) s = .next t ∧
        (∀ b : Fin 10, ∃ w, t.eng.rs.get none b.val =
          if v.toNat / 2 ^ b.val % 2 = 1 ∧ (s.eng.rs.get none b.val).isNone then some (.idleReq s.eng.hth.time w)
          else s.eng.rs.get none b.val) ∧
        t.ao = s.ao) ∧
      (∀ (b : Fin 10) since w, s.runs = true → s.eng.rs.get none b.val = some (.idleReq since w) →
        (s.eng.isIdle b.val = true →
          ∃ t, exec (.blockIdle b) s = .next t ∧ t.ao = s.ao ∧
            ∀ k, t.eng.rs.get none k = if k = b.val then some (.inReset false w) else s.eng.rs.get none k) ∧
        (s.eng.isIdle b.val = false → exec (.blockIdle b) s = .next s) ∧
        (since.toNat + 1000 * s.ao.idleUs.toNat ≤ s.eng.hth.time.toNat →
          ∃ t, exec (.idleTimeoutExpiry b) s = .next t ∧ t.ao = { s.ao with toExpired := true } ∧
            t.eng.rs.get none b.val = some (.inReset true w) ∧
            (b.val ≠ 0 → ∀ k, k ≠ b.val → t.eng.rs.get none k = s.eng.rs.get none k)) ∧
        (s.eng.hth.time.toNat < since.toNat + 1000 * s.ao.idleUs.toNat → exec (.idleTimeoutExpiry b) s = .next s)) ∧
      (∀ (b : Fin 10) x w, s.runs = true → s.eng.rs.get none b.val = some (.inReset x w) → s.eng.port.waiting = [] →
        ∃ t, exec (.blockRestartRelease b) s = .next t ∧ t.ao = s.ao ∧ t.eng.port.waiting = [] ∧
          ∀ k, t.eng.rs.get none k = if k = b.val then none else s.eng.rs.get none k)) ∧
   (∀ (s : State) (cls : BitVec 4) (inst : W16),
      (∀ i, ∃ t, exec (.internalStorageError cls inst (.retained i)) s = .next t ∧ t.eng.retw i = 0xFFFFFFFF ∧
        (∀ j, j ≠ i → t.eng.retw j = s.eng.retw j) ∧ t.ao = s.ao ∧ t.eng.dev = s.eng.dev ∧ t.eng.dirs = s.eng.dirs)) ∧
   (∀ (s : State) (cls : BitVec 4) (inst : W16), s.runs = true →
      (∀ err, (err = .single ∨ ∃ a, err = .copy a) → ∃ t, exec (.internalStorageError cls inst err) s = .next t ∧ t.ao = s.ao ∧
        t.eng.flt = { s.eng.flt with corr := if cls = 7 then s.eng.flt.corr else satAdd s.eng.flt.corr 1 } ∧
        (cls = 7 → s.eng.swd.ctrs.ctl.toNat % 2 = 1 → t.eng.swd.ctrs.live.get 0 7 = s.eng.swd.ctrs.live.get 0 7 + 1) ∧
        (err = .single → cls ≠ 7 → t.eng.dirs = s.eng.dirs ∧ t.eng.hc = s.eng.hc ∧ t.eng.swd = s.eng.swd) ∧
        (∀ a : W64, err = .copy a → cls = 2 → (t.eng.dir (inst.toNat % 8)).icache.get [] (a.toNat / 64) = []) ∧
        (∀ a : W64, err = .copy a → cls = 10 → t.eng.hc.buf (a.toNat / 4096) = none) ∧
        t.eng.fe = s.eng.fe ∧ t.eng.dev = s.eng.dev ∧ t.eng.host = s.eng.host) ∧
      (∀ o, ∃ t, exec (.internalStorageError cls inst (.lost o)) s = .next t ∧ t.eng.flt.storageErr = true ∧ t.ao = s.ao ∧
        t.eng.flt.corr = s.eng.flt.corr) ∧
      (∀ (n : Fin 64) (k : W24) c, (s.eng.reel n.val).inflight = [c] → c.count = k → c.finished = false →
        s.eng.flt.auto = 0 → ∃ t d, exec (.internalStorageError cls inst (.lost (.cmd n k))) s = .next t ∧
          (¬ (c.type = 1 ∧ c.phase = .running) → (t.eng.reel n.val).inflight = [{ c with phase := .done 4 4 d }]) ∧
          (c.type = 1 → c.phase = .ready → (t.eng.dir c.dir).reserved = false) ∧
          (c.type = 1 → c.phase = .running → c.dir < 8 → (s.eng.dir c.dir).st = .running →
            (t.eng.dir c.dir).faulted = true ∧ (t.eng.dir c.dir).cause = 0x0C)) ∧
      (∀ (n : Fin 64) (k : W24), (s.eng.reel n.val).inflight = [] → s.eng.flt.auto = 0 →
        ∃ t, exec (.internalStorageError cls inst (.lost (.cmd n k))) s = .next t ∧ (t.eng.reel n.val).inflight = [] ∧
          (t.eng.reel n.val).slots = (s.eng.reel n.val).slots.map fun y => if y.count = k then { y with lost := true } else y))
/-- R373, with R4 and R6: a served write of a plain 32-bit register is performed at its block, and nothing else happens. A backup
register holds what is written to it, and nothing but it changes; power-on reset zeroes the backup registers and LE_RST_N keeps them. -/
def Obligations.RegisterWriteIsPerformed : Prop :=
  (∀ (s : State) (m : Fin 64) (off : BitVec 20) (v : W32), off.toNat % 4 = 0 → s.serves m off.toNat (.wr32 v) = true →
    (isPair off.toNat = false → (4 ≤ off.toNat → isPair (off.toNat - 4) = false) →
      exec (.registerWrite m off v) s = .next (s.blkWr m off.toNat v.toNat)) ∧
    (∀ i < 32, off.toNat = 0x80 + 4 * i →
      exec (.registerWrite m off v) s = .next { s with ao := { s.ao with bkp := s.ao.bkp.set 0 i v } })) ∧
  (∀ s : State, (∃ t, exec .powerOnReset s = .next t ∧ ∀ n, t.ao.bkp.get 0 n = 0) ∧
    (∀ low, ∃ t, exec (.leRstNAssert low) s = .next t ∧ t.ao.bkp = s.ao.bkp))

/-- R4, R353, R399. An access of a wrong size or alignment, or with no target, has no effect on any register and answers a read
with 0xFFFF_FFFF; from the first configured state on it is a denial, which is counted, and recorded with its offset when none is
recorded. Before, it is not counted.
While something of its master's waits at the register port it waits behind it (R401).
R350, R353. Clearing deny_valid clears nothing else; a write of LE_ACC_CTL with lock set locks the block, after which a write
of it by any other master than the configuration master is denied. The message reels write what they still owe (R89, log entry
182), which is nothing where no reel counts a loss or holds a record. -/
def Obligations.RefusedAccessesChangeNothingAndTheLockHolds : Prop :=
   (∀ (s : State) (m : Fin 64) (off : BitVec 20),
      (∀ size w, ¬ (size = 4 ∧ off.toNat % 4 = 0) → ¬ (size = 8 ∧ off.toNat % 8 = 0 ∧ isPair off.toNat = true) →
        (s.runs = false → w = true → exec (.registerAccessBadSize m off size w) s = .next s) ∧
        (s.runs = false → w = false →
          exec (.registerAccessBadSize m off size w) s = .next (s.respond m 0xFFFFFFFF)) ∧
        (s.runs = true → s.eng.portHeld m = true → exec (.registerAccessBadSize m off size w) s =
          .next (s.wait { master := m, off := off.toNat, acc := .bad w, passed := false })) ∧
        (s.runs = true → s.eng.portHeld m = false → s.eng.acc.denyValid = true → w = true →
          exec (.registerAccessBadSize m off size w) s =
            .next { s with eng := { s.eng with acc := { s.eng.acc with denyCnt := satAdd s.eng.acc.denyCnt 1 } } }) ∧
        (s.runs = true → s.eng.portHeld m = false → s.eng.acc.denyValid = false → ∃ t, exec (.registerAccessBadSize m off size w) s = .next t ∧
          t.ao = s.ao ∧ t.eng.dirs = s.eng.dirs ∧ t.eng.clp = s.eng.clp ∧ t.eng.acc.denyValid = true ∧
          t.eng.acc.regions = s.eng.acc.regions ∧ t.eng.acc.denyAddr.toNat = off.toNat ∧
          t.eng.acc.denyInfo.toNat % 64 = m.val ∧ t.eng.acc.denyInfo.getLsbD 11 = w ∧
          t.eng.acc.denyInfo.getLsbD 12 = !w ∧ t.eng.acc.denyInfo.getLsbD 13 = true ∧
          (w = false → t.eng.port.resp = some { master := m, data := 0xFFFFFFFF }))) ∧
      (∀ w, 0x60000 ≤ off.toNat → off.toNat % 4 = 0 → s.runs = true →
        s.eng.portHeld m = false → s.eng.acc.denyValid = true →
        (w = true → exec (.registerAccessNoTarget m off w) s =
          .next { s with eng := { s.eng with acc := { s.eng.acc with denyCnt := satAdd s.eng.acc.denyCnt 1 } } }) ∧
        (w = false → ∃ t, exec (.registerAccessNoTarget m off w) s = .next t ∧ t.ao = s.ao ∧
          t.eng.acc = { s.eng.acc with denyCnt := satAdd s.eng.acc.denyCnt 1 } ∧
          t.eng.port.resp = some { master := m, data := 0xFFFFFFFF } ∧ t.eng.dirs = s.eng.dirs))) ∧
   (∀ (s : State) (m : Fin 64),
      (s.serves m 0x9004 (.wr32 1) = true → exec (.denyValidClear m) s =
        .next { s with eng := { s.eng with acc := { s.eng.acc with denyValid := false } } }) ∧
      (∀ v : W32, s.serves m 0x9000 (.wr32 (v ||| 0x40)) = true → ∃ acc, acc =
          { s.eng.acc with cfgMaster := v.extractLsb' 0 6, lock := true, enforce := v.extractLsb' 8 6 } ∧
        exec (.accCtlLock m v) s = .next { s with eng := Eng.flushAll { s.eng with acc := acc } } ∧
        ((∀ n, (s.eng.mreel n).lost = 0 ∧ (s.eng.mreel n).held = []) →
          Eng.flushAll { s.eng with acc := acc } = { s.eng with acc := acc })) ∧
      (∀ (off : BitVec 20) (v : W32), s.runs = true → s.eng.acc.lock = true → m.val ≠ s.eng.acc.cfgMaster.toNat →
        s.eng.portHeld m = false → s.eng.acc.denyValid = true → off.toNat % 4 = 0 →
        0x9000 ≤ off.toNat → off.toNat < 0xA000 → exec (.registerWrite m off v) s =
          .next { s with eng := { s.eng with acc := { s.eng.acc with denyCnt := satAdd s.eng.acc.denyCnt 1 } } }))

/-- R5, R403. A low-word read of a pair answers its low word and latches its high word for its master alone; a low-word write places
the word in its master's latch and commits nothing; a high-word write commits both words at once, the low one being the one its master
placed since, or else the one that stands, which for a clapper's value is the one at its bank's turn (R343). Nothing else of the machine
changes by the read or the low-word write. A pair lies within one block; a reset discards every latch, and a restart those of its block.
That a master has a latch for each pair, where R403 speaks of a latch per master and block, is the model's choice (log entry 145). -/
def Obligations.PairsAreReadAndWrittenWhole : Prop :=
  (∀ (s : State) (m : Fin 64) (off : BitVec 20),
    (isPair off.toNat = true → s.serves m off.toNat .rd32 = true → ∃ t, exec (.pairLowWordRead m off) s = .next t ∧
      t.eng.port.resp = some { master := m, data := BitVec.ofNat 64 (s.blkRd off.toNat % 2 ^ 32) } ∧
      (t.latch m off.toNat).rd = some (BitVec.ofNat 32 (s.blkRd off.toNat / 2 ^ 32)) ∧
      (∀ m' off', off' < 2 ^ 20 → (m' ≠ m ∨ off' ≠ off.toNat) → t.latch m' off' = s.latch m' off') ∧
      t = { s with eng := { s.eng with port := t.eng.port } }) ∧
    (∀ v, isPair off.toNat = true → s.serves m off.toNat (.wr32 v) = true → ∃ t, exec (.registerWrite m off v) s = .next t ∧
      t.latch m off.toNat = { s.latch m off.toNat with wr := some v } ∧
      (∀ m' off', off' < 2 ^ 20 → (m' ≠ m ∨ off' ≠ off.toNat) → t.latch m' off' = s.latch m' off') ∧
      t = { s with eng := { s.eng with port := { s.eng.port with latches := t.eng.port.latches } } }) ∧
    (∀ v lo, 4 ≤ off.toNat → isPair (off.toNat - 4) = true → isPair off.toNat = false →
      s.serves m off.toNat (.wr32 v) = true →
      lo = (match (s.latch m (off.toNat - 4)).wr with
        | some w => w.toNat
        | none => s.blkRd (off.toNat - 4) % 2 ^ 32) →
      exec (.pairHighWordWrite m off v) s =
        .next ((s.onLatch m (off.toNat - 4) fun l => { l with wr := none }).blkWr m (off.toNat - 4) (v.toNat * 2 ^ 32 + lo) none
          (s.latch m (off.toNat - 4)).wr.isNone))) ∧
  (∀ off, isPair off = true → regBlock (off + 4) = regBlock off) ∧
  (∀ (s : State) (m m' : Fin 64) (off off' : Nat) f, off < 2 ^ 20 → off' < 2 ^ 20 → (m' ≠ m ∨ off' ≠ off) →
    (s.onLatch m off f).latch m' off' = s.latch m' off') ∧
  (∀ (s : State) c, (c = .powerOnReset ∨ (s.ao.phase ≠ .inReset ∧ ∃ low, 3 ≤ low ∧ c = .leRstNAssert low)) → ∃ t,
    exec c s = .next t ∧ ∀ (m : Fin 64) (off : Nat), t.latch m off = {}) ∧
  (∀ (s : State) (b : Fin 10) x w, s.runs = true → s.eng.rs.get none b.val = some (.inReset x w) → s.eng.port.waiting = [] → ∃ t,
    exec (.blockRestartRelease b) s = .next t ∧ ∀ (m : Fin 64) (off : Nat), off < 2 ^ 20 →
      t.latch m off = if restartBit (regBlock off).1 = some b.val then {} else s.latch m off)

/-- R6, R8, R89, R107, R346, R353, R389. A read of a counter that clears when read answers its value and leaves it 0, and nothing
else changes.
R43, R145, R174, R199, R225, R253, R271, R295. A snapshot copies every live counter of the block at once, and a clear zeroes
them after it; other blocks' counters stand. -/
def Obligations.CountersClearWhenReadSnapAndClear : Prop :=
   (∀ (s : State) (m : Fin 64),
      (s.serves m 0x900C .rd32 = true → exec (.accDenyCntRead m) s =
        .next (({ s with eng := { s.eng with acc := { s.eng.acc with denyCnt := 0 } } } : State).respond m
          s.eng.acc.denyCnt.toNat)) ∧
      (s.serves m 0x8008 .rd32 = true → exec (.fltCorrRead m) s =
        .next (({ s with eng := { s.eng with flt := { s.eng.flt with corr := 0 } } } : State).respond m s.eng.flt.corr.toNat)) ∧
      (∀ d : Fin 8, s.serves m (0xB030 + 0x40 * d.val) .rd32 = true → exec (.dirStallRead m d) s =
        .next ((s.setDir d { s.eng.dir d.val with stall := 0 }).respond m (s.eng.dir d.val).stall.toNat)) ∧
      (s.serves m 0x40004 .rd32 = true → exec (.clpDroppedRead m) s =
        .next (({ s with eng := { s.eng with clp := { s.eng.clp with dropCnt := 0 } } } : State).respond m
          s.eng.clp.dropCnt.toNat)) ∧
      (∀ n : Fin 16, s.serves m (0xA814 + 0x20 * n.val) .rd32 = true → exec (.mreelLostRead m n) s =
        .next (({ s with eng := s.eng.setMreel n.val { s.eng.mreel n.val with lost := 0 } } : State).respond m
          (s.eng.mreel n.val).lost.toNat))) ∧
   (∀ (s : State) (m : Fin 64) (b : CtrBlk) (v : W32),
      (s.serves m (ctlOf b) (.wr32 (v ||| 4)) = true → ∃ t, exec (.counterSnap m b v) s = .next t ∧
        (s.eng.ctrs b).live = (t.eng.ctrs b).snap ∧
        (t.eng.ctrs b).live = (if v.getLsbD 3 then [] else (s.eng.ctrs b).live) ∧
        (∀ b', b' ≠ b → t.eng.ctrs b' = s.eng.ctrs b') ∧ t.ao = s.ao ∧ t.eng.dirs = s.eng.dirs) ∧
      (s.serves m (ctlOf b) (.wr32 (v ||| 8)) = true → ∃ t, exec (.counterClear m b v) s = .next t ∧
        (t.eng.ctrs b).live = [] ∧
        (t.eng.ctrs b).snap = (if v.getLsbD 2 then (s.eng.ctrs b).live else (s.eng.ctrs b).snap) ∧
        (∀ b', b' ≠ b → t.eng.ctrs b' = s.eng.ctrs b') ∧ t.ao = s.ao ∧ t.eng.dirs = s.eng.dirs))

/-- R349. An access is granted exactly when the lowest-numbered enabled region of its target that holds a granule grants it, for
every granule of its range: the model's decision at the regions' edges is the decision at every unit. -/
def Obligations.GrantMeansEveryGranuleIsGranted : Prop :=
  ∀ (c : Acc) (t : Nat) (m : Fin 64) (rd wr : Bool) (lo n : Nat), c.checks t m = true →
    (c.firstDenied t m rd wr lo n = none ↔ ∀ u, lo ≤ u → u < lo + n → c.refuses t m rd wr u = false)

/-- R54 to R59, R64. A commit starts one check; a second one is refused with reason 6. A check that passes makes the staged map
active; one that fails leaves the active map and records its reason. The staged base stands while a check runs. The walk and
the drain of the old version end, and a replica is readmitted once its reload has ended and nothing of it failed.
R64, R328. A comparison of an entry homed here reads home's rows and asks the replica's position for the replica's, unless a lane
claims a row of it, for which it waits; when they have come,
it records the print sequence where they are equal, and excludes the replica that differs until it is reloaded; a replica that
fails its own checks is loaded again and not judged, and a home copy that does is written from the replica. The model's choice is that
the entries are parsed at the check's end (log entry 10), that a comparison takes the place of another of the same entry and leaves failed
positions out (log entry 73), that a peer's rows are read by stream requests (log entry 72), and what repairs a copy (log entry 71). -/
def Obligations.MapsAreCheckedAndReplicasCompared : Prop :=
   (∀ s : State,
      (∀ m : Fin 64, s.serves m 0xC024 (.wr32 1) = true → s.eng.map.pending = false → ∃ mp,
        mp = { s.eng.map with pending := true, fromLead := false } ∧
        exec (.mapCommit m) s = .next { s with eng := { s.eng with map := mp } }) ∧
      (∀ m : Fin 64, s.serves m 0xC024 (.wr32 1) = true → s.eng.map.pending = true → ∃ t, exec (.mapCommit m) s = .next t ∧
        t.eng.map = { s.eng.map with refused := true, reason := 6 }) ∧
      (∀ r, s.runs = true → s.eng.map.pending = true → s.eng.swdWaits 0 0 = false → ∃ t, exec (.mapCheckEnd r) s = .next t ∧ t.eng.map.pending = false ∧
        ((s.eng.mapCheck r).2.1 = 0 → t.eng.map.activeVer = (s.eng.mapCheck r).2.2.2.version ∧
          t.eng.map.activeBase = s.eng.map.stagedBase ∧ t.eng.map.oldWait = true ∧
          t.eng.map.ents = (s.eng.mapCheck r).2.2.2.ents) ∧
        ((s.eng.mapCheck r).2.1 ≠ 0 → t.eng.map.refused = true ∧
          t.eng.map.reason = BitVec.ofNat 4 (s.eng.mapCheck r).2.1 ∧ t.eng.map.activeVer = s.eng.map.activeVer ∧
          t.eng.map.ents = s.eng.map.ents ∧ t.eng.map.reps = s.eng.map.reps)) ∧
      (∀ (m : Fin 64) (v : W64), s.serves m 0xC010 (.wr64 v) = true → ∃ t, exec (.mapStagedBaseWrite m v) s = .next t ∧
        t.eng.map = (if s.eng.map.pending then { s.eng.map with stagedBusy := true }
          else { s.eng.map with stagedBase := BitVec.ofNat 64 (v.toNat / 64 * 64) }) ∧ t.ao = s.ao ∧ t.eng.dirs = s.eng.dirs) ∧
      (s.runs = true → s.eng.map.oldWait = true → s.eng.oldOut = 0 → ∃ t, exec .mapOldDrained s = .next t ∧
        t.eng.map = { s.eng.map with done := true, oldWait := false, oldLead := false }) ∧
      (s.runs = true → s.eng.map.pinWalk = true → s.eng.swd.pending = false → s.eng.busy 5 = false →
        (∀ r ∈ s.eng.tier1, ∀ k ∈ linesOf r.1.toNat r.2, s.eng.pinWaits k = false) → ∃ t, exec .mapPinWalk s = .next t ∧ t.eng.map.pinWalk = false ∧
        t.eng.map.ents = s.eng.map.ents ∧
        ∀ k l, s.eng.swd.enabled = false → t.eng.swd.lines.get none k = some l → l.mpin = true →
          ∃ l', s.eng.swd.lines.get none k = some l' ∧ l'.mpin = true) ∧
      (∀ entry rep, s.runs = true → ∃ t, exec (.replicaReloadEnd entry rep) s = .next t ∧
        ((s.eng.zw.awaits fun u _ _ => u == .reload entry rep) = true ∨ (entry, rep) ∈ s.eng.map.unloaded → t = s) ∧
        ((s.eng.zw.awaits fun u _ _ => u == .reload entry rep) = false → (entry, rep) ∉ s.eng.map.unloaded →
          (entry, rep) ∉ t.eng.map.excluded) ∧
        (∀ x, x ≠ (entry, rep) → (x ∈ t.eng.map.excluded ↔ x ∈ s.eng.map.excluded)) ∧
        t.eng.map.ents = s.eng.map.ents ∧ t.eng.dev = s.eng.dev)) ∧
   (∀ (s : State) (m : Fin 64) (x : Ent) (r : Rep) bad, s.serves m 0xC024 (.wr32 2) = true → s.eng.map.ents = [x] →
      x.nrep = 1 → x.home = s.eng.hth.pos → (s.eng.homeEnt 0 x).reps = [r] → s.eng.hth.isFailed r.position = false →
      0 < x.rowCount → 0 < (s.eng.homeEnt 0 x).bytes →
      ∃ t c, exec (.repCheck m bad) s = .next t ∧
        t.eng.map.cmps = (s.eng.map.cmps.filter fun d => !(d.h.ent.table == x.table && d.h.ent.firstRow == x.firstRow &&
          d.h.ent.elemFirst == x.elemFirst)) ++ [c] ∧
        (∀ d ∈ s.eng.map.cmps, d.num < c.num) ∧ c.h = s.eng.homeEnt 0 x ∧ c.seq = s.eng.tk.printSeq ∧ c.bad = bad.contains 0 ∧
        (s.eng.claimedIn x = true → c.begun = false ∧ c.home = none) ∧
        (s.eng.claimedIn x = false → c.begun = true ∧ (c.bad = true → c.home = none) ∧
          (c.bad = false → x.tier = 3 → c.home = some ((x.subRows c.h.bytes x.base.toNat).flatMap fun y => s.eng.rdMem true true y.1 y.2)) ∧
          (t.eng.zw.awaits fun u dst _ => u == .compare c.num 0 && dst == r.position) = true) ∧ t.eng.dev = s.eng.dev ∧
        t.eng.map.matched = s.eng.map.matched ∧ t.eng.map.excluded = s.eng.map.excluded) ∧
   (∀ (e : Eng) (num i k j : Nat) (c : RepCmp) (r : Rep), (e.map.cmps.find? fun (c : RepCmp) => c.num == num) = some c →
      c.begun = true → c.h.reps = [r] → e.hth.isFailed r.position = false → e.map.homeAt c.h = some i →
      e.map.repAt c.h r = some (k, j) →
      (e.zw.awaits fun u _ _ => match u with
        | .compare n _ => n == num
        | _ => false) = false →
      (∀ h, c.home = some h →
        (c.bytes 0 r = some h →
          (e.repDone num).map.matched = e.map.matched.set 0 i c.seq ∧ (k, j) ∉ (e.repDone num).map.excluded ∧
          (e.repDone num).dev = e.dev ∧ (e.repDone num).zw = e.zw) ∧
        (∀ b, c.bytes 0 r = some b → b ≠ h →
          (k, j) ∈ (e.repDone num).map.excluded ∧ (e.repDone num).map.matched = e.map.matched) ∧
        (c.bytes 0 r = none →
          (e.repDone num).map.excluded = e.map.excluded ∧ (e.repDone num).map.matched = e.map.matched ∧ (e.repDone num).dev = e.dev)) ∧
      (∀ b, c.home = none → c.bytes 0 r = some b → c.h.ent.rowCount = 1 → c.h.ent.tier = 3 →
        (e.repDone num).host = e.host.wrN c.h.ent.base.toNat (b.take c.h.bytes) ∧
        (e.repDone num).map.excluded = e.map.excluded ∧ (e.repDone num).map.matched = e.map.matched))
/-- R71, R73, R75, R90, R91, R405. The registers of the reels: a doorbell within the reel's size of RD advances WR and clears a halt,
and one beyond it halts the reel; RD, the base and the sizes change only while the reel is disabled and idle, and a refused
change sets cfg_busy alone; disabling discards what was fetched; an enabled message reel takes a valid RD. A doorbell that names a
count before WR does nothing. A message reel armed while records lie between RD and WR interrupts at once and is left unarmed; clearing
its enable drops the records it holds and counts them lost; with space it writes the messages-lost record 0x0020 (R89), or else a record
it holds. That a halt or a disable discards the fetched slots is the model's reading (logs 27 and 174). -/
def Obligations.ReelRegistersObeyTheirReel : Prop :=
  ∀ (s : State) (m n : Fin 64),
    (∀ v : W32, s.serves m (0xA00C + 0x20 * n.val) (.wr32 v) = true →
      ((s.eng.reel n.val).size < (v.setWidth 24 - (s.eng.reel n.val).rd).toNat → ∃ t, exec (.reelDoorbell m n v) s = .next t ∧
        t.eng.reel n.val = { s.eng.reel n.val with halted := true, overrun := true, slots := [], passed := 0, agedAt := none } ∧
        t.ao = s.ao) ∧
      (((s.eng.reel n.val).wr - (s.eng.reel n.val).rd).toNat < (v.setWidth 24 - (s.eng.reel n.val).rd).toNat →
        (v.setWidth 24 - (s.eng.reel n.val).rd).toNat ≤ (s.eng.reel n.val).size →
        ∃ r, r = { s.eng.reel n.val with wr := v.setWidth 24, halted := false } ∧
          exec (.reelDoorbell m n v) s = .next { s with eng := s.eng.setReel n.val r }) ∧
      (v.setWidth 24 = (s.eng.reel n.val).wr →
        ((s.eng.reel n.val).wr - (s.eng.reel n.val).rd).toNat ≤ (s.eng.reel n.val).size →
        ∃ r, r = { s.eng.reel n.val with halted := false } ∧
          exec (.reelDoorbell m n v) s = .next { s with eng := s.eng.setReel n.val r }) ∧
      ((v.setWidth 24 - (s.eng.reel n.val).rd).toNat < ((s.eng.reel n.val).wr - (s.eng.reel n.val).rd).toNat →
        ((s.eng.reel n.val).wr - (s.eng.reel n.val).rd).toNat ≤ (s.eng.reel n.val).size →
        exec (.reelDoorbell m n v) s = .next s)) ∧
    (∀ v : W32, s.serves m (0xA008 + 0x20 * n.val) (.wr32 v) = true → v.getLsbD 0 = false → ∃ t r,
      exec (.reelCfgWrite m n v) s = .next t ∧ r = t.eng.reel n.val ∧ r.en = false ∧ r.slots = [] ∧
      r.inflight = (s.eng.reel n.val).inflight ∧ r.prio = v.toNat / 64 % 8 ∧
      ((s.eng.reel n.val).en = true → r.size = (s.eng.reel n.val).size ∧ r.loc = (s.eng.reel n.val).loc) ∧
      t.eng.dirs = s.eng.dirs ∧ t.ao = s.ao) ∧
    (∀ v : W32, s.serves m (0xA014 + 0x20 * n.val) (.wr32 v) = true → ∃ r,
      r = (if (s.eng.reel n.val).en = false ∧ (s.eng.reel n.val).idle = true then
          { s.eng.reel n.val with rd := v.setWidth 24, done := v.setWidth 24, wr := v.setWidth 24 }
        else { s.eng.reel n.val with cfgBusy := true }) ∧
      exec (.reelRdWrite m n v) s = .next { s with eng := s.eng.setReel n.val r }) ∧
    (∀ v : W64, s.serves m (0xA000 + 0x20 * n.val) (.wr64 v) = true → ∃ t, exec (.reelBaseWrite m n v) s = .next t ∧
      t.eng.reel n.val = (if (s.eng.reel n.val).en = false ∧ (s.eng.reel n.val).idle = true then
          { s.eng.reel n.val with base := BitVec.ofNat 64 (v.toNat / 4096 * 4096) }
        else { s.eng.reel n.val with cfgBusy := true }) ∧ t.ao = s.ao ∧ t.eng.dirs = s.eng.dirs) ∧
    (∀ (k : Fin 16) (v : W32), s.serves m (0xA808 + 0x20 * k.val) (.wr32 v) = true → (s.eng.mreel k.val).enabled = false →
      v.getLsbD 0 = true → 11 ≤ v.toNat / 4 % 16 → ∃ t, exec (.mreelCfgWrite m k v) s = .next t ∧
        (t.eng.mreel k.val).enabled = false ∧ (t.eng.mreel k.val).cfgRefused = true ∧ t.ao = s.ao) ∧
    (∀ (k : Fin 16) (v : W32), s.serves m (0xA808 + 0x20 * k.val) (.wr32 v) = true → (s.eng.mreel k.val).enabled = false →
      (s.eng.mreel k.val).held = [] → (s.eng.mreel k.val).lost = 0 → v.getLsbD 0 = true → v.toNat / 4 % 16 < 11 →
      v.toNat < 2 ^ 18 → ∃ r, r = { s.eng.mreel k.val with cfg := v } ∧
        exec (.mreelCfgWrite m k v) s = .next { s with eng := s.eng.setMreel k.val r }) ∧
    (∀ (k : Fin 16) (v : W32), s.serves m (0xA810 + 0x20 * k.val) (.wr32 v) = true → v.getLsbD 24 = false →
      (s.eng.mreel k.val).held = [] → (s.eng.mreel k.val).lost = 0 → ∃ r,
      r = (if (s.eng.mreel k.val).size < ((s.eng.mreel k.val).wr - v.setWidth 24).toNat then
          { s.eng.mreel k.val with cfgBusy := true }
        else { s.eng.mreel k.val with rd := v.setWidth 24 }) ∧
      exec (.mreelRdWrite m k v) s = .next { s with eng := s.eng.setMreel k.val r }) ∧
    (∀ (k : Fin 16) (v : W32) (r : MReel), r = s.eng.mreel k.val → s.serves m (0xA810 + 0x20 * k.val) (.wr32 v) = true →
      v.getLsbD 24 = true → r.held = [] → r.lost = 0 → (r.wr - v.setWidth 24).toNat ≤ r.size →
      ∃ t, exec (.mreelRdWrite m k v) s = .next t ∧
        ((v.setWidth 24 = r.wr ∨ r.cfg.getLsbD 6 = false) → t.eng.mreel k.val = { r with rd := v.setWidth 24, armed := true } ∧
          t.eng.fe.msi = s.eng.fe.msi) ∧
        (v.setWidth 24 ≠ r.wr → r.cfg.getLsbD 6 = true → t.eng.mreel k.val = { r with rd := v.setWidth 24, armed := false } ∧
          t.eng.fe.msi = s.eng.fe.msi ++ [r.cfg.extractLsb' 7 11]) ∧
        (∀ j, j ≠ k.val → t.eng.mreel j = s.eng.mreel j) ∧ t.eng.dev = s.eng.dev ∧ t.eng.host = s.eng.host ∧ t.ao = s.ao) ∧
    (∀ (k : Fin 16) (v : W32) (r : MReel), r = s.eng.mreel k.val → s.serves m (0xA808 + 0x20 * k.val) (.wr32 v) = true →
      v.getLsbD 0 = false → ∃ t, exec (.mreelCfgWrite m k v) s = .next t ∧ (t.eng.mreel k.val).enabled = false ∧
        (t.eng.mreel k.val).held = [] ∧
        (t.eng.mreel k.val).lost = BitVec.ofNat 32 (min (r.lost.toNat + r.held.length) 0xFFFFFFFF) ∧
        (t.eng.mreel k.val).wr = r.wr ∧ (t.eng.mreel k.val).rd = r.rd ∧ (t.eng.mreel k.val).armed = r.armed ∧
        t.eng.dev = s.eng.dev ∧ t.eng.host = s.eng.host ∧ t.ao = s.ao) ∧
    (∀ (k : Fin 16) (v : W32) (r : MReel) (a : Nat), r = s.eng.mreel k.val →
      s.serves m (0xA810 + 0x20 * k.val) (.wr32 v) = true → r.enabled = true → r.cfg.getLsbD 1 = true → r.cfg.getLsbD 6 = false →
      (r.wr - v.setWidth 24).toNat < r.size → a = r.base.toNat + 32 * (r.wr.toNat % r.size) →
      s.eng.acc.firstDenied 5 63 false true a 32 = none →
      (r.lost ≠ 0 → r.held = [] → ∃ t, exec (.mreelRdWrite m k v) s = .next t ∧
        t.eng.mreel k.val = { r with rd := v.setWidth 24, lost := 0, wr := r.wr + 1, armed := r.armed || v.getLsbD 24 } ∧
        t.eng.host.rd a = BitVec.ofNat 8 (128 + r.wr.toNat / r.size % 128) ∧
        leNat (t.eng.host.rdN (a + 8) 2) = 0x0020 ∧ leNat (t.eng.host.rdN (a + 16) 4) = r.lost.toNat ∧
        (∀ y, y < a ∨ a + 32 ≤ y → t.eng.host.rd y = s.eng.host.rd y) ∧ t.eng.dev = s.eng.dev) ∧
      (∀ rec, r.lost = 0 → r.held = [rec] → rec.length = 31 → ∃ t, exec (.mreelRdWrite m k v) s = .next t ∧
        t.eng.mreel k.val = { r with rd := v.setWidth 24, held := [], wr := r.wr + 1, armed := r.armed || v.getLsbD 24 } ∧
        t.eng.host.rdN a 32 = BitVec.ofNat 8 (128 + r.wr.toNat / r.size % 128) :: rec ∧
        (∀ y, y < a ∨ a + 32 ≤ y → t.eng.host.rd y = s.eng.host.rd y) ∧ t.eng.dev = s.eng.dev))

/-- R66, R72, R76, R406. A fetch grant begins the read of the next slot of one eligible reel, whose priority no eligible reel that
is not aged exceeds; a slot that shows its lap is held; one that does not is read again, and after sixteen re-reads the reel is
halted as torn, as it is halted by a read that failed. -/
def Obligations.SlotsAreFetchedUntilTheyShowTheirLap : Prop :=
  ∀ s : State, s.runs = true →
    (∀ n, s.eng.busy 0 = false → s.eng.grantee = some n → ∃ t, exec .fetchGrant s = .next t ∧
      (s.eng.reel n).eligible = true ∧
      (t.eng.reel n).slots = (s.eng.reel n).slots ++
        [{ count := (s.eng.reel n).rd + BitVec.ofNat 24 (s.eng.reel n).slots.length, st := .reading }] ∧
      (∀ k, k ≠ n → (t.eng.reel k).slots = (s.eng.reel k).slots) ∧
      ((∀ k, (s.eng.reel k).agedAt = none) → ∀ k < 64, (s.eng.reel k).eligible = true →
        (s.eng.reel n).prio ≤ (s.eng.reel k).prio) ∧
      t.ao = s.ao ∧ t.eng.dirs = s.eng.dirs ∧ t.eng.dev = s.eng.dev ∧ t.eng.host = s.eng.host) ∧
    (∀ (n : Fin 64) (c : W24) bs, (s.eng.reel n.val).slots = [{ count := c, st := .reading }] →
      (s.eng.reel n.val).loc = true →
      s.eng.acc.firstDenied 5 (s.eng.reel n.val).master true false ((s.eng.reel n.val).slotAddr c) 64 = none →
      bs = s.eng.host.rdN ((s.eng.reel n.val).slotAddr c) 64 →
      (∃ st r, st = (if le bs 0 1 = (s.eng.reel n.val).stamp c then SlotSt.got bs else .rereading 0 0 (bs.headD 0)) ∧
        r = { s.eng.reel n.val with slots := [{ count := c, st := st }] } ∧
        exec (.slotReadReturn n c 0 .ok) s = .next { s with eng := s.eng.setReel n.val r }) ∧
      (∀ x, x ≠ .ok → ∃ t, exec (.slotReadReturn n c 0 x) s = .next t ∧ (t.eng.reel n.val).halted = true ∧
        (t.eng.reel n.val).fetchErr = true ∧ (t.eng.reel n.val).slots = [] ∧ (t.eng.reel n.val).torn = (s.eng.reel n.val).torn ∧
        (t.eng.reel n.val).rd = (s.eng.reel n.val).rd)) ∧
    (∀ (n : Fin 64) (c : W24) last i k, (s.eng.reel n.val).slots = [{ count := c, st := .rereading i k last }] → i < 16 →
      ∃ r, r = { s.eng.reel n.val with slots := [{ count := c, st := .rereading (i + 1) k last }] } ∧
        ∀ j : Fin 17, j.val = i + 1 →
          exec (.slotReread n c j) s = .next { s with eng := s.eng.setReel n.val r }) ∧
    (∀ (n : Fin 64) (c : W24) last bs, (s.eng.reel n.val).slots = [{ count := c, st := .rereading 16 15 last }] →
      (s.eng.reel n.val).loc = true →
      s.eng.acc.firstDenied 5 (s.eng.reel n.val).master true false ((s.eng.reel n.val).slotAddr c) 64 = none →
      bs = s.eng.host.rdN ((s.eng.reel n.val).slotAddr c) 64 → le bs 0 1 ≠ (s.eng.reel n.val).stamp c →
      ∃ t, exec (.slotReadReturn n c 16 .ok) s = .next t ∧ (t.eng.reel n.val).halted = true ∧
        (t.eng.reel n.val).torn = true ∧ (t.eng.reel n.val).slots = [] ∧ (t.eng.reel n.val).rd = (s.eng.reel n.val).rd)

/-- R70, R78, R84, R407. The next command of a reel, all its slots showing their lap, is dispatched when its ordering conditions
hold and its unit accepts it: RD passes its slots, and it is in flight, ready if its checks pass and finished with the status of
the first check it fails if not (an INLINE_BAG whose descriptor cannot be read has that status, log entry 185; the detail 0xFF of a
refused inline COPY and 0 of any other is the model's choice, log entry 184). A command whose slot met an uncorrectable error in the
buffer ends with status fault (R389). Its completion, once its writes are acknowledged and VIS 3's flushing read has returned,
drops it and moves DONE to the oldest command left. -/
def Obligations.CommandsDispatchAndComplete : Prop :=
  ∀ (s : State) (n : Fin 64), s.runs = true →
    (∀ hd more rest r, s.eng.busy 0 = false → (∀ x ∈ (s.eng.reel n.val).slots, x.lost = false) →
      (s.eng.reel n.val).slots.map Slot.st = (hd :: more).map SlotSt.got ++ rest →
      (hd :: more).length = le hd 2 1 % 8 + 1 →
      (∀ x ∈ (s.eng.reel n.val).inflight, x.type ≠ 4 ∧ x.type ≠ 6) →
      (le hd 3 1 / 16 % 2 = 0 ∨ (s.eng.reel n.val).inflight = []) →
      (s.eng.bagRead (s.eng.reel n.val).master (le hd 1 1) (bodyOf (hd :: more)) r).map Prod.snd = some 0 →
      (cmdCheck s.eng hd (bodyOf (hd :: more)) (hd :: more).length = 0 →
        s.eng.accepts (le hd 1 1) (bodyOf (hd :: more)) ≠ none) →
      ∃ t k, exec (.commandDispatch n r) s = .next t ∧ (t.eng.reel n.val).inflight = (s.eng.reel n.val).inflight ++ [k] ∧
        (t.eng.reel n.val).slots = (s.eng.reel n.val).slots.drop (hd :: more).length ∧
        (t.eng.reel n.val).rd = (s.eng.reel n.val).rd + BitVec.ofNat 24 (hd :: more).length ∧
        k.count = (s.eng.reel n.val).rd ∧ k.type.toNat = le hd 1 1 ∧ k.body = bodyOf (hd :: more) ∧
        k.tag = BitVec.ofNat 32 (le hd 4 4) ∧ k.master = (s.eng.reel n.val).master ∧
        k.phase = (if cmdCheck s.eng hd (bodyOf (hd :: more)) (hd :: more).length = 0 then .ready
          else .done (BitVec.ofNat 8 (cmdCheck s.eng hd (bodyOf (hd :: more)) (hd :: more).length)) 0
            (if le hd 1 1 = 3 ∧ (le (bodyOf (hd :: more)) 21 1).testBit 0 = true then 0xFF else 0)) ∧
        t.eng.dev = s.eng.dev ∧ t.eng.host = s.eng.host) ∧
    (∀ hd more rest r, s.eng.busy 0 = false → ((s.eng.reel n.val).slots.take (hd :: more).length).any (·.lost) = true →
      (s.eng.reel n.val).slots.map Slot.st = (hd :: more).map SlotSt.got ++ rest →
      (hd :: more).length = le hd 2 1 % 8 + 1 → (∀ x ∈ (s.eng.reel n.val).inflight, x.type ≠ 4 ∧ x.type ≠ 6) →
      (le hd 3 1 / 16 % 2 = 0 ∨ (s.eng.reel n.val).inflight = []) →
      ∃ t k de, exec (.commandDispatch n r) s = .next t ∧ (t.eng.reel n.val).inflight = (s.eng.reel n.val).inflight ++ [k] ∧
        k.count = (s.eng.reel n.val).rd ∧ k.phase = .done 4 4 de ∧ t.eng.dev = s.eng.dev ∧ t.eng.dirs = s.eng.dirs) ∧
    (∀ hd more rest r e st, s.eng.busy 0 = false → (∀ x ∈ (s.eng.reel n.val).slots, x.lost = false) →
      (s.eng.reel n.val).slots.map Slot.st = (hd :: more).map SlotSt.got ++ rest →
      (hd :: more).length = le hd 2 1 % 8 + 1 → (∀ x ∈ (s.eng.reel n.val).inflight, x.type ≠ 4 ∧ x.type ≠ 6) →
      (le hd 3 1 / 16 % 2 = 0 ∨ (s.eng.reel n.val).inflight = []) → hdrBad hd = false →
      s.eng.bagRead (s.eng.reel n.val).master (le hd 1 1) (bodyOf (hd :: more)) r = some (e, st) → st ≠ 0 →
      ∃ t k, exec (.commandDispatch n r) s = .next t ∧ (t.eng.reel n.val).inflight = (s.eng.reel n.val).inflight ++ [k] ∧
        k.count = (s.eng.reel n.val).rd ∧ k.phase = .done (BitVec.ofNat 8 st) (if st = 4 then 4 else 0) 0 ∧ (st = 3 ∨ st = 4) ∧
        t.eng.dev = s.eng.dev) ∧
    (∀ c rest st fl de, (s.eng.reel n.val).inflight = c :: rest → (∀ x ∈ rest, x.count ≠ c.count) →
      c.phase = .done st fl de → s.eng.mp.owed (.cmd n c.count) = 0 →
      ((c.vis ≠ 3 ∨ c.flushed = true) → ∃ t, exec (.commandComplete n c.count) s = .next t ∧
        (t.eng.reel n.val).inflight = rest ∧ (t.eng.reel n.val).rd = (s.eng.reel n.val).rd ∧
        (t.eng.reel n.val).done = (match rest with
          | x :: _ => x.count
          | [] => (s.eng.reel n.val).rd) ∧
        (c.vis = 0 → c.cAddr = 0 → st = 0 → c.notify = false → t.eng.dev = s.eng.dev ∧ t.eng.host = s.eng.host) ∧
        t.ao = s.ao) ∧
      (c.vis = 3 → c.flushed = false → ∃ t, exec (.commandComplete n c.count) s = .next t ∧
        (t.eng.reel n.val).inflight = { c with flushed := true } :: rest ∧ t.eng.mp.owed (.cmd n c.count) = 1 ∧
        t.eng.dev = s.eng.dev ∧ t.eng.host = s.eng.host))

/-- R79, R80, R114, R345. NOP finishes its command; FENCE does, once every command before it has completed, with nothing dirty
left in the sward where it names path 1 or 2, and a flushing read owed for path 3; WAIT finishes at once with the clapper's low
word where its condition holds, with status access denied where its master may not read the clapper, and else begins to wait; behind
the front end's own operations on the clapper it waits to be read (R344); a timeout that has expired ends a wait with its status. One
flushing read for each FENCE of path 3 (log entry 18), the whole sward written back (log entry 38), detail 0 of a denied WAIT (log entry
184) and the value at the timeout as the detail of one that timed out (log entry 222) are the model's choice. -/
def Obligations.NopFenceAndWaitCommands : Prop :=
  ∀ (s : State) (n : Fin 64) pre c post,
    (s.acting n 0 pre c post → exec (.nopCommand n) s = .next (s.setInflight n (pre ++ { c with phase := .done 0 0 0 } :: post))) ∧
    (s.acting n 4 pre c post → (∀ x ∈ c.after, ∀ y ∈ (s.eng.reel x.1.val).inflight, y.count ≠ x.2) →
      ∃ t, exec (.fenceCommand n) s = .next t ∧
        (t.eng.reel n.val).inflight = pre ++ { c with phase := .done 0 0 0 } :: post ∧
        (le c.body 0 1 / 2 % 4 ≠ 0 → (∀ sl, t.eng.swd.evb.get [] sl = []) ∧
          ∀ k l, t.eng.swd.lines.get none k = some l → l.s0.dirty = false ∧ l.s1.dirty = false) ∧
        t.eng.mp.owed (.cmd n c.count) = s.eng.mp.owed (.cmd n c.count) + (if (le c.body 0 1).testBit 3 then 1 else 0) ∧
        t.ao = s.ao ∧ t.eng.dirs = s.eng.dirs) ∧
    (s.acting n 4 pre c post → (∃ x ∈ c.after, ∃ y ∈ (s.eng.reel x.1.val).inflight, y.count = x.2) →
      exec (.fenceCommand n) s = .next s) ∧
    (s.acting n 6 pre c post → s.eng.clpHeld 8 (le c.body 0 2 % 8192) = true → exec (.wait n) s = .next s) ∧
    (s.acting n 6 pre c post → s.eng.clpHeld 8 (le c.body 0 2 % 8192) = false →
      s.eng.acc.firstDenied 1 c.master true false (le c.body 0 2 % 8192) 1 = none →
      ∀ v, v = s.eng.clap (le c.body 0 2 % 8192) →
        (condHolds (le c.body 2 1 == 1) (BitVec.ofNat 64 (le c.body 8 8)) v = true →
          exec (.wait n) s = .next (s.setInflight n (pre ++ { c with phase := .done 0 0 (v.setWidth 32) } :: post))) ∧
        (condHolds (le c.body 2 1 == 1) (BitVec.ofNat 64 (le c.body 8 8)) v = false → ∃ dl,
          dl = (if le c.body 4 4 = 0 then none else some (s.eng.hth.time + BitVec.ofNat 64 (1000 * le c.body 4 4))) ∧
          exec (.wait n) s = .next (s.setInflight n (pre ++ { c with phase := .running, deadline := dl } :: post)))) ∧
    (s.acting n 6 pre c post → s.eng.clpHeld 8 (le c.body 0 2 % 8192) = false →
      s.eng.acc.firstDenied 1 c.master true false (le c.body 0 2 % 8192) 1 ≠ none →
      ∃ t, exec (.wait n) s = .next t ∧ (t.eng.reel n.val).inflight = pre ++ { c with phase := .done 3 0 0 } :: post) ∧
    (∀ dl, s.runs = true → (s.eng.reel n.val).inflight = pre ++ c :: post → (∀ x ∈ pre ++ post, x.count ≠ c.count) →
      (∀ x ∈ pre, x.type ≠ 6) → c.type = 6 → c.phase = .running → c.deadline = some dl → dl ≤ s.eng.hth.time →
      exec (.waitTimeout (.reel n)) s = .next (s.setInflight n
        (pre ++ { c with phase := .done 6 0 ((s.eng.clap (le c.body 0 2 % 8192)).setWidth 32) } :: post))) ∧
    (∀ (d : Fin 8) dst cl eq v dl, s.runs = true → (s.eng.dir d.val).st = .waiting →
      (s.eng.dir d.val).wait = .clapper dst cl eq v (some dl) → dl ≤ s.eng.hth.time →
      exec (.waitTimeout (.dir d)) s = .next (s.setDir d
        (Dir.putI { s.eng.dir d.val with st := .running, wait := .none, pc := (s.eng.dir d.val).pc + 8 } dst 6)))

/-- R80, R342, R346. A SIGNAL to this engine sets or adds to a clapper that its master may write, and finishes; one to a position
declared failed or outside the heath finishes with status unreachable; one to a peer sends a tracked clapper operation, or waits
until it can be sent (R293, R294). -/
def Obligations.SignalOperatesOneClapper : Prop :=
  ∀ (s : State) (n : Fin 64) pre c post (cl : Nat) (v : W64), s.acting n 5 pre c post → cl = le c.body 0 2 % 8192 →
    v = BitVec.ofNat 64 (le c.body 8 8) →
    (s.eng.hth.isSelf (le c.body 3 1) = true → s.eng.clp.queues.get [] (cl % 16) = [] →
      s.eng.acc.firstDenied 1 c.master false true cl 1 = none →
      ∃ t k, exec (.signal n) s = .next t ∧ (∀ x, t.eng.clap x =
          if x = cl then (if le c.body 2 1 = 0 then v else s.eng.clap cl + v) else s.eng.clap x) ∧
        k ∈ (t.eng.reel n.val).inflight ∧ k.count = c.count ∧ k.phase = .done 0 0 0 ∧
        t.eng.dev = s.eng.dev ∧ t.eng.host = s.eng.host ∧ t.ao = s.ao) ∧
    (s.eng.hth.isSelf (le c.body 3 1) = false → s.eng.hth.gone (le c.body 3 1) = true →
      exec (.signal n) s = .next (s.setInflight n (pre ++ { c with phase := .done 7 0 0 } :: post))) ∧
    (s.eng.hth.isSelf (le c.body 3 1) = false → s.eng.hth.gone (le c.body 3 1) = false →
      ∃ t b, exec (.signal n) s = .next t ∧ b = .clpOp (BitVec.ofNat 13 cl) (BitVec.ofNat 2 (le c.body 2 1)) v ∧
        (s.eng.sendWaits (le c.body 3 1) b = false → ∃ k, t.eng.zw.tracked = s.eng.zw.tracked ++ [k] ∧
          k.msg.dst = BitVec.ofNat 8 (le c.body 3 1) ∧ k.msg.body = b) ∧
        (s.eng.sendWaits (le c.body 3 1) b = true → ∃ u, t.eng.zw.tracked = s.eng.zw.tracked ∧
          t.eng.zw.blocked = s.eng.zw.blocked ++ [(le c.body 3 1, b, u)]) ∧
        (t.eng.reel n.val).inflight = pre ++ { c with phase := .running } :: post ∧
        (∀ x, t.eng.clap x = s.eng.clap x) ∧ t.eng.dirs = s.eng.dirs)

/-- R123, R124. A LAUNCH sets its director running at the program with its arguments from s1 on, its identity in s31, every other
register zero, its descriptors and call stack empty, under the reel's master; the other directors stand. -/
def Obligations.LaunchStartsItsDirector : Prop :=
  ∀ (s : State) (n : Fin 64) pre c post, s.acting n 1 pre c post → c.dir < 8 →
    ∃ t x, exec (.launch n) s = .next t ∧ x = t.eng.dir c.dir ∧ x.st = .running ∧ x.wait = .none ∧
      x.pc = BitVec.ofNat 64 (le c.body 8 8) ∧ x.master = c.master ∧ x.reel = n ∧ x.count = c.count ∧
      (∀ i, 1 ≤ i → i ≤ le c.body 1 1 → le c.body 1 1 ≤ 8 →
        x.get (BitVec.ofNat 5 i) = BitVec.ofNat 64 (le c.body (8 + 8 * i) 8)) ∧
      (∀ i, le c.body 1 1 < i → i < 31 → x.get (BitVec.ofNat 5 i) = 0) ∧
      x.get 31 = BitVec.ofNat 64 (c.count.toNat + n.val * 2 ^ 24 + c.dir * 2 ^ 32) ∧
      x.descs = [] ∧ x.stack = [] ∧ x.slots = [] ∧ x.faulted = (s.eng.dir c.dir).faulted ∧ x.flags = 0 ∧
      x.tcount = (s.eng.dir c.dir).tcount ∧ (∀ k, k ≠ c.dir → t.eng.dir k = s.eng.dir k) ∧
      (t.eng.reel n.val).inflight = pre ++ { c with phase := .running } :: post ∧
      t.eng.dev = s.eng.dev ∧ t.eng.host = s.eng.host

/-- R80, R81, R265, R320. An inline COPY, to host or to device memory, or an INLINE_BAG that may write its whole destination writes its
payload there and nowhere else, and finishes where it names no clapper; denied, it finishes with status access denied. Another COPY's
transfer runs. CONFIG makes its writes under the reel's master, in body order; it finishes after the last, ends with status access denied
at the first that is denied, and waits at one that waits (R401, R402). TAKE_NOW requests a cut while the take unit is enabled, and is an
invalid operand while it is not (log entry 93, the model's choice); one that arrives with a TAKE's cut request, as its operand says, joins
its cut, a print if either asks for one (log entry 94, the model's choice). -/
def Obligations.CopyBagConfigAndTakeNowCommands : Prop :=
  ∀ (s : State) (n : Fin 64) pre c post,
    (s.acting n 3 pre c post → (le c.body 21 1).testBit 0 = false →
      ∀ r, exec (.copy n r) s = .next (s.setInflight n (pre ++ { c with phase := .running } :: post))) ∧
    (∀ bs a, s.acting n 3 pre c post → (le c.body 21 1).testBit 0 = true → (le c.body 21 1).testBit 2 = true →
      bs = (c.body.drop 32).take (le c.body 16 5) → a = le c.body 8 8 → (le c.body 22 2).testBit 15 = false →
      s.eng.acc.firstDenied 5 c.master false true a bs.length = none → ∀ r,
      ∃ t, exec (.copy n r) s = .next t ∧ t.eng.host = s.eng.host.wrN a bs ∧ t.eng.dev = s.eng.dev ∧
        (t.eng.reel n.val).inflight = pre ++ { c with phase := .done 0 0 (BitVec.ofNat 32 c.dir) } :: post ∧
        t.eng.dirs = s.eng.dirs ∧ t.ao = s.ao) ∧
    (∀ bs a, s.acting n 3 pre c post → (le c.body 21 1).testBit 0 = true → (le c.body 21 1).testBit 2 = false →
      bs = (c.body.drop 32).take (le c.body 16 5) → a = le c.body 8 8 → (le c.body 22 2).testBit 15 = false →
      s.eng.mp.firstHole a bs.length = none → s.eng.acc.firstDenied 3 c.master false true a bs.length = none →
      s.eng.swd.enabled = false → s.eng.swd.pending = false → s.eng.busy 5 = false → s.eng.swd.lines = [] → s.eng.swd.evb = [] →
      ∃ t, exec (.copy n .ok) s = .next t ∧
        (∀ i (h : i < bs.length), t.eng.dev.rd (a + i) = bs[i]) ∧
        (∀ x, x < a ∨ a + bs.length ≤ x → t.eng.dev.rd x = s.eng.dev.rd x) ∧ t.eng.host = s.eng.host ∧
        (t.eng.reel n.val).inflight = pre ++ { c with phase := .done 0 0 (BitVec.ofNat 32 c.dir) } :: post ∧
        t.eng.mp.owed (.cmd n c.count) = s.eng.mp.owed (.cmd n c.count) + 1) ∧
    (∀ bs a h r, s.acting n 3 pre c post → (le c.body 21 1).testBit 0 = true → h = (le c.body 21 1).testBit 2 →
      bs = (c.body.drop 32).take (le c.body 16 5) → a = le c.body 8 8 → (h = false → s.eng.mp.firstHole a bs.length = none) →
      s.eng.acc.firstDenied (if h then 5 else 3) c.master false true a bs.length ≠ none →
      ∃ t, exec (.copy n r) s = .next t ∧
        (t.eng.reel n.val).inflight = pre ++ { c with phase := .done 3 0 (BitVec.ofNat 32 c.dir) } :: post) ∧
    (∀ bs a, s.acting n 2 pre c post → bs = (c.body.drop 32).take c.dir → a = le c.body 0 8 →
      (le c.body 16 2).testBit 15 = false → s.eng.mp.firstHole a bs.length = none →
      s.eng.acc.firstDenied 3 c.master false true a bs.length = none →
      s.eng.swd.enabled = false → s.eng.swd.pending = false → s.eng.busy 5 = false → s.eng.swd.lines = [] → s.eng.swd.evb = [] →
      ∃ t, exec (.inlineBag n .ok) s = .next t ∧
        (∀ i (h : i < bs.length), t.eng.dev.rd (a + i) = bs[i]) ∧
        (∀ x, x < a ∨ a + bs.length ≤ x → t.eng.dev.rd x = s.eng.dev.rd x) ∧ t.eng.host = s.eng.host ∧
        (t.eng.reel n.val).inflight = pre ++ { c with phase := .done 0 0 0 } :: post ∧
        t.eng.mp.owed (.cmd n c.count) = s.eng.mp.owed (.cmd n c.count) + 1) ∧
    (s.acting n 2 pre c post → s.eng.mp.firstHole (le c.body 0 8) ((c.body.drop 32).take c.dir).length = none →
      s.eng.acc.firstDenied 3 c.master false true (le c.body 0 8) ((c.body.drop 32).take c.dir).length ≠ none →
      ∀ r, ∃ t, exec (.inlineBag n r) s = .next t ∧
        (t.eng.reel n.val).inflight = pre ++ { c with phase := .done 3 0 0 } :: post) ∧
    (∀ (us : Nat → State) (vs : Nat → Nat) k, s.acting n 8 pre c post → k ≤ le c.body 0 1 →
      us 0 = { s with eng := s.eng.runCmd n c } →
      (∀ i < k, (us i).access c.master (le c.body (8 + 8 * i) 4) (.wr32 (BitVec.ofNat 32 (le c.body (12 + 8 * i) 4)))
        (cfg := some (n, c.count, i)) = (us (i + 1), .done (vs i))) →
      (∀ i ≤ k, ∃ x, ((us i).eng.reel n.val).inflight.find? (fun y => y.count == c.count && y.phase == .running) = some x ∧
        x.body = c.body ∧ x.master = c.master) →
      (k = le c.body 0 1 → exec (.config n) s = .next { us k with eng := (us k).eng.finishCmd n c.count 0 0 0 }) ∧
      (∀ u, k < le c.body 0 1 →
        ((us k).access c.master (le c.body (8 + 8 * k) 4) (.wr32 (BitVec.ofNat 32 (le c.body (12 + 8 * k) 4)))
          (cfg := some (n, c.count, k)) = (u, .denied) →
          exec (.config n) s = .next { u with eng := u.eng.finishCmd n c.count 3 0 0 }) ∧
        ((us k).access c.master (le c.body (8 + 8 * k) 4) (.wr32 (BitVec.ofNat 32 (le c.body (12 + 8 * k) 4)))
          (cfg := some (n, c.count, k)) = (u, .waits) → exec (.config n) s = .next u))) ∧
    (∀ same, s.acting n 7 pre c post → s.eng.tk.enabled = false → exec (.takeNow n same) s =
      .next (s.setInflight n (pre ++ { c with phase := .done 2 0 0 } :: post))) ∧
    (∀ same, s.acting n 7 pre c post → s.eng.tk.enabled = true →
      (same = false ∨ ∀ x ∈ s.eng.tk.cuts.getLast?, x.byTake = none ∨ x.cmd ≠ none ∨ x.at_ ≠ s.eng.hth.time) →
      ∃ t cut, exec (.takeNow n same) s = .next t ∧ t.eng.tk.cuts = s.eng.tk.cuts ++ [cut] ∧ cut.print = (le c.body 0 1 == 1) ∧ cut.cmd = some (n, c.count) ∧
      cut.pos = s.eng.tk.step ∧ cut.opts = s.eng.ted.opts.map (fun o => o.h.key) ∧
      (t.eng.reel n.val).inflight = pre ++ { c with phase := .running } :: post ∧ t.eng.dev = s.eng.dev) ∧
    (∀ cuts x h, s.acting n 7 pre c post → s.eng.tk.enabled = true → s.eng.tk.cuts = cuts ++ [x] → x.byTake = some h →
      x.cmd = none → x.at_ = s.eng.hth.time → ∃ t, exec (.takeNow n true) s = .next t ∧
        t.eng.tk.cuts = cuts ++ [{ x with print := x.print || le c.body 0 1 == 1, cmd := some (n, c.count) }] ∧
        (t.eng.reel n.val).inflight = pre ++ { c with phase := .running } :: post ∧ t.eng.dev = s.eng.dev)

/-- R93, R95, R99. The operate instructions write their result, computed on s[sa] and on s[sb] or the sign-extended immediate, to
s[dst], and nothing else changes; with an unused field that is not zero they fault instead. -/
def Obligations.OperateInstructionsCompute : Prop :=
  ∀ (s : State) (d : Fin 8) (w : IWord) (a b : W64), s.executes d [w.sa, w.sb] = true →
    a = (s.eng.dir d.val).get w.sa → b = (if w.sb ≠ 0 then (s.eng.dir d.val).get w.sb else w.imm.signExtend 64) →
    ((w.desc = 0 ∧ (w.sb = 0 ∨ w.imm = 0)) →
      s.Computes d (.add d w) w.dst (a + b) 8 ∧ s.Computes d (.sub d w) w.dst (a - b) 8 ∧
      s.Computes d (.mul d w) w.dst (a * b) 8 ∧ s.Computes d (.and d w) w.dst (a &&& b) 8 ∧
      s.Computes d (.or d w) w.dst (a ||| b) 8 ∧ s.Computes d (.xor d w) w.dst (a ^^^ b) 8 ∧
      s.Computes d (.shl d w) w.dst (a <<< (b.toNat % 64)) 8 ∧ s.Computes d (.shr d w) w.dst (a >>> (b.toNat % 64)) 8) ∧
    (¬ (w.desc = 0 ∧ (w.sb = 0 ∨ w.imm = 0)) → ∀ c, c = Instr.add d w ∨ c = .sub d w ∨ c = .mul d w ∨ c = .and d w ∨
      c = .or d w ∨ c = .xor d w ∨ c = .shl d w ∨ c = .shr d w → s.Faults d c 0x01)

/-- R100: LI with x = 0 sets s[dst] to the sign-extended immediate; with x = 1 to the extension word, and imm must then be zero: a
nonzero one faults, as any unused field does (R95). -/
def Obligations.LoadImmediate : Prop :=
  ∀ (s : State) (d : Fin 8) (w : IWord), s.executes d [] = true →
    (w.sa = 0 ∧ w.sb = 0 ∧ w.desc = 0 →
      s.Computes d (.li d w none) w.dst (w.imm.signExtend 64) 8 ∧
      (∀ v : W64, w.imm = 0 → s.Computes d (.li d w (some v)) w.dst v 16) ∧
      (∀ v : W64, w.imm ≠ 0 → s.Faults d (.li d w (some v)) 0x01)) ∧
    (¬ (w.sa = 0 ∧ w.sb = 0 ∧ w.desc = 0) → ∀ x, s.Faults d (.li d w x) 0x01)

/-- R96, R97. NOP goes on; JMP and CALL go to their target, CALL keeping the next instruction's address, RET goes back to it; BR goes by
its condition and LOOP by its counter. A misaligned target, a full stack and an empty one fault, and the jump is not taken (of a
misaligned CALL on a full stack the misalignment is reported: the model's choice, log 179); so do unused fields that are not zero, BR
conditions 6 and 7 among them (R95).
R98, R119. HALT with an unresolved stop is a program fault; otherwise the director drains, and once every ticket has retired and
its loads and stores are done the program ends with its exit code and its LAUNCH is finished. -/
def Obligations.ControlInstructionsJumpAndHaltEnds : Prop :=
   (∀ (s : State) (d : Fin 8) (w : IWord) (x : Dir) (tgt off : W64), x = s.eng.dir d.val →
      tgt = (if w.sa = 0 then x.pc else x.get w.sa) + w.imm.signExtend 64 * 8 →
      off = (w.imm.setWidth 34).signExtend 64 * 8 →
      (s.executes d [] = true → w = { dst := 0, sa := 0, sb := 0, desc := 0, imm := 0 } →
        exec (.nop d w) s = .next (s.setDir d { x with pc := x.pc + 8 }) ∧
        (∀ a rest, x.stack = a :: rest → exec (.ret d w) s = .next (s.setDir d { x with stack := rest, pc := a })) ∧
        (x.stack = [] → s.Faults d (.ret d w) 0x09)) ∧
      (s.executes d [] = true → w ≠ { dst := 0, sa := 0, sb := 0, desc := 0, imm := 0 } →
        s.Faults d (.nop d w) 0x01 ∧ s.Faults d (.ret d w) 0x01) ∧
      (s.executes d [] = true → ¬ (w.dst = 0 ∧ w.sb = 0 ∧ w.desc = 0) → s.Faults d (.jmp d w) 0x01 ∧ s.Faults d (.call d w) 0x01) ∧
      (s.executes d [] = true → ¬ (w.dst = 0 ∧ w.desc = 0 ∧ w.imm.toNat / 2 ^ 34 < 6) → s.Faults d (.br d w) 0x01) ∧
      (s.executes d [] = true → ¬ (w.sa = 0 ∧ w.sb = 0 ∧ w.desc = 0 ∧ w.imm.toNat < 2 ^ 34) → s.Faults d (.loop d w) 0x01) ∧
      (s.executes d [] = true → ¬ (w.dst = 0 ∧ w.sb = 0 ∧ w.desc = 0 ∧ w.imm.toNat < (if w.sa = 0 then 2 ^ 16 else 1)) →
        s.Faults d (.halt d w) 0x01) ∧
      (s.executes d [w.sa] = true → w.dst = 0 → w.sb = 0 → w.desc = 0 →
        (tgt.toNat % 8 = 0 → exec (.jmp d w) s = .next (s.setDir d { x with pc := tgt })) ∧
        (tgt.toNat % 8 ≠ 0 → s.Faults d (.jmp d w) 0x03 ∧ s.Faults d (.call d w) 0x03) ∧
        (tgt.toNat % 8 = 0 → x.stack.length < 16 →
          exec (.call d w) s = .next (s.setDir d { x with stack := (x.pc + 8) :: x.stack, pc := tgt })) ∧
        (tgt.toNat % 8 = 0 → 16 ≤ x.stack.length → s.Faults d (.call d w) 0x08)) ∧
      (s.executes d [w.sa, w.sb] = true → w.dst = 0 → w.desc = 0 → w.imm.toNat / 2 ^ 34 < 6 → ∃ go,
        go = (match w.imm.toNat / 2 ^ 34 with
          | 0 => x.get w.sa == x.get w.sb
          | 1 => x.get w.sa != x.get w.sb
          | 2 => decide ((x.get w.sa).toNat < (x.get w.sb).toNat)
          | 3 => decide ((x.get w.sb).toNat ≤ (x.get w.sa).toNat)
          | 4 => decide ((x.get w.sa).toInt < (x.get w.sb).toInt)
          | _ => decide ((x.get w.sb).toInt ≤ (x.get w.sa).toInt)) ∧
        exec (.br d w) s = .next (s.setDir d { x with pc := if go then x.pc + off else x.pc + 8 })) ∧
      (s.executes d [w.dst] = true → w.sa = 0 → w.sb = 0 → w.desc = 0 → w.imm.toNat < 2 ^ 34 → ∃ y,
        exec (.loop d w) s = .next (s.setDir d y) ∧
        y = { x with regs := y.regs, lds := y.lds,
                     pc := if w.dst ≠ 0 ∧ x.get w.dst ≠ 1 then x.pc + off else x.pc + 8 } ∧
        ∀ r, y.get r = if r = w.dst ∧ r ≠ 0 then x.get r - 1 else x.get r)) ∧
   (∀ (s : State) (d : Fin 8) (w : IWord) (x : Dir) (code : W16), x = s.eng.dir d.val → s.executes d [w.sa] = true →
      w.dst = 0 → w.sb = 0 → w.desc = 0 → w.imm.toNat < (if w.sa = 0 then 2 ^ 16 else 1) →
      code = (if w.sa = 0 then w.imm.setWidth 16 else (x.get w.sa).setWidth 16) →
      (x.stops ≠ [] → s.Faults d (.halt d w) 0x0E) ∧
      (x.stops = [] → (s.eng.dirQuiet d = false ∨ x.peerOps ≠ 0) →
        exec (.halt d w) s = .next (s.setDir d { x with st := .draining, exitNext := code, fetch := [] })) ∧
      (∀ pre c post, x.stops = [] → s.eng.dirQuiet d = true → x.peerOps = 0 → x.bad = false → x.aborted = false →
        (s.eng.reel x.reel.val).inflight = pre ++ c :: post → (∀ y ∈ pre ++ post, y.count ≠ x.count) → c.count = x.count →
        c.finished = false → ∃ t de, exec (.halt d w) s = .next t ∧ (t.eng.dir d.val).st = .idle ∧
          (t.eng.dir d.val).exit = code ∧ (t.eng.dir d.val).regs = x.regs ∧
          de = BitVec.ofNat 32 (d.val + code.toNat * 2 ^ 16) ∧
          (t.eng.reel x.reel.val).inflight = pre ++ { c with phase := .done 0 x.flags de } :: post ∧ t.eng.dev = s.eng.dev ∧ t.eng.host = s.eng.host))

/-- R101, R102. LD reads its bytes at issue, little-endian and zero-extended, and its return writes them to s[dst]; ST stores the low
bytes of s[sb]. A misaligned access and a denied one fault, before any effect. A granted access that the sward cannot take yet
waits (R229, R237). -/
def Obligations.LoadsAndStores : Prop :=
  ∀ (s : State) (d : Fin 8) (w : IWord) (x : Dir) (a n : Nat), x = s.eng.dir d.val →
    a = (x.get w.sa + (w.imm.setWidth 35).signExtend 64).toNat → n = 8 / 2 ^ (w.imm.toNat / 2 ^ 35) → w.desc = 0 →
    (s.executes d [w.sa] = true → w.sb = 0 →
      (a % n ≠ 0 → s.Faults d (.ld d w) 0x03) ∧
      (a % n = 0 → (s.eng.mp.firstHole a n ≠ none ∨ s.eng.acc.firstDenied 3 x.master true false a n ≠ none) →
        s.Faults d (.ld d w) 0x04) ∧
      (a % n = 0 → s.eng.mp.firstHole a n = none → s.eng.acc.firstDenied 3 x.master true false a n = none →
        (s.eng.swdWaits a n = true → exec (.ld d w) s = .next s) ∧ (s.eng.swdWaits a n = false →
        ∃ t l rest, exec (.ld d w) s = .next t ∧ (t.eng.dir d.val).lds = rest ++ [l] ∧ rest.length = x.lds.length ∧
          l.addr.toNat = a ∧ l.size = n ∧ l.dst = w.dst ∧ l.data.toNat = leNat (s.eng.rdDev false a n) ∧
          (t.eng.dir d.val).pc = x.pc + 8 ∧ (t.eng.dir d.val).regs = x.regs ∧ t.eng.dev = s.eng.dev ∧
          t.eng.host = s.eng.host))) ∧
    (∀ l rest, s.runs = true → (x.st = .running ∨ (x.st = .waiting ∧ x.wait = .load)) → x.lds = l :: rest →
      s.eng.answer l.addr.toNat l.size .ok = .ok → ∃ t, exec (.ldDataReturn d .ok) s = .next t ∧
        (t.eng.dir d.val).lds = rest ∧ (t.eng.dir d.val).st = .running ∧ (t.eng.dir d.val).pc = x.pc ∧
        (∀ r, (t.eng.dir d.val).get r = if r = l.dst ∧ r ≠ 0 then l.data else x.get r) ∧ t.eng.dev = s.eng.dev) ∧
    (∀ l rest r, s.runs = true → x.st = .running → x.lds = l :: rest → s.eng.answer l.addr.toNat l.size r ≠ .ok →
      ∃ t, exec (.ldDataReturn d r) s = .next t ∧ (t.eng.dir d.val).faulted = true ∧ (t.eng.dir d.val).cause = 0x05 ∧
        (t.eng.dir d.val).pc = l.pc ∧ (t.eng.dir d.val).regs = x.regs) ∧
    (s.executes d [w.sa, w.sb] = true → w.dst = 0 →
      (a % n ≠ 0 → s.Faults d (.st d w .ok) 0x03) ∧
      (a % n = 0 → (s.eng.mp.firstHole a n ≠ none ∨ s.eng.acc.firstDenied 3 x.master false true a n ≠ none) →
        s.Faults d (.st d w .ok) 0x04) ∧
      (a % n = 0 → s.eng.mp.firstHole a n = none → s.eng.acc.firstDenied 3 x.master false true a n = none →
        s.eng.sectorsWait (s.eng.fills a (leBytes n (x.get w.sb).toNat)) = true → exec (.st d w .ok) s = .next s) ∧
      (a % n = 0 → s.eng.mp.firstHole a n = none → s.eng.acc.firstDenied 3 x.master false true a n = none →
        s.eng.answer a n .ok = .ok → s.eng.sectorsWait (s.eng.fills a (leBytes n (x.get w.sb).toNat)) = false → ∃ t, exec (.st d w .ok) s = .next t ∧ (t.eng.dir d.val).pc = x.pc + 8 ∧
          (t.eng.dir d.val).regs = x.regs ∧ t.eng.mp.owed (.dirAcc d) = s.eng.mp.owed (.dirAcc d) + 1 ∧
          t.eng.host = s.eng.host ∧
          (s.eng.swd.enabled = false → s.eng.swd.lines = [] → s.eng.swd.evb = [] →
            (∀ i < n, t.eng.dev.rd (a + i) = BitVec.ofNat 8 ((x.get w.sb).toNat / 256 ^ i)) ∧
            ∀ y, y < a ∨ a + n ≤ y → t.eng.dev.rd y = s.eng.dev.rd y)))

/-- R95, R125. A fetch that returns fills its sector of the instruction cache; one that is denied or fails, and a reserved opcode at
pc, fault the program. It waits while the sward cannot take it (R229, R237). -/
def Obligations.InstructionFetchFillsTheCache : Prop :=
  ∀ (s : State) (d : Fin 8) (x : Dir) (sec : W64) rest, x = s.eng.dir d.val → s.runs = true → x.st = .running →
    x.fetch = sec :: rest →
    (s.eng.swdWaits (sec.toNat * 64) 64 = true → ∀ r, exec (.instructionFetchReturn d r) s = .next s) ∧
    (s.eng.swdWaits (sec.toNat * 64) 64 = false →
    (s.eng.mp.firstHole (sec.toNat * 64) 64 = none →
      s.eng.acc.firstDenied 3 x.master true false (sec.toNat * 64) 64 = none →
      (s.eng.answer (sec.toNat * 64) 64 .ok = .ok → ∀ bs held, bs = s.eng.rdDev false (sec.toNat * 64) 64 →
        held = (if x.pc.toNat / 64 = sec.toNat then bs else x.icache.get [] (x.pc.toNat / 64)) →
        ((held = [] ∨ opcodeOk (le held (x.pc.toNat % 64 + 7) 1) = true) →
          ∃ t y, exec (.instructionFetchReturn d .ok) s = .next t ∧ y = t.eng.dir d.val ∧
            y = { x with fetch := rest, icache := y.icache } ∧ y.icache.get [] sec.toNat = bs ∧
            t.eng.dev = s.eng.dev ∧ t.ao = s.ao) ∧
        (held ≠ [] → opcodeOk (le held (x.pc.toNat % 64 + 7) 1) = false →
          s.Faults d (.instructionFetchReturn d .ok) 0x01)) ∧
      (∀ r, s.eng.answer (sec.toNat * 64) 64 r ≠ .ok → s.Faults d (.instructionFetchReturn d r) 0x02)) ∧
    ((s.eng.mp.firstHole (sec.toNat * 64) 64 ≠ none ∨
        s.eng.acc.firstDenied 3 x.master true false (sec.toNat * 64) 64 ≠ none) →
      ∀ r, s.Faults d (.instructionFetchReturn d r) 0x02))

/-- R94, R105, R106. A DLD that may read its descriptor makes the director wait for it; its return loads a table descriptor that
passes its checks, the count being the one that stood when the load began (R45), and faults with the reason of one that does not; a stream descriptor is loaded as it is. DSET replaces one
word of a stream descriptor, or copies a register; a table descriptor's word it may not set. The table number a + imm is taken modulo
2^64: the model's reading (log 169). -/
def Obligations.DescriptorsAreLoadedChecked : Prop :=
  ∀ (s : State) (d : Fin 8) (w : IWord) (x : Dir), x = s.eng.dir d.val →
    (∀ n, s.executes d [w.sa] = true → w.dst = 0 → w.sb = 0 → w.imm.toNat < 2 ^ 12 →
      n = (x.get w.sa + (w.imm.setWidth 12).setWidth 64).toNat →
      (s.eng.map.tblCount ≤ n → s.Faults d (.dld d w) 0x06) ∧
      (n < s.eng.map.tblCount → ∀ a, a = s.eng.map.tblBase + BitVec.ofNat 64 (32 * n) →
        s.eng.mp.firstHole a.toNat 32 = none → s.eng.acc.firstDenied 3 x.master true false a.toNat 32 = none →
        s.eng.swdWaits a.toNat 32 = false → ∃ t q, exec (.dld d w) s = .next t ∧
          q = { desc := w.desc, table := true, num := n, addr := a, count := s.eng.map.tblCount } ∧
          t.eng.dir d.val = { x with st := .waiting, wait := .desc q } ∧
          t.eng.dev = s.eng.dev ∧ t.ao = s.ao)) ∧
    (∀ a, s.executes d [w.sa] = true → w.dst = 0 → w.sb = 0 → w.imm.toNat / 2 ^ 35 = 1 →
      a = x.get w.sa + (w.imm.setWidth 35).signExtend 64 →
      (a.toNat % 32 ≠ 0 → s.Faults d (.dld d w) 0x03) ∧
      (a.toNat % 32 = 0 → s.eng.mp.firstHole a.toNat 32 = none →
        s.eng.acc.firstDenied 3 x.master true false a.toNat 32 = none → s.eng.swdWaits a.toNat 32 = false →
        ∃ t q, exec (.dld d w) s = .next t ∧
          q = { desc := w.desc, table := false, num := 0, addr := a, count := s.eng.map.tblCount } ∧
          t.eng.dir d.val = { x with st := .waiting, wait := .desc q } ∧
          t.eng.dev = s.eng.dev)) ∧
    (∀ q r, s.runs = true → x.st = .waiting → x.wait = .desc q → s.eng.answer q.addr.toNat 32 r ≠ .ok →
      s.Faults d (.descriptorReadReturn d r) 0x05) ∧
    (∀ q v, s.runs = true → x.st = .waiting → x.wait = .desc q → s.eng.answer q.addr.toNat 32 .ok = .ok →
      v = BitVec.ofNat 256 (leNat (s.eng.rdDev false q.addr.toNat 32)) →
      ((q.table = false ∨ tabReason (tabOf v) q.num q.count = 0) → ∃ t y,
        exec (.descriptorReadReturn d .ok) s = .next t ∧ y = t.eng.dir d.val ∧
        y = { x with st := .running, wait := .none, pc := x.pc + 8, descs := y.descs } ∧
        (∀ i, y.desc i = if i = q.desc then { kind := if q.table then .table else .stream, w := v } else x.desc i) ∧
        t.eng.dev = s.eng.dev) ∧
      (q.table = true → tabReason (tabOf v) q.num q.count ≠ 0 → ∃ t,
        exec (.descriptorReadReturn d .ok) s = .next t ∧ (t.eng.dir d.val).cause = 0x06 ∧
        (t.eng.dir d.val).detail = BitVec.ofNat 8 (tabReason (tabOf v) q.num q.count) ∧
        (t.eng.dir d.val).descs = x.descs)) ∧
    (s.executes d [w.sa] = true → w.dst = 0 → w.sb = 0 → w.imm.toNat < 4 →
      ((x.desc w.desc).kind = .table → s.Faults d (.dset d w) 0x07) ∧
      ((x.desc w.desc).kind ≠ .table → ∃ y, exec (.dset d w) s = .next (s.setDir d y) ∧
        y = { x with pc := x.pc + 8, descs := y.descs } ∧ (y.desc w.desc).kind = .stream ∧
        (∀ j < 4, (y.desc w.desc).w.extractLsb' (64 * j) 64 = if j = w.imm.toNat then x.get w.sa
          else if (x.desc w.desc).kind = .empty then 0 else (x.desc w.desc).w.extractLsb' (64 * j) 64) ∧
        ∀ i, i ≠ w.desc → y.desc i = x.desc i)) ∧
    (s.executes d [] = true → w.dst = 0 → w.sa = 0 → w.sb = 0 → w.imm.toNat % 8 = 4 → w.imm.toNat < 128 → ∃ y,
      exec (.dset d w) s = .next (s.setDir d y) ∧ y = { x with pc := x.pc + 8, descs := y.descs } ∧
      ∀ i, y.desc i = if i = w.desc then x.desc (BitVec.ofNat 4 (w.imm.toNat / 8)) else x.desc i)

/-- R111, R114, R115, R342. WAITT answers a retired ticket's status and flags, one beyond the last 256 as unknown or never issued,
and waits for a live one; mode 1 waits for every ticket; mode 2 reads the stop record. CWAIT goes on where its condition holds
and else waits, and stands while the director's own operations on the clapper wait at the bank (R344). CSIG and CADD operate a local clapper, CADD returning its old value. FENCE goes on when nothing is in flight. A
clapper number of 8,192 or more faults. An operation on a live peer is posted and counted, so that HALT and FENCE wait for its answer.
The model's choices: a ticket is named by its low 32 bits (log 32), the clapper number is checked before the position (log 149) and wraps
(log 169), and mode 1 reports the tickets that hold a slot (log 150).
R86, R88, R117. MSG posts one record of its code and its two operands from its director to the reel's message reel, with the
source's next sequence number; the record stands in an enabled reel with space that owes nothing, and an armed one interrupts. A full
reel holds up to 64 records; a disabled reel, or one that holds 64, loses it. The director goes on in every case. -/
def Obligations.SynchronisationInstructionsWaitAndMsgPosts : Prop :=
   (∀ (s : State) (d : Fin 8) (w : IWord) (x : Dir), x = s.eng.dir d.val →
      (s.executes d [w.sa] = true → w.sb = 0 → w.desc = 0 → w.imm = 0 → ∀ tk : W32, tk = (x.get w.sa).setWidth 32 →
        ((x.tcount - tk).toNat < 256 → 2 ^ 31 ≤ (x.tLaunch - tk).toNat →
          (∀ q st fl, x.slot tk = some q → q.ticket = tk → q.out = some (st, fl) →
            s.Computes d (.waitt d w) w.dst (BitVec.ofNat 64 (st.toNat + fl.toNat * 256)) 8) ∧
          ((x.slot tk = none ∨ ∃ q, x.slot tk = some q ∧ q.ticket ≠ tk) → s.Computes d (.waitt d w) w.dst 6 8) ∧
          (∀ q, x.slot tk = some q → q.ticket = tk → q.out = none → exec (.waitt d w) s =
            .next (s.setDir d { x with st := .waiting, wait := .ticket w.dst tk }))) ∧
        ((x.tcount - tk).toNat < 256 → (x.tLaunch - tk).toNat < 2 ^ 31 → s.Computes d (.waitt d w) w.dst 5 8) ∧
        (256 ≤ (x.tcount - tk).toNat → (x.tcount - tk).toNat < 2 ^ 31 → s.Computes d (.waitt d w) w.dst 5 8) ∧
        (2 ^ 31 ≤ (x.tcount - tk).toNat → s.Computes d (.waitt d w) w.dst 6 8)) ∧
      (s.executes d [] = true → w.sa = 0 → w.sb = 0 → w.desc = 0 → w.imm = 2 →
        (x.allRetired = false → exec (.waitt d w) s =
          .next (s.setDir d { x with st := .waiting, wait := .allTickets w.dst })) ∧
        (x.allRetired = true → ∃ t, exec (.waitt d w) s = .next t ∧ (t.eng.dir d.val).st = .running ∧
          (t.eng.dir d.val).pc = x.pc + 8 ∧
          (w.dst ≠ 0 → (t.eng.dir d.val).get w.dst = BitVec.ofNat 64 (x.outcome.1.toNat + x.outcome.2.toNat * 256)))) ∧
      (∀ q rest, s.executes d [] = true → w.sa = 0 → w.sb = 0 → w.desc = 0 → x.stops = q :: rest →
        (w.imm = 4 → s.Computes d (.waitt d w) w.dst (q.elem.setWidth 64) 8) ∧
        (w.imm = 12 → s.Computes d (.waitt d w) w.dst q.val 8) ∧
        (w.imm = 20 → s.Computes d (.waitt d w) w.dst (BitVec.ofNat 64 (q.ticket.toNat + q.cause.toNat * 2 ^ 32 +
          (if q.stream then 2 ^ 52 else q.table.toNat * 2 ^ 40))) 8)) ∧
      (∀ n us, s.executes d [w.sa, w.sb] = true → w.desc = 0 → w.imm.toNat < 2 ^ 35 → w.imm.toNat / 2 ^ 13 % 4 < 2 →
        n = (x.get w.sa).toNat + w.imm.toNat % 2 ^ 13 → n < 8192 → us = w.imm.toNat / 2 ^ 15 →
        s.eng.acc.firstDenied 1 x.master true false n 1 = none →
        ∀ q : Fin 12, q.val = d.val → (s.eng.clpHeld q n = true → exec (.cwait d w) s = .next s) ∧
        (s.eng.clpHeld q n = false → condHolds (w.imm.toNat / 2 ^ 13 % 4 == 1) (x.get w.sb) (s.eng.clap n) = true →
          s.Computes d (.cwait d w) w.dst 0 8) ∧
        (s.eng.clpHeld q n = false → condHolds (w.imm.toNat / 2 ^ 13 % 4 == 1) (x.get w.sb) (s.eng.clap n) = false → ∃ cl wt,
          cl.val = n ∧ wt = DirWait.clapper w.dst cl (w.imm.toNat / 2 ^ 13 % 4 == 1) (x.get w.sb)
            (if us = 0 then none else some (s.eng.hth.time + BitVec.ofNat 64 (1000 * us))) ∧
          exec (.cwait d w) s = .next (s.setDir d { x with st := .waiting, wait := wt }))) ∧
      (∀ n p, s.executes d [w.sa, w.sb] = true → w.desc = 0 → w.imm.toNat < 2 ^ 21 → p = w.imm.toNat / 2 ^ 13 →
        n = (x.get w.sa + (w.imm.setWidth 13).setWidth 64).toNat →
        (8192 ≤ n → s.Faults d (.csig d w) 0x0B ∧ s.Faults d (.cadd d w) 0x0B ∧
          (p = 0 → s.Faults d (.cwait d w) 0x0B)) ∧
        (n < 8192 → s.eng.hth.isSelf p = true → s.eng.clp.queues.get [] (n % 16) = [] →
          (s.eng.acc.firstDenied 1 x.master false true n 1 = none → ∃ t, exec (.csig d w) s = .next t ∧
            (∀ k, t.eng.clap k = if k = n then x.get w.sb else s.eng.clap k) ∧ (t.eng.dir d.val).pc = x.pc + 8 ∧
            (t.eng.dir d.val).st = .running ∧
            (∀ r, (t.eng.dir d.val).get r = if r = w.dst ∧ r ≠ 0 then 0 else x.get r)) ∧
          (s.eng.acc.firstDenied 1 x.master true true n 1 = none → ∃ t, exec (.cadd d w) s = .next t ∧
            (∀ k, t.eng.clap k = if k = n then s.eng.clap n + x.get w.sb else s.eng.clap k) ∧
            (t.eng.dir d.val).pc = x.pc + 8 ∧ (t.eng.dir d.val).st = .running ∧
            (∀ r, (t.eng.dir d.val).get r = if r = w.dst ∧ r ≠ 0 then s.eng.clap n else x.get r))) ∧
        (n < 8192 → s.eng.hth.isSelf p = false → s.eng.hth.size ≤ p → s.Faults d (.csig d w) 0x0A ∧ s.Faults d (.cadd d w) 0x0A) ∧
        (n < 8192 → s.eng.hth.isSelf p = false → p < s.eng.hth.size → s.eng.hth.isFailed p = true →
          s.Computes d (.csig d w) w.dst 7 8 ∧ s.Computes d (.cadd d w) w.dst 7 8) ∧
        (n < 8192 → s.eng.hth.isSelf p = false → p < s.eng.hth.size → s.eng.hth.isFailed p = false →
          ∀ c k, ((c = Instr.csig d w ∧ k = 0) ∨ (c = .cadd d w ∧ k = 1)) → ∃ t b,
          exec c s = .next t ∧ b = .clpOp (BitVec.ofNat 13 n) k (x.get w.sb) ∧
          (s.eng.sendWaits p b = false → ∃ k, t.eng.zw.tracked = s.eng.zw.tracked ++ [k] ∧ k.msg.dst = BitVec.ofNat 8 p ∧
            k.msg.body = b ∧ k.use = .posted d (BitVec.ofNat 13 n)) ∧
          (s.eng.sendWaits p b = true → ∃ u, t.eng.zw.blocked = s.eng.zw.blocked ++ [(p, b, u)]) ∧ (t.eng.dir d.val).peerOps = x.peerOps + 1 ∧
          (∀ r, (t.eng.dir d.val).get r = if r = w.dst ∧ r ≠ 0 then 0 else x.get r) ∧ (t.eng.dir d.val).pc = x.pc + 8 ∧ ∀ j, t.eng.clap j = s.eng.clap j)) ∧
      (s.executes d [] = true → w.dst = 0 → w.sa = 0 → w.sb = 0 → w.desc = 0 → w.imm.toNat < 32 → w.imm.toNat % 2 = 0 →
        ((s.eng.dirQuiet d = false ∨ (16 ≤ w.imm.toNat ∧ x.peerOps ≠ 0)) → exec (.fence d w) s =
          .next (s.setDir d { x with st := .waiting, wait := .fence (w.imm.extractLsb' 1 4) })) ∧
        (s.eng.dirQuiet d = true → w.imm = 8 → ∃ t, exec (.fence d w) s = .next t ∧
          t.eng.dir d.val = { x with st := .waiting, wait := .fence 0 } ∧ t.eng.mp.owed (.dirAcc d) = 1) ∧
        (s.eng.dirQuiet d = true → w.imm.toNat / 8 = 0 → ∃ t, exec (.fence d w) s = .next t ∧
          (t.eng.dir d.val).st = .running ∧ (t.eng.dir d.val).pc = x.pc + 8 ∧ (t.eng.dir d.val).regs = x.regs ∧
          (w.imm.toNat ≠ 0 → ∀ k l, t.eng.swd.lines.get none k = some l → l.s0.dirty = false ∧ l.s1.dirty = false)))) ∧
   (∀ (s : State) (d : Fin 8) (w : IWord) (x : Dir) (m : Nat) (r : MReel), x = s.eng.dir d.val →
      s.executes d [w.sa, w.sb] = true → w.dst = 0 → w.desc = 0 → w.imm.toNat < 2 ^ 15 → m = s.eng.mreelOf x.reel.val →
      r = s.eng.mreel m →
      (∃ t, exec (.msg d w) s = .next t ∧ t.eng.dir d.val = { x with pc := x.pc + 8 } ∧
        (∀ k, k ≠ d.val → t.eng.dir k = s.eng.dir k) ∧ t.ao = s.ao ∧ t.eng.clp = s.eng.clp) ∧
      ((r.enabled = false ∨ (r.enabled = true ∧ 64 ≤ r.held.length)) → ∃ t, exec (.msg d w) s = .next t ∧
        t.eng.mreel m = { r with lost := BitVec.ofNat 32 (min (r.lost.toNat + 1) 0xFFFFFFFF) } ∧
        t.eng.fe.seqs.get 0 (512 + d.val) = s.eng.fe.seqs.get 0 (512 + d.val) + 1 ∧
        t.eng.dev = s.eng.dev ∧ t.eng.host = s.eng.host) ∧
      (r.enabled = true → r.full = true → r.held.length < 64 → ∃ t rec, exec (.msg d w) s = .next t ∧
        t.eng.mreel m = { r with held := r.held ++ [rec] } ∧ rec.length = 31 ∧ leNat (rec.take 3) = 2 + d.val * 2 ^ 8 ∧
        le rec 3 4 = (s.eng.fe.seqs.get 0 (512 + d.val)).toNat ∧ le rec 7 2 = 0x8000 + w.imm.toNat ∧
        le rec 15 8 = (x.get w.sa).toNat ∧ le rec 23 8 = (x.get w.sb).toNat ∧
        t.eng.fe.seqs.get 0 (512 + d.val) = s.eng.fe.seqs.get 0 (512 + d.val) + 1 ∧
        t.eng.dev = s.eng.dev ∧ t.eng.host = s.eng.host) ∧
      (∀ a, r.enabled = true → r.full = false → r.held = [] → r.lost = 0 → r.cfg.toNat / 2 % 2 = 1 → a = r.base.toNat + 32 * (r.wr.toNat % r.size) →
        s.eng.acc.firstDenied 5 63 false true a 32 = none → ∃ t, exec (.msg d w) s = .next t ∧
          t.eng.mreel m = { r with wr := r.wr + 1, armed := r.armed && !r.cfg.getLsbD 6 } ∧
          t.eng.fe.msi = (if r.armed = true ∧ r.cfg.getLsbD 6 = true then s.eng.fe.msi ++ [r.cfg.extractLsb' 7 11]
            else s.eng.fe.msi) ∧ t.eng.dev = s.eng.dev ∧
          (∀ y, y < a ∨ a + 32 ≤ y → t.eng.host.rd y = s.eng.host.rd y) ∧
          t.eng.host.rd a = BitVec.ofNat 8 (128 + r.wr.toNat / r.size % 128) ∧
          leNat (t.eng.host.rdN (a + 1) 3) = 2 + d.val * 2 ^ 8 ∧
          leNat (t.eng.host.rdN (a + 4) 4) = (s.eng.fe.seqs.get 0 (512 + d.val)).toNat ∧
          t.eng.fe.seqs.get 0 (512 + d.val) = s.eng.fe.seqs.get 0 (512 + d.val) + 1 ∧
          leNat (t.eng.host.rdN (a + 8) 2) = 0x8000 + w.imm.toNat ∧
          leNat (t.eng.host.rdN (a + 16) 8) = (x.get w.sa).toNat ∧ leNat (t.eng.host.rdN (a + 24) 8) = (x.get w.sb).toNat))

/-- R107, R112, R113, R133, R262, R330, R356, R357, R358. STAGE queues a transfer on the copy engine of its direction with the fewest
transfers, PIN, UNIQ, QNT, SAMPLE and DIGEST hand their job to their unit, and each takes a ticket, unless its slot is held or its
unit's issue queue is full (a PIN starts at once and waits in none: the model's choice, log 7); an operand out of range faults; SAMPLE reserves its blocks of its
stream, and its sa must be s0 in modes 0 and 1 (the model's reading, log 110). A PIN issued in a restart of the sward waits for its end. -/
def Obligations.PreparationInstructionsTakeTickets : Prop :=
  ∀ (s : State) (d : Fin 8) (w : IWord) (ext : W64) (x : Dir) (tk : W32), x = s.eng.dir d.val → tk = x.nextTicket →
    (∀ n sh dh, s.executes d [w.sa, w.sb] = true → w.desc = 0 → w.imm = 0 → ext.toNat < 2 ^ 42 → n = ext.toNat % 2 ^ 40 →
      sh = ext.getLsbD 40 → dh = ext.getLsbD 41 →
      ((n = 0 ∨ (sh = true ∧ dh = true)) → s.Faults d (.stage d w ext) 0x0B) ∧
      (n ≠ 0 → (sh && dh) = false →
        (∀ ce, s.eng.hc.pick dh = some ce → x.slotFree tk = true → ∃ t, exec (.stage d w ext) s = .next t ∧
          s.Issues t d w.dst 16 ∧ t.eng.hc.ces.get [] ce = s.eng.hc.ces.get [] ce ++
            [{ owner := .ticket { dir := d, ticket := tk }, src := x.get w.sa, dst := x.get w.sb, len := n, srcHost := sh,
               dstHost := dh, master := x.master, started := false, moved := 0 }] ∧
          (∀ k, k ≠ ce → t.eng.hc.ces.get [] k = s.eng.hc.ces.get [] k) ∧ ce < 16 ∧ (8 ≤ ce ↔ dh = true) ∧
          (s.eng.hc.ces.get [] ce).length < 16 ∧
          ∀ k, k < 16 → (8 ≤ k ↔ dh = true) → (s.eng.hc.ces.get [] ce).length ≤ (s.eng.hc.ces.get [] k).length) ∧
        ((s.eng.hc.pick dh = none ∨ x.slotFree tk = false) → s.Stalls d (.stage d w ext)) ∧
        (s.eng.hc.pick dh = none ↔ ∀ k, k < 16 → (8 ≤ k ↔ dh = true) → 16 ≤ (s.eng.hc.ces.get [] k).length))) ∧
    (∀ a n, s.executes d [w.sa, w.sb] = true → w.desc = 0 → w.imm.toNat < 2 → a = x.get w.sb → n = (x.get w.sa).toNat →
      ((a.toNat % 128 ≠ 0 ∨ n % 128 ≠ 0 ∨ n < 128 ∨ 2 ^ 37 < n) → s.Faults d (.pin d w) 0x0B) ∧
      (a.toNat % 128 = 0 → n % 128 = 0 → 128 ≤ n → n ≤ 2 ^ 37 →
        (x.slotFree tk = true → ∃ t, exec (.pin d w) s = .next t ∧ s.Issues t d w.dst 8 ∧ t.eng.swd.pins = s.eng.swd.pins ++
          [{ h := x.hdr { dir := d, ticket := tk } 0, addr := a, len := n, unpin := w.imm.getLsbD 0, late := s.eng.busy 5 }]) ∧
        (x.slotFree tk = false → s.Stalls d (.pin d w)))) ∧
    (∀ role n, s.executes d [w.sa, w.sb] = true → w.imm = 0 → ext.toNat < 2 ^ 12 →
      role = (if (tabOf (x.desc w.desc).w).iw = 0 then 1 else 2) → n = (strOf (x.desc (xdesc ext 0)).w).rows →
      s.IssuesJob d (.uniq d w ext) w 16 [w.desc] [⟨xdesc ext 0, false, [role]⟩, ⟨xdesc ext 1, false, [role]⟩, ⟨xdesc ext 2, false, [1]⟩]
        s.eng.hsUniq (2 ^ 20 < n ∨ (strOf (x.desc (xdesc ext 1)).w).rows < n ∨ (strOf (x.desc (xdesc ext 2)).w).rows < n ∨
          (x.get w.sa).toNat % 8 ≠ 0)
        (fun t h => t.eng.gln.uniqs = s.eng.gln.uniqs ++
          [{ h := h, tab := (x.desc w.desc).w, inp := (x.desc (xdesc ext 0)).w, out := (x.desc (xdesc ext 1)).w,
             inv := (x.desc (xdesc ext 2)).w, cnt := x.get w.sa }])) ∧
    (∀ a b, s.executes d [w.sb] = true → w.sa = 0 → w.imm = 0 → ext.toNat < 16 → a = strOf (x.desc w.desc).w →
      b = strOf (x.desc (xdesc ext 0)).w → x.refuses [] [⟨w.desc, false, [0]⟩, ⟨xdesc ext 0, false, [0]⟩] = none →
      ((a.fw ≠ 0 ∨ a.rows ≠ b.rows ∨ a.len ≠ b.len) → s.Faults d (.qnt d w ext) 0x06) ∧
      (a.fw = 0 → a.rows = b.rows → a.len = b.len →
        (x.slotFree tk = true → s.eng.queueFull s.eng.hsQnt d = false → ∃ t, exec (.qnt d w ext) s = .next t ∧
          s.Issues t d w.dst 16 ∧ t.eng.grd.qnts = s.eng.grd.qnts ++
            [{ h := x.hdr { dir := d, ticket := tk } w.sb, src := (x.desc w.desc).w, dst := (x.desc (xdesc ext 0)).w }]) ∧
        ((x.slotFree tk = false ∨ s.eng.queueFull s.eng.hsQnt d = true) → s.Stalls d (.qnt d w ext)))) ∧
    (∀ o n mode k, s.executes d [w.sa, w.sb] = true → w.imm.toNat < 2 ^ 10 → ext = 0 → o = strOf (x.desc w.desc).w →
      n = (x.get w.sa).toNat → mode = w.imm.toNat / 2 ^ 8 → mode ≠ 3 → k = w.imm.toNat % 2 ^ 8 →
      s.eng.acc.firstDenied 2 x.master false true k 1 = none →
      s.IssuesJob d (.sample d w ext) w 16 [] [⟨w.desc, false, [1, 2, 4]⟩] s.eng.hsSample
        (¬ ((mode = 0 ∧ o.role = 1 ∧ w.sa = 0) ∨ (mode = 1 ∧ o.role = 4 ∧ w.sa = 0) ∨
          (mode = 2 ∧ o.role = 1 ∧ 1 ≤ n ∧ n ≤ 2 ^ 32) ∨ (mode = 2 ∧ o.role = 2 ∧ 1 ≤ n ∧ n ≤ 2 ^ 40)))
        (fun t h => t.eng.smp.jobs = s.eng.smp.jobs ++ [{
            h := h, out := (x.desc w.desc).w, mode := mode, n := n,
            k := (s.eng.smp.stream k).k, c := (s.eng.smp.stream k).c }] ∧
          ∀ j, t.eng.smp.stream j = if j = k then { s.eng.smp.stream k with
              c := (s.eng.smp.stream k).c + BitVec.ofNat 128 ((o.rows * (if o.role = 2 then 2 else 1) + 3) / 4) }
            else s.eng.smp.stream j)) ∧
    (∀ n, s.executes d [w.sa, w.sb] = true → w.desc = 0 → w.imm.toNat < 2 → n = (x.get w.sb).toNat →
      ((2 ^ 40 ≤ n ∨ ext.toNat % 32 ≠ 0) → s.Faults d (.digest d w ext) 0x0B) ∧
      (n < 2 ^ 40 → ext.toNat % 32 = 0 →
        (x.slotFree tk = true → s.eng.queueFull s.eng.hsDigest d = false → ∃ t, exec (.digest d w ext) s = .next t ∧ s.Issues t d w.dst 16 ∧ t.eng.tk.digs =
          s.eng.tk.digs ++ [{
            h := x.hdr { dir := d, ticket := tk } 0, src := x.get w.sa, len := n, dst := ext,
            sha := w.imm.getLsbD 0 }]) ∧
        ((x.slotFree tk = false ∨ s.eng.queueFull s.eng.hsDigest d = true) → s.Stalls d (.digest d w ext))))

/-- R126, R127, R150, R151. An accepted GLEAN stands in the gleaner block at its first position with the operands its flags name. An
accepted POOL stands in the writer, and is the consumer of the GLEAN its prior ticket names, which must be one without an output
of its own and without a consumer. -/
def Obligations.GleanAndPoolAreIssued : Prop :=
  ∀ (s : State) (d : Fin 8) (w : IWord) (ext : W64) (x : Dir), x = s.eng.dir d.val →
    (∀ out wts bags src (g : Hdr → Glean) row len os, s.executes d [w.sb] = true → w.sa = 0 →
      w.imm.toNat % 2 ^ 36 < 16 → ext.toNat < 2 ^ 42 → out = w.imm.getLsbD 0 → wts = w.imm.getLsbD 1 → bags = w.imm.getLsbD 2 →
      src = w.imm.getLsbD 3 → (bags = false → xdesc ext 1 = 0) → (wts = false → xdesc ext 2 = 0) →
      (out = false → xdesc ext 3 = 0) → row = (x.desc w.desc).w → len = (if src then (strOf row).len else (tabOf row).len) →
      os = ((if src then [{ reg := w.desc, aux := false, roles := [0] }] else []) ++
        [{ reg := xdesc ext 0, aux := false, roles := if src then [1, 2] else if (tabOf row).iw = 0 then [1] else [2] }] ++
        (if bags then [{ reg := xdesc ext 1, aux := false, roles := [3] }] else []) ++
        (if wts then [{ reg := xdesc ext 2, aux := false, roles := [4] }] else []) ++
        (if out then [{ reg := xdesc ext 3, aux := true, roles := [0] }] else []) : List Opnd) →
      g = (fun h => {
        h := h, root := h.key.ticket, out := out, wts := wts, bags := bags, src := src, ff := w.imm.getLsbD 36,
        srcD := row, idxD := (x.desc (xdesc ext 0)).w, offD := if bags then (x.desc (xdesc ext 1)).w else 0,
        wtD := if wts then (x.desc (xdesc ext 2)).w else 0, outD := if out then (x.desc (xdesc ext 3)).w else 0,
        eFirst := ext.toNat / 2 ^ 16 % 2 ^ 13,
        w := if ext.toNat / 2 ^ 29 % 2 ^ 13 = 0 then len - ext.toNat / 2 ^ 16 % 2 ^ 13 else ext.toNat / 2 ^ 29 % 2 ^ 13,
        next := 0, bag := 0, bagEnd := none, bagOffs := [], total := none, elems := [], consumer := none, phase := .active,
        fault := none, iFault := none, skip := [], fix := [], redo := [], denied := none, lost := none, flags := 0,
        dead := false }) →
      s.IssuesJob d (.glean d w ext) w 16 (if src then [] else [w.desc]) os s.eng.hsGlean
        (gleanBad (g (x.hdr { dir := d, ticket := 0 } 0)) len (g (x.hdr { dir := d, ticket := 0 } 0)).w
          (strOf (x.desc (xdesc ext 3)).w) = true)
        (fun t h => g h ∈ t.eng.gln.gleans ∧ (∀ q ∈ s.eng.gln.gleans, q.phase ≠ .retired → q ∈ t.eng.gln.gleans) ∧
          ∀ q ∈ t.eng.gln.gleans, q = g h ∨ q ∈ s.eng.gln.gleans)) ∧
    (∀ op pre k oFirst os live, s.executes d [w.sa, w.sb] = true → op = w.imm.toNat % 16 → op < 8 →
      (w.imm.getLsbD 4 = true → op ≤ 2 ∨ op = 5) → pre = w.imm.toNat / 2 ^ 5 % 4 → pre < 3 → k = w.imm.toNat / 2 ^ 7 % 2 ^ 13 →
      (k ≠ 0 → 6 ≤ op) → oFirst = w.imm.toNat / 2 ^ 20 → (oFirst ≠ 0 → op < 6) → oFirst < 2 ^ 12 → ext.toNat < 2 ^ 8 →
      (op ≠ 6 → xdesc ext 0 = 0) → (pre = 0 → xdesc ext 1 = 0) →
      os = ([⟨w.desc, true, [0]⟩] ++ (if op = 6 then [⟨xdesc ext 0, false, [1]⟩] else []) ++
        (if pre ≠ 0 then [⟨xdesc ext 1, false, [0]⟩] else []) : List Opnd) → x.refuses [] os = none →
      live = (w.sb ≠ 0 ∧ ∃ q, x.slot ((x.get w.sb).setWidth 32) = some q ∧ q.ticket = (x.get w.sb).setWidth 32) →
      ((¬ live ∨ s.eng.gleanOf d ((x.get w.sb).setWidth 32) = none) → s.Faults d (.pool d w ext) 0x0B) ∧
      (∀ g : Glean, s.eng.gleanOf d ((x.get w.sb).setWidth 32) = some g →
        ((g.out = true ∨ g.consumer ≠ none) → s.Faults d (.pool d w ext) 0x0B) ∧
        (∀ j : Hdr → PoolJob, live → g.out = false → g.consumer = none →
          j = (fun h => {
        h := h, op := op, fp32 := w.imm.getLsbD 4, pre := pre, k := k, oFirst := oFirst, a := (x.get w.sa).toNat,
            outD := (x.desc w.desc).w, posD := if op = 6 then (x.desc (xdesc ext 0)).w else 0,
            preD := if pre ≠ 0 then (x.desc (xdesc ext 1)).w else 0, fill := s.eng.wr.fill, w := g.w,
            q := (8 + g.fw.rowBytes g.w + 7) / 8 * 8, nBags := g.nBags, bags := [], next := 0, flags := 0, fault := false,
            nEl := 0, nClip := 0, ovf := [] }) →
          s.IssuesJob d (.pool d w ext) w 16 [] os s.eng.hsPool (poolBad (j (x.hdr { dir := d, ticket := 0 } 0)) g.wts = true)
            (fun t h => t.eng.wr.pools = s.eng.wr.pools ++ [j h] ∧
              t.eng.glean g.h.key = some { g with consumer := some h.key } ∧
              ∀ k, k ≠ g.h.key → t.eng.glean k = s.eng.glean k))))

/-- R180, R181, R190, R191. An accepted SWEEP stands in the sweep unit with its range, its tiles and its queries, holding nothing yet. An
accepted TOPK stands there too; one that merges scores is tied to the SWEEP its prior ticket names, which must have no output and no
TOPK; one that names a position outside the heath faults. -/
def Obligations.SweepAndTopkAreIssued : Prop :=
  ∀ (s : State) (d : Fin 8) (w : IWord) (ext : W64) (x : Dir), x = s.eng.dir d.val →
    (∀ out src filt row rows os (j : Hdr → SweepJob), s.executes d [w.sa, w.sb] = true → w.imm.toNat < 2 ^ 24 →
      ext.toNat < 2 ^ 49 → out = w.imm.getLsbD 0 → src = w.imm.getLsbD 2 → filt = w.imm.getLsbD 3 →
      (filt = false → xdesc ext 0 = 0) → xdesc ext 2 = 0 → (out = false → xdesc ext 3 = 0) → row = (x.desc w.desc).w →
      rows = (if src then (strOf row).rows else (tabOf row).rows) →
      os = ((if src then [⟨w.desc, false, [0]⟩] else []) ++ (if filt then [⟨xdesc ext 0, false, [1]⟩] else []) ++
        [⟨xdesc ext 1, false, [0]⟩] ++ (if out then [⟨xdesc ext 3, false, [0]⟩] else []) : List Opnd) →
      j = (fun h => {
        h := h, out := out, qrot := w.imm.getLsbD 1, src := src, filt := filt, srcD := row,
        filtD := if filt then (x.desc (xdesc ext 0)).w else 0, qD := (x.desc (xdesc ext 1)).w,
        outD := if out then (x.desc (xdesc ext 3)).w else 0, r0 := (x.get w.sa).toNat,
        n := if ext.toNat / 2 ^ 16 % 2 ^ 33 = 0 then rows - (x.get w.sa).toNat else ext.toNat / 2 ^ 16 % 2 ^ 33,
        t0 := w.imm.toNat / 2 ^ 4 % 2 ^ 6, nt := w.imm.toNat / 2 ^ 10 % 2 ^ 7, ng := w.imm.toNat / 2 ^ 17 % 2 ^ 7,
        nq := (strOf (x.desc (xdesc ext 1)).w).rows, topk := none, tiles := false, queries := none,
        todo := List.replicate (w.imm.toNat / 2 ^ 17 % 2 ^ 7) [], turn := List.replicate (w.imm.toNat / 2 ^ 17 % 2 ^ 7) 0,
        deferred := [], arrived := [], used := [], badRows := [], uncorr := false, div := false, lost := false, fault := false,
        ended := false }) →
      s.IssuesJob d (.sweep d w ext) w 16 (if src then [] else [w.desc]) os s.eng.hsSweep
        (s.eng.sweepBad (j (x.hdr { dir := d, ticket := 0 } 0)) rows = true)
        (fun t h => t.eng.swp.sweeps.getLast? = some (j h) ∧ t.eng.swp.topks = s.eng.swp.topks ∧
          (∀ q ∈ s.eng.swp.sweeps, q.ended = false → q ∈ t.eng.swp.sweeps) ∧
          ∀ q ∈ t.eng.swp.sweeps, q = j h ∨ q ∈ s.eng.swp.sweeps)) ∧
    (∀ m1 ex fl os q k p live (sw : Option SweepJob) (j : Hdr → TopkJob), s.executes d [w.sa, w.sb] = true →
      w.imm.toNat < 2 ^ 21 → m1 = w.imm.getLsbD 0 → ex = w.imm.getLsbD 1 → fl = w.imm.getLsbD 2 → (m1 && ex) = false →
      (m1 = false → ex = false → xdesc ext 1 = 0 ∧ xdesc ext 2 = 0) → xdesc ext 3 = 0 →
      (m1 = false → ext.toNat / 2 ^ 16 % 2 ^ 16 = 0) → (fl = false → ext.toNat < 2 ^ 32) →
      os = ([⟨w.desc, true, [0]⟩, ⟨xdesc ext 0, false, [2]⟩] ++ (if m1 then [⟨xdesc ext 1, false, [0]⟩, ⟨xdesc ext 2, false, [2]⟩]
        else if ex then [⟨xdesc ext 1, false, [2]⟩, ⟨xdesc ext 2, false, [3]⟩] else []) : List Opnd) →
      live = (w.sb ≠ 0 ∧ ∃ y, x.slot ((x.get w.sb).setWidth 32) = some y ∧ y.ticket = (x.get w.sb).setWidth 32) →
      (live → sw = s.eng.sweepOf { dir := d, ticket := (x.get w.sb).setWidth 32 }) → (¬ live → sw = none) →
      q = (if m1 then ext.toNat / 2 ^ 16 % 2 ^ 16 + 1 else ((sw.map (·.nq)).getD 0)) →
      k = w.imm.toNat / 2 ^ 3 % 2 ^ 10 + 1 → p = w.imm.toNat / 2 ^ 13 →
      j = (fun h => {
        h := h, mode1 := m1, exOn := ex, floor := if fl then some (BitVec.ofNat 32 (ext.toNat / 2 ^ 32)) else none,
        k := k, q := q, dpos := BitVec.ofNat 8 p, a := (x.get w.sa).toNat, outD := (x.desc w.desc).w,
        posD := (x.desc (xdesc ext 0)).w, inD := if m1 || ex then (x.desc (xdesc ext 1)).w else 0,
        offD := if m1 || ex then (x.desc (xdesc ext 2)).w else 0, sweep := if m1 then none else sw.map (·.h.key),
        reserved := none, excl := [], lists := [], nans := [],
        swFlags := if m1 then none else sw.bind fun y => if y.ended then some (y.uncorr, y.div, y.lost) else none,
        dead := !m1 && sw.any (·.ended), fault := false, outs := none }) →
      x.refuses [] os = none →
      (s.eng.hth.isSelf p = false → s.eng.hth.size ≤ p → s.Faults d (.topk d w ext) 0x0A) ∧
      ((s.eng.hth.isSelf p = true ∨ p < s.eng.hth.size) → s.IssuesJob d (.topk d w ext) w 16 [] os s.eng.hsTopk
        ((m1 = true ∧ sw ≠ none) ∨ (m1 = false ∧ ∀ y, sw = some y → y.out = true ∨ y.topk ≠ none) ∨
          topkBad (j (x.hdr { dir := d, ticket := 0 } 0)) = true)
        (fun t h => t.eng.swp.topks = s.eng.swp.topks ++ [j h] ∧
          (m1 = false → ∀ y, sw = some y → t.eng.sweepOf y.h.key = some { y with topk := some h.key }) ∧
          ∀ z, (m1 = true ∨ sw.map (·.h.key) ≠ some z) → t.eng.sweepOf z = s.eng.sweepOf z)))

/-- R201, R202, R203, R204, R210. An accepted TED reads its table's state table where the table has one, is the consumer of its
GLEAN, and opens or joins its update set at once unless an OPT of that set is in flight (its operands must agree with the others of
the set that it will join). An accepted OPT waits for the TEDs and OPTs
of its set accepted before it. -/
def Obligations.TedAndOptAreIssued : Prop :=
  ∀ (s : State) (d : Fin 8) (w : IWord) (ext : W64) (x : Dir) (set : Fin 16), x = s.eng.dir d.val → set.val = w.imm.toNat % 16 →
    (∀ row t tk g need a st sr behind (j : Hdr → TedJob), s.executes d [w.sb] = true → w.sa = 0 → w.imm.toNat < 2 ^ 16 →
      ext.toNat < 2 ^ 8 → row = (x.desc w.desc).w → t = tabOf row → tk = (x.get w.sb).setWidth 32 →
      x.refuses [w.desc] [⟨xdesc ext 0, false, [if t.iw = 0 then 1 else 2]⟩, ⟨xdesc ext 1, false, [0]⟩] = none →
      w.sb ≠ 0 → (∃ y, x.slot tk = some y ∧ y.ticket = tk) → s.eng.gleanOf d tk = some g → g.out = false → g.bags = false →
      g.consumer = none →
      need = (decide (2 ≤ t.opt) && decide (t.opt ≤ 6) && t.stEn && decide (t.stTid < s.eng.map.tblCount)) →
      a = (s.eng.map.tblBase + BitVec.ofNat 64 (32 * t.stTid)).toNat →
      (need = true → s.eng.mp.firstHole a 32 = none ∧ s.eng.swdWaits a 32 = false) →
      st = (if need then BitVec.ofNat 256 (leNat (s.eng.rdDev false a 32)) else 0) →
      sr = (if need then tabReason (tabOf st) t.stTid s.eng.map.tblCount else 1) →
      behind = (s.eng.ted.opts.filter fun o => o.set == set).map (·.h.key) →
      j = (fun h => {
        h := h, set := set, tFirst := w.imm.toNat / 16, w := g.w, tab := row, stTab := st,
        idxD := (x.desc (xdesc ext 0)).w, areaD := (x.desc (xdesc ext 1)).w, behind := behind, joined := false, fault := false,
        abort := false, flags := 0 }) →
      (need = true → s.eng.acc.firstDenied 3 x.master true false a 32 ≠ none → s.Faults d (.ted d w ext .ok) 0x04) ∧
      (∀ r, need = true → s.eng.acc.firstDenied 3 x.master true false a 32 = none → s.eng.answer a 32 r ≠ .ok →
        s.Faults d (.ted d w ext r) 0x05) ∧
      ((need = true → s.eng.acc.firstDenied 3 x.master true false a 32 = none ∧ s.eng.answer a 32 .ok = .ok) → ∀ bad,
        bad = (tedBad t (tabOf st) sr (w.imm.toNat / 16) g.w (strOf (x.desc (xdesc ext 0)).w).rows (strOf g.idxD).rows
            (s.eng.map.mapped t.tid) (strOf (x.desc (xdesc ext 1)).w) = true ∨
          s.eng.tedClash (j (x.hdr { dir := d, ticket := 0 } 0)) = true) →
        (behind = [] → (s.eng.tedClash (j (x.hdr { dir := d, ticket := 0 } 0)) = true ↔
          (s.eng.tset set.val).opened = true ∧ (s.eng.tset set.val).matches (j (x.hdr { dir := d, ticket := 0 } 0)) = false)) ∧
        (bad → s.Faults d (.ted d w ext .ok) 0x0B) ∧
        (¬ bad → (x.slotFree x.nextTicket = false ∨ s.eng.queueFull s.eng.hsTed d = true) → s.Stalls d (.ted d w ext .ok)) ∧
        (¬ bad → x.slotFree x.nextTicket = true → s.eng.queueFull s.eng.hsTed d = false → ∃ u h y, exec (.ted d w ext .ok) s = .next u ∧ s.Issues u d w.dst 16 ∧
          h = x.hdr { dir := d, ticket := x.nextTicket } w.sb ∧
          u.eng.glean g.h.key = some { g with consumer := some h.key } ∧ u.eng.ted.teds.getLast? = some y ∧
          (behind ≠ [] → y = j h ∧ u.eng.ted.sets = s.eng.ted.sets) ∧
          (behind = [] → y = { j h with joined := true, abort := (s.eng.tset set.val).opened && (s.eng.tset set.val).spoiled } ∧
            ∀ k, u.eng.tset k = if k = set.val ∧ (s.eng.tset k).opened = false then {
                  opened := true, tab := row, stTab := st, tFirst := w.imm.toNat / 16, w := g.w,
                  area := BitVec.ofNat 64 (strOf (x.desc (xdesc ext 1)).w).base,
                  areaLen := (strOf (x.desc (xdesc ext 1)).w).rows * 256 }
              else s.eng.tset k)))) ∧
    (∀ p, s.executes d [w.sa, w.sb] = true → w.imm.toNat < 16 → ext = 0 → p = strOf (x.desc w.desc).w →
      s.IssuesJob d (.opt d w ext) w 16 [] [⟨w.desc, true, [4]⟩] s.eng.hsTed (p.rows < 8 ∨ p.aux % 64 ≠ 0)
        (fun t h => ∃ o, t.eng.ted.opts = s.eng.ted.opts ++ [o] ∧ o.h = h ∧ o.set = set ∧ o.t = x.get w.sa ∧
          o.parD = (x.desc w.desc).w ∧ o.started = false ∧ o.todo = [] ∧ o.params = [] ∧
          (∀ k, k ∈ o.after ↔ (∃ q ∈ s.eng.ted.teds, q.set = set ∧ q.h.key = k) ∨
            ∃ q ∈ s.eng.ted.opts, q.set = set ∧ q.h.key = k) ∧
          t.eng.ted.teds = s.eng.ted.teds ∧ t.eng.ted.sets = s.eng.ted.sets))
/-- R119, R120, R121, R319, R320, R321, R339. TAKE takes a ticket and counts a step: in replay it compares its note and retires, with the
unit disabled it only retires, a conditional one that is not due appends its note to the open file and retires, and any other requests a
cut and stays live. RESUME, SKIPEL and FIXEL hand the oldest stop's GLEAN to a continuation with a ticket of its own, but stall while its
slot is held or the gleaners' issue queue for the director is full (R107); with no stop they fault. -/
def Obligations.TakeAndStopInstructionsTakeTickets : Prop :=
  ∀ (s : State) (d : Fin 8) (w : IWord) (x : Dir) (tk : W32) (k : Key), x = s.eng.dir d.val → tk = x.nextTicket →
    k = { dir := d, ticket := tk } →
    (s.executes d [w.sa] = true → w.sb = 0 → w.desc = 0 → w.imm.toNat < 4 →
      (x.slotFree tk = false → s.Stalls d (.take d w)) ∧
      (x.slotFree tk = true → ∀ a, a = x.get w.sa → ∃ t y, exec (.take d w) s = .next t ∧ y = t.eng.dir d.val ∧ y.tcount = tk ∧
        y.pc = x.pc + 8 ∧ y.st = .running ∧ (∀ r, y.get r = if r = w.dst ∧ r ≠ 0 then tk.setWidth 64 else x.get r) ∧
        t.eng.tk.step = s.eng.tk.step + 1 ∧ t.ao = s.ao ∧
        (s.eng.tk.ctl.getLsbD 5 = true → y.slot tk = some { ticket := tk, out := some (0, 0) } ∧
          t.eng.tk.ctl.getLsbD 5 = false ∧ (a = s.eng.tk.replayExp → t.eng.tk.status.getLsbD 9 = true) ∧
          (a ≠ s.eng.tk.replayExp → t.eng.tk.status.getLsbD 10 = true)) ∧
        (s.eng.tk.ctl.getLsbD 5 = false → s.eng.tk.enabled = false → y.slot tk = some { ticket := tk, out := some (0, 0) } ∧
          t.eng.tk = { s.eng.tk with step := s.eng.tk.step + 1 }) ∧
        (∀ b, s.eng.tk.ctl.getLsbD 5 = false → s.eng.tk.enabled = true →
          b = (w.imm.getLsbD 1 && !Eng.due { s.eng with tk := { s.eng.tk with step := s.eng.tk.step + 1 } }) →
          (b = true → y.slot tk = some { ticket := tk, out := some (0, 0) } ∧ t.eng.tk.cuts = s.eng.tk.cuts ∧
            t.eng.tk.opened.map (·.body) = s.eng.tk.opened.map fun f => f.body ++ noteBytes (s.eng.tk.step + 1) a) ∧
          (b = false → y.slot tk = some { ticket := tk, out := none } ∧ ∃ c, t.eng.tk.cuts = s.eng.tk.cuts ++ [c] ∧
            c.print = w.imm.getLsbD 0 ∧ c.byTake = some (x.hdr k 0) ∧ c.note = a ∧ c.pos = s.eng.tk.step + 1 ∧ c.cmd = none ∧
            c.opts = s.eng.ted.opts.map (·.h.key) ∧ t.eng.dev = s.eng.dev ∧ t.eng.host = s.eng.host)))) ∧
    (s.executes d [] = true → w.sa = 0 → w.sb = 0 → w.desc = 0 → w.imm = 0 → x.stops = [] →
      s.Faults d (.resume d w) 0x0D ∧ s.Faults d (.skipel d w) 0x0D) ∧
    (s.executes d [w.sa] = true → w.sb = 0 → w.desc = 0 → w.imm = 0 → x.stops = [] → s.Faults d (.fixel d w) 0x0D) ∧
    (∀ q rest old (at' : Nat) (f : Glean → Glean), s.executes d [w.sa] = true → w.sb = 0 → w.desc = 0 → w.imm = 0 →
      x.stops = q :: rest → old = { dir := d, ticket := q.ticket } → at' = q.elem.toNat →
      f = (fun g => { g with h := { g.h with key := k }, phase := .active }) →
      (x.slotFree tk = false ∨ s.eng.queueFull s.eng.hsGlean d = true →
        s.Stalls d (.fixel d w) ∧ (w.sa = 0 → s.Stalls d (.resume d w) ∧ s.Stalls d (.skipel d w))) ∧
      (x.slotFree tk = true → s.eng.queueFull s.eng.hsGlean d = false → ∀ c (f' : Glean → Glean),
        ((c = .resume d w ∧ w.sa = 0 ∧ f' = f) ∨
          (c = .skipel d w ∧ w.sa = 0 ∧ f' = fun g => { f g with skip := at' :: g.skip }) ∨
          (c = .fixel d w ∧ f' = fun g => { f g with fix := (at', if (strOf g.idxD).role = 1 then
            ((x.get w.sa).setWidth 32).setWidth 64 else x.get w.sa) :: g.fix })) →
        ∃ t y, exec c s = .next t ∧ y = t.eng.dir d.val ∧ y.stops = rest ∧ y.tcount = tk ∧ y.pc = x.pc + 8 ∧ y.st = .running ∧
          (∀ r, y.get r = if r = w.dst ∧ r ≠ 0 then tk.setWidth 64 else x.get r) ∧
          (q.ticket ≠ tk → y.slot tk = some { ticket := tk, out := none }) ∧
          (∀ z, x.slot q.ticket = some z → z.ticket = q.ticket → q.ticket.toNat % 256 ≠ tk.toNat % 256 →
            y.slot q.ticket = some { z with next := some tk }) ∧
          t.eng.gln.gleans = s.eng.gln.gleans.map (fun g => if g.h.key = old then f' g else g) ∧
          t.eng.dev = s.eng.dev ∧ t.eng.host = s.eng.host ∧ t.ao = s.ao))

/-- R44, R108, R111, R112, R113, R133, R232, R331, R357, R358. A PIN, UNIQ, QNT, SAMPLE or DIGEST whose ranges are granted and whose
reads and writes succeed retires ok with its result written: the lines pinned up to one whose fill failed, or unpinned, the lists and their
count, the requantized rows, the sampler's values, the digest. A denied range and an error retire it with fault; one whose turn has not come
waits, and one whose prior ticket failed is aborted. How many rows a failed QNT wrote (log entry 64), the uncorrectable flag of a failed UNIQ
(log entry 177) and that a PIN waits while the sward is being enabled or restarts (log entry 66) are the model's choice. -/
def Obligations.PreparationJobsRetire : Prop :=
  ∀ (s : State) (k : Key) (q : TSlot), s.runs = true → s.ticketLive k q →
    (∀ j failAt, s.eng.swd.pins.find? (·.h.key == k) = some j → j.addr.toNat % 128 = 0 → j.len % 128 = 0 →
      (j.late = true → s.eng.busy 5 = true → exec (.pinRetire k failAt) s = .next s) ∧
      (j.unpin = true → (j.late = false ∨ s.eng.busy 5 = false) → ∃ t, exec (.pinRetire k failAt) s = .next t ∧ s.Retires t k q 0 0 ∧
        t.eng.swd.pins = s.eng.swd.pins.filter (·.h.key != k) ∧
        (s.noFence k → t.eng.dev = s.eng.dev ∧ ∀ n, t.eng.swd.lines.get none n =
          if j.addr.toNat / 128 ≤ n ∧ n < j.addr.toNat / 128 + j.len / 128 then
            (s.eng.swd.lines.get none n).map fun l => { l with ppin := false } else s.eng.swd.lines.get none n)) ∧
      (j.unpin = false → (s.eng.swd.pending = true ∨
          ∃ i, i < j.len / 128 ∧ s.eng.pinWaits (j.addr.toNat / 128 + i) = true) → exec (.pinRetire k failAt) s = .next s) ∧
      (j.unpin = false → (j.late = false ∨ s.eng.busy 5 = false) → s.eng.swd.pending = false →
        (∀ i, i < j.len / 128 → s.eng.pinWaits (j.addr.toNat / 128 + i) = false) → ∃ t r, exec (.pinRetire k failAt) s = .next t ∧
        r = (s.eng.onSwd fun w => { w with pins := w.pins.filter fun p => p.h.key != k }).pinLines j.h.master failAt 0
          ((List.range (j.len / 128)).map (j.addr.toNat / 128 + ·)) ∧
        s.Retires t k q (if r.2.2 = .denied ∨ r.2.2 = .uncorr then 3 else 0) (if r.2.2 = .uncorr then 4 else 0) ∧ t.eng.swd.pins = s.eng.swd.pins.filter (·.h.key != k) ∧
        (s.eng.swd.allocates = false → r.2.2 = .pinned ∧ r.2.1 = j.len / 128))) ∧
    (∀ j r wr, s.eng.gln.uniqs.find? (·.h.key == k) = some j →
      (s.eng.turn s.eng.hsUniq j.h = .wait → exec (.uniqRetire k r wr) s = .next s) ∧
      (s.eng.turn s.eng.hsUniq j.h = .dead → ∃ t, exec (.uniqRetire k r wr) s = .next t ∧ s.Retires t k q 4 0) ∧
      (s.eng.turn s.eng.hsUniq j.h = .go → s.eng.mp.firstHole (strOf j.inp).base (strOf j.inp).span = none →
        s.eng.acc.firstDenied 4 j.h.master true false (strOf j.inp).base (strOf j.inp).span ≠ none →
        ∃ t, exec (.uniqRetire k r wr) s = .next t ∧ s.Retires t k q 3 0) ∧
      (s.eng.turn s.eng.hsUniq j.h = .go → s.eng.wideOk j.h.master true false (strOf j.inp).base (strOf j.inp).span →
        s.eng.answer (strOf j.inp).base (strOf j.inp).span r ≠ .ok →
        ∃ t, exec (.uniqRetire k r wr) s = .next t ∧ s.Retires t k q 3 4)) ∧
    (∀ j a o i uq inv, s.eng.gln.uniqs.find? (·.h.key == k) = some j → s.eng.turn s.eng.hsUniq j.h = .go → a = strOf j.inp →
      o = strOf j.out → i = strOf j.inv → s.eng.wideOk j.h.master true false a.base a.span → s.eng.answer a.base a.span .ok = .ok →
      (uq, inv) = uniqLists (tabOf j.tab) ((List.range a.rows).map fun n =>
        leNat (((s.eng.rdDev true a.base a.span).drop (n * a.item)).take a.item)) [] [] [] →
      s.eng.wideOk j.h.master false true o.base (uq.length * o.item) → s.eng.wideOk j.h.master false true i.base (inv.length * 4) →
      s.eng.wideOk j.h.master false true j.cnt.toNat 8 → ∀ wr,
      ((s.eng.answer o.base (uq.length * o.item) wr ≠ .ok ∨ s.eng.answer i.base (inv.length * 4) wr ≠ .ok ∨
          s.eng.answer j.cnt.toNat 8 wr ≠ .ok) →
        ∃ t, exec (.uniqRetire k .ok wr) s = .next t ∧ s.Retires t k q 3 4 ∧ (s.noFence k → t.eng.dev = s.eng.dev)) ∧
      (s.eng.answer o.base (uq.length * o.item) wr = .ok → s.eng.answer i.base (inv.length * 4) wr = .ok →
        s.eng.answer j.cnt.toNat 8 wr = .ok → ∃ t, exec (.uniqRetire k .ok wr) s = .next t ∧ s.Retires t k q 0 0 ∧
        t.eng.gln.uniqs = s.eng.gln.uniqs.filter (·.h.key != k) ∧
        (s.noFence k → t.eng.dev = ((s.eng.dev.wrN o.base (uq.flatMap (leBytes o.item))).wrN i.base (inv.flatMap (leBytes 4))).wrN j.cnt.toNat
          (leBytes 8 uq.length)) ∧ t.eng.host = s.eng.host)) ∧
    (∀ j rd wr, s.eng.grd.qnts.find? (·.h.key == k) = some j →
      (s.eng.turn s.eng.hsQnt j.h = .wait → exec (.qntRetire k rd wr) s = .next s) ∧
      (s.eng.turn s.eng.hsQnt j.h = .dead → ∃ t, exec (.qntRetire k rd wr) s = .next t ∧ s.Retires t k q 4 0) ∧
      (s.eng.turn s.eng.hsQnt j.h = .go → s.eng.mp.firstHole (strOf j.src).base (strOf j.src).span = none →
        s.eng.acc.firstDenied 4 j.h.master true false (strOf j.src).base (strOf j.src).span ≠ none →
        ∃ t, exec (.qntRetire k rd wr) s = .next t ∧ s.Retires t k q 3 0) ∧
      (s.eng.turn s.eng.hsQnt j.h = .go → s.eng.wideOk j.h.master true false (strOf j.src).base (strOf j.src).span →
        s.eng.wideOk j.h.master false true (strOf j.dst).base (strOf j.dst).span →
        (s.eng.answer (strOf j.src).base (strOf j.src).span rd ≠ .ok ∨ wr ≠ .ok) →
        ∃ t fl, exec (.qntRetire k rd wr) s = .next t ∧ s.Retires t k q 3 fl ∧ (fl = 4 ∨ fl = 5))) ∧
    (∀ j a b r clip, s.eng.grd.qnts.find? (·.h.key == k) = some j → s.eng.turn s.eng.hsQnt j.h = .go → a = strOf j.src →
      b = strOf j.dst → s.eng.wideOk j.h.master true false a.base a.span → s.eng.wideOk j.h.master false true b.base b.span →
      s.eng.answer a.base a.span .ok = .ok → r = s.eng.qntRows j.h a b 0 a.rows →
      clip = (s.eng.grd.thresh ≠ 0 ∧ s.eng.grd.thresh.toNat * r.2.el < r.2.clip * 65536) →
      ∃ t, exec (.qntRetire k .ok .ok) s = .next t ∧ t.eng.grd.qnts = s.eng.grd.qnts.filter (·.h.key != k) ∧
        (¬ clip → s.Retires t k q 0 0 ∧ (s.noFence k → t.eng.dev = r.1.dev) ∧ t.eng.grd.clipHit = s.eng.grd.clipHit) ∧
        (clip → s.Retires t k q 2 1 ∧ t.eng.grd.clipHit = true) ∧
        (∀ out c, a.rows = 1 →
          (out, c) = b.fmt.requant ((unpack .fp32 a.len (s.eng.rdDev true a.base (4 * a.len))).map Fmt.fp32.decode) →
          r.2 = c.add {} ∧ r.1.dev = s.eng.dev.wrN b.base out)) ∧
    (∀ j o ws, s.eng.smp.jobs.find? (·.h.key == k) = some j → s.eng.turn s.eng.hsSample j.h = .go → o = strOf j.out →
      s.eng.wideOk j.h.master false true o.base o.span → s.eng.answer o.base o.span .ok = .ok →
      ws = philoxWords j.k ((o.rows * (if o.role = 2 then 2 else 1) + 3) / 4) j.c → ∃ t,
        exec (.sampleRetire k .ok) s = .next t ∧ s.Retires t k q 0 0 ∧ t.eng.smp.jobs = s.eng.smp.jobs.filter (·.h.key != k) ∧
        (s.noFence k → o.role ≠ 0 → j.mode < 2 → ∀ i, i < o.rows → t.eng.dev.rdN (o.base + i * o.item) 4 =
          if j.mode = 0 then leBytes 4 (ws.getD i 0)
          else leBytes 4 (to32 (.fin false (mkRat (ws.getD i 0 / 256) (2 ^ 24)))).toNat) ∧
        (s.noFence k → j.mode = 2 → o.role = 1 → ∀ i, i < o.rows → t.eng.dev.rdN (o.base + 4 * i) 4 =
          leBytes 4 (ws.getD i 0 * j.n / 2 ^ 32)) ∧
        (s.noFence k → j.mode = 2 → o.role = 2 → ∀ i, i < o.rows → t.eng.dev.rdN (o.base + 8 * i) 8 =
          leBytes 8 ((ws.getD (2 * i) 0 + ws.getD (2 * i + 1) 0 * 2 ^ 32) * j.n / 2 ^ 64)) ∧
        (s.noFence k → o.role ≠ 0 → ∀ a, a < o.base ∨ o.base + o.rows * 8 ≤ a → t.eng.dev.rd a = s.eng.dev.rd a)) ∧
    (∀ j, s.eng.smp.jobs.find? (·.h.key == k) = some j → s.eng.turn s.eng.hsSample j.h = .go →
      s.eng.mp.firstHole (strOf j.out).base (strOf j.out).span = none →
      s.eng.acc.firstDenied 4 j.h.master false true (strOf j.out).base (strOf j.out).span ≠ none → ∃ t,
        exec (.sampleRetire k .ok) s = .next t ∧ s.Retires t k q 3 0) ∧
    (∀ j bs, s.eng.tk.digs.find? (·.h.key == k) = some j → s.eng.busy 9 = false →
      s.eng.wideOk j.h.master true false j.src.toNat j.len → s.eng.wideOk j.h.master false true j.dst.toNat 32 →
      (j.len ≠ 0 → s.eng.answer j.src.toNat j.len .ok = .ok) → s.eng.answer j.dst.toNat 32 .ok = .ok →
      bs = s.eng.rdDev true j.src.toNat j.len → ∃ t, exec (.digestRetire k .ok .ok) s = .next t ∧ s.Retires t k q 0 0 ∧
        t.eng.tk.digs = s.eng.tk.digs.filter (·.h.key != k) ∧ t.eng.host = s.eng.host ∧
        (s.noFence k → t.eng.dev = s.eng.dev.wrN j.dst.toNat
          (if j.sha then sha256 bs else leBytes 4 (crc32c bs) ++ List.replicate 28 0)))

/-- R110, R119, R130, R137, R152, R156, R172, R208, R209. A GLEAN whose positions have all been delivered retires with its flags, one
whose prior ticket failed is aborted, a first-fault stop leaves its record, an element fault retires it with fault. A POOL retires once
every bag has drained and its GLEAN has retired, a TED once its GLEAN has; one whose GLEAN ended early is aborted, and an aborted TED
spoils its open set with cause 7. While the tedder is held in reset a TED waits for it (R226). A POOL's clip share is checked whatever its
status (R44). The flags that a faulted job keeps (log entry 36), what aborts and spoils among the TEDs of a set (log entry 55) and that a
GLEAN's messages come with each end of it (log entry 212) are the model's choice. -/
def Obligations.GatherJobsRetire : Prop :=
  ∀ (s : State) (k : Key) (q : TSlot), s.runs = true → s.ticketLive k q →
    (∀ g, s.eng.glean k = some g → g.phase = .active →
      (s.eng.prior g.h = .dead → ∃ t h, exec (.gleanRetire k) s = .next t ∧ s.Retires t k q 4 0 ∧ t.eng.glean k = some h ∧
        h.phase = .retired ∧ h.dead = true ∧ h.elems = []) ∧
      (s.eng.prior g.h ≠ .dead → s.eng.consumerGone g = false → (g.out = true ∨ g.consumer ≠ none) → s.eng.mp.owed (.ticket k) = 0 →
        (g.stopAt = none → g.total = some g.next → g.elems = [] → g.redo = [] → s.eng.waveOpen g = false →
          ∃ t, exec (.gleanRetire k) s = .next t ∧ s.Retires t k q (okStatus g.flags) g.flags ∧ t.eng.glean k =
            some { g with phase := .retired, denied := none, lost := none, dead := false }) ∧
        (∀ p v c, g.fault = some (p, v, c) → g.iFault = none → (∀ y ∈ g.elems, p ≤ y.pos) →
          (g.ff = true → g.redo = [] → (s.eng.dir k.dir.val).st ≠ .draining → ∃ t, exec (.gleanRetire k) s = .next t ∧ s.Retires t k q 1 g.flags ∧
            (t.eng.dir k.dir.val).stops = (s.eng.dir k.dir.val).stops ++ [{
              elem := BitVec.ofNat 40 p, val := v,
              ticket := k.ticket, cause := c, table := if g.src then 0 else BitVec.ofNat 12 (tabOf g.srcD).tid,
              stream := g.src }] ∧ ∃ h, t.eng.glean k = some h ∧ h.phase = .stopped ∧ h.next = p ∧ h.fault = none ∧ h.elems = []) ∧
          (g.ff = false → ∃ t, exec (.gleanRetire k) s = .next t ∧ s.Retires t k q 3 g.flags)))) ∧
    (∀ j fl (clip : Prop), s.eng.pool k = some j → j.fault = false → j.bags.all (fun b => b.phase == .drained) = true →
      s.eng.mp.owed (.ticket k) = 0 →
      clip = (s.eng.grd.thresh ≠ 0 ∧ s.eng.grd.thresh.toNat * j.nEl < j.nClip * 65536) →
      (clip → fl = j.flags ||| 1) → (¬ clip → fl = j.flags) →
      (∀ g, s.eng.linked k = some g → g.dead = false → g.phase = .retired → j.next = j.nBags → ∃ t,
        exec (.poolRetire k) s = .next t ∧ s.Retires t k q (okStatus fl) fl ∧ t.eng.pool k = none ∧
        ∀ h ∈ t.eng.gln.gleans, h.consumer = some k → h.phase ≠ .retired) ∧
      ((s.eng.linked k = none ∨ ∃ g, s.eng.linked k = some g ∧ g.dead = true) → ∃ t, exec (.poolRetire k) s = .next t ∧
        s.Retires t k q 4 fl ∧ t.eng.pool k = none)) ∧
    (∀ j fl (clip : Prop), s.eng.pool k = some j → j.fault = true → s.eng.mp.owed (.ticket k) = 0 →
      clip = (s.eng.grd.thresh ≠ 0 ∧ s.eng.grd.thresh.toNat * j.nEl < j.nClip * 65536) →
      (clip → fl = j.flags ||| 1) → (¬ clip → fl = j.flags) → ∃ t,
        exec (.poolRetire k) s = .next t ∧ s.Retires t k q 3 fl ∧ t.eng.pool k = none) ∧
    (∀ x w, s.eng.rs.get none 4 = some (.inReset x w) → exec (.tedRetire k) s = .next s) ∧
    (∀ j, s.eng.tedOf k = some j → (∀ x w, s.eng.rs.get none 4 ≠ some (.inReset x w)) → j.fault = false →
      s.eng.mp.owed (.ticket k) = 0 →
      (∀ g, s.eng.linked k = some g → g.dead = false → g.phase = .retired → j.abort = false → j.joined = true → ∃ t,
        exec (.tedRetire k) s = .next t ∧ s.Retires t k q (okStatus j.flags) j.flags ∧ t.eng.tedOf k = none ∧
        t.eng.ted.sets = s.eng.ted.sets ∧ ∀ o ∈ t.eng.ted.opts, k ∉ o.after) ∧
      ((s.eng.linked k = none ∨ ∃ g, s.eng.linked k = some g ∧ (g.dead = true ∨ (j.abort = true ∧ g.phase = .retired))) → ∃ t,
        exec (.tedRetire k) s = .next t ∧ s.Retires t k q 4 j.flags ∧ t.eng.tedOf k = none ∧
        ∀ n, t.eng.tset n = if n = j.set.val ∧ j.joined = true ∧ (s.eng.tset n).opened = true ∧ (s.eng.tset n).spoiled = false then
          { s.eng.tset n with spoiled := true, cause := 7 } else s.eng.tset n))

/-- R110, R186, R187, R189, R202, R208, R222. A SWEEP retires once its rows are done and its lists accepted, with the flags of what it met,
frees its tiles and tells its TOPK; one whose prior ticket failed is aborted. An OPT with no row left writes its summary and releases its
set; it retires with fault where it met a fault, its set is spoiled, or a row moved or was uncorrectable. One whose prior ticket failed
leaves its set. The flags kept at a fault (log entry 36) and that the last step is recorded when the OPT retires (log entry 62) are the
model's choice. -/
def Obligations.SweepAndOptRetire : Prop :=
  ∀ (s : State) (k : Key) (q : TSlot), s.runs = true → s.ticketLive k q →
    (∀ j st (fl : BitVec 4), s.eng.sweepOf k = some j → j.ended = false →
      fl = (if j.uncorr then 4 else 0) + (if j.div then 2 else 0) + (if j.lost then 8 else 0) →
      ((s.eng.prior j.h = .dead ∧ st = 4) ∨ (s.eng.prior j.h ≠ .dead ∧ j.fault = true ∧ s.eng.mp.owed (.ticket k) = 0 ∧ st = 3) ∨
        (s.eng.prior j.h ≠ .dead ∧ j.fault = false ∧ j.out = true ∧ j.topk = none ∧ j.queries ≠ none ∧
          (∀ rs ∈ j.todo, ∀ r ∈ rs, r.cnt = 0) ∧ j.deferred = [] ∧ s.eng.mp.owed (.ticket k) = 0 ∧ st = okStatus fl)) →
      ∃ t i, exec (.sweepRetire k) s = .next t ∧ s.Retires t k q st fl ∧ t.eng.sweepOf k = some i ∧ i.ended = true ∧
        i.tiles = false ∧ i.queries = none ∧ i.todo = [] ∧
        (∀ m y, y ∈ t.eng.swp.sent.get [] m ∨ y ∈ t.eng.swp.full.get [] m → y.sweep ≠ k) ∧
        ∀ z ∈ t.eng.swp.topks, z.sweep = some k → z.swFlags = some (j.uncorr, j.div, j.lost) ∧ ((st = 3 ∨ st = 4) → z.dead = true)) ∧
    (∀ o, s.eng.optOf k = some o → s.eng.busy 4 = false → o.started = false → s.eng.prior o.h = .dead → ∃ t,
      exec (.optRetire k .ok .ok) s = .next t ∧ s.Retires t k q 4 0 ∧ t.eng.optOf k = none ∧
      ((∀ j ∈ s.eng.ted.teds, k ∉ j.behind) → t.eng.ted.sets = s.eng.ted.sets)) ∧
    (∀ o set fl bad (clip : Prop) aux, s.eng.optOf k = some o → s.eng.busy 4 = false → o.started = true →
      o.todo = [] → o.waiting = [] → (∀ l ∈ s.eng.ted.lanes, ∀ c ∈ l.2, c.k ≠ k) → set = s.eng.tset o.set.val →
      aux = (strOf o.parD).aux → (aux ≠ 0 → s.eng.wideOk o.h.master false true aux 64 ∧ s.eng.answer aux 64 .ok = .ok) →
      bad = (o.fault = true ∨ set.spoiled = true ∨ o.moved ≠ 0 ∨ o.uncorr ≠ 0) →
      clip = (set.opened = true ∧ s.eng.grd.thresh ≠ 0 ∧ s.eng.grd.thresh.toNat * o.nEl < o.nClip * 65536) →
      (∃ b : BitVec 4, (clip → b = 1) ∧ (¬ clip → b = 0) ∧ fl = o.flags ||| b ||| (if o.nonfin ≠ 0 then 8 else 0) |||
        (if set.div then 2 else 0)) →
      ∃ t, exec (.optRetire k .ok .ok) s = .next t ∧ (bad → s.Retires t k q 3 fl) ∧
        (¬ bad → s.Retires t k q (okStatus fl) fl) ∧ t.eng.optOf k = none ∧
        ((∀ j ∈ s.eng.ted.teds, k ∉ j.behind) → t.eng.tset o.set.val = {} ∧
          ∀ n, n ≠ o.set.val → t.eng.tset n = s.eng.tset n) ∧
        (s.noFence k → ¬ bad → ¬ clip → o.moved1 = none → aux ≠ 0 → t.eng.dev = s.eng.dev.wrN aux (o.summary set)) ∧
        (set.opened = true → set.spoiled = false → o.params ≠ [] →
          t.eng.tk.lastOpt.get 0 (tabOf set.tab).tid = o.t))
/-- R128, R132, R134, R135, R136, R141. Index resolution reads the next index and makes an element of it: padding, masked, skipped, or the
requests of its row; an index out of range becomes the GLEAN's element fault. A request's return gives its bytes to the element, or makes
it uncorrectable. With an output, the element then complete below the frontier is written, with its outcome byte. A request that waited
as long as the retry limit faults its element, or loses it. The outcomes of a plain GLEAN's writes come with the row that makes them
writable (log entry 35), the gleaner that takes an index is dealt (log entry 178), a request's sectors come from one side of a write-back
(log entry 191), and a request that a reroute left due is routed first (log entry 211): the model's choice; these clauses speak of a GLEAN
with none due. -/
def Obligations.GatheringResolvesAndDelivers : Prop :=
  ∀ (s : State) (k : Key) (g : Glean), s.runs = true → s.eng.glean k = some g →
    (s.eng.gln.queued (·.due)).filter (·.1 == k) = [] →
    (∀ p v gl ix el ds, s.eng.gleanGo g = true → g.bags = false → g.wts = false → g.out = false → g.redo = [] → g.fault = none →
      g.iFault = none → p = g.next → ix = strOf g.idxD → p < ix.rows → s.eng.gleaner g p = some gl → g.fixed p = none →
      ds = (if (g.dealt p).isSome then g.deals else (p / 16, gl) :: g.deals) →
      s.eng.wideOk g.h.master true false (ix.addr p) ix.item → s.eng.answer (ix.addr p) ix.item .ok = .ok →
      v = leNat (s.eng.rdDev true (ix.addr p) ix.item) →
      el = { pos := p, bag := p, val := BitVec.ofNat 64 v, row := 0, weight := 0, outc := 0, parts := [], resolved := true,
             gl := gl, redo := false : Elem } →
      (∀ oc : Byte, ((g.skip.contains p = true ∧ oc = 4) ∨ (g.skip.contains p = false ∧ g.index v = .pad ∧ oc = 1) ∨
          (g.skip.contains p = false ∧ g.index v = .masked ∧ oc = 2)) →
        ∃ t, exec (.indexResolve k 1 .ok []) s = .next t ∧ t.eng.glean k = some { g with
          bag := p, total := some ix.rows, elems := g.elems ++ [{ el with outc := oc }], next := p + 1, deals := ds } ∧ t.eng.dev = s.eng.dev) ∧
      (g.skip.contains p = false → g.index v = .fault → ∃ t, exec (.indexResolve k 1 .ok []) s = .next t ∧
        t.eng.glean k = some { g with bag := p, total := some ix.rows, fault := some (p, BitVec.ofNat 64 v, 0x01), deals := ds }) ∧
      (∀ row ps, g.skip.contains p = false → g.index v = .row row → s.eng.gleanParts g row = (ps, none) → s.eng.partsWait ps = false →
        s.eng.slotsAt gl + (ps.map fun x => x.sectors.length).sum ≤ 2048 →
        (∀ x ∈ ps, x.st = .issued → x.pos = s.eng.hth.pos → s.eng.mp.firstHole x.addr x.bytes = none ∧
          s.eng.acc.firstDenied 3 g.h.master true false x.addr x.bytes = none) →
        ∃ t, exec (.indexResolve k 1 .ok []) s = .next t ∧ t.eng.glean k = some { g with
          bag := p, total := some ix.rows, next := p + 1, deals := ds,
          elems := g.elems ++ [{ el with row := row, weight := 0x3F800000, parts := (s.eng.enterQueue ps).2,
                                         resolved := !ps.any Part.isHeld }] } ∧ t.eng.dev = s.eng.dev)) ∧
    (∀ pos i x p, s.eng.gleanGo g = true → g.part pos i = some (x, p) → p.st = .issued →
      p.pos = s.eng.hth.pos →
      (g.out = false → s.eng.answer p.addr p.bytes .ok = .ok → ∃ t, exec (.sectorReturn k pos i .ok []) s = .next t ∧
        t.eng.glean k = some (g.setPart pos i fun y => { y with st := .got (s.eng.rdDev false p.addr p.bytes) }) ∧
        t.eng.dev = s.eng.dev) ∧
      (g.out = false → s.eng.answer p.addr p.bytes .uncorr ≠ .ok → ∃ t h, exec (.sectorReturn k pos i .uncorr []) s = .next t ∧
        t.eng.glean k = some h ∧ pos ∈ h.told ∧ ∀ y ∈ h.elems, y.pos = pos → y.outc.getLsbD 5 = true) ∧
      (∀ o a y bs, g.out = true → g.elems = [x] → x.parts = [p] → x.resolved = true → x.redo = false → x.outc = 0 →
        x.pos < g.next → g.fault = none → g.iFault = none → o = strOf g.outD → a = o.addr x.pos →
        o.fw = (if g.src then (strOf g.srcD).fw else (tabOf g.srcD).fw) → s.eng.answer p.addr p.bytes .ok = .ok →
        y = { x with parts := [{ p with st := .got (s.eng.rdDev false p.addr p.bytes) }] } → bs = g.gathered y →
        s.eng.wideOk g.h.master false true a bs.length → s.eng.answer a bs.length .ok = .ok →
        (o.aux ≠ 0 → s.eng.wideOk g.h.master false true (o.aux + x.pos) 1) →
        ∃ t h, exec (.sectorReturn k pos i .ok []) s = .next t ∧ t.eng.glean k = some h ∧ h.elems = [] ∧ h.flags = g.flags ∧
          t.eng.dev = (if o.aux = 0 then s.eng.dev.wrN a bs else (s.eng.dev.wrN a bs).wrN (o.aux + x.pos) [0]))) ∧
    (∀ pos x lim, g.elems.find? (·.pos == pos) = some x → lim = s.eng.gln.retryLimit.toNat → lim ≠ 0 →
      (∃ p ∈ x.parts, ∃ u o, p.due = false ∧ p.st = .held u o ∧ u.toNat + 1000 * lim ≤ s.eng.hth.time.toNat) → ∃ t h,
        exec (.retryLimitExpiry k pos) s = .next t ∧ t.eng.gln.limitHit = true ∧ t.eng.glean k = some h ∧
        t.eng.dev = s.eng.dev ∧
        (x.resolved = true → h.fault = g.fault ∧ ∀ y ∈ h.elems, y.pos = pos → y.outc.getLsbD 4 = true) ∧
        (x.resolved = false → g.fault = none → h.fault = some (pos, x.val, 0x05)))

/-- R148, R149, R153, R155, R156, R159, R161, R166, R171. A bag is dealt to the halves that take it, a record below the frontier enters its
bag, a bale whose bags have all entered starts to accumulate or drains at once, its pass ends with a replay at raised exponents where an
accumulator overflowed and fewer than three replays were made, and a bag that passed is written as its result, with its status entry. -/
def Obligations.PoolingPlacesAccumulatesAndDrains : Prop :=
  ∀ (s : State) (k : Key), s.runs = true →
    (∀ j g lo hi n long ps pre, s.eng.pool k = some j → s.eng.linked k = some g → s.eng.poolGo j g = true →
      (s.eng.wr.waitLong = none ∨ s.eng.wr.waitLong = some k) → j.next < j.nBags → g.bagAt j.next = some (lo, hi) → n = hi - lo →
      long = (j.retains && decide (262144 < n * j.q)) →
      (s.eng.places j n (if long then 262144 / j.q else n) long = none → ∃ t, exec (.bagPlace k .ok) s = .next t ∧
        t.eng.wr = { s.eng.wr with waitLong := if long then some k else s.eng.wr.waitLong }) ∧
      (s.eng.places j n (if long then 262144 / j.q else n) long = some ps →
        (long = false → ∃ l b, ps = [(l, b)] ∧ (s.eng.wr.bale l.val b.val).st = .filling) ∧
        (j.pre = 0 → pre = []) → (j.pre ≠ 0 → ∃ a f, f = strOf j.preD ∧ a = f.addr (if j.pre = 1 then 0 else j.next) ∧
          s.eng.wideOk j.h.master true false a f.item ∧ s.eng.answer a f.item .ok = .ok ∧
          pre = convert f.fmt.rot g.fw.rot (f.fmt.decodeRow f.len (s.eng.rdDev true a f.item))) →
        ∃ t i b, exec (.bagPlace k .ok) s = .next t ∧ t.eng.pool k = some i ∧ i.bags = j.bags ++ [b] ∧ i.next = j.next + 1 ∧
          b.num = j.next ∧ b.first = lo ∧ b.n = n ∧ b.places = ps ∧ b.long = long ∧ b.pre = pre ∧ b.entered = 0 ∧ b.d = 0 ∧
          b.flags = 0 ∧ b.phase = (if n = 0 then .entered else .filling) ∧ t.eng.wr.waitLong = none ∧
          (∀ x ∈ ps, (k, j.next) ∈ (t.eng.wr.bale x.1.val x.2.val).bags) ∧
          t.eng.wr.nextLane = ((ps.getLast?.map (·.1.val)).getD 0 + 1) % 64)) ∧
    (∀ j g x b lane, s.eng.pool k = some j → s.eng.linked k = some g → s.eng.poolGo j g = true → g.phase = .active →
      g.ready = some x → j.bags.find? (fun b => b.num == x.bag && b.phase == .filling && b.redone == x.redo) = some b →
      (∀ a ∈ j.bags, a.num = b.num → a = b) → ∃ t y, exec (.recordEntry k lane none) s = .next t ∧ t.eng.pool k = some (j.setBag y) ∧
        t.eng.glean g.h.key = (s.eng.glean g.h.key).map (fun _ => g.take x) ∧ y.num = b.num ∧ y.entered = b.entered + 1 ∧
        y.d = b.d + (if withheld x.outc then 0 else 1) ∧ y.phase = (if b.entered + 1 = b.n then .entered else .filling) ∧
        y.flags = b.flags ||| BitVec.ofNat 12 (x.outc.toNat / 2 % 64 * 8) ∧
        (j.retains = true → y.recs = b.recs ++ [{
          pos := x.pos - b.first, outc := x.outc, weight := x.weight,
          data := if withheld x.outc then [] else g.gathered x }]) ∧
        t.eng.dev = s.eng.dev) ∧
    (∀ (lane : Fin 64) (bale : Fin 2) bl j g b, bl = s.eng.wr.bale lane.val bale.val → bl.st = .filling → s.eng.bagsIn bl = [(j, b)] →
      j.h.key = k → s.eng.pool k = some j → s.eng.bagIn (k, b.num) = some (j, b) → s.eng.linked k = some g → b.phase = .entered →
      (s.eng.wr.bale lane.val (1 - bale).val).st = .filling → s.eng.openStop (s.eng.wr.bale lane.val (1 - bale).val) = false →
      s.eng.busy 2 = false → b.twice = false → b.homeAt lane bale = true →
      ∃ t, exec (.baleAccumulationStart lane bale) s = .next t ∧ t.eng.wr.bale lane.val bale.val =
          { bl with st := if j.retains then .accum else .draining } ∧
        (j.retains = true → t.eng.pool k = some (j.setBag { b with
          accs := if j.fp32 then [] else startAccs (j.op == 5) j.w b.pre (b.terms j.op g) })) ∧
        (j.retains = false → t.eng.pool k = some (j.setBag { b with phase := .passed })) ∧ t.eng.dev = s.eng.dev) ∧
    (∀ (lane : Fin 64) (bale : Fin 2) bl j g b ac, bl = s.eng.wr.bale lane.val bale.val → bl.st = .accum →
      s.eng.bagsIn bl = [(j, b)] → j.h.key = k → s.eng.pool k = some j → s.eng.linked k = some g → b.phase = .entered →
      b.places = [(lane, bale)] → s.eng.busy 2 = false → j.retains = true → j.fp32 = false → b.twice = false →
      ac = passExact b.accs b.pre (b.terms j.op g) →
      (ac.any (·.ovf) = false → ∃ t, exec (.balePassEnd lane bale none) s = .next t ∧
        t.eng.wr.bale lane.val bale.val = { bl with st := .draining } ∧
        t.eng.pool k = some (j.setBag { b with accs := ac, phase := .passed })) ∧
      (ac.any (·.ovf) = true → bl.replays < 3 → ∃ t, exec (.balePassEnd lane bale none) s = .next t ∧
        t.eng.wr.bale lane.val bale.val = { bl with replays := bl.replays + 1 } ∧
        t.eng.pool k = some (j.setBag { b with accs := ac.map fun a => if a.ovf then { a with e := a.e + 16 } else a,
                                               replays := b.replays + 1 })) ∧
      (ac.any (·.ovf) = true → 3 ≤ bl.replays → ∃ t i, exec (.balePassEnd lane bale none) s = .next t ∧
        t.eng.wr.bale lane.val bale.val = { bl with st := .draining } ∧ t.eng.wr.fallback = true ∧ t.eng.pool k = some i ∧
        i.ovf = j.ovf ++ [(b.num, lane.val)] ∧ i.bags = (j.setBag { b with accs := ac, phase := .passed,
                                                                           flags := b.flags ||| 4 }).bags)) ∧
    (∀ j g b num lane out row v rot em xs off bs cnt fl sa, s.eng.bagIn (k, num) = some (j, b) → s.eng.linked k = some g →
      b.phase = .passed → j.fault = false → s.eng.busy 2 = false → b.bad = false → j.op ≠ 6 → out = strOf j.outD →
      row = out.addr (j.a + num) → (v, rot, em) = b.result j g out.fmt.rot → xs = convert rot out.fmt.rot v →
      (off, bs, cnt) = s.eng.window false out.fmt out.len row j.oFirst xs true →
      fl = b.flags ||| (if em then 1 else 0) ||| (if (v ++ xs).any XVal.isNan then 2 else 0) |||
        (if decide (b.n < j.k) && j.op == 7 then 0x200 else 0) ||| (if decide (j.k < b.n) && j.op == 7 then 0x400 else 0) |||
        (if cnt.clip ≠ 0 then 0x800 else 0) → sa = out.aux + 8 * (j.a + num) →
      s.eng.wideOk j.h.master (edgeRead out.fmt out.len j.oFirst xs.length) true (row + off) bs.length →
      (out.aux ≠ 0 → s.eng.wideOk j.h.master false true sa 8) → s.eng.answer (row + off) bs.length .ok = .ok →
      ∃ t i, exec (.bagDrain k num .ok lane none) s = .next t ∧ t.eng.pool k = some i ∧ i.nEl = j.nEl + cnt.el ∧
        i.nClip = j.nClip + cnt.clip ∧ (∀ y ∈ i.bags, y.num = b.num → y.phase = .drained ∧ y.flags = fl) ∧
        t.eng.dev = (if out.aux = 0 then s.eng.dev.wrN (row + off) bs else (s.eng.dev.wrN (row + off) bs).wrN sa
          (leBytes 8 (fl.toNat + min b.replays 3 * 2 ^ 16 + (if b.long then 2 ^ 18 else 0) +
            (if b.redone then 2 ^ 19 else 0) + b.nanExcl * 2 ^ 24))) ∧ t.eng.host = s.eng.host)

/-- R177, R179, R182, R183, R184, R187, R188, R193, R199. A SWEEP takes its tiles when they are free, loads its queries, and then scores
rows: a plain one writes each score as its output's element; one that merges offers it to the tile's partial list, which goes to the merge
unit, where a candidate that meets the floor and is not excluded is inserted in rank order. A full list's last score is the tiles'
threshold. Rows deferred as long as the retry limit are lost. Row issue is held while a lane is on the move, and while the gaffer's
allowance is nothing (R197, R380). -/
def Obligations.SweepingScoresAndMerges : Prop :=
  ∀ (s : State) (k : Key) (j : SweepJob), s.runs = true → s.eng.sweepOf k = some j →
    (s.eng.wantsTiles j = true → (∀ i < j.nt, s.eng.swp.held (j.t0 + i) = false) →
      (∀ x ∈ s.eng.swp.sweeps.takeWhile (fun x => x.h.key != k), s.eng.wantsTiles x = false) → s.eng.busy 3 = false → ∃ t i,
        exec (.sweepTilesTaken k) s = .next t ∧ t.eng.sweepOf k = some i ∧ i.tiles = true ∧ i.todo.length = j.ng ∧
        (j.src = true → i.deferred = [] ∧ ∀ r ∈ i.todo, r = [{ first := j.r0, cnt := j.n, ent := 0, copy := none }]) ∧
        (j.src = false → ∀ r ∈ i.todo, r = (s.eng.sweepSplit (tabOf j.srcD).tid j.len j.r0 (j.r0 + j.n)).1) ∧
        t.eng.dev = s.eng.dev) ∧
    ((∃ i < j.nt, s.eng.swp.held (j.t0 + i) = true) → exec (.sweepTilesTaken k) s = .next s) ∧
    (∀ q, j.tiles = true → j.queries = none → j.fault = false → j.ended = false → s.eng.busy 3 = false → q = strOf j.qD →
      s.eng.wideOk j.h.master true false q.base q.span → s.eng.answer q.base q.span .ok = .ok →
      (j.filt = true → s.eng.wideOk j.h.master true false (strOf j.filtD).base ((j.n + 31) / 32 * 4) ∧
        s.eng.answer (strOf j.filtD).base ((j.n + 31) / 32 * 4) .ok = .ok) → ∃ t,
        exec (.queryLoad k .ok) s = .next t ∧ t.eng.sweepOf k = some { j with queries := some ((List.range q.rows).map fun i =>
          j.loadQuery (s.eng.rdDev true (q.addr i) q.item)) } ∧ t.eng.dev = s.eng.dev) ∧
    (j.tiles = true → j.queries ≠ none → j.fault = false → j.ended = false → s.eng.busy 3 = false →
      (∀ g : Fin 64, g.val < j.ng → (s.eng.swp.moving ≠ [] ∨ s.ao.allow = 0) → exec (.sweepRowPair k g .ok .ok .ok) s = .next s) ∧
      (∀ (g : Fin 64) r c q xs sc a tile, g.val < j.ng → s.eng.swp.moving = [] → s.ao.allow ≠ 0 → j.groupSize = 1 → j.queriesOf g.val = [q] →
        j.todo.getD g.val [] = [r] → r.cnt = 1 → r.copy = some c → c.pos = s.eng.hth.pos → c.tier = 0 → j.src = true →
        j.filt = false → j.deferred = [] → tile = j.t0 + g.val → s.eng.swp.sent.get [] tile = [] → s.eng.swp.full.get [] tile = [] →
        a = c.base + (r.first - c.first) * c.stride → s.eng.wideOk j.h.master true false a (strOf j.srcD).item →
        s.eng.answer a (strOf j.srcD).item .ok = .ok → xs = j.fw.decodeRow j.len (s.eng.rdDev true a (strOf j.srcD).item) →
        sc = dotExact xs ((j.queries.getD []).getD q []) →
        (∀ f w o, j.out = true → f = (strOf j.outD).fmt.fmt → w = f.width / 8 → o = (strOf j.outD).addr q + (r.first - j.r0) * w →
          s.eng.wideOk j.h.master false true o w → ∃ t i, exec (.sweepRowPair k g .ok .ok .ok) s = .next t ∧
            t.eng.sweepOf k = some i ∧ i.todo.getD g.val [] = [] ∧ i.fault = false ∧
            t.eng.dev = s.eng.dev.wrN o (leBytes w (f.encode sc).1)) ∧
        (j.out = false → s.eng.swp.parts.get {} (partKey tile q) = {} → sc.r32.isNan = false →
          ordLt sc.r32 (s.eng.startTau j) = false → ∃ t i, exec (.sweepRowPair k g .ok .ok .ok) s = .next t ∧
            t.eng.sweepOf k = some i ∧ i.todo.getD g.val [] = [] ∧
            t.eng.swp.sent.get [] tile = [{ sweep := k, query := q, cands := [{ score := sc.r32, row := r.first }], nans := 0 }]))) ∧
    (∀ (tile : Fin 64) l rest kt tj x old, s.eng.swp.sent.get [] tile.val = l :: rest → l.sweep = k → j.topk = some kt →
      s.eng.topkOf kt = some tj → l.cands = [x] → old = tj.lists.get [] l.query → s.eng.busy 3 = false → ∃ t i,
        exec (.partialListAccept tile) s = .next t ∧ t.eng.swp.sent.get [] tile.val = rest ++ (s.eng.swp.full.get [] tile.val).take 1 ∧ t.eng.topkOf kt = some i ∧
        i.nans.get 0 l.query = tj.nans.get 0 l.query + l.nans ∧
        ((tj.meets x.score = false ∨ x.row ∈ tj.excl.get [] l.query) → i.lists.get [] l.query = old) ∧
        (tj.meets x.score = true → x.row ∉ tj.excl.get [] l.query → ∃ a b, old = a ++ b ∧ (∀ y ∈ a, rankAbove y x = true) ∧
          (∀ y, b.head? = some y → rankAbove y x = false) ∧ i.lists.get [] l.query = (a ++ x :: b).take tj.k)) ∧
    (∀ kt tj q c, s.eng.topkOf kt = some tj → tj.sweep = some k → (tj.lists.get [] q)[tj.k - 1]? = some c → j.tiles = true →
      q < j.nq → ∃ t, exec (.thresholdUpdate kt q) s = .next t ∧ t.eng.swp.sent = s.eng.swp.sent ∧ t.eng.swp.topks = s.eng.swp.topks ∧
        ∀ i < j.groupSize, ∀ n, n = partKey (j.tile (j.groupOf q) i) q → t.eng.swp.parts.get {} n =
          { s.eng.swp.parts.get {} n with tau := match (s.eng.swp.parts.get {} n).tau with
              | some y => if ordLt y c.score then some c.score else some y
              | none => some c.score }) ∧
    (∀ ent lim, lim = s.eng.gln.retryLimit.toNat → lim ≠ 0 → j.ended = false → j.out = false →
      (∃ x ∈ j.deferred, x.2.1.ent = ent ∧ x.2.2.toNat + 1000 * lim ≤ s.eng.hth.time.toNat) → ∃ t i,
        exec (.sweepDeferLimit k ent) s = .next t ∧ t.eng.swp.lost = true ∧ t.eng.sweepOf k = some i ∧ i.lost = true ∧
        i.deferred = j.deferred.filter (fun x => !(x.2.1.ent == ent && decide (x.2.2.toNat + 1000 * lim ≤ s.eng.hth.time.toNat))))
/-- R190, R192 to R196. A TOPK reserves its entries in acceptance order, waiting while the merge store has too few; one that needs more
than the store holds faults. With exclusions it reads them first, and reserves their total too. After its SWEEP it writes its lists here and
retires with its flags, or sends them in turn to its position and retires once the last
was acknowledged; a TOPK whose SWEEP ended early is aborted. In mode 1 it first reads its inputs, and of one sorted list for each query
keeps the first k entries up to one below the floor or without a position. -/
def Obligations.TopkReservesAndWritesOut : Prop :=
  ∀ (s : State) (k : Key) (q : TSlot) (t : TopkJob), s.runs = true → s.ticketLive k q → s.eng.topkOf k = some t → s.eng.busy 3 = false →
    (∀ need, t.reserved = none → t.dead = false → s.eng.topkGo t = true → t.exOn = false → need = t.q * t.k →
      (∀ x ∈ s.eng.swp.topks.takeWhile (fun x => x.h.key != k), x.reserved ≠ none ∨ x.dead = true) →
      (2 ^ 20 < need → ∃ u, exec (.topkReserve k .ok) s = .next u ∧ s.Retires u k q 3 0 ∧ u.eng.topkOf k = none) ∧
      (need ≠ 0 → need ≤ 2 ^ 20 → 2 ^ 20 < need + (s.eng.swp.topks.map fun x => x.reserved.getD 0).sum →
        exec (.topkReserve k .ok) s = .next s) ∧
      (need + (s.eng.swp.topks.map fun x => x.reserved.getD 0).sum ≤ 2 ^ 20 → ∃ u, exec (.topkReserve k .ok) s = .next u ∧
        u.eng.topkOf k = some { t with reserved := some need, excl := [] } ∧ u.eng.dev = s.eng.dev)) ∧
    (∀ (dd dc : Str) (off : Nat → Nat) (need : Nat), t.reserved = none → t.dead = false → s.eng.topkGo t = true → t.exOn = true → dd = strOf t.offD →
      dc = strOf t.inD → (∀ i, off i = leNat (s.eng.rdMem false true (dd.addr i) 8)) → need = t.q * t.k + off t.q →
      (∀ x ∈ s.eng.swp.topks.takeWhile (fun x => x.h.key != k), x.reserved ≠ none ∨ x.dead = true) →
      s.eng.wideOk t.h.master true false dd.base dd.span →
      (∀ r, s.eng.answer dd.base dd.span r ≠ .ok → ∃ u, exec (.topkReserve k r) s = .next u ∧ s.Retires u k q 3 4) ∧
      (s.eng.answer dd.base dd.span .ok = .ok →
        (2 ^ 20 < need → ∃ u, exec (.topkReserve k .ok) s = .next u ∧ s.Retires u k q 3 0 ∧ u.eng.topkOf k = none) ∧
        (need + (s.eng.swp.topks.map fun x => x.reserved.getD 0).sum ≤ 2 ^ 20 →
          s.eng.wideOk t.h.master true false dc.base (8 * off t.q) → s.eng.answer dc.base (8 * off t.q) .ok = .ok →
          ∃ u i, exec (.topkReserve k .ok) s = .next u ∧ u.eng.topkOf k = some i ∧
            i = { t with reserved := some need, excl := i.excl } ∧ u.eng.dev = s.eng.dev ∧
            ∀ n < t.q, i.excl.get [] n = (List.range (off (n + 1) - off n)).map fun x =>
              leNat (s.eng.rdMem false true (dc.addr (off n + x)) 8)))) ∧
    (∀ dc dd, t.dead = false → s.eng.prior t.h ≠ .dead → t.fault = false → t.outs = none → t.reserved ≠ none → t.mode1 = true →
      dc = strOf t.inD → dd = strOf t.offD →
      (s.eng.mp.firstHole dc.base dc.span = none → s.eng.acc.firstDenied 4 t.h.master true false dc.base dc.span ≠ none → ∃ u,
        exec (.topkWriteOut k .ok .ok) s = .next u ∧ s.Retires u k q 3 0 ∧ u.eng.topkOf k = none) ∧
      (s.eng.wideOk t.h.master true false dc.base dc.span →
        s.eng.wideOk t.h.master true false dd.base (8 * (dc.rows * dc.len)) →
        (∀ r, s.eng.answer dc.base dc.span r ≠ .ok → ∃ u, exec (.topkWriteOut k r .ok) s = .next u ∧ s.Retires u k q 3 4) ∧
        (∀ (ls : Nat → List Cand) (i : TopkJob) xs, s.eng.answer dc.base dc.span .ok = .ok →
          s.eng.answer dd.base (8 * (dc.rows * dc.len)) .ok = .ok → dc.rows = t.q → 0 < t.q →
          (∀ n < t.q, ls n = List.zipWith (fun v p => { score := v, row := p })
              (dc.fmt.decodeRow dc.len (s.eng.rdMem false true (dc.addr n) dc.item))
              ((List.range dc.len).map fun x => leNat (s.eng.rdMem false true (dd.addr (n * dc.len + x)) 8)) ∧
            (ls n).Pairwise (fun x y => rankAbove x y = true ∧ x.row ≠ y.row) ∧ ∀ x ∈ ls n, x.score.isNan = false) →
          i = { t with lists := i.lists, nans := i.nans } →
          (∀ n < t.q, i.lists.get [] n = ((ls n).takeWhile fun x => t.meets x.score && x.row != 2 ^ 64 - 1).take t.k ∧
            i.nans.get 0 n = 0) →
          xs = (List.range t.q).flatMap i.outputs → s.eng.hth.isSelf t.dpos.toNat = true →
          (∀ x ∈ xs, s.eng.wideOk t.h.master false true x.1 x.2.length) →
          (∀ x ∈ xs, s.eng.answer x.1 x.2.length .ok = .ok) → ∃ u,
          exec (.topkWriteOut k .ok .ok) s = .next u ∧ s.Retires u k q (okStatus i.flags) i.flags ∧ u.eng.topkOf k = none ∧
          (s.noFence k → u.eng.dev = xs.foldl (fun m x => m.wrN x.1 x.2) s.eng.dev)))) ∧
    (t.dead = true → ∃ u, exec (.topkWriteOut k .ok .ok) s = .next u ∧ s.Retires u k q 4 0 ∧ u.eng.topkOf k = none) ∧
    (∀ xs, t.dead = false → s.eng.prior t.h ≠ .dead → t.fault = false → t.outs = none → t.reserved ≠ none → t.mode1 = false →
      t.swFlags ≠ none → xs = (List.range t.q).flatMap t.outputs →
      (s.eng.hth.isSelf t.dpos.toNat = true → (∀ x ∈ xs, s.eng.wideOk t.h.master false true x.1 x.2.length) →
        (∀ x ∈ xs, s.eng.answer x.1 x.2.length .ok = .ok) → ∃ u,
        exec (.topkWriteOut k .ok .ok) s = .next u ∧ s.Retires u k q (okStatus t.flags) t.flags ∧ u.eng.topkOf k = none ∧
        (s.noFence k → u.eng.dev = xs.foldl (fun m x => m.wrN x.1 x.2) s.eng.dev)) ∧
      (s.eng.hth.isSelf t.dpos.toNat = false → s.eng.hth.isFailed t.dpos.toNat = true → ∃ u,
        exec (.topkWriteOut k .ok .ok) s = .next u ∧ s.Retires u k q 3 0 ∧ u.eng.topkOf k = none) ∧
      (∀ p rest b, s.eng.hth.isSelf t.dpos.toNat = false → s.eng.hth.isFailed t.dpos.toNat = false →
        (xs.flatMap fun x => pieces (x.2.length / 1024 + 1) x.1 x.2) = p :: rest → b = ZBody.write (BitVec.ofNat 64 p.1) p.2 →
        s.eng.sendsNow t.dpos [b] → ∃ u, exec (.topkWriteOut k .ok .ok) s = .next u ∧
          u.eng.topkOf k = some { t with outs := some rest } ∧ s.Sends u t.dpos [b] ∧ u.eng.dev = s.eng.dev)) ∧
    (∀ outs, t.dead = false → s.eng.prior t.h ≠ .dead → t.fault = false → t.outs = some outs →
      ((outs ≠ [] ∨ s.eng.zw.awaits (fun u _ _ => u == .topk k) = true) → exec (.topkWriteOut k .ok .ok) s = .next s) ∧
      (outs = [] → s.eng.zw.awaits (fun u _ _ => u == .topk k) = false → ∃ u, exec (.topkWriteOut k .ok .ok) s = .next u ∧
        s.Retires u k q (okStatus t.flags) t.flags ∧ u.eng.topkOf k = none)) ∧
    (t.dead = false → s.eng.prior t.h ≠ .dead → t.fault = true → ∃ u, exec (.topkWriteOut k .ok .ok) s = .next u ∧
      s.Retires u k q 3 0 ∧ u.eng.topkOf k = none)

/-- R205, R206, R207, R208, R209. The next position its GLEAN delivers is dropped when it is padding, masked or skipped, and then when its
target is padding or masked; it spoils the set when its values are withheld, its target is out of range or foreign, the area is full (4), the
lane's directory has no room (5), or the record cannot be read or written (6); and else is appended to the area and chained to its row's
records. That an element's outcome is judged before its target (log entry 54), and that a record and the link to it are both checked before
either is written (log entry 217), is the model's choice. -/
def Obligations.ContributionsAreRecorded : Prop :=
  ∀ (s : State) (k : Key) (j : TedJob) (g : Glean) (x : Elem) (set : TSet), s.runs = true → s.eng.tedOf k = some j →
    s.eng.linked k = some g → j.joined = true → g.dead = false → g.phase = .active → s.eng.busy 4 = false →
    s.eng.turn s.eng.hsTed j.h.linked = .go → g.ready = some x →
    j.fault = false → j.abort = false → set = s.eng.tset j.set.val → set.opened = true → set.spoiled = false →
    (x.outc.toNat % 8 ≠ 0 → ∃ t, exec (.contributionRecord k .ok .ok) s = .next t ∧
      t.eng.tset j.set.val = { set with dropped := set.dropped + 1 } ∧
      t.eng.tedOf k = some { j with flags := j.flags ||| (if x.outc.toNat / 2 % 4 ≠ 0 then 8 else 0) } ∧
      t.eng.glean g.h.key = (s.eng.glean g.h.key).map (fun _ => g.take x) ∧ t.eng.dev = s.eng.dev) ∧
    (x.outc.toNat % 8 = 0 → withheld x.outc = true → ∃ t i, exec (.contributionRecord k .ok .ok) s = .next t ∧
      t.eng.tset j.set.val = { set with spoiled := true, cause := 3 } ∧ t.eng.tedOf k = some i ∧ i.fault = true ∧
      t.eng.ted.spoiled = true) ∧
    (∀ ix rd, x.outc.toNat % 8 = 0 → withheld x.outc = false → ix = strOf j.idxD →
      s.eng.mp.firstHole (ix.addr x.pos) ix.item = none →
      (s.eng.acc.firstDenied 4 j.h.master true false (ix.addr x.pos) ix.item ≠ none ∨
        s.eng.answer (ix.addr x.pos) ix.item rd ≠ .ok) → ∃ t, exec (.contributionRecord k rd .ok) s = .next t ∧
      t.eng.tset j.set.val = { set with spoiled := true, cause := 6 } ∧ t.eng.dev = s.eng.dev) ∧
    (∀ ix v, withheld x.outc = false → ix = strOf j.idxD → s.eng.wideOk j.h.master true false (ix.addr x.pos) ix.item →
      s.eng.answer (ix.addr x.pos) ix.item .ok = .ok → v = leNat (s.eng.rdDev true (ix.addr x.pos) ix.item) → x.outc.toNat % 8 = 0 →
      (((tabOf set.tab).resolve v = .pad → ∃ t, exec (.contributionRecord k .ok .ok) s = .next t ∧
        t.eng.tset j.set.val = { set with dropped := set.dropped + 1 } ∧ t.eng.tedOf k = some j ∧ t.eng.dev = s.eng.dev) ∧
       ((tabOf set.tab).resolve v = .masked → ∃ t, exec (.contributionRecord k .ok .ok) s = .next t ∧
        t.eng.tset j.set.val = { set with dropped := set.dropped + 1 } ∧
        t.eng.tedOf k = some { j with flags := j.flags ||| 8 } ∧ t.eng.dev = s.eng.dev)) ∧
      ((tabOf set.tab).resolve v = .fault → ∃ t, exec (.contributionRecord k .ok .ok) s = .next t ∧
        t.eng.tset j.set.val = { set with spoiled := true, cause := 1 }) ∧
      (∀ row, (tabOf set.tab).resolve v = .row row →
        (s.eng.foreign set row = true → ∃ t, exec (.contributionRecord k .ok .ok) s = .next t ∧
          t.eng.tset j.set.val = { set with spoiled := true, cause := 2 }) ∧
        (∀ data a n, s.eng.foreign set row = false → data = padTo 16 (g.gathered x) → n = 16 + data.length →
          a = set.area.toNat + set.used →
          (set.areaLen < set.used + n → ∃ t, exec (.contributionRecord k .ok .ok) s = .next t ∧
            t.eng.tset j.set.val = { set with spoiled := true, cause := 4 }) ∧
          (set.used + n ≤ set.areaLen → (∀ v ∈ set.ents, v.row ≠ row) →
            65536 ≤ s.eng.ted.dirUsed (laneOf (tabOf set.tab).tid row) → ∃ t, exec (.contributionRecord k .ok .ok) s = .next t ∧
            t.eng.tset j.set.val = { set with spoiled := true, cause := 5 } ∧ t.eng.dev = s.eng.dev) ∧
          (∀ wr, set.used + n ≤ set.areaLen →
            ((∃ v ∈ set.ents, v.row = row) ∨ s.eng.ted.dirUsed (laneOf (tabOf set.tab).tid row) < 65536) →
            s.eng.mp.firstHole a n = none → (s.eng.acc.firstDenied 4 j.h.master false true a n ≠ none ∨ s.eng.answer a n wr ≠ .ok) →
            ∃ t, exec (.contributionRecord k .ok wr) s = .next t ∧
            t.eng.tset j.set.val = { set with spoiled := true, cause := 6 } ∧ t.eng.dev = s.eng.dev) ∧
          (set.used + n ≤ set.areaLen → s.eng.wideOk j.h.master false true a n → s.eng.answer a n .ok = .ok →
            (∀ old, set.ents.find? (·.row == row) = some old →
              s.eng.wideOk j.h.master false true (set.area.toNat + 16 * old.last + 12) 4 ∧
              s.eng.answer (set.area.toNat + 16 * old.last + 12) 4 .ok = .ok) →
            ((∃ v ∈ set.ents, v.row = row) ∨ s.eng.ted.dirUsed (laneOf (tabOf set.tab).tid row) < 65536) →
            ∃ t i, exec (.contributionRecord k .ok .ok) s = .next t ∧ i = t.eng.tset j.set.val ∧ i.used = set.used + n ∧
              i.contrib = set.contrib + 1 ∧ i.spoiled = false ∧ i.dropped = set.dropped ∧
              i.div = (set.div || x.outc.getLsbD 6) ∧
              (set.ents.find? (·.row == row) = none → i.ents = set.ents ++
                  [{ row := row, head := set.used / 16, last := set.used / 16, n := 1 }] ∧
                t.eng.dev = s.eng.dev.wrN a (leBytes 8 (row % 2 ^ 41 + (if x.outc.getLsbD 6 then 2 ^ 41 else 0)) ++
                  leBytes 4 x.weight.toNat ++ leBytes 4 0xFFFFFFFF ++ data)) ∧
              (∀ old, set.ents.find? (·.row == row) = some old → (i.ents.find? (·.row == row)) =
                  some { old with last := set.used / 16, n := old.n + 1 } ∧
                t.eng.dev.rdN (set.area.toNat + 16 * old.last + 12) 4 = leBytes 4 (set.used / 16)) ∧
              t.eng.tedOf k = some { j with flags := j.flags ||| (if x.outc.getLsbD 6 then 2 else 0) }))))

/-- R213, R216, R219, R220, R221. A row's lane claims it when the whole window and state row are homed here, a row that an entry holds back
waits, and one that another position holds counts as moved; a row that a comparison of copies holds is not claimed (R328). The step reads the
records, the row and its state; a read that fails loses the row, and a denied one faults the OPT. The six optimizers step as R213 says.
What it computed goes to the tap first while the tap is active, and is then written home; the lane is released when every write
is acknowledged. That a product with a coefficient of zero is formed as any other (log entry 57), that records are de-rotated before they
are summed (log entry 58) and that a denied read sets no uncorrectable flag (log entry 60) is the model's choice. -/
def Obligations.RowsAreClaimedSteppedAndReleased : Prop :=
  ∀ (s : State) (k : Key) (o : OptJob) (set : TSet) (tb : Tab) (lane : Fin 16), s.runs = true → s.eng.optOf k = some o →
    set = s.eng.tset o.set.val → tb = tabOf set.tab → s.eng.busy 4 = false →
    (∀ row rows sts flat, o.started = true → o.fault = false → row ∈ o.todo → o.waiting = [] → laneOf tb.tid row = lane.val →
      s.eng.ted.lanes.get none lane.val = none →
      (∀ x ∈ s.eng.ted.opts.takeWhile (fun x => x.h.key != k), s.eng.optHas x tb.tid row = false) →
      s.eng.comparing tb.tid row = false → (tb.opt = 1 ∨ s.eng.comparing (tabOf set.stTab).tid row = false) →
      rows = s.eng.rowRange tb.tid row set.tFirst (set.tFirst + set.w) →
      sts = (stRanges tb.opt tb.len set.tFirst set.w).map (fun x => s.eng.rowRange (tabOf set.stTab).tid row x.1 (x.1 + x.2)) →
      flat = rows.getD [] ++ (sts.map fun y => y.getD []).flatten →
      (rows.isSome = true → (∀ y ∈ sts, y.isSome = true) → s.eng.holdsBack flat = true → ∃ t i,
        exec (.rowClaim k lane row .ok) s = .next t ∧ t.eng.optOf k = some i ∧ i.waiting = [(row, s.eng.hth.time)] ∧
        i.todo = o.todo.filter (· != row) ∧ t.eng.ted.lanes = s.eng.ted.lanes) ∧
      (rows.isSome = true → (∀ y ∈ sts, y.isSome = true) → s.eng.holdsBack flat = false → s.eng.allHome flat = true → ∃ t i c,
        exec (.rowClaim k lane row .ok) s = .next t ∧ t.eng.optOf k = some i ∧ i.todo = o.todo.filter (· != row) ∧
        i.moved = o.moved ∧ t.eng.ted.lanes.get none lane.val = some c ∧ c.k = k ∧ c.row = row ∧ c.st = .claimed ∧ c.repl = s.eng.replicasOf flat ∧
        some c.ents = rows ∧ c.stEnts.map some = sts ∧ t.eng.dev = s.eng.dev) ∧
      ((rows = none ∨ (∃ y ∈ sts, y = none) ∨ (s.eng.holdsBack flat = false ∧ s.eng.allHome flat = false)) → ∃ t i,
        exec (.rowClaim k lane row .ok) s = .next t ∧ t.eng.optOf k = some i ∧ i.moved = o.moved + 1 ∧ t.eng.ted.moved = true ∧
        i.todo = o.todo.filter (· != row) ∧ t.eng.ted.lanes = s.eng.ted.lanes)) ∧
    (∀ row u lim, (row, u) ∈ o.waiting → lim = s.eng.gln.retryLimit.toNat → lim ≠ 0 →
      u.toNat + 1000 * lim ≤ s.eng.hth.time.toNat → ∃ t i, exec (.tedderRowWaitLimit k row) s = .next t ∧
        t.eng.optOf k = some i ∧ i.moved = o.moved + 1 ∧ i.waiting = o.waiting.filter (·.1 != row) ∧ t.eng.ted.moved = true) ∧
    (∀ c ent e1 ts e2 ws w e3, s.eng.ted.lanes.get none lane.val = some c → c.k = k → c.st = .claimed → tb.opt = 1 →
      s.eng.rowWaits tb.fmt c.ents c.row set.tFirst (set.tFirst + set.w) = false →
      set.ents.find? (·.row == c.row) = some ent → (e1, ts, w) = s.eng.readChain o.h.master set .ok set.contrib ent.head →
      (w = .denied → ∃ t i, exec (.rowStep lane .ok .ok .ok .ok) s = .next t ∧ t.eng.ted.lanes.get none lane.val = none ∧
        t.eng.ted.uncorr = s.eng.ted.uncorr ∧ t.eng.optOf k = some i ∧ i.uncorr = o.uncorr ∧ i.fault = true) ∧
      (w = .uncorr → ∃ t i, exec (.rowStep lane .ok .ok .ok .ok) s = .next t ∧ t.eng.ted.lanes.get none lane.val = none ∧
        t.eng.ted.uncorr = true ∧ t.eng.optOf k = some i ∧ i.uncorr = o.uncorr + 1) ∧
      (w = .fine → (e2, ws, RdFail.fine) = e1.readRowPart o.h.master tb.fmt c.ents c.row set.tFirst (set.tFirst + set.w) .ok →
        ∀ ac rp gr nw, (ac, rp) = accumTed 3 (startAccs false set.w [] ts) ts →
        gr = List.zipWith (fun g x => fadd g (fmul (o.par tb).wd x)) (ac.map fun a => fmul a.value (o.par tb).gs)
          ((convert tb.fmt.rot 0 ws).map XVal.r32) →
        nw = List.zipWith (fun x g => fsub x (fmul (o.par tb).lr g)) ((convert tb.fmt.rot 0 ws).map XVal.r32) gr →
        e3 = e2.rowWrites tb.fmt c.ents c.repl tb.tid c.row set.tFirst (convert 0 tb.fmt.rot nw) →
        (s.eng.tk.tap = true → ∃ t, exec (.rowStep lane .ok .ok .ok .ok) s = .next t ∧ t.eng.dev = s.eng.dev ∧
          t.eng.ted.lanes.get none lane.val = some { c with writes := e3.1, reps := e3.2.1, taps := [e3.2.2.1], wr := .ok,
                                                            recs := ts.length, replays := rp, st := .tap }) ∧
        (∀ h, s.eng.tk.tap = false → e3.2.1 = [] → e3.1 = [h] → h.tier ≠ 3 → s.eng.mp.firstHole h.addr h.data.length = none →
          s.eng.acc.firstDenied 3 o.h.master false true h.addr h.data.length = none → ∃ t c',
          exec (.rowStep lane .ok .ok .ok .ok) s = .next t ∧ t.eng.dev = s.eng.dev.wrN h.addr h.data ∧
          t.eng.ted.lanes.get none lane.val = some c' ∧ c'.st = .written ∧ c'.peers = 0 ∧ c'.recs = ts.length ∧
          c'.writes = [h]))) ∧
    (∀ c ent e1 ts e2 ws (es : Nat → Eng) (vs : Nat → List XVal) nw ns rs sf h1 hs, s.eng.ted.lanes.get none lane.val = some c →
      c.k = k → c.st = .claimed → sf = (tabOf set.stTab).fmt → rs = stRanges tb.opt tb.len set.tFirst set.w →
      c.stEnts.length = rs.length → s.eng.rowWaits tb.fmt c.ents c.row set.tFirst (set.tFirst + set.w) = false →
      (∀ y ∈ rs.zip c.stEnts, s.eng.rowWaits sf y.2 c.row y.1.1 (y.1.1 + y.1.2) = false) →
      set.ents.find? (·.row == c.row) = some ent → (e1, ts, RdFail.fine) = s.eng.readChain o.h.master set .ok set.contrib ent.head →
      (e2, ws, RdFail.fine) = e1.readRowPart o.h.master tb.fmt c.ents c.row set.tFirst (set.tFirst + set.w) .ok → es 0 = e2 →
      (∀ i y, (rs.zip c.stEnts)[i]? = some y →
        (es (i + 1), vs i, RdFail.fine) = (es i).readRowPart o.h.master sf y.2 c.row y.1.1 (y.1.1 + y.1.2) .ok) →
      (nw, ns) = (o.par tb).step ((accumTed 3 (startAccs false set.w [] ts) ts).1.map AccSt.value)
        ((convert tb.fmt.rot 0 ws).map XVal.r32) (((List.range rs.length).flatMap vs).map XVal.r32) →
      h1 = (es rs.length).rowWrites tb.fmt c.ents c.repl tb.tid c.row set.tFirst (convert 0 tb.fmt.rot nw) →
      hs = ((rs.zip c.stEnts).zipIdx.map fun y => (es rs.length).rowWrites sf y.1.2 c.repl (tabOf set.stTab).tid c.row y.1.1.1
        ((ns.drop ((rs.take y.2).map Prod.snd).sum).take y.1.1.2)) → s.eng.tk.tap = true →
      ∃ t c', exec (.rowStep lane .ok .ok .ok .ok) s = .next t ∧ t.eng.dev = s.eng.dev ∧
        t.eng.ted.lanes.get none lane.val = some c' ∧ c'.st = .tap ∧ c'.writes = h1.1 ++ hs.flatMap (·.1) ∧
        c'.reps = h1.2.1 ++ hs.flatMap (·.2.1) ∧ c'.taps = h1.2.2.1 :: hs.map (·.2.2.1)) ∧
    (∀ (p : OptPar) (acc w st g nw ns : List XVal) (i : Nat), acc.length = w.length → i < w.length →
      g = (if p.opt ≤ 4 then List.zipWith (fun a x => fadd (fmul a p.gs) (fmul p.wd x)) acc w else acc.map fun a => fmul a p.gs) →
      (nw, ns) = p.step acc w st → ∀ x y z m v, x = w.getD i xzero → y = g.getD i xzero → z = st.getD i xzero →
      m = fadd (fmul p.b1 z) (fmul (fsub (.fin false 1) p.b1) y) →
      (p.opt = 2 → st.length = w.length → nw.getD i xzero = fsub x (fmul p.lr z) ∧ ns.getD i xzero = fadd (fmul p.mu z) y) ∧
      (p.opt = 3 → st.length = w.length → nw.getD i xzero = fsub x (fdiv (fmul p.lr y) (fadd (fsqrt z) p.eps)) ∧
        ns.getD i xzero = fadd z (fmul y y)) ∧
      (p.opt = 4 → st.length = 1 → nw.getD i xzero = fsub x (fdiv (fmul p.lr y) (fadd (fsqrt (st.headD xzero)) p.eps)) ∧
        ns = [fadd (st.headD xzero) (rowMean g p.len)]) ∧
      (p.opt = 5 → st.length = 2 * w.length →
        v = fadd (fmul p.b2 (st.getD (w.length + i) xzero)) (fmul (fsub (.fin false 1) p.b2) (fmul y y)) →
        nw.getD i xzero = fsub x (fmul p.lr (fadd (fdiv (fdiv m p.c1) (fadd (fsqrt (fdiv v p.c2)) p.eps)) (fmul p.wd x))) ∧
        ns.getD i xzero = m ∧ ns.getD (w.length + i) xzero = v) ∧
      (p.opt = 6 → st.length = w.length + 1 →
        v = fadd (fmul p.b2 (st.getD w.length xzero)) (fmul (fsub (.fin false 1) p.b2) (rowMean g p.len)) →
        nw.getD i xzero = fsub x (fmul p.lr (fadd (fdiv (fdiv m p.c1) (fadd (fsqrt (fdiv v p.c2)) p.eps)) (fmul p.wd x))) ∧
        ns.getD i xzero = m ∧ ns.getD w.length xzero = v)) ∧
    (∀ c, s.eng.ted.lanes.get none lane.val = some c → c.k = k → c.st = .tap → s.eng.tk.main.denied = false →
      s.eng.tk.mir.denied = false →
      (s.eng.writesWait c = true → exec (.tapAccept lane) s = .next s) ∧
      (s.eng.tk.tap = true → (s.eng.tk.full false = true ∨ s.eng.tk.full true = true) → exec (.tapAccept lane) s = .next s) ∧
      (∀ f, s.eng.writesWait c = false → s.eng.tk.tap = true → s.eng.tk.opened = some f → s.eng.tk.full false = false →
        s.eng.tk.full true = false → ∃ t c' f',
        exec (.tapAccept lane) s = .next t ∧ t.eng.ted.lanes.get none lane.val = some c' ∧ c'.st = .written ∧
        t.eng.tk.opened = some f' ∧ f'.body = f.body ++ c.taps.flatMap TapRec.bytes) ∧
      (s.eng.writesWait c = false → s.eng.tk.tap = false → ∃ t c', exec (.tapAccept lane) s = .next t ∧ t.eng.ted.lanes.get none lane.val = some c' ∧
        c'.st = .written ∧ t.eng.tk = s.eng.tk)) ∧
    (∀ c, s.eng.ted.lanes.get none lane.val = some c → c.k = k → c.st = .written →
      (c.peers ≠ 0 → exec (.rowRelease lane) s = .next s) ∧
      (c.peers = 0 → ∃ t i, exec (.rowRelease lane) s = .next t ∧ t.eng.ted.lanes.get none lane.val = none ∧
        t.eng.optOf k = some i ∧ t.eng.dev = s.eng.dev ∧ i.todo = o.todo ∧
        (c.writes = [] → i = o) ∧ (c.writes ≠ [] → i.rows = o.rows + 1 ∧ i.contrib = o.contrib + c.recs ∧
          i.replayed = o.replayed + (if c.replays = 0 then 0 else 1) ∧ i.maxRep = max o.maxRep c.replays)))
/-- R19, R242, R243. While the sward serves them, a carrier atomic of a size its code does not take is answered invalid, a misaligned one
misaligned, a refused one denied, and any other done with the old value (0 for a store), its new value being stored; with no sward
between, memory holds it. One whose sector needs a miss entry while none is left waits (R229). A sward that does not serve, or an engine
that does not run, answers not ready. The order of these answers is the model's choice (log entry 162). -/
def Obligations.AtomicsAnswerAndStore : Prop :=
  ∀ (s : State) (m : Fin 64) (addr : W64) (n : Nat) (op cmp : W128) (code : Nat) (c : Instr) (sizes : List Nat)
    (new : Nat → Option Nat) (a o : Nat), a = addr.toNat → o = op.toNat % 2 ^ (8 * n) →
    ((code = 0 ∧ c = .atomicSwap m addr n op .ok ∧ sizes = [4, 8] ∧ new = fun _ => some o) ∨
      (code = 1 ∧ c = .atomicCas m addr n op cmp .ok ∧ sizes = [4, 8, 16] ∧
        new = fun x => if x = cmp.toNat % 2 ^ (8 * n) then some o else none) ∨
      (code = 2 ∧ c = .atomicAdd m addr n op .ok ∧ sizes = [4, 8] ∧ new = fun x => some ((x + o) % 2 ^ (8 * n))) ∨
      (code = 3 ∧ c = .atomicAnd m addr n op .ok ∧ sizes = [4, 8] ∧ new = fun x => some (x &&& o)) ∨
      (code = 4 ∧ c = .atomicOr m addr n op .ok ∧ sizes = [4, 8] ∧ new = fun x => some (x ||| o)) ∨
      (code = 5 ∧ c = .atomicXor m addr n op .ok ∧ sizes = [4, 8] ∧ new = fun x => some (x ^^^ o)) ∨
      (code = 6 ∧ c = .atomicSmin m addr n op .ok ∧ sizes = [4, 8] ∧
        new = fun x => some (if (BitVec.ofNat (8 * n) o).toInt < (BitVec.ofNat (8 * n) x).toInt then o else x)) ∨
      (code = 7 ∧ c = .atomicSmax m addr n op .ok ∧ sizes = [4, 8] ∧
        new = fun x => some (if (BitVec.ofNat (8 * n) x).toInt < (BitVec.ofNat (8 * n) o).toInt then o else x)) ∨
      (code = 8 ∧ c = .atomicUmin m addr n op .ok ∧ sizes = [4, 8] ∧ new = fun x => some (min x o)) ∨
      (code = 9 ∧ c = .atomicUmax m addr n op .ok ∧ sizes = [4, 8] ∧ new = fun x => some (max x o)) ∨
      (code = 10 ∧ c = .atomicFadd m addr n op .ok ∧ sizes = [4] ∧
        new = fun x => some (to32 ((of32 (BitVec.ofNat 32 x)).add (of32 (BitVec.ofNat 32 o)))).toNat) ∨
      (code = 11 ∧ c = .atomicLoad m addr n .ok ∧ sizes = [4, 8, 16] ∧ new = fun _ => none) ∨
      (code = 12 ∧ c = .atomicStore m addr n op .ok ∧ sizes = [4, 8, 16] ∧ new = fun _ => some o)) →
    ((s.runs = false ∨ s.eng.serving = false) →
      exec c s = .next { s with eng := { s.eng with port := { s.eng.port with atomic := some (1, 0) } } }) ∧
    (s.runs = true → s.eng.serving = true →
      (n ∉ sizes → exec c s = .next { s with eng := { s.eng with port := { s.eng.port with atomic := some (5, 0) } } } ∧
        exec (.atomicInvalid m (BitVec.ofNat 4 code) addr n) s =
          .next { s with eng := { s.eng with port := { s.eng.port with atomic := some (5, 0) } } }) ∧
      (n ∈ sizes → s.eng.sectorsWait [a / 64 * 64] = true → exec c s = .next s) ∧
      (n ∈ sizes → s.eng.sectorsWait [a / 64 * 64] = false → a % n ≠ 0 →
        exec c s = .next { s with eng := { s.eng with port := { s.eng.port with atomic := some (3, 0) } } }) ∧
      (n ∈ sizes → s.eng.sectorsWait [a / 64 * 64] = false → a % n = 0 → s.eng.mp.firstHole a n = none →
        s.eng.acc.firstDenied 3 m (code != 12) (code != 11) a n ≠ none → ∃ t, exec c s = .next t ∧
        t.eng.port.atomic = some (2, 0) ∧ t.ao = s.ao ∧ t.eng.acc.denyValid = true) ∧
      (∀ old, n ∈ sizes → s.eng.sectorsWait [a / 64 * 64] = false → a % n = 0 → s.eng.mp.firstHole a n = none →
        s.eng.acc.firstDenied 3 m (code != 12) (code != 11) a n = none → s.eng.answer a n .ok = .ok →
        old = leNat (s.eng.rdDev false a n) → ∃ t, exec c s = .next t ∧
        t.eng.port.atomic = some (0, if code = 12 then 0 else BitVec.ofNat 128 old) ∧ t.ao = s.ao ∧ t.eng.dirs = s.eng.dirs ∧
        t.eng.host = s.eng.host ∧ (s.eng.swd.enabled = false → s.eng.swd.lines = [] → s.eng.swd.evb = [] →
          t.eng.dev = match new old with
            | some v => s.eng.dev.wrN a (leBytes n v)
            | none => s.eng.dev)))

/-- R255, R256, R257, R258, R259, R260, R261. The window reads from its page's buffer, or waits for the page while read-ahead is on, or
reads memory; a write reaches memory and its page's buffer. A window that is off drops its accesses and answers ones; one that crosses
a page, is too long or is refused sets denied. A PCIe AtomicOp answers what the sward answers to the carrier atomic. A page's return
fills a buffer and answers the reads that waited. A new base or a changed configuration discards the buffers. -/
def Obligations.WindowServesItsAccesses : Prop :=
  ∀ (s : State) (off : BitVec 26) (a : Nat), a = s.eng.hc.base.toNat + off.toNat →
    (∀ n, s.runs = false ∨ (s.runs = true ∧ (s.eng.busy 8 = true ∨ s.eng.hc.cfg.getLsbD 0 = false)) →
      exec (.hostWindowRead off n) s = .next { s with eng := { s.eng with hc := { s.eng.hc with
        dropped := true, answer := some (List.replicate n 0xFF) } } } ∧
      ∀ bs, exec (.hostWindowWrite off bs) s = .next { s with eng := { s.eng with hc := { s.eng.hc with dropped := true } } }) ∧
    (s.runs = true → s.eng.busy 8 = false → s.eng.hc.cfg.getLsbD 0 = true →
      (∀ n, (n = 0 ∨ 512 < n ∨ off.toNat / 4096 ≠ (off.toNat + n - 1) / 4096) → ∃ t, exec (.hostWindowRead off n) s = .next t ∧
        t.eng.hc.denied = true ∧ t.eng.hc.answer = some (List.replicate n 0xFF) ∧ t.ao = s.ao) ∧
      (∀ n, 1 ≤ n → n ≤ 512 → off.toNat / 4096 = (off.toNat + n - 1) / 4096 → s.eng.wideOk s.eng.hc.master true false a n →
        (∀ b, s.eng.hc.buf (a / 4096) = some b → ∃ t, exec (.hostWindowRead off n) s = .next t ∧
          t.eng.hc.answer = some ((b.data.drop (a % 4096)).take n) ∧ t.eng.hc.bufs = s.eng.hc.bufs.erase b ++ [b] ∧
          t.eng.dev = s.eng.dev) ∧
        (s.eng.hc.buf (a / 4096) = none → s.eng.hc.cfg.getLsbD 1 = true → ∃ t, exec (.hostWindowRead off n) s = .next t ∧
          t.eng.hc.reads = s.eng.hc.reads ++ [(a, n)] ∧ t.eng.hc.answer = s.eng.hc.answer) ∧
        (s.eng.hc.buf (a / 4096) = none → s.eng.hc.cfg.getLsbD 1 = false → ∃ t, exec (.hostWindowRead off n) s = .next t ∧
          t.eng.hc.answer = some (s.eng.rdDev true a n) ∧ t.eng.dev = s.eng.dev)) ∧
      (∀ bs, 1 ≤ bs.length → bs.length ≤ 512 → off.toNat / 4096 = (off.toNat + bs.length - 1) / 4096 →
        s.eng.wideOk s.eng.hc.master false true a bs.length → ∃ t, exec (.hostWindowWrite off bs) s = .next t ∧
        t.eng.dev = s.eng.dev.wrN a bs ∧ t.eng.host = s.eng.host ∧ t.eng.hc.bufs = s.eng.hc.bufs.map fun b =>
          if b.page = a / 4096 then { b with data := splice b.data (a % 4096) bs } else b) ∧
      (∀ n op cmp code c e v, ((code = 2 ∧ n ∈ [4, 8] ∧ c = .pcieFetchadd off n op .ok ∧ cmp = 0) ∨
          (code = 0 ∧ n ∈ [4, 8] ∧ c = .pcieSwap off n op .ok ∧ cmp = 0) ∨
          (code = 1 ∧ n ∈ [4, 8, 16] ∧ c = .pcieCas off n op cmp .ok)) →
        s.eng.atomicWaits code (s.eng.hc.base + off.setWidth 64).toNat n = false →
        (e, v) = s.eng.atomic code s.eng.hc.master (s.eng.hc.base + off.setWidth 64) n op cmp .ok → ∃ t, exec c s = .next t ∧
          t.eng.port.atomic = some v ∧ t.eng.dev = e.dev ∧ t.eng.swd = e.swd ∧ t.ao = s.ao ∧
          (v.1 = 2 → t.eng.hc.denied = true) ∧
          (v.1 = 0 → ∀ b ∈ t.eng.hc.bufs, ¬ (b.page * 4096 < (s.eng.hc.base + off.setWidth 64).toNat + n ∧
            (s.eng.hc.base + off.setWidth 64).toNat < b.page * 4096 + 4096)))) ∧
    (∀ (pg : BitVec 14) x p, s.runs = true → s.eng.hc.reads.find? (fun y => y.1 / 4096 % 16384 == pg.toNat) = some x →
      p = x.1 / 4096 → s.eng.hc.cfg.getLsbD 1 = true → s.eng.hc.base.toNat ≤ p * 4096 →
      p * 4096 < s.eng.hc.base.toNat + 2 ^ 26 → s.eng.answer (p * 4096) 4096 .ok = .ok → ∃ t,
        exec (.wideReadReturn (.windowPage pg) .ok) s = .next t ∧ t.eng.hc.reads = s.eng.hc.reads.filter (·.1 / 4096 != p) ∧
        (∃ b ∈ t.eng.hc.bufs, b.page = p ∧ b.data = s.eng.rdDev true (p * 4096) 4096) ∧
        (s.eng.hc.bufs.length ≤ 16 → t.eng.hc.bufs.length ≤ 16) ∧ t.eng.hc.answer ≠ none ∧ t.eng.dev = s.eng.dev) ∧
    (∀ (m : Fin 64) (v : W64), s.serves m 0x14000 (.wr64 v) = true → ∃ t, exec (.hwBaseCommit m v) s = .next t ∧
      t.eng.hc.base.toNat = v.toNat / 2 ^ 26 * 2 ^ 26 ∧ t.eng.hc.bufs = [] ∧ t.eng.hc.cfg = s.eng.hc.cfg ∧ t.eng.dev = s.eng.dev) ∧
    (∀ m : Fin 64, s.serves m 0x1400C (.wr32 1) = true → ∃ t, exec (.raDrop m) s = .next t ∧ t.eng.hc.bufs = [] ∧
      t.eng.hc.base = s.eng.hc.base ∧ t.eng.hc.cfg = s.eng.hc.cfg ∧ t.eng.dev = s.eng.dev) ∧
    (∀ (m : Fin 64) (v : W32), s.serves m 0x14008 (.wr32 v) = true → ∃ t, exec (.hwCfgWrite m v) s = .next t ∧
      t.eng.hc.cfg = v &&& 0x1FF ∧ (((v &&& 0x1FF) ^^^ s.eng.hc.cfg) &&& 0x1FB ≠ 0 → t.eng.hc.bufs = []) ∧
      (((v &&& 0x1FF) ^^^ s.eng.hc.cfg) &&& 0x1FB = 0 → t.eng.hc.bufs = s.eng.hc.bufs) ∧ t.eng.dev = s.eng.dev)

/-- R248, R262, R263, R264, R265, R266, R267. A transfer starts when its whole source and destination ranges are granted, and else ends
denied. Each request moves its bytes within a page, at most 512 where a side is host memory; an error ends the transfer. A complete COPY
finishes its command; a complete STAGE retires once its writes are acknowledged. An engine that the loader occupies moves no requests of its
own: the loader's reads come with its operation's end (R335; log entry 203, the model's choice). -/
def Obligations.CopyEnginesMoveTheirTransfers : Prop :=
  ∀ (s : State) (ce : Fin 16) (x : Xfer) (rest : List Xfer), s.runs = true → s.eng.inReset 8 = false → s.eng.hc.ces.get [] ce.val = x :: rest →
    (x.ofLoader = true →
      (x.started = false → ∃ t, exec (.copyTransferStart ce) s = .next t ∧
        t.eng.hc.ces.get [] ce.val = { x with started := true } :: rest ∧ t.eng.acc = s.eng.acc ∧ t.eng.dev = s.eng.dev) ∧
      (∀ r, exec (.copyRequestResponse ce r) s = .next s) ∧ exec (.copyTransferComplete ce) s = .next s) ∧
    (x.ofLoader = false → x.started = false →
      ((x.srcHost = false → s.eng.mp.firstHole x.src.toNat x.len = none) →
        s.eng.acc.firstDenied (if x.srcHost then 5 else 4) x.master true false x.src.toNat x.len = none →
        (x.dstHost = false → s.eng.mp.firstHole x.dst.toNat x.len = none) →
        s.eng.acc.firstDenied (if x.dstHost then 5 else 4) x.master false true x.dst.toNat x.len = none → ∃ t,
          exec (.copyTransferStart ce) s = .next t ∧ t.eng.hc.ces.get [] ce.val = { x with started := true } :: rest ∧
          t.eng.dev = s.eng.dev ∧ t.eng.host = s.eng.host ∧ t.eng.acc = s.eng.acc) ∧
      ((x.srcHost = false → s.eng.mp.firstHole x.src.toNat x.len = none) →
        s.eng.acc.firstDenied (if x.srcHost then 5 else 4) x.master true false x.src.toNat x.len ≠ none → ∃ t,
          exec (.copyTransferStart ce) s = .next t ∧ t.eng.hc.ces.get [] ce.val = rest ∧ t.eng.acc.denyValid = true ∧
          ∀ k q, x.owner = .ticket k → s.ticketLive k q → s.Retires t k q 3 0)) ∧
    (∀ o n a b bs, x.ofLoader = false → x.started = true → x.moved < x.len → (o, n) = x.request → a = x.src.toNat + o → b = x.dst.toNat + o →
      bs = s.eng.rdMem x.srcHost true a n →
      (1 ≤ n ∧ n ≤ x.len - x.moved ∧ (x.srcHost = true ∨ x.dstHost = true → n ≤ 512) ∧ a / 4096 = (a + n - 1) / 4096 ∧
        b / 4096 = (b + n - 1) / 4096) ∧
      ((x.srcHost = false → s.eng.answer a n .ok = .ok) → ∃ t, exec (.copyRequestResponse ce .ok) s = .next t ∧
        t.eng.hc.ces.get [] ce.val = { x with moved := x.moved + n } :: rest ∧
        t.eng.dev = (if x.dstHost then s.eng.dev else s.eng.dev.wrN b bs) ∧
        t.eng.host = (if x.dstHost then s.eng.host.wrN b bs else s.eng.host) ∧ t.ao = s.ao) ∧
      (∀ r, x.srcHost = true → r = .hostRefused ∨ r = .hostTimeout ∨ r = .hostPoison → ∃ t,
        exec (.copyRequestResponse ce r) s = .next t ∧ t.eng.hc.ces.get [] ce.val = rest ∧ t.eng.hc.hostErr = true ∧
        (∀ k q, x.owner = .ticket k → s.ticketLive k q → s.Retires t k q 3 4))) ∧
    (x.started = true → x.len ≤ x.moved →
      (∀ n c pre cmd post, x.owner = .cmd n c → (s.eng.reel n.val).inflight = pre ++ cmd :: post → cmd.count = c →
        cmd.finished = false → (∀ y ∈ pre ++ post, y.count ≠ c) → (le cmd.body 22 2).testBit 15 = false → ∃ t,
        exec (.copyTransferComplete ce) s = .next t ∧ t.eng.hc.ces.get [] ce.val = rest ∧
        (t.eng.reel n.val).inflight = pre ++ { cmd with phase := .done 0 0 cmd.detail } :: post) ∧
      (∀ k q, x.owner = .ticket k → s.ticketLive k q →
        (x.dstHost = false → s.eng.mp.owed (.ticket k) = 0 → ∃ t, exec (.copyTransferComplete ce) s = .next t ∧
          t.eng.hc.ces.get [] ce.val = rest ∧ s.Retires t k q 0 0) ∧
        ((x.dstHost = true ∨ s.eng.mp.owed (.ticket k) ≠ 0) → ∃ t, exec (.copyTransferComplete ce) s = .next t ∧
          t.eng.hc.ces.get [] ce.val = rest ∧ t.eng.hc.closing = s.eng.hc.closing ++ [k] ∧ t.eng.dirs = s.eng.dirs))) ∧
    (∀ o n pre post, s.eng.mp.acks = pre ++ (o, n) :: post → (∀ y ∈ pre ++ post, y.1 ≠ o) →
      (∀ d, o = .dirAcc d → (s.eng.dir d.val).st = .running) → ∃ t, exec (.memoryWriteAck o) s = .next t ∧
      t.eng.mp.owed o = n - 1 ∧ (∀ p, p ≠ o → (∀ d, p ≠ .dirAcc d) → (∀ y ∈ s.eng.mp.acks, y.2 ≠ 0) →
        t.eng.mp.owed p = s.eng.mp.owed p) ∧
      ∀ k q, o = .ticket k → n = 1 → k ∈ s.eng.hc.closing → s.ticketLive k q → s.Retires t k q 0 0)
/-- R229, R231, R234, R235, R237, R238, R239, R240. An enable waits for the invalidate that runs, or is refused while none has completed; a
disable writes back and then leaves the sward empty. A maintenance operation starts unless another runs, its range is misaligned, or the
sward's state refuses it; its completion empties, cleans or flushes the lines it names. -/
def Obligations.SwardIsEnabledAndMaintained : Prop :=
  ∀ (s : State) (m : Fin 64),
    (∀ (v : W32) (w : Swd), s.serves m 0x12000 (.wr32 (v ||| 1)) = true → w = { s.eng.swd with pfEn := v.getLsbD 1 } →
      ∃ t, exec (.swardEnable m v) s = .next t ∧ t.eng.dev = s.eng.dev ∧
        (w.pending = false → w.enabled = false → w.disabling = false → w.invalDone = true →
          t.eng.swd = { w with enabled := true, pending := false, credit := [], low := [] } ∧ t.eng.map.pinWalk = true) ∧
        (w.pending = false → w.enabled = false → w.disabling = false → w.invalDone = false →
          t.eng.swd = (if w.maint.map (·.op) = some 1 then { w with pending := true } else { w with enRefused := true })) ∧
        (w.pending = false → w.disabling = true → t.eng.swd = { w with enRefused := true }) ∧
        ((w.pending = true ∨ (w.enabled = true ∧ w.disabling = false)) → t.eng.swd = w)) ∧
    (∀ (v : W32) (w : Swd), s.serves m 0x12000 (.wr32 (v &&& 0xFFFFFFFE)) = true → w = { s.eng.swd with pfEn := v.getLsbD 1 } →
      ∃ t, exec (.swardDisable m v) s = .next t ∧ t.eng.dev = s.eng.dev ∧
        (w.pending = true → t.eng.swd = { w with pending := false }) ∧
        (w.pending = false → w.enabled = true → w.disabling = false → t.eng.swd = { w with disabling := true }) ∧
        (w.pending = false → (w.enabled = false ∨ w.disabling = true) → t.eng.swd = w)) ∧
    (s.runs = true → s.eng.swd.disabling = true → s.eng.swd.maint = none → ∃ t, exec .swardDisableEnd s = .next t ∧
      t.eng.swd.enabled = false ∧ t.eng.swd.disabling = false ∧ t.eng.swd.invalDone = false ∧ t.eng.swd.lines = [] ∧
      t.eng.swd.evb = [] ∧ (∀ k l, s.eng.swd.evb = [] → s.eng.swd.lines = [(k, some l)] → l.s0.dirty = true → l.s1.dirty = false →
        t.eng.dev = s.eng.dev.wrN (k * 128) l.s0.data)) ∧
    (∀ (op : Nat) (c : Instr), s.serves m 0x1200C (.wr32 (BitVec.ofNat 32 op)) = true →
      ((op = 1 ∧ c = .invalidateAll m) ∨ (op = 2 ∧ c = .writeBackAll m) ∨ (op = 3 ∧ c = .flushAll m) ∨
        (op = 4 ∧ c = .writeBackRange m) ∨ (op = 5 ∧ c = .invalidateRange m) ∨ (op = 6 ∧ c = .flushRange m)) →
      ∃ t ok, exec c s = .next t ∧ t.eng.dev = s.eng.dev ∧ t.ao = s.ao ∧
        ok = (s.eng.swd.maint = none ∧ (op = 1 → s.eng.swd.enabled = false ∧ s.eng.swd.disabling = false) ∧
          (op = 3 → s.eng.swd.enabled = true) ∧ (4 ≤ op → s.eng.swd.maintAddr.toNat % 128 = 0 ∧
            s.eng.swd.maintLen.toNat % 128 = 0 ∧ s.eng.swd.maintLen ≠ 0)) ∧
        (ok → t.eng.swd = { s.eng.swd with
          maint := some { op := op, addr := s.eng.swd.maintAddr.toNat, len := s.eng.swd.maintLen.toNat } }) ∧
        (¬ ok → t.eng.swd = { s.eng.swd with mtRefused := true })) ∧
    (∀ x, s.runs = true → s.eng.swd.maint = some x → ∃ t, exec .maintComplete s = .next t ∧ t.eng.swd.maint = none ∧
      (x.op = 1 → t.eng.swd.lines = [] ∧ t.eng.swd.evb = [] ∧ t.eng.swd.invalDone = true ∧ t.eng.dev = s.eng.dev ∧
        t.eng.swd.enabled = (s.eng.swd.enabled || s.eng.swd.pending)) ∧
      ((x.op = 2 ∨ (x.op = 3 ∧ (s.eng.swd.lines.map (·.1)).Nodup)) → (∀ sl, t.eng.swd.evb.get [] sl = []) ∧
        ∀ k l, t.eng.swd.lines.get none k = some l → l.s0.dirty = false ∧ l.s1.dirty = false) ∧
      (x.op = 3 → ∀ k l, (k, some l) ∈ t.eng.swd.lines → l.pinned = true) ∧
      (∀ k l, x.op = 5 → s.eng.swd.lines = [(k, some l)] → s.eng.swd.evb = [] → l.pinned = false → x.addr ≤ k * 128 →
        k * 128 < x.addr + x.len → t.eng.swd.lines = [] ∧ t.eng.dev = s.eng.dev) ∧
      (∀ k l, x.op = 4 → s.eng.swd.lines = [(k, some l)] → s.eng.swd.evb = [] → l.s0.dirty = true → l.s1.dirty = false →
        x.addr ≤ k * 128 → k * 128 < x.addr + x.len → t.eng.dev = s.eng.dev.wrN (k * 128) l.s0.data ∧
        t.eng.swd.lines.get none k = some { l with s0 := { l.s0 with dirty := false } }))

/-- R229, R231, R234, R244, R245, R249, R251. A returning fill makes its line resident with memory's bytes in a free way; a failed one
installs nothing. The oldest entry of an eviction buffer drains into memory. A failing location gets a defect entry, its line leaves, and
a dirty sector that cannot be read is lost. A far-tier request that timed out is answered so; a prefetch that did reports nothing. Regulators'
credits grow each cycle up to 65,536 bytes. That a timeout marks the sector until its request is answered (log entry 205), that the lowest
free spare is taken (log entry 11), and where errors count (log entry 202) is the model's choice. -/
def Obligations.SwardLinesAndPortsHandleTheirEvents : Prop :=
  ∀ (s : State), s.runs = true →
    (∀ (line : BitVec 57) n x y, n = line.toNat → s.eng.swd.miss.find? (·.line == n) = some x →
      (∀ r, s.eng.answer (n * 128) 128 r ≠ .ok → ∃ t, exec (.swardMissFill line r) s = .next t ∧
        t.eng.swd = { s.eng.swd with miss := s.eng.swd.miss.filter (·.line != n) } ∧ t.eng.dev = s.eng.dev) ∧
      (s.eng.answer (n * 128) 128 .ok = .ok → s.eng.swd.allocates = true → s.eng.swd.lines.get none n = none →
        s.eng.swd.evb.get [] (sliceOf n) = [] →
        (s.eng.swd.usable (sliceOf n) (setOf n)).find? (fun y => !(s.eng.swd.inSet (sliceOf n) (setOf n)).any fun z => z.2.way == y)
          = some y → ∃ t l, exec (.swardMissFill line .ok) s = .next t ∧ t.eng.swd.lines.get none n = some l ∧ l.way = y ∧
        (x.w0 = true → l.s0 = { valid := true, dirty := false, data := s.eng.dev.rdN (n * 128) 64 }) ∧
        (x.w1 = true → l.s1 = { valid := true, dirty := false, data := s.eng.dev.rdN (n * 128 + 64) 64 }) ∧
        (∀ z ∈ t.eng.swd.miss, z.line = n → False) ∧ t.eng.dev = s.eng.dev)) ∧
    (∀ (slice : Fin 64) v rest bs, s.eng.swd.evb.get [] slice.val = v :: rest → v.d0 = some bs → v.d1 = none → ∃ t,
      exec (.evictionDrainAck slice) s = .next t ∧ t.eng.dev = s.eng.dev.wrN (v.line * 128) bs ∧
      t.eng.swd.evb.get [] slice.val = rest ∧ t.eng.swd.lines = s.eng.swd.lines) ∧
    (∀ (slice : Fin 64) (set : Fin 1024) (way : Fin 20) b0 b1 work d, s.eng.swd.wayRetired slice.val set.val way.val = false →
      d = s.eng.swd.nextDefect 1 slice.val set.val way.val 32 → ∃ t, exec (.swardLineFailure slice set way b0 b1 work) s = .next t ∧
        d ∈ t.eng.swd.defects ∧ d.kind = 1 ∧ d.unit = slice.val ∧ d.index = set.val ∧ d.way = way.val ∧ 1 ≤ d.st ∧
        (d.st = 3 → t.eng.swd.retired = true ∧ t.eng.swd.wayRetired slice.val set.val way.val = true) ∧
        (d.st ≠ 3 → t.eng.swd.remapped = true) ∧
        ∀ k l, (s.eng.swd.inSet slice.val set.val).find? (·.2.way == way.val) = some (k, l) → t.eng.swd.lines.get none k = none ∧
          (b0 = true → l.s0.dirty = true → t.eng.swd.uncorr = true) ∧ (b1 = true → l.s1.dirty = true → t.eng.swd.uncorr = true)) ∧
    (∀ (sector : BitVec 58) wide work a, a = sector.toNat * 64 →
      (s.eng.mp.inFar a = false → ∃ t, exec (.farTierTimeout sector wide work) s = .next t ∧ t.eng.mp = s.eng.mp ∧
        t.eng.swd = s.eng.swd ∧ t.eng.dev = s.eng.dev ∧ t.eng.host = s.eng.host) ∧
      (∀ x ∈ s.eng.swd.miss, s.eng.mp.inFar a = true → wide = false → x.line = a / 128 → x.demand = false → ∃ t,
        exec (.farTierTimeout sector wide work) s = .next t ∧ t.eng.mp = s.eng.mp ∧ (∀ y ∈ t.eng.swd.miss, y.line ≠ a / 128) ∧
        t.eng.dev = s.eng.dev ∧ t.eng.host = s.eng.host) ∧
      (s.eng.mp.inFar a = true → (wide = true ∨ ∀ x ∈ s.eng.swd.miss, x.line = a / 128 → x.demand = true) → ∃ t,
        exec (.farTierTimeout sector wide work) s = .next t ∧ t.eng.mp.farTmo = true ∧ ∀ r, t.eng.answer a 64 r = .farTimeout)) ∧
    (∃ t, exec .regulatorCreditRefill s = .next t ∧
      t.eng.mp.credit.get 0 0 = min (s.eng.mp.credit.get 0 0 + (250 * s.eng.mp.allot.toNat : Nat)) 262144 ∧
      t.eng.mp.credit.get 0 17 = min (s.eng.mp.credit.get 0 17 + (10 * (s.eng.mp.farCfg.toNat / 2 ^ 14 % 2 ^ 8) : Nat)) 262144 ∧
      (∀ i < 16, t.eng.mp.credit.get 0 (i + 1) = min (s.eng.mp.credit.get 0 (i + 1) +
        (25 * ((s.eng.mp.parts.get 0 i).toNat / 2 ^ 20) : Nat)) 262144) ∧
      t.eng.dev = s.eng.dev ∧ t.eng.swd = s.eng.swd ∧ t.ao = s.ao)
/-- R275, R276, R278, R281, R283. Enabling a port starts its bring-up with its configuration; disabling it takes it down. A probed pair
lights, locks and trains; enough trained lanes let the port align, and with keys in both directions it goes live with its frame counters
at zero; without them it waits, aligned, and a lane that is lost or joins then counts. A pair that does not lock or train in time is
retired; lit pairs that lose their light shut, and probe again later. That a lane that trains on a live port joins at once (log entry 75), what
too few usable pairs are (log entry 76), and that only a differing dim or min_lanes sets cfg_busy (log entry 170) is the model's choice. -/
def Obligations.PortsAreBroughtUp : Prop :=
  ∀ (s : State) (p : Fin 8) (x : ZPort), s.runs = true → x = s.eng.port' p.val →
    (∀ (m : Fin 64) (v : W32) dim ml, s.serves m (0x15800 + 0x20 * p.val) (.wr32 v) = true → dim = BitVec.ofNat 2 (v.toNat / 2 % 4) →
      ml = min 16 (max 1 (v.toNat / 8 % 32)) → ∃ t y, exec (.portEnable m p v) s = .next t ∧ y = t.eng.port' p.val ∧
        (x.enable = false → v.getLsbD 0 = true → y.enable = true ∧ y.st = .probing ∧ y.dim = dim ∧ y.minLanes = ml ∧ y.lanes = [] ∧
          ∀ n < 18, (x.pair n).bad = false → (x.pair n).taken = false → (y.pair n).safety = .probe) ∧
        (x.enable = false → v.getLsbD 0 = false → y = { x with dim := dim, minLanes := ml }) ∧
        (x.enable = true → v.getLsbD 0 = true →
          y = { x with cfgBusy := x.cfgBusy || decide (dim ≠ x.dim) || decide (ml ≠ x.minLanes) }) ∧
        (x.enable = true → v.getLsbD 0 = false → y.enable = false ∧ (x.st ≠ .dark → x.st ≠ .down → y.st = .down ∧ y.lanes = [] ∧
          y.replay = [] ∧ ∀ n, (y.pair n).safety = .off))) ∧
    (∀ (n : Fin 18) (q : Pair), q = x.pair n.val →
      (q.safety = .probe → q.bad = false → ∃ t y, exec (.probeDetected p n) s = .next t ∧ y = t.eng.port' p.val ∧
        (n.val % 9 = 8 → x.moveTo n.val = none → y = x.setPair n.val { q with safety := .off, tune := .idle, unc := [], seen := true }) ∧
        ((n.val % 9 ≠ 8 ∨ x.moveTo n.val ≠ none) → (y.pair n.val).safety = .lit ∧ (y.pair n.val).tune = .locking ∧
          y.st = (if x.st = .probing then .locking else x.st)) ∧ ∀ k, k ≠ n.val → y.pair k = x.pair k) ∧
      (∀ tx rx, q.safety = .lit → q.tune = .locking → ∃ t y, exec (.ringLocked p n tx rx) s = .next t ∧ y = t.eng.port' p.val ∧
        y.pair n.val = { q with tune := .training, tx := tx, rx := rx } ∧ y.st = (if x.st = .locking then .training else x.st) ∧
        ∀ k, k ≠ n.val → y.pair k = x.pair k) ∧
      (q.safety = .lit → q.tune = .training → ∃ t y, exec (.equaliserTrained p n) s = .next t ∧ y = t.eng.port' p.val ∧
        y.pair n.val = { q with tune := .trained } ∧
        y.st = (if (x.st = .locking ∨ x.st = .training) ∧ x.minLanes ≤ y.trained.length then .aligning else x.st) ∧
        (x.aligned = true → n.val % 9 ≠ 8 → y.lanes.get none (8 * (n.val / 9) + n.val % 9) = some n.val)) ∧
      (q.safety = .lit → (q.tune = .locking ∨ q.tune = .training) → x.moveTo n.val = none → ∃ t y,
        exec (.bringUpTimeout p n) s = .next t ∧ y = t.eng.port' p.val ∧ (y.pair n.val).bad = true ∧
        t.eng.zw.status.getLsbD 3 = true ∧ (x.st ≠ .dark → x.st ≠ .live → ((List.range 18).filter fun i =>
          decide (i % 9 ≠ 8) && !(y.pair i).bad && !(y.pair i).taken).length < x.minLanes → y.st = .down) ∧
        ∀ l, x.aligned = true → x.laneUsing n.val = some l → x.laneCount ≤ x.minLanes → y.st = .down) ∧
      (q.safety = .shut → ∃ t, exec (.shutRecovery p n) s = .next t ∧
        t.eng.port' p.val = x.setPair n.val { q with safety := .probe, tune := .idle })) ∧
    (x.st = .aligning → x.minLanes ≤ x.trained.length → ∃ t y, exec (.portAlign p) s = .next t ∧ y = t.eng.port' p.val ∧
      (x.tx.slot.ok = true → x.rx.slot.ok = true → y.st = .live ∧ y.noKey = false ∧
        (∀ n ∈ x.trained, y.lanes.get none (8 * (n / 9) + n % 9) = some n) ∧
        (s.eng.zw.stuck = [] → x.queue = [] → x.fwd = [] → y.txNext = 0 ∧ y.rxNext = 0 ∧ y.replay = [])) ∧
      ((x.tx.slot.ok = false ∨ x.rx.slot.ok = false) → y.st = .aligning ∧ y.noKey = true)) ∧
    (∀ ns : List (Fin 18),
      ((∀ n ∈ ns, (x.pair n.val).safety ≠ .lit) → exec (.lossOfLight p ns) s = .next s) ∧
      ((∃ n ∈ ns, (x.pair n.val).safety = .lit) → ∃ t y, exec (.lossOfLight p ns) s = .next t ∧ y = t.eng.port' p.val ∧
        y.lol = true ∧ (∀ n ∈ ns, (y.pair n.val).safety ≠ .lit ∨ (x.pair n.val).safety ≠ .lit) ∧
        (x.aligned = true → (∀ n : Fin 18, (x.pair n.val).safety = .lit → n ∈ ns) → y.st = .down)))

/-- R18, R279, R281, R282, R284, R285, R286, R287, R289, R292, R293. Pilot measurements and the far end's reports correct a pair's heaters; a pair out of capture is
moved to its fibre's spare, the sweep's row issue being held until the move is over. Frames are taken in order, a bad one is asked for
again, and the eighth failure of one frame's tag, whatever came between, takes the port down; acknowledgements free the replay buffer and
credits are returned. Keys load into the slot not in use and switch at an agreed frame. A tracked message that is not answered is resent,
and then reported. The first key's slot (log entry 25), the sign and bound of a heater's correction (77), the switch's frame (80) and that
timeouts run on the time base (112) are the model's choice. -/
def Obligations.LanesMoveAndFramesAreTaken : Prop :=
  ∀ (s : State) (p : Fin 8) (x : ZPort), s.runs = true → x = s.eng.port' p.val →
    (∀ (b : Pilot) q q', b.rxDetune.natAbs * 480 ≤ 81920 → b.farDetune.natAbs * 480 ≤ 81920 → x.st = .live → x.moves = [] →
      q = x.pair b.pair.val → q.safety = .lit →
      q' = { q with rx := BitVec.ofNat 12 (min 4095 ((q.rx.toNat : Int) - max (-256) (min 256 b.rxDetune)).toNat) } →
      s.eng.zw.cal.toNat % 128 ≤ q'.head →
      (∀ n : Fin 18, n ≠ b.pair → (x.pair n.val).safety = .lit → s.eng.zw.cal.toNat % 128 ≤ (x.pair n.val).head) → ∃ t,
        exec (.pilotBlock p [b]) s = .next t ∧ t.eng.swp = s.eng.swp ∧ t.eng.port' p.val = { x.setPair b.pair.val q' with
          reports := (x.reports.filter fun r => r.pair != b.pair) ++ [{ pair := b.pair, codes := b.farDetune, head := q'.own }] }) ∧
    (∀ (n sp : Fin 18) (l : Fin 16) (dr df : Int), (81920 < dr.natAbs * 480 ∨ 81920 < df.natAbs * 480) → x.st = .live → (x.pair n.val).safety = .lit → x.moves = [] → x.laneUsing n.val = some l.val →
      n.val % 9 ≠ 8 → sp.val = 9 * (n.val / 9) + 8 → x.spareFree sp.val = true →
      (∀ k : Fin 18, k ≠ n → (x.pair k.val).safety = .lit → s.eng.zw.cal.toNat % 128 ≤ (x.pair k.val).head) → ∃ t mv,
        exec (.pilotBlock p [{ pair := n, rxDetune := dr, farDetune := df }]) s = .next t ∧
        (t.eng.port' p.val).moves = [mv] ∧ mv.lane = l ∧ mv.src = n ∧ mv.spare = sp ∧ mv.mine = true ∧ mv.begun = false ∧
        (p, l) ∈ t.eng.swp.moving) ∧
    (∀ (lane : Fin 16) (n : Fin 18) sp, x.lanes.get none lane.val = some n.val → x.st = .live → x.moveOf lane.val = none →
      sp = (if lane.val < 8 then 8 else 17) → x.spareFree sp = true → ∃ t y mv, exec (.moveRequest p lane) s = .next t ∧
        y = t.eng.port' p.val ∧ y.moves = x.moves ++ [mv] ∧ mv.lane = lane ∧ mv.src = n ∧ mv.spare.val = sp ∧ mv.mine = false ∧
        mv.begun = true ∧ mv.since = s.eng.hth.time ∧ (y.pair sp).safety = .probe ∧ (p, lane) ∈ t.eng.swp.moving) ∧
    (∀ (lane : Fin 16) mv, x.moveOf lane.val = some mv → mv.switched = false →
      ((mv.swAt = none ∨ (x.pair mv.spare.val).tune ≠ .trained) → exec (.laneSwitch p lane) s = .next s) ∧
      (mv.swAt ≠ none → (x.pair mv.spare.val).tune = .trained → ∃ t y, exec (.laneSwitch p lane) s = .next t ∧ y = t.eng.port' p.val ∧
        y.lanes.get none lane.val = some mv.spare.val ∧ (y.pair mv.src.val).bad = true ∧ (y.pair mv.spare.val).taken = true ∧
        t.eng.zw.status.getLsbD 2 = true ∧ t.eng.swp = s.eng.swp) ∧
      (mv.since.toNat + 1000 * (s.eng.zw.cal.toNat / 2 ^ 16) ≤ s.eng.hth.time.toNat → ∃ t y, exec (.moveTimeout p lane) s = .next t ∧
        y = t.eng.port' p.val ∧ (y.pair mv.src.val).bad = true ∧ (y.pair mv.spare.val).bad = true ∧
        y.lanes.get none lane.val = none ∧ (∀ z ∈ y.moves, z.lane ≠ lane) ∧ (p, lane) ∉ t.eng.swp.moving)) ∧
    (∀ f : ZFrame, x.st = .live → f.uncorrLanes = [] →
      (f.num.toNat < x.rxNext → f.fecOk = true → f.tagOk = true → ∃ t, exec (.frameReceive p f) s = .next t ∧
        t.eng.port' p.val = { x with bad := x.bad.set 0 f.num.toNat 0 } ∧ t.eng.zw.inbox = s.eng.zw.inbox) ∧
      ((f.fecOk = false ∨ (f.tagOk = true ∧ x.rxNext < f.num.toNat)) → ∃ t,
        exec (.frameReceive p f) s = .next t ∧ t.eng.port' p.val = { x with nak := true } ∧ t.eng.zw.inbox = s.eng.zw.inbox) ∧
      (f.fecOk = true → f.tagOk = false → x.bad.get 0 f.num.toNat < 7 → ∃ t, exec (.frameReceive p f) s = .next t ∧
        t.eng.port' p.val = { x with nak := true, bad := x.bad.set 0 f.num.toNat (x.bad.get 0 f.num.toNat + 1) } ∧
        t.eng.zw.inbox = s.eng.zw.inbox) ∧
      (f.fecOk = true → f.tagOk = false → x.bad.get 0 f.num.toNat = 7 → ∃ t y,
        exec (.frameReceive p f) s = .next t ∧ y = t.eng.port' p.val ∧ y.st = .down ∧ y.integrity = true) ∧
      (∀ z k, f.num.toNat = x.rxNext → f.fecOk = true → f.tagOk = true → x.rx.sw = none → f.msgs = [z] →
        z.body ≠ .reserved → zFlooded z.body = false → z.hop = false → z.dst.toNat = s.eng.hth.pos → k = 3 * z.src.toNat + zCls z.body →
        z.seq = s.eng.zw.rxSeq.get 0 k → s.eng.zw.early = [] → (∀ y ∈ s.eng.zw.inbox, ∀ a b c, y.body ≠ .readReq a b c) →
        ∃ t y, exec (.frameReceive p f) s = .next t ∧ y = t.eng.port' p.val ∧ y.rxNext = x.rxNext + 1 ∧ y.nak = false ∧
          t.eng.zw.rxSeq.get 0 k = z.seq + 1 ∧
          ((∀ a b c, z.body ≠ .readReq a b c) → y.owed = x.owed ∧ t.eng.gln = s.eng.gln ∧
            t.eng.zw.inbox = s.eng.zw.inbox ++ [{ z with arr := some { port := p, chan := zChan z, owes := true } }]) ∧
          (∀ a b c, z.body = .readReq a b c → s.eng.busy 1 = false → s.eng.gln.serving 0 + c.toNat + 1 ≤ 256 →
            y.owed.get 0 (zChan z) = x.owed.get 0 (zChan z) + 1 ∧ t.eng.zw.inbox = s.eng.zw.inbox ∧
            t.eng.gln.serve = s.eng.gln.serve ++ [(0, { z with arr := none })]))) ∧
    (∀ c : ZCtl, x.st = .live → x.queue = [] → x.fwd = [] → x.tx.sw = none → c.nak = false → c.keySw = false → c.ctl = .none →
      c.reports = [] → ∃ t y,
      exec (.linkControl p c) s = .next t ∧ y = t.eng.port' p.val ∧ y.txNext = x.txNext ∧
      (∀ f, f ∈ y.replay ↔ f ∈ x.replay ∧ 2 ^ 47 ≤ (c.ack.toNat + 2 ^ 48 - f.num % 2 ^ 48) % 2 ^ 48) ∧
      ∀ v < 6, y.credit.get 0 v = x.credit.get 0 v + 16 * ((c.credits.getD v 0).toNat : Int)) ∧
    (∀ (c : ZCtl) (r : Detune) q q', x.st = .live → c.ctl = .none → c.reports = [r] → q = x.pair r.pair.val → q.safety = .lit →
      q' = { q with tx := BitVec.ofNat 12 (min 4095 ((q.tx.toNat : Int) - max (-256) (min 256 r.codes)).toNat), far := r.head } →
      s.eng.zw.cal.toNat % 128 ≤ q'.head →
      (∀ n : Fin 18, n ≠ r.pair → (x.pair n.val).safety = .lit → s.eng.zw.cal.toNat % 128 ≤ (x.pair n.val).head) → ∃ t,
        exec (.linkControl p c) s = .next t ∧ (t.eng.port' p.val).pair r.pair.val = q' ∧ t.eng.swp = s.eng.swp) ∧
    (∀ (m : Fin 64) (v : W32) (k : KeyDir), v.toNat % 8 = p.val → k = (if v.getLsbD 3 then x.rx else x.tx) →
      (s.serves m 0x15010 (.wr32 ((v &&& 0xF) ||| 0x10)) = true → ∃ t y k', exec (.keyLoad m v) s = .next t ∧ y = t.eng.port' p.val ∧
        k' = (if v.getLsbD 3 then y.rx else y.tx) ∧
        (k.sw ≠ none → y = x ∧ t.eng.zw.status.getLsbD 5 = true) ∧
        (k.sw = none → k'.act = k.act ∧ (if k.act = k.slot.ok then k'.s0 else k'.s1) =
          { key := s.eng.zw.key, salt := s.eng.zw.salt, ok := true })) ∧
      (s.serves m 0x15010 (.wr32 ((v &&& 0xF) ||| 0x20)) = true → v.getLsbD 3 = false → x.tx.sw = none → x.queue = [] → x.fwd = [] → ∃ t,
        exec (.keySwitch m v) s = .next t ∧
        t.eng.port' p.val = { x with tx := { x.tx with sw := some (x.txNext + 63) }, swTold := false, out := false })) ∧
    ((x.out = true ∨ x.tx.sw ≠ none ∨ x.txNext - x.tx.base < 2 ^ 62) → exec (.keyExhausted p) s = .next s) ∧
    (x.out = false → x.tx.sw = none → 2 ^ 62 ≤ x.txNext - x.tx.base → ∃ t, exec (.keyExhausted p) s = .next t ∧
      t.eng.port' p.val = { x with out := true }) ∧
    (∀ (dst : BitVec 8) (cls : Fin 3) (seq : W32) tr (hit : Track → Bool),
      hit = (fun y => y.msg.dst == dst && zCls y.msg.body == cls.val && y.msg.seq == seq) →
      s.eng.zw.tracked.find? hit = some tr → tr.lost = false →
      (s.eng.hth.time.toNat < tr.at_.toNat + 1000 * (s.eng.zw.e2e.toNat % 2 ^ 16) → exec (.e2eTimeout dst cls seq) s = .next s) ∧
      (tr.at_.toNat + 1000 * (s.eng.zw.e2e.toNat % 2 ^ 16) ≤ s.eng.hth.time.toNat → tr.sent < s.eng.zw.e2e.toNat / 2 ^ 16 % 16 → ∃ t, exec (.e2eTimeout dst cls seq) s = .next t ∧
        t.eng.zw.tracked = s.eng.zw.tracked.map fun y => if hit y then { y with sent := y.sent + 1, at_ := s.eng.hth.time } else y) ∧
      (tr.at_.toNat + 1000 * (s.eng.zw.e2e.toNat % 2 ^ 16) ≤ s.eng.hth.time.toNat → s.eng.zw.e2e.toNat / 2 ^ 16 % 16 ≤ tr.sent → ∃ t, exec (.e2eTimeout dst cls seq) s = .next t ∧
        t.eng.zw.status.getLsbD 1 = true ∧
        t.eng.zw.tracked = s.eng.zw.tracked.map fun y => if hit y then { y with lost := true } else y))
/-- R342, R343, R344, R345, R354. A granted commit of a clapper pair sets the clapper, or adds to it through the alias, in one operation;
a refused one leaves it. A bank serves, of the operations that wait and those presented in this cycle, the first of the requester whose
turn comes first after the one served last; the others keep waiting, and an operation that the register port has checked is not checked
again (R351). Every waiter that the value left satisfies is released. R308: on the lead a commit by which an arrive clapper reaches
count × (gen + 1) puts the release of gen + 1 at its own bank and sends it to every other live position; a commit that reaches none
sends nothing; a release that a bank serves sets gen. The model's choices: a release is checked under the peer master (log 14), and
'reaches' is the crossing from below (log 173). -/
def Obligations.ClappersServeOneOperationAtATime : Prop :=
  ∀ s : State, s.runs = true →
    (∀ (m : Fin 64) (n : Fin 8192) (v : W64) (c : Instr) (kind : ClpKind) (new : W64) (reaches : Barrier → Prop),
      (reaches = fun b => b.cfg.toNat / 2 ^ 31 = 1 ∧ b.cfg.toNat % 2 ^ 13 = n.val ∧ s.eng.hth.isLead = true ∧
        (s.eng.clap n.val).toNat < b.cnt * (b.gen.toNat + 1) ∧ b.cnt * (b.gen.toNat + 1) ≤ new.toNat) →
      ((s.serves m (0x20000 + 8 * n.val) (.wr64 v) = true ∧ c = .clpValCommit m n v ∧ kind = .set ∧ new = v) ∨
        (s.serves m (0x30000 + 8 * n.val) (.wr64 v) = true ∧ c = .clpAddCommit m n v ∧ kind = .add ∧
          new = s.eng.clap n.val + v)) →
      (s.eng.clp.queues.get [] (n.val % 16) ≠ [] → ∃ t, exec c s = .next t ∧ (∀ k, t.eng.clap k = s.eng.clap k) ∧
        t.eng.clp.queues.get [] (n.val % 16) = s.eng.clp.queues.get [] (n.val % 16) ++
          [{ req := 9, master := m, clapper := n, kind := kind, val := v, dst := none, peer := none, cmd := none, granted := true }]) ∧
      (s.eng.clp.queues.get [] (n.val % 16) = [] → ∃ t, exec c s = .next t ∧ (∀ k, t.eng.clap k = if k = n.val then new else s.eng.clap k) ∧
        t.eng.dev = s.eng.dev ∧ t.eng.host = s.eng.host ∧ t.ao = s.ao ∧ t.eng.clp.last.get 11 (n.val % 16) = 9 ∧
        (∀ (d : Fin 8) dst eq val dl, (s.eng.dir d.val).st = .waiting → (s.eng.dir d.val).wait = .clapper dst n eq val dl →
          t.eng.dir d.val = if (if eq then new = val else val.toNat ≤ new.toNat) then (s.eng.dir d.val).cont.putI dst 0
            else s.eng.dir d.val) ∧
        t.eng.hth = s.eng.hth ∧
        ((∀ i < 16, ¬ reaches (s.eng.hth.bars.get {} i)) → t.eng.zw = s.eng.zw ∧ t.eng.clp.queues = s.eng.clp.queues) ∧
        (∀ i < 16, ∀ (b : Barrier) (rel : Nat) (val : W64), b = s.eng.hth.bars.get {} i → reaches b →
          rel = b.cfg.toNat / 2 ^ 16 % 2 ^ 13 → val = BitVec.ofNat 64 (b.gen.toNat + 1) →
          (∃ r ∈ t.eng.clp.queues.get [] (rel % 16), r.req = 11 ∧ r.clapper.val = rel ∧ r.kind = .set ∧ r.val = val ∧
            r.master = s.eng.gln.peerMaster) ∧
          (∀ p < 256, s.eng.hth.live.getLsbD p = true → p ≠ s.eng.hth.pos →
            (p, ZBody.clpOp (BitVec.ofNat 13 rel) 0 val, Purpose.barrier) ∈ t.eng.zw.blocked ∨
            ∃ x ∈ t.eng.zw.tracked, x.msg.dst.toNat = p ∧ x.msg.body = .clpOp (BitVec.ofNat 13 rel) 0 val ∧ x.use = .barrier)))) ∧
    (∀ (bank : Fin 16) (pres : List ClpPres) (q : List ClpReq), q = s.eng.clp.queues.get [] bank.val ++
        (pres.filter fun p => decide (p.clapper.val % 16 = bank.val)).map (fun p =>
          { req := p.req, master := p.master, clapper := p.clapper, kind := p.kind, val := p.val, dst := p.dst, peer := p.peer,
            cmd := p.cmd }) → s.eng.port.waiting = [] →
      (q = [] → exec (.clapperBankOperation bank pres) s = .next s) ∧
      (∀ pre r post turn, q = pre ++ r :: post → r.clapper.val % 16 = bank.val →
        turn = (fun x : ClpReq => (x.req.val + 11 - s.eng.clp.last.get 11 bank.val % 12) % 12) →
        (∀ x ∈ q, turn r ≤ turn x) → (∀ x ∈ pre, turn x ≠ turn r) →
        (r.granted = true ∨ s.eng.acc.firstDenied 1 r.master (r.kind == .fetchAdd) true r.clapper.val 1 = none →
          ∃ t, exec (.clapperBankOperation bank pres) s = .next t ∧
            (∀ k, t.eng.clap k = if k = r.clapper.val then
              (if r.kind = .set then (if r.keepLow then r.val.extractLsb' 32 32 ++ (s.eng.clap k).setWidth 32 else r.val)
                else s.eng.clap k + r.val) else s.eng.clap k) ∧
            t.eng.clp.last.get 11 bank.val = r.req.val ∧ t.eng.dev = s.eng.dev ∧ t.eng.host = s.eng.host ∧ t.ao = s.ao ∧
            (∀ b < 16, t.eng.hth.bars.get {} b =
              if (s.eng.hth.bars.get {} b).cfg.getLsbD 31 = true ∧ (s.eng.hth.bars.get {} b).cfg.toNat / 2 ^ 16 % 2 ^ 13 = r.clapper.val ∧
                r.kind = .set ∧ 10 ≤ r.req.val
              then { s.eng.hth.bars.get {} b with gen := (t.eng.clap r.clapper.val).setWidth 32 } else s.eng.hth.bars.get {} b) ∧
            ((∀ b < 16, (s.eng.hth.bars.get {} b).cfg.getLsbD 31 = false) →
              t.eng.clp.queues.get [] bank.val = pre ++ post) ∧
            (∀ d reg, r.dst = some (d, reg) → (s.eng.dir d.val).wait = .fetchAdd →
              t.eng.dir d.val = ((s.eng.dir d.val).putI reg
                (if r.kind = .fetchAdd then s.eng.clap r.clapper.val else 0)).cont)) ∧
        (r.granted = false → s.eng.acc.firstDenied 1 r.master (r.kind == .fetchAdd) true r.clapper.val 1 ≠ none →
          ∃ t, exec (.clapperBankOperation bank pres) s = .next t ∧ (∀ k, t.eng.clap k = s.eng.clap k) ∧
            t.eng.clp.queues.get [] bank.val = pre ++ post ∧ t.eng.acc.denyValid = true)))

/-- R355, R358. The write of word 3 commits a stream's key, or its counter, with the words placed before it, a word that was not placed
keeping its value; nothing of the other streams or of the SAMPLEs already accepted changes. -/
def Obligations.SamplerCommitsKeysAndCounters : Prop :=
  ∀ (s : State) (m : Fin 64) (n : Fin 256) (v : W32) (st : Stream), st = s.eng.smp.stream n.val →
    (s.serves m (0x1800C + 0x40 * n.val) (.wr32 v) = true → ∃ t k, exec (.smpKeyCommit m n v) s = .next t ∧
      t.eng.smp.stream n.val = { st with k := k, kst := [] } ∧
      (∀ i < 3, k.toNat / 2 ^ (32 * i) % 2 ^ 32 = match st.kst.get none i with
        | some w => w.toNat
        | none => st.k.toNat / 2 ^ (32 * i) % 2 ^ 32) ∧
      k.toNat / 2 ^ 96 = v.toNat ∧ (∀ j, j ≠ n.val → t.eng.smp.stream j = s.eng.smp.stream j) ∧
      t.eng.smp.jobs = s.eng.smp.jobs ∧ t = { s with eng := { s.eng with smp := t.eng.smp } }) ∧
    (s.serves m (0x1801C + 0x40 * n.val) (.wr32 v) = true → ∃ t c, exec (.smpCtrCommit m n v) s = .next t ∧
      t.eng.smp.stream n.val = { st with c := c, cst := [] } ∧
      (∀ i < 3, c.toNat / 2 ^ (32 * i) % 2 ^ 32 = match st.cst.get none i with
        | some w => w.toNat
        | none => st.c.toNat / 2 ^ (32 * i) % 2 ^ 32) ∧
      c.toNat / 2 ^ 96 = v.toNat ∧ (∀ j, j ≠ n.val → t.eng.smp.stream j = s.eng.smp.stream j) ∧
      t.eng.smp.jobs = s.eng.smp.jobs ∧ t = { s with eng := { s.eng with smp := t.eng.smp } })

/-- R143, R184, R288, R289, R292, R342, R346. The engine serves its peers under LE_GLN_PEER_MASTER. A read request that a serve buffer
has held longest is answered with its sectors, one message each, or with one denial; a run with one or two messages; a write is
performed and acknowledged; a clapper operation acts on its clapper and is acknowledged. What its tables deny has no effect but the
answer. Each takes the oldest message of its type, whose cells are then owed to the far end. The model's choices: one denial stands
for a whole refused read (log 189), and a clapper operation of a reserved code is discarded and counted (log 107). -/
def Obligations.PeersAreServedAndAnswered : Prop :=
  ∀ (s : State) (pm : Fin 64), s.runs = true → pm = s.eng.gln.peerMaster →
    (∀ (gl : Fin 64) z rest sec tier n1 (a n : Nat) bad ok, s.eng.gln.serve = (gl, z) :: rest → z.body = .readReq sec tier n1 →
      (∀ y ∈ s.eng.zw.inbox, ∀ u v w, y.body ≠ .readReq u v w) → s.eng.inReset 1 = false → a = sec.toNat * 64 → n = n1.toNat + 1 →
      ok = (fun i : Nat => decide (s.eng.answer (a + 64 * i) 64 (if i ∈ bad then .uncorr else .ok) = .ok)) →
      (s.eng.swdWaits a (64 * n) = true → exec (.readRequest bad) s = .next s) ∧
      (s.eng.swdWaits a (64 * n) = false → s.eng.sendsNow z.src [] → ∃ t, exec (.readRequest bad) s = .next t ∧
        t.eng.gln.serve = rest ∧ t.eng.zw.inbox = s.eng.zw.inbox ∧ t.eng.dirs = s.eng.dirs ∧ t.ao = s.ao ∧
        (s.eng.mp.firstHole a (64 * n) = none → s.eng.acc.firstDenied 3 pm true false a (64 * n) = none →
          t.eng.dev = s.eng.dev ∧ t.eng.gln.serveDenied = s.eng.gln.serveDenied ∧ s.Sends t z.src ((List.range n).map fun i =>
            if ok i then .readRsp (BitVec.ofNat 8 i) false false (s.eng.rdDev false (a + 64 * i) 64)
            else .readRsp (BitVec.ofNat 8 i) false true [])) ∧
        ((s.eng.mp.firstHole a (64 * n) ≠ none ∨ s.eng.acc.firstDenied 3 pm true false a (64 * n) ≠ none) →
          t.eng.gln.serveDenied = true ∧ s.Sends t z.src [.readRsp 0 true false []]))) ∧
    (∀ (pre post : List ZMsg) (z : ZMsg), s.eng.zw.inbox = pre ++ z :: post → s.eng.sendsNow z.src [] →
      (∀ a, z.arr = some a → a.owes = true → ((s.took pre post z).eng.port' a.port).owed.get 0 a.chan =
        (s.eng.port' a.port).owed.get 0 a.chan + zCells z.body) ∧
      (∀ a bs r, z.body = .write a bs → (∀ y ∈ pre, ∀ u v, y.body ≠ .write u v) →
        ∃ t, exec (.write r) s = .next t ∧ t.eng.zw.inbox = pre ++ post ∧ t.eng.dirs = s.eng.dirs ∧ t.ao = s.ao ∧
          (s.eng.wideOk pm false true a.toNat bs.length →
            (s.eng.answer a.toNat bs.length r = .ok → t.eng.dev = s.eng.dev.wrN a.toNat bs ∧ s.Sends t z.src [.writeAck 0]) ∧
            (s.eng.answer a.toNat bs.length r ≠ .ok → t.eng.dev = s.eng.dev ∧ s.Sends t z.src [.writeAck 2])) ∧
          (¬ s.eng.wideOk pm false true a.toNat bs.length → s.Sends t z.src [.writeAck 1])) ∧
      (∀ sec tier n1 (a n : Nat) (xs : List (Nat × Nat)) bad ok, z.body = .streamReq sec tier n1 →
        (∀ y ∈ pre, ∀ u v w, y.body ≠ .streamReq u v w) → a = sec.toNat * 64 → n = n1.toNat + 1 →
        xs = (if n ≤ 32 then [(0, n)] else [(0, 32), (32, n - 32)]) →
        ok = (fun x : Nat × Nat => decide (s.eng.answer (a + 64 * x.1) (64 * x.2)
          (if ∃ i ∈ bad, x.1 ≤ i ∧ i < x.1 + x.2 then .uncorr else .ok) = .ok)) → ∃ (t : State) (d : Nat → List Byte),
          exec (.streamRequest bad) s = .next t ∧ t.eng.zw.inbox = pre ++ post ∧ t.eng.dirs = s.eng.dirs ∧ t.ao = s.ao ∧
          (s.eng.wideOk pm true false a (64 * n) → t.eng.dev = s.eng.dev ∧
            (∀ x ∈ xs, if ok x then d x.1 = s.eng.rdDev true (a + 64 * x.1) (64 * x.2) else (d x.1).length = 64 * x.2) ∧
            s.Sends t z.src (xs.map fun x => .streamData (BitVec.ofNat 8 x.1) false (!ok x) (d x.1))) ∧
          (¬ s.eng.wideOk pm true false a (64 * n) → t.eng.gln.serveDenied = true ∧ (∀ x ∈ xs, (d x.1).length = 64 * x.2) ∧
            s.Sends t z.src (xs.map fun x => .streamData (BitVec.ofNat 8 x.1) true false (d x.1)))) ∧
      (∀ cl op v, z.body = .clpOp cl op v → (∀ y ∈ pre, ∀ u v w, y.body ≠ .clpOp u v w) →
        ∃ t, exec .clapperOperation s = .next t ∧ t.eng.zw.inbox = pre ++ post ∧ t.ao = s.ao ∧
          (2 ≤ op.toNat → t = { s.took pre post z with eng := (s.took pre post z).eng.countZw 2 1 }) ∧
          (op.toNat < 2 → s.eng.clp.queues.get [] (cl.toNat % 16) ≠ [] → t.eng.clp.vals = s.eng.clp.vals ∧ ∃ r,
            t.eng.clp.queues.get [] (cl.toNat % 16) = s.eng.clp.queues.get [] (cl.toNat % 16) ++ [r] ∧ r.req = 10 ∧ r.master = pm ∧
            r.clapper.val = cl.toNat ∧ r.kind = (if op = 0 then .set else .add) ∧ r.val = v ∧ r.peer = some (z.src, z.seq)) ∧
          (op.toNat < 2 → s.eng.clp.queues.get [] (cl.toNat % 16) = [] → s.eng.acc.firstDenied 1 pm false true cl.toNat 1 = none →
            (∀ k, t.eng.clap k = if k = cl.toNat then (if op = 0 then v else s.eng.clap k + v) else s.eng.clap k) ∧
            ((∀ b < 16, (s.eng.hth.bars.get {} b).cfg.getLsbD 31 = false) → s.Sends t z.src [.clpAck false])) ∧
          (op.toNat < 2 → s.eng.clp.queues.get [] (cl.toNat % 16) = [] → s.eng.acc.firstDenied 1 pm false true cl.toNat 1 ≠ none →
            (∀ k, t.eng.clap k = s.eng.clap k) ∧ s.Sends t z.src [.clpAck true])))

/-- R80, R114, R142, R184, R195, R216, R288, R346. An answer from a peer goes to the oldest message of its kind sent there that it can
answer: sectors to the gather or the SWEEP that asked, a write's outcome to its OPT or TOPK, a clapper's outcome to its SIGNAL or its
director. An answer to nothing is discarded, and so is a read's answer whose gather has ended. That the answers, which carry no number, go
to the oldest request that lacks them is the model's reading (log 22). -/
def Obligations.AnswersReachTheirRequests : Prop :=
  ∀ (s : State) (pre post : List ZMsg) (z : ZMsg) (tr : Track) (mine : Track → Bool), s.runs = true →
    s.eng.zw.inbox = pre ++ z :: post → s.eng.zw.blocked = [] →
    (∀ idx de un data, z.body = .readRsp idx de un data → (∀ y ∈ pre, ∀ a b c d, y.body ≠ .readRsp a b c d) →
      mine = (fun y => y.msg.dst == z.src && match y.msg.body with
        | .readReq _ _ n => decide (idx.toNat ≤ n.toNat) && !y.got.any fun x => x.1 == idx.toNat
        | _ => false) →
      (s.eng.zw.tracked.find? mine = none → exec (.readResponse []) s = .next (s.took pre post z)) ∧
      (∀ sec tier n, s.eng.zw.tracked.find? mine = some tr → tr.msg.body = .readReq sec tier n → tr.use = .left → ∃ t,
        exec (.readResponse []) s = .next t ∧ t.eng.gln.gleans = s.eng.gln.gleans ∧ t.eng.dev = s.eng.dev ∧
        t.eng.zw.tracked = (if de = true ∨ tr.got.length = n.toNat then s.eng.zw.tracked.erase tr
          else s.eng.zw.tracked.map fun y => if y = tr then { tr with got := tr.got ++ [(idx.toNat, [])] } else y)) ∧
      (∀ sec tier n k pos i, s.eng.zw.tracked.find? mine = some tr → tr.msg.body = .readReq sec tier n → tr.use = .read k pos i →
        (de = false → un = false → tr.got.length < n.toNat → ∃ t, exec (.readResponse []) s = .next t ∧
          t.eng.zw.tracked = (s.eng.zw.tracked.map fun y => if y = tr then { tr with got := tr.got ++ [(idx.toNat, data)] } else y) ∧
          t.eng.gln.gleans = s.eng.gln.gleans) ∧
        (∀ g x p, s.eng.glean k = some g → g.out = false → g.part pos i = some (x, p) → p.st = .issued →
          (de = false → un = false → n = 0 → tr.got = [] → data ≠ [] → ∃ t, exec (.readResponse []) s = .next t ∧
            t.eng.zw.tracked = s.eng.zw.tracked.erase tr ∧ t.eng.dev = s.eng.dev ∧
            t.eng.glean k = some (g.setPart pos i fun q => ({ q with chunks := q.chunks ++ [(sec.toNat, data)] } : Part).assemble) ∧
            (p.chunks = [] → p.bad = false → data.length = 64 → p.sectors = [64 * sec.toNat] →
              ({ p with chunks := [(sec.toNat, data)] } : Part).assemble =
                { p with chunks := [(sec.toNat, data)], st := .got ((data.drop (p.addr % 64)).take p.bytes) })) ∧
          (de = false → un = true → tr.got.length < n.toNat → ∃ t h, exec (.readResponse []) s = .next t ∧
            t.eng.zw.tracked = (s.eng.zw.tracked.map fun y => if y = tr then { tr with got := tr.got ++ [(idx.toNat, [])] } else y) ∧
            t.eng.glean k = some h ∧ pos ∈ h.told ∧ ∀ y ∈ h.elems, y.pos = pos → y.outc.getLsbD 5 = true) ∧
          (de = true → ∃ t, exec (.readResponse []) s = .next t ∧ t.eng.zw.tracked = s.eng.zw.tracked.erase tr ∧
            t.eng.glean k = some ((g.setElem pos fun y => { y with outc := y.outc ||| 0x08 }).setPart pos i fun q =>
              ({ q with chunks := q.chunks ++ [(sec.toNat, List.replicate (64 * (n.toNat + 1)) 0)], bad := true } : Part).assemble))))) ∧
    (∀ st, z.body = .writeAck st → (∀ y ∈ pre, ∀ a, y.body ≠ .writeAck a) →
      mine = (fun y => y.msg.dst == z.src && match y.msg.body with
        | .write .. => true
        | _ => false) →
      (s.eng.zw.tracked.find? mine = none → exec .writeAcknowledgement s = .next (s.took pre post z)) ∧
      (s.eng.zw.tracked.find? mine = some tr →
        (∀ lane c, tr.use = .replica lane → s.eng.ted.lanes.get none lane.val = some c → ∃ t,
          exec .writeAcknowledgement s = .next t ∧ t.eng.zw.tracked = s.eng.zw.tracked.eraseP mine ∧
          t.eng.ted.lanes.get none lane.val = some { c with peers := c.peers - 1 } ∧
          (st = 0 → t.eng.ted.opts = s.eng.ted.opts) ∧
          (∀ o, st ≠ 0 → s.eng.optOf c.k = some o → ∃ o', t.eng.optOf c.k = some o' ∧ o'.fault = true)) ∧
        (∀ k j, tr.use = .topk k → s.eng.topkOf k = some j →
          (st ≠ 0 → ∃ t, exec .writeAcknowledgement s = .next t ∧ t.eng.zw.tracked = s.eng.zw.tracked.eraseP mine ∧
            t.eng.topkOf k = some { j with fault := true }) ∧
          (st = 0 → (j.fault = true ∨ j.outs = some []) → ∃ t, exec .writeAcknowledgement s = .next t ∧
            t.eng.zw.tracked = s.eng.zw.tracked.eraseP mine ∧ t.eng.topkOf k = some j) ∧
          (∀ p rest b, st = 0 → j.fault = false → j.outs = some (p :: rest) → s.eng.hth.isFailed j.dpos.toNat = false →
            b = ZBody.write (BitVec.ofNat 64 p.1) p.2 → s.eng.sendsNow j.dpos [b] → ∃ t,
            exec .writeAcknowledgement s = .next t ∧ t.eng.topkOf k = some { j with outs := some rest } ∧ s.Sends t j.dpos [b])))) ∧
    (∀ idx de un data, z.body = .streamData idx de un data → (∀ y ∈ pre, ∀ a b c d, y.body ≠ .streamData a b c d) →
      mine = (fun y => y.msg.dst == z.src && match y.msg.body with
        | .streamReq _ _ n => decide (idx.toNat ≤ n.toNat) && !y.got.any fun x => x.1 == idx.toNat
        | _ => false) →
      (s.eng.zw.tracked.find? mine = none → exec .streamData s = .next (s.took pre post z)) ∧
      (∀ sec tier n1 (n cnt : Nat) k j, s.eng.zw.tracked.find? mine = some tr → tr.msg.body = .streamReq sec tier n1 →
        tr.use = .stream k → s.eng.sweepOf k = some j → n = n1.toNat + 1 → cnt = (if idx.toNat = 0 then min n 32 else n - idx.toNat) →
        ∃ t j', exec .streamData s = .next t ∧ t.eng.sweepOf k = some j' ∧
          t.eng.zw.tracked = (if tr.got.length + 1 = (if n ≤ 32 then 1 else 2) then s.eng.zw.tracked.erase tr
            else s.eng.zw.tracked.map fun y => if y = tr then { tr with got := tr.got ++ [(idx.toNat, [])] } else y) ∧
          (de = true → j' = { j with fault := true }) ∧
          (de = false → j' = { j with arrived := j'.arrived } ∧ ∀ i < cnt,
            j'.arrived.get none (peerSector z.src.toNat (sec.toNat + idx.toNat + i)) =
              some (if un then none else some ((data.drop (64 * i)).take 64))))) ∧
    (∀ de, z.body = .clpAck de → (∀ y ∈ pre, ∀ a, y.body ≠ .clpAck a) →
      mine = (fun y => y.msg.dst == z.src && match y.msg.body with
        | .clpOp .. => true
        | _ => false) →
      (s.eng.zw.tracked.find? mine = none → exec .clapperAcknowledgement s = .next (s.took pre post z)) ∧
      (s.eng.zw.tracked.find? mine = some tr →
        (∀ (reel : Fin 64) (count : W24) xs c ys, tr.use = .signal reel count → (s.eng.reel reel.val).inflight = xs ++ c :: ys →
          c.count = count → c.finished = false → (∀ y ∈ xs ++ ys, y.count ≠ count) → ∃ t, exec .clapperAcknowledgement s = .next t ∧
          t.eng.zw.tracked = s.eng.zw.tracked.eraseP mine ∧
          (t.eng.reel reel.val).inflight = xs ++ { c with phase := .done (if de then 3 else 0) 0 (s.eng.endDetail c) } :: ys) ∧
        (∀ (d : Fin 8) cl, tr.use = .posted d cl → (s.eng.dir d.val).st = .running → ∃ t,
          exec .clapperAcknowledgement s = .next t ∧ t.eng.zw.tracked = s.eng.zw.tracked.eraseP mine ∧
          t.eng.dir d.val = { s.eng.dir d.val with peerOps := (s.eng.dir d.val).peerOps - 1 } ∧
          t.eng.clp = { s.eng.clp with peerDenied := s.eng.clp.peerDenied || de })))

/-- R299 to R306, R309, R312, R317, R376. A write of join makes an engine of a configured heath joining, and floods its HELLO; joining
ends when every position was heard, or at its timeout with a quorum, and else in isolation; the lead is position 0 where it prefers, or
else the one with the lowest serial. LEAD, HEARTBEAT, FAILED and LINK_DOWN are obeyed, and a flooded message that was seen is dropped.
Three missed periods in a row declare a position failed, no quorum isolates the engine, and the lowest live position follows a failed
lead. A mismatched neighbour's port goes down. Periods of 10 µs and repeats of 1 ms go by the time base. A failure the lead declares
queues the release of (gen + 1) | 2^63 of every enabled barrier slot. The model's choices: an isolated engine sends no heartbeats (log
88), every engine admits a failed position again (log 103), what a LEAD and a seen HELLO do to an engine that joins or is isolated (log
104), a join has no effect unless alone (log 106), the periods go by the time base (log 112), and a reported version stands for itself
while none is known (log 218). -/
def Obligations.HeathJoinsElectsAndDeclares : Prop :=
  ∀ (s : State) (h : Hth) (lives now : Nat) (fs : W32), h = s.eng.hth → s.runs = true → now = h.time.toNat / 10000 →
    lives = ((List.range 8).filter fun p => (s.eng.port' p).st == .live).length → fs = s.eng.zw.floodSeq →
    (∀ m : Fin 64, s.serves m 0x16008 (.wr32 1) = true →
      (h.st = .alone → s.ao.fwBad = false → hthCfgOk h.cfg.toNat = true → h.shape ≠ 0 →
        ((∃ q < h.size, q ≠ h.pos) → ∃ t, exec (.join m) s = .next t ∧
          t.eng.hth = { h with st := .joining, joinAt := h.time, live := 0, failed := 0, cut := [], led := false, period := now,
                               hellos := SMap.set none [] h.pos (some h.hello) } ∧
          t.eng.zw.seen = (s.eng.zw.seen.filter fun k => k.1 != 0) ++ [(0, h.pos, h.serial.toNat, 0)] ∧
          (s.eng.busy 7 = false → t.eng.outgoing.Perm (s.eng.outgoing ++ List.replicate lives (0, fs, .hello h.hello)))) ∧
        ((∀ q < h.size, q = h.pos) → ∃ t, exec (.join m) s = .next t ∧ t.eng.hth.st = .lead ∧ t.eng.hth.lead = h.pos ∧
          t.eng.hth.term = h.term + 1)) ∧
      (h.st = .alone → (s.ao.fwBad = true ∨ hthCfgOk h.cfg.toNat = false) →
        exec (.join m) s = .next { s with eng := { s.eng with hth := { h with cfgBusy := true } } }) ∧
      ((h.st ≠ .alone ∨ (s.ao.fwBad = false ∧ hthCfgOk h.cfg.toNat = true ∧ h.shape = 0)) → exec (.join m) s = .next s)) ∧
    ((h.st ≠ .joining ∨ h.time.toNat < h.joinAt.toNat + 1000000000) → exec .joinTimeout s = .next s) ∧
    (h.st = .joining → h.joinAt.toNat + 1000000000 ≤ h.time.toNat →
      (h.quorum h.greeted = false → h.led = false → ∃ t, exec .joinTimeout s = .next t ∧
        t.eng.hth = { h with st := .isolated, claim := false }) ∧
      (h.quorum h.greeted = false → h.led = true → ∃ t, exec .joinTimeout s = .next t ∧ t.eng.hth.st = .member ∧
        t.eng.hth.lead = h.lead ∧ t.eng.hth.term = h.term ∧ t.eng.hth.mayStep = true ∧
        (∀ q < 256, t.eng.hth.live.getLsbD q = (decide (q < h.size) && !h.isFailed q)) ∧
        ∀ q < 256, t.eng.hth.rejoined.getLsbD q = true) ∧
      (h.quorum h.greeted = true → h.led = true → h.lead ≠ h.pos → ∃ t, exec .joinTimeout s = .next t ∧ t.eng.hth.st = .member ∧
        t.eng.hth.lead = h.lead ∧ ∀ q < 256, t.eng.hth.live.getLsbD q = decide (q ∈ h.greeted)) ∧
      (∀ lead x (g : Hth), h.led = false → h.quorum h.greeted = true → h.pos ∈ h.greeted → h.hellos.get none lead = some x → lead < 256 →
        (if (h.hellos.get none 0).any (·.pref) then lead = 0
          else ∀ q y, q < 256 → q ≠ lead → h.hellos.get none q = some y → x.serial.toNat < y.serial.toNat) →
        g = { h with live := posSet h.greeted,
                     failed := h.failed ||| posSet ((List.range h.size).filter fun q => !h.greeted.contains q) } →
        ∃ t, exec .joinTimeout s = .next t ∧ t.eng.hth.lead = lead ∧
          (∀ q < h.size, q < 256 → q ∉ h.greeted → t.eng.hth.isFailed q = true) ∧
          (lead = h.pos → t.eng.hth.term = h.term + 1 ∧ ((h.shape ≠ 2 ∨ g.order.isSome = true) → t.eng.hth.st = .lead)) ∧
          (lead ≠ h.pos → t.eng.hth.st = .member ∧ t.eng.hth.term = h.term ∧
            ∀ q < 256, t.eng.hth.live.getLsbD q = decide (q ∈ h.greeted)))) ∧
    ((now ≤ h.period ∨ h.st = .alone ∨ h.st = .isolated) → exec .heartbeatPeriod s = .next s) ∧
    (h.st = .joining → h.period < now → ∃ t, exec .heartbeatPeriod s = .next t ∧ t.eng.hth = { h with period := now } ∧
      (s.eng.busy 7 = false → t.eng.outgoing.Perm (s.eng.outgoing ++ List.replicate lives (0, fs, .hello h.hello)))) ∧
    (∀ others, (h.st = .member ∨ h.st = .lead) → h.period < now → others = h.liveList.filter (· != h.pos) →
      (h.quorum h.liveList = true → (∀ p ∈ others, h.heard.getLsbD p = true ∨ h.missed.get 0 p < 2) → ∃ t,
        exec .heartbeatPeriod s = .next t ∧
        t.eng.hth = { h with missed := t.eng.hth.missed, heard := 0, beat := h.beat + 1, period := now,
                             again := if h.acts = true then [] else h.again } ∧
        (∀ p ∈ others, t.eng.hth.missed.get 0 p = if h.heard.getLsbD p then 0 else h.missed.get 0 p + 1) ∧
        ((h.again = [] ∨ h.acts = false) → (∀ p ∈ others, s.eng.sendsNow (BitVec.ofNat 8 p) []) →
          t.eng.outgoing.Perm (s.eng.outgoing ++ others.map fun p =>
            (BitVec.ofNat 8 p, s.eng.zw.txSeq.get 0 (3 * p + 2), .heartbeat { s.eng.beat with beat := h.beat + 1 }))) ∧
        (∀ (p : BitVec 8) b, h.again = [p.toNat] → h.acts = true → p.toNat ≠ h.pos →
          b = ZBody.commit h.commit.1 h.commit.2.1 h.commit.2.2 → s.eng.sendsNow p [b] →
          (p, s.eng.zw.txSeq.get 0 (3 * p.toNat + 2), b) ∈ t.eng.outgoing)) ∧
      (∀ near, near = (h.liveList.filter fun p => p == h.pos || h.heard.getLsbD p || decide (h.missed.get 0 p < 2)) →
        (h.quorum near = false → ∃ t, exec .heartbeatPeriod s = .next t ∧ t.eng.hth.st = .isolated ∧ t.eng.hth.claim = false) ∧
        (∀ p ∈ others, h.quorum near = true → p ∉ near →
          (h.st = .lead → ∃ t, exec .heartbeatPeriod s = .next t ∧ t.eng.hth.isFailed p = true ∧
            (h.isFailed p = false → ∀ i < 16, ∀ (b : Barrier) (rel : Nat), b = h.bars.get {} i → b.cfg.getLsbD 31 = true →
              rel = b.cfg.toNat / 2 ^ 16 % 2 ^ 13 → ∃ r ∈ t.eng.clp.queues.get [] (rel % 16), r.req = 11 ∧ r.clapper.val = rel ∧
                r.kind = .set ∧ r.val = BitVec.ofNat 64 (b.gen.toNat + 1) ||| (1#64 <<< 63))) ∧
          (∀ g : Hth, g = { h with live := h.live &&& ~~~posBit p, failed := h.failed ||| posBit p } →
            (h.shape ≠ 2 ∨ g.order.isSome = true) → h.st = .member → p = h.lead → h.isFailed p = false → h.pos ∈ h.liveList →
            (∀ q ∈ h.liveList, q ≠ p → h.pos ≤ q) → ∃ t, exec .heartbeatPeriod s = .next t ∧ t.eng.hth.isFailed p = true ∧
              t.eng.hth.st = .lead ∧ t.eng.hth.lead = h.pos ∧ t.eng.hth.term = h.term + 1)))) ∧
    ((h.st ≠ .lead ∨ h.time.toNat < h.saidAt.toNat + 1000000) → exec .failedRepeat s = .next s) ∧
    (h.st = .lead → h.saidAt.toNat + 1000000 ≤ h.time.toNat → ∃ t, exec .failedRepeat s = .next t ∧
      t.eng.hth = { h with saidAt := h.time } ∧ (s.eng.busy 7 = false → t.eng.outgoing.Perm (s.eng.outgoing ++
        h.said.zipIdx.flatMap fun x => List.replicate lives (0, fs + BitVec.ofNat 32 x.2, .failed h.term x.1.1 x.1.2)))) ∧
    (∀ (pre post : List ZMsg) (z : ZMsg) (seen : Bool), s.eng.zw.inbox = pre ++ z :: post →
      seen = s.eng.zw.seen.contains (zFloodKey z) →
      (∀ (port : Fin 8) x p, z.dst.toNat = port.val → z.body = .hello x → p = x.position.toNat →
        (∀ y ∈ pre, ∀ u, y.dst.toNat = port.val → y.body ≠ .hello u) →
        (h.st = .alone → exec (.hello port) s = .next (s.took pre post z)) ∧
        (h.st ≠ .alone → (h.farPos port ≠ some z.src.toNat ∨
            (p = z.src.toNat ∧ (x.heathId ≠ h.id ∨ x.shape ≠ h.shapeBits))) → ∃ t, exec (.hello port) s = .next t ∧
          t.eng.hth = { h with mismatch := true } ∧
          ((s.eng.port' port).st ≠ .dark → (t.eng.port' port).st = .down)) ∧
        (h.st ≠ .alone → h.farPos port = some z.src.toNat → (p = z.src.toNat → x.heathId = h.id ∧ x.shape = h.shapeBits) →
          ((0, p, x.serial.toNat, 0) ∈ s.eng.zw.seen → ∃ g : Hth,
            g = (if h.live.getLsbD p then { h with heard := h.heard ||| posBit p } else h) ∧
            exec (.hello port) s = .next { s.took pre post z with eng := { (s.took pre post z).eng with hth := g } }) ∧
          ((0, p, x.serial.toNat, 0) ∉ s.eng.zw.seen → ∃ t, exec (.hello port) s = .next t ∧
            ((h.st ≠ .joining ∨ t.eng.hth.st = .joining) → (0, p, x.serial.toNat, 0) ∈ t.eng.zw.seen) ∧
            t.eng.hth.hellos = h.hellos.set none p (some x) ∧
            (h.st = .joining → (t.eng.hth.st = .joining ↔ ∃ q < h.size, q ≠ p ∧ h.hellos.get none q = none)) ∧
            (h.st ≠ .joining → h.isFailed p = true → p ≠ h.pos → t.eng.hth.isFailed p = false ∧
              t.eng.hth.live.getLsbD p = true ∧ t.eng.hth.rejoined.getLsbD p = true ∧ t.eng.hth.st = h.st ∧
              (h.st = .lead → s.eng.busy 7 = false → 0 < lives →
                ∃ n, (0, n, .lead (BitVec.ofNat 8 h.pos) h.term) ∈ t.eng.outgoing))))) ∧
      (∀ p term, z.body = .lead p term → (∀ y ∈ pre, ∀ u v, y.body ≠ .lead u v) →
        ((h.st = .alone ∨ term.toNat < h.term.toNat ∨ (h.st = .lead ∧ term = h.term ∧ h.pos ≤ p.toNat) ∨
          (seen = true ∧ h.st ≠ .joining ∧ h.st ≠ .isolated)) → exec .lead s = .next (s.took pre post z)) ∧
        (h.st ≠ .alone → h.term.toNat ≤ term.toNat → (h.st = .lead → term = h.term → p.toNat < h.pos) →
          (seen = false ∨ h.st = .joining ∨ h.st = .isolated) → ∃ t, exec .lead s = .next t ∧
          t.eng.hth.st = (if h.st = .joining then .joining else .member) ∧ (h.st = .joining → t.eng.hth.led = true) ∧
          t.eng.hth.lead = p.toNat ∧ t.eng.hth.term = term ∧ t.eng.hth.claim = false ∧ t.eng.hth.failed = h.failed ∧
          t.eng.hth.mayStep = (h.mayStep || term != h.term) ∧
          (∀ q < 256, t.eng.hth.live.getLsbD q = if h.st = .isolated then decide (q < h.size) && !h.isFailed q
            else h.live.getLsbD q))) ∧
      (∀ b v, z.body = .heartbeat b → (∀ y ∈ pre, ∀ u, y.body ≠ .heartbeat u) →
        v = (if s.eng.knownVer = 0 then b.mapVer.setWidth 32 else nearVersion s.eng.knownVer b.mapVer) →
        ((h.isFailed z.src.toNat = true ∨ (h.st ≠ .member ∧ h.st ≠ .lead)) → exec .heartbeat s = .next (s.took pre post z)) ∧
        (h.isFailed z.src.toNat = false → (h.st = .member ∨ h.st = .lead) → ∃ t, exec .heartbeat s = .next t ∧
          t.eng.hth.heard = h.heard ||| posBit z.src.toNat ∧
          (¬ (b.claim = true ∧ h.claim = true ∧ z.src.toNat < h.pos) →
            t.eng.hth = { h with heard := h.heard ||| posBit z.src.toNat,
                                 version := if v ≠ 0 ∧ (h.version = 0 ∨ follows v h.version = true) then v else h.version }) ∧
          (b.claim = true → h.claim = true → z.src.toNat < h.pos → t.eng.hth.st = .member ∧
            t.eng.hth.lead = z.src.toNat ∧ t.eng.hth.claim = false))) ∧
      (∀ term pos link, z.body = .failed term pos link → (∀ y ∈ pre, ∀ u v w, y.body ≠ .failed u v w) →
        ((h.st = .alone ∨ term.toNat < h.term.toNat ∨ seen = true) → exec .failed s = .next (s.took pre post z)) ∧
        (h.st ≠ .alone → h.term.toNat ≤ term.toNat → seen = false →
          (∀ p, pos = some p → ∃ t, exec .failed s = .next t ∧ t.eng.hth.isFailed p.toNat = true ∧
            (link = none → h.isFailed p.toNat = true → t.eng.hth = h) ∧
            (∀ g : Hth, g = { h with live := h.live &&& ~~~posBit p.toNat, failed := h.failed ||| posBit p.toNat } →
              (h.shape ≠ 2 ∨ g.order.isSome = true) → link = none → h.st = .member → p.toNat = h.lead → h.isFailed p.toNat = false →
              p.toNat ≠ h.pos → h.pos ∈ h.liveList → (∀ q ∈ h.liveList, q ≠ p.toNat → h.pos ≤ q) →
              h.quorum g.liveList = true → t.eng.hth.st = .lead ∧ t.eng.hth.lead = h.pos ∧ t.eng.hth.term = h.term + 1)) ∧
          (∀ q k, pos = none → link = some (q, k) → ∃ t, exec .failed s = .next t ∧
            t.eng.hth = { h with cut := if (q.toNat, k.toNat) ∈ h.cut then h.cut else h.cut ++ [(q.toNat, k.toNat)] }))) ∧
      (∀ port far, z.body = .linkDown port far → (∀ y ∈ pre, ∀ u v, y.body ≠ .linkDown u v) →
        (((h.st ≠ .lead ∧ z.hop = false) ∨ (z.hop = true ∧ seen = true)) → exec .linkDown s = .next (s.took pre post z)) ∧
        (∀ (q : Nat) near, h.st = .lead → (z.hop = false ∨ seen = false) → h.shape = 1 → q = max z.src.toNat far.toNat →
          near = (h.liveList.filter fun p => p != q) → ∃ t, exec .linkDown s = .next t ∧
          (h.quorum near = true → t.eng.hth.isFailed q = true) ∧
          (h.quorum near = false → t.eng.hth.st = .isolated ∧ t.eng.hth.claim = false)) ∧
        (h.st = .lead → (z.hop = false ∨ seen = false) → h.shape = 2 → ∃ t, exec .linkDown s = .next t ∧
          (z.src.toNat, port.toNat) ∈ t.eng.hth.cut ∧ (none, some (z.src, port)) ∈ t.eng.hth.said)))

/-- R307, R311, R312, R313, R315. The lead sends its time every 100 µs, and a member steps forward to it once and then slews. A write of
rehome makes the lead plan: a lost entry without replicas goes to the survivors' pools, held, and the new map is written to the map
buffer and committed; what does not fit is held without a place and sets capacity. COMMIT stages the map buffer and starts the check,
its result lets the LOAD orders go out or asks for COMMIT again, LOAD is taken and answered, LOAD_STATUS is noted, STATUS_REQ answered,
and verified pieces are released. The model's choices: the plan starts from the active map (log 85), COMMIT's length and CRC are not
checked again (log 86), a piece is placed at the pool's next free multiple of 64 bytes (log 87), a new lead matches reports by map order
(log 108), COMMITs follow the last acknowledgement (log 109), the first correction steps (log 111), and a held entry no LOAD named is
reported with number 0xFFFF (log 201). The piece's load takes an inbound copy engine. -/
def Obligations.TimeBaseAndRehoming : Prop :=
  ∀ (s : State) (h : Hth) (others : List Nat), h = s.eng.hth → s.runs = true → others = h.liveList.filter (· != h.pos) →
    ((h.st ≠ .lead ∨ h.time.toNat < h.baseAt.toNat + 100000) → exec .timeBaseSend s = .next s) ∧
    (h.st = .lead → h.baseAt.toNat + 100000 ≤ h.time.toNat → ∃ t, exec .timeBaseSend s = .next t ∧
      t.eng.hth = { h with baseAt := h.time } ∧ ((∀ p ∈ others, s.eng.sendsNow (BitVec.ofNat 8 p) []) →
        t.eng.outgoing.Perm (s.eng.outgoing ++ others.map fun p =>
          (BitVec.ofNat 8 p, s.eng.zw.txSeq.get 0 (3 * p + 2), .timeBase h.time (BitVec.ofNat 8 h.pos))))) ∧
    (∀ m : Fin 64, s.serves m 0x16008 (.wr32 2) = true →
      ((h.acts = false ∨ s.eng.map.activeVer = 0 ∨ h.await ≠ []) → exec (.rehome m) s = .next s) ∧
      (∀ tb x v b, h.st = .lead → h.acts = true → h.await = [] → h.plan = [] → h.old = [] → h.liveList = [h.pos] →
        h.rejoined.getLsbD h.pos = false → s.eng.map.activeVer ≠ 0 →
        s.eng.map.index = [(tb, (0, 1))] → s.eng.map.ents = [x] → s.eng.map.reps = [] → h.isFailed x.home = true →
        x.home ≠ h.pos → 0 < x.rowCount → s.eng.zw.tracked = [] → s.eng.zw.blocked = [] → v = s.eng.nextVersion →
        b = h.poolBase.toNat → b % 64 = 0 →
        ∃ t p, exec (.rehome m) s = .next t ∧ t.eng.hth.plan = [p] ∧ p.pos = h.pos ∧ p.sent = false ∧ p.status = 0 ∧
          p.entry.home = h.pos ∧ p.entry.hold = true ∧ p.entry.firstRow = x.firstRow ∧ p.entry.rowCount = x.rowCount ∧
          p.order.src = s.eng.srcOf x ∧ t.eng.hth.version = v ∧ t.eng.hth.writing = false ∧
          (∃ n c, t.eng.zw.inbox = s.eng.zw.inbox ++ [
            { vc := false, dst := BitVec.ofNat 8 h.pos, src := BitVec.ofNat 8 h.pos, seq := 0, body := .commit v n c }]) ∧
          (b + x.span ≤ b + h.poolSize.toNat * 2 ^ 30 → p.noRoom = false ∧ p.entry.base = BitVec.ofNat 64 b ∧
            p.order.target = BitVec.ofNat 64 b ∧ p.order.len = BitVec.ofNat 64 x.span ∧ t.eng.hth.capacity = h.capacity ∧
            ∀ img, img = mapImage v.toNat s.eng.map.index [p.entry] [] → s.eng.wideOk 63 false true h.mapbuf.toNat img.length →
              t.eng.dev = s.eng.dev.wrN h.mapbuf.toNat img) ∧
          (b + h.poolSize.toNat * 2 ^ 30 < b + x.span → p.noRoom = true ∧ t.eng.hth.capacity = true))) ∧
    (∀ freed : Ent → Bool, freed = (fun x => x.hold && h.plan.any fun p => p.status == 1 && p.covers x) →
      ((h.acts = false ∨ h.writing = true ∨ s.eng.map.pending = true ∨ (∀ x ∈ s.eng.map.ents, freed x = false) ∨
          ∃ r, h.relAt = some r ∧ h.time.toNat < r.toNat + 1000000) → exec .rehomeReleaseCommit s = .next s) ∧
      (h.acts = true → h.writing = false → s.eng.map.pending = false → (∃ x ∈ s.eng.map.ents, freed x = true) →
        (∀ r, h.relAt = some r → r.toNat + 1000000 ≤ h.time.toNat) → ∃ t, exec .rehomeReleaseCommit s = .next t ∧
        t.eng.hth.relAt = some h.time ∧ t.eng.hth.version = s.eng.nextVersion ∧ t.eng.hth.plan = h.plan ∧
        ∀ img, img = mapImage s.eng.nextVersion.toNat s.eng.map.index
          (s.eng.map.ents.map fun x => if freed x then { x with hold := false } else x) s.eng.map.reps →
          s.eng.wideOk 63 false true h.mapbuf.toNat img.length → t.eng.dev = s.eng.dev.wrN h.mapbuf.toNat img)) ∧
    (∀ (pre post : List ZMsg) (z : ZMsg), s.eng.zw.inbox = pre ++ z :: post → s.eng.zw.blocked = [] →
      (∀ time lead (delay T : Nat), z.body = .timeBase time lead → (∀ y ∈ pre, ∀ u v, y.body ≠ .timeBase u v) → T = time.toNat + delay →
        ((h.st ≠ .member ∨ lead.toNat ≠ h.lead) → exec (.timeBase delay) s = .next (s.took pre post z)) ∧
        (h.st = .member → lead.toNat = h.lead → ∃ t, exec (.timeBase delay) s = .next t ∧
          (h.mayStep = true → h.time.toNat < T → t.eng.hth = { h with time := BitVec.ofNat 64 T, mayStep := false, slew := 0 }) ∧
          ((h.mayStep = false ∨ T ≤ h.time.toNat) →
            t.eng.hth = { h with mayStep := false, slew := (T : Int) - h.time.toNat }))) ∧
      (∀ v n c, z.body = .commit v n c → (∀ y ∈ pre, ∀ i j k, y.body ≠ .commit i j k) →
        ((z.src.toNat ≠ (if h.isLead then h.pos else h.lead) ∨ h.st = .isolated ∨ (h.st = .alone ∧ h.shape ≠ 0)) →
          exec .commit s = .next (s.took pre post z)) ∧
        (z.src.toNat = (if h.isLead then h.pos else h.lead) → h.st ≠ .isolated → (h.st = .alone → h.shape = 0) →
          ∃ t, exec .commit s = .next t ∧
          (s.eng.map.pending = false → t.eng.hth = h ∧
            t.eng.map = { s.eng.map with stagedBase := h.mapbuf, pending := true, fromLead := true }) ∧
          (s.eng.map.pending = true → t.eng.map = { s.eng.map with refused := true, reason := 6 } ∧
            (s.eng.wideOk 63 true false s.eng.map.stagedBase.toNat 4 → t.eng.hth.results.head? =
              some (BitVec.ofNat 32 (leNat (s.eng.rdDev true s.eng.map.stagedBase.toNat 4)), 6)) ∧
            (t.eng.hth.results.head?).map (·.2) = some 6))) ∧
      (∀ v reason done, z.body = .commitResult v reason done → (∀ y ∈ pre, ∀ i j k, y.body ≠ .commitResult i j k) →
        ∃ t, exec .commitResult s = .next t ∧ t.eng.map = s.eng.map ∧
        (h.isLead = false → t.eng.hth = h) ∧
        (h.isLead = true → t.eng.hth.version = (if reason = 0 ∧ (h.version = 0 ∨ follows v h.version = true) then v
          else h.version)) ∧
        (h.isLead = true → done = true → t.eng.hth.dones = (z.src.toNat, v) :: h.dones.filter (·.1 != z.src.toNat) ∧
          ∀ o, o ∈ t.eng.hth.old ↔ o ∈ h.old ∧ ∃ p ∈ h.liveList, ∀ d ∈ t.eng.hth.dones, d.1 = p →
            d.2 ≠ o.1 ∧ follows d.2 o.1 = false) ∧
        (h.isLead = true → done = false → reason = 6 → z.src.toNat ∈ t.eng.hth.again ∧ t.eng.outgoing.Perm s.eng.outgoing) ∧
        (∀ due : Piece → Bool, due = (fun x => x.pos == z.src.toNat && !x.sent && !x.noRoom) → h.isLead = true → done = false →
          reason = 0 → v = h.commit.1 →
          t.eng.hth.plan = (h.plan.map fun x => if due x then { x with sent := true } else x) ∧
          (∀ bs, z.src.toNat ≠ h.pos → bs = ((h.plan.filter due).map fun x => ZBody.load x.order) → s.eng.sendsNow z.src bs →
            s.Sends t z.src bs))) ∧
      (∀ o x b, z.body = .load o → (∀ y ∈ pre, ∀ u, y.body ≠ .load u) → s.eng.map.ents[o.entry.toNat]? = some x →
        (∀ p, h.loads.find? (fun p => p.num == o.piece.toNat && p.order == o) = some p → b = ZBody.loadStatus o.piece p.status p.bytes →
          ∃ t, exec .load s = .next t ∧ t.eng.hth = h ∧ (h.isLead = false → h.lead ≠ h.pos → h.lead < 256 →
            s.eng.sendsNow (BitVec.ofNat 8 h.lead) [b] → s.Sends t (BitVec.ofNat 8 h.lead) [b])) ∧
        ((∀ p ∈ h.loads, p.num = o.piece.toNat → p.order ≠ o) → b = ZBody.loadStatus o.piece 0 0 → ∃ t p, exec .load s = .next t ∧
          t.eng.hth.loads = (h.loads.filter (·.num != o.piece.toNat)) ++ [p] ∧ p.order = o ∧ p.entry = x ∧ p.status = 0 ∧
          (∀ ce, s.eng.busy 8 = false → s.eng.hc.pick false = some ce →
            (∀ q ∈ s.eng.hc.ces, ∀ y ∈ q.2, y.owner ≠ .loader (some o.piece)) →
            ∃ y, t.eng.hc.ces.get [] ce = s.eng.hc.ces.get [] ce ++ [y] ∧ y.owner = .loader (some o.piece) ∧ y.started = false) ∧
          (h.isLead = false → h.lead ≠ h.pos → h.lead < 256 → s.eng.sendsNow (BitVec.ofNat 8 h.lead) [b] →
            s.Sends t (BitVec.ofNat 8 h.lead) [b]))) ∧
      (∀ n st bytes, z.body = .loadStatus n st bytes → (∀ y ∈ pre, ∀ i j k, y.body ≠ .loadStatus i j k) →
        (h.isLead = false → ∃ t, exec .loadStatus s = .next t ∧ t.eng.hth = h) ∧
        (h.isLead = true → z.src.toNat ∉ h.await → ∃ t, exec .loadStatus s = .next t ∧
          t.eng.hth = { h with plan := h.plan.map fun x =>
            if x.pos = z.src.toNat ∧ x.num = n.toNat then { x with status := st, bytes := bytes } else x } ∧ t.eng.map = s.eng.map) ∧
        (h.isLead = true → z.src.toNat ∈ h.await → h.await ≠ [z.src.toNat] → ∃ t, exec .loadStatus s = .next t ∧
          t.eng.hth.await = h.await.erase z.src.toNat ∧ t.eng.map = s.eng.map)) ∧
      (∀ term bs, z.body = .statusReq term → (∀ y ∈ pre, ∀ u, y.body ≠ .statusReq u) →
        bs = ((s.eng.map.ents.filter fun x => x.hold && x.home == h.pos && x.base != 0).map fun x =>
          match h.loads.find? fun p => p.order.target == x.base with
          | some p => ZBody.loadStatus (BitVec.ofNat 16 p.num) p.status p.bytes
          | none => ZBody.loadStatus 0xFFFF 0 0) →
        (term.toNat < h.term.toNat → exec .statusReq s = .next (s.took pre post z)) ∧
        (h.term.toNat ≤ term.toNat → z.src.toNat ≠ h.pos → ∃ t, exec .statusReq s = .next t ∧ t.eng.hth = h ∧
          (s.eng.sendsNow z.src bs → s.Sends t z.src bs))))
/-- R319 to R329, R332. A cut waits until the OPTs accepted before it have retired and no file is closing; then the open file takes the
next sequence number, as a take or a print, and a new one opens. A section of a print is copied while no lane claims a row of it, and
its digest is that of the rows read. A file whose blocks are written and acknowledged gets its trailer, and is complete. A full area is
reported once a file, a write of FREE frees it, and a write of LE_TK_CTL enables the unit only over a main area. -/
def Obligations.TakesAreCutCopiedAndClosed : Prop :=
  ∀ (s : State) (k : Tk), s.runs = true → k = s.eng.tk →
    (∀ waits : Cut → Prop, waits = (fun c => s.eng.busy 9 = true ∨ k.closing ≠ none ∨ (∃ p, k.printing = some p ∧ p.copy = []) ∨
        ∃ o ∈ s.eng.ted.opts, o.h.key ∈ c.opts) →
      (k.cuts = [] → exec .tedderDrainEnd s = .next s) ∧
      (∀ c cs, k.cuts = c :: cs → waits c → exec .tedderDrainEnd s = .next s) ∧
      (∀ c cs want, k.cuts = c :: cs → ¬ waits c →
        want = (c.print || (k.printInt != 0 && (k.seq + 1).toNat % k.printInt.toNat == 0) || !k.cutMade || k.status.getLsbD 7) →
        ∃ t f, exec .tedderDrainEnd s = .next t ∧ t.eng.tk.seq = k.seq + 1 ∧ t.eng.tk.cuts = cs ∧ t.eng.tk.tap = true ∧
        (∃ g, t.eng.tk.opened = some g ∧ g.body = [] ∧ g.put = 0) ∧ f.seq = k.seq + 1 ∧ f.dataPos = c.pos ∧ f.time = s.eng.hth.time ∧
        f.prev = k.seq ∧ f.aligned = c.byTake.isSome ∧ f.cmd = c.cmd ∧ (c.byTake = none → f.sched = s.eng.schedule) ∧
        f.copy.map (fun y => (y.ent, y.bytes)) = (if f.print then (s.eng.map.ents.filter fun x => x.home == s.eng.hth.pos).map fun x =>
          (x, x.bytes (s.eng.map.tab x.table).fmt) else []) ∧ t.eng.tk.lastCut = some (c.pos, s.eng.hth.time) ∧
        f.print = (want && k.printing.isNone) ∧ (if f.copy = [] then t.eng.tk.closing = some f else t.eng.tk.printing = some f) ∧
        t.eng.tk.printSeq = (if f.print then k.seq + 1 else k.printSeq) ∧
        (want = true → k.printing ≠ none → t.eng.tk.status.getLsbD 6 = true) ∧
        (∀ h q, c.byTake = some h → s.ticketLive h.key q → s.noFence h.key → s.Retires t h.key q 0 0))) ∧
    ((k.printing = none ∨ ∃ f, k.printing = some f ∧ f.copy = []) → ∀ r, exec (.printCopy r) s = .next s) ∧
    (∀ f y rest x claimed b (a : Nat → Nat), k.printing = some f → f.copy = y :: rest → x = y.ent → b = y.bytes →
      claimed = (s.eng.ted.lanes.any fun l => l.2.any fun c => (c.ents ++ c.stEnts.flatten).any fun y =>
        y.2.table == x.table && decide (x.firstRow ≤ c.row) && decide (c.row < x.firstRow + x.rowCount)) →
      a = (fun i => x.base.toNat + i * (4 * x.stride4)) →
      (claimed = true → ∀ r, exec (.printCopy r) s = .next s) ∧
      (claimed = false → ∀ r, ∃ t g sec, exec (.printCopy r) s = .next t ∧
        t.eng.tk.printing = some g ∧ g.copy = rest ∧ g.sects = f.sects ++ [sec] ∧ sec.ent = x ∧ sec.block = f.blocks.length ∧
        g.blocks.take f.blocks.length = f.blocks ∧
        (r = .ok → x.tier ≠ 3 → (∀ i < x.rowCount, s.eng.wideOk 63 true false (a i) b ∧ s.eng.answer (a i) b .ok = .ok) →
          sec.sha = shaNat ((List.range x.rowCount).flatMap fun i => s.eng.rdDev true (a i) b)) ∧
        (r = .ok → x.tier = 3 → (∀ i < x.rowCount, s.eng.acc.firstDenied 5 63 true false (a i) b = none) →
          sec.sha = shaNat ((List.range x.rowCount).flatMap fun i => s.eng.host.rdN (a i) b)))) ∧
    (k.closing = none → (∀ p, k.printing = some p → p.copy ≠ []) → exec .fileClose s = .next s) ∧
    (∀ f n, k.closing = some f → n = f.nData + crcBlocks f.nData →
      ((f.put ≠ n ∨ s.eng.mp.owed .takeFile ≠ 0) → ∃ t g, exec .fileClose s = .next t ∧ t.eng.tk.closing = some g ∧ g.seq = f.seq ∧
        t.eng.tk.dones = k.dones) ∧
      (∀ b, f.put = n → s.eng.mp.owed .takeFile = 0 → f.mstart = none → f.sects = [] → k.opened = none → k.printing = none →
        k.ctl.getLsbD 3 = true → k.main.room (f.start + n) = true → s.eng.trailer f false = [b] →
        s.eng.acc.firstDenied 5 63 false true (k.main.addr (f.start + n)) 4096 = none → ∃ t, exec .fileClose s = .next t ∧
          t.eng.tk.closing = none ∧ t.eng.host = s.eng.host.wrN (k.main.addr (f.start + n)) b ∧ t.eng.dev = s.eng.dev ∧
          k.secured.toNat ≤ t.eng.tk.secured.toNat ∧
          (∀ (r : Fin 64) (c : W24) pre q post, f.cmd = some (r, c) → (s.eng.reel r.val).inflight = pre ++ q :: post → q.count = c →
            q.finished = false → (∀ y ∈ pre ++ post, y.count ≠ c) →
            (t.eng.reel r.val).inflight = pre ++ { q with phase := .done 0 0 0 } :: post))) ∧
    (∀ (mir : Bool) a, a = k.area mir →
      ((k.enabled = false ∨ a.blocks = 0 ∨ a.full = false ∨ k.told = some (k.seq + 1)) → exec (.areaFull mir) s = .next s) ∧
      (k.enabled = true → a.blocks ≠ 0 → a.full = true → k.told ≠ some (k.seq + 1) → ∃ t,
        exec (.areaFull mir) s = .next t ∧ t.eng.tk = { k with told := some (k.seq + 1) } ∧
        exec (.areaFull mir) t = .next t ∧ exec (.areaFull (!mir)) t = .next t) ∧
      (∀ (m : Fin 64) (v : W32), s.serves m (if mir then 0x1704C else 0x17034) (.wr32 v) = true → ∃ t b,
        exec (.areaFreeWrite m mir v) s = .next t ∧ b = t.eng.tk.area mir ∧ b.free = v ∧ t.eng.tk.told = k.told ∧ b.base = a.base ∧
        b.blocks = a.blocks ∧ (a.blocks.toNat ≠ 0 → a.freed ≤ b.freed ∧ b.freed < a.freed + a.blocks.toNat ∧
          b.freed % a.blocks.toNat = v.toNat % a.blocks.toNat))) ∧
    (∀ (m : Fin 64) (v : W32) (new : BitVec 6), s.serves m 0x17000 (.wr32 v) = true → new = v.setWidth 6 →
      (k.enabled = false → (v.getLsbD 0 = false ∨ k.main.blocks ≠ 0) → ∃ t, exec (.tkCtlWrite m v) s = .next t ∧
        t.eng.tk = { k with ctl := new, lastCut := none, cutMade := false }) ∧
      (k.enabled = false → v.getLsbD 0 = true → k.main.blocks = 0 → ∃ t, exec (.tkCtlWrite m v) s = .next t ∧
        t.eng.tk = { k with ctl := new &&& 0x3E, status := k.status ||| 0x020 }) ∧
      (k.enabled = true → v.getLsbD 0 = true → ∃ t, exec (.tkCtlWrite m v) s = .next t ∧
        t.eng.tk = { k with ctl := (k.ctl &&& 0x1E) ||| (new &&& 0x21), status :=
          if (new ^^^ k.ctl) &&& 0x1E ≠ 0 then k.status ||| 0x010 else k.status }) ∧
      (k.enabled = true → v.getLsbD 0 = false → ∃ t, exec (.tkCtlWrite m v) s = .next t ∧ t.eng.tk.enabled = false ∧
        t.eng.tk.opened = none ∧ t.eng.tk.cuts = [] ∧ t.eng.tk.tap = false))

/-- R312, R334 to R337. One loader operation runs at a time; operation 3 is refused while the unit is enabled, a director runs, or for
another position. An operation that ends is done, or failed where its directory entry, a file or a write failed. Applying a take writes
the rows of its records that the map places here; setting the schedule state sets the reels, the clappers and the counts as the file
holds them. With no operation running, the oldest re-homing load ends, and the lead is told. Each takes an inbound copy engine first, as
a COPY does (R262), and leaves it at its end: that it occupies the engine for its whole length is the model's choice (log 203). -/
def Obligations.LoaderRunsOneOperation : Prop :=
  ∀ (s : State) (k : Tk), s.runs = true → k = s.eng.tk →
    (∀ (m : Fin 64) (v w : W32) (op : Nat) (c : Instr) (mm : Fin 64),
      ((op = 1 ∧ c = .loadPosition m v) ∨ (op = 2 ∧ c = .applyTake m v) ∨ (op = 3 ∧ c = .setScheduleState m v)) →
      w = (v &&& 0x3FFF8) ||| BitVec.ofNat 32 op → mm.val = v.toNat / 2 ^ 12 % 64 → s.serves m 0x17054 (.wr32 w) = true →
      ((k.load ≠ none ∨ (op = 3 ∧ (k.enabled = true ∨ (∃ d : Fin 8, (s.eng.dir d.val).st ≠ .idle) ∨
          v.toNat / 2 ^ 4 % 2 ^ 8 ≠ s.eng.hth.pos))) →
        exec c s = .next { s with eng := { s.eng with tk := { k with loadSt := k.loadSt ||| 0b01000 } } }) ∧
      (k.load = none → (op = 3 → k.enabled = false ∧ (∀ d : Fin 8, (s.eng.dir d.val).st = .idle) ∧
          v.toNat / 2 ^ 4 % 2 ^ 8 = s.eng.hth.pos) →
        ∃ t, exec c s = .next t ∧ t.eng.tk = { k with
          ldMaster := mm, load := some { op := op, pos := v.toNat / 2 ^ 4 % 2 ^ 8, verify := v.getLsbD 3, master := mm,
                                         work := s.eng.fe.cause } } ∧
          t = { s with eng := { s.eng with tk := t.eng.tk, hc := t.eng.hc } } ∧
          ∀ ce, s.eng.busy 8 = false → s.eng.hc.pick false = some ce → (∀ q ∈ s.eng.hc.ces, ∀ y ∈ q.2, y.owner ≠ .loader none) →
            ∃ y, t.eng.hc.ces.get [] ce = s.eng.hc.ces.get [] ce ++ [y] ∧ y.owner = .loader none ∧ y.master = mm ∧ y.started = false)) ∧
    (∀ r m1 m2, (s.eng.busy 9 = true ∨ s.eng.swdWaits 0 0 = true ∨ (k.load = none ∧ ∀ p ∈ s.eng.hth.loads, p.status ≠ 0) ∨
        (k.load ≠ none ∧ s.eng.loading none = false ∧ ∃ q ∈ s.eng.hc.ces, ∃ y ∈ q.2, y.owner = .loader none)) →
      exec (.loaderOperationEnd r m1 m2) s = .next s) ∧
    (∀ o a eo (q : ReadRes → ReadRes → Rdr), k.load = some o → s.eng.busy 9 = false → s.eng.swdWaits 0 0 = false →
      s.eng.loading none = true → a = k.dir.toNat + 64 * o.pos →
      q = (fun m1 m2 => { m := o.master, main := m1, mir := m2 }) →
      eo = (match o.work with
        | none => s.eng
        | some r => { s.eng with fe := { s.eng.fe with cause := some r } }) →
      (∀ r m1 m2, (s.eng.acc.firstDenied 5 o.master true false a 64 ≠ none ∨ r ≠ .ok) → ∃ t,
        exec (.loaderOperationEnd r m1 m2) s = .next t ∧
        t.eng.tk = { k with load := none, loadSt := k.loadSt ||| 0b00100 } ∧ t.eng.clp = s.eng.clp ∧ t.eng.dirs = s.eng.dirs ∧
        ∀ x ∈ t.eng.hc.ces, ∀ y ∈ x.2, y.owner ≠ .loader none) ∧
      (∀ e0 d bs, eo.dirRow o.master a .ok = (e0, some d) → bs = s.eng.host.rdN a 64 → d.base = le bs 0 8 ∧ d.print = le bs 8 8 ∧
        d.mir = le bs 16 8 ∧ d.takes = le bs 24 8 ∧ d.tmir = le bs 32 8 ∧ d.n = le bs 40 4) ∧
      (∀ m1 m2 e0 d, eo.dirRow o.master a .ok = (e0, some d) →
        (∀ res : Except (Nat × Nat) Bool, o.op = 1 → (e0.loadAll (q m1 m2) o.verify none d).2 = res → ∃ t,
          exec (.loaderOperationEnd .ok m1 m2) s = .next t ∧ t.eng.tk = { k with load := none, loadSt := k.loadSt ||| (match res with
            | .ok u => 0b00010 ||| (if u then 0b10000 else 0)
            | .error _ => 0b00100) }) ∧
        (o.op ≠ 1 → (e0.findFile (q m1 m2) d k.loadSeq.toNat).2 = none → ∃ t, exec (.loaderOperationEnd .ok m1 m2) s = .next t ∧
          t.eng.tk = { k with load := none, loadSt := k.loadSt ||| 0b00100 } ∧ t.eng.clp = s.eng.clp) ∧
        (∀ (e1 e2 : Eng) f bs u, o.op = 2 → e0.findFile (q m1 m2) d k.loadSeq.toNat = (e1, some f) → f.print = false →
          f.checked (q m1 m2) e1 1 (f.nBody + 29) id f.sha = (e2, .ok (bs, u)) →
          (parseRecs bs.length (bs.take (4096 * f.nBody)) = some [] → ∃ t, exec (.loaderOperationEnd .ok m1 m2) s = .next t ∧
            t.eng.tk = { k with load := none, loadSt := k.loadSt ||| 0b00010 ||| (if u then 0b10000 else 0) } ∧
            t.eng.dev = e2.dev ∧ t.eng.host = e2.host) ∧
          (∀ (rec : RowRec) i x row p edge ys, parseRecs bs.length (bs.take (4096 * f.nBody)) = some [rec] →
            e2.map.rowEnts rec.table rec.row = [(i, x)] → x.home = e2.hth.pos → x.nrep = 0 → x.tier ≠ 3 →
            row = x.base.toNat + (rec.row - x.firstRow) * (4 * x.stride4) →
            rec.part (e2.map.tab rec.table).fmt x (fun i => (e2.rdDev false (row + i) 1).headD 0) = some (p, ys, edge) →
            e2.mp.firstHole (row + p) ys.length = none → e2.acc.firstDenied 3 o.master edge true (row + p) ys.length = none → ∃ t,
            exec (.loaderOperationEnd .ok m1 m2) s = .next t ∧ t.eng.tk.load = none ∧ t.eng.tk.loadSt.getLsbD 1 = true ∧
            t.eng.dev = e2.dev.wrN (row + p) ys ∧ t.eng.host = e2.host)) ∧
        (∀ (e1 e2 : Eng) f bs u, o.op = 3 → e0.findFile (q m1 m2) d k.loadSeq.toNat = (e1, some f) →
          (if f.print then f.checked (q m1 m2) e1 (1 + f.nBody) 29 id f.sha = (e2, .ok (bs, u))
            else ∃ all, f.checked (q m1 m2) e1 1 (f.nBody + 29) id f.sha = (e2, .ok (all, u)) ∧ bs = all.drop (4096 * f.nBody)) →
          ∃ t, exec (.loaderOperationEnd .ok m1 m2) s = .next t ∧ t.eng.tk.load = none ∧ t.eng.tk.loadSt.getLsbD 1 = true ∧
            t.eng.tk.step = BitVec.ofNat 64 f.dataPos ∧ t.eng.tk.seq = BitVec.ofNat 64 f.seq ∧
            t.eng.tk.secured = BitVec.ofNat 64 f.seq ∧ t.eng.tk.printSeq = BitVec.ofNat 64 f.printSeq ∧
            (∀ n < 8192, t.eng.clap n = BitVec.ofNat 64 (le bs (0x1000 + 8 * n) 8)) ∧
            (∀ n < 8, (t.eng.dir n).tcount = BitVec.ofNat 32 (le bs (0x500 + 4 * n) 4)) ∧
            (∀ n < 64, ∃ v, v = BitVec.ofNat 24 (le bs (16 * n) 16 / 2 ^ 48 % 2 ^ 24) ∧ (t.eng.reel n).wr = v ∧
              (t.eng.reel n).rd = v ∧ (t.eng.reel n).done = v ∧ (t.eng.reel n).cfg.getLsbD 0 = false) ∧
            (∀ n < 16, (t.eng.mreel n).enabled = false ∧ (t.eng.mreel n).held = []) ∧ t.eng.tk.dones = []))) ∧
    (∀ pre p post y r m1 m2 q, k.load = none → s.eng.busy 9 = false → s.eng.swdWaits 0 0 = false → s.eng.hth.loads = pre ++ p :: post → p.status = 0 →
      (∀ q ∈ pre, q.status ≠ 0) → (∀ q ∈ pre ++ post, q.num ≠ p.num) →
      s.eng.loading (some (BitVec.ofNat 16 p.num)) = true → q = { m := k.ldMaster, main := m1, mir := m2 : Rdr } →
      y = (match s.eng.dirRow k.ldMaster p.order.src.toNat r with
        | (e0, some d) => (match (e0.loadAll q false (some p.entry) d).2 with
          | .ok _ => { p with status := 1, bytes := p.order.len }
          | .error _ => { p with status := 2, bytes := 0 })
        | (_, none) => { p with status := 2, bytes := 0 }) →
      ∃ t, exec (.loaderOperationEnd r m1 m2) s = .next t ∧ t.eng.hth.loads = pre ++ y :: post ∧ t.eng.tk.load = none)

/-- R227, R360. Every command keeps both memories in their canonical form, addresses rising and no byte listed that an unlisted address
reads as, so that equal memories are equal data: that a byte nothing has written reads as zero is the model's choice (log entry 2). -/
def Obligations.EveryCommandKeepsTheMemoriesCanonical : Prop :=
  ∀ (c : Instr) (s t : State), exec c s = .next t → s.eng.memWf → t.eng.memWf

/-- R364, R377. Before the first configured state, and after a clock failure, nothing but a reset changes device memory, host memory or
a message reel, and no laser is lit that was not. -/
def Obligations.NothingLeavesTheEngineBeforeItRuns : Prop :=
  ∀ (c : Instr) (s t : State), s.runs = false → c ≠ .powerOnReset → (∀ low, c ≠ .leRstNAssert low) → exec c s = .next t →
    t.eng.dev = s.eng.dev ∧ t.eng.host = s.eng.host ∧ (∀ k, t.eng.mreel k = s.eng.mreel k) ∧
    ∀ p n, ((t.eng.port' p).pair n).safety = .lit → ((s.eng.port' p).pair n).safety = .lit

/-- R362, R366, R371, R378 to R381. Every step keeps the invariant of the always-on island: the cap, the thermal cap, the ramp, the hold
limit and the idle timeout stay in their ranges, the thresholds have 8 bits, the share f is 0 while tripped or else from 1/64 to 1 with
the allowance not above it, at most three load attempts, and an image of 1,028 bytes ready to take effect. -/
def Obligations.EveryStepKeepsTheIslandInvariant : Prop :=
  ∀ s t : State, s.ao.Inv → step s = .next t → t.ao.Inv

/-- R360, R367, R371, R374, R378. The state after reset meets the island's invariant and has both memories in their canonical form,
empty; the load of the options begins with copy A, the queue is empty, and retained memory holds its magic word. -/
def Obligations.ResetMeetsTheInvariants : Prop :=
  State.reset.ao.Inv ∧ State.reset.eng.memWf ∧ State.reset.eng.dev = [] ∧ State.reset.eng.host = [] ∧
    State.reset.ao.phase = .loading false 0 ∧ State.reset.pending = [] ∧ State.reset.eng.retw 0 = 0x4C524D31 ∧
    (∀ i, 0 < i → State.reset.eng.retw i = 0) ∧ ∀ n, State.reset.ao.bkp.get 0 n = 0
end

