-- ==== Sys2Proof/Laws/Access.lean ====
section
/-! SUPPORT. What a register access does when it is served at once, and what an unserved one leaves: the lemmas that claims about
register rows cite instead of unfolding the port. -/

namespace Sys2Proof.Machine

open Sys2Proof

/-- A served access is the performance of its block. -/
theorem access_of_serves {s : State} {m : Fin 64} {off : Nat} {a : RegAcc} (homeBad : Option (List Nat))
    (h : s.serves m off a = true) :
    s.access m off a homeBad = ((s.perform m off a homeBad).1, .done (s.perform m off a homeBad).2) := by
  simp only [State.serves, Bool.and_eq_true, Bool.not_eq_true', decide_eq_true_eq] at h
  obtain ⟨⟨⟨⟨⟨⟨⟨hr, hg⟩, hw⟩, ho⟩, hd⟩, hb⟩, hq⟩, hl⟩ := h
  have hno : ¬ 0x60000 ≤ off := by omega
  have ht : ¬ ((regTarget off).1 = 3 ∨ (regTarget off).1 = 4) := by
    unfold regTarget; repeat' split
    all_goals simp
  have hck : s.eng.check (regTarget off).1 m (!a.writes) a.writes (regTarget off).2
      (if (regTarget off).1 = 0 then a.size else 1) = (s.eng, true) := by
    unfold Eng.check
    rw [if_neg ht]
    simp only [Option.isNone_iff_eq_none.mp hd]
  have hrc : s.eng.regCheck m off a = (s.eng, true) := by
    unfold Eng.regCheck
    rw [if_neg hno]
    simp only [hck]
    rw [if_neg]
    rintro ⟨h1, h2, h3, h4⟩
    simp [h1, h2, h3, h4] at hl
  unfold State.access
  simp only [hr, Bool.not_true, Bool.false_eq_true, if_false, hw]
  unfold State.serve
  cases a <;> first
    | (simp [hrc, hb, hq, State.performFor]; done)
    | cases hg

/-- A served 32-bit write. -/
theorem regWr_of_serves {s : State} {m : Fin 64} {off : Nat} {v : W32} (h : s.serves m off (.wr32 v) = true) :
    s.regWr m off v = (s.perform m off (.wr32 v)).1 := by
  rw [State.regWr, access_of_serves _ h]

/-- A served 64-bit write. -/
theorem regWr64_of_serves {s : State} {m : Fin 64} {off : Nat} {v : W64} (h : s.serves m off (.wr64 v) = true) :
    s.regWr64 m off v = (s.perform m off (.wr64 v)).1 := by
  rw [State.regWr64, access_of_serves _ h]

/-- A served 32-bit read. -/
theorem regRd_of_serves {s : State} {m : Fin 64} {off : Nat} (h : s.serves m off .rd32 = true) :
    s.regRd m off = ((s.perform m off .rd32).1).respond m (s.perform m off .rd32).2 := by
  rw [State.regRd, access_of_serves _ h]

/-- An access before the first configured state changes ret_uncorr at most. -/
theorem access_not_configured {s : State} {m : Fin 64} {off : Nat} {a : RegAcc} (homeBad : Option (List Nat))
    (h : s.ao.phase ≠ .configured) :
    (s.access m off a homeBad).1 = s ∨ (s.access m off a homeBad).1 = s.aoAfterRd off := by
  have hr : s.runs = false := by simp [State.runs, h]
  unfold State.access
  simp only [hr, Bool.not_false, if_true]
  unfold State.accessHeld
  rw [if_pos h]
  repeat' split
  all_goals simp

end Sys2Proof.Machine
end

