-- ==== Sys2Proof/Laws/SMap.lean ====
section
/-! SUPPORT. The laws of sparse tables: a key reads what was set and every other key what it read before, whatever the list; and
every operation keeps the canonical form. -/

namespace Sys2Proof.SMap

variable {α : Type}

@[simp] theorem get_nil (d : α) (k : Nat) : get d [] k = d := rfl

@[simp] theorem get_insert_self (d : α) (m : SMap α) (k : Nat) (v : α) : get d (insert k v m) k = v := by
  induction m with
  | nil => simp [insert, get]
  | cons p m ih =>
    obtain ⟨k', v'⟩ := p
    simp only [insert]
    split
    · simp [get]
    · split
      · simp [get]
      · rename_i h1 h2; simp [get, h2, ih]

theorem get_insert_ne (d : α) (m : SMap α) {j k : Nat} (v : α) (h : j ≠ k) : get d (insert k v m) j = get d m j := by
  induction m with
  | nil => simp [insert, get, h]
  | cons p m ih =>
    obtain ⟨k', v'⟩ := p
    simp only [insert]
    split
    · simp [get, h]
    · split
      · rename_i h2; subst h2; simp [get, h]
      · simp [get, ih]

@[simp] theorem get_erase_self (d : α) (m : SMap α) (k : Nat) : get d (erase k m) k = d := by
  induction m with
  | nil => rfl
  | cons p m ih =>
    obtain ⟨k', v'⟩ := p
    by_cases h : k' = k
    · simp only [erase, List.filter, h, ne_eq, not_true_eq_false, decide_false]; exact ih
    · simp only [erase, List.filter, h, ne_eq, not_false_eq_true, decide_true, get]
      rw [if_neg (fun e => h e.symm)]; exact ih

theorem get_erase_ne (d : α) (m : SMap α) {j k : Nat} (h : j ≠ k) : get d (erase k m) j = get d m j := by
  induction m with
  | nil => rfl
  | cons p m ih =>
    obtain ⟨k', v'⟩ := p
    by_cases e : k' = k
    · subst e
      simp only [erase, List.filter, ne_eq, not_true_eq_false, decide_false, get]
      rw [if_neg h]; exact ih
    · simp only [erase, List.filter, e, ne_eq, not_false_eq_true, decide_true, get]
      split
      · rfl
      · exact ih

variable [DecidableEq α]

@[simp] theorem get_set_self (d : α) (m : SMap α) (k : Nat) (v : α) : get d (set d m k v) k = v := by
  unfold set; split <;> simp [*]

theorem get_set_ne (d : α) (m : SMap α) {j k : Nat} (v : α) (h : j ≠ k) : get d (set d m k v) j = get d m j := by
  unfold set; split
  · exact get_erase_ne d m h
  · exact get_insert_ne d m v h

/-- A key reads what was set last. -/
theorem get_set (d : α) (m : SMap α) (j k : Nat) (v : α) :
    get d (set d m k v) j = if j = k then v else get d m j := by
  split
  · rename_i h; subst h; simp
  · rename_i h; exact get_set_ne d m v h

/-- A lower bound that holds after a bound `l` also holds after no bound. -/
theorem wfFrom_weaken (d : α) {lo : Option Nat} {l : Nat} {m : SMap α} (h : ∀ x, lo = some x → x ≤ l) :
    wfFrom d (some l) m = true → wfFrom d lo m = true := by
  cases m with
  | nil => intro _; cases lo <;> rfl
  | cons p m =>
    obtain ⟨k, v⟩ := p
    simp only [wfFrom, Bool.and_eq_true, decide_eq_true_eq]
    rintro ⟨⟨a, b⟩, c⟩
    refine ⟨⟨?_, b⟩, c⟩
    cases lo with
    | none => rfl
    | some x => have := h x rfl; simp [above] at a ⊢; omega

theorem wfFrom_insert (d : α) (m : SMap α) (lo : Option Nat) {k : Nat} {v : α} (hv : v ≠ d)
    (hk : ∀ x, lo = some x → x < k) (h : wfFrom d lo m = true) : wfFrom d lo (insert k v m) = true := by
  induction m generalizing lo with
  | nil => cases lo with
    | none => simp [insert, wfFrom, above, hv]
    | some x => simp [insert, wfFrom, above, hv, hk x rfl]
  | cons p m ih =>
    obtain ⟨k', v'⟩ := p
    simp only [wfFrom, Bool.and_eq_true, decide_eq_true_eq] at h
    obtain ⟨⟨h1, h2⟩, h3⟩ := h
    have hlo : above lo k = true := by
      cases lo with
      | none => rfl
      | some x => simp [above, hk x rfl]
    simp only [insert]
    split
    · simp only [wfFrom, Bool.and_eq_true, decide_eq_true_eq]
      exact ⟨⟨hlo, hv⟩, ⟨by simpa [above], h2⟩, h3⟩
    · split
      · rename_i e; subst e
        simp only [wfFrom, Bool.and_eq_true, decide_eq_true_eq]
        exact ⟨⟨hlo, hv⟩, h3⟩
      · simp only [wfFrom, Bool.and_eq_true, decide_eq_true_eq]
        refine ⟨⟨h1, h2⟩, ih (some k') ?_ h3⟩
        intro x e; cases e; omega

theorem wfFrom_filter (d : α) (m : SMap α) (lo : Option Nat) (f : Nat × α → Bool) (h : wfFrom d lo m = true) :
    wfFrom d lo (List.filter f m) = true := by
  induction m generalizing lo with
  | nil => cases lo <;> rfl
  | cons p m ih =>
    obtain ⟨k', v'⟩ := p
    simp only [wfFrom, Bool.and_eq_true, decide_eq_true_eq] at h
    obtain ⟨⟨h1, h2⟩, h3⟩ := h
    simp only [List.filter]
    split
    · simp only [wfFrom, Bool.and_eq_true, decide_eq_true_eq]
      exact ⟨⟨h1, h2⟩, ih _ h3⟩
    · refine ih _ (wfFrom_weaken d ?_ h3)
      intro x e; subst e; simp [above] at h1; omega

/-- Setting a key keeps the canonical form. -/
theorem wf_set (d : α) (m : SMap α) (k : Nat) (v : α) (h : wf d m = true) : wf d (set d m k v) = true := by
  unfold set; split
  · exact wfFrom_filter d m none _ h
  · rename_i hv; exact wfFrom_insert d m none hv (by intro x e; cases e) h

/-- Changing a key keeps the canonical form. -/
theorem wf_modify (d : α) (m : SMap α) (k : Nat) (f : α → α) (h : wf d m = true) : wf d (modify d m k f) = true :=
  wf_set d m k _ h

end Sys2Proof.SMap
end

