-- ==== Sys2Proof/Laws/Memory.lean ====
section
/-! SUPPORT. The laws of memory (R2): a byte reads what was written to it and every other byte what it read before; every write
keeps the canonical form. -/

namespace Sys2Proof.Machine

open Sys2Proof

/-- A byte reads what was written last. -/
theorem Memory.rd_wr (m : Memory) (a b : Nat) (v : Byte) : (m.wr a v).rd b = if b = a then v else m.rd b :=
  SMap.get_set _ _ _ _ _

/-- Bytes outside a write read as before. -/
theorem Memory.rd_wrN_of_outside (bs : List Byte) (m : Memory) (a b : Nat) (h : b < a ∨ a + bs.length ≤ b) :
    (m.wrN a bs).rd b = m.rd b := by
  induction bs generalizing m a with
  | nil => rfl
  | cons x xs ih =>
    have hl : (x :: xs).length = xs.length + 1 := rfl
    simp only [wrN]
    rw [ih _ _ (by omega), Memory.rd_wr, if_neg (by omega)]

/-- Bytes inside a write read what was written. -/
theorem Memory.rd_wrN_of_inside (bs : List Byte) (m : Memory) (a i : Nat) (h : i < bs.length) :
    (m.wrN a bs).rd (a + i) = bs[i] := by
  induction bs generalizing m a i with
  | nil => cases h
  | cons x xs ih =>
    simp only [wrN]
    cases i with
    | zero => rw [rd_wrN_of_outside _ _ _ _ (by omega), Memory.rd_wr, if_pos (by omega)]; rfl
    | succ i =>
      have hi : i < xs.length := by simpa using h
      have e : a + (i + 1) = a + 1 + i := by omega
      rw [e, ih _ _ _ hi]; rfl

/-- The bytes of a range have its length. -/
@[simp] theorem Memory.length_rdN (m : Memory) (a n : Nat) : (m.rdN a n).length = n := by
  induction n generalizing a with
  | zero => rfl
  | succ n ih => simp [rdN, ih]

/-- A byte of a range. -/
theorem Memory.getElem_rdN (m : Memory) (a n i : Nat) (h : i < (m.rdN a n).length) : (m.rdN a n)[i] = m.rd (a + i) := by
  induction n generalizing a i with
  | zero => simp [rdN] at h
  | succ n ih =>
    cases i with
    | zero => rfl
    | succ i =>
      simp only [rdN, List.getElem_cons_succ]
      rw [ih]; congr 1; omega

/-- Reading what was just written gives it back. -/
@[simp] theorem Memory.rdN_wrN_self (m : Memory) (a : Nat) (bs : List Byte) : (m.wrN a bs).rdN a bs.length = bs := by
  apply List.ext_getElem (by simp)
  intro i h1 h2
  rw [getElem_rdN, rd_wrN_of_inside]

/-- A write keeps the canonical form. -/
theorem Memory.wf_wr (m : Memory) (a : Nat) (v : Byte) (h : m.wf = true) : (m.wr a v).wf = true :=
  SMap.wf_set _ _ _ _ h

/-- A write of bytes keeps the canonical form. -/
theorem Memory.wf_wrN (bs : List Byte) (m : Memory) (a : Nat) (h : m.wf = true) : (m.wrN a bs).wf = true := by
  induction bs generalizing m a with
  | nil => exact h
  | cons x xs ih => exact ih _ _ (wf_wr m a x h)

/-- Both memories of the reset state are in canonical form. -/
theorem State.reset_memWf : State.reset.eng.dev.wf = true ∧ State.reset.eng.host.wf = true := ⟨rfl, rfl⟩

end Sys2Proof.Machine
end

