-- ==== Sys2Proof/Laws/Retained.lean ====
section
/-! SUPPORT. Retained memory, free values and the option area: what their operations leave and what they set. -/

namespace Sys2Proof.Machine

open Sys2Proof

/-- A written retained word reads as written; the others stand. -/
theorem retw_setRet (e : Eng) (i j : Nat) (v : W32) : (e.setRet i v).retw j = if j = i then v else e.retw j := by
  by_cases h : j = i <;> simp [Eng.retw, Eng.setRet, SMap.get_set, h]

/-- Writing retained words changes retained memory alone. -/
theorem setRets_frame (e : Eng) (i : Nat) (vs : List Nat) :
    e.setRets i vs = { e with ret := (e.setRets i vs).ret, retBad := (e.setRets i vs).retBad } := by
  induction vs generalizing e i with
  | nil => rfl
  | cons v vs ih => simp only [Eng.setRets]; rw [ih]; rfl

/-- Consecutive retained words read as written. -/
theorem retw_setRets (e : Eng) (i j : Nat) (vs : List Nat) :
    (e.setRets i vs).retw j = if h : i ≤ j ∧ j - i < vs.length then BitVec.ofNat 32 (vs[j - i]) else e.retw j := by
  induction vs generalizing e i with
  | nil => simp [Eng.setRets]
  | cons v vs ih =>
    simp only [Eng.setRets]; rw [ih, retw_setRet]
    by_cases h : j = i
    · subst h; simp
    · by_cases h2 : i + 1 ≤ j ∧ j - (i + 1) < vs.length
      · rw [dif_pos h2, dif_pos ⟨by omega, by simp; omega⟩]
        have : j - i = (j - (i + 1)) + 1 := by omega
        simp [this]
      · rw [dif_neg h2, if_neg h, dif_neg]; simp; omega

/-- A fault log record changes retained memory alone. -/
theorem logRec_frame (e : Eng) (c l i p : Nat) (u : Bool) : ∃ r b, e.logRec c l i p u = { e with ret := r, retBad := b } := by
  unfold Eng.logRec
  dsimp only
  split
  · exact ⟨_, _, rfl⟩
  · split
    · rw [setRets_frame]
      exact ⟨_, _, rfl⟩
    · exact ⟨_, _, setRets_frame _ _ _⟩

/-- Taking free bytes advances the free value's counter alone. -/
theorem freeBytes_frame (n : Nat) (e : Eng) : ∃ k, (e.freeBytes n).1 = { e with free := k } := by
  induction n generalizing e with
  | zero => exact ⟨e.free, rfl⟩
  | succ n ih =>
    simp only [Eng.freeBytes, Eng.freeByte]
    obtain ⟨k, h⟩ := ih { e with free := e.free + 8 }
    exact ⟨k, h⟩

/-- Free bytes are as many as were asked for. -/
theorem freeBytes_length (n : Nat) (e : Eng) : (e.freeBytes n).2.length = n := by
  induction n generalizing e with
  | zero => rfl
  | succ n ih => simp [Eng.freeBytes, Eng.freeByte, ih]

/-- A torn write of the option area changes one copy and the free values' counter; without a write nothing. -/
theorem tearNv_frame (s : State) : ∃ k a b,
    s.tearNv = { s with eng := { s.eng with free := k }, ao := { s.ao with nvA := a, nvB := b } } ∧
      (s.ao.nv = [] → a = s.ao.nvA ∧ b = s.ao.nvB) := by
  unfold State.tearNv
  split
  · exact ⟨s.eng.free, s.ao.nvA, s.ao.nvB, rfl, fun _ => ⟨rfl, rfl⟩⟩
  · rename_i w _ h
    simp only [Eng.tornCopy]
    obtain ⟨k, hk⟩ := freeBytes_frame 4 s.eng
    cases hc : w.copyB <;> simp [hk, h]

/-- Only the memories and the free values' counter differ, and a byte of a memory only inside one of the writes `ws`. -/
def Eng.Wrote (ws : List (Bool × Nat × List Byte)) (e e' : Eng) : Prop :=
  (∃ k d h, e' = { e with free := k, dev := d, host := h }) ∧
  (∀ x, e'.dev.rd x ≠ e.dev.rd x → ∃ w ∈ ws, w.1 = false ∧ w.2.1 ≤ x ∧ x < w.2.1 + w.2.2.length) ∧
  (∀ x, e'.host.rd x ≠ e.host.rd x → ∃ w ∈ ws, w.1 = true ∧ w.2.1 ≤ x ∧ x < w.2.1 + w.2.2.length)

theorem Eng.Wrote.refl (ws : List (Bool × Nat × List Byte)) (e : Eng) : Eng.Wrote ws e e :=
  ⟨⟨_, _, _, rfl⟩, fun _ h => absurd rfl h, fun _ h => absurd rfl h⟩

theorem Eng.Wrote.trans {ws : List (Bool × Nat × List Byte)} {a b c : Eng} (h : Eng.Wrote ws a b) (g : Eng.Wrote ws b c) :
    Eng.Wrote ws a c := by
  obtain ⟨h0, h1, h2⟩ := h
  obtain ⟨g0, g1, g2⟩ := g
  refine ⟨?_, fun x hx => ?_, fun x hx => ?_⟩
  · obtain ⟨_, _, _, rfl⟩ := h0
    obtain ⟨_, _, _, rfl⟩ := g0
    exact ⟨_, _, _, rfl⟩
  · by_cases q : c.dev.rd x = b.dev.rd x
    · exact h1 x (q ▸ hx)
    · exact g1 x q
  · by_cases q : c.host.rd x = b.host.rd x
    · exact h2 x (q ▸ hx)
    · exact g2 x q

/-- The part of a write in one sector lies within the write. -/
theorem sliceFor_within (a sa : Nat) (bs : List Byte) (x : Nat) (hl : sa + (sliceFor a bs sa).1 ≤ x)
    (hr : x < sa + (sliceFor a bs sa).1 + (sliceFor a bs sa).2.length) : a ≤ x ∧ x < a + bs.length := by
  unfold sliceFor at hl hr
  split at hl <;> simp_all <;> omega

/-- A write that is cut off changes bytes of its destination alone. -/
theorem wrote_cutWrite (e : Eng) (host : Bool) (a : Nat) (bs : List Byte) :
    Eng.Wrote [(host, a, bs)] e (e.cutWrite host a bs) := by
  unfold Eng.cutWrite
  generalize sectorsOf a bs.length = ss
  induction ss generalizing e with
  | nil => exact .refl _ _
  | cons sa ss ih =>
    rw [List.foldl_cons]
    refine Eng.Wrote.trans ?_ (ih _)
    simp only [Eng.freeBit]
    cases Config.freeBit e.free
    · exact ⟨⟨_, _, _, rfl⟩, fun _ h => absurd rfl h, fun _ h => absurd rfl h⟩
    · have inside (m : Memory) (x : Nat) (hx : (m.wrN (sa + (sliceFor a bs sa).1) (sliceFor a bs sa).2).rd x ≠ m.rd x) :
          a ≤ x ∧ x < a + bs.length := by
        by_cases q : x < sa + (sliceFor a bs sa).1 ∨ sa + (sliceFor a bs sa).1 + (sliceFor a bs sa).2.length ≤ x
        · exact absurd (Memory.rd_wrN_of_outside _ _ _ _ q) hx
        · exact sliceFor_within a sa bs x (by omega) (by omega)
      cases host
      · exact ⟨⟨_, _, _, rfl⟩, fun x hx => ⟨_, .head _, rfl, inside _ x hx⟩, fun _ h => absurd rfl h⟩
      · exact ⟨⟨_, _, _, rfl⟩, fun _ h => absurd rfl h, fun x hx => ⟨_, .head _, rfl, inside _ x hx⟩⟩

/-- What a reset cuts off changes bytes of the destinations of the writes in flight alone. -/
theorem wrote_cutOff (e : Eng) : Eng.Wrote e.flying e e.cutOff := by
  unfold Eng.cutOff
  suffices h : ∀ (xs ws : List (Bool × Nat × List Byte)) (b : Eng), xs ⊆ ws →
      Eng.Wrote ws b (xs.foldl (fun e w => e.cutWrite w.1 w.2.1 w.2.2) b) from h _ _ _ (List.Subset.refl _)
  intro xs ws
  induction xs with
  | nil => exact fun b _ => .refl _ _
  | cons w xs ih =>
    intro b hs
    refine Eng.Wrote.trans ?_ (ih _ fun _ hx => hs (.tail _ hx))
    obtain ⟨h0, h1, h2⟩ := wrote_cutWrite b w.1 w.2.1 w.2.2
    have up (p : Bool × Nat × List Byte → Prop) (h : ∃ v ∈ [w], p v) : ∃ v ∈ ws, p v := by
      obtain ⟨v, hv, hp⟩ := h
      exact ⟨v, by rw [List.mem_singleton.mp hv]; exact hs (.head _), hp⟩
    exact ⟨h0, fun x hx => up _ (h1 x hx), fun x hx => up _ (h2 x hx)⟩

/-- A splice keeps the length of what it is put into, while it fits. -/
theorem length_splice (bs xs : List Byte) (o : Nat) (h : o + xs.length ≤ bs.length) : (splice bs o xs).length = bs.length := by
  simp [splice]; omega

end Sys2Proof.Machine
end

