-- ==== Sys2Proof/Laws/State.lean ====
section
/-! SUPPORT. Updates of the state and its fields: one lemma for each field that an update leaves, and what each indexed update
reads as afterwards, so that no proof unfolds a record update. -/

namespace Sys2Proof.Machine

open Sys2Proof

section Fields

variable (e : Eng) (s : State)

@[simp] theorem Eng.onGln_port (f : Gln → Gln) : (e.onGln f).port = e.port := rfl
@[simp] theorem Eng.onGln_acc (f : Gln → Gln) : (e.onGln f).acc = e.acc := rfl
@[simp] theorem Eng.onGln_flt (f : Gln → Gln) : (e.onGln f).flt = e.flt := rfl
@[simp] theorem Eng.onGln_fe (f : Gln → Gln) : (e.onGln f).fe = e.fe := rfl
@[simp] theorem Eng.onGln_dirs (f : Gln → Gln) : (e.onGln f).dirs = e.dirs := rfl
@[simp] theorem Eng.onGln_map (f : Gln → Gln) : (e.onGln f).map = e.map := rfl
@[simp] theorem Eng.onGln_grd (f : Gln → Gln) : (e.onGln f).grd = e.grd := rfl
@[simp] theorem Eng.onGln_wr (f : Gln → Gln) : (e.onGln f).wr = e.wr := rfl
@[simp] theorem Eng.onGln_swp (f : Gln → Gln) : (e.onGln f).swp = e.swp := rfl
@[simp] theorem Eng.onGln_ted (f : Gln → Gln) : (e.onGln f).ted = e.ted := rfl
@[simp] theorem Eng.onGln_swd (f : Gln → Gln) : (e.onGln f).swd = e.swd := rfl
@[simp] theorem Eng.onGln_mp (f : Gln → Gln) : (e.onGln f).mp = e.mp := rfl
@[simp] theorem Eng.onGln_hc (f : Gln → Gln) : (e.onGln f).hc = e.hc := rfl
@[simp] theorem Eng.onGln_zw (f : Gln → Gln) : (e.onGln f).zw = e.zw := rfl
@[simp] theorem Eng.onGln_hth (f : Gln → Gln) : (e.onGln f).hth = e.hth := rfl
@[simp] theorem Eng.onGln_tk (f : Gln → Gln) : (e.onGln f).tk = e.tk := rfl
@[simp] theorem Eng.onGln_smp (f : Gln → Gln) : (e.onGln f).smp = e.smp := rfl
@[simp] theorem Eng.onGln_clp (f : Gln → Gln) : (e.onGln f).clp = e.clp := rfl
@[simp] theorem Eng.onGln_ret (f : Gln → Gln) : (e.onGln f).ret = e.ret := rfl
@[simp] theorem Eng.onGln_retBad (f : Gln → Gln) : (e.onGln f).retBad = e.retBad := rfl
@[simp] theorem Eng.onGln_rs (f : Gln → Gln) : (e.onGln f).rs = e.rs := rfl
@[simp] theorem Eng.onGln_dev (f : Gln → Gln) : (e.onGln f).dev = e.dev := rfl
@[simp] theorem Eng.onGln_host (f : Gln → Gln) : (e.onGln f).host = e.host := rfl
@[simp] theorem Eng.onGln_free (f : Gln → Gln) : (e.onGln f).free = e.free := rfl

@[simp] theorem Eng.onWr_port (f : Wr → Wr) : (e.onWr f).port = e.port := rfl
@[simp] theorem Eng.onWr_acc (f : Wr → Wr) : (e.onWr f).acc = e.acc := rfl
@[simp] theorem Eng.onWr_flt (f : Wr → Wr) : (e.onWr f).flt = e.flt := rfl
@[simp] theorem Eng.onWr_fe (f : Wr → Wr) : (e.onWr f).fe = e.fe := rfl
@[simp] theorem Eng.onWr_dirs (f : Wr → Wr) : (e.onWr f).dirs = e.dirs := rfl
@[simp] theorem Eng.onWr_map (f : Wr → Wr) : (e.onWr f).map = e.map := rfl
@[simp] theorem Eng.onWr_grd (f : Wr → Wr) : (e.onWr f).grd = e.grd := rfl
@[simp] theorem Eng.onWr_gln (f : Wr → Wr) : (e.onWr f).gln = e.gln := rfl
@[simp] theorem Eng.onWr_swp (f : Wr → Wr) : (e.onWr f).swp = e.swp := rfl
@[simp] theorem Eng.onWr_ted (f : Wr → Wr) : (e.onWr f).ted = e.ted := rfl
@[simp] theorem Eng.onWr_swd (f : Wr → Wr) : (e.onWr f).swd = e.swd := rfl
@[simp] theorem Eng.onWr_mp (f : Wr → Wr) : (e.onWr f).mp = e.mp := rfl
@[simp] theorem Eng.onWr_hc (f : Wr → Wr) : (e.onWr f).hc = e.hc := rfl
@[simp] theorem Eng.onWr_zw (f : Wr → Wr) : (e.onWr f).zw = e.zw := rfl
@[simp] theorem Eng.onWr_hth (f : Wr → Wr) : (e.onWr f).hth = e.hth := rfl
@[simp] theorem Eng.onWr_tk (f : Wr → Wr) : (e.onWr f).tk = e.tk := rfl
@[simp] theorem Eng.onWr_smp (f : Wr → Wr) : (e.onWr f).smp = e.smp := rfl
@[simp] theorem Eng.onWr_clp (f : Wr → Wr) : (e.onWr f).clp = e.clp := rfl
@[simp] theorem Eng.onWr_ret (f : Wr → Wr) : (e.onWr f).ret = e.ret := rfl
@[simp] theorem Eng.onWr_retBad (f : Wr → Wr) : (e.onWr f).retBad = e.retBad := rfl
@[simp] theorem Eng.onWr_rs (f : Wr → Wr) : (e.onWr f).rs = e.rs := rfl
@[simp] theorem Eng.onWr_dev (f : Wr → Wr) : (e.onWr f).dev = e.dev := rfl
@[simp] theorem Eng.onWr_host (f : Wr → Wr) : (e.onWr f).host = e.host := rfl
@[simp] theorem Eng.onWr_free (f : Wr → Wr) : (e.onWr f).free = e.free := rfl

@[simp] theorem Eng.onSwp_port (f : Swp → Swp) : (e.onSwp f).port = e.port := rfl
@[simp] theorem Eng.onSwp_acc (f : Swp → Swp) : (e.onSwp f).acc = e.acc := rfl
@[simp] theorem Eng.onSwp_flt (f : Swp → Swp) : (e.onSwp f).flt = e.flt := rfl
@[simp] theorem Eng.onSwp_fe (f : Swp → Swp) : (e.onSwp f).fe = e.fe := rfl
@[simp] theorem Eng.onSwp_dirs (f : Swp → Swp) : (e.onSwp f).dirs = e.dirs := rfl
@[simp] theorem Eng.onSwp_map (f : Swp → Swp) : (e.onSwp f).map = e.map := rfl
@[simp] theorem Eng.onSwp_grd (f : Swp → Swp) : (e.onSwp f).grd = e.grd := rfl
@[simp] theorem Eng.onSwp_gln (f : Swp → Swp) : (e.onSwp f).gln = e.gln := rfl
@[simp] theorem Eng.onSwp_wr (f : Swp → Swp) : (e.onSwp f).wr = e.wr := rfl
@[simp] theorem Eng.onSwp_ted (f : Swp → Swp) : (e.onSwp f).ted = e.ted := rfl
@[simp] theorem Eng.onSwp_swd (f : Swp → Swp) : (e.onSwp f).swd = e.swd := rfl
@[simp] theorem Eng.onSwp_mp (f : Swp → Swp) : (e.onSwp f).mp = e.mp := rfl
@[simp] theorem Eng.onSwp_hc (f : Swp → Swp) : (e.onSwp f).hc = e.hc := rfl
@[simp] theorem Eng.onSwp_zw (f : Swp → Swp) : (e.onSwp f).zw = e.zw := rfl
@[simp] theorem Eng.onSwp_hth (f : Swp → Swp) : (e.onSwp f).hth = e.hth := rfl
@[simp] theorem Eng.onSwp_tk (f : Swp → Swp) : (e.onSwp f).tk = e.tk := rfl
@[simp] theorem Eng.onSwp_smp (f : Swp → Swp) : (e.onSwp f).smp = e.smp := rfl
@[simp] theorem Eng.onSwp_clp (f : Swp → Swp) : (e.onSwp f).clp = e.clp := rfl
@[simp] theorem Eng.onSwp_ret (f : Swp → Swp) : (e.onSwp f).ret = e.ret := rfl
@[simp] theorem Eng.onSwp_retBad (f : Swp → Swp) : (e.onSwp f).retBad = e.retBad := rfl
@[simp] theorem Eng.onSwp_rs (f : Swp → Swp) : (e.onSwp f).rs = e.rs := rfl
@[simp] theorem Eng.onSwp_dev (f : Swp → Swp) : (e.onSwp f).dev = e.dev := rfl
@[simp] theorem Eng.onSwp_host (f : Swp → Swp) : (e.onSwp f).host = e.host := rfl
@[simp] theorem Eng.onSwp_free (f : Swp → Swp) : (e.onSwp f).free = e.free := rfl

@[simp] theorem Eng.onTed_port (f : Ted → Ted) : (e.onTed f).port = e.port := rfl
@[simp] theorem Eng.onTed_acc (f : Ted → Ted) : (e.onTed f).acc = e.acc := rfl
@[simp] theorem Eng.onTed_flt (f : Ted → Ted) : (e.onTed f).flt = e.flt := rfl
@[simp] theorem Eng.onTed_fe (f : Ted → Ted) : (e.onTed f).fe = e.fe := rfl
@[simp] theorem Eng.onTed_dirs (f : Ted → Ted) : (e.onTed f).dirs = e.dirs := rfl
@[simp] theorem Eng.onTed_map (f : Ted → Ted) : (e.onTed f).map = e.map := rfl
@[simp] theorem Eng.onTed_grd (f : Ted → Ted) : (e.onTed f).grd = e.grd := rfl
@[simp] theorem Eng.onTed_gln (f : Ted → Ted) : (e.onTed f).gln = e.gln := rfl
@[simp] theorem Eng.onTed_wr (f : Ted → Ted) : (e.onTed f).wr = e.wr := rfl
@[simp] theorem Eng.onTed_swp (f : Ted → Ted) : (e.onTed f).swp = e.swp := rfl
@[simp] theorem Eng.onTed_swd (f : Ted → Ted) : (e.onTed f).swd = e.swd := rfl
@[simp] theorem Eng.onTed_mp (f : Ted → Ted) : (e.onTed f).mp = e.mp := rfl
@[simp] theorem Eng.onTed_hc (f : Ted → Ted) : (e.onTed f).hc = e.hc := rfl
@[simp] theorem Eng.onTed_zw (f : Ted → Ted) : (e.onTed f).zw = e.zw := rfl
@[simp] theorem Eng.onTed_hth (f : Ted → Ted) : (e.onTed f).hth = e.hth := rfl
@[simp] theorem Eng.onTed_tk (f : Ted → Ted) : (e.onTed f).tk = e.tk := rfl
@[simp] theorem Eng.onTed_smp (f : Ted → Ted) : (e.onTed f).smp = e.smp := rfl
@[simp] theorem Eng.onTed_clp (f : Ted → Ted) : (e.onTed f).clp = e.clp := rfl
@[simp] theorem Eng.onTed_ret (f : Ted → Ted) : (e.onTed f).ret = e.ret := rfl
@[simp] theorem Eng.onTed_retBad (f : Ted → Ted) : (e.onTed f).retBad = e.retBad := rfl
@[simp] theorem Eng.onTed_rs (f : Ted → Ted) : (e.onTed f).rs = e.rs := rfl
@[simp] theorem Eng.onTed_dev (f : Ted → Ted) : (e.onTed f).dev = e.dev := rfl
@[simp] theorem Eng.onTed_host (f : Ted → Ted) : (e.onTed f).host = e.host := rfl
@[simp] theorem Eng.onTed_free (f : Ted → Ted) : (e.onTed f).free = e.free := rfl

@[simp] theorem Eng.onSwd_port (f : Swd → Swd) : (e.onSwd f).port = e.port := rfl
@[simp] theorem Eng.onSwd_acc (f : Swd → Swd) : (e.onSwd f).acc = e.acc := rfl
@[simp] theorem Eng.onSwd_flt (f : Swd → Swd) : (e.onSwd f).flt = e.flt := rfl
@[simp] theorem Eng.onSwd_fe (f : Swd → Swd) : (e.onSwd f).fe = e.fe := rfl
@[simp] theorem Eng.onSwd_dirs (f : Swd → Swd) : (e.onSwd f).dirs = e.dirs := rfl
@[simp] theorem Eng.onSwd_map (f : Swd → Swd) : (e.onSwd f).map = e.map := rfl
@[simp] theorem Eng.onSwd_grd (f : Swd → Swd) : (e.onSwd f).grd = e.grd := rfl
@[simp] theorem Eng.onSwd_gln (f : Swd → Swd) : (e.onSwd f).gln = e.gln := rfl
@[simp] theorem Eng.onSwd_wr (f : Swd → Swd) : (e.onSwd f).wr = e.wr := rfl
@[simp] theorem Eng.onSwd_swp (f : Swd → Swd) : (e.onSwd f).swp = e.swp := rfl
@[simp] theorem Eng.onSwd_ted (f : Swd → Swd) : (e.onSwd f).ted = e.ted := rfl
@[simp] theorem Eng.onSwd_mp (f : Swd → Swd) : (e.onSwd f).mp = e.mp := rfl
@[simp] theorem Eng.onSwd_hc (f : Swd → Swd) : (e.onSwd f).hc = e.hc := rfl
@[simp] theorem Eng.onSwd_zw (f : Swd → Swd) : (e.onSwd f).zw = e.zw := rfl
@[simp] theorem Eng.onSwd_hth (f : Swd → Swd) : (e.onSwd f).hth = e.hth := rfl
@[simp] theorem Eng.onSwd_tk (f : Swd → Swd) : (e.onSwd f).tk = e.tk := rfl
@[simp] theorem Eng.onSwd_smp (f : Swd → Swd) : (e.onSwd f).smp = e.smp := rfl
@[simp] theorem Eng.onSwd_clp (f : Swd → Swd) : (e.onSwd f).clp = e.clp := rfl
@[simp] theorem Eng.onSwd_ret (f : Swd → Swd) : (e.onSwd f).ret = e.ret := rfl
@[simp] theorem Eng.onSwd_retBad (f : Swd → Swd) : (e.onSwd f).retBad = e.retBad := rfl
@[simp] theorem Eng.onSwd_rs (f : Swd → Swd) : (e.onSwd f).rs = e.rs := rfl
@[simp] theorem Eng.onSwd_dev (f : Swd → Swd) : (e.onSwd f).dev = e.dev := rfl
@[simp] theorem Eng.onSwd_host (f : Swd → Swd) : (e.onSwd f).host = e.host := rfl
@[simp] theorem Eng.onSwd_free (f : Swd → Swd) : (e.onSwd f).free = e.free := rfl

@[simp] theorem Eng.onHc_port (f : Hc → Hc) : (e.onHc f).port = e.port := rfl
@[simp] theorem Eng.onHc_acc (f : Hc → Hc) : (e.onHc f).acc = e.acc := rfl
@[simp] theorem Eng.onHc_flt (f : Hc → Hc) : (e.onHc f).flt = e.flt := rfl
@[simp] theorem Eng.onHc_fe (f : Hc → Hc) : (e.onHc f).fe = e.fe := rfl
@[simp] theorem Eng.onHc_dirs (f : Hc → Hc) : (e.onHc f).dirs = e.dirs := rfl
@[simp] theorem Eng.onHc_map (f : Hc → Hc) : (e.onHc f).map = e.map := rfl
@[simp] theorem Eng.onHc_grd (f : Hc → Hc) : (e.onHc f).grd = e.grd := rfl
@[simp] theorem Eng.onHc_gln (f : Hc → Hc) : (e.onHc f).gln = e.gln := rfl
@[simp] theorem Eng.onHc_wr (f : Hc → Hc) : (e.onHc f).wr = e.wr := rfl
@[simp] theorem Eng.onHc_swp (f : Hc → Hc) : (e.onHc f).swp = e.swp := rfl
@[simp] theorem Eng.onHc_ted (f : Hc → Hc) : (e.onHc f).ted = e.ted := rfl
@[simp] theorem Eng.onHc_swd (f : Hc → Hc) : (e.onHc f).swd = e.swd := rfl
@[simp] theorem Eng.onHc_mp (f : Hc → Hc) : (e.onHc f).mp = e.mp := rfl
@[simp] theorem Eng.onHc_zw (f : Hc → Hc) : (e.onHc f).zw = e.zw := rfl
@[simp] theorem Eng.onHc_hth (f : Hc → Hc) : (e.onHc f).hth = e.hth := rfl
@[simp] theorem Eng.onHc_tk (f : Hc → Hc) : (e.onHc f).tk = e.tk := rfl
@[simp] theorem Eng.onHc_smp (f : Hc → Hc) : (e.onHc f).smp = e.smp := rfl
@[simp] theorem Eng.onHc_clp (f : Hc → Hc) : (e.onHc f).clp = e.clp := rfl
@[simp] theorem Eng.onHc_ret (f : Hc → Hc) : (e.onHc f).ret = e.ret := rfl
@[simp] theorem Eng.onHc_retBad (f : Hc → Hc) : (e.onHc f).retBad = e.retBad := rfl
@[simp] theorem Eng.onHc_rs (f : Hc → Hc) : (e.onHc f).rs = e.rs := rfl
@[simp] theorem Eng.onHc_dev (f : Hc → Hc) : (e.onHc f).dev = e.dev := rfl
@[simp] theorem Eng.onHc_host (f : Hc → Hc) : (e.onHc f).host = e.host := rfl
@[simp] theorem Eng.onHc_free (f : Hc → Hc) : (e.onHc f).free = e.free := rfl

@[simp] theorem Eng.onZw_port (f : Zw → Zw) : (e.onZw f).port = e.port := rfl
@[simp] theorem Eng.onZw_acc (f : Zw → Zw) : (e.onZw f).acc = e.acc := rfl
@[simp] theorem Eng.onZw_flt (f : Zw → Zw) : (e.onZw f).flt = e.flt := rfl
@[simp] theorem Eng.onZw_fe (f : Zw → Zw) : (e.onZw f).fe = e.fe := rfl
@[simp] theorem Eng.onZw_dirs (f : Zw → Zw) : (e.onZw f).dirs = e.dirs := rfl
@[simp] theorem Eng.onZw_map (f : Zw → Zw) : (e.onZw f).map = e.map := rfl
@[simp] theorem Eng.onZw_grd (f : Zw → Zw) : (e.onZw f).grd = e.grd := rfl
@[simp] theorem Eng.onZw_gln (f : Zw → Zw) : (e.onZw f).gln = e.gln := rfl
@[simp] theorem Eng.onZw_wr (f : Zw → Zw) : (e.onZw f).wr = e.wr := rfl
@[simp] theorem Eng.onZw_swp (f : Zw → Zw) : (e.onZw f).swp = e.swp := rfl
@[simp] theorem Eng.onZw_ted (f : Zw → Zw) : (e.onZw f).ted = e.ted := rfl
@[simp] theorem Eng.onZw_swd (f : Zw → Zw) : (e.onZw f).swd = e.swd := rfl
@[simp] theorem Eng.onZw_mp (f : Zw → Zw) : (e.onZw f).mp = e.mp := rfl
@[simp] theorem Eng.onZw_hc (f : Zw → Zw) : (e.onZw f).hc = e.hc := rfl
@[simp] theorem Eng.onZw_hth (f : Zw → Zw) : (e.onZw f).hth = e.hth := rfl
@[simp] theorem Eng.onZw_tk (f : Zw → Zw) : (e.onZw f).tk = e.tk := rfl
@[simp] theorem Eng.onZw_smp (f : Zw → Zw) : (e.onZw f).smp = e.smp := rfl
@[simp] theorem Eng.onZw_clp (f : Zw → Zw) : (e.onZw f).clp = e.clp := rfl
@[simp] theorem Eng.onZw_ret (f : Zw → Zw) : (e.onZw f).ret = e.ret := rfl
@[simp] theorem Eng.onZw_retBad (f : Zw → Zw) : (e.onZw f).retBad = e.retBad := rfl
@[simp] theorem Eng.onZw_rs (f : Zw → Zw) : (e.onZw f).rs = e.rs := rfl
@[simp] theorem Eng.onZw_dev (f : Zw → Zw) : (e.onZw f).dev = e.dev := rfl
@[simp] theorem Eng.onZw_host (f : Zw → Zw) : (e.onZw f).host = e.host := rfl
@[simp] theorem Eng.onZw_free (f : Zw → Zw) : (e.onZw f).free = e.free := rfl

@[simp] theorem Eng.onHth_port (f : Hth → Hth) : (e.onHth f).port = e.port := rfl
@[simp] theorem Eng.onHth_acc (f : Hth → Hth) : (e.onHth f).acc = e.acc := rfl
@[simp] theorem Eng.onHth_flt (f : Hth → Hth) : (e.onHth f).flt = e.flt := rfl
@[simp] theorem Eng.onHth_fe (f : Hth → Hth) : (e.onHth f).fe = e.fe := rfl
@[simp] theorem Eng.onHth_dirs (f : Hth → Hth) : (e.onHth f).dirs = e.dirs := rfl
@[simp] theorem Eng.onHth_map (f : Hth → Hth) : (e.onHth f).map = e.map := rfl
@[simp] theorem Eng.onHth_grd (f : Hth → Hth) : (e.onHth f).grd = e.grd := rfl
@[simp] theorem Eng.onHth_gln (f : Hth → Hth) : (e.onHth f).gln = e.gln := rfl
@[simp] theorem Eng.onHth_wr (f : Hth → Hth) : (e.onHth f).wr = e.wr := rfl
@[simp] theorem Eng.onHth_swp (f : Hth → Hth) : (e.onHth f).swp = e.swp := rfl
@[simp] theorem Eng.onHth_ted (f : Hth → Hth) : (e.onHth f).ted = e.ted := rfl
@[simp] theorem Eng.onHth_swd (f : Hth → Hth) : (e.onHth f).swd = e.swd := rfl
@[simp] theorem Eng.onHth_mp (f : Hth → Hth) : (e.onHth f).mp = e.mp := rfl
@[simp] theorem Eng.onHth_hc (f : Hth → Hth) : (e.onHth f).hc = e.hc := rfl
@[simp] theorem Eng.onHth_zw (f : Hth → Hth) : (e.onHth f).zw = e.zw := rfl
@[simp] theorem Eng.onHth_tk (f : Hth → Hth) : (e.onHth f).tk = e.tk := rfl
@[simp] theorem Eng.onHth_smp (f : Hth → Hth) : (e.onHth f).smp = e.smp := rfl
@[simp] theorem Eng.onHth_clp (f : Hth → Hth) : (e.onHth f).clp = e.clp := rfl
@[simp] theorem Eng.onHth_ret (f : Hth → Hth) : (e.onHth f).ret = e.ret := rfl
@[simp] theorem Eng.onHth_retBad (f : Hth → Hth) : (e.onHth f).retBad = e.retBad := rfl
@[simp] theorem Eng.onHth_rs (f : Hth → Hth) : (e.onHth f).rs = e.rs := rfl
@[simp] theorem Eng.onHth_dev (f : Hth → Hth) : (e.onHth f).dev = e.dev := rfl
@[simp] theorem Eng.onHth_host (f : Hth → Hth) : (e.onHth f).host = e.host := rfl
@[simp] theorem Eng.onHth_free (f : Hth → Hth) : (e.onHth f).free = e.free := rfl

@[simp] theorem Eng.onTk_port (f : Tk → Tk) : (e.onTk f).port = e.port := rfl
@[simp] theorem Eng.onTk_acc (f : Tk → Tk) : (e.onTk f).acc = e.acc := rfl
@[simp] theorem Eng.onTk_flt (f : Tk → Tk) : (e.onTk f).flt = e.flt := rfl
@[simp] theorem Eng.onTk_fe (f : Tk → Tk) : (e.onTk f).fe = e.fe := rfl
@[simp] theorem Eng.onTk_dirs (f : Tk → Tk) : (e.onTk f).dirs = e.dirs := rfl
@[simp] theorem Eng.onTk_map (f : Tk → Tk) : (e.onTk f).map = e.map := rfl
@[simp] theorem Eng.onTk_grd (f : Tk → Tk) : (e.onTk f).grd = e.grd := rfl
@[simp] theorem Eng.onTk_gln (f : Tk → Tk) : (e.onTk f).gln = e.gln := rfl
@[simp] theorem Eng.onTk_wr (f : Tk → Tk) : (e.onTk f).wr = e.wr := rfl
@[simp] theorem Eng.onTk_swp (f : Tk → Tk) : (e.onTk f).swp = e.swp := rfl
@[simp] theorem Eng.onTk_ted (f : Tk → Tk) : (e.onTk f).ted = e.ted := rfl
@[simp] theorem Eng.onTk_swd (f : Tk → Tk) : (e.onTk f).swd = e.swd := rfl
@[simp] theorem Eng.onTk_mp (f : Tk → Tk) : (e.onTk f).mp = e.mp := rfl
@[simp] theorem Eng.onTk_hc (f : Tk → Tk) : (e.onTk f).hc = e.hc := rfl
@[simp] theorem Eng.onTk_zw (f : Tk → Tk) : (e.onTk f).zw = e.zw := rfl
@[simp] theorem Eng.onTk_hth (f : Tk → Tk) : (e.onTk f).hth = e.hth := rfl
@[simp] theorem Eng.onTk_smp (f : Tk → Tk) : (e.onTk f).smp = e.smp := rfl
@[simp] theorem Eng.onTk_clp (f : Tk → Tk) : (e.onTk f).clp = e.clp := rfl
@[simp] theorem Eng.onTk_ret (f : Tk → Tk) : (e.onTk f).ret = e.ret := rfl
@[simp] theorem Eng.onTk_retBad (f : Tk → Tk) : (e.onTk f).retBad = e.retBad := rfl
@[simp] theorem Eng.onTk_rs (f : Tk → Tk) : (e.onTk f).rs = e.rs := rfl
@[simp] theorem Eng.onTk_dev (f : Tk → Tk) : (e.onTk f).dev = e.dev := rfl
@[simp] theorem Eng.onTk_host (f : Tk → Tk) : (e.onTk f).host = e.host := rfl
@[simp] theorem Eng.onTk_free (f : Tk → Tk) : (e.onTk f).free = e.free := rfl

@[simp] theorem Eng.onSmp_port (f : Smp → Smp) : (e.onSmp f).port = e.port := rfl
@[simp] theorem Eng.onSmp_acc (f : Smp → Smp) : (e.onSmp f).acc = e.acc := rfl
@[simp] theorem Eng.onSmp_flt (f : Smp → Smp) : (e.onSmp f).flt = e.flt := rfl
@[simp] theorem Eng.onSmp_fe (f : Smp → Smp) : (e.onSmp f).fe = e.fe := rfl
@[simp] theorem Eng.onSmp_dirs (f : Smp → Smp) : (e.onSmp f).dirs = e.dirs := rfl
@[simp] theorem Eng.onSmp_map (f : Smp → Smp) : (e.onSmp f).map = e.map := rfl
@[simp] theorem Eng.onSmp_grd (f : Smp → Smp) : (e.onSmp f).grd = e.grd := rfl
@[simp] theorem Eng.onSmp_gln (f : Smp → Smp) : (e.onSmp f).gln = e.gln := rfl
@[simp] theorem Eng.onSmp_wr (f : Smp → Smp) : (e.onSmp f).wr = e.wr := rfl
@[simp] theorem Eng.onSmp_swp (f : Smp → Smp) : (e.onSmp f).swp = e.swp := rfl
@[simp] theorem Eng.onSmp_ted (f : Smp → Smp) : (e.onSmp f).ted = e.ted := rfl
@[simp] theorem Eng.onSmp_swd (f : Smp → Smp) : (e.onSmp f).swd = e.swd := rfl
@[simp] theorem Eng.onSmp_mp (f : Smp → Smp) : (e.onSmp f).mp = e.mp := rfl
@[simp] theorem Eng.onSmp_hc (f : Smp → Smp) : (e.onSmp f).hc = e.hc := rfl
@[simp] theorem Eng.onSmp_zw (f : Smp → Smp) : (e.onSmp f).zw = e.zw := rfl
@[simp] theorem Eng.onSmp_hth (f : Smp → Smp) : (e.onSmp f).hth = e.hth := rfl
@[simp] theorem Eng.onSmp_tk (f : Smp → Smp) : (e.onSmp f).tk = e.tk := rfl
@[simp] theorem Eng.onSmp_clp (f : Smp → Smp) : (e.onSmp f).clp = e.clp := rfl
@[simp] theorem Eng.onSmp_ret (f : Smp → Smp) : (e.onSmp f).ret = e.ret := rfl
@[simp] theorem Eng.onSmp_retBad (f : Smp → Smp) : (e.onSmp f).retBad = e.retBad := rfl
@[simp] theorem Eng.onSmp_rs (f : Smp → Smp) : (e.onSmp f).rs = e.rs := rfl
@[simp] theorem Eng.onSmp_dev (f : Smp → Smp) : (e.onSmp f).dev = e.dev := rfl
@[simp] theorem Eng.onSmp_host (f : Smp → Smp) : (e.onSmp f).host = e.host := rfl
@[simp] theorem Eng.onSmp_free (f : Smp → Smp) : (e.onSmp f).free = e.free := rfl

@[simp] theorem Eng.setPort_port (p : Nat) (x : ZPort) : (e.setPort p x).port = e.port := rfl
@[simp] theorem Eng.setPort_acc (p : Nat) (x : ZPort) : (e.setPort p x).acc = e.acc := rfl
@[simp] theorem Eng.setPort_flt (p : Nat) (x : ZPort) : (e.setPort p x).flt = e.flt := rfl
@[simp] theorem Eng.setPort_fe (p : Nat) (x : ZPort) : (e.setPort p x).fe = e.fe := rfl
@[simp] theorem Eng.setPort_dirs (p : Nat) (x : ZPort) : (e.setPort p x).dirs = e.dirs := rfl
@[simp] theorem Eng.setPort_map (p : Nat) (x : ZPort) : (e.setPort p x).map = e.map := rfl
@[simp] theorem Eng.setPort_grd (p : Nat) (x : ZPort) : (e.setPort p x).grd = e.grd := rfl
@[simp] theorem Eng.setPort_gln (p : Nat) (x : ZPort) : (e.setPort p x).gln = e.gln := rfl
@[simp] theorem Eng.setPort_wr (p : Nat) (x : ZPort) : (e.setPort p x).wr = e.wr := rfl
@[simp] theorem Eng.setPort_swp (p : Nat) (x : ZPort) : (e.setPort p x).swp = e.swp := rfl
@[simp] theorem Eng.setPort_ted (p : Nat) (x : ZPort) : (e.setPort p x).ted = e.ted := rfl
@[simp] theorem Eng.setPort_swd (p : Nat) (x : ZPort) : (e.setPort p x).swd = e.swd := rfl
@[simp] theorem Eng.setPort_mp (p : Nat) (x : ZPort) : (e.setPort p x).mp = e.mp := rfl
@[simp] theorem Eng.setPort_hc (p : Nat) (x : ZPort) : (e.setPort p x).hc = e.hc := rfl
@[simp] theorem Eng.setPort_hth (p : Nat) (x : ZPort) : (e.setPort p x).hth = e.hth := rfl
@[simp] theorem Eng.setPort_tk (p : Nat) (x : ZPort) : (e.setPort p x).tk = e.tk := rfl
@[simp] theorem Eng.setPort_smp (p : Nat) (x : ZPort) : (e.setPort p x).smp = e.smp := rfl
@[simp] theorem Eng.setPort_clp (p : Nat) (x : ZPort) : (e.setPort p x).clp = e.clp := rfl
@[simp] theorem Eng.setPort_ret (p : Nat) (x : ZPort) : (e.setPort p x).ret = e.ret := rfl
@[simp] theorem Eng.setPort_retBad (p : Nat) (x : ZPort) : (e.setPort p x).retBad = e.retBad := rfl
@[simp] theorem Eng.setPort_rs (p : Nat) (x : ZPort) : (e.setPort p x).rs = e.rs := rfl
@[simp] theorem Eng.setPort_dev (p : Nat) (x : ZPort) : (e.setPort p x).dev = e.dev := rfl
@[simp] theorem Eng.setPort_host (p : Nat) (x : ZPort) : (e.setPort p x).host = e.host := rfl
@[simp] theorem Eng.setPort_free (p : Nat) (x : ZPort) : (e.setPort p x).free = e.free := rfl

@[simp] theorem Eng.setReel_port (n : Nat) (r : Reel) : (e.setReel n r).port = e.port := rfl
@[simp] theorem Eng.setReel_acc (n : Nat) (r : Reel) : (e.setReel n r).acc = e.acc := rfl
@[simp] theorem Eng.setReel_flt (n : Nat) (r : Reel) : (e.setReel n r).flt = e.flt := rfl
@[simp] theorem Eng.setReel_dirs (n : Nat) (r : Reel) : (e.setReel n r).dirs = e.dirs := rfl
@[simp] theorem Eng.setReel_map (n : Nat) (r : Reel) : (e.setReel n r).map = e.map := rfl
@[simp] theorem Eng.setReel_grd (n : Nat) (r : Reel) : (e.setReel n r).grd = e.grd := rfl
@[simp] theorem Eng.setReel_gln (n : Nat) (r : Reel) : (e.setReel n r).gln = e.gln := rfl
@[simp] theorem Eng.setReel_wr (n : Nat) (r : Reel) : (e.setReel n r).wr = e.wr := rfl
@[simp] theorem Eng.setReel_swp (n : Nat) (r : Reel) : (e.setReel n r).swp = e.swp := rfl
@[simp] theorem Eng.setReel_ted (n : Nat) (r : Reel) : (e.setReel n r).ted = e.ted := rfl
@[simp] theorem Eng.setReel_swd (n : Nat) (r : Reel) : (e.setReel n r).swd = e.swd := rfl
@[simp] theorem Eng.setReel_mp (n : Nat) (r : Reel) : (e.setReel n r).mp = e.mp := rfl
@[simp] theorem Eng.setReel_hc (n : Nat) (r : Reel) : (e.setReel n r).hc = e.hc := rfl
@[simp] theorem Eng.setReel_zw (n : Nat) (r : Reel) : (e.setReel n r).zw = e.zw := rfl
@[simp] theorem Eng.setReel_hth (n : Nat) (r : Reel) : (e.setReel n r).hth = e.hth := rfl
@[simp] theorem Eng.setReel_tk (n : Nat) (r : Reel) : (e.setReel n r).tk = e.tk := rfl
@[simp] theorem Eng.setReel_smp (n : Nat) (r : Reel) : (e.setReel n r).smp = e.smp := rfl
@[simp] theorem Eng.setReel_clp (n : Nat) (r : Reel) : (e.setReel n r).clp = e.clp := rfl
@[simp] theorem Eng.setReel_ret (n : Nat) (r : Reel) : (e.setReel n r).ret = e.ret := rfl
@[simp] theorem Eng.setReel_retBad (n : Nat) (r : Reel) : (e.setReel n r).retBad = e.retBad := rfl
@[simp] theorem Eng.setReel_rs (n : Nat) (r : Reel) : (e.setReel n r).rs = e.rs := rfl
@[simp] theorem Eng.setReel_dev (n : Nat) (r : Reel) : (e.setReel n r).dev = e.dev := rfl
@[simp] theorem Eng.setReel_host (n : Nat) (r : Reel) : (e.setReel n r).host = e.host := rfl
@[simp] theorem Eng.setReel_free (n : Nat) (r : Reel) : (e.setReel n r).free = e.free := rfl

@[simp] theorem Eng.setMreel_port (n : Nat) (r : MReel) : (e.setMreel n r).port = e.port := rfl
@[simp] theorem Eng.setMreel_acc (n : Nat) (r : MReel) : (e.setMreel n r).acc = e.acc := rfl
@[simp] theorem Eng.setMreel_flt (n : Nat) (r : MReel) : (e.setMreel n r).flt = e.flt := rfl
@[simp] theorem Eng.setMreel_dirs (n : Nat) (r : MReel) : (e.setMreel n r).dirs = e.dirs := rfl
@[simp] theorem Eng.setMreel_map (n : Nat) (r : MReel) : (e.setMreel n r).map = e.map := rfl
@[simp] theorem Eng.setMreel_grd (n : Nat) (r : MReel) : (e.setMreel n r).grd = e.grd := rfl
@[simp] theorem Eng.setMreel_gln (n : Nat) (r : MReel) : (e.setMreel n r).gln = e.gln := rfl
@[simp] theorem Eng.setMreel_wr (n : Nat) (r : MReel) : (e.setMreel n r).wr = e.wr := rfl
@[simp] theorem Eng.setMreel_swp (n : Nat) (r : MReel) : (e.setMreel n r).swp = e.swp := rfl
@[simp] theorem Eng.setMreel_ted (n : Nat) (r : MReel) : (e.setMreel n r).ted = e.ted := rfl
@[simp] theorem Eng.setMreel_swd (n : Nat) (r : MReel) : (e.setMreel n r).swd = e.swd := rfl
@[simp] theorem Eng.setMreel_mp (n : Nat) (r : MReel) : (e.setMreel n r).mp = e.mp := rfl
@[simp] theorem Eng.setMreel_hc (n : Nat) (r : MReel) : (e.setMreel n r).hc = e.hc := rfl
@[simp] theorem Eng.setMreel_zw (n : Nat) (r : MReel) : (e.setMreel n r).zw = e.zw := rfl
@[simp] theorem Eng.setMreel_hth (n : Nat) (r : MReel) : (e.setMreel n r).hth = e.hth := rfl
@[simp] theorem Eng.setMreel_tk (n : Nat) (r : MReel) : (e.setMreel n r).tk = e.tk := rfl
@[simp] theorem Eng.setMreel_smp (n : Nat) (r : MReel) : (e.setMreel n r).smp = e.smp := rfl
@[simp] theorem Eng.setMreel_clp (n : Nat) (r : MReel) : (e.setMreel n r).clp = e.clp := rfl
@[simp] theorem Eng.setMreel_ret (n : Nat) (r : MReel) : (e.setMreel n r).ret = e.ret := rfl
@[simp] theorem Eng.setMreel_retBad (n : Nat) (r : MReel) : (e.setMreel n r).retBad = e.retBad := rfl
@[simp] theorem Eng.setMreel_rs (n : Nat) (r : MReel) : (e.setMreel n r).rs = e.rs := rfl
@[simp] theorem Eng.setMreel_dev (n : Nat) (r : MReel) : (e.setMreel n r).dev = e.dev := rfl
@[simp] theorem Eng.setMreel_host (n : Nat) (r : MReel) : (e.setMreel n r).host = e.host := rfl
@[simp] theorem Eng.setMreel_free (n : Nat) (r : MReel) : (e.setMreel n r).free = e.free := rfl

@[simp] theorem Eng.setDir_port (d : Nat) (x : Dir) : (e.setDir d x).port = e.port := rfl
@[simp] theorem Eng.setDir_acc (d : Nat) (x : Dir) : (e.setDir d x).acc = e.acc := rfl
@[simp] theorem Eng.setDir_flt (d : Nat) (x : Dir) : (e.setDir d x).flt = e.flt := rfl
@[simp] theorem Eng.setDir_fe (d : Nat) (x : Dir) : (e.setDir d x).fe = e.fe := rfl
@[simp] theorem Eng.setDir_map (d : Nat) (x : Dir) : (e.setDir d x).map = e.map := rfl
@[simp] theorem Eng.setDir_grd (d : Nat) (x : Dir) : (e.setDir d x).grd = e.grd := rfl
@[simp] theorem Eng.setDir_gln (d : Nat) (x : Dir) : (e.setDir d x).gln = e.gln := rfl
@[simp] theorem Eng.setDir_wr (d : Nat) (x : Dir) : (e.setDir d x).wr = e.wr := rfl
@[simp] theorem Eng.setDir_swp (d : Nat) (x : Dir) : (e.setDir d x).swp = e.swp := rfl
@[simp] theorem Eng.setDir_ted (d : Nat) (x : Dir) : (e.setDir d x).ted = e.ted := rfl
@[simp] theorem Eng.setDir_swd (d : Nat) (x : Dir) : (e.setDir d x).swd = e.swd := rfl
@[simp] theorem Eng.setDir_mp (d : Nat) (x : Dir) : (e.setDir d x).mp = e.mp := rfl
@[simp] theorem Eng.setDir_hc (d : Nat) (x : Dir) : (e.setDir d x).hc = e.hc := rfl
@[simp] theorem Eng.setDir_zw (d : Nat) (x : Dir) : (e.setDir d x).zw = e.zw := rfl
@[simp] theorem Eng.setDir_hth (d : Nat) (x : Dir) : (e.setDir d x).hth = e.hth := rfl
@[simp] theorem Eng.setDir_tk (d : Nat) (x : Dir) : (e.setDir d x).tk = e.tk := rfl
@[simp] theorem Eng.setDir_smp (d : Nat) (x : Dir) : (e.setDir d x).smp = e.smp := rfl
@[simp] theorem Eng.setDir_clp (d : Nat) (x : Dir) : (e.setDir d x).clp = e.clp := rfl
@[simp] theorem Eng.setDir_ret (d : Nat) (x : Dir) : (e.setDir d x).ret = e.ret := rfl
@[simp] theorem Eng.setDir_retBad (d : Nat) (x : Dir) : (e.setDir d x).retBad = e.retBad := rfl
@[simp] theorem Eng.setDir_rs (d : Nat) (x : Dir) : (e.setDir d x).rs = e.rs := rfl
@[simp] theorem Eng.setDir_dev (d : Nat) (x : Dir) : (e.setDir d x).dev = e.dev := rfl
@[simp] theorem Eng.setDir_host (d : Nat) (x : Dir) : (e.setDir d x).host = e.host := rfl
@[simp] theorem Eng.setDir_free (d : Nat) (x : Dir) : (e.setDir d x).free = e.free := rfl

@[simp] theorem Eng.onDir_port (d : Nat) (f : Dir → Dir) : (e.onDir d f).port = e.port := rfl
@[simp] theorem Eng.onDir_acc (d : Nat) (f : Dir → Dir) : (e.onDir d f).acc = e.acc := rfl
@[simp] theorem Eng.onDir_flt (d : Nat) (f : Dir → Dir) : (e.onDir d f).flt = e.flt := rfl
@[simp] theorem Eng.onDir_fe (d : Nat) (f : Dir → Dir) : (e.onDir d f).fe = e.fe := rfl
@[simp] theorem Eng.onDir_map (d : Nat) (f : Dir → Dir) : (e.onDir d f).map = e.map := rfl
@[simp] theorem Eng.onDir_grd (d : Nat) (f : Dir → Dir) : (e.onDir d f).grd = e.grd := rfl
@[simp] theorem Eng.onDir_gln (d : Nat) (f : Dir → Dir) : (e.onDir d f).gln = e.gln := rfl
@[simp] theorem Eng.onDir_wr (d : Nat) (f : Dir → Dir) : (e.onDir d f).wr = e.wr := rfl
@[simp] theorem Eng.onDir_swp (d : Nat) (f : Dir → Dir) : (e.onDir d f).swp = e.swp := rfl
@[simp] theorem Eng.onDir_ted (d : Nat) (f : Dir → Dir) : (e.onDir d f).ted = e.ted := rfl
@[simp] theorem Eng.onDir_swd (d : Nat) (f : Dir → Dir) : (e.onDir d f).swd = e.swd := rfl
@[simp] theorem Eng.onDir_mp (d : Nat) (f : Dir → Dir) : (e.onDir d f).mp = e.mp := rfl
@[simp] theorem Eng.onDir_hc (d : Nat) (f : Dir → Dir) : (e.onDir d f).hc = e.hc := rfl
@[simp] theorem Eng.onDir_zw (d : Nat) (f : Dir → Dir) : (e.onDir d f).zw = e.zw := rfl
@[simp] theorem Eng.onDir_hth (d : Nat) (f : Dir → Dir) : (e.onDir d f).hth = e.hth := rfl
@[simp] theorem Eng.onDir_tk (d : Nat) (f : Dir → Dir) : (e.onDir d f).tk = e.tk := rfl
@[simp] theorem Eng.onDir_smp (d : Nat) (f : Dir → Dir) : (e.onDir d f).smp = e.smp := rfl
@[simp] theorem Eng.onDir_clp (d : Nat) (f : Dir → Dir) : (e.onDir d f).clp = e.clp := rfl
@[simp] theorem Eng.onDir_ret (d : Nat) (f : Dir → Dir) : (e.onDir d f).ret = e.ret := rfl
@[simp] theorem Eng.onDir_retBad (d : Nat) (f : Dir → Dir) : (e.onDir d f).retBad = e.retBad := rfl
@[simp] theorem Eng.onDir_rs (d : Nat) (f : Dir → Dir) : (e.onDir d f).rs = e.rs := rfl
@[simp] theorem Eng.onDir_dev (d : Nat) (f : Dir → Dir) : (e.onDir d f).dev = e.dev := rfl
@[simp] theorem Eng.onDir_host (d : Nat) (f : Dir → Dir) : (e.onDir d f).host = e.host := rfl
@[simp] theorem Eng.onDir_free (d : Nat) (f : Dir → Dir) : (e.onDir d f).free = e.free := rfl

@[simp] theorem Eng.setRet_port (i : Nat) (v : W32) : (e.setRet i v).port = e.port := rfl
@[simp] theorem Eng.setRet_acc (i : Nat) (v : W32) : (e.setRet i v).acc = e.acc := rfl
@[simp] theorem Eng.setRet_flt (i : Nat) (v : W32) : (e.setRet i v).flt = e.flt := rfl
@[simp] theorem Eng.setRet_fe (i : Nat) (v : W32) : (e.setRet i v).fe = e.fe := rfl
@[simp] theorem Eng.setRet_dirs (i : Nat) (v : W32) : (e.setRet i v).dirs = e.dirs := rfl
@[simp] theorem Eng.setRet_map (i : Nat) (v : W32) : (e.setRet i v).map = e.map := rfl
@[simp] theorem Eng.setRet_grd (i : Nat) (v : W32) : (e.setRet i v).grd = e.grd := rfl
@[simp] theorem Eng.setRet_gln (i : Nat) (v : W32) : (e.setRet i v).gln = e.gln := rfl
@[simp] theorem Eng.setRet_wr (i : Nat) (v : W32) : (e.setRet i v).wr = e.wr := rfl
@[simp] theorem Eng.setRet_swp (i : Nat) (v : W32) : (e.setRet i v).swp = e.swp := rfl
@[simp] theorem Eng.setRet_ted (i : Nat) (v : W32) : (e.setRet i v).ted = e.ted := rfl
@[simp] theorem Eng.setRet_swd (i : Nat) (v : W32) : (e.setRet i v).swd = e.swd := rfl
@[simp] theorem Eng.setRet_mp (i : Nat) (v : W32) : (e.setRet i v).mp = e.mp := rfl
@[simp] theorem Eng.setRet_hc (i : Nat) (v : W32) : (e.setRet i v).hc = e.hc := rfl
@[simp] theorem Eng.setRet_zw (i : Nat) (v : W32) : (e.setRet i v).zw = e.zw := rfl
@[simp] theorem Eng.setRet_hth (i : Nat) (v : W32) : (e.setRet i v).hth = e.hth := rfl
@[simp] theorem Eng.setRet_tk (i : Nat) (v : W32) : (e.setRet i v).tk = e.tk := rfl
@[simp] theorem Eng.setRet_smp (i : Nat) (v : W32) : (e.setRet i v).smp = e.smp := rfl
@[simp] theorem Eng.setRet_clp (i : Nat) (v : W32) : (e.setRet i v).clp = e.clp := rfl
@[simp] theorem Eng.setRet_rs (i : Nat) (v : W32) : (e.setRet i v).rs = e.rs := rfl
@[simp] theorem Eng.setRet_dev (i : Nat) (v : W32) : (e.setRet i v).dev = e.dev := rfl
@[simp] theorem Eng.setRet_host (i : Nat) (v : W32) : (e.setRet i v).host = e.host := rfl
@[simp] theorem Eng.setRet_free (i : Nat) (v : W32) : (e.setRet i v).free = e.free := rfl

@[simp] theorem Eng.thruWr_port (w : Bool) (a : Nat) (bs : List Byte) : (e.thruWr w a bs).port = e.port := rfl
@[simp] theorem Eng.thruWr_acc (w : Bool) (a : Nat) (bs : List Byte) : (e.thruWr w a bs).acc = e.acc := rfl
@[simp] theorem Eng.thruWr_flt (w : Bool) (a : Nat) (bs : List Byte) : (e.thruWr w a bs).flt = e.flt := rfl
@[simp] theorem Eng.thruWr_fe (w : Bool) (a : Nat) (bs : List Byte) : (e.thruWr w a bs).fe = e.fe := rfl
@[simp] theorem Eng.thruWr_dirs (w : Bool) (a : Nat) (bs : List Byte) : (e.thruWr w a bs).dirs = e.dirs := rfl
@[simp] theorem Eng.thruWr_map (w : Bool) (a : Nat) (bs : List Byte) : (e.thruWr w a bs).map = e.map := rfl
@[simp] theorem Eng.thruWr_grd (w : Bool) (a : Nat) (bs : List Byte) : (e.thruWr w a bs).grd = e.grd := rfl
@[simp] theorem Eng.thruWr_gln (w : Bool) (a : Nat) (bs : List Byte) : (e.thruWr w a bs).gln = e.gln := rfl
@[simp] theorem Eng.thruWr_wr (w : Bool) (a : Nat) (bs : List Byte) : (e.thruWr w a bs).wr = e.wr := rfl
@[simp] theorem Eng.thruWr_swp (w : Bool) (a : Nat) (bs : List Byte) : (e.thruWr w a bs).swp = e.swp := rfl
@[simp] theorem Eng.thruWr_ted (w : Bool) (a : Nat) (bs : List Byte) : (e.thruWr w a bs).ted = e.ted := rfl
@[simp] theorem Eng.thruWr_hc (w : Bool) (a : Nat) (bs : List Byte) : (e.thruWr w a bs).hc = e.hc := rfl
@[simp] theorem Eng.thruWr_zw (w : Bool) (a : Nat) (bs : List Byte) : (e.thruWr w a bs).zw = e.zw := rfl
@[simp] theorem Eng.thruWr_hth (w : Bool) (a : Nat) (bs : List Byte) : (e.thruWr w a bs).hth = e.hth := rfl
@[simp] theorem Eng.thruWr_tk (w : Bool) (a : Nat) (bs : List Byte) : (e.thruWr w a bs).tk = e.tk := rfl
@[simp] theorem Eng.thruWr_smp (w : Bool) (a : Nat) (bs : List Byte) : (e.thruWr w a bs).smp = e.smp := rfl
@[simp] theorem Eng.thruWr_clp (w : Bool) (a : Nat) (bs : List Byte) : (e.thruWr w a bs).clp = e.clp := rfl
@[simp] theorem Eng.thruWr_ret (w : Bool) (a : Nat) (bs : List Byte) : (e.thruWr w a bs).ret = e.ret := rfl
@[simp] theorem Eng.thruWr_retBad (w : Bool) (a : Nat) (bs : List Byte) : (e.thruWr w a bs).retBad = e.retBad := rfl
@[simp] theorem Eng.thruWr_rs (w : Bool) (a : Nat) (bs : List Byte) : (e.thruWr w a bs).rs = e.rs := rfl
@[simp] theorem Eng.thruWr_host (w : Bool) (a : Nat) (bs : List Byte) : (e.thruWr w a bs).host = e.host := rfl
@[simp] theorem Eng.thruWr_free (w : Bool) (a : Nat) (bs : List Byte) : (e.thruWr w a bs).free = e.free := rfl

@[simp] theorem Eng.clpQueue_port (r : ClpReq) : (e.clpQueue r).port = e.port := rfl
@[simp] theorem Eng.clpQueue_acc (r : ClpReq) : (e.clpQueue r).acc = e.acc := rfl
@[simp] theorem Eng.clpQueue_flt (r : ClpReq) : (e.clpQueue r).flt = e.flt := rfl
@[simp] theorem Eng.clpQueue_fe (r : ClpReq) : (e.clpQueue r).fe = e.fe := rfl
@[simp] theorem Eng.clpQueue_dirs (r : ClpReq) : (e.clpQueue r).dirs = e.dirs := rfl
@[simp] theorem Eng.clpQueue_map (r : ClpReq) : (e.clpQueue r).map = e.map := rfl
@[simp] theorem Eng.clpQueue_grd (r : ClpReq) : (e.clpQueue r).grd = e.grd := rfl
@[simp] theorem Eng.clpQueue_gln (r : ClpReq) : (e.clpQueue r).gln = e.gln := rfl
@[simp] theorem Eng.clpQueue_wr (r : ClpReq) : (e.clpQueue r).wr = e.wr := rfl
@[simp] theorem Eng.clpQueue_swp (r : ClpReq) : (e.clpQueue r).swp = e.swp := rfl
@[simp] theorem Eng.clpQueue_ted (r : ClpReq) : (e.clpQueue r).ted = e.ted := rfl
@[simp] theorem Eng.clpQueue_swd (r : ClpReq) : (e.clpQueue r).swd = e.swd := rfl
@[simp] theorem Eng.clpQueue_mp (r : ClpReq) : (e.clpQueue r).mp = e.mp := rfl
@[simp] theorem Eng.clpQueue_hc (r : ClpReq) : (e.clpQueue r).hc = e.hc := rfl
@[simp] theorem Eng.clpQueue_zw (r : ClpReq) : (e.clpQueue r).zw = e.zw := rfl
@[simp] theorem Eng.clpQueue_hth (r : ClpReq) : (e.clpQueue r).hth = e.hth := rfl
@[simp] theorem Eng.clpQueue_tk (r : ClpReq) : (e.clpQueue r).tk = e.tk := rfl
@[simp] theorem Eng.clpQueue_smp (r : ClpReq) : (e.clpQueue r).smp = e.smp := rfl
@[simp] theorem Eng.clpQueue_ret (r : ClpReq) : (e.clpQueue r).ret = e.ret := rfl
@[simp] theorem Eng.clpQueue_retBad (r : ClpReq) : (e.clpQueue r).retBad = e.retBad := rfl
@[simp] theorem Eng.clpQueue_rs (r : ClpReq) : (e.clpQueue r).rs = e.rs := rfl
@[simp] theorem Eng.clpQueue_dev (r : ClpReq) : (e.clpQueue r).dev = e.dev := rfl
@[simp] theorem Eng.clpQueue_host (r : ClpReq) : (e.clpQueue r).host = e.host := rfl
@[simp] theorem Eng.clpQueue_free (r : ClpReq) : (e.clpQueue r).free = e.free := rfl

@[simp] theorem Eng.answered_port (a n : Nat) : (e.answered a n).port = e.port := rfl
@[simp] theorem Eng.answered_acc (a n : Nat) : (e.answered a n).acc = e.acc := rfl
@[simp] theorem Eng.answered_flt (a n : Nat) : (e.answered a n).flt = e.flt := rfl
@[simp] theorem Eng.answered_fe (a n : Nat) : (e.answered a n).fe = e.fe := rfl
@[simp] theorem Eng.answered_dirs (a n : Nat) : (e.answered a n).dirs = e.dirs := rfl
@[simp] theorem Eng.answered_map (a n : Nat) : (e.answered a n).map = e.map := rfl
@[simp] theorem Eng.answered_grd (a n : Nat) : (e.answered a n).grd = e.grd := rfl
@[simp] theorem Eng.answered_gln (a n : Nat) : (e.answered a n).gln = e.gln := rfl
@[simp] theorem Eng.answered_wr (a n : Nat) : (e.answered a n).wr = e.wr := rfl
@[simp] theorem Eng.answered_swp (a n : Nat) : (e.answered a n).swp = e.swp := rfl
@[simp] theorem Eng.answered_ted (a n : Nat) : (e.answered a n).ted = e.ted := rfl
@[simp] theorem Eng.answered_swd (a n : Nat) : (e.answered a n).swd = e.swd := rfl
@[simp] theorem Eng.answered_hc (a n : Nat) : (e.answered a n).hc = e.hc := rfl
@[simp] theorem Eng.answered_zw (a n : Nat) : (e.answered a n).zw = e.zw := rfl
@[simp] theorem Eng.answered_hth (a n : Nat) : (e.answered a n).hth = e.hth := rfl
@[simp] theorem Eng.answered_tk (a n : Nat) : (e.answered a n).tk = e.tk := rfl
@[simp] theorem Eng.answered_smp (a n : Nat) : (e.answered a n).smp = e.smp := rfl
@[simp] theorem Eng.answered_clp (a n : Nat) : (e.answered a n).clp = e.clp := rfl
@[simp] theorem Eng.answered_ret (a n : Nat) : (e.answered a n).ret = e.ret := rfl
@[simp] theorem Eng.answered_retBad (a n : Nat) : (e.answered a n).retBad = e.retBad := rfl
@[simp] theorem Eng.answered_rs (a n : Nat) : (e.answered a n).rs = e.rs := rfl
@[simp] theorem Eng.answered_dev (a n : Nat) : (e.answered a n).dev = e.dev := rfl
@[simp] theorem Eng.answered_host (a n : Nat) : (e.answered a n).host = e.host := rfl
@[simp] theorem Eng.answered_free (a n : Nat) : (e.answered a n).free = e.free := rfl

@[simp] theorem Eng.finishCmd_port (n : Nat) (c : W24) (st : Byte) (fl : BitVec 4) (dt : W32) : (e.finishCmd n c st fl dt).port = e.port := rfl
@[simp] theorem Eng.finishCmd_acc (n : Nat) (c : W24) (st : Byte) (fl : BitVec 4) (dt : W32) : (e.finishCmd n c st fl dt).acc = e.acc := rfl
@[simp] theorem Eng.finishCmd_flt (n : Nat) (c : W24) (st : Byte) (fl : BitVec 4) (dt : W32) : (e.finishCmd n c st fl dt).flt = e.flt := rfl
@[simp] theorem Eng.finishCmd_dirs (n : Nat) (c : W24) (st : Byte) (fl : BitVec 4) (dt : W32) : (e.finishCmd n c st fl dt).dirs = e.dirs := rfl
@[simp] theorem Eng.finishCmd_map (n : Nat) (c : W24) (st : Byte) (fl : BitVec 4) (dt : W32) : (e.finishCmd n c st fl dt).map = e.map := rfl
@[simp] theorem Eng.finishCmd_grd (n : Nat) (c : W24) (st : Byte) (fl : BitVec 4) (dt : W32) : (e.finishCmd n c st fl dt).grd = e.grd := rfl
@[simp] theorem Eng.finishCmd_gln (n : Nat) (c : W24) (st : Byte) (fl : BitVec 4) (dt : W32) : (e.finishCmd n c st fl dt).gln = e.gln := rfl
@[simp] theorem Eng.finishCmd_wr (n : Nat) (c : W24) (st : Byte) (fl : BitVec 4) (dt : W32) : (e.finishCmd n c st fl dt).wr = e.wr := rfl
@[simp] theorem Eng.finishCmd_swp (n : Nat) (c : W24) (st : Byte) (fl : BitVec 4) (dt : W32) : (e.finishCmd n c st fl dt).swp = e.swp := rfl
@[simp] theorem Eng.finishCmd_ted (n : Nat) (c : W24) (st : Byte) (fl : BitVec 4) (dt : W32) : (e.finishCmd n c st fl dt).ted = e.ted := rfl
@[simp] theorem Eng.finishCmd_swd (n : Nat) (c : W24) (st : Byte) (fl : BitVec 4) (dt : W32) : (e.finishCmd n c st fl dt).swd = e.swd := rfl
@[simp] theorem Eng.finishCmd_mp (n : Nat) (c : W24) (st : Byte) (fl : BitVec 4) (dt : W32) : (e.finishCmd n c st fl dt).mp = e.mp := rfl
@[simp] theorem Eng.finishCmd_hc (n : Nat) (c : W24) (st : Byte) (fl : BitVec 4) (dt : W32) : (e.finishCmd n c st fl dt).hc = e.hc := rfl
@[simp] theorem Eng.finishCmd_zw (n : Nat) (c : W24) (st : Byte) (fl : BitVec 4) (dt : W32) : (e.finishCmd n c st fl dt).zw = e.zw := rfl
@[simp] theorem Eng.finishCmd_hth (n : Nat) (c : W24) (st : Byte) (fl : BitVec 4) (dt : W32) : (e.finishCmd n c st fl dt).hth = e.hth := rfl
@[simp] theorem Eng.finishCmd_tk (n : Nat) (c : W24) (st : Byte) (fl : BitVec 4) (dt : W32) : (e.finishCmd n c st fl dt).tk = e.tk := rfl
@[simp] theorem Eng.finishCmd_smp (n : Nat) (c : W24) (st : Byte) (fl : BitVec 4) (dt : W32) : (e.finishCmd n c st fl dt).smp = e.smp := rfl
@[simp] theorem Eng.finishCmd_clp (n : Nat) (c : W24) (st : Byte) (fl : BitVec 4) (dt : W32) : (e.finishCmd n c st fl dt).clp = e.clp := rfl
@[simp] theorem Eng.finishCmd_ret (n : Nat) (c : W24) (st : Byte) (fl : BitVec 4) (dt : W32) : (e.finishCmd n c st fl dt).ret = e.ret := rfl
@[simp] theorem Eng.finishCmd_retBad (n : Nat) (c : W24) (st : Byte) (fl : BitVec 4) (dt : W32) : (e.finishCmd n c st fl dt).retBad = e.retBad := rfl
@[simp] theorem Eng.finishCmd_rs (n : Nat) (c : W24) (st : Byte) (fl : BitVec 4) (dt : W32) : (e.finishCmd n c st fl dt).rs = e.rs := rfl
@[simp] theorem Eng.finishCmd_dev (n : Nat) (c : W24) (st : Byte) (fl : BitVec 4) (dt : W32) : (e.finishCmd n c st fl dt).dev = e.dev := rfl
@[simp] theorem Eng.finishCmd_host (n : Nat) (c : W24) (st : Byte) (fl : BitVec 4) (dt : W32) : (e.finishCmd n c st fl dt).host = e.host := rfl
@[simp] theorem Eng.finishCmd_free (n : Nat) (c : W24) (st : Byte) (fl : BitVec 4) (dt : W32) : (e.finishCmd n c st fl dt).free = e.free := rfl

@[simp] theorem Eng.onGln_self (f : Gln → Gln) : (e.onGln f).gln = f e.gln := rfl
@[simp] theorem Eng.onWr_self (f : Wr → Wr) : (e.onWr f).wr = f e.wr := rfl
@[simp] theorem Eng.onSwp_self (f : Swp → Swp) : (e.onSwp f).swp = f e.swp := rfl
@[simp] theorem Eng.onTed_self (f : Ted → Ted) : (e.onTed f).ted = f e.ted := rfl
@[simp] theorem Eng.onSwd_self (f : Swd → Swd) : (e.onSwd f).swd = f e.swd := rfl
@[simp] theorem Eng.onHc_self (f : Hc → Hc) : (e.onHc f).hc = f e.hc := rfl
@[simp] theorem Eng.onZw_self (f : Zw → Zw) : (e.onZw f).zw = f e.zw := rfl
@[simp] theorem Eng.onHth_self (f : Hth → Hth) : (e.onHth f).hth = f e.hth := rfl
@[simp] theorem Eng.onTk_self (f : Tk → Tk) : (e.onTk f).tk = f e.tk := rfl
@[simp] theorem Eng.onSmp_self (f : Smp → Smp) : (e.onSmp f).smp = f e.smp := rfl
@[simp] theorem Eng.thruWr_self (w : Bool) (a : Nat) (bs : List Byte) : (e.thruWr w a bs).dev = e.dev.wrN a bs := rfl

@[simp] theorem State.onLatch_pending (m : Fin 64) (o : Nat) (f : PairLatch → PairLatch) : (s.onLatch m o f).pending = s.pending := rfl
@[simp] theorem State.onLatch_ao (m : Fin 64) (o : Nat) (f : PairLatch → PairLatch) : (s.onLatch m o f).ao = s.ao := rfl
@[simp] theorem State.onLatch_acc (m : Fin 64) (o : Nat) (f : PairLatch → PairLatch) : (s.onLatch m o f).eng.acc = s.eng.acc := rfl
@[simp] theorem State.onLatch_flt (m : Fin 64) (o : Nat) (f : PairLatch → PairLatch) : (s.onLatch m o f).eng.flt = s.eng.flt := rfl
@[simp] theorem State.onLatch_fe (m : Fin 64) (o : Nat) (f : PairLatch → PairLatch) : (s.onLatch m o f).eng.fe = s.eng.fe := rfl
@[simp] theorem State.onLatch_dirs (m : Fin 64) (o : Nat) (f : PairLatch → PairLatch) : (s.onLatch m o f).eng.dirs = s.eng.dirs := rfl
@[simp] theorem State.onLatch_map (m : Fin 64) (o : Nat) (f : PairLatch → PairLatch) : (s.onLatch m o f).eng.map = s.eng.map := rfl
@[simp] theorem State.onLatch_grd (m : Fin 64) (o : Nat) (f : PairLatch → PairLatch) : (s.onLatch m o f).eng.grd = s.eng.grd := rfl
@[simp] theorem State.onLatch_gln (m : Fin 64) (o : Nat) (f : PairLatch → PairLatch) : (s.onLatch m o f).eng.gln = s.eng.gln := rfl
@[simp] theorem State.onLatch_wr (m : Fin 64) (o : Nat) (f : PairLatch → PairLatch) : (s.onLatch m o f).eng.wr = s.eng.wr := rfl
@[simp] theorem State.onLatch_swp (m : Fin 64) (o : Nat) (f : PairLatch → PairLatch) : (s.onLatch m o f).eng.swp = s.eng.swp := rfl
@[simp] theorem State.onLatch_ted (m : Fin 64) (o : Nat) (f : PairLatch → PairLatch) : (s.onLatch m o f).eng.ted = s.eng.ted := rfl
@[simp] theorem State.onLatch_swd (m : Fin 64) (o : Nat) (f : PairLatch → PairLatch) : (s.onLatch m o f).eng.swd = s.eng.swd := rfl
@[simp] theorem State.onLatch_mp (m : Fin 64) (o : Nat) (f : PairLatch → PairLatch) : (s.onLatch m o f).eng.mp = s.eng.mp := rfl
@[simp] theorem State.onLatch_hc (m : Fin 64) (o : Nat) (f : PairLatch → PairLatch) : (s.onLatch m o f).eng.hc = s.eng.hc := rfl
@[simp] theorem State.onLatch_zw (m : Fin 64) (o : Nat) (f : PairLatch → PairLatch) : (s.onLatch m o f).eng.zw = s.eng.zw := rfl
@[simp] theorem State.onLatch_hth (m : Fin 64) (o : Nat) (f : PairLatch → PairLatch) : (s.onLatch m o f).eng.hth = s.eng.hth := rfl
@[simp] theorem State.onLatch_tk (m : Fin 64) (o : Nat) (f : PairLatch → PairLatch) : (s.onLatch m o f).eng.tk = s.eng.tk := rfl
@[simp] theorem State.onLatch_smp (m : Fin 64) (o : Nat) (f : PairLatch → PairLatch) : (s.onLatch m o f).eng.smp = s.eng.smp := rfl
@[simp] theorem State.onLatch_clp (m : Fin 64) (o : Nat) (f : PairLatch → PairLatch) : (s.onLatch m o f).eng.clp = s.eng.clp := rfl
@[simp] theorem State.onLatch_ret (m : Fin 64) (o : Nat) (f : PairLatch → PairLatch) : (s.onLatch m o f).eng.ret = s.eng.ret := rfl
@[simp] theorem State.onLatch_retBad (m : Fin 64) (o : Nat) (f : PairLatch → PairLatch) : (s.onLatch m o f).eng.retBad = s.eng.retBad := rfl
@[simp] theorem State.onLatch_rs (m : Fin 64) (o : Nat) (f : PairLatch → PairLatch) : (s.onLatch m o f).eng.rs = s.eng.rs := rfl
@[simp] theorem State.onLatch_dev (m : Fin 64) (o : Nat) (f : PairLatch → PairLatch) : (s.onLatch m o f).eng.dev = s.eng.dev := rfl
@[simp] theorem State.onLatch_host (m : Fin 64) (o : Nat) (f : PairLatch → PairLatch) : (s.onLatch m o f).eng.host = s.eng.host := rfl
@[simp] theorem State.onLatch_free (m : Fin 64) (o : Nat) (f : PairLatch → PairLatch) : (s.onLatch m o f).eng.free = s.eng.free := rfl
@[simp] theorem State.respond_pending (m : Fin 64) (v : Nat) : (s.respond m v).pending = s.pending := rfl
@[simp] theorem State.respond_ao (m : Fin 64) (v : Nat) : (s.respond m v).ao = s.ao := rfl
@[simp] theorem State.respond_acc (m : Fin 64) (v : Nat) : (s.respond m v).eng.acc = s.eng.acc := rfl
@[simp] theorem State.respond_flt (m : Fin 64) (v : Nat) : (s.respond m v).eng.flt = s.eng.flt := rfl
@[simp] theorem State.respond_fe (m : Fin 64) (v : Nat) : (s.respond m v).eng.fe = s.eng.fe := rfl
@[simp] theorem State.respond_dirs (m : Fin 64) (v : Nat) : (s.respond m v).eng.dirs = s.eng.dirs := rfl
@[simp] theorem State.respond_map (m : Fin 64) (v : Nat) : (s.respond m v).eng.map = s.eng.map := rfl
@[simp] theorem State.respond_grd (m : Fin 64) (v : Nat) : (s.respond m v).eng.grd = s.eng.grd := rfl
@[simp] theorem State.respond_gln (m : Fin 64) (v : Nat) : (s.respond m v).eng.gln = s.eng.gln := rfl
@[simp] theorem State.respond_wr (m : Fin 64) (v : Nat) : (s.respond m v).eng.wr = s.eng.wr := rfl
@[simp] theorem State.respond_swp (m : Fin 64) (v : Nat) : (s.respond m v).eng.swp = s.eng.swp := rfl
@[simp] theorem State.respond_ted (m : Fin 64) (v : Nat) : (s.respond m v).eng.ted = s.eng.ted := rfl
@[simp] theorem State.respond_swd (m : Fin 64) (v : Nat) : (s.respond m v).eng.swd = s.eng.swd := rfl
@[simp] theorem State.respond_mp (m : Fin 64) (v : Nat) : (s.respond m v).eng.mp = s.eng.mp := rfl
@[simp] theorem State.respond_hc (m : Fin 64) (v : Nat) : (s.respond m v).eng.hc = s.eng.hc := rfl
@[simp] theorem State.respond_zw (m : Fin 64) (v : Nat) : (s.respond m v).eng.zw = s.eng.zw := rfl
@[simp] theorem State.respond_hth (m : Fin 64) (v : Nat) : (s.respond m v).eng.hth = s.eng.hth := rfl
@[simp] theorem State.respond_tk (m : Fin 64) (v : Nat) : (s.respond m v).eng.tk = s.eng.tk := rfl
@[simp] theorem State.respond_smp (m : Fin 64) (v : Nat) : (s.respond m v).eng.smp = s.eng.smp := rfl
@[simp] theorem State.respond_clp (m : Fin 64) (v : Nat) : (s.respond m v).eng.clp = s.eng.clp := rfl
@[simp] theorem State.respond_ret (m : Fin 64) (v : Nat) : (s.respond m v).eng.ret = s.eng.ret := rfl
@[simp] theorem State.respond_retBad (m : Fin 64) (v : Nat) : (s.respond m v).eng.retBad = s.eng.retBad := rfl
@[simp] theorem State.respond_rs (m : Fin 64) (v : Nat) : (s.respond m v).eng.rs = s.eng.rs := rfl
@[simp] theorem State.respond_dev (m : Fin 64) (v : Nat) : (s.respond m v).eng.dev = s.eng.dev := rfl
@[simp] theorem State.respond_host (m : Fin 64) (v : Nat) : (s.respond m v).eng.host = s.eng.host := rfl
@[simp] theorem State.respond_free (m : Fin 64) (v : Nat) : (s.respond m v).eng.free = s.eng.free := rfl
@[simp] theorem State.wait_pending (w : WaitAcc) : (s.wait w).pending = s.pending := rfl
@[simp] theorem State.wait_ao (w : WaitAcc) : (s.wait w).ao = s.ao := rfl
@[simp] theorem State.wait_acc (w : WaitAcc) : (s.wait w).eng.acc = s.eng.acc := rfl
@[simp] theorem State.wait_flt (w : WaitAcc) : (s.wait w).eng.flt = s.eng.flt := rfl
@[simp] theorem State.wait_fe (w : WaitAcc) : (s.wait w).eng.fe = s.eng.fe := rfl
@[simp] theorem State.wait_dirs (w : WaitAcc) : (s.wait w).eng.dirs = s.eng.dirs := rfl
@[simp] theorem State.wait_map (w : WaitAcc) : (s.wait w).eng.map = s.eng.map := rfl
@[simp] theorem State.wait_grd (w : WaitAcc) : (s.wait w).eng.grd = s.eng.grd := rfl
@[simp] theorem State.wait_gln (w : WaitAcc) : (s.wait w).eng.gln = s.eng.gln := rfl
@[simp] theorem State.wait_wr (w : WaitAcc) : (s.wait w).eng.wr = s.eng.wr := rfl
@[simp] theorem State.wait_swp (w : WaitAcc) : (s.wait w).eng.swp = s.eng.swp := rfl
@[simp] theorem State.wait_ted (w : WaitAcc) : (s.wait w).eng.ted = s.eng.ted := rfl
@[simp] theorem State.wait_swd (w : WaitAcc) : (s.wait w).eng.swd = s.eng.swd := rfl
@[simp] theorem State.wait_mp (w : WaitAcc) : (s.wait w).eng.mp = s.eng.mp := rfl
@[simp] theorem State.wait_hc (w : WaitAcc) : (s.wait w).eng.hc = s.eng.hc := rfl
@[simp] theorem State.wait_zw (w : WaitAcc) : (s.wait w).eng.zw = s.eng.zw := rfl
@[simp] theorem State.wait_hth (w : WaitAcc) : (s.wait w).eng.hth = s.eng.hth := rfl
@[simp] theorem State.wait_tk (w : WaitAcc) : (s.wait w).eng.tk = s.eng.tk := rfl
@[simp] theorem State.wait_smp (w : WaitAcc) : (s.wait w).eng.smp = s.eng.smp := rfl
@[simp] theorem State.wait_clp (w : WaitAcc) : (s.wait w).eng.clp = s.eng.clp := rfl
@[simp] theorem State.wait_ret (w : WaitAcc) : (s.wait w).eng.ret = s.eng.ret := rfl
@[simp] theorem State.wait_retBad (w : WaitAcc) : (s.wait w).eng.retBad = s.eng.retBad := rfl
@[simp] theorem State.wait_rs (w : WaitAcc) : (s.wait w).eng.rs = s.eng.rs := rfl
@[simp] theorem State.wait_dev (w : WaitAcc) : (s.wait w).eng.dev = s.eng.dev := rfl
@[simp] theorem State.wait_host (w : WaitAcc) : (s.wait w).eng.host = s.eng.host := rfl
@[simp] theorem State.wait_free (w : WaitAcc) : (s.wait w).eng.free = s.eng.free := rfl

@[simp] theorem State.live_pending (f : Eng → Eng) : (s.live f).pending = s.pending := by unfold State.live; split <;> rfl
@[simp] theorem State.live_ao (f : Eng → Eng) : (s.live f).ao = s.ao := by unfold State.live; split <;> rfl
@[simp] theorem State.live_runs (f : Eng → Eng) : (s.live f).runs = s.runs := by simp [State.runs]
theorem State.live_of_runs {s : State} (h : s.runs = true) (f : Eng → Eng) : s.live f = { s with eng := f s.eng } := by
  simp [State.live, h]
theorem State.live_of_not_runs {s : State} (h : s.runs = false) (f : Eng → Eng) : s.live f = s := by simp [State.live, h]
@[simp] theorem State.tick_ao : s.tick.ao = s.ao := by simp [State.tick]
@[simp] theorem State.tick_pending : s.tick.pending = s.pending := by simp [State.tick]

/-! Indexed fields read as they were set. -/

theorem Eng.dir_setDir (d k : Nat) (x : Dir) : (e.setDir d x).dir k = if k = d then x else e.dir k := SMap.get_set _ _ _ _ _
@[simp] theorem Eng.dir_setDir_self (d : Nat) (x : Dir) : (e.setDir d x).dir d = x := SMap.get_set_self _ _ _ _
theorem Eng.dir_onDir (d k : Nat) (f : Dir → Dir) : (e.onDir d f).dir k = if k = d then f (e.dir d) else e.dir k :=
  SMap.get_set _ _ _ _ _
theorem Eng.reel_setReel (n k : Nat) (r : Reel) : (e.setReel n r).reel k = if k = n then r else e.reel k := SMap.get_set _ _ _ _ _
@[simp] theorem Eng.reel_setReel_self (n : Nat) (r : Reel) : (e.setReel n r).reel n = r := SMap.get_set_self _ _ _ _
@[simp] theorem Eng.mreel_setReel (n k : Nat) (r : Reel) : (e.setReel n r).mreel k = e.mreel k := rfl
theorem Eng.mreel_setMreel (n k : Nat) (r : MReel) : (e.setMreel n r).mreel k = if k = n then r else e.mreel k :=
  SMap.get_set _ _ _ _ _
@[simp] theorem Eng.mreel_setMreel_self (n : Nat) (r : MReel) : (e.setMreel n r).mreel n = r := SMap.get_set_self _ _ _ _
@[simp] theorem Eng.reel_setMreel (n k : Nat) (r : MReel) : (e.setMreel n r).reel k = e.reel k := rfl
theorem Eng.port_setPort (p k : Nat) (x : ZPort) : (e.setPort p x).port' k = if k = p then x else e.port' k := SMap.get_set _ _ _ _ _
@[simp] theorem Eng.port_setPort_self (p : Nat) (x : ZPort) : (e.setPort p x).port' p = x := SMap.get_set_self _ _ _ _
theorem Smp.stream_setStream (x : Smp) (i k : Nat) (v : Stream) : (x.setStream i v).stream k = if k = i then v else x.stream k :=
  SMap.get_set _ _ _ _ _
theorem Dir.get_put (x : Dir) (r q : BitVec 5) (v : W64) : (x.put r v).get q = if q = r ∧ q ≠ 0 then v else x.get q := by
  unfold Dir.put Dir.get
  by_cases hq : q = 0
  · rw [if_pos hq, if_pos hq, if_neg fun c => c.2 hq]
  · rw [if_neg hq, if_neg hq]
    by_cases hr : r = 0
    · rw [if_pos hr, if_neg fun c => hq (c.1.trans hr)]
    · rw [if_neg hr]
      by_cases h : q = r
      · rw [if_pos ⟨h, hq⟩, h, SMap.get_set_self]
      · rw [if_neg fun c => h c.1, SMap.get_set_ne]
        exact fun c => h (BitVec.eq_of_toNat_eq c)

end Fields

end Sys2Proof.Machine
end

