-- ==== Sys2Proof/Laws/Shared.lean ====
section
/-! SUPPORT. What the shared operations can change: posting a message, noting a denial, checking an access, sending a link message. A
proof cites these instead of unfolding the operations. -/

namespace Sys2Proof.Machine

open Sys2Proof

/-! ### Messages and denials -/

/-- `e'` is `e` but for what posting messages can change: the message reels, the sources' numbers, the interrupts sent, the record of
the first denial, both memories with the sward and the ports that carry the writes, and the fault log. -/
def Eng.Told (e e' : Eng) : Prop :=
  ∃ mr sq ms ac mp sw dv ho rt rb, e' = { e with
    fe := { e.fe with mreels := mr, seqs := sq, msi := ms }, acc := ac, mp := mp, swd := sw, dev := dv, host := ho, ret := rt,
    retBad := rb }

/-- Nothing posted. -/
theorem Eng.Told.refl (e : Eng) : e.Told e := ⟨_, _, _, _, _, _, _, _, _, _, rfl⟩

/-- One after the other. -/
theorem Eng.Told.trans {a b c : Eng} (h : a.Told b) (g : b.Told c) : a.Told c := by
  obtain ⟨_, _, _, _, _, _, _, _, _, _, rfl⟩ := h
  obtain ⟨_, _, _, _, _, _, _, _, _, _, rfl⟩ := g
  exact ⟨_, _, _, _, _, _, _, _, _, _, rfl⟩

section ToldFields

variable {e e' : Eng} (h : e.Told e')

include h

/-- Command reels stand. -/
theorem Eng.Told.reel (n : Nat) : e'.reel n = e.reel n := by obtain ⟨_, _, _, _, _, _, _, _, _, _, rfl⟩ := h; rfl
theorem Eng.Told.port : e'.port = e.port := by obtain ⟨_, _, _, _, _, _, _, _, _, _, rfl⟩ := h; rfl
theorem Eng.Told.flt : e'.flt = e.flt := by obtain ⟨_, _, _, _, _, _, _, _, _, _, rfl⟩ := h; rfl
theorem Eng.Told.dirs : e'.dirs = e.dirs := by obtain ⟨_, _, _, _, _, _, _, _, _, _, rfl⟩ := h; rfl
theorem Eng.Told.map : e'.map = e.map := by obtain ⟨_, _, _, _, _, _, _, _, _, _, rfl⟩ := h; rfl
theorem Eng.Told.grd : e'.grd = e.grd := by obtain ⟨_, _, _, _, _, _, _, _, _, _, rfl⟩ := h; rfl
theorem Eng.Told.gln : e'.gln = e.gln := by obtain ⟨_, _, _, _, _, _, _, _, _, _, rfl⟩ := h; rfl
theorem Eng.Told.wr : e'.wr = e.wr := by obtain ⟨_, _, _, _, _, _, _, _, _, _, rfl⟩ := h; rfl
theorem Eng.Told.swp : e'.swp = e.swp := by obtain ⟨_, _, _, _, _, _, _, _, _, _, rfl⟩ := h; rfl
theorem Eng.Told.ted : e'.ted = e.ted := by obtain ⟨_, _, _, _, _, _, _, _, _, _, rfl⟩ := h; rfl
theorem Eng.Told.hc : e'.hc = e.hc := by obtain ⟨_, _, _, _, _, _, _, _, _, _, rfl⟩ := h; rfl
theorem Eng.Told.zw : e'.zw = e.zw := by obtain ⟨_, _, _, _, _, _, _, _, _, _, rfl⟩ := h; rfl
theorem Eng.Told.hth : e'.hth = e.hth := by obtain ⟨_, _, _, _, _, _, _, _, _, _, rfl⟩ := h; rfl
theorem Eng.Told.tk : e'.tk = e.tk := by obtain ⟨_, _, _, _, _, _, _, _, _, _, rfl⟩ := h; rfl
theorem Eng.Told.smp : e'.smp = e.smp := by obtain ⟨_, _, _, _, _, _, _, _, _, _, rfl⟩ := h; rfl
theorem Eng.Told.clp : e'.clp = e.clp := by obtain ⟨_, _, _, _, _, _, _, _, _, _, rfl⟩ := h; rfl
theorem Eng.Told.rs : e'.rs = e.rs := by obtain ⟨_, _, _, _, _, _, _, _, _, _, rfl⟩ := h; rfl
theorem Eng.Told.free : e'.free = e.free := by obtain ⟨_, _, _, _, _, _, _, _, _, _, rfl⟩ := h; rfl
theorem Eng.Told.dir (d : Nat) : e'.dir d = e.dir d := by obtain ⟨_, _, _, _, _, _, _, _, _, _, rfl⟩ := h; rfl
theorem Eng.Told.clap (n : Nat) : e'.clap n = e.clap n := by obtain ⟨_, _, _, _, _, _, _, _, _, _, rfl⟩ := h; rfl

end ToldFields

theorem told_setMreel (e : Eng) (m : Nat) (r : MReel) : e.Told (e.setMreel m r) := ⟨_, _, _, _, _, _, _, _, _, _, rfl⟩
theorem told_lose (e : Eng) (m n : Nat) : e.Told (e.lose m n) := told_setMreel _ _ _
theorem told_thruWr (e : Eng) (w : Bool) (a : Nat) (bs : List Byte) : e.Told (e.thruWr w a bs) := ⟨_, _, _, _, _, _, _, _, _, _, rfl⟩

theorem told_putBytes (e : Eng) (h : Bool) (a : Nat) (bs : List Byte) : e.Told (e.putBytes h a bs) := by
  cases h
  · exact told_thruWr _ _ _ _
  · exact ⟨_, _, _, _, _, _, _, _, _, _, rfl⟩

theorem told_irq (e : Eng) (m : Nat) : e.Told (e.irq m) := by
  unfold Eng.irq
  dsimp only
  split
  · exact ⟨_, _, _, _, _, _, _, _, _, _, rfl⟩
  · exact .refl e

theorem told_emit (e : Eng) (m : Nat) (rec : List Byte) : e.Told (e.emit m rec).1 := by
  unfold Eng.emit
  dsimp only
  split
  · exact told_lose _ _ _
  · exact (((told_putBytes _ _ _ _).trans (told_putBytes _ _ _ _)).trans (told_setMreel _ _ _)).trans (told_irq _ _)

theorem told_mkRec (e : Eng) (c i k p : Nat) : e.Told (e.mkRec c i k p).1 := ⟨_, _, _, _, _, _, _, _, _, _, rfl⟩

theorem told_flushReel (k : Nat) (e : Eng) (m : Nat) (rep : Bool) : e.Told (e.flushReel k m rep).1 := by
  induction k generalizing e rep with
  | zero => exact .refl e
  | succ k ih =>
    unfold Eng.flushReel
    dsimp only
    split
    · exact .refl e
    · split
      · exact (((told_setMreel _ _ _).trans (told_mkRec _ _ _ _ _)).trans (told_emit _ _ _)).trans (ih _ _)
      · split
        · exact .refl e
        · exact ((told_setMreel _ _ _).trans (told_emit _ _ _)).trans (ih _ _)

theorem told_hand (e : Eng) (m : Nat) (rec : List Byte) : e.Told (e.hand m rec).1 := by
  unfold Eng.hand
  dsimp only
  split
  · exact told_lose _ _ _
  · split
    · exact (told_setMreel _ _ _).trans (told_flushReel _ _ _ _)
    · exact told_lose _ _ _

theorem told_noteDenial (e : Eng) (m : Fin 64) (t : Nat) (r w z : Bool) (u : Nat) : e.Told (e.noteDenial m t r w z u).1 := by
  unfold Eng.noteDenial
  dsimp only
  split <;> exact ⟨_, _, _, _, _, _, _, _, _, _, rfl⟩

theorem told_noteRec (e : Eng) (m : Nat) (u : Nat × Bool) : e.Told (e.noteRec m u).1 := by
  unfold Eng.noteRec
  dsimp only
  refine Eng.Told.trans (b := if u.2 then { e with mp := { e.mp with noTarget := true } } else e) ?_ ?_
  · split <;> exact ⟨_, _, _, _, _, _, _, _, _, _, rfl⟩
  · generalize (if u.2 then { e with mp := { e.mp with noTarget := true } } else e) = e1
    exact told_noteDenial _ _ _ _ _ _ _

/-- A change made step by step, each step of which changes only what messages change. -/
theorem told_foldl {α : Type} {f : Eng → α → Eng} (hf : ∀ (e : Eng) a, e.Told (f e a)) (xs : List α) (e : Eng) :
    e.Told (xs.foldl f e) := by
  induction xs generalizing e with
  | nil => exact .refl e
  | cons x xs ih => exact (hf e x).trans (ih _)

theorem told_recDenied (e : Eng) (m : Nat) (us : List (Nat × Bool)) : e.Told (e.recDenied m us) := by
  unfold Eng.recDenied
  refine told_foldl (fun e u => ?_) us e
  have h := told_noteRec e m u
  split <;> rename_i h2 <;> rw [h2] at h
  · exact h
  · refine h.trans ?_
    generalize denyPayload 63 _ _ _ _ _ = pay
    rename_i e2
    refine ((told_mkRec e2 0 0 0x0100 pay).trans (told_hand _ e2.evtReel (e2.mkRec 0 0 0x0100 pay).2)).trans ?_
    exact told_foldl (fun e v => told_noteRec e e.evtReel v) _ _

theorem told_flush (e : Eng) (m : Nat) : e.Told (e.flush m) :=
  (told_flushReel 130 e m true).trans (told_recDenied _ _ _)

theorem told_logRec (e : Eng) (c l i p : Nat) (u : Bool) : e.Told (e.logRec c l i p u) := by
  obtain ⟨r, b, h⟩ := logRec_frame e c l i p u
  rw [h]
  exact ⟨_, _, _, _, _, _, _, _, _, _, rfl⟩

/-- Posting a message changes only what messages change. -/
theorem told_post (e : Eng) (m c i k p : Nat) : e.Told (e.post m c i k p) := by
  unfold Eng.post
  dsimp only
  generalize he : (if logged k = true then e.logRec k c i p false else e) = e1
  have h1 : e.Told e1 := by subst he; split; exact told_logRec _ _ _ _ _ _; exact .refl e
  exact ((h1.trans (told_mkRec _ _ _ _ _)).trans (told_hand _ _ _)).trans (told_recDenied _ _ _)

theorem told_postEvt (e : Eng) (c i k p : Nat) : e.Told (e.postEvt c i k p) := told_post _ _ _ _ _ _

/-- A denial changes only what messages change. -/
theorem told_deny (e : Eng) (m : Fin 64) (t : Nat) (r w z : Bool) (u : Nat) : e.Told (e.deny m t r w z u) := by
  unfold Eng.deny
  have h := told_noteDenial e m t r w z u
  split <;> rename_i h2 <;> rw [h2] at h
  · exact h
  · exact h.trans (told_post _ _ _ _ _ _)

/-- A check changes only what messages change. -/
theorem told_check (e : Eng) (t : Nat) (m : Fin 64) (r w : Bool) (a n : Nat) : e.Told (e.check t m r w a n).1 := by
  unfold Eng.check
  split
  · refine Eng.Told.trans (b := { e with mp := { e.mp with noTarget := true } }) ?_ (told_deny _ _ _ _ _ _ _)
    exact ⟨_, _, _, _, _, _, _, _, _, _, rfl⟩
  · split
    · exact .refl e
    · exact told_deny _ _ _ _ _ _ _

/-- A granted check changes nothing. -/
theorem check_of_granted {e : Eng} {t : Nat} {m : Fin 64} {r w : Bool} {a n : Nat}
    (hole : t = 3 ∨ t = 4 → e.mp.firstHole a n = none) (h : e.acc.firstDenied t m r w a n = none) :
    e.check t m r w a n = (e, true) := by
  unfold Eng.check
  by_cases ht : t = 3 ∨ t = 4
  · rw [if_pos ht, hole ht]; simp [h]
  · rw [if_neg ht]; simp [h]

/-- A check that the tables refuse answers so. -/
theorem check_of_denied {e : Eng} {t : Nat} {m : Fin 64} {r w : Bool} {a n : Nat}
    (h : e.acc.firstDenied t m r w a n ≠ none) : (e.check t m r w a n).2 = false := by
  unfold Eng.check
  split
  · rfl
  · split
    · contradiction
    · rfl

/-! ### Link messages -/

/-- Only the link block differs. -/
def Eng.ZwOnly (e e' : Eng) : Prop := ∃ z, e' = { e with zw := z }

theorem Eng.ZwOnly.refl (e : Eng) : e.ZwOnly e := ⟨e.zw, rfl⟩
theorem Eng.ZwOnly.trans {a b c : Eng} : a.ZwOnly b → b.ZwOnly c → a.ZwOnly c := by rintro ⟨z, rfl⟩ ⟨y, rfl⟩; exact ⟨y, rfl⟩
theorem zwOnly_onZw (e : Eng) (f : Zw → Zw) : e.ZwOnly (e.onZw f) := ⟨_, rfl⟩
theorem zwOnly_setPort (e : Eng) (p : Nat) (x : ZPort) : e.ZwOnly (e.setPort p x) := ⟨_, rfl⟩

/-- A change made step by step, each step of which changes the link block alone. -/
theorem zwOnly_foldl {α : Type} {f : Eng → α → Eng} (hf : ∀ (e : Eng) a, e.ZwOnly (f e a)) (xs : List α) (e : Eng) :
    e.ZwOnly (xs.foldl f e) := by
  induction xs generalizing e with
  | nil => exact .refl e
  | cons x xs ih => exact (hf e x).trans (ih _)

theorem zwOnly_owe (e : Eng) (m : ZMsg) : e.ZwOnly (e.owe m) := by
  unfold Eng.owe
  split
  · split
    · exact zwOnly_setPort _ _ _
    · exact .refl e
  · exact .refl e

theorem zwOnly_pump (e : Eng) (p : Nat) : e.ZwOnly (e.pump p) := by
  unfold Eng.pump
  exact (zwOnly_setPort _ _ _).trans (zwOnly_foldl zwOnly_owe _ _)

/-- Routing a message changes the link block alone. -/
theorem zwOnly_forward (e : Eng) (m : ZMsg) : e.ZwOnly (e.forward m) := by
  unfold Eng.forward
  split
  · exact zwOnly_owe _ _
  · split
    · exact zwOnly_onZw _ _
    · exact (zwOnly_setPort _ _ _).trans (zwOnly_pump _ _)

/-- Sending a message, or letting its unit wait, changes the link block alone. -/
theorem zwOnly_send (e : Eng) (d : Nat) (b : ZBody) (u : Purpose) : e.ZwOnly (e.send d b u) := by
  unfold Eng.send
  split
  · exact zwOnly_onZw _ _
  · unfold Eng.sendNow
    dsimp only
    split
    · exact ((zwOnly_onZw _ _).trans (zwOnly_onZw _ _)).trans (zwOnly_forward _ _)
    · exact (zwOnly_onZw _ _).trans (zwOnly_forward _ _)

/-- Sending on every live port changes the link block alone. -/
theorem zwOnly_cast (e : Eng) (m : ZMsg) (k : Option Nat) : e.ZwOnly (e.cast m k) := by
  unfold Eng.cast
  split
  · exact .refl e
  · refine zwOnly_foldl (fun e p => ?_) _ _
    dsimp only
    split
    · exact (zwOnly_setPort _ _ _).trans (zwOnly_pump _ _)
    · exact .refl e

/-- Flooding a message changes the link block alone. -/
theorem zwOnly_flood (e : Eng) (b : ZBody) : e.ZwOnly (e.flood b) :=
  (zwOnly_onZw e _).trans (zwOnly_cast _ _ _)

/-! ### The memories' canonical form (R227) -/

/-- A write past the sward keeps both memories' canonical form. -/
theorem memWf_thruWr {e : Eng} (h : e.memWf) (wide : Bool) (a : Nat) (bs : List Byte) : (e.thruWr wide a bs).memWf :=
  ⟨Memory.wf_wrN _ _ _ h.1, h.2⟩

/-- A raw write to either memory keeps it too. -/
theorem memWf_putBytes {e : Eng} (h : e.memWf) (host : Bool) (a : Nat) (bs : List Byte) : (e.putBytes host a bs).memWf := by
  cases host
  · exact memWf_thruWr h true a bs
  · exact ⟨h.1, Memory.wf_wrN _ _ _ h.2⟩

/-- What leaves both memories alone keeps it. -/
theorem memWf_of_eq {e f : Eng} (h : e.memWf) (dev : f.dev = e.dev) (host : f.host = e.host) : f.memWf := by
  unfold Eng.memWf; rw [dev, host]; exact h

end Sys2Proof.Machine
end

