-- ==== Sys2Proof/Tests/Slice0.lean ====
section
/-! SUPPORT. Tests: an ill-formed term for each check of WellFormed, a few worked examples of the spec, and for each statement
with hypotheses a named theorem that meets them on a concrete state (its name is that of the statement, with a suffix where a
statement has several). -/

namespace Sys2Proof.Tests

open Sys2Proof Sys2Proof.Machine

set_option maxRecDepth 20000
-- one theorem after the other: each kernel evaluation otherwise holds a thread while it waits for those before it
set_option Elab.async false

/-! ### WellFormed refuses -/

theorem test_wf_shortReset : Instr.problem (.leRstNAssert 2) = some .shortReset := by decide
theorem test_wf_atomicSize : Instr.problem (.atomicAdd 0 0 16 0 .ok) = some .atomicSize := by decide
theorem test_wf_atomicServed : Instr.problem (.atomicInvalid 0 1 0 16) = some .atomicServed := by decide
theorem test_wf_windowAtomicSize : Instr.problem (.pcieSwap 0 16 0 .ok) = some .windowAtomicSize := by decide
theorem test_wf_misaligned : Instr.problem (.registerWrite 0 0x82 0) = some .misaligned := by decide
theorem test_wf_allowedAccess : Instr.problem (.registerAccessBadSize 0 0x84 4 true) = some .allowedAccess := by decide
theorem test_wf_hasTarget : Instr.problem (.registerAccessNoTarget 0 0x5FFFC true) = some .hasTarget := by decide
theorem test_wf_notPair : Instr.problem (.pairLowWordRead 0 0x80) = some .notPair := by decide
theorem test_wf_firstRead : Instr.problem (.slotReread 0 0 0) = some .firstRead := by decide
theorem test_wf_emptyAccess : Instr.problem (.hostWindowRead 0 0) = some .emptyAccess := by decide
theorem test_wf_otherBank :
    Instr.problem (.clapperBankOperation 1 [{ req := 0, master := 0, clapper := 0, kind := .set, val := 0 }]) = some .otherBank := by
  decide
theorem test_wf_twicePresented : Instr.problem (.clapperBankOperation 0
    [{ req := 3, master := 0, clapper := 0, kind := .set, val := 0 },
     { req := 3, master := 0, clapper := 16, kind := .set, val := 0 }]) = some .twicePresented := by decide
theorem test_wf_longImage : Instr.problem (.managementOptionWrite (List.replicate 1021 0)) = some .longImage := by decide +kernel
theorem test_wf_messageBytes :
    Instr.problem (.frameReceive 0 { num := 0, fecOk := true, tagOk := true, uncorrLanes := [], corrected := 0,
                                     msgs := [{ vc := false, dst := 0, src := 0, seq := 0, body := .write 0 [] }] })
      = some .messageBytes := by decide
theorem test_wf_creditCount :
    Instr.problem (.linkControl 0 { ack := 0, nak := false, keySw := false, swFrame := 0, credits := [], ctl := .none })
      = some .creditCount := by decide
theorem test_wf_noPairs : Instr.problem (.lossOfLight 0 []) = some .noPairs := by decide
theorem test_wf_pairTwice : Instr.problem (.pilotBlock 0
    [{ pair := 1, rxDetune := 0, farDetune := 0 },
     { pair := 1, rxDetune := 0, farDetune := 0 }]) = some .pairTwice := by decide
theorem test_wf_accepts : Instr.wellFormed (.atomicCas 0 0 16 0 0 .ok) = true := by decide

/-! ### Small states -/

/-- A running machine with the given engine. -/
def st (e : Eng) : State := { ao := { phase := .configured }, eng := e }
/-- A machine that runs with everything at reset. -/
def s0 : State := st {}
/-- A command in flight, of a type, with a body. -/
def cmd (type : Byte) (body : List Byte) (phase : CmdPhase := .ready) : Cmd :=
  { count := 0, stamp := 0, type := type, vis := 0, notify := false, tag := 0, cHost := false, cAddr := 0, master := 0,
    body := body, phase := phase }
/-- Command reel 0 with these commands in flight. -/
def fly (cs : List Cmd) : Eng := { fe := { reels := [(0, { inflight := cs, rd := 4, wr := 4 })] } }
/-- Director 0 in the given state. -/
def dir0 (x : Dir) : Eng := { dirs := [(0, x)] }
/-- Director 0 running. -/
def go (x : Dir := {}) : State := st (dir0 { x with st := .running })
/-- An instruction word. -/
def iw (dst sa sb : BitVec 5 := 0) (desc : BitVec 4 := 0) (imm : BitVec 37 := 0) : IWord :=
  { dst := dst, sa := sa, sb := sb, desc := desc, imm := imm }
/-- Target `t` enforced, with no region: every access of it is denied. -/
def shut (t : Nat) : Acc := { enforce := BitVec.ofNat 6 (2 ^ t), cfgMaster := 1 }

/-- A table descriptor (R46): format word, row length, rows, optimizer, number. -/
def tabD (fw len rows opt tid : Nat) : BitVec 256 :=
  BitVec.ofNat 256 (fw + (len - 1) * 2 ^ 16 + 2 ^ 31 + opt * 2 ^ 32 + rows * 2 ^ 64 + tid * 2 ^ 240)
/-- A stream descriptor (R103): base, rows, row length, format word, stride, role, aux. -/
def strD (base rows len fw stride role aux : Nat) : BitVec 256 :=
  BitVec.ofNat 256 (base + rows * 2 ^ 64 + len * 2 ^ 104 + fw * 2 ^ 128 + stride * 2 ^ 144 + role * 2 ^ 176 + aux * 2 ^ 192)
/-- Descriptors: 0 a table of 64 FP32 rows of 32 elements; 1 four 32-bit indices; 2 four such rows; 3 five offsets; 4 eight
weights; 5 four INT32-wide items, with rows of aux; 6 a record area; 7 four 64-bit indices. -/
def descs0 : SMap Desc :=
  [(0, { kind := .table, w := tabD 0 32 64 1 1 }), (1, { kind := .stream, w := strD 0x1000 4 1 0 0 1 0 }),
   (2, { kind := .stream, w := strD 0x10000 4 32 0 128 0 0 }), (3, { kind := .stream, w := strD 0x3000 5 1 0 0 3 0 }),
   (4, { kind := .stream, w := strD 0x4000 8 1 0 0 4 0 }), (5, { kind := .stream, w := strD 0x5000 4 1 0 0 1 0 }),
   (6, { kind := .stream, w := strD 0x6000 16 64 0 256 0 0 }), (7, { kind := .stream, w := strD 0x7000 4 1 0 0 2 0 })]
/-- The key and the header of ticket 1 of director 0. -/
def key0 : Key := { dir := 0, ticket := 1 }
def hdr0 : Hdr := { key := key0, prior := none, master := 0, reel := 0, count := 0 }
/-- Ticket 1 of director 0 is live. -/
def slot0 : TSlot := { ticket := 1, out := none }
def dirT : Dir := { st := .running, tcount := 1, slots := [(1, some slot0)], descs := descs0 }
def liveDir : SMap Dir := [(0, dirT)]

/-! ### Worked examples of the spec -/

/-- "Conversion examples" under R30: BF16 and FP8 E4M3. -/
theorem test_conversion_bf16_e4m3 :
    Fmt.bf16.encode (of32 0x3F808000) = (0x3F81, .plain) ∧ Fmt.bf16.encode (of32 0xBF808000) = (0xBF81, .plain) ∧
    Fmt.e4m3.encode (.fin false 464) = (0x7E, .clipped) ∧ Fmt.e4m3.encode (.fin false 440) = (0x7E, .plain) ∧
    Fmt.e4m3.encode (.inf true) = (0xFE, .clipped) := by decide +kernel

/-- "Conversion examples" under R30: FP16, INT8 and FP4 E2M1. -/
theorem test_conversion_fp16_int8_e2m1 :
    Fmt.fp16.encode (.fin false 65520) = (0x7C00, .clipped) ∧ Fmt.int8.encode (.fin true (255 / 2)) = (0x81, .clipped) ∧
    Fmt.e2m1.encode (.fin false (1 / 4)) = (1, .plain) ∧ Fmt.e2m1.encode (.fin false (1 / 5)) = (0, .zeroed) := by decide +kernel

/-- The example of the 64-element segment (under R41), not rotated. -/
theorem test_quantize_segment_unrotated :
    (({ fmt := .e2m1, sk := 1, gs := 32, rot := 0 : Fw }).requant (.fin false 48 :: List.replicate 63 (.fin false 1))).1 =
      [0x82, 0x07] ++ List.replicate 15 0 ++ [0x7D] ++ List.replicate 16 0x66 := by decide +kernel

/-- The same example, rotated by 64. -/
theorem test_quantize_segment_rotated :
    (({ fmt := .e2m1, sk := 1, gs := 32, rot := 1 : Fw }).requant (.fin false 48 :: List.replicate 63 (.fin false 1))).1 =
      [0x80, 0x57] ++ List.replicate 15 0x55 ++ [0x7F] ++ List.replicate 16 0x77 := by decide +kernel

/-- R354's example: clapper 100, three operations in one cycle; requester 6's fetch and add is served first. -/
theorem test_clapper_example :
    let e : Eng := { clp := { vals := [(100, 5)], last := [(4, 3)] } }
    let p (r : Fin 12) (k : ClpKind) (v : W64) : ClpPres := { req := r, master := 0, clapper := 100, kind := k, val := v }
    let next (s : State) (ps : List ClpPres) : State := match exec (.clapperBankOperation 4 ps) s with
      | .next t => t
      | _ => s
    let a := next (st e) [p 9 .add 4, p 10 .set 0, p 6 .fetchAdd 1]
    (a.eng.clap 100 = 6 ∧ (next a []).eng.clap 100 = 10) ∧ (next (next a []) []).eng.clap 100 = 0 := by decide +kernel

/-- R357's example: n = 420,000,000. -/
theorem test_sample_range : 0x80000000 * 420000000 / 2 ^ 32 = 210000000 ∧ 0xFFFFFFFF * 420000000 / 2 ^ 32 = 419999999 := by decide

/-- R391's example: way 5 of set 300 in slice 17. -/
theorem test_defect_entry : readDefect 0x00000000C1152C45 =
    some { kind := 1, unit := 17, index := 300, way := 5, st := 2, spare1 := 0, spare2 := 3 } := by decide +kernel

/-- R378's example: cap 600 W, control and optics 150 W; LE_GAF_MEAS shows f as 154 / 256. -/
theorem test_gaffer_example : allowance 60 150 * 256 / 130560 = 154 := by decide +kernel

/-- R154's example: 3.0, 2^-24 and -3.0 sum to 2^-24 exactly, which encodes as BF16 0x3380. -/
theorem test_exact_sum_example :
    let t (w : Nat) : Term := { pos := 0, c := .fin false 1, xs := [Fmt.bf16.decode w] }
    ((passExact (startAccs false 1 [] [t 0x4040, t 0x3380, t 0xC040]) [] [t 0x4040, t 0x3380, t 0xC040]).map fun a =>
      (Fmt.bf16.encode a.value).1) = [0x3380] := by decide +kernel

/-! ### Witnesses: start of the engine, island, reset -/

/-- Time to slew: ahead, behind; not yet due. A pair of the sweep is held. -/
theorem wit_StepRunsTheFrontCommand :
    let e (sl : Int) (t : W64) : State := st { hth := { slew := sl, time := t }, swp := { moving := [(0, 0)], ctrs := { ctl := 1 } } }
    (State.reset.runs = false ∧ State.reset.pending = []) ∧ ((e 3 1000).runs = true ∧ (e 3 1000).pending = [] ∧
      ∀ c ∈ (e 3 1000).eng.map.cmps, c.begun = true) ∧
    (0 < (e 3 1000).eng.hth.slew ∧ (e 3 1000).eng.hth.slewAt.toNat + 1000 ≤ (e 3 1000).eng.hth.time.toNat) ∧
    ((e (-3) 1000).eng.hth.slew < 0 ∧ (e (-3) 1000).eng.hth.slewAt.toNat + 1000 ≤ (e (-3) 1000).eng.hth.time.toNat) ∧
    ((e 3 990).eng.hth.time.toNat < (e 3 990).eng.hth.slewAt.toNat + 1000 ∧ (e 0 1000).eng.hth.slew = 0) ∧
    ((e 3 1000).eng.swp.ctrs.ctl.toNat % 2 = 1 ∧ (e 3 1000).eng.swp.moving ≠ []) ∧ s0.eng.swp.moving = [] := by decide +kernel

theorem wit_ResetsKeepOnlyWhatTheyKeep : (2 : Nat) < 3 ∧ (3 : Nat) ≤ 3 ∧ s0.ao.phase ≠ .inReset ∧ s0.ao.nv = [] ∧
    s0.eng.flying = [] := by decide

/-- The safe defaults as an image with its CRC. -/
def image0 : List Byte :=
  (optDefaults (List.replicate 248 0)).take 1024 ++ leBytes 4 (crc32c ((optDefaults (List.replicate 248 0)).take 1024))

/-- Reset is held; a copy that passes; one that fails, early and late. -/
theorem wit_OptionsAreLoadedAndWrittenByCopy_load :
    ({} : State).ao.phase = .inReset ∧ State.reset.ao.phase = .loading false 0 ∧ nvOk image0 = true ∧
    nvOk (nvCopy []) = false := by decide +kernel

theorem wit_OptionsAreLoadedAndWrittenByCopy_store :
    image0.length = 1028 ∧
    ({ ao := { nv := [{ copyB := true, image := image0, byEngine := false }] } } : State).ao.nv =
      [{ copyB := true, image := image0, byEngine := false }] ∧
    s0.ao.phase = .configured ∧ (List.replicate 1020 (0 : Byte)).length = 1020 := by decide +kernel

theorem wit_ConfiguredStateTakesTheOptions :
    ({ ao := { phase := .pll, image := image0 } } : State).ao.phase = .pll ∧
    ({ ao := { phase := .pll, image := image0 } } : State).ao.clkFail = false ∧
    ({ s0 with ao := { s0.ao with fwChk := true } } : State).runs = true := by decide +kernel

theorem wit_ClockFailureAndDebugPort :
    s0.ao.clkFail = false ∧ s0.ao.phase ≠ .inReset ∧ (5 : Nat) ≤ 5 ∧ s0.ao.dbgCfg.getLsbD 0 = false ∧
    ({ s0 with ao := { s0.ao with dbgCfg := 7 } } : State).ao.dbgCfg.getLsbD 0 = true ∧
    (s0.ao.tapIr ≠ 0x20 ∧ (2 : Byte) ≠ 1 ∧ (2 : Byte) ≠ 0x20) ∧
    ({ s0 with ao := { s0.ao with dbgCfg := 7, tapIr := 0x20 } } : State).ao.tapIr = 0x20 ∧
    (3 : Fin 64).val = ((7 : BitVec 7).toNat / 2) % 64 ∧ (0x9004 : W32).toNat % 4 = 0 ∧
    ({ s0 with ao := { s0.ao with dbgCfg := 7 } } : State).serves 3 0x9004 (.wr32 1) = true ∧
    ({ s0 with ao := { s0.ao with dbgCfg := 7 } } : State).serves 3 0x9004 .rd32 = true := by decide +kernel

/-- A hold that has lasted past its limit. -/
def heldLong : State := st { swp := { moving := [(0, 0)], holdAt := some 0 }, hth := { time := 0xFFFFFFFF } }

/-- At the trip threshold, within its hysteresis, below it; a hold that has lasted past its limit. -/
theorem wit_GafferSetsTheAllowance :
    State.reset.runs = false ∧ s0.runs = true ∧ s0.ao.tTrip ≤ 105 ∧ ((100 : Nat) < s0.ao.tTrip ∧ s0.ao.tTrip ≤ 100 + 5) ∧
    ((99 : Nat) + 5 < s0.ao.tTrip ∧ s0.ao.overCnt < 9) ∧
    heldLong.eng.swp.moving = [(0, 0)] ∧ heldLong.eng.swp.holdAt = some 0 ∧ heldLong.eng.swp.holdReported = false ∧
    heldLong.runs = true ∧ (0 : W64).toNat + heldLong.ao.hold * 1000 < heldLong.eng.hth.time.toNat := by decide +kernel

/-- A sensor without a reading beside a cooler one, and beside a hotter one; no sensor at all. -/
theorem wit_GafferSetsTheAllowance_readings :
    s0.ao.hears [none, some 0] s0.ao.tThr ∧ s0.ao.hears [some 105, none] 105 ∧ s0.ao.hears [] s0.ao.tThr ∧
    (s0.ao.tThr < s0.ao.tTrip ∧ s0.ao.tTrip ≤ 105) := by
  unfold AlwaysOn.hears
  decide +kernel

/-- R389: a copied instruction sector in error is dropped and counted as corrected; the director runs on. -/
theorem test_copied_storage_is_refetched :
    (match exec (.internalStorageError 2 0 (.copy 0x140)) (st (dir0 { st := .running, icache := [(5, [1])] })) with
      | .next t => t.eng.dirs == [(0, { st := .running })] && t.eng.flt.corr == 1
      | _ => false) = true := by decide +kernel

/-- R380: a thermal step that reads the trip temperature trips. -/
theorem test_thermal_step_trips :
    (match exec (.thermalCapStep [some 3, none, some 105]) s0 with
      | .next t => t.ao.trip && t.ao.f == 0 && t.ao.thermal == 89 && t.ao.sensorBad
      | _ => false) = true := by decide +kernel

theorem wit_BlocksRestartAndStorageErrorsEndTheirOwner :
    let a (x : RsSt) : State := st { rs := [(9, some x)], hth := { time := 1000000000 } }
    s0.serves 0 8 (.wr32 3) = true ∧
    ((a (.idleReq 0 none)).runs = true ∧ (a (.idleReq 0 none)).eng.rs.get none (9 : Fin 10).val = some (.idleReq 0 none) ∧
      (a (.idleReq 0 none)).eng.isIdle 9 = true ∧
      (0 : W64).toNat + 1000 * (a (.idleReq 0 none)).ao.idleUs.toNat ≤ (a (.idleReq 0 none)).eng.hth.time.toNat) ∧
    (a (.idleReq 1000000000 none)).eng.hth.time.toNat < (1000000000 : W64).toNat + 1000 * (a (.idleReq 1000000000 none)).ao.idleUs.toNat ∧
    ((a (.inReset true none)).eng.rs.get none 9 = some (.inReset true none) ∧ (a (.inReset true none)).eng.port.waiting = []) ∧
    (st { swd := { ctrs := { ctl := 1 } } }).eng.swd.ctrs.ctl.toNat % 2 = 1 ∧
    ((fly [cmd 0 []]).reel 0).inflight = [cmd 0 []] ∧ (cmd 0 []).finished = false ∧ (fly [cmd 0 []]).flt.auto = 0 := by
  decide +kernel

/-- A block that is not idle: the reel front end with a command in flight. A LAUNCH that is ready, and one that runs; a slot in the
buffer. -/
theorem wit_BlocksRestartAndStorageErrorsEndTheirOwner_lost :
    (st { fly [cmd 0 []] with rs := [(0, some (.idleReq 0 none))] }).eng.isIdle 0 = false ∧
    ((cmd 1 []).type = 1 ∧ (cmd 1 []).phase = .ready ∧ (cmd 1 [] .running).phase = .running ∧ (cmd 1 [] .running).finished = false ∧
      (cmd 1 [] .running).dir < 8 ∧ ({ fly [cmd 1 [] .running] with dirs := [(0, { st := .running })] }.dir 0).st = .running) ∧
    (let r := ({ fe := { reels := [(0, { slots := [{ count := 0, st := .reading }] })] } } : Eng).reel 0
     r.inflight = [] ∧ r.slots ≠ []) := by
  decide +kernel

/-! ### Witnesses: the register port -/

/-- A plain register; the backup registers at both ends. -/
theorem wit_RegisterWriteIsPerformed :
    s0.serves 0 0x9004 (.wr32 1) = true ∧ isPair 0x9004 = false ∧ isPair 0x9000 = false ∧
    (s0.serves 0 0x80 (.wr32 1) = true ∧ (0x80 : BitVec 20).toNat = 0x80 + 4 * 0) ∧
    (s0.serves 0 0xFC (.wr32 1) = true ∧ (0xFC : BitVec 20).toNat = 0x80 + 4 * 31) := by decide +kernel

/-- A wrong size before and after the configured state; no target, at the first offset that has none; the lock. -/
theorem wit_RefusedAccessesChangeNothingAndTheLockHolds :
    (¬ ((2 : Nat) = 4 ∧ (0x9004 : BitVec 20).toNat % 4 = 0) ∧
      ¬ ((2 : Nat) = 8 ∧ (0x9004 : BitVec 20).toNat % 8 = 0 ∧ isPair (0x9004 : BitVec 20).toNat = true)) ∧
    State.reset.runs = false ∧ s0.runs = true ∧ s0.eng.acc.denyValid = false ∧
    (st { acc := { denyValid := true } }).eng.acc.denyValid = true ∧
    (0x60000 ≤ (0x60000 : BitVec 20).toNat ∧ (0x60000 : BitVec 20).toNat % 4 = 0) ∧
    ((st { acc := { denyValid := true } }).eng.portHeld 0 = false ∧
      (st { port := { waiting := [{ master := 0, off := 0, acc := .rd32, passed := true }] } }).eng.portHeld 0 = true ∧
      (st { clp := { queues := [(4, [{ req := 9, clapper := 4, kind := .set, val := 1, master := 0, dst := none, peer := none, cmd := none }])] } }).eng.portHeld 0 = true) ∧
    s0.serves 0 0x9004 (.wr32 1) = true ∧ s0.serves 0 0x9000 (.wr32 (0 ||| 0x40)) = true ∧
    (st { acc := { lock := true, denyValid := true } }).eng.acc.lock = true ∧
    (1 : Fin 64).val ≠ (st { acc := { lock := true, denyValid := true } }).eng.acc.cfgMaster.toNat ∧
    (0x9000 ≤ (0x9FFC : BitVec 20).toNat ∧ (0x9FFC : BitVec 20).toNat < 0xA000) := by decide +kernel

/-- The first clapper's pair: with the low word placed, and without. -/
theorem wit_PairsAreReadAndWrittenWhole :
    isPair (0x20000 : BitVec 20).toNat = true ∧ s0.serves 0 0x20000 .rd32 = true ∧
    (4 ≤ (0x20004 : BitVec 20).toNat ∧ isPair ((0x20004 : BitVec 20).toNat - 4) = true ∧
      isPair (0x20004 : BitVec 20).toNat = false) ∧ s0.serves 0 (0x20004 : BitVec 20).toNat (.wr32 7) = true ∧
    s0.serves 0 0x20000 (.wr32 7) = true ∧ (s0.latch 0 ((0x20004 : BitVec 20).toNat - 4)).wr = none ∧
    ((s0.onLatch 0 0x20000 fun l => { l with wr := some 9 }).latch 0 0x20000).wr = some 9 ∧
    (s0.onLatch 0 0x20000 fun l => { l with wr := some 9 }).serves 0 0x20004 (.wr32 7) = true := by decide +kernel

/-- A latch placed: both resets discard it, and a restart of its block, which is not that of another pair. -/
theorem wit_PairsAreReadAndWrittenWhole_discard :
    let s := { s0 with eng := { (s0.onLatch 0 0xA000 fun l => { l with wr := some 9 }).eng with rs := [(0, some (.inReset false none))] } }
    s.latch 0 0xA000 ≠ {} ∧ s.ao.phase ≠ .inReset ∧ (3 : Nat) ≤ 3 ∧ s.runs = true ∧
    s.eng.rs.get none (0 : Fin 10).val = some (.inReset false none) ∧ s.eng.port.waiting = [] ∧
    isPair 0xA000 = true ∧ restartBit (regBlock 0xA000).1 = some 0 ∧ restartBit (regBlock 0x20000).1 ≠ some 0 := by decide +kernel

theorem wit_CountersClearWhenReadSnapAndClear :
    s0.serves 0 0x900C .rd32 = true ∧ s0.serves 0 0x8008 .rd32 = true ∧
    (s0.serves 0 (0xB030 + 0x40 * (0 : Fin 8).val) .rd32 = true ∧ s0.serves 0 (0xB030 + 0x40 * (7 : Fin 8).val) .rd32 = true) ∧
    s0.serves 0 0x40004 .rd32 = true ∧
    (s0.serves 0 (0xA814 + 0x20 * (0 : Fin 16).val) .rd32 = true ∧ s0.serves 0 (0xA814 + 0x20 * (15 : Fin 16).val) .rd32 = true) ∧
    (s0.serves 0 (ctlOf .grd) (.wr32 (8 ||| 4)) = true ∧ s0.serves 0 (ctlOf .zw) (.wr32 (4 ||| 8)) = true) := by decide +kernel

theorem wit_GrantMeansEveryGranuleIsGranted : (shut 3).checks 3 0 = true ∧ ({} : Acc).checks 3 0 = false := by decide +kernel

/-! ### Witnesses: tables and maps -/

/-- An entry homed at position 0: eight rows of 128 bytes in tier 0. -/
def ent0 : Ent :=
  { firstRow := 0, table := 1, tier := 0, home := 0, rowCount := 8, elemFirst := 0, hold := false, base := 0x10000,
    elemCount := 32, stride4 := 32, nrep := 0, repIdx := 0 }

/-- A map image of version 1 and one entry, at address 0. -/
def mapMem : Memory := Memory.wrN [] 0 (mapImage 1 [(1, (0, 1))] [ent0] [])

theorem wit_MapsAreCheckedAndReplicasCompared :
    s0.serves 0 0xC024 (.wr32 1) = true ∧ s0.eng.map.pending = false ∧
    ((st { map := { pending := true } }).serves 0 0xC024 (.wr32 1) = true ∧ (st { map := { pending := true } }).eng.map.pending = true) ∧
    (Eng.mapCheck { map := { pending := true } } (some .header)).2.1 ≠ 0 ∧ s0.serves 0 0xC010 (.wr64 64) = true ∧
    ((st { map := { oldWait := true } }).eng.map.oldWait = true ∧ (st { map := { oldWait := true } }).eng.oldOut = 0) ∧
    (st { map := { pinWalk := true } }).eng.map.pinWalk = true ∧
    ((st { map := { ents := [{ ent0 with nrep := 1 }] } }).serves 0 0xC024 (.wr32 2) = true ∧
      ({ ent0 with nrep := 1 } : Ent).home = ({} : Eng).hth.pos) := by decide +kernel

/-- Entry 0 with one replica, on position 1: no lane claims a row of it, and one does; a map image that the check passes. -/
def repEng (r : Rep) : Eng := { map := { ents := [{ ent0 with nrep := 1 }], reps := [r] } }
/-- A lane that claims row 3, of one entry. -/
def lane0 (x : Ent) : Claim :=
  { k := key0, row := 3, ents := [(0, x)], repl := [], stEnts := [], st := .claimed, writes := [], reps := [], taps := [],
    wr := .ok, recs := 0, replays := 0, peers := 0 }
def rep1 : Rep := { base := 0x20000, position := 1, tier := 0 }

theorem wit_MapsAreCheckedAndReplicasCompared_compare :
    let x := { ent0 with nrep := 1 }
    (st (repEng rep1)).serves 0 0xC024 (.wr32 2) = true ∧ (repEng rep1).map.ents = [x] ∧ x.nrep = 1 ∧
    x.home = (repEng rep1).hth.pos ∧ ((repEng rep1).homeEnt 0 x).reps = [rep1] ∧ (repEng rep1).hth.isFailed rep1.position = false ∧
    0 < x.rowCount ∧ 0 < ((repEng rep1).homeEnt 0 x).bytes ∧ (repEng rep1).claimedIn x = false ∧
    ({ repEng rep1 with ted := { lanes := [(0, some (lane0 x))] } } : Eng).claimedIn x = true := by
  decide +kernel

/-- A comparison of one row whose replica has come: equal to home, different from it, failed; and a home copy that failed. -/
theorem wit_MapsAreCheckedAndReplicasCompared_judge :
    let x := { ent0 with nrep := 1, rowCount := 1, tier := 3 }
    let e : Eng := { repEng rep1 with map := { (repEng rep1).map with ents := [x] } }
    let home := List.replicate 128 (1 : Byte)
    let c (h : Option (List Byte)) (b : Option (List Byte)) : RepCmp :=
      { num := 0, h := e.homeEnt 0 x, bad := h.isNone, begun := true, home := h, seq := 1, work := none,
        got := [(rep1.base.toNat / 64, some b), (rep1.base.toNat / 64 + 1, some (some (List.replicate 64 1)))] }
    let same := some (List.replicate 64 (1 : Byte))
    ([c (some home) same].find? fun (c : RepCmp) => c.num == 0) = some (c (some home) same) ∧ (c (some home) same).h.reps = [rep1] ∧
    e.hth.isFailed rep1.position = false ∧ e.map.homeAt (c (some home) same).h = some 0 ∧
    e.map.repAt (c (some home) same).h rep1 = some (0, 0) ∧ (c (some home) same).bytes 0 rep1 = some home ∧
    (∃ b, (c (some home) (some (List.replicate 64 2))).bytes 0 rep1 = some b ∧ b ≠ home) ∧
    (c (some home) none).bytes 0 rep1 = none ∧ (c none same).bytes 0 rep1 = some home ∧ (c none same).h.ent.rowCount = 1 := by
  refine ⟨by decide +kernel, by decide +kernel, by decide +kernel, by decide +kernel, by decide +kernel, by decide +kernel,
    ⟨List.replicate 64 2 ++ List.replicate 64 1, by decide +kernel⟩, by decide +kernel⟩

/-! ### Witnesses: reels -/

theorem wit_ReelRegistersObeyTheirReel :
    s0.serves 0 (0xA00C + 0x20 * (63 : Fin 64).val) (.wr32 16) = true ∧
    (({} : Reel).size < (((17 : W32).setWidth 24 : W24) - ({} : Reel).rd).toNat) ∧
    ((({} : Reel).wr - ({} : Reel).rd).toNat < ((16 : W32).setWidth 24 - ({} : Reel).rd).toNat ∧
      ((16 : W32).setWidth 24 - ({} : Reel).rd).toNat ≤ ({} : Reel).size) ∧
    ((0 : W32).setWidth 24 = ({} : Reel).wr ∧ (({} : Reel).wr - ({} : Reel).rd).toNat ≤ ({} : Reel).size) ∧
    (s0.serves 0 (0xA008 + 0x20 * (63 : Fin 64).val) (.wr32 0) = true ∧ (0 : W32).getLsbD 0 = false) ∧
    s0.serves 0 (0xA014 + 0x20 * (63 : Fin 64).val) (.wr32 1) = true ∧ s0.serves 0 (0xA000 + 0x20 * (63 : Fin 64).val) (.wr64 4096) = true ∧
    (s0.serves 0 (0xA808 + 0x20 * (15 : Fin 16).val) (.wr32 0x2D) = true ∧ (0x2D : W32).getLsbD 0 = true ∧
      11 ≤ (0x2D : W32).toNat / 4 % 16) ∧
    (s0.serves 0 (0xA808 + 0x20 * (15 : Fin 16).val) (.wr32 0x29) = true ∧ (0x29 : W32).toNat / 4 % 16 < 11 ∧
      (0x29 : W32).toNat < 2 ^ 18 ∧ ({} : MReel).enabled = false ∧ ({} : MReel).held = [] ∧ ({} : MReel).lost = 0) ∧
    (s0.serves 0 (0xA810 + 0x20 * (15 : Fin 16).val) (.wr32 1) = true ∧ (1 : W32).getLsbD 24 = false) := by decide +kernel

/-- Message reel 15 with a record lying in it: re-armed behind it, and at WR; disabled with a record held; room again with a loss to
tell, and with a record held. -/
theorem wit_ReelRegistersObeyTheirReel_messages :
    let w (r : MReel) : State := st { fe := { mreels := [(15, r)] } }
    let r : MReel := { cfg := 0x43, wr := 1 }
    let f : MReel := { cfg := 3, wr := 2 }
    ((w r).eng.mreel 15 = r ∧ (w r).serves 0 (0xA810 + 0x20 * (15 : Fin 16).val) (.wr32 0x1000000) = true ∧
      (0x1000000 : W32).getLsbD 24 = true ∧ r.held = [] ∧ r.lost = 0 ∧ (r.wr - (0x1000000 : W32).setWidth 24).toNat ≤ r.size ∧
      (0x1000000 : W32).setWidth 24 ≠ r.wr ∧ r.cfg.getLsbD 6 = true ∧ (0x1000001 : W32).setWidth 24 = r.wr) ∧
    (w r).serves 0 (0xA808 + 0x20 * (15 : Fin 16).val) (.wr32 0) = true ∧
    (f.enabled = true ∧ f.cfg.getLsbD 1 = true ∧ f.cfg.getLsbD 6 = false ∧ (f.wr - (1 : W32).setWidth 24).toNat < f.size ∧
      (w f).eng.acc.firstDenied 5 63 false true (f.base.toNat + 32 * (f.wr.toNat % f.size)) 32 = none ∧
      (w f).serves 0 (0xA810 + 0x20 * (15 : Fin 16).val) (.wr32 1) = true) ∧
    (({ f with lost := 1 } : MReel).lost ≠ 0 ∧ ({ f with lost := 1 } : MReel).held = []) ∧
    (({ f with held := [List.replicate 31 0] } : MReel).lost = 0 ∧ (List.replicate 31 (0 : Byte)).length = 31) ∧
    ((0 : W32).setWidth 24 - ({ rd := 0, wr := 2 } : Reel).rd).toNat < (({ rd := 0, wr := 2 } : Reel).wr - ({ rd := 0, wr := 2 } : Reel).rd).toNat := by
  decide +kernel

/-- Reel 0 enabled, its slots at host address 0, with one slot written. -/
def fetching (slots : List Slot) : Eng := { fe := { reels := [(0, { cfg := 0x000201C3, wr := 1, slots := slots })] } }

theorem wit_SlotsAreFetchedUntilTheyShowTheirLap :
    ((fetching []).busy 0 = false ∧ (fetching []).grantee = some 0 ∧ (∀ k < 64, ((fetching []).reel k).agedAt = none)) ∧
    (((fetching [{ count := 0, st := .reading }]).reel 0).slots = [{ count := 0, st := .reading }] ∧
      ((fetching [{ count := 0, st := .reading }]).reel 0).loc = true ∧
      (fetching []).acc.firstDenied 5 0 true false (((fetching []).reel 0).slotAddr 0) 64 = none) ∧
    ((fetching [{ count := 0, st := .rereading 15 0 0 }]).reel 0).slots = [{ count := 0, st := .rereading 15 0 0 }] ∧
    (((fetching [{ count := 0, st := .rereading 16 15 0 }]).reel 0).slots = [{ count := 0, st := .rereading 16 15 0 }] ∧
      le ((fetching []).host.rdN 0 64) 0 1 ≠ ((fetching []).reel 0).stamp 0) := by decide +kernel

/-- The first slot of a NOP, shown. -/
def nopSlot : List Byte := 0x80 :: List.replicate 63 0

theorem wit_CommandsDispatchAndComplete :
    let e := fetching [{ count := 0, st := .got nopSlot }]
    (e.busy 0 = false ∧ ((e.reel 0).slots.map Slot.st = [nopSlot].map SlotSt.got ++ [] ∧ [nopSlot].length = le nopSlot 2 1 % 8 + 1) ∧
      le nopSlot 3 1 / 16 % 2 = 0 ∧ (e.bagRead (e.reel 0).master (le nopSlot 1 1) (bodyOf [nopSlot]) .ok).map Prod.snd = some 0 ∧
      cmdCheck e nopSlot (bodyOf [nopSlot]) 1 = 0 ∧ e.accepts (le nopSlot 1 1) (bodyOf [nopSlot]) ≠ none) ∧
    ((fly [cmd 0 [] (.done 0 0 0)]).mp.owed (.cmd 0 0) = 0 ∧ (cmd 0 [] (.done 0 0 0)).vis ≠ 3) ∧
    (({ cmd 0 [] (.done 0 0 0) with vis := 3 } : Cmd).vis = 3 ∧ ({ cmd 0 [] (.done 0 0 0) with vis := 3 } : Cmd).flushed = false) := by
  decide +kernel

/-- The first slot of an INLINE_BAG into table 1, whose descriptor read is denied. -/
def bagSlot : List Byte := 0x80 :: 2 :: 0 :: 0 :: List.replicate 20 0 ++ [1] ++ List.replicate 39 0

theorem wit_CommandsDispatchAndComplete_refusedRead :
    let e := { fetching [{ count := 0, st := .got bagSlot }] with acc := shut 3, map := { tblCount := 2 } }
    bagSlot.length = 64 ∧ (e.reel 0).slots.map Slot.st = [bagSlot].map SlotSt.got ++ [] ∧ hdrBad bagSlot = false ∧
    (e.bagRead (e.reel 0).master (le bagSlot 1 1) (bodyOf [bagSlot]) .ok).map Prod.snd = some 3 := by decide +kernel

/-- A slot lost in the buffer; the slots of the others are whole. -/
theorem wit_CommandsDispatchAndComplete_lost :
    let e := fetching [{ count := 0, st := .got nopSlot, lost := true }]
    e.busy 0 = false ∧ ((e.reel 0).slots.take [nopSlot].length).any (·.lost) = true ∧
    (e.reel 0).slots.map Slot.st = [nopSlot].map SlotSt.got ++ [] ∧ [nopSlot].length = le nopSlot 2 1 % 8 + 1 ∧
    (e.reel 0).inflight = [] ∧ (∀ x ∈ ((fetching [{ count := 0, st := .got nopSlot }]).reel 0).slots, x.lost = false) := by
  decide +kernel
/-! ### Witnesses: commands -/

theorem acting_alone (c : Cmd) (type : Nat) (h : c.type.toNat = type) (p : c.phase = .ready) (e : Eng)
    (r : (e.reel 0).inflight = [c]) (b : e.busy 0 = false) : (st e).acting 0 type [] c [] := by
  refine ⟨?_, r, ?_, h, p, ?_⟩
  · show (true && !e.busy 0) = true
    rw [b]; rfl
  · intro x hx; simp at hx
  · intro x hx; simp at hx

/-- An operation of a requester on clapper 0 that waits in its bank's queue. -/
def clpReq (r : Fin 12) : ClpReq := { req := r, master := 0, clapper := 0, kind := .add, val := 1, dst := none, peer := none, cmd := none }

/-- A WAIT on clapper 0 for at least a value, with a timeout in µs. -/
def waitBody (us val : Nat) : List Byte := leBytes 4 0 ++ leBytes 4 us ++ leBytes 8 val

theorem wit_NopFenceAndWaitCommands :
    (st (fly [cmd 0 []])).acting 0 0 [] (cmd 0 []) [] ∧
    (st (fly [cmd 4 [6]])).acting 0 4 [] (cmd 4 [6]) [] ∧
    ((st (fly [cmd 6 (waitBody 0 0)])).acting 0 6 [] (cmd 6 (waitBody 0 0)) [] ∧
      condHolds (le (waitBody 0 0) 2 1 == 1) (BitVec.ofNat 64 (le (waitBody 0 0) 8 8)) 0 = true) ∧
    ((st (fly [cmd 6 (waitBody 3 1)])).acting 0 6 [] (cmd 6 (waitBody 3 1)) [] ∧
      condHolds (le (waitBody 3 1) 2 1 == 1) (BitVec.ofNat 64 (le (waitBody 3 1) 8 8)) 0 = false) ∧
    (shut 1).firstDenied 1 0 true false (le (waitBody 0 0) 0 2 % 8192) 1 ≠ none ∧
    ({} : Acc).firstDenied 1 0 true false (le (waitBody 0 0) 0 2 % 8192) 1 = none ∧
    (({} : Eng).clpHeld 8 0 = false ∧ ({ clp := { queues := [(0, [clpReq 8])] } } : Eng).clpHeld 8 0 = true) :=
  ⟨acting_alone _ _ rfl rfl _ rfl rfl, acting_alone _ _ rfl rfl _ rfl rfl,
    ⟨acting_alone _ _ rfl rfl _ rfl rfl, by decide +kernel⟩, ⟨acting_alone _ _ rfl rfl _ rfl rfl, by decide +kernel⟩,
    by decide +kernel⟩

/-- A FENCE that still has a command before it, a WAIT whose deadline has passed, a director's wait likewise. -/
theorem wit_NopFenceAndWaitCommands_waits :
    (∃ x ∈ ({ cmd 4 [6] with after := [(0, 1)] } : Cmd).after,
      ∃ y ∈ ((fly [{ cmd 0 [] with count := 1 }]).reel x.1.val).inflight, y.count = x.2) ∧
    ((fly [{ cmd 6 [] .running with deadline := some 0 }]).reel 0).inflight = [] ++ { cmd 6 [] .running with deadline := some 0 } :: [] ∧
    (0 : W64) ≤ s0.eng.hth.time ∧
    ((st (dir0 { st := .waiting, wait := .clapper 1 0 true 9 (some 0) })).eng.dir 0).wait = .clapper 1 0 true 9 (some 0) := by
  decide +kernel

/-- A SIGNAL to this engine, to a position outside the heath, and to a live peer of a heath of two. -/
def signalBody (pos val : Nat) : List Byte := leBytes 3 100 ++ leBytes 5 pos ++ leBytes 8 val

theorem wit_SignalOperatesOneClapper :
    ((st (fly [cmd 5 (signalBody 0 7)])).acting 0 5 [] (cmd 5 (signalBody 0 7)) [] ∧
      (fly [cmd 5 (signalBody 0 7)]).hth.isSelf (le (signalBody 0 7) 3 1) = true ∧
      ({} : Clp).queues.get [] (100 % 16) = [] ∧ ({} : Acc).firstDenied 1 0 false true 100 1 = none) ∧
    (({} : Hth).isSelf (le (signalBody 9 7) 3 1) = false ∧ ({} : Hth).gone (le (signalBody 9 7) 3 1) = true) ∧
    (({ cfg := 0x80100, st := .member } : Hth).isSelf (le (signalBody 1 7) 3 1) = false ∧
      ({ cfg := 0x80100, st := .member } : Hth).gone (le (signalBody 1 7) 3 1) = false) :=
  ⟨⟨acting_alone _ _ rfl rfl _ rfl rfl, by decide +kernel⟩, by decide +kernel⟩

/-- A LAUNCH with eight arguments. -/
def launchBody : List Byte := leBytes 8 (0xFF + 8 * 256) ++ leBytes 8 0x1000 ++ (List.range 8).flatMap (leBytes 8)

theorem wit_LaunchStartsItsDirector :
    (st (fly [{ cmd 1 launchBody with dir := 7 }])).acting 0 1 [] { cmd 1 launchBody with dir := 7 } [] ∧
    (1 ≤ 8 ∧ 8 ≤ le launchBody 1 1 ∧ le launchBody 1 1 ≤ 8) ∧ (le launchBody 1 1 < 30 ∧ 30 < 31) :=
  ⟨acting_alone _ _ rfl rfl _ rfl rfl, by decide +kernel⟩

/-- An inline COPY of four bytes to host memory, an INLINE_BAG of four to device memory, a CONFIG of one register. -/
def copyBody : List Byte :=
  leBytes 8 0 ++ leBytes 8 0x1000 ++ leBytes 5 4 ++ leBytes 1 5 ++ leBytes 10 0 ++ leBytes 4 0x01020304
def copyDevBody : List Byte :=
  leBytes 8 0 ++ leBytes 8 0x2000 ++ leBytes 5 4 ++ leBytes 1 1 ++ leBytes 10 0 ++ leBytes 4 0x01020304
def bagBody : List Byte := leBytes 8 0x2000 ++ leBytes 24 0 ++ leBytes 4 0x01020304
def configBody : List Byte := leBytes 8 1 ++ leBytes 4 0x9004 ++ leBytes 4 1

theorem wit_CopyBagConfigAndTakeNowCommands :
    ((st (fly [cmd 3 copyBody])).acting 0 3 [] (cmd 3 copyBody) [] ∧ (le copyBody 21 1).testBit 0 = true ∧
      (le copyBody 21 1).testBit 2 = true ∧ (le copyBody 22 2).testBit 15 = false ∧
      ({} : Acc).firstDenied 5 0 false true (le copyBody 8 8) ((copyBody.drop 32).take (le copyBody 16 5)).length = none) ∧
    ((st (fly [cmd 3 copyDevBody])).acting 0 3 [] (cmd 3 copyDevBody) [] ∧ (le copyDevBody 21 1).testBit 0 = true ∧
      (le copyDevBody 21 1).testBit 2 = false ∧ (le copyDevBody 22 2).testBit 15 = false ∧
      ({} : Mp).firstHole (le copyDevBody 8 8) ((copyDevBody.drop 32).take (le copyDevBody 16 5)).length = none ∧
      ({} : Acc).firstDenied 3 0 false true (le copyDevBody 8 8) ((copyDevBody.drop 32).take (le copyDevBody 16 5)).length = none ∧
      (shut 3).firstDenied 3 0 false true (le copyDevBody 8 8) ((copyDevBody.drop 32).take (le copyDevBody 16 5)).length ≠ none ∧
      ({} : Swd).enabled = false ∧ ({} : Swd).pending = false ∧ ({} : Eng).busy 5 = false) ∧
    ((st (fly [{ cmd 2 bagBody with dir := 4 }])).acting 0 2 [] { cmd 2 bagBody with dir := 4 } [] ∧
      (le bagBody 16 2).testBit 15 = false ∧ ({} : Mp).firstHole (le bagBody 0 8) ((bagBody.drop 32).take 4).length = none ∧
      ({} : Acc).firstDenied 3 0 false true (le bagBody 0 8) ((bagBody.drop 32).take 4).length = none ∧
      (shut 3).firstDenied 3 0 false true (le bagBody 0 8) ((bagBody.drop 32).take 4).length ≠ none) ∧
    ((st (fly [cmd 8 configBody])).acting 0 8 [] (cmd 8 configBody) [] ∧
      ((st (fly [cmd 8 configBody])).access 0 0x9004 (.wr32 1)).2 ≠ .denied) ∧
    ((st (fly [cmd 7 [0]])).acting 0 7 [] (cmd 7 [0]) [] ∧ (fly [cmd 7 [0]]).tk.enabled = false ∧
      ({ ctl := 0x1B } : Tk).enabled = true) ∧
    ((st (fly [cmd 3 []])).acting 0 3 [] (cmd 3 []) [] ∧ (le ([] : List Byte) 21 1).testBit 0 = false) :=
  ⟨⟨acting_alone _ _ rfl rfl _ rfl rfl, by decide +kernel⟩, ⟨acting_alone _ _ rfl rfl _ rfl rfl, by decide +kernel⟩,
    ⟨acting_alone _ _ rfl rfl _ rfl rfl, by decide +kernel⟩, ⟨acting_alone _ _ rfl rfl _ rfl rfl, by decide +kernel⟩,
    ⟨acting_alone _ _ rfl rfl _ rfl rfl, by decide +kernel⟩, acting_alone _ _ rfl rfl _ rfl rfl, by decide +kernel⟩

/-- A CONFIG of one write: made, denied, and waiting for its block's restart. A TAKE's request just made, which TAKE_NOW joins. -/
theorem wit_CopyBagConfigAndTakeNowCommands_outcomes :
    let k := cmd 8 configBody
    let out (e : Eng) := ((({ (st e) with eng := (st e).eng.runCmd 0 k } : State).access 0 (le k.body 8 4)
      (.wr32 (BitVec.ofNat 32 (le k.body 12 4))) (cfg := some (0, k.count, 0))).2)
    (∃ v, out (fly [k]) = .done v) ∧ out { fly [k] with acc := shut 0 } = .denied ∧
    (out { fly [{ cmd 8 (leBytes 8 1 ++ leBytes 4 0x9004 ++ leBytes 4 1) with count := 0 }] with
        port := { waiting := [{ master := 0, off := 0x9004, acc := .rd32, passed := true }] } } = .waits) ∧
    (((fly [k]).runCmd 0 k).reel 0).inflight.find? (fun y => y.count == k.count && y.phase == .running) =
      some { k with phase := .running } := by
  refine ⟨⟨_, rfl⟩, by decide +kernel, by decide +kernel, by decide +kernel⟩

theorem wit_CopyBagConfigAndTakeNowCommands_joins :
    let cut : Cut := { print := false, pos := 0, opts := [], byTake := some hdr0, note := 0, cmd := none, at_ := 0 }
    let k : Tk := { ctl := 0x1B, cuts := [cut] }
    k.enabled = true ∧ k.cuts = [] ++ [cut] ∧ cut.byTake = some hdr0 ∧ cut.cmd = none ∧ cut.at_ = ({} : Hth).time ∧
    (st { fly [cmd 7 [0]] with tk := k }).acting 0 7 [] (cmd 7 [0]) [] :=
  ⟨by decide +kernel, rfl, rfl, rfl, rfl, acting_alone _ _ rfl rfl _ rfl rfl⟩

/-! ### Witnesses: directors -/

theorem wit_OperateInstructionsCompute :
    go.executes 0 [1, 2] = true ∧ ((iw 3 1 2).desc = 0 ∧ ((iw 3 1 2).sb = 0 ∨ (iw 3 1 2).imm = 0)) ∧
    ((iw 3 1 0 0 5).desc = 0 ∧ ((iw 3 1 0 0 5).sb = 0 ∨ (iw 3 1 0 0 5).imm = 0)) ∧
    ¬ ((iw 3 1 2 0 5).desc = 0 ∧ ((iw 3 1 2 0 5).sb = 0 ∨ (iw 3 1 2 0 5).imm = 0)) := by decide +kernel

theorem wit_LoadImmediate :
    go.executes 0 [] = true ∧ (iw 3 0 0 0 0x1FFFFFFFFF).sa = 0 ∧ (iw 3).imm = 0 ∧ (iw 3 0 0 0 1).imm ≠ 0 ∧
    (iw 3 1).sa ≠ 0 := by decide +kernel

/-- An aligned and a misaligned target, a stack of 15 and of 16, each condition of BR, a counter of 1 and of 2. -/
theorem wit_ControlInstructionsJumpAndHaltEnds_jumps :
    (go.executes 0 [] = true ∧ iw = { dst := 0, sa := 0, sb := 0, desc := 0, imm := 0 } ∧ ({ stack := [8] } : Dir).stack = [8]) ∧
    (go.executes 0 [(iw 0 1).sa] = true ∧
      ((if (iw 0 1).sa = 0 then ({} : Dir).pc else ({} : Dir).get (iw 0 1).sa) + (iw 0 1).imm.signExtend 64 * 8).toNat % 8 = 0 ∧
      (if (iw 0 1).sa = 0 then ({} : Dir).pc else ({ regs := [(1, 4)] } : Dir).get (iw 0 1).sa).toNat % 8 ≠ 0) ∧
    ((List.replicate 15 (0 : W64)).length < 16 ∧ 16 ≤ (List.replicate 16 (0 : W64)).length) ∧
    (go.executes 0 [1, 2] = true ∧ (iw 0 1 2 0 (5 * 2 ^ 34)).imm.toNat / 2 ^ 34 < 6) ∧
    (go.executes 0 [1] = true ∧ (iw 1 0 0 0 (2 ^ 34 - 1)).imm.toNat < 2 ^ 34) := by decide +kernel

theorem wit_ControlInstructionsJumpAndHaltEnds_halt :
    (go.executes 0 [(iw).sa] = true ∧ (iw 0 0 0 0 0xFFFF).imm.toNat < 2 ^ 16) ∧
    (go.eng.dir 0).stops = [] ∧ (go.eng.dirQuiet 0 = true ∧ (go.eng.dir 0).peerOps = 0) ∧ (go { peerOps := 1 }).eng.dirQuiet 0 = true ∧
    (go { stops := [{ elem := 0, val := 0, ticket := 1, cause := 1, table := 0, stream := true }] }).executes 0 [] = true ∧
    (go { lds := [{ dst := 1, addr := 0, size := 8, data := 0, pc := 0 }] }).eng.dirQuiet 0 = false ∧
    ((fly [cmd 1 [] .running]).reel (go.eng.dir 0).reel.val).inflight = [] ++ cmd 1 [] .running :: [] := by decide +kernel

/-- Unused fields that are not zero; conditions 6 and 7 of BR; a misaligned CALL on a full stack. -/
theorem wit_ControlInstructionsJumpAndHaltEnds_refused :
    go.executes 0 [] = true ∧ iw 0 0 0 0 1 ≠ { dst := 0, sa := 0, sb := 0, desc := 0, imm := 0 } ∧
    ¬ ((iw 0 0 0 1).dst = 0 ∧ (iw 0 0 0 1).sb = 0 ∧ (iw 0 0 0 1).desc = 0) ∧
    ((iw 0 1 2 0 (6 * 2 ^ 34)).imm.toNat / 2 ^ 34 = 6 ∧ (iw 0 1 2 0 (7 * 2 ^ 34)).imm.toNat / 2 ^ 34 = 7) ∧
    ¬ ((iw 1 0 0 0 (2 ^ 34)).imm.toNat < 2 ^ 34) ∧
    ¬ ((iw 0 0 0 0 0x10000).imm.toNat < (if (iw 0 0 0 0 0x10000).sa = 0 then 2 ^ 16 else 1)) ∧
    ((({ regs := [(1, 4)] } : Dir).get (iw 0 1).sa).toNat % 8 ≠ 0 ∧ 16 ≤ (List.replicate 16 (0 : W64)).length) := by decide +kernel

/-- Addresses that are misaligned, denied, in a hole, granted; a load in flight that is answered, and one that is not. -/
theorem wit_LoadsAndStores :
    (go.executes 0 [(iw 2 1).sa] = true ∧ go.executes 0 [(iw 0 1 2).sa, (iw 0 1 2).sb] = true ∧ (iw 2 1).desc = 0) ∧
    ((4 : Nat) % 8 ≠ 0 ∧ (8 : Nat) % 8 = 0 ∧ ({} : Mp).firstHole 8 8 = none ∧ ({} : Mp).firstHole (2 ^ 63) 8 ≠ none) ∧
    ({} : Acc).firstDenied 3 0 true false 8 8 = none ∧ (shut 3).firstDenied 3 0 true false 8 8 ≠ none ∧
    (go { lds := [{ dst := 1, addr := 8, size := 8, data := 0, pc := 0 }] }).eng.answer 8 8 .ok = .ok ∧
    (go { lds := [{ dst := 1, addr := 8, size := 8, data := 0, pc := 0 }] }).eng.answer 8 8 .uncorr ≠ .ok := by decide +kernel

/-- A load or a store that moves nothing on the way, and while the sward's enable is pending. -/
theorem wit_LoadsAndStores_waits :
    (go.eng.swdWaits 8 8 = false ∧ go.eng.sectorsWait (go.eng.fills 8 (leBytes 8 0)) = false) ∧
    ({ swd := { pending := true } } : Eng).swdWaits 8 8 = true ∧ ({ swd := { pending := true } } : Eng).sectorsWait [] = true := by decide +kernel

theorem wit_InstructionFetchFillsTheCache :
    ((go { fetch := [1] }).eng.dir 0).fetch = [1] ∧ ({} : Mp).firstHole ((1 : W64).toNat * 64) 64 = none ∧
    ({} : Acc).firstDenied 3 0 true false ((1 : W64).toNat * 64) 64 = none ∧ (go { fetch := [1] }).eng.answer 64 64 .ok = .ok ∧
    (go { fetch := [1] }).eng.answer 64 64 .farTimeout ≠ .ok ∧ (({} : Dir).pc.toNat / 64 ≠ (1 : W64).toNat) ∧ opcodeOk 0 = true ∧
    opcodeOk 0xFF = false ∧ (({ pc := 72 } : Dir).pc.toNat / 64 = (1 : W64).toNat) ∧
    (shut 3).firstDenied 3 0 true false ((1 : W64).toNat * 64) 64 ≠ none := by decide +kernel

theorem wit_DescriptorsAreLoadedChecked :
    (go.executes 0 [(iw 0 1).sa] = true ∧ (iw 0 1 0 0 (2 ^ 12 - 1)).imm.toNat < 2 ^ 12 ∧ ({} : MapSt).tblCount ≤ 0 ∧
      0 < ({ tblCount := 1 } : MapSt).tblCount ∧ ({} : Mp).firstHole 0 32 = none ∧
      ({} : Acc).firstDenied 3 0 true false 0 32 = none) ∧
    ((iw 0 1 0 0 (2 ^ 35)).imm.toNat / 2 ^ 35 = 1 ∧ ((16 : W64) + ((2 ^ 35 : BitVec 37).setWidth 35).signExtend 64).toNat % 32 ≠ 0) ∧
    (s0.eng.answer 0 32 .ok = .ok ∧ s0.eng.answer 0 32 .uncorr ≠ .ok ∧ tabReason (tabOf 0) 0 1 ≠ 0 ∧ tabReason (tabOf (tabD 0 32 64 1 1)) 1 2 = 0) ∧
    ((iw 0 1 0 3 3).imm.toNat < 4 ∧ (({} : Dir).desc 3).kind ≠ .table ∧ ({ descs := [(3, { kind := .table })] } : Dir).desc 3 =
      { kind := .table }) ∧
    ((iw 0 0 0 3 124).imm.toNat % 8 = 4 ∧ (iw 0 0 0 3 124).imm.toNat < 128) := by decide +kernel

/-- A ticket retired with a status, one live, one issued before the launch, one not known, one not issued yet; a stop. -/
theorem wit_SynchronisationInstructionsWaitAndMsgPosts_waits :
    let x : Dir := { tcount := 1, slots := [(1, some { ticket := 1, out := some (0, 2) })] }
    let y : Stop := { elem := 3, val := 0, ticket := 1, cause := 1, table := 0, stream := true }
    (go x).executes 0 [(iw 2 1).sa] = true ∧ ((x.tcount - 1).toNat < 256 ∧ 2 ^ 31 ≤ (x.tLaunch - 1).toNat) ∧
    x.slot 1 = some { ticket := 1, out := some (0, 2) } ∧ (({ tcount := 1, slots := [(1, some slot0)] } : Dir).slot 1 = some slot0) ∧
    ((({ tcount := 1, tLaunch := 1 } : Dir).tcount - 1).toNat < 256 ∧ (({ tcount := 1, tLaunch := 1 } : Dir).tLaunch - 1).toNat < 2 ^ 31) ∧
    (256 ≤ (({ tcount := 256 } : Dir).tcount - 0).toNat ∧ (({ tcount := 256 } : Dir).tcount - 0).toNat < 2 ^ 31) ∧
    2 ^ 31 ≤ (x.tcount - 2).toNat ∧ x.allRetired = true ∧ ({ x with slots := [(1, some slot0)] } : Dir).allRetired = false ∧
    ((go { stops := [y] }).executes 0 [] = true ∧ ((go { stops := [y] }).eng.dir 0).stops = [y]) := by decide +kernel

/-- The last clapper; a condition that holds and one that does not; one clapper too far; a live peer, a failed one, one outside. -/
theorem wit_SynchronisationInstructionsWaitAndMsgPosts_clappers :
    ((iw 2 0 0 0 8191).imm.toNat < 2 ^ 35 ∧ (iw 2 0 0 0 8191).imm.toNat / 2 ^ 13 % 4 < 2 ∧
      (({} : Dir).get 0).toNat + (iw 2 0 0 0 8191).imm.toNat % 2 ^ 13 = 8191) ∧
    ({} : Acc).firstDenied 1 0 true false 8191 1 = none ∧ condHolds false 0 0 = true ∧ condHolds false 1 0 = false ∧
    (8192 ≤ ((8191 : W64) + ((1 : BitVec 37).setWidth 13).setWidth 64).toNat) ∧
    (({} : Hth).isSelf 0 = true ∧ ({} : Clp).queues.get [] (8191 % 16) = [] ∧ ({} : Acc).firstDenied 1 0 false true 8191 1 = none ∧
      ({} : Acc).firstDenied 1 0 true true 8191 1 = none) ∧
    (({} : Hth).isSelf 9 = false ∧ ({} : Hth).size ≤ 9) ∧
    (({ cfg := 0x80100, failed := 2 } : Hth).isSelf 1 = false ∧ 1 < ({ cfg := 0x80100, failed := 2 } : Hth).size ∧
      ({ cfg := 0x80100, failed := 2 } : Hth).isFailed 1 = true) ∧
    ({ cfg := 0x80100 } : Hth).isFailed 1 = false := by decide +kernel

/-- The director's own operation waits at clapper 0's bank; an operation on a live peer goes out, and waits for the store. -/
theorem wit_SynchronisationInstructionsWaitAndMsgPosts_peers :
    let h : Hth := { cfg := 0x80100, st := .member, live := 3 }
    let b : ZBody := .clpOp 0 1 7
    (({ clp := { queues := [(0, [clpReq 0])] } } : Eng).clpHeld 0 0 = true ∧ (0 : Fin 12).val = (0 : Fin 8).val) ∧
    (h.isSelf 1 = false ∧ 1 < h.size ∧ h.isFailed 1 = false) ∧
    ({ hth := h } : Eng).sendWaits 1 b = false ∧ ({ hth := h, zw := { blocked := [(1, b, .barrier)] } } : Eng).sendWaits 1 b = true := by
  decide +kernel

/-- The reel of the messages: disabled, full, full with 64 records held, and armed with its interrupt enabled. -/
theorem wit_SynchronisationInstructionsWaitAndMsgPosts_msg :
    let full : MReel := { cfg := 3, wr := BitVec.ofNat 24 ({ cfg := 3 } : MReel).size }
    ({} : MReel).enabled = false ∧ (full.enabled = true ∧ full.full = true ∧ full.held.length < 64) ∧
    64 ≤ ({ full with held := List.replicate 64 [] } : MReel).held.length ∧
    (({ cfg := 0x43, armed := true } : MReel).enabled = true ∧ ({ cfg := 0x43, armed := true } : MReel).full = false ∧
      ({ cfg := 0x43, armed := true } : MReel).armed = true ∧ ({ cfg := 0x43, armed := true } : MReel).cfg.getLsbD 6 = true) := by
  decide +kernel

theorem wit_SynchronisationInstructionsWaitAndMsgPosts_rest :
    ((iw 0 0 0 0 8).imm.toNat < 32 ∧ (iw 0 0 0 0 8).imm.toNat % 2 = 0 ∧ go.eng.dirQuiet 0 = true ∧ (iw 0 0 0 0 8).imm = 8) ∧
    (16 ≤ (iw 0 0 0 0 16).imm.toNat ∧ ({ peerOps := 1 } : Dir).peerOps ≠ 0) ∧ (iw 0 0 0 0 6).imm.toNat / 8 = 0 ∧
    (go.executes 0 [(iw 0 1 2).sa, (iw 0 1 2).sb] = true ∧ (iw 0 1 2 0 (2 ^ 15 - 1)).imm.toNat < 2 ^ 15) ∧
    (({ cfg := 3 } : MReel).enabled = true ∧ ({ cfg := 3 } : MReel).full = false ∧ ({ cfg := 3 } : MReel).cfg.toNat / 2 % 2 = 1 ∧
      ({ cfg := 3 } : MReel).cfg.toNat / 64 % 2 = 0 ∧ ({} : Acc).firstDenied 5 63 false true 0 32 = none) := by decide +kernel

/-! ### Witnesses: instructions that take tickets -/

/-- The largest and the smallest length of STAGE, the limits of PIN and DIGEST, and descriptors that each job accepts. -/
theorem wit_PreparationInstructionsTakeTickets :
    let s := go { descs := descs0 }
    let x := s.eng.dir 0
    (s.executes 0 [1, 2] = true ∧ (2 ^ 40 - 1 : W64).toNat % 2 ^ 40 ≠ 0 ∧ ({} : Hc).pick false = some 0 ∧ ({} : Hc).pick true = some 8 ∧
      x.slotFree x.nextTicket = true ∧ ({ x with slots := [(1, some { ticket := 257, out := none })] } : Dir).slotFree x.nextTicket = false) ∧
    ((128 : W64).toNat % 128 = 0 ∧ (2 ^ 37 : W64).toNat % 128 = 0 ∧ 128 ≤ (2 ^ 37 : W64).toNat ∧ (2 ^ 37 : W64).toNat ≤ 2 ^ 37 ∧
      2 ^ 37 < (2 ^ 37 + 128 : W64).toNat) ∧
    (x.refuses [0] [⟨1, false, [1]⟩, ⟨5, false, [1]⟩, ⟨1, false, [1]⟩] = none ∧ (xdesc 0x151 0, xdesc 0x151 1, xdesc 0x151 2) = (1, 5, 1) ∧
      (strOf (x.desc 1).w).rows = 4) ∧
    (x.refuses [] [⟨2, false, [0]⟩, ⟨2, false, [0]⟩] = none ∧ (strOf (x.desc 2).w).fw = 0) ∧
    (x.refuses [] [⟨1, false, [1, 2, 4]⟩] = none ∧ (strOf (x.desc 1).w).role = 1 ∧ (strOf (x.desc 4).w).role = 4 ∧
      (strOf (x.desc 7).w).role = 2 ∧ ({} : Acc).firstDenied 2 0 false true 255 1 = none ∧ (0x0FF : BitVec 37).toNat / 2 ^ 8 = 0 ∧
      (0x2FF : BitVec 37).toNat / 2 ^ 8 = 2) ∧
    (2 ^ 40 ≤ (2 ^ 40 : W64).toNat ∧ (2 ^ 40 - 1 : W64).toNat < 2 ^ 40 ∧ (32 : W64).toNat % 32 = 0) ∧
    x.refuses [] [⟨0, false, [0]⟩] = some (0x07, 0) ∧ s.eng.queueFull s.eng.hsDigest 0 = false ∧
    (let e : Eng := { dirs := liveDir }
     e.queueFull ((List.range 16).map fun i => { hdr0 with key := { dir := 0, ticket := BitVec.ofNat 32 i }, prior := some 1 }) 0 = true) ∧
    s.eng.swdWaits 8 8 = false := by decide +kernel

/-- A PIN in a restart of the sward; sa of SAMPLE in mode 2 names a register. -/
theorem wit_PreparationInstructionsTakeTickets_restart :
    (st { dir0 { st := .running } with rs := [(5, some (.inReset false none))] }).executes 0 [1, 2] = true ∧
    ({ rs := [(5, some (.inReset false none))] } : Eng).busy 5 = true ∧ (iw 3 1 2 0 1).imm.toNat < 2 := by decide +kernel

/-- A GLEAN of rows of stream 2 by the indices of stream 1; of the table; with offsets, weights, an output. -/
theorem wit_GleanAndPoolAreIssued_glean :
    let s := go { descs := descs0 }
    let x := s.eng.dir 0
    s.executes 0 [0] = true ∧ (iw 3 0 0 2 8).imm.toNat % 2 ^ 36 < 16 ∧ (iw 3 0 0 2 8).imm.getLsbD 3 = true ∧ (0x1 : W64).toNat < 2 ^ 42 ∧
    (xdesc 0x1 0, xdesc 0x1 1, xdesc 0x1 2, xdesc 0x1 3) = (1, 0, 0, 0) ∧
    x.refuses [] [⟨2, false, [0]⟩, ⟨1, false, [1, 2]⟩] = none ∧ x.refuses [0] [⟨1, false, [1]⟩] = none ∧
    x.refuses [0] [⟨1, false, [1]⟩, ⟨3, false, [3]⟩, ⟨4, false, [4]⟩, ⟨2, true, [0]⟩] = none := by decide +kernel

/-- A GLEAN in flight of the four rows of stream 2, by the indices of stream 1. -/
def glean0 : Glean := {
  h := hdr0, root := 1, out := false, wts := false, bags := false, src := true, ff := false, srcD := strD 0x10000 4 32 0 128 0 0,
  idxD := strD 0x1000 4 1 0 0 1 0, offD := 0, wtD := 0, outD := 0, eFirst := 0, w := 32, next := 0, bag := 0, bagEnd := none,
  bagOffs := [], total := none, elems := [], consumer := none, phase := .active, fault := none, iFault := none, skip := [], fix := [],
  redo := [], denied := none, lost := none, flags := 0, dead := false }
/-- Director 0 with ticket 1 live, and that GLEAN. -/
def sG (g : Glean) : State := st { dirs := liveDir, gln := { gleans := [g] } }

/-- It is in flight, not bad, and a POOL's prior ticket names it; taken, or with an output, it is refused; with no prior ticket too. -/
theorem wit_GleanAndPoolAreIssued_pool :
    let s := sG glean0
    let x := s.eng.dir 0
    s.executes 0 [1, 2] = true ∧ gleanBad glean0 32 32 (strOf 0) = false ∧ ({ regs := [(2, 1)] } : Dir).get 2 = 1 ∧
    (x.slot 1 = some slot0 ∧ slot0.ticket = 1) ∧ s.eng.gleanOf 0 1 = some glean0 ∧ (sG { glean0 with out := true }).eng.gleanOf 0 1 =
      some { glean0 with out := true } ∧ (sG { glean0 with consumer := some key0 }).eng.gleanOf 0 1 = some { glean0 with consumer := some key0 } ∧
    s.eng.gleanOf 0 7 = none ∧ x.refuses [] [⟨2, true, [0]⟩] = none ∧ (0 : BitVec 37).toNat % 16 < 8 ∧
    (iw 3 1 2 2 5).imm.toNat % 16 = 5 := by decide +kernel

/-- One tile, one group, one query of 32 elements over the four rows of stream 2, without an output. -/
def swImm : BitVec 37 := 4 + 1 * 2 ^ 10 + 1 * 2 ^ 17
/-- That SWEEP in flight, holding its tile, its query loaded, with no row left. -/
def sweep0 : SweepJob := {
  h := hdr0, out := false, qrot := false, src := true, filt := false, srcD := strD 0x10000 4 32 0 128 0 0, filtD := 0,
  qD := strD 0x20000 1 32 0 128 0 0, outD := 0, r0 := 0, n := 4, t0 := 0, nt := 1, ng := 1, nq := 1, topk := none, tiles := true,
  queries := some [List.replicate 32 (.fin false 1)], todo := [[]], turn := [0], deferred := [], arrived := [], used := [],
  badRows := [], uncorr := false, div := false, lost := false, fault := false, ended := false }
def sW (j : SweepJob) : State := st { dirs := liveDir, swp := { sweeps := [j] } }
/-- The TOPK of that SWEEP, keeping four candidates. -/
def topk0 : TopkJob := {
  h := hdr0, mode1 := false, exOn := false, floor := none, k := 4, q := 1, dpos := 0xFF, a := 0, outD := strD 0x30000 4 4 0 16 0 0,
  posD := strD 0x7000 4 1 0 0 2 0, inD := 0, offD := 0, sweep := some key0, reserved := none, excl := [], lists := [], nans := [],
  swFlags := none, dead := false, fault := false, outs := none }

theorem wit_SweepAndTopkAreIssued :
    let s := sW { sweep0 with topk := none }
    let x := s.eng.dir 0
    s.executes 0 [1, 2] = true ∧ (swImm.toNat < 2 ^ 24 ∧ swImm.getLsbD 2 = true ∧ swImm.getLsbD 0 = false) ∧
    x.refuses [] [⟨2, false, [0]⟩, ⟨2, false, [0]⟩] = none ∧ s.eng.sweepBad { sweep0 with tiles := false, queries := none } 4 = false ∧
    s.eng.sweepOf key0 = some { sweep0 with topk := none } ∧ x.refuses [] [⟨2, true, [0]⟩, ⟨7, false, [2]⟩] = none ∧
    topkBad topk0 = false ∧ (iw 3 0 2 2 (3 * 8)).imm.toNat / 2 ^ 3 % 2 ^ 10 + 1 = 4 ∧
    (({} : Hth).isSelf 0xFF = true ∧ ({} : Hth).isSelf 9 = false ∧ ({} : Hth).size ≤ 9) := by decide +kernel

/-- A TED of the table with SGD, an area of 16 blocks; its GLEAN; an OPT's parameters. -/
theorem wit_TedAndOptAreIssued :
    let s : State := st { dirs := liveDir, gln := { gleans := [glean0] },
                          map := { activeVer := 1, index := [(1, (0, 1))], ents := [], tblCount := 2 } }
    let x := s.eng.dir 0
    let t := tabOf (tabD 0 32 64 1 1)
    s.executes 0 [2] = true ∧ x.refuses [0] [⟨1, false, [1]⟩, ⟨6, false, [0]⟩] = none ∧ x.slot 1 = some slot0 ∧
    s.eng.gleanOf 0 1 = some glean0 ∧ glean0.bags = false ∧ (decide (2 ≤ t.opt) && decide (t.opt ≤ 6)) = false ∧
    tedBad t (tabOf 0) 1 0 32 4 4 (s.eng.map.mapped 1) (strOf (strD 0x6000 16 64 0 256 0 0)) = false ∧
    (2 ≤ (tabOf (tabD 0 32 64 2 1 + BitVec.ofNat 256 (2 ^ 35))).opt ∧ (tabOf (tabD 0 32 64 2 1 + BitVec.ofNat 256 (2 ^ 35))).stEn = true) ∧
    s.eng.mp.firstHole 0 32 = none ∧ (shut 3).firstDenied 3 0 true false 0 32 ≠ none ∧ s.eng.answer 0 32 .ok = .ok ∧
    s.eng.answer 0 32 .uncorr ≠ .ok ∧ x.refuses [] [⟨4, true, [4]⟩] = none ∧ (strOf (x.desc 4).w).rows = 8 := by decide +kernel

/-- Replay, the unit disabled, a conditional TAKE not due, and one that is unconditional; no stop, and one of ticket 1. -/
theorem wit_TakeAndStopInstructionsTakeTickets :
    let y : Stop := { elem := 3, val := 0, ticket := 1, cause := 1, table := 0, stream := true }
    let tk : Tk := { ctl := 0x1B, cutMade := true, lastCut := some (1, 0), interval := 180 }
    (go.executes 0 [1] = true ∧ (iw 2 1 0 0 3).imm.toNat < 4 ∧ (go.eng.dir 0).slotFree 1 = true) ∧
    ({ ctl := 0x3A } : Tk).ctl.getLsbD 5 = true ∧ (({} : Tk).ctl.getLsbD 5 = false ∧ ({} : Tk).enabled = false) ∧
    (tk.enabled = true ∧ ((2 : BitVec 37).getLsbD 1 && !Eng.due { tk := { tk with step := tk.step + 1 } }) = true ∧
      ((0 : BitVec 37).getLsbD 1 && !Eng.due { tk := { tk with step := tk.step + 1 } }) = false) ∧
    ((go { stops := [y] }).executes 0 [1] = true ∧ ((go { stops := [y], tcount := 1 }).eng.dir 0).slotFree 2 = true ∧
      (go.eng.dir 0).stops = [] ∧ (go.eng.dir 0).nextTicket = 1) := by decide +kernel

/-- The gleaners' issue queue is full: 16 GLEANs of the director wait for a ticket that is live. -/
theorem wit_TakeAndStopInstructionsTakeTickets_full :
    let e : Eng := { dirs := liveDir, gln := { gleans := (List.range 16).map fun i =>
      { glean0 with h := { hdr0 with key := { dir := 0, ticket := BitVec.ofNat 32 (i + 2) }, prior := some 1 }, root := BitVec.ofNat 32 (i + 2) } } }
    e.queueFull e.hsGlean 0 = true ∧ (sG glean0).eng.queueFull (sG glean0).eng.hsGlean 0 = false := by decide +kernel

/-! ### Witnesses: jobs -/

theorem live_of (e : Eng) (h : e.dirs = liveDir) : (st e).ticketLive key0 slot0 := by
  have d : e.dir 0 = dirT := by unfold Eng.dir; rw [h]; rfl
  refine ⟨?_, rfl, rfl, ?_⟩
  · show (e.dir 0).slot 1 = _; rw [d]; rfl
  · show ∀ p ∈ (e.dir 0).stops, _; rw [d]; intro p hp; cases hp

/-- Jobs of ticket 1: a PIN of one line, a UNIQ of the table, a QNT of one row, a SAMPLE of four words, a DIGEST of 64 bytes. -/
def pin0 : PinJob := { h := hdr0, addr := 128, len := 128, unpin := false }
def uniq0 : UniqJob :=
  { h := hdr0, tab := tabD 0 32 64 1 1, inp := strD 0x1000 4 1 0 0 1 0, out := strD 0x5000 4 1 0 0 1 0, inv := strD 0x8000 4 1 0 0 1 0,
    cnt := 0x9000 }
def qnt0 : QntJob := { h := hdr0, src := strD 0x10000 1 32 0 128 0 0, dst := strD 0x20000 1 32 7 16 0 0 }
def smp0 : SampleJob := { h := hdr0, out := strD 0x5000 4 1 0 0 1 0, mode := 2, n := 420000000, k := 0, c := 0 }
def dig0 : DigJob := { h := hdr0, src := 0x1000, len := 64, dst := 0x2000, sha := true }
def eJ : Eng :=
  { dirs := liveDir, swd := { pins := [pin0] }, gln := { uniqs := [uniq0] }, grd := { qnts := [qnt0], thresh := 0x42 },
    smp := { jobs := [smp0] }, tk := { digs := [dig0] } }

theorem wit_PreparationJobsRetire_pin_uniq :
    (st eJ).ticketLive key0 slot0 ∧ (eJ.swd.pins.find? (·.h.key == key0) = some pin0 ∧ pin0.addr.toNat % 128 = 0 ∧ pin0.len % 128 = 0) ∧
    ((shut 3).firstDenied 3 0 true false 128 128 ≠ none ∧ ({ enabled := true } : Swd).allocates = true) ∧
    (eJ.gln.uniqs.find? (·.h.key == key0) = some uniq0 ∧ eJ.turn eJ.hsUniq uniq0.h = .go ∧ eJ.wideOk 0 true false 0x1000 16 ∧
      eJ.answer 0x1000 16 .ok = .ok ∧ eJ.wideOk 0 false true 0x5000 4 ∧ eJ.wideOk 0 false true 0x8000 16 ∧
      eJ.wideOk 0 false true 0x9000 8 ∧ eJ.answer 0x5000 4 .ok = .ok ∧ eJ.answer 0x8000 16 .ok = .ok ∧ eJ.answer 0x9000 8 .ok = .ok ∧
      eJ.answer 0x5000 4 .uncorr ≠ .ok ∧ (shut 4).firstDenied 4 0 true false 0x1000 16 ≠ none ∧ uniqLists (tabOf uniq0.tab) [0, 0, 0, 0] [] [] [] = ([0], [0, 0, 0, 0])) :=
  ⟨live_of _ rfl, by unfold Eng.wideOk; decide +kernel⟩

/-- The example under R44: 198 clipped elements of 196,608 do not pass the threshold 0x42, 199 do. -/
theorem wit_PreparationJobsRetire_qnt :
    (eJ.grd.qnts.find? (·.h.key == key0) = some qnt0 ∧ eJ.turn eJ.hsQnt qnt0.h = .go ∧ (strOf qnt0.src).rows = 1 ∧ eJ.wideOk 0 true false 0x10000 (strOf qnt0.src).span ∧
      eJ.wideOk 0 false true 0x20000 (strOf qnt0.dst).span ∧ eJ.answer 0x10000 (strOf qnt0.src).span .ok = .ok) ∧
    ¬ ((0x42 : W16).toNat * 196608 < 198 * 65536) ∧ (0x42 : W16).toNat * 196608 < 199 * 65536 := by unfold Eng.wideOk; decide +kernel

theorem wit_PreparationJobsRetire_sample_digest :
    (eJ.smp.jobs.find? (·.h.key == key0) = some smp0 ∧ eJ.turn eJ.hsSample smp0.h = .go ∧ (strOf smp0.out).role = 1 ∧ eJ.wideOk 0 false true 0x5000 (strOf smp0.out).span ∧
      eJ.answer 0x5000 (strOf smp0.out).span .ok = .ok ∧ (shut 4).firstDenied 4 0 false true 0x5000 (strOf smp0.out).span ≠ none) ∧
    (eJ.tk.digs.find? (·.h.key == key0) = some dig0 ∧ eJ.busy 9 = false ∧ eJ.wideOk 0 true false 0x1000 64 ∧
      eJ.wideOk 0 false true 0x2000 32 ∧ eJ.answer 0x1000 64 .ok = .ok ∧ eJ.answer 0x2000 32 .ok = .ok) := by
  unfold Eng.wideOk; decide +kernel

/-- A job whose prior ticket is live waits, one whose prior ticket failed is aborted. A PIN late for a restart; one that unpins; one whose
slice has no miss entry left. -/
theorem wit_PreparationJobsRetire_waits :
    (let e : Eng := { eJ with gln := { uniqs := [{ uniq0 with h := { hdr0 with prior := some 1, key := { dir := 0, ticket := 2 } } }] } }
     e.turn e.hsUniq { hdr0 with prior := some 1, key := { dir := 0, ticket := 2 } } = .wait) ∧
    (let e : Eng := { dirs := [(0, { dirT with slots := [(1, some slot0), (2, some { ticket := 2, out := some (3, 0) })] })] }
     e.turn [] { hdr0 with prior := some 2 } = .dead) ∧
    (({ pin0 with late := true } : PinJob).late = true ∧ ({ rs := [(5, some (.inReset false none))] } : Eng).busy 5 = true ∧
      pin0.late = false ∧ ({ pin0 with unpin := true } : PinJob).unpin = true) ∧
    eJ.swd.pending = false ∧ eJ.pinWaits (128 / 128) = false ∧
    ({ swd := { enabled := true, miss := List.replicate 256 { line := 64 * 63, w0 := true, w1 := true, demand := true, master := 0 } } } :
      Eng).pinWaits 63 = true := by
  decide +kernel

theorem noFence_of (e : Eng) (h : e.dirs = liveDir) : (st e).noFence key0 := by
  have d : e.dir 0 = dirT := by unfold Eng.dir; rw [h]; rfl
  intro p; show (e.dir 0).wait ≠ _; rw [d]; exact fun h => nomatch h

/-- A POOL, a TED of ticket 1, each the consumer of a GLEAN of ticket 2 that has retired. -/
def key2 : Key := { dir := 0, ticket := 2 }
def pool0 : PoolJob := {
  h := hdr0, op := 0, fp32 := false, pre := 0, k := 0, oFirst := 0, a := 0, outD := strD 0x30000 4 32 0 128 0 0, posD := 0, preD := 0,
  fill := 0, w := 32, q := 136, nBags := 4, bags := [], next := 4, flags := 0, fault := false, nEl := 128, nClip := 0, ovf := [] }
def ted0 : TedJob := {
  h := hdr0, set := 0, tFirst := 0, w := 32, tab := tabD 0 32 64 1 1, stTab := 0, idxD := strD 0x1000 4 1 0 0 1 0,
  areaD := strD 0x6000 16 64 0 256 0 0, behind := [], joined := true, fault := false, abort := false, flags := 0 }
def glean2 : Glean := { glean0 with h := { hdr0 with key := key2 }, root := 2, consumer := some key0 }

theorem wit_GatherJobsRetire_glean :
    ((sG glean0).ticketLive key0 slot0 ∧ (sG glean0).eng.glean key0 = some glean0 ∧ glean0.phase = .active) ∧
    (({ dirs := [(0, { dirT with slots := [(1, some slot0), (2, some { ticket := 2, out := some (3, 0) })] })] } : Eng).prior
      { hdr0 with prior := some 2 } = .dead) ∧
    (let g := { glean0 with out := true, total := some 0 }
     (sG g).eng.prior g.h ≠ .dead ∧ (sG g).eng.consumerGone g = false ∧ (sG g).eng.mp.owed (.ticket key0) = 0 ∧ g.stopAt = none ∧
      g.total = some g.next ∧ (sG g).eng.waveOpen g = false) ∧
    (let g := { glean0 with out := true, ff := true, fault := some (0, 9, 1) }
     g.fault = some (0, 9, 1) ∧ g.iFault = none ∧ (∀ y ∈ g.elems, 0 ≤ y.pos) ∧ g.redo = [] ∧ ((sG g).eng.dir 0).st ≠ .draining ∧
      ({ g with ff := false } : Glean).ff = false) :=
  ⟨⟨live_of _ rfl, by decide +kernel⟩, by decide +kernel⟩

theorem wit_GatherJobsRetire_pool_ted :
    (let e : Eng := { dirs := liveDir, wr := { pools := [pool0] }, gln := { gleans := [{ glean2 with phase := .retired }] } }
     (st e).ticketLive key0 slot0 ∧ e.pool key0 = some pool0 ∧ pool0.bags.all (fun b => b.phase == .drained) = true ∧
      e.linked key0 = some { glean2 with phase := .retired } ∧ pool0.next = pool0.nBags ∧
      ({ e with gln := {} } : Eng).linked key0 = none ∧ e.mp.owed (.ticket key0) = 0 ∧
      ¬ (e.grd.thresh ≠ 0 ∧ e.grd.thresh.toNat * pool0.nEl < pool0.nClip * 65536) ∧
      ((0x42 : W16) ≠ 0 ∧ (0x42 : W16).toNat * pool0.nEl < ({ pool0 with nClip := 1 } : PoolJob).nClip * 65536) ∧
      ({ pool0 with fault := true } : PoolJob).fault = true) ∧
    (let e : Eng := { dirs := liveDir, ted := { teds := [ted0] }, gln := { gleans := [{ glean2 with phase := .retired }] } }
     (st e).ticketLive key0 slot0 ∧ e.tedOf key0 = some ted0 ∧ e.linked key0 = some { glean2 with phase := .retired } ∧
      ({ e with rs := [(4, some (.inReset false none))] } : Eng).rs.get none 4 = some (.inReset false none) ∧ e.rs.get none 4 = none ∧
      e.mp.owed (.ticket key0) = 0 ∧ ted0.joined = true ∧ ted0.abort = false ∧ ({ ted0 with abort := true } : TedJob).abort = true) :=
  ⟨⟨live_of _ rfl, by decide +kernel⟩, live_of _ rfl, by decide +kernel⟩

/-- An OPT of set 0 that has started and has no row left. -/
def opt0 : OptJob := {
  h := hdr0, set := 0, t := 1, parD := strD 0x4000 8 1 0 0 4 0x8000, after := [], started := true, params := List.replicate 8 0,
  fault := false, todo := [], waiting := [], rows := 0, contrib := 0, replayed := 0, maxRep := 0, moved := 0, moved1 := none,
  uncorr := 0, nonfin := 0, fallback := false, flags := 0, nEl := 0, nClip := 0 }
def set0 : TSet := { opened := true, tab := tabD 0 32 64 1 1, w := 32, area := 0x6000, areaLen := 4096 }
def eO (o : OptJob) : Eng := { dirs := liveDir, ted := { opts := [o], sets := [(0, set0)] } }

theorem wit_SweepAndOptRetire :
    ((sW { sweep0 with out := true }).ticketLive key0 slot0 ∧ (sW { sweep0 with out := true }).eng.sweepOf key0 =
      some { sweep0 with out := true } ∧ (∀ rs ∈ sweep0.todo, ∀ r ∈ rs, r.cnt = 0) ∧ sweep0.deferred = []) ∧
    ((st (eO opt0)).ticketLive key0 slot0 ∧ (eO opt0).optOf key0 = some opt0 ∧ (eO opt0).busy 4 = false ∧
      (eO opt0).wideOk 0 false true (strOf opt0.parD).aux 64 ∧ (strOf opt0.parD).aux = 0x8000 ∧
      (eO opt0).answer (strOf opt0.parD).aux 64 .ok = .ok) ∧
    ({ opt0 with started := false } : OptJob).started = false :=
  ⟨⟨live_of _ rfl, by decide +kernel⟩, ⟨live_of _ rfl, by unfold Eng.wideOk; decide +kernel⟩, rfl⟩

/-! ### Witnesses: gathering and pooling -/

/-- Position 0 with its request issued for the row at 0x10000, and held since time 0. -/
def part0 : Part :=
  { id := 0, ent := 0, copy := 0, first := 0, cnt := 32, pos := 0, tier := 0, addr := 0x10000, bytes := 128, odd := false, ver := 0,
    st := .issued, chunks := [] }
def elem0 : Elem :=
  { pos := 0, bag := 0, val := 0, row := 0, weight := 0x3F800000, outc := 0, parts := [part0], resolved := true, gl := 0, redo := false }

/-- Index memory of zeros: row 0. The all-ones index is padding, 4 is out of range. -/
theorem wit_GatheringResolvesAndDelivers_resolve :
    let s := sG glean0
    (s.eng.gln.queued (·.due)).filter (·.1 == key0) = [] ∧ s.eng.gleanGo glean0 = true ∧ (strOf glean0.idxD).rows = 4 ∧ s.eng.gleaner glean0 0 = some 0 ∧ glean0.fixed 0 = none ∧
    s.eng.wideOk 0 true false 0x1000 4 ∧ s.eng.answer 0x1000 4 .ok = .ok ∧ leNat (s.eng.rdDev true 0x1000 4) = 0 ∧
    glean0.index 0 = .row 0 ∧ glean0.index (2 ^ 32 - 1) = .pad ∧ glean0.index 4 = .fault ∧ glean0.index 3 = .row 3 ∧
    s.eng.gleanParts glean0 0 = ([part0], none) ∧ s.eng.partsWait [part0] = false ∧ glean0.dealt 0 = none ∧ s.eng.slotsAt 0 + ([part0].map fun x => x.sectors.length).sum ≤ 2048 ∧
    (s.eng.mp.firstHole 0x10000 128 = none ∧ s.eng.acc.firstDenied 3 0 true false 0x10000 128 = none) ∧
    ({ glean0 with skip := [0] } : Glean).skip.contains 0 = true := by unfold Eng.wideOk; decide +kernel

theorem wit_GatheringResolvesAndDelivers_return :
    let g := { glean0 with elems := [elem0], next := 1 }
    ((sG g).eng.gleanGo g = true ∧ g.part 0 0 = some (elem0, part0) ∧ part0.st = .issued ∧ part0.pos = (sG g).eng.hth.pos ∧
      (sG g).eng.answer 0x10000 128 .ok = .ok ∧ (sG g).eng.answer 0x10000 128 .uncorr ≠ .ok) ∧
    (let o := { g with out := true, outD := strD 0x40000 4 32 0 128 0 0x9000 }
     elem0.pos < o.next ∧ (strOf o.outD).fw = (strOf o.srcD).fw ∧ (sG o).eng.wideOk 0 false true 0x40000 128 ∧
      (sG o).eng.wideOk 0 false true 0x9000 1 ∧ (strOf o.outD).aux = 0x9000) ∧
    (let h := { g with elems := [{ elem0 with parts := [{ part0 with st := .held 0 0 }] }] }
     let e : Eng := { dirs := liveDir, gln := { gleans := [h], retryLimit := 1 }, hth := { time := 1000 } }
     e.gln.retryLimit.toNat ≠ 0 ∧ (∃ p ∈ [{ part0 with st := .held 0 0 }], p.due = false ∧ p.st = .held 0 0) ∧ (e.gln.queued (·.due)).filter (·.1 == key0) = [] ∧
      (0 : W64).toNat + 1000 * e.gln.retryLimit.toNat ≤ e.hth.time.toNat) := by unfold Eng.wideOk; decide +kernel

/-- A bag of one position, filling; entered; passed. -/
def bag0 : Bag :=
  { num := 0, first := 0, n := 1, places := [(0, 0)], seg := 1, long := false, twice := false, phase := .filling, entered := 0,
    redone := false, recs := [], scan := [], pre := [], best := [], slots := [], d := 0, nanExcl := 0, flags := 0, accs := [],
    replays := 0, bad := false }
def poolF : PoolJob := { pool0 with next := 0 }
def ePool (j : PoolJob) (g : Glean) (b : Bale) : Eng :=
  { dirs := liveDir, wr := { pools := [j], bales := [(0, b)] }, gln := { gleans := [g] } }

theorem wit_PoolingPlacesAccumulatesAndDrains_place_enter :
    (let e := ePool poolF glean2 {}
     e.pool key0 = some poolF ∧ e.linked key0 = some glean2 ∧ e.poolGo poolF glean2 = true ∧ e.wr.waitLong = none ∧ poolF.next < poolF.nBags ∧
      (poolF.retains && decide (262144 < 1928 * poolF.q)) = true ∧ (e.places poolF 1928 (262144 / poolF.q) true).isSome = true ∧
      glean2.bagAt 0 = some (0, 1) ∧ (poolF.retains && decide (262144 < 1 * poolF.q)) = false ∧
      e.places poolF 1 1 false = some [(0, 0)] ∧ (e.wr.bale 0 0).st = .filling) ∧
    (let e : Eng := { ePool poolF glean2 {} with wr := { pools := [poolF], bales := (List.range 128).map fun i => (i, { st := .draining }) } }
     e.places poolF 1 1 false = none) ∧
    (let g := { glean2 with elems := [{ elem0 with parts := [{ part0 with st := .got (List.replicate 128 0) }] }], next := 1 }
     let j := { poolF with bags := [bag0], next := 1 }
     let x := { elem0 with parts := [{ part0 with st := .got (List.replicate 128 0) }] }
     (ePool j g { bags := [(key0, 0)] }).poolGo j g = true ∧ g.ready = some x ∧
      j.bags.find? (fun b => b.num == x.bag && b.phase == .filling && b.redone == x.redo) = some bag0) := by decide +kernel

/-- The record of that position, and its bag when it has entered. -/
def bag1 : Bag := { bag0 with phase := .entered, entered := 1, d := 1, recs := [{ pos := 0, outc := 0, weight := 0x3F800000, data := List.replicate 128 0 }] }

theorem wit_PoolingPlacesAccumulatesAndDrains_start_pass :
    (let j := { poolF with bags := [bag1], next := 1 }
     let e := ePool j glean2 { bags := [(key0, 0)] }
     e.wr.bale 0 0 = { bags := [(key0, 0)] } ∧ e.bagsIn (e.wr.bale 0 0) = [(j, bag1)] ∧ e.bagIn (key0, 0) = some (j, bag1) ∧
      (e.wr.bale 0 1).st = .filling ∧ e.openStop (e.wr.bale 0 1) = false ∧ bag1.homeAt 0 0 = true ∧ e.busy 2 = false) ∧
    (let b := { bag1 with accs := List.replicate 32 { e := 8 } }
     let j := { poolF with bags := [b], next := 1 }
     let e := ePool j glean2 { st := .accum, bags := [(key0, 0)] }
     (e.wr.bale 0 0).st = .accum ∧ e.bagsIn (e.wr.bale 0 0) = [(j, b)] ∧ b.places = [(0, 0)] ∧ j.retains = true ∧ j.fp32 = false) := by
  decide +kernel

/-- Passes that overflow: 1.0 against a quantum so small that it does not fit, below and at three replays. -/
theorem wit_PoolingPlacesAccumulatesAndDrains_overflow :
    (passExact [{ e := -80 }] [] [{ pos := 0, c := .fin false 1, xs := [.fin false 1] }]).any (·.ovf) = true ∧
    (passExact [{ e := 8 }] [] [{ pos := 0, c := .fin false 1, xs := [.fin false 1] }]).any (·.ovf) = false ∧
    ({ st := .accum, replays := 2 } : Bale).replays < 3 ∧ 3 ≤ ({ st := .accum, replays := 3 } : Bale).replays := by decide +kernel

theorem wit_PoolingPlacesAccumulatesAndDrains_drain :
    let b := { bag1 with phase := .passed, accs := List.replicate 32 {} }
    let j := { poolF with bags := [b], next := 1 }
    let e := ePool j glean2 { st := .draining, bags := [(key0, 0)] }
    e.bagIn (key0, 0) = some (j, b) ∧ b.phase = .passed ∧ j.op ≠ 6 ∧ e.wideOk 0 false true 0x30000 128 ∧
    e.answer 0x30000 128 .ok = .ok ∧ (strOf j.outD).aux = 0 ∧ edgeRead (strOf j.outD).fmt 32 0 32 = false := by
  unfold Eng.wideOk; decide +kernel

/-! ### Witnesses: sweeping and the tedder -/

/-- The sweep's last row, streamed here from its own stream, one query in one group of one tile. -/
def sweepR : SweepJob := { sweep0 with
  todo := [[{ first := 3, cnt := 1, ent := 0,
              copy := some { num := 0, pos := 0, tier := 0, base := 0x10000, first := 0, stride := 128, ver := 0 } }]] }
/-- The SWEEP with its TOPK, of ticket 2. -/
def topk2 : TopkJob := { topk0 with h := { hdr0 with key := key2 } }
def eST (j : SweepJob) (t : TopkJob) : Eng := { dirs := liveDir, swp := { sweeps := [{ j with topk := some key2 }], topks := [t] } }

theorem wit_SweepingScoresAndMerges_tiles_queries :
    (let j := { sweep0 with tiles := false, queries := none, topk := some key2 }
     let e := eST j { topk2 with reserved := some 4 }
     e.sweepOf key0 = some j ∧ e.wantsTiles j = true ∧ (∀ i < j.nt, e.swp.held (j.t0 + i) = false) ∧
      (e.swp.sweeps.takeWhile fun x => x.h.key != key0) = [] ∧ e.busy 3 = false) ∧
    (∃ i < sweep0.nt, (sW sweep0).eng.swp.held (sweep0.t0 + i) = true) ∧
    (let j := { sweep0 with queries := none }
     j.tiles = true ∧ (sW j).eng.wideOk 0 true false 0x20000 (strOf j.qD).span ∧ (sW j).eng.answer 0x20000 (strOf j.qD).span .ok = .ok) := by
  unfold Eng.wideOk; decide +kernel

theorem wit_SweepingScoresAndMerges_rows :
    (let e := (sW sweepR).eng
     sweepR.queries ≠ none ∧ (0 : Fin 64).val < sweepR.ng ∧ e.swp.moving = [] ∧ sweepR.groupSize = 1 ∧ sweepR.queriesOf 0 = [0] ∧
      (sweepR.todo.getD 0 []).length = 1 ∧ e.swp.sent.get [] 0 = [] ∧ 0x10000 + (3 - 0) * 128 = 0x10180 ∧
      e.wideOk 0 true false 0x10180 (strOf sweepR.srcD).item ∧ e.answer 0x10180 (strOf sweepR.srcD).item .ok = .ok ∧
      e.swp.parts.get {} (partKey 0 0) = {} ∧
      (dotExact (sweepR.fw.decodeRow 32 (e.rdDev true 0x10180 128)) ((sweepR.queries.getD []).getD 0 [])).r32.isNan = false ∧
      ordLt (.fin false 0) (e.startTau sweepR) = false) ∧
    ({ moving := [(0, 0)] } : Swp).moving ≠ [] ∧ ({ s0 with ao := { s0.ao with allow := 0 } } : State).ao.allow = 0 ∧ s0.ao.allow ≠ 0 ∧
    (let j := { sweepR with out := true, outD := strD 0x50000 1 4 0 16 0 0 }
     (sW j).eng.wideOk 0 false true ((strOf j.outD).addr 0 + (3 - 0) * 4) 4) := by unfold Eng.wideOk; decide +kernel

/-- A list at the merge unit; the floor met and not met; an excluded row; a full list; rows deferred to the limit. -/
theorem wit_SweepingScoresAndMerges_merge :
    (let l : SentList := { sweep := key0, query := 0, cands := [{ score := .fin false 1, row := 3 }], nans := 0 }
     let e : Eng := { eST sweep0 topk2 with swp := { sweeps := [{ sweep0 with topk := some key2 }], topks := [topk2], sent := [(63, [l])] } }
     e.swp.sent.get [] (63 : Fin 64).val = [l] ∧ e.swp.full.get [] 63 = [] ∧ l.sweep = key0 ∧ e.topkOf key2 = some topk2 ∧ e.busy 3 = false ∧
      topk2.meets (.fin false 1) = true ∧ ({ topk2 with floor := some 0x40000000 } : TopkJob).meets (.fin false 1) = false ∧
      3 ∉ topk2.excl.get [] 0 ∧ 3 ∈ ({ topk2 with excl := [(0, [3])] } : TopkJob).excl.get [] 0) ∧
    (let t := { topk2 with k := 1, lists := [(0, [{ score := .fin false 1, row := 3 }])] }
     (t.lists.get [] 0)[t.k - 1]? = some { score := .fin false 1, row := 3 } ∧ t.sweep = some key0 ∧ 0 < sweep0.nq) ∧
    (let j := { sweep0 with deferred := [(0, { first := 0, cnt := 4, ent := 7, copy := none }, 0)] }
     ∃ x ∈ j.deferred, x.2.1.ent = 7 ∧ x.2.2.toNat + 1000 * 1 ≤ (1000 : W64).toNat) := by decide +kernel

/-- A TOPK of ticket 1 that fits, that fits exactly, that must wait, that never fits; a dead one; one ready to write here. -/
theorem wit_TopkReservesAndWritesOut :
    (let e : Eng := { dirs := liveDir, swp := { topks := [topk0] } }
     (st e).ticketLive key0 slot0 ∧ e.topkOf key0 = some topk0 ∧ e.busy 3 = false ∧ e.topkGo topk0 = true ∧
      (e.swp.topks.takeWhile fun x => x.h.key != key0) = []) ∧
    (2 ^ 20 < 65536 * 17 ∧ 1024 * 1024 ≤ 2 ^ 20 ∧ 2 ^ 20 < 4 + (2 ^ 20 - 3) ∧ 4 + (2 ^ 20 - 4) ≤ 2 ^ 20) ∧
    (let t := { topk0 with reserved := some 4, swFlags := some (false, false, false) }
     let e : Eng := { dirs := liveDir, swp := { topks := [t] } }
     e.prior t.h ≠ .dead ∧ e.hth.isSelf t.dpos.toNat = true ∧ ((List.range t.q).flatMap t.outputs).length = 2 ∧
      (∀ x ∈ (List.range t.q).flatMap t.outputs, e.mp.firstHole x.1 x.2.length = none ∧
        e.acc.firstDenied 4 0 false true x.1 x.2.length = none) ∧
      (∀ x ∈ (List.range t.q).flatMap t.outputs, e.answer x.1 x.2.length .ok = .ok) ∧
      ((((List.range t.q).flatMap t.outputs).flatMap fun x => pieces (x.2.length / 1024 + 1) x.1 x.2).length = 2) ∧
      e.busy 7 = false ∧ e.zw.blocked = [] ∧ e.zw.stored + 16 * zCells (.write 0 [0]) ≤ 8388608 ∧ e.zw.reserved ≤ 9728 ∧
      e.zw.awaits (fun u _ _ => u == .topk key0) = false) ∧
    (({ topk0 with outs := some [] } : TopkJob).outs = some [] ∧ ({ topk0 with outs := some [(0, [1])] } : TopkJob).outs = some [(0, [1])] ∧
      ({ topk0 with fault := true } : TopkJob).fault = true) ∧
    (({ cfg := 0x80100, failed := 2 } : Hth).isSelf (1 : BitVec 8).toNat = false ∧
      ({ cfg := 0x80100, failed := 2 } : Hth).isFailed (1 : BitVec 8).toNat = true ∧
      ({ cfg := 0x80100 } : Hth).isFailed (1 : BitVec 8).toNat = false) :=
  ⟨⟨live_of _ rfl, by decide +kernel⟩, by decide +kernel⟩

/-- With exclusions: one query excludes row 7. In mode 1: one query's list of four scores, all zero, sorted by position. -/
theorem wit_TopkReservesAndWritesOut_inputs :
    (let t := { topk0 with exOn := true, inD := strD 0x7000 4 1 0 0 2 0, offD := strD 0x3000 2 1 0 0 3 0 }
     let e : Eng := { dirs := liveDir, swp := { topks := [t] }, dev := (Memory.wrN [] 0x3000 (leBytes 8 0 ++ leBytes 8 1)).wrN 0x7000 (leBytes 8 7) }
     t.reserved = none ∧ e.topkGo t = true ∧ leNat (e.rdMem false true ((strOf t.offD).addr 1) 8) = 1 ∧
      e.wideOk 0 true false (strOf t.offD).base (strOf t.offD).span ∧ e.answer (strOf t.offD).base (strOf t.offD).span .ok = .ok ∧
      e.answer (strOf t.offD).base (strOf t.offD).span .uncorr ≠ .ok ∧ t.q * t.k + 1 ≤ 2 ^ 20 ∧
      e.wideOk 0 true false (strOf t.inD).base 8 ∧ e.answer (strOf t.inD).base 8 .ok = .ok ∧
      leNat (e.rdMem false true ((strOf t.inD).addr 0) 8) = 7) ∧
    (let t := { topk0 with mode1 := true, reserved := some 4, sweep := none, inD := strD 0x7000 1 4 0 16 0 0, offD := strD 0x3000 4 1 0 0 2 0 }
     let e : Eng := { dirs := liveDir, swp := { topks := [t] },
                      dev := Memory.wrN [] 0x3000 ((List.range 4).flatMap (leBytes 8)) }
     let ls := List.zipWith (fun v p => { score := v, row := p : Cand }) ((strOf t.inD).fmt.decodeRow 4 (e.rdMem false true 0x7000 16))
       ((List.range 4).map fun x => leNat (e.rdMem false true ((strOf t.offD).addr x) 8))
     e.prior t.h ≠ .dead ∧ t.outs = none ∧ (strOf t.inD).rows = t.q ∧ 0 < t.q ∧ e.wideOk 0 true false 0x7000 (strOf t.inD).span ∧
      e.wideOk 0 true false 0x3000 32 ∧ e.answer 0x7000 (strOf t.inD).span .ok = .ok ∧ e.answer 0x3000 32 .ok = .ok ∧
      ls.map (·.row) = [0, 1, 2, 3] ∧ ls.Pairwise (fun x y => rankAbove x y = true ∧ x.row ≠ y.row) ∧ (∀ x ∈ ls, x.score.isNan = false) ∧
      ((ls.takeWhile fun x => t.meets x.score && x.row != 2 ^ 64 - 1).take t.k).length = 4 ∧
      (shut 4).firstDenied 4 0 true false 0x7000 (strOf t.inD).span ≠ none) := by
  unfold Eng.wideOk; decide +kernel

/-- The map that places table 1's rows 0 to 7 here. -/
def map1 : MapSt := { activeVer := 1, index := [(1, (0, 1))], ents := [ent0], tabs := [(1, tabD 0 32 64 1 1)] }
/-- The TED of ticket 1 with the element that its GLEAN delivers next. -/
def elemG : Elem := { elem0 with parts := [{ part0 with st := .got (List.replicate 128 0) }] }
def eT (set : TSet) (x : Elem) : Eng :=
  { dirs := liveDir, map := map1, ted := { teds := [ted0], sets := [(0, set)] },
    gln := { gleans := [{ glean2 with elems := [x], next := 1 }] } }

theorem wit_ContributionsAreRecorded :
    (let e := eT set0 elemG
     e.tedOf key0 = some ted0 ∧ e.linked key0 = some { glean2 with elems := [elemG], next := 1 } ∧ e.busy 4 = false ∧
      ({ glean2 with elems := [elemG], next := 1 } : Glean).ready = some elemG ∧ e.tset 0 = set0 ∧ e.turn e.hsTed ted0.h.linked = .go ∧ elemG.outc.toNat % 8 = 0 ∧
      withheld elemG.outc = false ∧ e.wideOk 0 true false 0x1000 4 ∧ e.answer 0x1000 4 .ok = .ok ∧
      leNat (e.rdDev true 0x1000 4) = 0 ∧ (tabOf set0.tab).resolve 0 = .row 0 ∧ (tabOf set0.tab).resolve 64 = .fault ∧
      e.foreign set0 0 = false ∧ e.foreign set0 8 = true ∧
      (padTo 16 (({ glean2 with elems := [elemG], next := 1 } : Glean).gathered elemG)).length = 128) ∧
    (({ elemG with outc := 2 } : Elem).outc.toNat % 8 ≠ 0 ∧ ({ elemG with outc := 0x20 } : Elem).outc.toNat % 8 = 0 ∧
      withheld ({ elemG with outc := 0x20 } : Elem).outc = true) ∧
    (({ set0 with used := 4096 - 143 } : TSet).areaLen < 4096 - 143 + 144 ∧ (4096 - 144) + 144 ≤ set0.areaLen ∧
      (eT set0 elemG).wideOk 0 false true 0x6000 144 ∧ (eT set0 elemG).answer 0x6000 144 .ok = .ok ∧
      (eT set0 elemG).ted.dirUsed (laneOf 1 0) < 65536) ∧
    (({ set0 with ents := [{ row := 0, head := 0, last := 0, n := 1 }] } : TSet).ents.find? (·.row == 0)).isSome = true := by
  unfold Eng.wideOk; decide +kernel

/-- A target that is padding, and one that is masked; a directory that is full; a record and a target whose access fails. -/
theorem wit_ContributionsAreRecorded_spoils :
    (tabOf (tabD 0 32 64 1 1 + BitVec.ofNat 256 (5 * 2 ^ 192 + 2 ^ 233))).resolve 5 = .pad ∧
    (tabOf (tabD 0 32 64 1 1 + BitVec.ofNat 256 (2 ^ 105))).resolve 64 = .masked ∧
    (shut 4).firstDenied 4 0 false true 0x6000 144 ≠ none ∧ (eT set0 elemG).answer 0x6000 144 .uncorr ≠ .ok ∧
    (eT set0 elemG).answer 0x1000 4 .uncorr ≠ .ok ∧
    ((eT set0 elemG).wideOk 0 false true (0x6000 + 16 * 0 + 12) 4 ∧ (eT set0 elemG).answer (0x6000 + 16 * 0 + 12) 4 .ok = .ok) := by
  unfold Eng.wideOk; decide +kernel

theorem wit_ContributionsAreRecorded_full :
    let r : DirEnt := { row := 1, head := 0, last := 0, n := 1 }
    (∀ v ∈ List.replicate 65536 r, v.row ≠ 0) ∧ laneOf 1 (17) = laneOf 1 0 ∧
    65536 ≤ (eT { set0 with ents := List.replicate 65536 { r with row := 17 } } elemG).ted.dirUsed (laneOf 1 0) := by
  refine ⟨fun v hv => by rw [List.eq_of_mem_replicate hv]; decide, by decide +kernel, ?_⟩
  have h : laneOf (tabOf set0.tab).tid (17) = laneOf 1 0 := by decide +kernel
  simp only [Ted.dirUsed, eT, List.map_cons, List.map_nil, List.sum_cons, List.sum_nil]
  rw [List.filter_eq_self.mpr]
  · rw [List.length_replicate, Nat.add_zero]
  · intro v hv
    rw [List.eq_of_mem_replicate hv]
    simpa using h

/-- A set with one row of one record, the OPT with that row to do, and its lane's claim. -/
def set1 : TSet := { set0 with used := 144, contrib := 1, ents := [{ row := 0, head := 0, last := 0, n := 1 }] }
def optR : OptJob := { opt0 with todo := [0] }
def claim0 : Claim :=
  { k := key0, row := 0, ents := [(0, ent0)], repl := [(0, [])], stEnts := [], st := .claimed, writes := [], reps := [], taps := [], wr := .ok, recs := 0,
    replays := 0, peers := 0 }
def eR (o : OptJob) (m : MapSt) (ls : SMap (Option Claim)) : Eng :=
  { dirs := liveDir, map := m, ted := { opts := [o], sets := [(0, set1)], lanes := ls } }

theorem wit_RowsAreClaimedSteppedAndReleased_claim :
    (let e := eR optR map1 []
     e.optOf key0 = some optR ∧ 0 ∈ optR.todo ∧ laneOf 1 0 = (1 : Fin 16).val ∧ e.ted.lanes.get none 1 = none ∧
      (e.ted.opts.takeWhile fun x => x.h.key != key0) = [] ∧ e.rowRange 1 0 0 32 = some [(0, ent0)] ∧ stRanges 1 32 0 32 = [] ∧
      e.holdsBack [(0, ent0)] = false ∧ e.allHome [(0, ent0)] = true ∧ e.replicasOf [(0, ent0)] = claim0.repl ∧ e.holdsBack [(0, { ent0 with hold := true })] = true ∧
      e.allHome [(0, { ent0 with home := 1 })] = false ∧ e.rowRange 1 8 0 32 = none) ∧
    (let o := { optR with todo := [], waiting := [(0, 0)] }
     (0, 0) ∈ o.waiting ∧ (0 : W64).toNat + 1000 * 1 ≤ (1000 : W64).toNat) := by decide +kernel

theorem wit_RowsAreClaimedSteppedAndReleased_step :
    let e := eR { optR with todo := [] } map1 [(1, some claim0)]
    e.ted.lanes.get none (1 : Fin 16).val = some claim0 ∧ (tabOf set1.tab).opt = 1 ∧
    e.rowWaits (tabOf set1.tab).fmt [(0, ent0)] 0 0 32 = false ∧ (set1.ents.find? (·.row == 0)).map (·.head) = some 0 ∧ (e.readChain 0 set1 .ok set1.contrib 0).2.2 = .fine ∧
    (e.readRowPart 0 (tabOf set1.tab).fmt [(0, ent0)] 0 0 32 .ok).2.2 = .fine ∧
    (e.rowWrites (tabOf set1.tab).fmt [(0, ent0)] [(0, [])] 1 0 0 (List.replicate 32 (.fin false 0))).1.length = 1 ∧
    (e.rowWrites (tabOf set1.tab).fmt [(0, ent0)] [(0, [])] 1 0 0 (List.replicate 32 (.fin false 0))).2.1 = [] ∧
    (e.mp.firstHole 0x10000 128 = none ∧ e.acc.firstDenied 3 0 false true 0x10000 128 = none) ∧
    (({ e with acc := shut 4 } : Eng).readChain 0 set1 .ok set1.contrib 0).2.2 ≠ .fine := by decide +kernel

/-- A comparison of an entry that holds its claims. -/
def cmp0 (h : HomeEnt) : RepCmp :=
  { num := 0, h := h, bad := false, begun := true, home := none, seq := 0, work := none, got := [] }

/-- A comparison holds the row; a set whose optimizer has a state row, all of it placed here; each optimizer's lengths. -/
theorem wit_RowsAreClaimedSteppedAndReleased_state :
    (let e := { eR optR map1 [] with map := { map1 with cmps := [cmp0 ((eR optR map1 []).homeEnt 0 ent0)] } }
     e.comparing 1 0 = true ∧ (eR optR map1 []).comparing 1 0 = false ∧ (eR optR map1 []).comparing 0 0 = false) ∧
    (let set := { set1 with tab := tabD 0 32 64 2 1 + BitVec.ofNat 256 (2 ^ 35 + 2 * 2 ^ 36), stTab := tabD 0 32 64 0 2 }
     let c := { claim0 with stEnts := [[(0, { ent0 with table := 2, base := 0x18000 })]] }
     let e := { eR { optR with todo := [] } map1 [(1, some c)] with tk := { ctl := 0x1B, tap := true } }
     let e := { e with ted := { e.ted with sets := [(0, set)] } }
     let rs := stRanges (tabOf set.tab).opt (tabOf set.tab).len 0 32
     e.ted.lanes.get none (1 : Fin 16).val = some c ∧ e.tset 0 = set ∧ rs = [(0, 32)] ∧ c.stEnts.length = rs.length ∧
      e.rowWaits (tabOf set.tab).fmt c.ents 0 0 32 = false ∧
      (∀ y ∈ rs.zip c.stEnts, e.rowWaits (tabOf set.stTab).fmt y.2 0 y.1.1 (y.1.1 + y.1.2) = false) ∧
      (set.ents.find? (·.row == 0)).isSome = true ∧ (e.readChain 0 set .ok set.contrib 0).2.2 = .fine ∧
      (e.readRowPart 0 (tabOf set.tab).fmt c.ents 0 0 32 .ok).2.2 = .fine ∧
      (e.readRowPart 0 (tabOf set.stTab).fmt [(0, { ent0 with table := 2, base := 0x18000 })] 0 0 32 .ok).2.2 = .fine ∧ e.tk.tap = true) ∧
    (([xzero] : List XVal).length = [xzero].length ∧ [xzero, xzero].length = 2 * [xzero].length ∧ [xzero, xzero].length = [xzero].length + 1) := by
  decide +kernel

theorem wit_RowsAreClaimedSteppedAndReleased_tap :
    (let c := { claim0 with st := .tap }
     let e := eR { optR with todo := [] } map1 [(1, some c)]
     e.ted.lanes.get none 1 = some c ∧ e.tk.main.denied = false ∧ e.tk.mir.denied = false ∧ e.tk.tap = false ∧ e.writesWait c = false ∧
      ({ e with swd := { pending := true } } : Eng).writesWait { c with writes := [{ pos := 0, tier := 0, addr := 0x10000, data := [0] }] } = true) ∧
    (({ ctl := 0x1B, tap := true, main := { blocks := 2, wr := 1 } } : Tk).full false = true ∧
      ({ ctl := 0x1B, tap := true, main := { blocks := 2 }, opened := some { start := 0, mstart := none } } : Tk).full false = false ∧
      ({ ctl := 0x1B, main := { blocks := 2 } } : Tk).full true = false) ∧
    (({ blocks := 2, wr := 1 } : Area).room 1 = false ∧ ({ blocks := 2 } : Area).room 0 = true) ∧
    (({ start := 0, mstart := none } : File).mstart = none) ∧
    (({ claim0 with st := .written, peers := 1 } : Claim).peers ≠ 0 ∧ ({ claim0 with st := .written } : Claim).peers = 0) := by
  decide +kernel

/-! ### Witnesses: memory, the window, copy engines, the sward -/

/-- Slice 63's miss entries are all in use, and none is line 63's. -/
def full63 : List Miss := List.replicate 256 { line := 64 * 63, w0 := true, w1 := true, demand := true, master := 0 }

theorem wit_AtomicsAnswerAndStore :
    (State.reset.runs = false ∧ s0.runs = true ∧ s0.eng.serving = true ∧ (st { swd := { pending := true } }).eng.serving = false) ∧
    ((3 : Nat) ∉ [4, 8] ∧ (8 : Nat) ∈ [4, 8] ∧ (4 : Nat) % 8 ≠ 0 ∧ (8 : Nat) % 8 = 0) ∧
    (s0.eng.mp.firstHole 8 8 = none ∧ (shut 3).firstDenied 3 0 true true 8 8 ≠ none ∧ s0.eng.acc.firstDenied 3 0 true true 8 8 = none ∧
      s0.eng.answer 8 8 .ok = .ok) ∧
    s0.eng.sectorsWait [8 / 64 * 64] = false ∧ ({ swd := { enabled := true, miss := full63 } } : Eng).sectorsWait [8064] = true ∧
    ({ swd := { enabled := true, miss := full63 } } : Eng).serving = true ∧
    (s0.eng.swd.enabled = false ∧ s0.eng.swd.lines = [] ∧ s0.eng.swd.evb = []) := by decide +kernel

/-- The window on, at base 0; a page's last bytes, one byte over; a buffered page; read-ahead on and off. -/
theorem wit_WindowServesItsAccesses :
    (s0.eng.busy 8 = false ∧ s0.eng.hc.cfg.getLsbD 0 = false ∧ ({ cfg := 7 } : Hc).cfg.getLsbD 0 = true) ∧
    s0.eng.atomicWaits 2 8 8 = false ∧ ((3584 : Nat) / 4096 = (3584 + 512 - 1) / 4096 ∧ (3584 : Nat) / 4096 ≠ (3584 + 513 - 1) / 4096) ∧
    s0.eng.wideOk 0 true false 3584 512 ∧ s0.eng.wideOk 0 false true 3584 512 ∧ ({ cfg := 7 } : Hc).master = 0 ∧
    (({ cfg := 7, bufs := [{ page := 0, data := List.replicate 4096 0 }] } : Hc).buf 0).isSome = true ∧ ({ cfg := 7 } : Hc).buf 0 = none ∧
    ({ cfg := 7 } : Hc).cfg.getLsbD 1 = true ∧ ({ cfg := 5 } : Hc).cfg.getLsbD 1 = false ∧
    (({ cfg := 7, reads := [(3584, 512)] } : Hc).reads.find? (fun y => y.1 / 4096 % 16384 == (0 : BitVec 14).toNat) = some (3584, 512) ∧
      s0.eng.answer 0 4096 .ok = .ok) ∧
    s0.serves 0 0x14000 (.wr64 0) = true ∧ s0.serves 0 0x1400C (.wr32 1) = true ∧ s0.serves 0 0x14008 (.wr32 0x1FF) = true := by
  unfold Eng.wideOk; decide +kernel

/-- A STAGE of ticket 1 from host to device memory: waiting, running, at its end. -/
def xfer0 : Xfer :=
  { owner := .ticket key0, src := 0x1000, dst := 0x2000, len := 600, srcHost := true, dstHost := false, master := 0, started := false, moved := 0 }
def eX (x : Xfer) : Eng := { dirs := liveDir, hc := { ces := [(0, [x])] } }

theorem wit_CopyEnginesMoveTheirTransfers :
    ((eX xfer0).hc.ces.get [] (0 : Fin 16).val = [xfer0] ∧ (eX xfer0).inReset 8 = false ∧ xfer0.ofLoader = false ∧
      ({ xfer0 with owner := .loader none } : Xfer).ofLoader = true ∧ (eX xfer0).acc.firstDenied 5 0 true false 0x1000 600 = none ∧
      (eX xfer0).mp.firstHole 0x2000 600 = none ∧ (eX xfer0).acc.firstDenied 4 0 false true 0x2000 600 = none ∧
      (shut 5).firstDenied 5 0 true false 0x1000 600 ≠ none) ∧
    ({ xfer0 with started := true } : Xfer).request = (0, 512) ∧ ({ xfer0 with started := true, moved := 512 } : Xfer).request = (512, 88) ∧
    ((600 : Nat) ≤ ({ xfer0 with started := true, moved := 600 } : Xfer).moved ∧ (eX xfer0).mp.owed (.ticket key0) = 0) ∧
    (st (eX xfer0)).ticketLive key0 slot0 ∧
    ((fly [cmd 3 [] .running]).reel 0).inflight = [] ++ cmd 3 [] .running :: [] ∧
    ({ acks := [(.ticket key0, 1)] } : Mp).acks = [] ++ (.ticket key0, 1) :: [] :=
  ⟨by decide +kernel, by decide +kernel, by decide +kernel, by decide +kernel, live_of _ rfl, by decide +kernel⟩

/-- Each state in which an enable, a disable or a maintenance operation is asked for. -/
theorem wit_SwardIsEnabledAndMaintained :
    let s (w : Swd) : State := st { swd := w }
    (s { invalDone := true }).serves 0 0x12000 (.wr32 (2 ||| 1)) = true ∧ (s {}).serves 0 0x12000 (.wr32 (0 ||| 1)) = true ∧
    ((({ maint := some { op := 1, addr := 0, len := 0 } } : Swd).maint.map (·.op)) = some 1) ∧
    (s { enabled := true, disabling := true }).serves 0 0x12000 (.wr32 1) = true ∧
    (s { pending := true }).serves 0 0x12000 (.wr32 ((3 : W32) &&& 0xFFFFFFFE)) = true ∧
    (s { enabled := true }).serves 0 0x1200C (.wr32 (BitVec.ofNat 32 3)) = true ∧
    (s { maintAddr := 128, maintLen := 128 }).serves 0 0x1200C (.wr32 (BitVec.ofNat 32 6)) = true ∧
    ((128 : W64).toNat % 128 = 0 ∧ (128 : W64) ≠ 0) ∧
    (({ lines := [(1, some { way := 0, s0 := { valid := true, dirty := true, data := List.replicate 64 1 }, s1 := {}, ref := false,
                             ppin := false, mpin := false, pf := false })], maint := some { op := 5, addr := 128, len := 128 } } : Swd).maint =
        some { op := 5, addr := 128, len := 128 } ∧ (128 : Nat) ≤ 1 * 128 ∧ 1 * 128 < 128 + 128) := by decide +kernel

theorem wit_SwardLinesAndPortsHandleTheirEvents :
    (let w : Swd := { enabled := true, miss := [{ line := 5, w0 := true, w1 := false, demand := true, master := 0 }] }
     w.miss.find? (·.line == 5) = some { line := 5, w0 := true, w1 := false, demand := true, master := 0 } ∧ w.allocates = true ∧
      w.lines.get none 5 = none ∧ w.evb.get [] (sliceOf 5) = [] ∧
      (w.usable (sliceOf 5) (setOf 5)).find? (fun y => !(w.inSet (sliceOf 5) (setOf 5)).any fun z => z.2.way == y) = some 0 ∧
      (st { swd := w }).eng.answer (5 * 128) 128 .ok = .ok ∧ (st { swd := w }).eng.answer (5 * 128) 128 .uncorr ≠ .ok) ∧
    (({ evb := [(63, [{ line := 5, d0 := some (List.replicate 64 1), d1 := none }])] } : Swd).evb.get [] (63 : Fin 64).val =
      [{ line := 5, d0 := some (List.replicate 64 1), d1 := none }]) ∧
    (({} : Swd).wayRetired 63 1023 19 = false ∧ (({} : Swd).nextDefect 1 63 1023 19 32).st = 1) := by decide +kernel

/-- A far-tier address, one that is not; a prefetch's miss entry there, and a demand's. -/
theorem wit_SwardLinesAndPortsHandleTheirEvents_far :
    let e (d : Bool) : Eng := { mp := { farBase := BitVec.ofNat 64 (2 ^ 40), farCfg := 1 },
                                swd := { enabled := true, miss := [{ line := 2 ^ 33, w0 := true, w1 := false, demand := d, master := 0 }] } }
    (e false).mp.inFar ((BitVec.ofNat 58 (2 ^ 34)).toNat * 64) = true ∧ (e false).mp.inFar 0 = false ∧
    (BitVec.ofNat 58 (2 ^ 34)).toNat * 64 / 128 = 2 ^ 33 ∧ (∃ x ∈ (e false).swd.miss, x.line = 2 ^ 33 ∧ x.demand = false) ∧
    (∀ x ∈ (e true).swd.miss, x.line = 2 ^ 33 → x.demand = true) := by decide +kernel


/-! ### Witnesses: links -/

/-- Port 0 in the given state. -/
def pS (x : ZPort) : State := st { zw := { ports := [(0, x)] } }
/-- A lit pair whose bring-up has reached a point; a spare that was seen. -/
def lit (t : Tune) : Pair := { safety := .lit, tune := t, tx := 2000, rx := 2000 }
def spare8 : Pair := { seen := true }
/-- A live port of one lane. -/
def live1 : ZPort :=
  { enable := true, st := .live, minLanes := 1, pairs := [(0, lit .trained), (8, spare8)], lanes := [(0, some 0)],
    tx := { s0 := { ok := true } }, rx := { s0 := { ok := true } } }

/-- Off and on, port 0 and port 7. -/
theorem wit_PortsAreBroughtUp_enable :
    (s0.serves 0 (0x15800 + 0x20 * (7 : Fin 8).val) (.wr32 1) = true ∧ (s0.eng.port' 7).enable = false ∧
      ((s0.eng.port' 7).pair 17).bad = false ∧ ((s0.eng.port' 7).pair 17).taken = false) ∧
    ((pS live1).serves 0 0x15800 (.wr32 0) = true ∧ ((pS live1).eng.port' 0).enable = true ∧ ((pS live1).eng.port' 0).st ≠ .dark ∧
      ((pS live1).eng.port' 0).st ≠ .down) ∧ ((1 : W32).getLsbD 0 = true ∧ (0 : W32).getLsbD 0 = false) := by decide +kernel

/-- A spare without and with a move to it; each point of a pair's bring-up. -/
theorem wit_PortsAreBroughtUp_pairs :
    (let x := (pS { st := .probing, pairs := [(8, { safety := .probe })] }).eng.port' 0
     (x.pair 8).safety = .probe ∧ (x.pair 8).bad = false ∧ (8 : Fin 18).val % 9 = 8 ∧ x.moveTo 8 = none) ∧
    (let x := (pS { st := .probing, pairs := [(0, { safety := .probe })] }).eng.port' 0
     (x.pair 0).safety = .probe ∧ (x.pair 0).bad = false ∧ (0 : Fin 18).val % 9 ≠ 8) ∧
    (let x := (pS { st := .locking, pairs := [(0, lit .locking)] }).eng.port' 0
     (x.pair 0).safety = .lit ∧ (x.pair 0).tune = .locking ∧ x.moveTo 0 = none ∧ x.st ≠ .dark ∧
      (let y := { x with minLanes := 16 }.setPair 0 { lit .locking with bad := true }
       ((List.range 18).filter fun i => decide (i % 9 ≠ 8) && !(y.pair i).bad && !(y.pair i).taken).length < 16)) ∧
    (let x := (pS { live1 with pairs := [(0, lit .training)] }).eng.port' 0
     x.aligned = true ∧ x.laneUsing 0 = some 0 ∧ x.laneCount ≤ x.minLanes) ∧
    (let x := (pS { st := .live, pairs := [(0, lit .training)] }).eng.port' 0
     (x.pair 0).safety = .lit ∧ (x.pair 0).tune = .training ∧ x.st = .live ∧ (0 : Fin 18).val % 9 ≠ 8) ∧
    ((pS { pairs := [(17, { safety := .shut })] }).eng.port' 0).pair 17 = { safety := .shut } := by decide +kernel

/-- With keys and without; a loss of light of a dark pair and of the only lit one. -/
theorem wit_PortsAreBroughtUp_align_light :
    (let x := (pS { live1 with st := .aligning }).eng.port' 0
     x.st = .aligning ∧ x.minLanes ≤ x.trained.length ∧ x.tx.slot.ok = true ∧ x.rx.slot.ok = true ∧ (0 ∈ x.trained) ∧
      (pS x).eng.zw.stuck = [] ∧ x.queue = [] ∧ x.fwd = []) ∧
    (({ live1 with st := .aligning, tx := {} } : ZPort).tx.slot.ok = false) ∧
    ((∀ n ∈ [(1 : Fin 18)], (live1.pair n.val).safety ≠ .lit) ∧ (∃ n ∈ [(0 : Fin 18)], (live1.pair n.val).safety = .lit) ∧
      live1.aligned = true ∧ ({ live1 with st := .aligning, noKey := true } : ZPort).aligned = true ∧
      ∀ n : Fin 18, (live1.pair n.val).safety = .lit → n ∈ [(0 : Fin 18)]) := by decide +kernel

/-- A pilot block in capture, at the greatest detuning; a lost pair with a free spare; a request for its lane. -/
theorem wit_LanesMoveAndFramesAreTaken_pilot :
    (let b : Pilot := { pair := 0, rxDetune := 170, farDetune := -170 }
     let x := (pS live1).eng.port' 0
     let q := x.pair 0
     let q' : Pair := { q with rx := BitVec.ofNat 12 (min 4095 ((q.rx.toNat : Int) - max (-256) (min 256 b.rxDetune)).toNat) }
     b.rxDetune.natAbs * 480 ≤ 81920 ∧ b.farDetune.natAbs * 480 ≤ 81920 ∧ x.st = .live ∧ x.moves = [] ∧ q.safety = .lit ∧
      (pS live1).eng.zw.cal.toNat % 128 ≤ q'.head ∧
      ∀ n : Fin 18, n ≠ b.pair → (x.pair n.val).safety = .lit → (pS live1).eng.zw.cal.toNat % 128 ≤ (x.pair n.val).head) ∧
    (81920 < (171 : Int).natAbs * 480 ∧ 81920 < (-171 : Int).natAbs * 480 ∧ live1.laneUsing 0 = some (0 : Fin 16).val ∧ (0 : Fin 18).val % 9 ≠ 8 ∧ (8 : Fin 18).val = 9 * (0 / 9) + 8 ∧ live1.spareFree 8 = true ∧
      (live1.moveOf 0).isNone = true ∧ live1.lanes.get none 0 = some (0 : Fin 18).val) := by decide +kernel

/-- A move whose spare has trained, and one that has lasted exactly its time. -/
def move0 : Move :=
  { lane := 0, src := 0, spare := 8, mine := true, begun := true, dark := false, swAt := some 5, switched := false, since := 0 }
/-- A request for two sectors. -/
def rdReq : ZMsg := { vc := false, dst := 0, src := 1, seq := 0, body := .readReq 2 0 1 }
theorem wit_LanesMoveAndFramesAreTaken_move :
    (let x : ZPort := { live1 with pairs := [(0, lit .trained), (8, lit .trained)], moves := [move0] }
     x.moveOf (0 : Fin 16).val = some move0 ∧ move0.switched = false ∧ (x.pair move0.spare.val).tune = .trained) ∧
    (let e : Eng := { hth := { time := 500000 } }
     move0.since.toNat + 1000 * (e.zw.cal.toNat / 2 ^ 16) ≤ e.hth.time.toNat) := by decide +kernel

/-- Frames: behind, expected, with FEC and tag failures, the eighth tag failure of one frame; a message of the expected number. -/
def msg (src dst : BitVec 8) (body : ZBody) (hop : Bool := false) : ZMsg :=
  { vc := false, dst := dst, src := src, seq := 0, body := body, hop := hop }
def frame0 : ZFrame := { num := 3, fecOk := true, tagOk := true, uncorrLanes := [], corrected := 0, msgs := [msg 1 0 (.writeAck 0)] }
theorem wit_LanesMoveAndFramesAreTaken_frames :
    (let x : ZPort := { live1 with rxNext := 4 }
     x.st = .live ∧ frame0.uncorrLanes = [] ∧ frame0.num.toNat < x.rxNext) ∧
    (let x : ZPort := { live1 with rxNext := 2 }
     x.rxNext ≤ frame0.num.toNat ∧ frame0.tagOk = true ∧ frame0.num.toNat ≠ x.rxNext ∧ ({ frame0 with fecOk := false } : ZFrame).fecOk = false) ∧
    (let x : ZPort := { live1 with bad := [(3, 7)] }
     ({ frame0 with tagOk := false } : ZFrame).tagOk = false ∧ x.bad.get 0 frame0.num.toNat = 7 ∧ live1.bad.get 0 frame0.num.toNat < 7) ∧
    (let s := pS { live1 with rxNext := 3 }
     let z := msg 1 0 (.writeAck 0)
     frame0.num.toNat = (s.eng.port' 0).rxNext ∧ (s.eng.port' 0).rx.sw = none ∧ frame0.msgs = [z] ∧ z.body ≠ .reserved ∧
      zFlooded z.body = false ∧ z.hop = false ∧ z.dst.toNat = s.eng.hth.pos ∧ z.seq = s.eng.zw.rxSeq.get 0 (3 * z.src.toNat + zCls z.body) ∧
      s.eng.zw.early = [] ∧ s.eng.zw.inbox = []) ∧
    ({ frame0 with msgs := [rdReq] }.msgs = [rdReq] ∧ rdReq.body = .readReq 2 0 1 ∧ rdReq.body ≠ .reserved ∧ zFlooded rdReq.body = false ∧
      rdReq.seq = (pS live1).eng.zw.rxSeq.get 0 (3 * rdReq.src.toNat + zCls rdReq.body) ∧ (pS live1).eng.busy 1 = false ∧
      (pS live1).eng.gln.serving 0 + (1 : BitVec 8).toNat + 1 ≤ 256) := by decide +kernel

theorem wit_LanesMoveAndFramesAreTaken_control :
    (let c : ZCtl := { ack := 0, nak := false, keySw := false, swFrame := 0, credits := [0, 0, 0, 0, 0, 0], ctl := .none }
     live1.st = .live ∧ live1.queue = [] ∧ live1.fwd = [] ∧ live1.tx.sw = none ∧ c.nak = false ∧ c.keySw = false ∧ c.ctl = .none ∧
      c.reports = []) ∧
    (let r : Detune := { pair := 0, codes := 300, head := 100 }
     let x := (pS live1).eng.port' 0
     let q := x.pair 0
     let q' : Pair := { q with tx := BitVec.ofNat 12 (min 4095 ((q.tx.toNat : Int) - max (-256) (min 256 r.codes)).toNat), far := r.head }
     x.st = .live ∧ q.safety = .lit ∧ (pS live1).eng.zw.cal.toNat % 128 ≤ q'.head ∧
      ∀ n : Fin 18, n ≠ r.pair → (x.pair n.val).safety = .lit → (pS live1).eng.zw.cal.toNat % 128 ≤ (x.pair n.val).head) ∧
    ((7 : W32).toNat % 8 = (7 : Fin 8).val ∧ s0.serves 0 0x15010 (.wr32 (((7 : W32) &&& 0xF) ||| 0x10)) = true ∧
      s0.serves 0 0x15010 (.wr32 (((7 : W32) &&& 0xF) ||| 0x20)) = true ∧ (7 : W32).getLsbD 3 = false ∧
      (15 : W32).getLsbD 3 = true ∧ ({ sw := some 70 } : KeyDir).sw ≠ none ∧ (s0.eng.port' 7).tx.sw = none) ∧
    (({ live1 with out := true } : ZPort).out = true ∧ ({ sw := some 70 } : KeyDir).sw ≠ none ∧ live1.txNext - live1.tx.base < 2 ^ 62 ∧
      ({ live1 with txNext := 2 ^ 62 } : ZPort).out = false ∧ live1.tx.sw = none ∧ 2 ^ 62 ≤ ({ live1 with txNext := 2 ^ 62 } : ZPort).txNext - live1.tx.base) := by
  decide +kernel

/-- A request that may still be resent, and one resent as often as allowed; its time is over, and is not. -/
def track (b : ZBody) (u : Purpose) (sent : Nat := 0) : Track := { msg := msg 0 1 b, use := u, sent := sent, got := [], lost := false, at_ := 0 }
theorem wit_LanesMoveAndFramesAreTaken_timeout :
    let e (n : Nat) : Eng := { zw := { tracked := [track (.readReq 1 0 0) (.read key0 0 0) n] }, hth := { time := 40000 } }
    (track (.readReq 1 0 0) (.read key0 0 0) 2).lost = false ∧
    ({} : Eng).hth.time.toNat < (0 : W64).toNat + 1000 * (({} : Eng).zw.e2e.toNat % 2 ^ 16) ∧
    (0 : W64).toNat + 1000 * ((e 2).zw.e2e.toNat % 2 ^ 16) ≤ (e 2).hth.time.toNat ∧
    ((e 2).zw.tracked.find? (fun y => y.msg.dst == 1 && zCls y.msg.body == (0 : Fin 3).val && y.msg.seq == 0) =
        some (track (.readReq 1 0 0) (.read key0 0 0) 2) ∧ 2 < (e 2).zw.e2e.toNat / 2 ^ 16 % 16) ∧
    ((e 3).zw.tracked.find? (fun y => y.msg.dst == 1 && zCls y.msg.body == (0 : Fin 3).val && y.msg.seq == 0) =
        some (track (.readReq 1 0 0) (.read key0 0 0) 3) ∧ (e 3).zw.e2e.toNat / 2 ^ 16 % 16 ≤ 3) := by decide +kernel

/-! ### Witnesses: clappers, the sampler, peers -/

theorem wit_ClappersServeOneOperationAtATime_commit :
    s0.eng.clp.queues.get [] ((8191 : Fin 8192).val % 16) = [] ∧ s0.serves 0 (0x20000 + 8 * (8191 : Fin 8192).val) (.wr64 5) = true ∧
    s0.serves 0 (0x30000 + 8 * (0 : Fin 8192).val) (.wr64 5) = true ∧
    (let s := st (dir0 { st := .waiting, wait := .clapper 0 0 true 5 none })
     (s.eng.dir (0 : Fin 8).val).st = .waiting ∧ (s.eng.dir 0).wait = .clapper 0 0 true 5 none) ∧
    (∀ b < 16, (s0.eng.hth.bars.get {} b).cfg.getLsbD 31 = false) := by decide +kernel

/-- Director 1 queued behind director 3, the bank having served director 0 last: director 1 has its turn. Granted and denied. -/
def clp (r : Fin 12) (k : ClpKind) (dst : Option (Fin 8 × BitVec 5)) : ClpReq :=
  { req := r, master := 0, clapper := 16, kind := k, val := 3, dst := dst, peer := none, cmd := none }
theorem wit_ClappersServeOneOperationAtATime_turn :
    (let r := clp 1 .fetchAdd (some (1, 2))
     let q := [clp 3 .set none, r]
     let e : Eng := { dirs := [(1, { st := .waiting, wait := .fetchAdd })], clp := { queues := [(0, q)], last := [(0, 0)] } }
     let turn := fun x : ClpReq => (x.req.val + 11 - e.clp.last.get 11 (0 : Fin 16).val % 12) % 12
     e.clp.queues.get [] 0 = q ∧ q = [clp 3 .set none] ++ r :: [] ∧ r.clapper.val % 16 = 0 ∧ (∀ x ∈ q, turn r ≤ turn x) ∧
      (∀ x ∈ [clp 3 .set none], turn x ≠ turn r) ∧ e.acc.firstDenied 1 r.master true true r.clapper.val 1 = none ∧
      (shut 1).firstDenied 1 r.master true true r.clapper.val 1 ≠ none ∧ r.dst = some (1, 2) ∧ r.granted = false ∧
      (e.dir (1 : Fin 8).val).wait = .fetchAdd) ∧ s0.eng.clp.queues.get [] 15 = [] := by decide +kernel

/-- A barrier slot of two arrivals on the lead: a commit reaches its count, and one does not; its release is served. -/
theorem wit_ClappersServeOneOperationAtATime_barrier :
    let b : Barrier := { cfg := BitVec.ofNat 32 (2 ^ 31 + 7 * 2 ^ 16 + 5), cnt := 2 }
    let s := st { hth := { cfg := 0x80100, st := .lead, live := 3, bars := [(15, b)] }, clp := { vals := [(5, 1)] } }
    (s.eng.hth.bars.get {} 15 = b ∧ s.eng.hth.isLead = true ∧ b.cfg.toNat / 2 ^ 31 = 1 ∧ b.cfg.toNat % 2 ^ 13 = 5 ∧
      (s.eng.clap 5).toNat < b.cnt * (b.gen.toNat + 1) ∧ b.cnt * (b.gen.toNat + 1) ≤ (s.eng.clap 5 + 1).toNat ∧
      b.cfg.toNat / 2 ^ 16 % 2 ^ 13 = 7 ∧ s.eng.hth.live.getLsbD 1 = true ∧ 1 ≠ s.eng.hth.pos) ∧
    (s.serves 0 (0x30000 + 8 * (5 : Fin 8192).val) (.wr64 1) = true ∧ s.eng.clp.queues.get [] 5 = []) ∧
    (let r : ClpReq := { clp 11 .set none with clapper := 7 }
     let e : Eng := { hth := { bars := [(15, b)] }, clp := { queues := [(7, [r])] } }
     (e.hth.bars.get {} 15).cfg.getLsbD 31 = true ∧ (e.hth.bars.get {} 15).cfg.toNat / 2 ^ 16 % 2 ^ 13 = r.clapper.val ∧ r.kind = .set ∧
      10 ≤ r.req.val ∧ e.port.waiting = [] ∧ e.acc.firstDenied 1 r.master false true 7 1 = none) ∧
    (let e : Eng := { clp := { queues := [(5, [{ clp 3 .set none with clapper := 5 }])] } }
     (st e).serves 0 (0x20000 + 8 * (5 : Fin 8192).val) (.wr64 5) = true ∧ e.clp.queues.get [] (5 % 16) ≠ []) := by decide +kernel

/-- A word placed and one that was not. -/
theorem wit_SamplerCommitsKeysAndCounters :
    s0.serves 0 (0x1800C + 0x40 * (255 : Fin 256).val) (.wr32 4) = true ∧ s0.serves 0 (0x1801C + 0x40 * (0 : Fin 256).val) (.wr32 4) = true ∧
    (({ kst := [(1, some 7)] } : Stream).kst.get none 1 = some 7 ∧ ({ kst := [(1, some 7)] } : Stream).kst.get none 0 = none) := by
  decide +kernel

/-- One message in the inbox, and one in a serve buffer. -/
def inE (z : ZMsg) : Eng := { zw := { inbox := [z] } }
def svE (w : Swd) : Eng := { gln := { serve := [(0, rdReq)] }, swd := w }
theorem wit_PeersAreServedAndAnswered :
    ((svE {}).gln.serve = (0, rdReq) :: [] ∧ rdReq.body = .readReq 2 0 1 ∧ (svE {}).zw.inbox = [] ∧ (svE {}).inReset 1 = false ∧
      (svE {}).swdWaits ((2 : BitVec 58).toNat * 64) (64 * ((1 : BitVec 8).toNat + 1)) = false ∧ (svE {}).sendsNow rdReq.src [] ∧
      (svE { pending := true }).swdWaits ((2 : BitVec 58).toNat * 64) (64 * ((1 : BitVec 8).toNat + 1)) = true ∧
      ({} : Eng).mp.firstHole 128 128 = none ∧ ({} : Eng).acc.firstDenied 3 0 true false 128 128 = none ∧
      ({} : Eng).answer 128 128 .ok = .ok ∧ ({} : Eng).answer 128 128 .uncorr ≠ .ok ∧
      (shut 3).firstDenied 3 0 true false 128 128 ≠ none) ∧
    ((inE (msg 1 0 (.write 64 [1]))).zw.inbox = [] ++ msg 1 0 (.write 64 [1]) :: [] ∧ (inE (msg 1 0 (.write 64 [1]))).sendsNow 1 [] ∧
      (inE { msg 1 0 (.write 64 [1]) with arr := some { port := 7, chan := 3, owes := true } }).zw.inbox.map (·.arr) =
        [some { port := 7, chan := 3, owes := true }] ∧ ({} : Eng).wideOk 0 false true 64 1 ∧
      ({} : Eng).answer 64 1 .ok = .ok ∧ ¬ ({ acc := shut 4 } : Eng).wideOk 0 false true 64 1) ∧
    ((inE (msg 1 0 (.streamReq 0 0 63))).zw.inbox = [] ++ msg 1 0 (.streamReq 0 0 63) :: [] ∧
      ({} : Eng).wideOk 0 true false 0 (64 * ((63 : BitVec 6).toNat + 1)) ∧ ¬ ({ acc := shut 4 } : Eng).wideOk 0 true false 0 64) ∧
    ((inE (msg 1 0 (.clpOp 8191 1 2))).zw.inbox = [] ++ msg 1 0 (.clpOp 8191 1 2) :: [] ∧ 2 ≤ (2 : BitVec 2).toNat ∧
      (1 : BitVec 2).toNat < 2 ∧ ({} : Eng).clp.queues.get [] ((8191 : BitVec 13).toNat % 16) = [] ∧
      ({ inE (msg 1 0 (.clpOp 8191 1 2)) with clp := { queues := [(15, [clp 3 .set none])] } } : Eng).clp.queues.get [] (8191 % 16) ≠ [] ∧
      ({} : Eng).acc.firstDenied 1 0 false true 8191 1 = none ∧ (shut 1).firstDenied 1 0 false true 8191 1 ≠ none) := by
  unfold Eng.wideOk Eng.sendsNow; decide +kernel

/-- A message in the inbox, and the one request it answers. -/
def ansE (z : ZMsg) (t : Track) (e : Eng := {}) : Eng := { e with zw := { inbox := [z], tracked := [t] } }
theorem wit_AnswersReachTheirRequests_read :
    let t := track (.readReq 0x400 0 0) (.read key0 0 0)
    let z := msg 1 0 (.readRsp 0 false false (List.replicate 64 0))
    let p : Part := { part0 with bytes := 4 }
    let e := ansE z t { dirs := liveDir, gln := { gleans := [{ glean0 with elems := [{ elem0 with parts := [p] }] }] } }
    (e.zw.tracked.find? fun y => y.msg.dst == z.src && match y.msg.body with
        | .readReq _ _ n => decide ((0 : BitVec 8).toNat ≤ n.toNat) && !y.got.any fun x => x.1 == (0 : BitVec 8).toNat
        | _ => false) = some t ∧
    t.got.length < (1 : BitVec 8).toNat ∧ t.got = [] ∧ glean0.out = false ∧
    ((e.glean key0).map fun g => g.part 0 0) = some (some ({ elem0 with parts := [p] }, p)) ∧ p.st = .issued ∧ e.zw.blocked = [] ∧
    (2 : Nat) < (3 : BitVec 8).toNat ∧ p.bad = false ∧ p.chunks = [] ∧ p.sectors = [64 * (0x400 : BitVec 58).toNat] ∧ (inE z).zw.tracked.isEmpty = true := by decide +kernel

/-- A request that its gather left: its first answer of two, and its last. -/
theorem wit_AnswersReachTheirRequests_left :
    let t := track (.readReq 0x400 0 1) .left
    let z := msg 1 0 (.readRsp 0 false false (List.replicate 64 0))
    (ansE z t).zw.tracked.find? (fun y => y.msg.dst == z.src && match y.msg.body with
        | .readReq _ _ n => decide ((0 : BitVec 8).toNat ≤ n.toNat) && !y.got.any fun x => x.1 == (0 : BitVec 8).toNat
        | _ => false) = some t ∧ t.use = .left ∧ t.got.length ≠ (1 : BitVec 8).toNat ∧
    (track (.readReq 0x400 0 0) .left).got.length = (0 : BitVec 8).toNat ∧ (ansE z t).zw.blocked = [] := by decide +kernel

theorem wit_AnswersReachTheirRequests_write :
    (let t := track (.write 64 [1]) (.replica 1)
     let e := ansE (msg 1 0 (.writeAck 1)) t (eR { optR with todo := [] } map1 [(1, some { claim0 with st := .written, peers := 1 })])
     (e.zw.tracked.find? fun y => y.msg.dst == 1 && match y.msg.body with
        | .write .. => true
        | _ => false) = some t ∧
      e.ted.lanes.get none (1 : Fin 16).val = some { claim0 with st := .written, peers := 1 } ∧ (e.optOf claim0.k).isSome = true) ∧
    (let e := ansE (msg 1 0 (.writeAck 0)) (track (.write 64 [1]) (.topk key0)) { swp := { topks := [topk0] } }
     e.topkOf key0 = some topk0 ∧ topk0.fault = false) ∧
    (let j := { topk0 with outs := some [(0x30000, [1])], dpos := 1 }
     let e := ansE (msg 1 0 (.writeAck 0)) (track (.write 64 [1]) (.topk key0)) { swp := { topks := [j] } }
     e.topkOf key0 = some j ∧ j.fault = false ∧ j.outs = some ((0x30000, [1]) :: []) ∧ e.hth.isFailed j.dpos.toNat = false ∧
      e.sendsNow j.dpos [.write 0x30000 [1]] ∧ ({ topk0 with outs := some [] } : TopkJob).outs = some [] ∧
      ({ topk0 with fault := true } : TopkJob).fault = true) := by unfold Eng.sendsNow; decide +kernel

/-- A run of 32 sectors has one answer, one of 33 has two. -/
theorem wit_AnswersReachTheirRequests_stream :
    let t := track (.streamReq 0 0 32) (.stream key0)
    let z := msg 1 0 (.streamData 32 false false (List.replicate 64 0))
    let e := ansE z t { dirs := liveDir, swp := { sweeps := [sweep0] } }
    (e.zw.tracked.find? fun y => y.msg.dst == z.src && match y.msg.body with
        | .streamReq _ _ n => decide ((32 : BitVec 8).toNat ≤ n.toNat) && !y.got.any fun x => x.1 == (32 : BitVec 8).toNat
        | _ => false) = some t ∧ e.sweepOf key0 = some sweep0 ∧
    ¬ ((32 : BitVec 6).toNat + 1 ≤ 32) ∧ (31 : BitVec 6).toNat + 1 ≤ 32 := by decide +kernel

theorem wit_AnswersReachTheirRequests_clapper :
    (let t := track (.clpOp 5 0 1) (.signal 0 0)
     let e := ansE (msg 1 0 (.clpAck true)) t (fly [cmd 3 [] .running])
     (e.zw.tracked.find? fun y => y.msg.dst == 1 && match y.msg.body with
        | .clpOp .. => true
        | _ => false) = some t ∧ (e.reel (0 : Fin 64).val).inflight = [] ++ cmd 3 [] .running :: [] ∧ (cmd 3 [] .running).count = 0 ∧
      (cmd 3 [] .running).finished = false) ∧
    (let e := ansE (msg 1 0 (.clpAck false)) (track (.clpOp 5 0 1) (.posted 0 5)) (dir0 { st := .running, peerOps := 1 })
     (e.dir (0 : Fin 8).val).st = .running) := by decide +kernel

/-! ### Witnesses: the heath -/

/-- A full mesh of two; this engine at position 0. -/
def h2 : Hth := { cfg := 0x80100, id := 7, serial := 9 }
/-- Both positions live. -/
def h2m (x : HSt) (lead : Nat) : Hth := { h2 with st := x, lead := lead, live := 3 }
/-- The HELLO of position 1. -/
def hello1 : Hello := { serial := 5, position := 1, shape := h2.shapeBits, heathId := 7, pref := false, poolBase := 0, poolSize := 0 }

theorem wit_HeathJoinsElectsAndDeclares_join :
    (let s := st { hth := h2 }
     s.serves 0 0x16008 (.wr32 1) = true ∧ h2.st = .alone ∧ s.ao.fwBad = false ∧ hthCfgOk h2.cfg.toNat = true ∧ h2.shape ≠ 0 ∧ (1 < h2.size ∧ 1 ≠ h2.pos) ∧ s.eng.busy 7 = false) ∧
    (let h : Hth := { h2 with cfg := 0x200 }
     hthCfgOk h.cfg.toNat = true ∧ h.shape ≠ 0 ∧ ∀ q < h.size, q = h.pos) ∧
    (hthCfgOk ({ h2 with cfg := 0x300 } : Hth).cfg.toNat = false ∧ hthCfgOk ({} : Hth).cfg.toNat = true ∧ ({} : Hth).shape = 0) ∧
    (let h : Hth := { h2 with st := .joining, time := 999999999 }
     h.st = .joining ∧ h.time.toNat < h.joinAt.toNat + 1000000000) ∧
    (let h : Hth := { h2 with st := .joining, time := 1000000000, hellos := [(1, some hello1)] }
     h.joinAt.toNat + 1000000000 ≤ h.time.toNat ∧ h.quorum h.greeted = false) ∧
    (let h : Hth := { h2 with st := .joining, time := 1000000000, hellos := [(0, some h2.hello)] }
     h.quorum h.greeted = true ∧ h.pos ∈ h.greeted ∧ h.hellos.get none 0 = some h2.hello ∧ (h.hellos.get none 0).any (·.pref) = false ∧
      (∀ q < 256, q ≠ 0 → h.hellos.get none q = none) ∧ (h.shape ≠ 2 ∨ h.order.isSome = true)) ∧
    (let h : Hth := { h2 with st := .joining, time := 10000 }
     h.period < h.time.toNat / 10000 ∧ ({} : Hth).time.toNat / 10000 ≤ ({} : Hth).period) := by decide +kernel

/-- The second and the third missed period; a majority of none; the lead and a member. -/
theorem wit_HeathJoinsElectsAndDeclares_period :
    (let h : Hth := { h2m .member 1 with missed := [(1, 1)], time := 19999 }
     h.period < h.time.toNat / 10000 ∧ h.again = [] ∧ ({ hth := h } : Eng).sendsNow 1 [] ∧ h.quorum h.liveList = true ∧ (∀ p ∈ h.liveList.filter (· != h.pos), h.heard.getLsbD p = true ∨ h.missed.get 0 p < 2)) ∧
    (let h : Hth := { h2m .lead 0 with again := [1], commit := (2, 64, 5), time := 10000 }
     h.again = [(1 : BitVec 8).toNat] ∧ h.acts = true ∧ (1 : BitVec 8).toNat ≠ h.pos ∧
      ({ hth := h } : Eng).sendsNow 1 [.commit h.commit.1 h.commit.2.1 h.commit.2.2]) ∧
    (let h : Hth := { h2m .member 1 with missed := [(1, 2)] }
     let g : Hth := { h with live := h.live &&& ~~~posBit 1, failed := h.failed ||| posBit 1 }
     (g.shape ≠ 2 ∨ g.order.isSome = true) ∧ g.quorum g.liveList = true) ∧
    (let h : Hth := { h2m .member 1 with missed := [(1, 2)] }
     let near := h.liveList.filter fun p => p == h.pos || h.heard.getLsbD p || decide (h.missed.get 0 p < 2)
     h.quorum near = true ∧ 1 ∈ h.liveList.filter (· != h.pos) ∧ 1 ∉ near ∧ 1 = h.lead ∧ h.isFailed 1 = false ∧ h.pos ∈ h.liveList ∧
      ∀ q ∈ h.liveList, q ≠ 1 → h.pos ≤ q) ∧
    (let h : Hth := { h2m .lead 1 with cfg := 0x80101, missed := [(0, 2)] }
     let near := h.liveList.filter fun p => p == h.pos || h.heard.getLsbD p || decide (h.missed.get 0 p < 2)
     h.quorum near = false) ∧
    (let h : Hth := { h2m .lead 0 with said := [(some 1, none)], time := 1000000 }
     h.saidAt.toNat + 1000000 ≤ h.time.toNat ∧ h2.time.toNat < h2.saidAt.toNat + 1000000) := by
  unfold Eng.sendsNow; decide +kernel

theorem wit_HeathJoinsElectsAndDeclares_messages :
    ((inE (msg 1 0 (.hello hello1))).zw.inbox = [] ++ msg 1 0 (.hello hello1) :: [] ∧ (0 : BitVec 8).toNat = (0 : Fin 8).val ∧
      (h2m .member 1).farPos 0 = some (1 : BitVec 8).toNat ∧ hello1.heathId = h2.id ∧ hello1.shape = h2.shapeBits ∧
      (h2m .member 1).farPos 1 ≠ some 1 ∧ (0, 1, hello1.serial.toNat, 0) ∉ (inE (msg 1 0 (.hello hello1))).zw.seen ∧
      (0, 1, hello1.serial.toNat, 0) ∈ ({ seen := [(0, 1, 5, 0)] } : Zw).seen ∧ ({ hello1 with heathId := 8 } : Hello).heathId ≠ h2.id ∧
      ({ h2m .member 1 with failed := 2 } : Hth).isFailed 1 = true) ∧
    ((1 : W32).toNat < ({ h2 with term := 2 } : Hth).term.toNat ∧ (h2m .member 1).term.toNat ≤ (0 : W32).toNat) ∧
    (let b : Beat := { heathId := 7, lead := 1, claim := true, pref := false, term := 1, mapVer := 0, beat := 0 }
     let h : Hth := { h2m .lead 1 with cfg := 0x80101, claim := true }
     b.claim = true ∧ h.claim = true ∧ (0 : BitVec 8).toNat < h.pos ∧ h.isFailed 0 = false) ∧
    (let b : Beat := { heathId := 7, lead := 1, claim := false, pref := false, term := 1, mapVer := 3, beat := 0 }
     let v := nearVersion 0x0001FFFE b.mapVer
     (h2m .member 1).isFailed 1 = false ∧ v = 0x00020003 ∧ follows v 0x0001FFFE = true) ∧
    (let z := msg 1 0 (.failed 1 (some 1) none)
     let h := h2m .member 1
     let g : Hth := { h with live := h.live &&& ~~~posBit 1, failed := h.failed ||| posBit 1 }
     (inE z).zw.seen.contains (zFloodKey z) = false ∧ ({ seen := [zFloodKey z] } : Zw).seen.contains (zFloodKey z) = true ∧
      (g.shape ≠ 2 ∨ g.order.isSome = true) ∧ (1 : BitVec 8).toNat = h.lead ∧ h.isFailed 1 = false ∧ 1 ≠ h.pos ∧ h.pos ∈ h.liveList ∧
      (∀ q ∈ h.liveList, q ≠ 1 → h.pos ≤ q) ∧ h.quorum g.liveList = true) ∧
    ((h2m .lead 0).st = .lead ∧ (h2m .lead 0).shape = 1 ∧ ({ h2m .lead 0 with cfg := 0x200 } : Hth).shape = 2 ∧
      (msg 1 0 (.linkDown 0 0)).hop = false ∧ (inE (msg 1 0 (.linkDown 0 0))).zw.seen.contains (zFloodKey (msg 1 0 (.linkDown 0 0))) = false ∧
      (h2m .lead 0).quorum ((h2m .lead 0).liveList.filter fun p => p != max 1 0) = true ∧
      (let h : Hth := { h2m .lead 1 with cfg := 0x80101 }
       h.quorum (h.liveList.filter fun p => p != max 0 0) = false)) := by decide +kernel

/-- Joining after a LEAD: without a quorum of HELLOs, and with one; a HELLO that was seen; no version known; a lead with a barrier
slot that declares a position. -/
theorem wit_HeathJoinsElectsAndDeclares_led :
    (let h : Hth := { h2 with st := .joining, led := true, lead := 1, time := 1000000000, hellos := [(1, some hello1)] }
     h.st = .joining ∧ h.joinAt.toNat + 1000000000 ≤ h.time.toNat ∧ h.quorum h.greeted = false ∧ h.led = true) ∧
    (let h : Hth := { h2 with st := .joining, led := true, lead := 1, time := 1000000000, hellos := [(0, some h2.hello), (1, some hello1)] }
     h.quorum h.greeted = true ∧ h.lead ≠ h.pos) ∧
    ((0, (1 : BitVec 8).toNat, hello1.serial.toNat, 0) ∈ ({ inE (msg 1 0 (.hello hello1)) with zw := { seen := [(0, 1, 5, 0)] } } : Eng).zw.seen ∧
      (h2m .member 1).live.getLsbD 1 = true) ∧
    (({ hth := h2m .member 1 } : Eng).knownVer = 0 ∧ ({ hth := { h2m .member 1 with version := 5 } } : Eng).knownVer ≠ 0) ∧
    (let h : Hth := { h2 with st := .lead, live := 7, cfg := 0x80200, missed := [(1, 2)],
                              bars := [(0, { cfg := BitVec.ofNat 32 (2 ^ 31 + 7 * 2 ^ 16 + 5), cnt := 2 })] }
     let near := h.liveList.filter fun p => p == h.pos || h.heard.getLsbD p || decide (h.missed.get 0 p < 2)
     h.quorum near = true ∧ 1 ∈ h.liveList.filter (· != h.pos) ∧ 1 ∉ near ∧ h.isFailed 1 = false ∧
      (h.bars.get {} 0).cfg.getLsbD 31 = true) ∧
    ((msg 1 0 (.lead 1 1)).body = .lead 1 1 ∧ (h2m .lead 0).term.toNat ≤ (1 : W32).toNat ∧ (1 : W32) ≠ (h2m .lead 0).term) := by
  decide +kernel

/-- A lead alone whose only entry was homed at position 1: a pool with room, and none. -/
def hLead : Hth := { h2 with st := .lead, live := 1, failed := 2, poolBase := 4096, poolSize := 1, mapbuf := 0x100000 }
def eLead (h : Hth) : Eng := { hth := h, map := { map1 with ents := [{ ent0 with home := 1 }] } }
theorem wit_TimeBaseAndRehoming_plan :
    (let e := eLead hLead
     let x := { ent0 with home := 1 }
     (st e).serves 0 0x16008 (.wr32 2) = true ∧ hLead.st = .lead ∧ hLead.acts = true ∧ hLead.old = [] ∧
      hLead.rejoined.getLsbD hLead.pos = false ∧ e.zw.blocked = [] ∧ hLead.await = [] ∧ hLead.plan = [] ∧ hLead.liveList = [hLead.pos] ∧
      e.map.activeVer ≠ 0 ∧ e.map.index = [(1, (0, 1))] ∧ e.map.ents = [x] ∧ e.map.reps = [] ∧ hLead.isFailed x.home = true ∧
      x.home ≠ hLead.pos ∧ 0 < x.rowCount ∧ e.zw.tracked = [] ∧ hLead.poolBase.toNat % 64 = 0 ∧
      4096 + x.span ≤ 4096 + hLead.poolSize.toNat * 2 ^ 30 ∧ 4096 + ({ hLead with poolSize := 0 } : Hth).poolSize.toNat * 2 ^ 30 < 4096 + x.span) ∧
    ((h2m .member 1).acts = false ∧ ({ hLead with await := [1] } : Hth).await ≠ []) ∧
    (let h : Hth := { h2m .lead 0 with time := 100000 }
     h.baseAt.toNat + 100000 ≤ h.time.toNat ∧ ({ hth := h } : Eng).sendsNow (BitVec.ofNat 8 1) [] ∧
      (h2m .lead 0).time.toNat < (h2m .lead 0).baseAt.toNat + 100000) := by unfold Eng.sendsNow; decide +kernel

/-- A verified piece; a release a millisecond ago and less. -/
def piece0 : Piece :=
  { num := 0, pos := 0, order := { piece := 0, entry := 0, src := 0, len := 1024, target := 0x10000 }, entry := { ent0 with hold := true },
    status := 1, bytes := 1024, sent := true, noRoom := false }
theorem wit_TimeBaseAndRehoming_release :
    let freed (h : Hth) (x : Ent) : Bool := x.hold && h.plan.any fun p => p.status == 1 && p.covers x
    let h : Hth := { h2m .lead 0 with plan := [piece0], relAt := some 0, time := 1000000 }
    h.acts = true ∧ h.writing = false ∧ ({ map1 with ents := [{ ent0 with hold := true }] } : MapSt).pending = false ∧
    freed h { ent0 with hold := true } = true ∧ freed h ent0 = false ∧ (0 : W64).toNat + 1000000 ≤ h.time.toNat ∧
    (999999 : W64).toNat < (0 : W64).toNat + 1000000 := by decide +kernel

theorem wit_TimeBaseAndRehoming_messages :
    (let h := h2m .member 1
     h.st = .member ∧ (1 : BitVec 8).toNat = h.lead ∧ (0 : BitVec 8).toNat ≠ h.lead ∧ ({ h with mayStep := true } : Hth).mayStep = true ∧
      h.time.toNat < (10 : W64).toNat + 5) ∧
    ((msg 1 0 (.commit 1 0 0)).src.toNat = (if (h2m .member 1).isLead then (h2m .member 1).pos else (h2m .member 1).lead) ∧
      (h2m .member 1).st ≠ .isolated ∧ ({} : MapSt).pending = false ∧ ({ pending := true } : MapSt).pending = true ∧
      (2 : BitVec 8).toNat ≠ (if (h2m .member 1).isLead then (h2m .member 1).pos else (h2m .member 1).lead)) ∧
    ((h2m .lead 0).isLead = true ∧ (1 : BitVec 8).toNat ≠ (h2m .lead 0).pos ∧ follows 2 (h2m .lead 0).version = true ∧
      ({ h2m .lead 0 with commit := (2, 0, 0) } : Hth).commit.1 = 2 ∧
      (let h : Hth := { h2m .lead 0 with old := [(2, ent0)], dones := [(0, 1)] }
       (2, ent0) ∈ h.old ∧ (0 ∈ h.liveList) ∧ follows 1 2 = false)) ∧
    (let e : Eng := { hth := h2m .member 1, map := map1 }
     e.map.ents[(piece0.order.entry).toNat]? = some ent0 ∧ (∀ p ∈ e.hth.loads, p.num = 0 → p.order ≠ piece0.order) ∧
      ({ h2m .member 1 with loads := [piece0] } : Hth).loads.find? (fun p => p.num == 0 && p.order == piece0.order) = some piece0 ∧
      e.sendsNow (BitVec.ofNat 8 e.hth.lead) [.loadStatus 0 1 1024] ∧
      e.hth.isLead = false ∧ e.hth.lead ≠ e.hth.pos ∧ e.hth.lead < 256) ∧
    ((1 : BitVec 8).toNat ∉ (h2m .lead 0).await ∧ (1 : BitVec 8).toNat ∈ ({ h2m .lead 0 with await := [1, 2] } : Hth).await ∧
      ({ h2m .lead 0 with await := [1, 2] } : Hth).await ≠ [1]) ∧
    ((0 : W32).toNat < ({ h2 with term := 1 } : Hth).term.toNat ∧ h2.term.toNat ≤ (0 : W32).toNat ∧ (1 : BitVec 8).toNat ≠ h2.pos) := by
  unfold Eng.sendsNow; decide +kernel

/-- An order whose load takes an inbound copy engine; the map buffer's writes granted. -/
theorem wit_TimeBaseAndRehoming_engine :
    s0.eng.busy 8 = false ∧ s0.eng.hc.pick false = some 0 ∧ (∀ q ∈ s0.eng.hc.ces, ∀ y ∈ q.2, y.owner ≠ .loader (some piece0.order.piece)) ∧
    (eLead hLead).wideOk 63 false true hLead.mapbuf.toNat (mapImage (eLead hLead).nextVersion.toNat (eLead hLead).map.index (eLead hLead).map.ents []).length ∧
    (eLead hLead).nextVersion = 2 ∧ s0.eng.wideOk 63 true false s0.eng.map.stagedBase.toNat 4 := by
  unfold Eng.wideOk; decide +kernel

/-! ### Witnesses: the take unit -/

/-- A cut that waits for nothing, one behind an OPT, a print behind a file that is closing. -/
def cut0 : Cut := { print := true, byTake := some hdr0, note := 0, pos := 1, cmd := none, opts := [], at_ := 0 }
theorem wit_TakesAreCutCopiedAndClosed_cut :
    (let e : Eng := { dirs := liveDir, tk := { ctl := 0x1B, cuts := [cut0] } }
     e.busy 9 = false ∧ e.tk.cuts = cut0 :: [] ∧ e.tk.closing = none ∧ e.tk.printing = none ∧ (∀ o ∈ e.ted.opts, o.h.key ∉ cut0.opts) ∧
      cut0.byTake = some hdr0) ∧ (st { dirs := liveDir, tk := { ctl := 0x1B, cuts := [cut0] } }).ticketLive key0 slot0 ∧
    (st { dirs := liveDir, tk := { ctl := 0x1B, cuts := [cut0] } }).noFence key0 ∧
    (let c := { cut0 with opts := [key0] }
     ∃ o ∈ (eO opt0).ted.opts, o.h.key ∈ c.opts) :=
  ⟨by decide +kernel, live_of _ rfl, noFence_of _ rfl, by decide +kernel⟩

/-- A section of the only entry, with no lane, and with a lane that claims a row of it. -/
def home0 : HomeEnt := { ent := ent0, idx := 0, bytes := 128, reps := [], last := 0 }
def file0 : File := { start := 0, mstart := none, seq := 1, print := true, copy := [home0] }
theorem wit_TakesAreCutCopiedAndClosed_copy :
    let e : Eng := { map := map1, tk := { ctl := 1, main := { blocks := 64 }, printing := some file0 } }
    let b := home0.bytes
    e.tk.printing = some file0 ∧ file0.copy = home0 :: [] ∧ home0.ent = ent0 ∧ ent0.tier ≠ 3 ∧
    (e.ted.lanes.any fun l => l.2.any fun c => (c.ents ++ c.stEnts.flatten).any fun y =>
        y.2.table == ent0.table && decide (ent0.firstRow ≤ c.row) && decide (c.row < ent0.firstRow + ent0.rowCount)) = false ∧
    ((eR optR map1 [(1, some claim0)]).ted.lanes.any fun l => l.2.any fun c => (c.ents ++ c.stEnts.flatten).any fun y =>
        y.2.table == ent0.table && decide (ent0.firstRow ≤ c.row) && decide (c.row < ent0.firstRow + ent0.rowCount)) = true ∧
    (∀ i < ent0.rowCount, e.wideOk 63 true false (ent0.base.toNat + i * (4 * ent0.stride4)) b ∧
      e.answer (ent0.base.toNat + i * (4 * ent0.stride4)) b .ok = .ok ∧
      e.acc.firstDenied 5 63 true false (ent0.base.toNat + i * (4 * ent0.stride4)) b = none) := by unfold Eng.wideOk; decide +kernel

/-- A file of a header alone, its blocks written, whose trailer is one block; one whose blocks are not written yet. -/
def file1 : File := { start := 0, mstart := none, seq := 1, put := 31 }
theorem wit_TakesAreCutCopiedAndClosed_close :
    let e : Eng := { tk := { ctl := 8, main := { blocks := 64 }, closing := some file1 } }
    let n := file1.nData + crcBlocks file1.nData
    e.tk.closing = some file1 ∧ file1.put = n ∧ ({ file1 with put := 0 } : File).put ≠ n ∧ e.mp.owed .takeFile = 0 ∧ file1.mstart = none ∧
    file1.sects = [] ∧ e.tk.opened = none ∧ e.tk.printing = none ∧ e.tk.ctl.getLsbD 3 = true ∧ e.tk.main.room (file1.start + n) = true ∧
    e.acc.firstDenied 5 63 false true (e.tk.main.addr (file1.start + n)) 4096 = none := by decide +kernel
theorem wit_TakesAreCutCopiedAndClosed_trailer : ∃ b, Eng.trailer {} file1 false = [b] := ⟨_, rfl⟩

theorem wit_TakesAreCutCopiedAndClosed_area :
    (let k : Tk := { ctl := 1, main := { blocks := 2, wr := 1, freed := 0 } }
     k.enabled = true ∧ (k.area false).blocks ≠ 0 ∧ (k.area false).full = true ∧ k.told ≠ some (k.seq + 1) ∧ ({ k with told := some 1 } : Tk).told = some (k.seq + 1) ∧
      (k.area true).blocks = 0) ∧
    (s0.serves 0 0x1704C (.wr32 3) = true ∧ s0.serves 0 0x17034 (.wr32 3) = true ∧ ({ blocks := 2 } : Area).blocks.toNat ≠ 0) ∧
    (s0.serves 0 0x17000 (.wr32 1) = true ∧ s0.eng.tk.enabled = false ∧ s0.eng.tk.main.blocks = 0 ∧
      ({ ctl := 1 } : Tk).enabled = true ∧ ({ main := { blocks := 1 } } : Tk).main.blocks ≠ 0) := by decide +kernel

/-- Each operation; the refusals of operation 3; a directory entry that is denied. -/
def load0 : Load := { op := 2, pos := 0, verify := false, master := 0 }
theorem wit_LoaderRunsOneOperation_start :
    (s0.serves 0 0x17054 (.wr32 (((0 : W32) &&& 0x3FFF8) ||| BitVec.ofNat 32 3)) = true ∧ (0 : Fin 64).val = (0 : W32).toNat / 2 ^ 12 % 64 ∧
      s0.eng.tk.load = none ∧ s0.eng.tk.enabled = false ∧ (∀ d : Fin 8, (s0.eng.dir d.val).st = .idle) ∧
      (0 : W32).toNat / 2 ^ 4 % 2 ^ 8 = s0.eng.hth.pos) ∧
    ((16 : W32).toNat / 2 ^ 4 % 2 ^ 8 ≠ s0.eng.hth.pos ∧ ({ load := some load0 } : Tk).load ≠ none) ∧
    (s0.eng.busy 9 = false ∧ (∀ p ∈ s0.eng.hth.loads, p.status ≠ 0)) ∧
    ((st { tk := { load := some load0 } }).eng.tk.load = some load0 ∧ s0.eng.acc.firstDenied 5 0 true false 0 64 = none ∧
      (shut 5).firstDenied 5 0 true false 0 64 ≠ none ∧ s0.eng.swdWaits 0 0 = false ∧
      (st { swd := { pending := true } }).eng.swdWaits 0 0 = true ∧ (s0.eng.dirRow 0 0 .ok).2.isSome = true ∧
      (s0.eng.findFile { m := 0, main := .ok, mir := .ok } { base := 0, print := 0, mir := 0, takes := 0, tmir := 0, n := 0 } 0).2.isNone = true) ∧
    (let e (b : Bool) : Eng := { hc := { ces := [(0, [{ xfer0 with owner := .loader none, started := b }])] } }
     (e true).loading none = true ∧ (e false).loading none = false ∧ (∃ q ∈ (e false).hc.ces, ∃ y ∈ q.2, y.owner = .loader none)) ∧
    (s0.eng.busy 8 = false ∧ s0.eng.hc.pick false = some 0 ∧ ∀ q ∈ s0.eng.hc.ces, ∀ y ∈ q.2, y.owner ≠ .loader none) := by
  decide +kernel

/-- A re-homing load that waits behind one that has ended. -/
theorem wit_LoaderRunsOneOperation_piece :
    let p := { piece0 with num := 1, status := 0 }
    let h : Hth := { h2m .member 1 with loads := [piece0, p] }
    h.loads = [piece0] ++ p :: [] ∧ p.status = 0 ∧ (∀ q ∈ [piece0], q.status ≠ 0) ∧ (∀ q ∈ [piece0] ++ [], q.num ≠ p.num) ∧
    ({ hc := { ces := [(0, [{ xfer0 with owner := .loader (some 1), started := true }])] } } : Eng).loading (some (BitVec.ofNat 16 p.num)) = true := by
  decide +kernel

/-! ### Witnesses: the whole machine -/

/-- Memory listed in the canonical form: empty, and one byte; a write of the byte that an unlisted address reads as takes it out. -/
theorem wit_EveryCommandKeepsTheMemoriesCanonical :
    State.reset.eng.memWf ∧ ({ dev := Memory.wrN [] 64 [1] } : Eng).memWf ∧ (Memory.wrN [] 64 [1]).wrN 64 [0] = [] ∧
    exec .joinTimeout State.reset = .next State.reset := by
  refine ⟨by unfold Eng.memWf; decide +kernel, by unfold Eng.memWf; decide +kernel, by decide +kernel, rfl⟩

/-- Before the configured state a command that is no reset is answered. -/
theorem wit_NothingLeavesTheEngineBeforeItRuns :
    State.reset.runs = false ∧ exec .joinTimeout State.reset = .next State.reset := ⟨rfl, rfl⟩

/-- The state after reset meets the invariant, and its idle step goes on. -/
theorem wit_EveryStepKeepsTheIslandInvariant : State.reset.ao.Inv ∧ step State.reset = .next State.reset := by
  refine ⟨?_, rfl⟩
  refine ⟨by decide, by decide, by decide, by decide, by decide, by decide, by decide, by decide, by decide, ?_, ?_⟩
  · intro b n h
    have : (Phase.loading false 0) = .loading b n := h
    cases this; decide
  · intro h; cases h

end Sys2Proof.Tests
end

section
/-! SUPPORT. What every unit's work leaves alone: the register port with its latches and waiting accesses (R401 to R403), and the
restarts in progress (R371). A restart of a block is such work. -/

namespace Sys2Proof.Machine

open Sys2Proof

/-- The register port and the restarts in progress stand. -/
def Eng.KeepsPort (e e' : Eng) : Prop := e'.port = e.port ∧ e'.rs = e.rs

theorem Eng.KeepsPort.refl (e : Eng) : e.KeepsPort e := ⟨rfl, rfl⟩

theorem Eng.KeepsPort.trans {a b c : Eng} (h : a.KeepsPort b) (g : b.KeepsPort c) : a.KeepsPort c :=
  ⟨g.1.trans h.1, g.2.trans h.2⟩

theorem Eng.Told.keepsPort {e e' : Eng} (h : e.Told e') : e.KeepsPort e' := ⟨h.port, h.rs⟩

theorem Eng.ZwOnly.keepsPort {e e' : Eng} : e.ZwOnly e' → e.KeepsPort e' := by
  rintro ⟨z, rfl⟩; exact ⟨rfl, rfl⟩

theorem keepsPort_ite {e a b : Eng} {c : Prop} [Decidable c] (h : e.KeepsPort a) (g : e.KeepsPort b) :
    e.KeepsPort (if c then a else b) := by
  split
  · exact h
  · exact g

/-- A change made step by step, each step of which keeps the port. -/
theorem keepsPort_foldl {α : Type} {f : Eng → α → Eng} (hf : ∀ (e : Eng) a, e.KeepsPort (f e a)) (xs : List α) (e : Eng) :
    e.KeepsPort (xs.foldl f e) := by
  induction xs generalizing e with
  | nil => exact .refl e
  | cons x xs ih => exact (hf e x).trans (ih _)

/-- The same for steps that carry another value along. -/
theorem keepsPort_foldl_fst {α β : Type} {f : Eng × β → α → Eng × β}
    (hf : ∀ (p : Eng × β) (a : α), p.1.KeepsPort (f p a).1) (xs : List α) (p : Eng × β) : p.1.KeepsPort (xs.foldl f p).1 := by
  induction xs generalizing p with
  | nil => exact .refl p.1
  | cons x xs ih => exact (hf p x).trans (ih _)

/-! ### Fields of one unit -/

section Updates

variable (e : Eng)

theorem keepsPort_setReel (n : Nat) (r : Reel) : e.KeepsPort (e.setReel n r) := ⟨rfl, rfl⟩
theorem keepsPort_setDir (d : Nat) (x : Dir) : e.KeepsPort (e.setDir d x) := ⟨rfl, rfl⟩
theorem keepsPort_onGln (f : Gln → Gln) : e.KeepsPort (e.onGln f) := ⟨rfl, rfl⟩
theorem keepsPort_onWr (f : Wr → Wr) : e.KeepsPort (e.onWr f) := ⟨rfl, rfl⟩
theorem keepsPort_onSwp (f : Swp → Swp) : e.KeepsPort (e.onSwp f) := ⟨rfl, rfl⟩
theorem keepsPort_onTed (f : Ted → Ted) : e.KeepsPort (e.onTed f) := ⟨rfl, rfl⟩
theorem keepsPort_onSwd (f : Swd → Swd) : e.KeepsPort (e.onSwd f) := ⟨rfl, rfl⟩
theorem keepsPort_onHc (f : Hc → Hc) : e.KeepsPort (e.onHc f) := ⟨rfl, rfl⟩
theorem keepsPort_onZw (f : Zw → Zw) : e.KeepsPort (e.onZw f) := ⟨rfl, rfl⟩
theorem keepsPort_onTk (f : Tk → Tk) : e.KeepsPort (e.onTk f) := ⟨rfl, rfl⟩

end Updates

/-! ### Messages, memory and the sward -/

theorem keepsPort_putBytes (e : Eng) (h : Bool) (a : Nat) (bs : List Byte) : e.KeepsPort (e.putBytes h a bs) :=
  (told_putBytes e h a bs).keepsPort

theorem keepsPort_post (e : Eng) (m c i k p : Nat) : e.KeepsPort (e.post m c i k p) := (told_post e m c i k p).keepsPort

theorem keepsPort_check (e : Eng) (t : Nat) (m : Fin 64) (r w : Bool) (a n : Nat) : e.KeepsPort (e.check t m r w a n).1 :=
  (told_check e t m r w a n).keepsPort

theorem keepsPort_checkMem {e e' : Eng} {host wide : Bool} {m : Fin 64} {r w : Bool} {a n : Nat} {ok : Bool}
    (h : e.checkMem host wide m r w a n = (e', ok)) : e.KeepsPort e' := by
  have k := keepsPort_check e (if host then 5 else if wide then 4 else 3) m r w a n
  rw [show e.check _ m r w a n = (e', ok) from h] at k
  exact k

theorem keepsPort_send (e : Eng) (d : Nat) (b : ZBody) (u : Purpose) : e.KeepsPort (e.send d b u) :=
  (zwOnly_send e d b u).keepsPort

theorem keepsPort_write (e : Eng) (w : Who) (host : Bool) (a : Nat) (bs : List Byte) : e.KeepsPort (e.write w host a bs) := by
  unfold Eng.write
  split
  · exact .refl e
  · exact (keepsPort_putBytes e host a bs).trans ⟨rfl, rfl⟩

theorem keepsPort_writeEvict (e : Eng) (v : Evict) : e.KeepsPort (e.writeEvict v) := by
  unfold Eng.writeEvict
  cases v.d0 <;> cases v.d1 <;> exact ⟨rfl, rfl⟩

theorem keepsPort_writeBack (e : Eng) (line : Nat) : e.KeepsPort (e.writeBack line) := by
  unfold Eng.writeBack
  split
  · exact .refl e
  · exact (keepsPort_writeEvict _ _).trans (keepsPort_onSwd _ _)

theorem keepsPort_drainSlice (e : Eng) (slice : Nat) : e.KeepsPort (e.drainSlice slice) :=
  (keepsPort_foldl keepsPort_writeEvict _ e).trans (keepsPort_onSwd _ _)

theorem keepsPort_writeBackAll (e : Eng) : e.KeepsPort e.writeBackAll :=
  (keepsPort_foldl keepsPort_drainSlice _ e).trans (keepsPort_foldl keepsPort_writeBack _ _)

theorem keepsPort_publish (e : Eng) (paths : BitVec 4) (own : Option (Fin 64 × W24) → Bool) :
    e.KeepsPort (e.publish paths own) := by
  unfold Eng.publish
  dsimp only
  have h : e.KeepsPort (if bit paths.toNat 0 || bit paths.toNat 1 then e.writeBackAll else e) :=
    keepsPort_ite (keepsPort_writeBackAll e) (.refl e)
  exact keepsPort_ite (h.trans ⟨rfl, rfl⟩) h

/-! ### Programs and tickets -/

theorem keepsPort_finishCmd (e : Eng) (r : Nat) (c : W24) (st : Byte) (fl : BitVec 4) (d : W32) :
    e.KeepsPort (e.finishCmd r c st fl d) := keepsPort_setReel _ _ _

theorem keepsPort_endProgram (e : Eng) (d : Fin 8) : e.KeepsPort (e.endProgram d) :=
  (keepsPort_setDir _ _ _).trans (keepsPort_finishCmd _ _ _ _ _ _)

theorem keepsPort_settle (e : Eng) (d : Fin 8) : e.KeepsPort (e.settle d) := by
  unfold Eng.settle
  dsimp only
  split
  · split
    · split
      · split
        · exact keepsPort_setDir _ _ _
        · exact .refl e
      · exact .refl e
    · exact .refl e
  · exact keepsPort_ite (keepsPort_setDir _ _ _) (.refl e)
  · exact keepsPort_ite (keepsPort_ite ⟨rfl, rfl⟩ ((keepsPort_publish _ _ _).trans (keepsPort_setDir _ _ _))) (.refl e)
  · exact keepsPort_ite (keepsPort_endProgram _ _) (.refl e)
  · exact .refl e

theorem keepsPort_abandonStops (e : Eng) (d : Fin 8) : e.KeepsPort (e.abandonStops d) := ⟨rfl, rfl⟩

theorem keepsPort_progFault (e : Eng) (d : Fin 8) (c x : Byte) : e.KeepsPort (e.progFault d c x) := by
  unfold Eng.progFault
  dsimp only
  split
  · exact .refl e
  · exact (((keepsPort_setDir _ _ _).trans (keepsPort_post _ _ _ _ _ _)).trans (keepsPort_abandonStops _ _)).trans
      (keepsPort_settle _ _)

/-- The retirement of a ticket, with what its director does next. -/
theorem keepsPort_retire (e : Eng) (k : Key) (st : Byte) (fl : BitVec 4) (ff : Bool) : e.KeepsPort (e.retire k st fl ff) := by
  unfold Eng.retire
  dsimp only
  split
  · split
    · exact keepsPort_ite
        (keepsPort_ite
          (((keepsPort_setDir _ _ _).trans (keepsPort_progFault _ _ _ _)).trans (keepsPort_settle _ _))
          (((keepsPort_setDir _ _ _).trans (keepsPort_settle _ _)).trans (keepsPort_progFault _ _ _ _)))
        ((keepsPort_setDir _ _ _).trans (keepsPort_settle _ _))
    · exact .refl e
  · exact .refl e

theorem keepsPort_unblock (e : Eng) : e.KeepsPort e.unblock := by
  unfold Eng.unblock
  dsimp only
  split
  · exact .refl e
  · exact (keepsPort_onZw _ _).trans (keepsPort_foldl (fun e _ => keepsPort_send e _ _ _) _ _)

theorem keepsPort_letGo (e : Eng) (p : Purpose → Bool) : e.KeepsPort (e.letGo p) :=
  (keepsPort_onZw _ _).trans (keepsPort_unblock _)

theorem keepsPort_clipCheck (e : Eng) (h : Hdr) (t n c : Nat) : e.KeepsPort (e.clipCheck h t n c).1 := by
  unfold Eng.clipCheck
  split
  · exact Eng.KeepsPort.trans (b := { e with grd := { e.grd with clipHit := true } }) ⟨rfl, rfl⟩ (keepsPort_post _ _ _ _ _ _)
  · exact .refl e

/-! ### The end of a unit's work -/

theorem keepsPort_gleanMsgs (e : Eng) (g : Glean) : e.KeepsPort (e.gleanMsgs g) := by
  unfold Eng.gleanMsgs
  cases g.denied <;> cases g.lost
  · exact .refl e
  · exact keepsPort_post _ _ _ _ _ _
  · exact keepsPort_post _ _ _ _ _ _
  · exact (keepsPort_post _ _ _ _ _ _).trans (keepsPort_post _ _ _ _ _ _)

theorem keepsPort_setGlean (e : Eng) (g : Glean) : e.KeepsPort (e.setGlean g) := keepsPort_onGln _ _

theorem keepsPort_gleanEnd (e : Eng) (g : Glean) (p : GleanPhase) (st : Byte) (fl : BitVec 4) :
    e.KeepsPort (e.gleanEnd g p st fl) :=
  (((keepsPort_gleanMsgs _ _).trans (keepsPort_setGlean _ _)).trans (keepsPort_letGo _ _)).trans (keepsPort_retire _ _ _ _ _)

theorem keepsPort_overflowMsg (e : Eng) (j : PoolJob) : e.KeepsPort (e.overflowMsg j) := by
  unfold Eng.overflowMsg
  split
  · exact .refl e
  · exact keepsPort_post _ _ _ _ _ _

theorem keepsPort_dropBags (e : Eng) (j : PoolJob) (p : Bag → Bool) : e.KeepsPort (e.dropBags j p) :=
  (keepsPort_onWr _ _).trans (keepsPort_onWr _ _)

theorem keepsPort_poolEnd (e : Eng) (j : PoolJob) (st : Byte) (fl : BitVec 4) : e.KeepsPort (e.poolEnd j st fl) :=
  (((keepsPort_dropBags _ _ _).trans (keepsPort_onWr _ _)).trans (keepsPort_onGln _ _)).trans (keepsPort_retire _ _ _ _ _)

theorem keepsPort_poolDone (e : Eng) (j : PoolJob) (st : BitVec 4 → Byte) : e.KeepsPort (e.poolDone j st) :=
  ((keepsPort_overflowMsg _ _).trans (keepsPort_clipCheck _ _ _ _ _)).trans (keepsPort_poolEnd _ _ _ _)

theorem keepsPort_sweepEnd (e : Eng) (j : SweepJob) (st : Byte) : e.KeepsPort (e.sweepEnd j st) :=
  (((keepsPort_onSwp _ _).trans (keepsPort_letGo _ _)).trans (keepsPort_onSwp _ _)).trans (keepsPort_retire _ _ _ _ _)

theorem keepsPort_topkEnd (e : Eng) (t : TopkJob) (st : Byte) (fl : BitVec 4) : e.KeepsPort (e.topkEnd t st fl) :=
  ((keepsPort_onSwp _ _).trans (keepsPort_letGo _ _)).trans (keepsPort_retire _ _ _ _ _)

theorem keepsPort_spoil (e : Eng) (k c : Nat) : e.KeepsPort (e.spoil k c) := by
  unfold Eng.spoil
  dsimp only
  split
  · exact .refl e
  · exact ⟨rfl, rfl⟩

theorem keepsPort_tedEnd (e : Eng) (j : TedJob) (st : Byte) : e.KeepsPort (e.tedEnd j st) :=
  (((keepsPort_ite (keepsPort_spoil _ _ _) (.refl e)).trans (keepsPort_onTed _ _)).trans (keepsPort_onGln _ _)).trans
    (keepsPort_retire _ _ _ _ _)

theorem keepsPort_optClip (e : Eng) (o : OptJob) : e.KeepsPort (e.optClip o).1 := by
  unfold Eng.optClip
  dsimp only
  split
  · exact keepsPort_clipCheck _ _ _ _ _
  · exact .refl e

theorem keepsPort_xferFail (e : Eng) (t : Xfer) (c k : Byte) (fl : BitVec 4) : e.KeepsPort (e.xferFail t c k fl) := by
  unfold Eng.xferFail
  split
  · exact keepsPort_finishCmd _ _ _ _ _ _
  · exact keepsPort_retire _ _ _ _ _
  · exact .refl e

theorem keepsPort_maybeCopy (e : Eng) (t : Xfer) (n o : Nat) : e.KeepsPort (e.maybeCopy t n o) := by
  induction n generalizing e o with
  | zero => exact .refl e
  | succ n ih =>
    unfold Eng.maybeCopy
    dsimp only
    have free : e.KeepsPort e.freeBit.1 := ⟨rfl, rfl⟩
    refine keepsPort_ite (keepsPort_ite ?_ (.trans ?_ (ih _ _))) (.trans ?_ (ih _ _))
    all_goals
      exact (free.trans (keepsPort_ite (keepsPort_putBytes _ _ _ _) (.refl _))).trans (keepsPort_ite ⟨rfl, rfl⟩ (.refl _))

/-! ### Takes -/

theorem keepsPort_takeBlock {e e' : Eng} {mir : Bool} {i : Nat} {own : Owner} {cmd : Option (Fin 64 × W24)} {bs : List Byte}
    {ok : Bool} (h : e.takeBlock mir i own cmd bs = (e', ok)) : e.KeepsPort e' := by
  unfold Eng.takeBlock at h
  extract_lets host a at h
  split at h <;> rename_i h2 <;> cases h
  · exact (keepsPort_checkMem h2).trans (keepsPort_onTk _ _)
  · exact (keepsPort_checkMem h2).trans (keepsPort_write _ _ _ _ _)

-- the step's record updates nest deeper than the kernel's default depth
set_option maxRecDepth 1000 in
theorem keepsPort_pushFile {n : Nat} {e e' : Eng} {mir : Bool} {f f' : File} (h : Eng.pushFile n e mir f = (e', f')) :
    e.KeepsPort e' := by
  induction n generalizing e f with
  | zero => cases h; exact .refl _
  | succ n ih =>
    rw [Eng.pushFile] at h
    split at h
    · cases h; exact .refl _
    · extract_lets i next at h
      split at h
      · cases h; exact .refl _
      · split at h
        · cases h; exact .refl _
        · split at h <;> rename_i hb
          · exact (keepsPort_takeBlock hb).trans (ih h)
          · cases h; exact keepsPort_takeBlock hb

theorem keepsPort_push {e e' : Eng} {f f' : File} (h : e.push f = (e', f')) : e.KeepsPort e' := by
  rw [Eng.push] at h
  have puts {a b : Eng} {m : Bool} {x y : File} : Eng.pushFile f.total a m x = (b, y) → a.KeepsPort b := keepsPort_pushFile
  generalize Eng.pushFile f.total = put at h puts
  split at h
  rename_i h1
  exact (puts h1).trans (puts h)

theorem keepsPort_stream (n : Nat) (e : Eng) : e.KeepsPort (Eng.stream n e) := by
  induction n generalizing e with
  | zero => exact .refl e
  | succ n ih =>
    rw [Eng.stream]
    split
    · exact .refl e
    · rename_i f _
      extract_lets bs mir adv
      split
      · exact .refl e
      · split
        rename_i e1 ok h1
        split
        rename_i e2 ok2 h2
        have both : e.KeepsPort e2 := by
          split at h2
          · exact (keepsPort_takeBlock h1).trans (keepsPort_takeBlock h2)
          · cases h2; exact keepsPort_takeBlock h1
        exact keepsPort_ite both (((both.trans (keepsPort_onTk _ _)).trans (keepsPort_onTk _ _)).trans (ih _))

theorem keepsPort_record (e : Eng) (bs : List Byte) : e.KeepsPort (e.record bs) := by
  unfold Eng.record
  split
  · exact .refl e
  · exact (keepsPort_onTk _ _).trans (keepsPort_stream _ _)

/-- A change of the file that there may be keeps the port where the change of a file does. -/
theorem keepsPort_fileThere {push : Eng → File → Eng × File} (pushes : ∀ a b x y, push a x = (b, y) → a.KeepsPort b)
    {e e' : Eng} {file p : Option File}
    (h : (match file with
      | some f => match push e f with
        | (e, f) => (e, some f)
      | none => (e, none)) = (e', p)) : e.KeepsPort e' := by
  cases file with
  | none => cases h; exact .refl _
  | some f =>
    cases hp : push e f with
    | mk a x =>
      simp only [hp] at h
      cases h
      exact pushes _ _ _ _ hp

theorem keepsPort_takeFlow (e : Eng) : e.KeepsPort e.takeFlow := by
  unfold Eng.takeFlow
  have pushes (a b : Eng) (x y : File) : a.push x = (b, y) → a.KeepsPort b := keepsPort_push
  generalize Eng.push = push at pushes ⊢
  extract_lets again e1
  split
  rename_i e2 c hc
  split
  rename_i e3 p hp
  extract_lets e4
  have pushed : e.KeepsPort e4 :=
    (((keepsPort_onTk e _).trans (keepsPort_fileThere pushes hc)).trans (keepsPort_fileThere pushes hp)).trans
      (keepsPort_onTk _ _)
  split
  · exact pushed.trans (keepsPort_stream _ _)
  · exact pushed

/-! ### Rows of the tedder -/

theorem keepsPort_putRow {e e' : Eng} {h : Hdr} {w : RowWrite} {ok : Bool} (g : e.putRow h w = (e', ok)) : e.KeepsPort e' := by
  unfold Eng.putRow at g
  extract_lets host at g
  have hc := keepsPort_check e (if host then 5 else 3) h.master false true w.addr w.data.length
  split at g <;> rename_i h2 <;> rw [h2] at hc
  · cases g; exact hc
  · split at g <;> cases g
    · exact hc.trans ⟨rfl, rfl⟩
    · exact hc.trans ((told_thruWr _ _ _ _).keepsPort.trans (keepsPort_onHc _ _))

theorem keepsPort_setOpt (e : Eng) (o : OptJob) : e.KeepsPort (e.setOpt o) := keepsPort_onTed _ _


/-- Marking a lane's OPT as failed. -/
theorem keepsPort_failOpt (e : Eng) (k : Key) :
    e.KeepsPort (match e.optOf k with
      | some o => e.setOpt { o with fault := true }
      | none => e) := by
  split
  · exact keepsPort_setOpt _ _
  · exact .refl e

theorem keepsPort_writeHome (e : Eng) (lane : Fin 16) (c : Claim) : e.KeepsPort (e.writeHome lane c) := by
  unfold Eng.writeHome
  split
  · exact .refl e
  · rename_i o _
    extract_lets fail here
    have failed (e : Eng) : e.KeepsPort (fail e) := keepsPort_failOpt e c.k
    split
    rename_i e1 ok h1
    have rows : e.KeepsPort e1 := by
      split at h1
      · cases h1; exact failed e
      · rw [← show _ = e1 from congrArg Prod.fst h1]
        refine keepsPort_foldl_fst (fun st x => ?_) _ (e, true)
        split
        · exact .refl _
        · split <;> rename_i h2
          · exact keepsPort_putRow h2
          · exact (keepsPort_putRow h2).trans (failed _)
    exact (rows.trans (keepsPort_foldl (fun e _ => keepsPort_send e _ _ _) _ _)).trans (keepsPort_onTed _ _)

theorem keepsPort_tapAccept (e : Eng) (lane : Fin 16) : e.KeepsPort (e.tapAccept lane) := by
  unfold Eng.tapAccept
  split
  · exact .refl e
  · rename_i c _
    split
    · exact .refl e
    · extract_lets e1 e2
      have flow : e.KeepsPort e1 := keepsPort_ite (keepsPort_takeFlow e) (.refl e)
      split
      · exact flow
      · exact (flow.trans (keepsPort_ite (keepsPort_record _ _) (.refl _))).trans (keepsPort_writeHome _ _ _)

theorem keepsPort_tapOff (e : Eng) : e.KeepsPort e.tapOff :=
  (keepsPort_onTk _ _).trans (keepsPort_foldl keepsPort_tapAccept _ _)

theorem keepsPort_takeOff (e : Eng) (aborted : Bool) : e.KeepsPort (e.takeOff aborted) := by
  unfold Eng.takeOff
  extract_lets cs e1
  refine ((keepsPort_onTk _ _).trans (keepsPort_tapOff _)).trans (keepsPort_foldl (fun e c => ?_) _ _)
  extract_lets e2
  have taken : e.KeepsPort e2 := by
    unfold e2
    split
    · exact keepsPort_retire _ _ _ _ _
    · exact .refl e
  split
  · exact taken.trans (keepsPort_finishCmd _ _ _ _ _ _)
  · exact taken

/-! ### Restarts of the blocks (R371) -/

theorem keepsPort_feRestart (e : Eng) : e.KeepsPort e.feRestart := ⟨rfl, rfl⟩

theorem keepsPort_glnRestart (e : Eng) : e.KeepsPort e.glnRestart := by
  unfold Eng.glnRestart
  extract_lets one e1 us e2 ms
  have gleans : e.KeepsPort e1 := by
    refine keepsPort_foldl (fun e g => ?_) _ _
    unfold one
    split
    · exact .refl e
    · exact keepsPort_setGlean _ _
    · exact keepsPort_gleanEnd _ _ _ _ _
  have uniqs : e.KeepsPort e2 :=
    (gleans.trans (keepsPort_onGln _ _)).trans (keepsPort_foldl (fun e _ => keepsPort_retire e _ _ _ _) _ _)
  exact (uniqs.trans (keepsPort_onGln _ _)).trans (keepsPort_foldl (fun e _ => keepsPort_send e _ _ _) _ _)

theorem keepsPort_wrRestart (e : Eng) : e.KeepsPort e.wrRestart :=
  (keepsPort_foldl (fun e j => keepsPort_poolDone e j _) _ _).trans (keepsPort_onWr _ _)

theorem keepsPort_swpRestart (e : Eng) : e.KeepsPort e.swpRestart :=
  ((keepsPort_foldl (fun e _ => keepsPort_ite (.refl e) (keepsPort_sweepEnd e _ _)) _ _).trans
    (keepsPort_foldl (fun e t => keepsPort_topkEnd e t _ _) _ _)).trans (keepsPort_onSwp _ _)

theorem keepsPort_leaveReplicas (e : Eng) (p : Fin 16 → Bool) : e.KeepsPort (e.leaveReplicas p) := keepsPort_onZw _ _

theorem keepsPort_tedRestart (e : Eng) : e.KeepsPort e.tedRestart := by
  unfold Eng.tedRestart
  extract_lets clips e1 e2 e3
  have clipped : e.KeepsPort clips.1 :=
    keepsPort_foldl_fst (f := fun st o => ((st.1.optClip o).1, st.2 ++ [(o.h.key, (st.1.optClip o).2)]))
      (fun st o => keepsPort_optClip st.1 o) e.ted.opts (e, [])
  have teds : e.KeepsPort e2 :=
    (clipped.trans (keepsPort_onTed _ _)).trans (keepsPort_foldl (fun e j => keepsPort_tedEnd e j _) _ _)
  have opts : e.KeepsPort e3 :=
    teds.trans (keepsPort_foldl (fun e x => (keepsPort_onTed e _).trans (keepsPort_retire _ _ _ _ _)) _ _)
  exact (opts.trans (keepsPort_leaveReplicas _ _)).trans (keepsPort_onTed _ _)

theorem keepsPort_swdRestart (e : Eng) : e.KeepsPort e.swdRestart :=
  (keepsPort_onSwd _ _).trans (keepsPort_foldl (fun e _ => keepsPort_retire e _ _ _ _) _ _)

theorem keepsPort_zwReturn (e : Eng) : e.KeepsPort e.zwReturn := keepsPort_onZw _ _

theorem keepsPort_hcRestart (e : Eng) : e.KeepsPort e.hcRestart := by
  refine (keepsPort_onHc e _).trans (keepsPort_foldl (fun e t => ?_) _ _)
  refine Eng.KeepsPort.trans ?_ (keepsPort_xferFail _ _ _ _ _)
  exact keepsPort_ite (keepsPort_maybeCopy _ _ _ _) (.refl e)

theorem keepsPort_tkRestart (e : Eng) : e.KeepsPort e.tkRestart :=
  (((((keepsPort_onTk e _).trans (keepsPort_takeOff _ _)).trans (keepsPort_onTk _ _)).trans (keepsPort_onHc _ _)).trans
    (keepsPort_foldl (fun e _ => keepsPort_retire e _ _ _ _) _ _)).trans
    (keepsPort_foldl (fun e _ => keepsPort_finishCmd e _ _ _ _ _) _ _)

/-- Work that a restart ends, and what the block does as it returns. -/
theorem keepsPort_restartBlock (e : Eng) (b : Nat) : e.KeepsPort (e.restartBlock b) := by
  unfold Eng.restartBlock
  split
  · exact keepsPort_feRestart e
  · exact keepsPort_glnRestart e
  · exact keepsPort_wrRestart e
  · exact keepsPort_swpRestart e
  · exact keepsPort_tedRestart e
  · exact keepsPort_swdRestart e
  · exact keepsPort_zwReturn e
  · exact keepsPort_hcRestart e
  · exact keepsPort_tkRestart e
  · exact .refl e

theorem keepsPort_takeOf (e : Eng) (p : ZMsg → Bool) : e.KeepsPort (e.takeOf p).1 := by
  unfold Eng.takeOf
  split
  · exact .refl e
  · exact (keepsPort_onZw _ _).trans (zwOnly_owe _ _).keepsPort

theorem keepsPort_serveFill' (n : Nat) (e : Eng) : e.KeepsPort (Eng.serveFill' n e) := by
  induction n generalizing e with
  | zero => exact .refl e
  | succ n ih =>
    rw [Eng.serveFill']
    split
    · exact .refl e
    · extract_lets need
      split
      · exact .refl e
      · exact ((keepsPort_takeOf _ _).trans (keepsPort_onGln _ _)).trans (ih _)

theorem keepsPort_serveFill (e : Eng) : e.KeepsPort e.serveFill :=
  keepsPort_ite (.refl e) (keepsPort_serveFill' _ _)

theorem keepsPort_restartMsg (e : Eng) (b : Nat) (x : Bool) (w : Option (Fin 64)) : e.KeepsPort (e.restartMsg b x w) := by
  cases w with
  | none => exact keepsPort_post _ _ _ _ _ _
  | some r =>
    let e1 : Eng := { e with fe := { e.fe with cause := some r } }
    exact Eng.KeepsPort.trans (b := e1) ⟨rfl, rfl⟩ ((keepsPort_post e1 _ _ _ _ _).trans ⟨rfl, rfl⟩)

end Sys2Proof.Machine
end

section
/-! SUPPORT. Sparse tables filtered by their keys. -/

namespace Sys2Proof.SMap

/-- A table filtered by its keys reads as before at the keys that were kept. -/
theorem get_filter_key {α : Type} (d : α) (p : Nat → Bool) (m : SMap α) (k : Nat) :
    get d (m.filter fun l => p l.1) k = if p k then get d m k else d := by
  induction m with
  | nil => simp
  | cons x m ih =>
    obtain ⟨j, v⟩ := x
    by_cases hj : p j = true
    · rw [List.filter_cons_of_pos (by exact hj)]
      simp only [get, ih]
      split
      · rename_i hk; subst hk; simp [hj]
      · rfl
    · rw [List.filter_cons_of_neg (by exact hj), ih]
      by_cases hk : k = j
      · simp [hk, hj]
      · simp [get, hk]

end Sys2Proof.SMap
end

section
/-! SUPPORT. The register port: what an access that is refused, served or waiting does (R4, R5, R353, R399, R401 to R403), what a denial
counts, and the latches of the pairs. -/

namespace Sys2Proof.Machine

open Sys2Proof

/-! ### Denials (R353) -/

section

variable (e : Eng)

@[simp] theorem Eng.lose_acc (m n : Nat) : (e.lose m n).acc = e.acc := rfl
@[simp] theorem Eng.mkRec_acc (c i k p : Nat) : (e.mkRec c i k p).1.acc = e.acc := rfl

@[simp] theorem Eng.putBytes_acc (h : Bool) (a : Nat) (bs : List Byte) : (e.putBytes h a bs).acc = e.acc := by
  cases h <;> rfl

@[simp] theorem Eng.irq_acc (m : Nat) : (e.irq m).acc = e.acc := by
  unfold Eng.irq
  dsimp only
  split <;> rfl

@[simp] theorem Eng.logRec_acc (c l i p : Nat) (u : Bool) : (e.logRec c l i p u).acc = e.acc := by
  obtain ⟨r, b, h⟩ := logRec_frame e c l i p u
  rw [h]

@[simp] theorem Eng.emit_acc (m : Nat) (rec : List Byte) : (e.emit m rec).1.acc = e.acc := by
  unfold Eng.emit
  dsimp only
  split
  · rfl
  · rw [Eng.irq_acc]
    exact (Eng.putBytes_acc _ _ _ _).trans (Eng.putBytes_acc _ _ _ _)

end

@[simp] theorem Eng.flushReel_acc (k : Nat) (e : Eng) (m : Nat) (rep : Bool) : (e.flushReel k m rep).1.acc = e.acc := by
  induction k generalizing e rep with
  | zero => rfl
  | succ k ih =>
    unfold Eng.flushReel
    dsimp only
    split
    · rfl
    · split
      · exact (ih _ _).trans (Eng.emit_acc _ _ _)
      · split
        · rfl
        · exact (ih _ _).trans (Eng.emit_acc _ _ _)

@[simp] theorem Eng.hand_acc (e : Eng) (m : Nat) (rec : List Byte) : (e.hand m rec).1.acc = e.acc := by
  unfold Eng.hand
  dsimp only
  split
  · rfl
  · split
    · exact Eng.flushReel_acc _ _ _ _
    · rfl

/-- The access block is that of `c`, but for how many denials were counted. -/
def Acc.Counts (c c' : Acc) : Prop := ∃ k, c' = { c with denyCnt := k }

theorem Acc.Counts.refl (c : Acc) : c.Counts c := ⟨c.denyCnt, rfl⟩

theorem Acc.Counts.trans {a b c : Acc} : a.Counts b → b.Counts c → a.Counts c := by
  rintro ⟨_, rfl⟩ ⟨k, rfl⟩; exact ⟨k, rfl⟩

theorem Acc.Counts.denyValid {c c' : Acc} : c.Counts c' → c'.denyValid = c.denyValid := by rintro ⟨_, rfl⟩; rfl

/-- While a denial is recorded, another one is counted and no message is due. -/
theorem Eng.noteDenial_of_recorded {e : Eng} (h : e.acc.denyValid = true) (m : Fin 64) (t : Nat) (r w z : Bool) (u : Nat) :
    e.noteDenial m t r w z u = ({ e with acc := { e.acc with denyCnt := satAdd e.acc.denyCnt 1 } }, false) := by
  unfold Eng.noteDenial
  simp only [h, if_true]

/-- While a denial is recorded, another one is counted and nothing else happens. -/
theorem Eng.deny_of_recorded {e : Eng} (h : e.acc.denyValid = true) (m : Fin 64) (t : Nat) (r w z : Bool) (u : Nat) :
    e.deny m t r w z u = { e with acc := { e.acc with denyCnt := satAdd e.acc.denyCnt 1 } } := by
  unfold Eng.deny
  rw [Eng.noteDenial_of_recorded h]

theorem Eng.noteRec_counts {e : Eng} (h : e.acc.denyValid = true) (m : Nat) (u : Nat × Bool) :
    (e.noteRec m u).2 = false ∧ e.acc.Counts (e.noteRec m u).1.acc := by
  unfold Eng.noteRec
  have h' : (if u.2 then { e with mp := { e.mp with noTarget := true } } else e).acc = e.acc := by split <;> rfl
  dsimp only
  generalize (if u.2 then { e with mp := { e.mp with noTarget := true } } else e) = e1 at h' ⊢
  rw [Eng.noteDenial_of_recorded (h' ▸ h)]
  exact ⟨rfl, _, by rw [h']⟩

/-- Refused records are only counted while a denial is recorded. -/
theorem Eng.recDenied_counts {e : Eng} (h : e.acc.denyValid = true) (m : Nat) (us : List (Nat × Bool)) :
    e.acc.Counts (e.recDenied m us).acc := by
  unfold Eng.recDenied
  induction us generalizing e with
  | nil => exact .refl _
  | cons u us ih =>
    rw [List.foldl_cons]
    obtain ⟨quiet, counts⟩ := Eng.noteRec_counts h m u
    cases hn : e.noteRec m u with
    | mk e1 due =>
      rw [hn] at quiet counts
      cases quiet
      exact counts.trans (ih (counts.denyValid.trans h))

theorem Eng.post_counts {e : Eng} (h : e.acc.denyValid = true) (m c i k p : Nat) : e.acc.Counts (e.post m c i k p).acc := by
  unfold Eng.post
  dsimp only
  have logs : (if logged k = true then e.logRec k c i p false else e).acc = e.acc := by
    split
    · exact Eng.logRec_acc _ _ _ _ _ _
    · rfl
  generalize (if logged k = true then e.logRec k c i p false else e) = e1 at logs ⊢
  have handed : ((e1.mkRec c i k p).1.hand m (e1.mkRec c i k p).2).1.acc = e.acc := by simp [logs]
  rw [← handed]
  exact Eng.recDenied_counts (handed ▸ h) _ _

/-- The first denial is recorded with its master, its target, its kind and its unit. -/
theorem Eng.deny_of_unrecorded {e : Eng} (h : e.acc.denyValid = false) (m : Fin 64) (t : Nat) (r w z : Bool) (u : Nat) :
    ({ e.acc with
        denyValid := true, denyAddr := BitVec.ofNat 64 u,
        denyInfo := BitVec.ofNat 32 (m.val + t * 2 ^ 8 + b2n w * 2 ^ 11 + b2n r * 2 ^ 12 + b2n z * 2 ^ 13) } : Acc).Counts
      (e.deny m t r w z u).acc := by
  unfold Eng.deny Eng.noteDenial
  simp only [h, Bool.false_eq_true, if_false]
  refine Acc.Counts.trans ?_ (Eng.post_counts rfl _ _ _ _ _)
  exact ⟨_, rfl⟩

/-! ### Accesses that are not served -/

/-- An access of a wrong size or alignment has no effect while the islands are held (R4, R364). -/
theorem access_bad_of_held {s : State} (h : s.runs = false) (m : Fin 64) (off : Nat) (w : Bool) :
    s.access m off (.bad w) = (s, .denied) := by
  unfold State.access State.accessHeld
  simp [h, RegAcc.good]

/-- An access waits behind what its master has waiting (R401). -/
theorem access_of_portHeld {s : State} (h : s.runs = true) {m : Fin 64} (hw : s.eng.portHeld m = true) (off : Nat) (a : RegAcc) :
    s.access m off a = (s.wait { master := m, off := off, acc := a, passed := false }, .waits) := by
  unfold State.access
  simp [h, hw]

/-- An access of a wrong size or alignment is a denial at its target (R4). -/
theorem access_bad_of_runs {s : State} (h : s.runs = true) {m : Fin 64} (hw : s.eng.portHeld m = false) (off : Nat) (w : Bool) :
    s.access m off (.bad w) = ({ s with eng := s.eng.deny m (regTarget off).1 (!w) w true off }, .denied) := by
  unfold State.access State.serve
  simp [h, hw]

/-- An access that the port's check refuses changes only what the check does. -/
theorem access_of_refused {s : State} (h : s.runs = true) {m : Fin 64} (hw : s.eng.portHeld m = false) {off : Nat} {a : RegAcc}
    (ha : a.good = true) {e : Eng} (hc : s.eng.regCheck m off a = (e, false)) :
    s.access m off a = ({ s with eng := e }, .denied) := by
  unfold State.access State.serve
  cases a with
  | bad w => cases ha
  | _ => simp [h, hw, hc]

section BadSize

variable {s t : State} {m : Fin 64} {off : BitVec 20} {size : Nat} {w : Bool}
  (h4 : ¬ (size = 4 ∧ off.toNat % 4 = 0)) (h8 : ¬ (size = 8 ∧ off.toNat % 8 = 0 ∧ isPair off.toNat = true))

include h4 h8

/-- R4 allows neither form of the access. -/
theorem sizeAllowed_eq_false :
    ((size == 4 && off.toNat % 4 == 0) || (size == 8 && off.toNat % 8 == 0 && isPair off.toNat)) = false := by
  by_contra h
  simp only [Bool.not_eq_false, Bool.or_eq_true, Bool.and_eq_true, beq_iff_eq] at h
  rcases h with h | ⟨⟨a, b⟩, c⟩
  · exact h4 h
  · exact h8 ⟨a, b, c⟩

/-- A bad access that is denied changes what its denial does, and answers a read with all ones (R4). -/
theorem execBadSize_of_denied (h : s.access m off.toNat (.bad w) = (t, .denied)) :
    exec (.registerAccessBadSize m off size w) s = .next (if w then t else t.respond m 0xFFFFFFFF) := by
  show execRegisterAccessBadSize m off size w s = _
  unfold execRegisterAccessBadSize
  simp only [sizeAllowed_eq_false h4 h8, h, Bool.false_eq_true, if_false]

/-- A bad access that waits answers nothing yet (R401). -/
theorem execBadSize_of_waits (h : s.access m off.toNat (.bad w) = (t, .waits)) :
    exec (.registerAccessBadSize m off size w) s = .next t := by
  show execRegisterAccessBadSize m off size w s = _
  unfold execRegisterAccessBadSize
  simp only [sizeAllowed_eq_false h4 h8, h, Bool.false_eq_true, if_false]

end BadSize

/-- The targets that check register accesses (R400). -/
theorem regTarget_lt (off : Nat) : (regTarget off).1 < 3 := by
  unfold regTarget
  repeat' split
  all_goals simp

/-- Fields of LE_ACC_DENY_INFO (R353). -/
theorem denyInfo_fields (m : Fin 64) {t : Nat} (ht : t < 8) (w r z : Bool) {info : W32}
    (h : info = BitVec.ofNat 32 (m.val + t * 2 ^ 8 + b2n w * 2 ^ 11 + b2n r * 2 ^ 12 + b2n z * 2 ^ 13)) :
    info.toNat % 64 = m.val ∧ info.getLsbD 11 = w ∧ info.getLsbD 12 = r ∧ info.getLsbD 13 = z := by
  have hm := m.isLt
  subst h
  simp only [BitVec.toNat_ofNat, BitVec.getLsbD_ofNat, Nat.testBit_eq_decide_div_mod_eq]
  cases w <;> cases r <;> cases z <;> simp [b2n] <;> omega

/-- The port's check has no target to ask in the reserved range (R399). -/
theorem regCheck_of_reserved {e : Eng} {off : Nat} (h : 0x60000 ≤ off) (m : Fin 64) (a : RegAcc) :
    e.regCheck m off a = (e.deny m 0 (!a.writes) a.writes false off, false) := by
  unfold Eng.regCheck
  rw [if_pos h]

/-- The locked access block refuses every master's writes but the configuration master's (R350). -/
theorem regCheck_of_locked {e : Eng} {off : Nat} {m : Fin 64} {a : RegAcc} (hlo : 0x9000 ≤ off) (hhi : off < 0xA000)
    (hw : a.writes = true) (hl : e.acc.lock = true) (hm : m.val ≠ e.acc.cfgMaster.toNat) (hv : e.acc.denyValid = true) :
    e.regCheck m off a = ({ e with acc := { e.acc with denyCnt := satAdd e.acc.denyCnt 1 } }, false) := by
  have target : regTarget off = (0, off) := by
    unfold regTarget
    rw [if_neg (by omega), if_neg (by omega), if_neg (by omega)]
  have block : (regBlock off).1 = 2 := by
    unfold regBlock
    rw [if_neg (by omega), if_pos (by omega)]
    show off / 0x1000 - 7 = 2
    omega
  unfold Eng.regCheck Eng.check
  rw [if_neg (by omega), target]
  cases hd : e.acc.firstDenied 0 m false true off a.size with
  | some u => simp [hw, hd, Eng.deny_of_recorded hv]
  | none => simp [hw, hd, block, hl, hm, Eng.deny_of_recorded hv]

/-! ### The message reels (R89) -/

theorem flush_of_nothing_owed {e : Eng} {m : Nat} (lost : (e.mreel m).lost = 0) (held : (e.mreel m).held = []) : e.flush m = e := by
  unfold Eng.flush Eng.flushReel
  simp [lost, held, Eng.recDenied]

theorem flushAll_of_nothing_owed {e : Eng} (h : ∀ n, (e.mreel n).lost = 0 ∧ (e.mreel n).held = []) : e.flushAll = e := by
  unfold Eng.flushAll
  induction List.range 16 with
  | nil => rfl
  | cons m ms ih =>
    rw [List.foldl_cons, flush_of_nothing_owed (h m).1 (h m).2]
    exact ih

/-! ### Served accesses -/

/-- A served write of a 32-bit register is its block's (R6). -/
theorem regWr_of_plain {s : State} {m : Fin 64} {off : Nat} {v : W32} (h : s.serves m off (.wr32 v) = true)
    (hp : isPair off = false) (hh : isPair (off - 4) = false) : s.regWr m off v = s.blkWr m off v.toNat := by
  rw [regWr_of_serves h]
  simp [State.perform, hp, hh]

/-- A served read of a 32-bit register answers its value and does what reading it does (R6). -/
theorem regRd_of_plain {s : State} {m : Fin 64} {off : Nat} (h : s.serves m off .rd32 = true)
    (hp : isPair off = false) (hh : isPair (off - 4) = false) :
    s.regRd m off = (s.afterRd off).respond m (s.blkRd off % 2 ^ 32) := by
  rw [regRd_of_serves h]
  simp [State.perform, hp, hh]

/-! ### Pairs (R5) -/

/-- A block begins at a multiple of eight at or below its offsets. -/
theorem regBlock_base (off : Nat) (h : off < 0x60000) : (regBlock off).2 % 8 = 0 ∧ (regBlock off).2 ≤ off := by
  unfold regBlock
  repeat' split
  all_goals dsimp only; omega

/-- A pair lies at a multiple of eight below the reserved range. -/
theorem isPair_aligned {off : Nat} (h : isPair off = true) : off % 8 = 0 ∧ off < 0x60000 := by
  by_cases hlt : off < 0x60000
  · refine ⟨?_, hlt⟩
    obtain ⟨hb, hle⟩ := regBlock_base off hlt
    unfold isPair at h
    revert h hb hle
    generalize regBlock off = p
    obtain ⟨b, base⟩ := p
    intro h hb hle
    dsimp only at h hb hle
    split at h <;> simp at h <;> omega
  · unfold isPair regBlock at h
    rw [if_neg (by omega), if_neg (by omega), if_neg (by omega), if_neg (by omega)] at h
    cases h

/-- The high word of a pair lies in the block of the low one: blocks end at multiples of eight. -/
theorem regBlock_high_word {off : Nat} (h : off % 8 = 0) : regBlock (off + 4) = regBlock off := by
  have page : (off + 4) / 0x1000 = off / 0x1000 := by omega
  have below (n : Nat) (hn : n % 8 = 0) : off + 4 < n ↔ off < n := by omega
  unfold regBlock
  rw [page]
  simp only [below 0x8000 rfl, below 0x18000 rfl, below 0x20000 rfl, below 0x60000 rfl]

/-- Latches of different masters or offsets are different ones. -/
theorem latchKey_injective {m m' : Fin 64} {off off' : Nat} (h : off < 2 ^ 20) (h' : off' < 2 ^ 20)
    (he : latchKey m' off' = latchKey m off) : m' = m ∧ off' = off := by
  unfold latchKey at he
  exact ⟨Fin.ext (by omega), by omega⟩

@[simp] theorem latch_onLatch_self (s : State) (m : Fin 64) (off : Nat) (f : PairLatch → PairLatch) :
    (s.onLatch m off f).latch m off = f (s.latch m off) := SMap.get_set_self _ _ _ _

theorem latch_onLatch_ne (s : State) {m m' : Fin 64} {off off' : Nat} (f : PairLatch → PairLatch) (h : off < 2 ^ 20)
    (h' : off' < 2 ^ 20) (hne : m' ≠ m ∨ off' ≠ off) : (s.onLatch m off f).latch m' off' = s.latch m' off' := by
  refine SMap.get_set_ne _ _ _ fun he => ?_
  obtain ⟨rfl, rfl⟩ := latchKey_injective h h' he
  simp at hne

/-! ### The release of a block (R371, R402, R403) -/

/-- Nothing waits at the port: nothing is tried again. -/
theorem drainPort_of_nothing_waiting {s : State} (h : s.eng.port.waiting = []) : s.drainPort = s := by
  obtain ⟨q, ao, e⟩ := s
  obtain ⟨⟨l, r, a, w⟩, _⟩ := e
  cases h
  rfl

/-- The latches of the block's pairs are dropped. -/
def Port.dropBlock (p : Port) (b : Nat) : Port :=
  { p with latches := p.latches.filter fun l => !(restartBit (regBlock (l.1 % 2 ^ 20)).1 == some b) }

/-- A block's release with nothing waiting drops the latches of its pairs, and nothing waits after it. -/
theorem blockRestartRelease_port {s : State} {b : Fin 10} {x : Bool} {w : Option (Fin 64)} (hr : s.runs = true)
    (hb : s.eng.rs.get none b.val = some (.inReset x w)) (hw : s.eng.port.waiting = []) :
    ∃ t, exec (.blockRestartRelease b) s = .next t ∧ t.ao = s.ao ∧ t.eng.port = s.eng.port.dropBlock b.val ∧
      t.eng.rs = s.eng.rs.set none b.val none := by
  have restarted := keepsPort_restartBlock s.eng b.val
  let e1 : Eng := { s.eng.restartBlock b.val with
    rs := (s.eng.restartBlock b.val).rs.set none b.val none
    port := (s.eng.restartBlock b.val).port.dropBlock b.val }
  have after : e1.KeepsPort ((e1.serveFill.unblock).restartMsg b.val x w) :=
    ((keepsPort_serveFill _).trans (keepsPort_unblock _)).trans (keepsPort_restartMsg _ _ _ _)
  let t : State := { s with eng := (e1.serveFill.unblock).restartMsg b.val x w }
  have port : t.eng.port = s.eng.port.dropBlock b.val := after.1.trans (congrArg (Port.dropBlock · b.val) restarted.1)
  have rs : t.eng.rs = s.eng.rs.set none b.val none := after.2.trans (congrArg (SMap.set none · b.val none) restarted.2)
  have waiting : t.eng.port.waiting = [] := by rw [port]; exact hw
  refine ⟨t, ?_, rfl, port, rs⟩
  show execBlockRestartRelease b s = _
  unfold execBlockRestartRelease
  rw [hr, hb]
  exact congrArg _ (drainPort_of_nothing_waiting waiting)

/-- A latch after its block's release. -/
theorem latch_dropBlock {s t : State} {b : Nat} (h : t.eng.port = s.eng.port.dropBlock b) (m : Fin 64) {off : Nat}
    (ho : off < 2 ^ 20) : t.latch m off = if restartBit (regBlock off).1 = some b then {} else s.latch m off := by
  have key : latchKey m off % 2 ^ 20 = off := by unfold latchKey; omega
  unfold State.latch
  rw [h]
  unfold Port.dropBlock
  rw [SMap.get_filter_key _ fun k => !(restartBit (regBlock (k % 2 ^ 20)).1 == some b), key]
  by_cases hb : restartBit (regBlock off).1 = some b <;> simp [hb]

theorem registerWrite_eq {off : BitVec 20} (h : off.toNat % 4 = 0) (m : Fin 64) (v : W32) (s : State) :
    exec (.registerWrite m off v) s = .next (s.regWr m off.toNat v) := congrArg _ (if_pos h)

/-- A write that the port's check refuses while a denial is recorded is counted, and nothing else happens. -/
theorem regWr_of_refused {s : State} (h : s.runs = true) {m : Fin 64} (hw : s.eng.portHeld m = false) {off : Nat} {v : W32}
    {e : Eng} (hc : s.eng.regCheck m off (.wr32 v) = (e, false)) : s.regWr m off v = { s with eng := e } := by
  rw [State.regWr, access_of_refused h hw rfl hc]

theorem regRd_of_refused {s : State} (h : s.runs = true) {m : Fin 64} (hw : s.eng.portHeld m = false) {off : Nat}
    {e : Eng} (hc : s.eng.regCheck m off .rd32 = (e, false)) :
    s.regRd m off = ({ s with eng := e } : State).respond m 0xFFFFFFFF := by
  rw [State.regRd, access_of_refused h hw rfl hc]

/-- A bad access's answer changes the port alone. -/
theorem badAnswer_frame {s t : State} {m : Fin 64} {w : Bool} (h : t = if w then s else s.respond m 0xFFFFFFFF) :
    t.ao = s.ao ∧ t.eng.dirs = s.eng.dirs ∧ t.eng.clp = s.eng.clp ∧ t.eng.acc = s.eng.acc ∧
      (w = false → t.eng.port.resp = some { master := m, data := 0xFFFFFFFF }) := by
  subst h
  cases w
  · exact ⟨rfl, rfl, rfl, rfl, fun _ => rfl⟩
  · exact ⟨rfl, rfl, rfl, rfl, nofun⟩

/-- A bad access answered as a first denial: what is recorded of it, and what stands. -/
theorem execBadSize_first {s : State} {m : Fin 64} {off : BitVec 20} {size : Nat} {w : Bool}
    (h4 : ¬ (size = 4 ∧ off.toNat % 4 = 0)) (h8 : ¬ (size = 8 ∧ off.toNat % 8 = 0 ∧ isPair off.toNat = true))
    (hr : s.runs = true) (hw : s.eng.portHeld m = false) (hv : s.eng.acc.denyValid = false) :
    ∃ t, exec (.registerAccessBadSize m off size w) s = .next t ∧
      t.ao = s.ao ∧ t.eng.dirs = s.eng.dirs ∧ t.eng.clp = s.eng.clp ∧ t.eng.acc.denyValid = true ∧
      t.eng.acc.regions = s.eng.acc.regions ∧ t.eng.acc.denyAddr.toNat = off.toNat ∧
      t.eng.acc.denyInfo.toNat % 64 = m.val ∧ t.eng.acc.denyInfo.getLsbD 11 = w ∧
      t.eng.acc.denyInfo.getLsbD 12 = !w ∧ t.eng.acc.denyInfo.getLsbD 13 = true ∧
      (w = false → t.eng.port.resp = some { master := m, data := 0xFFFFFFFF }) := by
  refine ⟨_, execBadSize_of_denied h4 h8 (access_bad_of_runs hr hw off.toNat w), ?_⟩
  have told := told_deny s.eng m (regTarget off.toNat).1 (!w) w true off.toNat
  obtain ⟨k, acc⟩ := Eng.deny_of_unrecorded hv m (regTarget off.toNat).1 (!w) w true off.toNat
  generalize s.eng.deny m (regTarget off.toNat).1 (!w) w true off.toNat = e at told acc ⊢
  obtain ⟨hao, hdirs, hclp, hacc, hresp⟩ := badAnswer_frame (w := w) (m := m) (s := { s with eng := e }) rfl
  have ht : (regTarget off.toNat).1 < 8 := Nat.lt_trans (regTarget_lt _) (by decide)
  have ho : off.toNat < 2 ^ 64 := Nat.lt_trans off.isLt (by decide)
  rw [hacc, acc]
  obtain ⟨f1, f2, f3, f4⟩ := denyInfo_fields m ht w (!w) true rfl
  exact ⟨hao, hdirs.trans told.dirs, hclp.trans told.clp, rfl, rfl, by simpa using ho, f1, f2, f3, f4, hresp⟩

/-- An access to an offset without a target is its write or its read (R399). -/
theorem noTarget_eq {off : BitVec 20} (ho : 0x60000 ≤ off.toNat) (ha : off.toNat % 4 = 0) (m : Fin 64) (w : Bool) (s : State) :
    exec (.registerAccessNoTarget m off w) s = .next (if w then s.regWr m off.toNat 0 else s.regRd m off.toNat) :=
  congrArg _ (if_neg (by omega))

/-- A bit of a word's number is the word's bit. -/
theorem bit_toNat {n : Nat} (v : BitVec n) (i : Nat) : bit v.toNat i = v.getLsbD i := by
  simp only [bit, fld, BitVec.getLsbD, Nat.testBit_eq_decide_div_mod_eq]
  rfl

/-- A field of a word's number is the word's field. -/
theorem ofNat_toNat_div {n : Nat} (v : BitVec n) (i w : Nat) : BitVec.ofNat w (v.toNat / 2 ^ i) = v.extractLsb' i w := by
  apply BitVec.eq_of_toNat_eq
  simp [BitVec.extractLsb'_toNat, Nat.shiftRight_eq_div_pow]

/-- A field that a set bit lies outside of. -/
theorem extractLsb'_or_bit6 (v : W32) (i : Nat) (hi : i = 0 ∨ i = 8) : (v ||| 0x40).extractLsb' i 6 = v.extractLsb' i 6 := by
  ext j hj
  simp only [BitVec.getElem_extractLsb', BitVec.getLsbD_or]
  have h6 : (0x40 : W32).getLsbD (i + j) = false := by
    show Nat.testBit (2 ^ 6) (i + j) = false
    rw [Nat.testBit_two_pow]
    simp; omega
  rw [h6, Bool.or_false]

/-- A write of LE_ACC_CTL with lock set (R350). -/
theorem accWr_lock (c : Acc) (v : W32) :
    accWr c 0 (v ||| 0x40).toNat = { c with cfgMaster := v.extractLsb' 0 6, lock := true, enforce := v.extractLsb' 8 6 } := by
  have master : BitVec.ofNat 6 (v ||| 0x40).toNat = v.extractLsb' 0 6 := by
    have h := ofNat_toNat_div (v ||| 0x40) 0 6
    rw [Nat.pow_zero, Nat.div_one] at h
    rw [h, extractLsb'_or_bit6 v 0 (.inl rfl)]
  have enforce : BitVec.ofNat 6 ((v ||| 0x40).toNat / 256) = v.extractLsb' 8 6 := by
    rw [← extractLsb'_or_bit6 v 8 (.inr rfl)]
    exact ofNat_toNat_div (v ||| 0x40) 8 6
  have lock : bit (v ||| 0x40).toNat 6 = true := by
    rw [bit_toNat, BitVec.getLsbD_or]
    exact Bool.or_true _
  show ({ c with cfgMaster := BitVec.ofNat 6 _, lock := c.lock || bit _ 6, enforce := BitVec.ofNat 6 (_ / 256) } : Acc) = _
  rw [master, enforce, lock, Bool.or_true]

/-! ### What the rows of pairs do -/

theorem pairLowWordRead_eq {off : BitVec 20} (h : isPair off.toNat = true) (m : Fin 64) (s : State) :
    exec (.pairLowWordRead m off) s = .next (s.regRd m off.toNat) := congrArg _ (if_pos h)

theorem pairHighWordWrite_eq {off : BitVec 20} (h4 : 4 ≤ off.toNat) (h : isPair (off.toNat - 4) = true) (m : Fin 64) (v : W32)
    (s : State) : exec (.pairHighWordWrite m off v) s = .next (s.regWr m off.toNat v) := congrArg _ (if_pos ⟨h4, h⟩)

/-- A served read of a pair's low word latches the high one (R5). -/
theorem regRd_of_pair {s : State} {m : Fin 64} {off : Nat} (h : s.serves m off .rd32 = true) (hp : isPair off = true) :
    s.regRd m off = (s.onLatch m off fun l => { l with rd := some (BitVec.ofNat 32 (s.blkRd off / 2 ^ 32)) }).respond m
      (s.blkRd off % 2 ^ 32) := by
  rw [regRd_of_serves h]
  simp only [State.perform, hp, if_true]

/-- A served write of a pair's low word waits in its master's latch (R5). -/
theorem regWr_of_pair {s : State} {m : Fin 64} {off : Nat} {v : W32} (h : s.serves m off (.wr32 v) = true)
    (hp : isPair off = true) : s.regWr m off v = s.onLatch m off fun l => { l with wr := some v } := by
  rw [regWr_of_serves h]
  simp only [State.perform, hp, if_true]

/-- A served write of a pair's high word commits both words (R5, R343). -/
theorem regWr_of_high_word {s : State} {m : Fin 64} {off : Nat} {v : W32} (h : s.serves m off (.wr32 v) = true)
    (h4 : 4 ≤ off) (hp : isPair (off - 4) = true) (hn : isPair off = false) :
    s.regWr m off v = (s.onLatch m (off - 4) fun l => { l with wr := none }).blkWr m (off - 4)
      (v.toNat * 2 ^ 32 + (match (s.latch m (off - 4)).wr with
        | some w => w.toNat
        | none => s.blkRd (off - 4) % 2 ^ 32)) none (s.latch m (off - 4)).wr.isNone := by
  rw [regWr_of_serves h]
  simp only [State.perform, hn, Bool.false_eq_true, if_false, h4, hp, and_self, if_true]
  cases (s.latch m (off - 4)).wr <;> rfl

@[simp] theorem latch_respond (s : State) (m m' : Fin 64) (v off : Nat) : (s.respond m v).latch m' off = s.latch m' off := rfl

/-- Both resets leave the port empty (R361, R403). -/
theorem reset_port {s : State} {c : Instr}
    (h : c = .powerOnReset ∨ (s.ao.phase ≠ .inReset ∧ ∃ low, 3 ≤ low ∧ c = .leRstNAssert low)) :
    ∃ t, exec c s = .next t ∧ t.eng.port = {} := by
  rcases h with rfl | ⟨hp, low, hl, rfl⟩
  · exact ⟨_, rfl, rfl⟩
  · exact ⟨_, if_neg (by simp [hp, hl]), rfl⟩

end Sys2Proof.Machine
end

section
/-! SUPPORT. Counters that clear when they are read (R6), and the counters' snapshots (R43). -/

namespace Sys2Proof.Machine

open Sys2Proof

/-- What a read of a message reel's lost count answers, and leaves (R89). -/
theorem mreelLost_rd (s : State) (n : Fin 16) :
    s.blkRd (0xA814 + 0x20 * n.val) = (s.eng.mreel n.val).lost.toNat ∧
      s.afterRd (0xA814 + 0x20 * n.val) =
        { s with eng := s.eng.setMreel n.val { s.eng.mreel n.val with lost := 0 } } := by
  have block : regBlock (0xA814 + 0x20 * n.val) = (3, 0xA000) := by revert n; decide
  have rest : (0xA814 + 0x20 * n.val - 0xA000) % 0x20 = 0x14 := by omega
  have index : (0xA814 + 0x20 * n.val - 0xA000 - 0x800) / 0x20 = n.val := by omega
  have hi := n.isLt
  constructor
  · unfold State.blkRd Eng.feRd
    simp only [block]
    rw [if_neg (by omega), if_pos (by omega), index, rest]
    rfl
  · unfold State.afterRd Eng.onMreel
    simp only [block, index]
    rw [if_pos ⟨by omega, by omega, rest⟩]

/-- What a read of a director's stall count answers, and leaves (R107). -/
theorem dirStall_rd (s : State) (d : Fin 8) :
    s.blkRd (0xB030 + 0x40 * d.val) = (s.eng.dir d.val).stall.toNat ∧
      s.afterRd (0xB030 + 0x40 * d.val) = s.setDir d { s.eng.dir d.val with stall := 0 } := by
  have block : regBlock (0xB030 + 0x40 * d.val) = (4, 0xB000) := by revert d; decide
  have rest : (0xB030 + 0x40 * d.val - 0xB000) % 0x40 = 0x30 := by omega
  have index : (0xB030 + 0x40 * d.val - 0xB000) / 0x40 = d.val := by omega
  have hi := d.isLt
  constructor
  · unfold State.blkRd dirRd
    simp only [block]
    rw [if_pos (by omega), index, rest]
    rfl
  · unfold State.afterRd Eng.onDir State.setDir
    simp only [block, index]
    rw [if_pos ⟨by omega, rest⟩]

/-- A served read of a 32-bit counter: its value whole, since it fits. -/
theorem regRd_of_counter {s t : State} {m : Fin 64} {off : Nat} {v : W32} (h : s.serves m off .rd32 = true)
    (hp : isPair off = false) (hh : isPair (off - 4) = false) (hv : s.blkRd off = v.toNat) (ht : s.afterRd off = t) :
    s.regRd m off = t.respond m v.toNat := by
  rw [regRd_of_plain h hp hh, hv, ht, Nat.mod_eq_of_lt v.isLt]

theorem Ctrs.write_live (c : Ctrs) (keep v : Nat) : (c.write keep v).live = if bit v 3 then [] else c.live := by
  unfold Ctrs.write
  cases bit v 2 <;> cases bit v 3 <;> rfl

theorem Ctrs.write_snap (c : Ctrs) (keep v : Nat) : (c.write keep v).snap = if bit v 2 then c.live else c.snap := by
  unfold Ctrs.write
  cases bit v 2 <;> cases bit v 3 <;> rfl

/-- The engine with a block's counters replaced, and nothing else. -/
def Eng.setCtrs (e : Eng) (c : Ctrs) : CtrBlk → Eng
  | .grd => { e with grd := { e.grd with ctrs := c } }
  | .gln => { e with gln := { e.gln with ctrs := c } }
  | .wr => { e with wr := { e.wr with ctrs := c } }
  | .swp => { e with swp := { e.swp with ctrs := c } }
  | .ted => { e with ted := { e.ted with ctrs := c } }
  | .swd => { e with swd := { e.swd with ctrs := c } }
  | .mp => { e with mp := { e.mp with ctrs := c } }
  | .hc => { e with hc := { e.hc with ctrs := c } }
  | .zw => { e with zw := { e.zw with ctrs := c } }

theorem Eng.ctrs_setCtrs (e : Eng) (c : Ctrs) (b b' : CtrBlk) :
    (e.setCtrs c b).ctrs b' = if b' = b then c else e.ctrs b' := by
  cases b <;> cases b' <;> rfl

@[simp] theorem Eng.dirs_setCtrs (e : Eng) (c : Ctrs) (b : CtrBlk) : (e.setCtrs c b).dirs = e.dirs := by cases b <;> rfl

/-- The bits that a block's counter control keeps (R43): the grader's choice of counters, and the enable. -/
def ctlKeep : CtrBlk → Nat
  | .grd => 0x0FFF0003
  | _ => 1

/-- A write of a block's counter control changes its counters alone (R43). -/
theorem blkWr_ctlOf (s : State) (m : Fin 64) (b : CtrBlk) (v : Nat) :
    s.blkWr m (ctlOf b) v = { s with eng := s.eng.setCtrs ((s.eng.ctrs b).write (ctlKeep b) v) b } := by
  cases b <;> rfl

/-- A served write of a block's counter control. -/
theorem regWr_ctlOf {s : State} {m : Fin 64} {b : CtrBlk} {v : W32} (h : s.serves m (ctlOf b) (.wr32 v) = true) :
    s.regWr m (ctlOf b) v = { s with eng := s.eng.setCtrs ((s.eng.ctrs b).write (ctlKeep b) v.toNat) b } := by
  rw [regWr_of_plain h (by cases b <;> decide) (by cases b <;> decide), blkWr_ctlOf]

/-- The stall counts and the lost counts lie in no pair. -/
theorem dirStall_not_pair : ∀ d : Fin 8, isPair (0xB030 + 0x40 * d.val) = false ∧ isPair (0xB030 + 0x40 * d.val - 4) = false := by
  decide

theorem mreelLost_not_pair :
    ∀ n : Fin 16, isPair (0xA814 + 0x20 * n.val) = false ∧ isPair (0xA814 + 0x20 * n.val - 4) = false := by
  decide

/-- What a served write of a block's counter control leaves: copied before they are zeroed (R43). -/
theorem regWr_ctlOf_counters {s t : State} {m : Fin 64} {b : CtrBlk} {v : W32} (h : s.serves m (ctlOf b) (.wr32 v) = true)
    (ht : t = s.regWr m (ctlOf b) v) :
    (t.eng.ctrs b).live = (if v.getLsbD 3 then [] else (s.eng.ctrs b).live) ∧
      (t.eng.ctrs b).snap = (if v.getLsbD 2 then (s.eng.ctrs b).live else (s.eng.ctrs b).snap) ∧
      (∀ b', b' ≠ b → t.eng.ctrs b' = s.eng.ctrs b') ∧ t.ao = s.ao ∧ t.eng.dirs = s.eng.dirs := by
  subst ht
  rw [regWr_ctlOf h]
  refine ⟨?_, ?_, fun b' hb => (Eng.ctrs_setCtrs _ _ _ _).trans (if_neg hb), rfl, Eng.dirs_setCtrs _ _ _⟩
  · rw [Eng.ctrs_setCtrs, if_pos rfl, Ctrs.write_live, bit_toNat]
  · rw [Eng.ctrs_setCtrs, if_pos rfl, Ctrs.write_snap, bit_toNat]

end Sys2Proof.Machine
end

section
/-! The statements about register accesses, pairs and counters. -/

namespace Sys2Proof.Machine

open Sys2Proof

/-- Settles O9: an access that is refused ends at the port's check, whose denial changes only the count while one is recorded. -/
theorem refusedAccessesChangeNothingAndTheLockHolds : Obligations.RefusedAccessesChangeNothingAndTheLockHolds := by
  refine ⟨fun s m off => ⟨fun size w h4 h8 => ⟨?_, ?_, ?_, ?_, ?_⟩, ?_⟩, fun s m => ⟨?_, ?_, ?_⟩⟩
  · rintro hr rfl
    exact execBadSize_of_denied h4 h8 (access_bad_of_held hr m _ true)
  · rintro hr rfl
    exact execBadSize_of_denied h4 h8 (access_bad_of_held hr m _ false)
  · intro hr hw
    exact execBadSize_of_waits h4 h8 (access_of_portHeld hr hw _ _)
  · rintro hr hw hv rfl
    rw [execBadSize_of_denied h4 h8 (access_bad_of_runs hr hw _ true), Eng.deny_of_recorded hv]
    rfl
  · exact execBadSize_first h4 h8
  · intro w ho ha hr hw hv
    refine ⟨?_, ?_⟩
    · rintro rfl
      rw [noTarget_eq ho ha, if_pos rfl, regWr_of_refused hr hw (regCheck_of_reserved ho m _), Eng.deny_of_recorded hv]
    · rintro rfl
      refine ⟨_, (noTarget_eq ho ha m false s).trans (congrArg _ (regRd_of_refused hr hw (regCheck_of_reserved ho m _))), ?_⟩
      rw [Eng.deny_of_recorded hv]
      exact ⟨rfl, rfl, rfl, rfl⟩
  · intro h
    show Host.Outcome.next (s.regWr m 0x9004 1) = _
    rw [regWr_of_plain h (by decide) (by decide)]
    show Host.Outcome.next { s with eng := { s.eng with acc := { s.eng.acc with denyValid := s.eng.acc.denyValid && false } } } = _
    rw [Bool.and_false]
  · intro v h
    refine ⟨_, rfl, ?_, fun owed => flushAll_of_nothing_owed owed⟩
    show Host.Outcome.next (s.regWr m 0x9000 (v ||| 0x40)) = _
    rw [regWr_of_plain h (by decide) (by decide), ← accWr_lock]
    rfl
  · intro off v hr hl hm hw hv ha hlo hhi
    rw [registerWrite_eq ha, regWr_of_refused hr hw (regCheck_of_locked hlo hhi rfl hl hm hv)]

/-- Settles O10: a pair's words meet in its master's latch, which a release of its block and a reset drop. -/
theorem pairsAreReadAndWrittenWhole : Obligations.PairsAreReadAndWrittenWhole := by
  refine ⟨fun s m off => ⟨?_, ?_, ?_⟩, ?_, ?_, ?_, ?_⟩
  · intro hp h
    refine ⟨_, (pairLowWordRead_eq hp m s).trans (congrArg _ (regRd_of_pair h hp)), rfl, ?_, ?_, rfl⟩
    · rw [latch_respond, latch_onLatch_self]
    · intro m' off' ho hne
      rw [latch_respond, latch_onLatch_ne s _ off.isLt ho hne]
  · intro v hp h
    have ha : off.toNat % 4 = 0 := by have := (isPair_aligned hp).1; omega
    refine ⟨_, (registerWrite_eq ha m v s).trans (congrArg _ (regWr_of_pair h hp)), ?_, ?_, rfl⟩
    · exact latch_onLatch_self s m off.toNat _
    · exact fun m' off' ho hne => latch_onLatch_ne s _ off.isLt ho hne
  · rintro v lo h4 hp hn h rfl
    exact (pairHighWordWrite_eq h4 hp m v s).trans (congrArg _ (regWr_of_high_word h h4 hp hn))
  · exact fun off hp => regBlock_high_word (isPair_aligned hp).1
  · exact fun s m m' off off' f ho ho' hne => latch_onLatch_ne s f ho ho' hne
  · intro s c h
    obtain ⟨t, ht, port⟩ := reset_port h
    exact ⟨t, ht, fun m off => by unfold State.latch; rw [port]; rfl⟩
  · intro s b x w hr hb hw
    obtain ⟨t, ht, -, port, -⟩ := blockRestartRelease_port hr hb hw
    exact ⟨t, ht, fun m off ho => latch_dropBlock port m ho⟩

/-- Settles O11: a read of a counter that clears answers it and leaves 0; a control write copies and zeroes its block's counters. -/
theorem countersClearWhenReadSnapAndClear : Obligations.CountersClearWhenReadSnapAndClear := by
  refine ⟨fun s m => ⟨?_, ?_, ?_, ?_, ?_⟩, fun s m b v => ⟨?_, ?_⟩⟩
  · exact fun h => congrArg _ (regRd_of_counter h (by decide) (by decide) rfl rfl)
  · exact fun h => congrArg _ (regRd_of_counter h (by decide) (by decide) rfl rfl)
  · intro d h
    obtain ⟨low, high⟩ := dirStall_not_pair d
    obtain ⟨value, after⟩ := dirStall_rd s d
    exact congrArg _ (regRd_of_counter h low high value after)
  · exact fun h => congrArg _ (regRd_of_counter h (by decide) (by decide) rfl rfl)
  · intro n h
    obtain ⟨low, high⟩ := mreelLost_not_pair n
    obtain ⟨value, after⟩ := mreelLost_rd s n
    exact congrArg _ (regRd_of_counter h low high value after)
  · intro h
    obtain ⟨live, snap, others, ao, dirs⟩ := regWr_ctlOf_counters h rfl
    have snaps : (v ||| 4).getLsbD 2 = true := by rw [BitVec.getLsbD_or]; exact Bool.or_true _
    have clears : (v ||| 4).getLsbD 3 = v.getLsbD 3 := by rw [BitVec.getLsbD_or]; exact Bool.or_false _
    rw [snaps] at snap
    rw [clears] at live
    exact ⟨_, rfl, snap.symm, live, others, ao, dirs⟩
  · intro h
    obtain ⟨live, snap, others, ao, dirs⟩ := regWr_ctlOf_counters h rfl
    have clears : (v ||| 8).getLsbD 3 = true := by rw [BitVec.getLsbD_or]; exact Bool.or_true _
    have snaps : (v ||| 8).getLsbD 2 = v.getLsbD 2 := by rw [BitVec.getLsbD_or]; exact Bool.or_false _
    rw [clears] at live
    rw [snaps] at snap
    exact ⟨_, rfl, live, snap, others, ao, dirs⟩

end Sys2Proof.Machine
end

section
/-! SUPPORT. What accesses through the sward leave alone, and the carrier atomics (R19, R242, R243): one lemma for each way in which an
atomic is answered. -/

namespace Sys2Proof.Machine

open Sys2Proof

/-! ### Accesses through the sward -/

/-- Only the sward, the memory ports and device memory differ. -/
def Eng.SwardOnly (e e' : Eng) : Prop := ∃ w p d, e' = { e with swd := w, mp := p, dev := d }

theorem Eng.SwardOnly.refl (e : Eng) : e.SwardOnly e := ⟨e.swd, e.mp, e.dev, rfl⟩

theorem Eng.SwardOnly.trans {a b c : Eng} : a.SwardOnly b → b.SwardOnly c → a.SwardOnly c := by
  rintro ⟨_, _, _, rfl⟩ ⟨w, p, d, rfl⟩; exact ⟨w, p, d, rfl⟩

section

variable {e e' : Eng} (h : e.SwardOnly e')

include h

theorem Eng.SwardOnly.port : e'.port = e.port := by obtain ⟨_, _, _, rfl⟩ := h; rfl
theorem Eng.SwardOnly.dirs : e'.dirs = e.dirs := by obtain ⟨_, _, _, rfl⟩ := h; rfl
theorem Eng.SwardOnly.host : e'.host = e.host := by obtain ⟨_, _, _, rfl⟩ := h; rfl

end

theorem swardOnly_ite {e a b : Eng} {c : Prop} [Decidable c] (h : e.SwardOnly a) (g : e.SwardOnly b) :
    e.SwardOnly (if c then a else b) := by
  split
  · exact h
  · exact g

theorem swardOnly_onSwd (e : Eng) (f : Swd → Swd) : e.SwardOnly (e.onSwd f) := ⟨_, _, _, rfl⟩

theorem swardOnly_thruWr (e : Eng) (wide : Bool) (a : Nat) (bs : List Byte) : e.SwardOnly (e.thruWr wide a bs) := ⟨_, _, _, rfl⟩

theorem swardOnly_fetchSector (e : Eng) (sa : Nat) : e.SwardOnly (e.fetchSector sa) := swardOnly_ite (.refl e) ⟨_, _, _, rfl⟩

theorem swardOnly_writeEvict (e : Eng) (v : Evict) : e.SwardOnly (e.writeEvict v) := by
  unfold Eng.writeEvict
  cases v.d0 <;> cases v.d1 <;> exact ⟨_, _, _, rfl⟩

theorem swardOnly_drainOne (e : Eng) (slice : Nat) : e.SwardOnly (e.drainOne slice) := by
  unfold Eng.drainOne
  split
  · exact .refl e
  · exact (swardOnly_writeEvict _ _).trans (swardOnly_onSwd _ _)

theorem swardOnly_evict (e : Eng) (line : Nat) : e.SwardOnly (e.evict line) := by
  unfold Eng.evict
  split
  · exact .refl e
  · extract_lets e1 sl e2 v
    have left : e.SwardOnly e1 := swardOnly_onSwd _ _
    have drained : e1.SwardOnly e2 := swardOnly_ite ((swardOnly_drainOne _ _).trans (swardOnly_onSwd _ _)) (.refl _)
    exact swardOnly_ite ((left.trans drained).trans (swardOnly_onSwd _ _)) left

theorem swardOnly_allocate (e : Eng) (line : Nat) (ref pf : Bool) : e.SwardOnly (e.allocate line ref pf).1 := by
  unfold Eng.allocate
  split
  · exact .refl e
  · split
    · exact ⟨_, _, _, rfl⟩
    · extract_lets e1 e2
      have chosen : e.SwardOnly e1 := ⟨_, _, _, rfl⟩
      have evicted : e1.SwardOnly e2 := by
        unfold e2
        split
        · exact swardOnly_evict _ _
        · exact .refl e1
      split
      exact (chosen.trans evicted).trans ⟨_, _, _, rfl⟩

theorem swardOnly_backSector (e : Eng) (sa off : Nat) (bs : List Byte) : e.SwardOnly (e.backSector sa off bs) := by
  unfold Eng.backSector
  extract_lets line half old resident fill
  split
  rename_i e1 ok h
  have placed : e.SwardOnly e1 := by
    split at h
    · cases h; exact .refl e
    · split at h
      · cases h; exact .refl e
      · split at h
        · rw [← show _ = e1 from congrArg Prod.fst h]
          exact swardOnly_allocate e line true false
        · cases h; exact .refl e
  split
  · exact placed.trans ((swardOnly_ite (swardOnly_fetchSector _ _) (.refl _)).trans (swardOnly_onSwd _ _))
  · exact placed.trans (swardOnly_thruWr _ _ _ _)

theorem swardOnly_atomicTouch (e : Eng) (a n : Nat) (rd : Bool) (new : Option Nat) (old : Nat) :
    e.SwardOnly (e.atomicTouch a n rd new old) := by
  unfold Eng.atomicTouch
  extract_lets sa e1 e2
  have read : e.SwardOnly e2 := swardOnly_ite (swardOnly_fetchSector _ _) (.refl e)
  refine swardOnly_ite (swardOnly_backSector _ _ _ _) ?_
  split
  · exact read.trans (swardOnly_backSector _ _ _ _)
  · exact read

/-! ### No sward between the access and memory -/

theorem coverSector_lines_of_nil {w : Swd} (h : w.lines = []) (sa off : Nat) (bs : List Byte) :
    (w.coverSector sa off bs).lines = [] := by
  simp [Swd.coverSector, h]

/-- A write past an empty sward leaves it without lines. -/
theorem cover_lines_of_nil {w : Swd} (h : w.lines = []) (a : Nat) (bs : List Byte) : (w.cover a bs).lines = [] := by
  unfold Swd.cover
  induction sectorsOf a bs.length generalizing w with
  | nil => exact h
  | cons sa ss ih => exact ih (coverSector_lines_of_nil h _ _ _)

theorem sector_of_no_lines {w : Swd} (h : w.lines = []) (sa : Nat) : w.sector sa = none := by
  simp [Swd.sector, h]

/-- A sward that is off writes through (R237). -/
theorem backSector_of_off {e : Eng} (h : e.swd.enabled = false) (sa off : Nat) (bs : List Byte) :
    e.backSector sa off bs = e.thruWr false (sa + off) bs := by
  simp [Eng.backSector, h]

theorem fetchSector_swd (e : Eng) (sa : Nat) : (e.fetchSector sa).swd = e.swd := by
  unfold Eng.fetchSector
  split <;> rfl

theorem fetchSector_dev (e : Eng) (sa : Nat) : (e.fetchSector sa).dev = e.dev := by
  unfold Eng.fetchSector
  split <;> rfl

/-- Without a sward between, memory holds what an atomic stores (R243). -/
theorem atomicTouch_dev_of_off {e : Eng} (off : e.swd.enabled = false) (lines : e.swd.lines = []) (a n : Nat) (rd : Bool)
    (new : Option Nat) (old : Nat) :
    (e.atomicTouch a n rd new old).dev = match new with
      | some v => e.dev.wrN a (leBytes n v)
      | none => e.dev := by
  unfold Eng.atomicTouch
  extract_lets sa e1 e2
  have absent : (e1.swd.sector sa).isSome = false := by
    unfold e1
    rw [backSector_of_off off, sector_of_no_lines (w := (e.thruWr _ _ _).swd) (cover_lines_of_nil lines _ _)]
    rfl
  have swd : e2.swd = e.swd := by
    unfold e2
    split
    · exact fetchSector_swd _ _
    · rfl
  have dev : e2.dev = e.dev := by
    unfold e2
    split
    · exact fetchSector_dev _ _
    · rfl
  have addr : sa + (a - sa) = a := by omega
  rw [if_neg (by simp [absent])]
  cases new with
  | none => exact dev
  | some v =>
    dsimp only
    rw [backSector_of_off (swd ▸ off), addr]
    exact congrArg (·.wrN a (leBytes n v)) dev

/-! ### Numbers in memory -/

/-- Bytes hold a number below a power of 256 (R2). -/
theorem leNat_lt (bs : List Byte) : leNat bs < 2 ^ (8 * bs.length) := by
  induction bs with
  | nil => exact Nat.one_pos
  | cons b bs ih =>
    have hb := b.isLt
    simp only [leNat, List.length_cons, Nat.mul_add, Nat.pow_add]
    omega

theorem length_rdDev_le (e : Eng) (wide : Bool) (a n : Nat) : (e.rdDev wide a n).length ≤ n := List.length_take_le _ _

theorem leNat_rdDev_lt (e : Eng) (wide : Bool) (a n : Nat) : leNat (e.rdDev wide a n) < 2 ^ (8 * n) :=
  (leNat_lt _).trans_le (Nat.pow_le_pow_right (by decide) (Nat.mul_le_mul_left 8 (length_rdDev_le e wide a n)))

/-- The signed value of a number of `w` bits. -/
theorem toInt_ofNat_of_lt {w x : Nat} (hw : 0 < w) (h : x < 2 ^ w) :
    (BitVec.ofNat w x).toInt = if x < 2 ^ w / 2 then (x : Int) else (x : Int) - (2 ^ w : Nat) := by
  rw [BitVec.toInt_eq_toNat_cond, BitVec.toNat_ofNat, Nat.mod_eq_of_lt h]
  obtain ⟨w, rfl⟩ := Nat.exists_eq_add_one.mpr hw
  rw [Nat.pow_succ, Nat.mul_div_cancel _ (by decide)]
  by_cases hx : x < 2 ^ w
  · rw [if_pos (by omega), if_pos hx]
  · rw [if_neg (by omega), if_neg hx]

/-! ### How an atomic is answered (R242, R243) -/

section

variable {e : Eng} {code : Nat} {m : Fin 64} {addr : W64} {n : Nat} {op cmp : W128} {r : ReadRes}

theorem Eng.atomic_of_not_serving (h : e.serving = false) : e.atomic code m addr n op cmp r = (e, 1, 0) := by
  simp [Eng.atomic, h]

theorem Eng.atomic_of_bad_size (serving : e.serving = true) (size : n ∉ atomSizes code) :
    e.atomic code m addr n op cmp r = (e, 5, 0) := by
  simp [Eng.atomic, serving, size]

theorem Eng.atomic_of_misaligned (serving : e.serving = true) (size : n ∈ atomSizes code) (align : addr.toNat % n ≠ 0) :
    e.atomic code m addr n op cmp r = (e, 3, 0) := by
  simp [Eng.atomic, serving, size, align]

theorem Eng.atomic_of_refused {e' : Eng} (serving : e.serving = true) (size : n ∈ atomSizes code) (align : addr.toNat % n = 0)
    (check : e.check 3 m (code != 12) (code != 11) addr.toNat n = (e', false)) :
    e.atomic code m addr n op cmp r = (e', 2, 0) := by
  simp [Eng.atomic, serving, size, align, check]

/-- A granted atomic whose sector is there is done on the old value. -/
theorem Eng.atomic_of_granted (serving : e.serving = true) (size : n ∈ atomSizes code) (align : addr.toNat % n = 0)
    (check : e.check 3 m (code != 12) (code != 11) addr.toNat n = (e, true)) (answer : e.answer addr.toNat n .ok = .ok) {old : Nat}
    (value : old = leNat (e.rdDev false addr.toNat n)) :
    e.atomic code m addr n op cmp .ok =
      ((e.atomicTouch addr.toNat n (code != 12) (atomNew code n old op.toNat cmp.toNat) old).onSwd (·.count 5 1), 0,
        if code = 12 then 0 else BitVec.ofNat 128 old) := by
  subst value
  simp [Eng.atomic, serving, size, align, check, answer]

theorem Eng.atomicWaits_of_not_serving (h : e.serving = false) (a : Nat) : e.atomicWaits code a n = false := by
  simp [Eng.atomicWaits, h]

theorem Eng.atomicWaits_of_bad_size (h : n ∉ atomSizes code) (a : Nat) : e.atomicWaits code a n = false := by
  simp [Eng.atomicWaits, h]

theorem Eng.atomicWaits_of_sector {a : Nat} (h : e.sectorsWait [a / 64 * 64] = false) : e.atomicWaits code a n = false := by
  simp [Eng.atomicWaits, h]

/-- An atomic that is not done answers its code. -/
theorem Eng.carrierAtomic_of_not_done {e' : Eng} {c : BitVec 3} {v : W128} (waits : e.atomicWaits code addr.toNat n = false)
    (answer : e.atomic code m addr n op cmp r = (e', c, v)) (hc : c ≠ 0) :
    e.carrierAtomic code m addr n op cmp r = { e' with port := { e'.port with atomic := some (c, v) } } := by
  have done : (c == 0) = false := beq_false_of_ne hc
  simp only [Eng.carrierAtomic, waits, answer, done, Bool.false_and, Bool.false_eq_true, if_false]

/-- An atomic that is done answers the old value; only the host coupling's record of written pages can change with it (R259). -/
theorem Eng.carrierAtomic_of_done {e' : Eng} {v : W128} (waits : e.atomicWaits code addr.toNat n = false)
    (answer : e.atomic code m addr n op cmp r = (e', 0, v)) :
    ∃ h, e.carrierAtomic code m addr n op cmp r = { e' with hc := h, port := { e'.port with atomic := some (0, v) } } := by
  simp only [Eng.carrierAtomic, waits, answer]
  split
  · contradiction
  · split
    · exact ⟨_, rfl⟩
    · exact ⟨_, rfl⟩

end

/-- After a denial one is recorded (R353). -/
theorem Eng.deny_records (e : Eng) (m : Fin 64) (t : Nat) (r w z : Bool) (u : Nat) : (e.deny m t r w z u).acc.denyValid = true := by
  cases hv : e.acc.denyValid with
  | true => rw [Eng.deny_of_recorded hv]; exact hv
  | false => exact (Eng.deny_of_unrecorded hv m t r w z u).denyValid

/-- A refused check leaves a denial recorded (R353). -/
theorem check_records {e : Eng} {t : Nat} {m : Fin 64} {rd wr : Bool} {a n : Nat} (h : (e.check t m rd wr a n).2 = false) :
    (e.check t m rd wr a n).1.acc.denyValid = true := by
  unfold Eng.check at h ⊢
  split
  · exact Eng.deny_records _ _ _ _ _ _ _
  · split
    · simp_all
    · exact Eng.deny_records _ _ _ _ _ _ _

/-- A carrier atomic of a running engine is the sward's (R19). -/
theorem State.atomic_of_runs {s : State} (h : s.runs = true) (code : Nat) (m : Fin 64) (addr : W64) (n : Nat) (op cmp : W128)
    (r : ReadRes) : s.atomic code m addr n op cmp r = { s with eng := s.eng.carrierAtomic code m addr n op cmp r } := if_pos h

/-- The state in which an atomic is answered with code `c`, and nothing else changes. -/
def State.answers (s : State) (c : BitVec 3) : State :=
  { s with eng := { s.eng with port := { s.eng.port with atomic := some (c, 0) } } }

section

variable {s : State} {code : Nat} {m : Fin 64} {addr : W64} {n : Nat} {op cmp : W128}

/-- An engine that does not run, or whose sward does not serve, is not ready (R19, R364, R377). -/
theorem State.atomic_of_not_ready {r : ReadRes} (h : s.runs = false ∨ s.eng.serving = false) :
    s.atomic code m addr n op cmp r = s.answers 1 := by
  cases hr : s.runs with
  | false => simp [State.atomic, hr, State.answers]
  | true =>
    have serving := h.resolve_left (by simp [hr])
    rw [State.atomic_of_runs hr, Eng.carrierAtomic_of_not_done (Eng.atomicWaits_of_not_serving serving _)
      (Eng.atomic_of_not_serving serving) (by decide)]
    rfl

variable (runs : s.runs = true) (serving : s.eng.serving = true)

include runs serving

theorem State.atomic_of_bad_size {r : ReadRes} (size : n ∉ atomSizes code) : s.atomic code m addr n op cmp r = s.answers 5 := by
  rw [State.atomic_of_runs runs, Eng.carrierAtomic_of_not_done (Eng.atomicWaits_of_bad_size size _) (Eng.atomic_of_bad_size serving size)
    (by decide)]
  rfl

/-- An atomic whose sector needs a miss entry waits while none is left (R229). -/
theorem State.atomic_of_waits {r : ReadRes} (size : n ∈ atomSizes code)
    (waits : s.eng.sectorsWait [addr.toNat / 64 * 64] = true) : s.atomic code m addr n op cmp r = s := by
  rw [State.atomic_of_runs runs]
  simp [Eng.carrierAtomic, Eng.atomicWaits, serving, size, waits]

variable (size : n ∈ atomSizes code) (ready : s.eng.sectorsWait [addr.toNat / 64 * 64] = false)

include size ready

theorem State.atomic_of_misaligned {r : ReadRes} (align : addr.toNat % n ≠ 0) :
    s.atomic code m addr n op cmp r = s.answers 3 := by
  rw [State.atomic_of_runs runs, Eng.carrierAtomic_of_not_done (Eng.atomicWaits_of_sector ready)
    (Eng.atomic_of_misaligned serving size align) (by decide)]
  rfl

variable (align : addr.toNat % n = 0)

include align

/-- A refused atomic answers "denied", and the denial is recorded (R353). -/
theorem State.atomic_of_denied {r : ReadRes}
    (denied : s.eng.acc.firstDenied 3 m (code != 12) (code != 11) addr.toNat n ≠ none) :
    (s.atomic code m addr n op cmp r).eng.port.atomic = some (2, 0) ∧ (s.atomic code m addr n op cmp r).ao = s.ao ∧
      (s.atomic code m addr n op cmp r).eng.acc.denyValid = true := by
  have refused := check_of_denied denied
  rw [State.atomic_of_runs runs, Eng.carrierAtomic_of_not_done (Eng.atomicWaits_of_sector ready)
    (Eng.atomic_of_refused serving size align (Prod.ext rfl refused)) (by decide)]
  exact ⟨rfl, rfl, check_records refused⟩

/-- A granted atomic answers the old value and stores the new one; with no sward between, memory holds it (R242, R243). -/
theorem State.atomic_of_granted (hole : s.eng.mp.firstHole addr.toNat n = none)
    (granted : s.eng.acc.firstDenied 3 m (code != 12) (code != 11) addr.toNat n = none)
    (answer : s.eng.answer addr.toNat n .ok = .ok) {old : Nat} (value : old = leNat (s.eng.rdDev false addr.toNat n)) {t : State}
    (ht : t = s.atomic code m addr n op cmp .ok) :
    t.eng.port.atomic = some (0, if code = 12 then 0 else BitVec.ofNat 128 old) ∧ t.ao = s.ao ∧ t.eng.dirs = s.eng.dirs ∧
      t.eng.host = s.eng.host ∧ (s.eng.swd.enabled = false → s.eng.swd.lines = [] →
        t.eng.dev = match atomNew code n old op.toNat cmp.toNat with
          | some v => s.eng.dev.wrN addr.toNat (leBytes n v)
          | none => s.eng.dev) := by
  have touched := swardOnly_atomicTouch s.eng addr.toNat n (code != 12) (atomNew code n old op.toNat cmp.toNat) old
  obtain ⟨h, done⟩ := Eng.carrierAtomic_of_done (Eng.atomicWaits_of_sector ready)
    (Eng.atomic_of_granted (cmp := cmp) serving size align (check_of_granted (fun _ => hole) granted) answer value)
  rw [State.atomic_of_runs runs, done] at ht
  subst ht
  exact ⟨rfl, rfl, touched.dirs, touched.host, fun off lines => atomicTouch_dev_of_off off lines _ _ _ _ _⟩

end

/-! ### The thirteen atomics -/

/-- `c` is the carrier atomic `code`: it takes `sizes`, and stores what `new` makes of the old value. -/
structure IsAtomic (c : Instr) (code : Nat) (m : Fin 64) (addr : W64) (n : Nat) (op cmp : W128) (sizes : List Nat)
    (new : Nat → Option Nat) : Prop where
  exec : ∀ s, exec c s = .next (s.atomic code m addr n op cmp .ok)
  sizes : sizes = atomSizes code
  code_lt : code < 16
  new : n ∈ atomSizes code → ∀ old, old < 2 ^ (8 * n) → new old = atomNew code n old op.toNat cmp.toNat

theorem pos_of_mem_atomSizes {code n : Nat} (h : n ∈ atomSizes code) : 0 < n := by
  unfold atomSizes at h
  repeat' split at h
  all_goals simp at h
  all_goals omega

/-- The order of numbers as signed values of an atomic's size (R242). -/
theorem signed_lt_iff {code n x y : Nat} (hn : n ∈ atomSizes code) (hx : x < 2 ^ (8 * n)) (hy : y < 2 ^ (8 * n)) :
    (BitVec.ofNat (8 * n) x).toInt < (BitVec.ofNat (8 * n) y).toInt ↔
      (if x < 2 ^ (8 * n) / 2 then (x : Int) else (x : Int) - (2 ^ (8 * n) : Nat)) <
        (if y < 2 ^ (8 * n) / 2 then (y : Int) else (y : Int) - (2 ^ (8 * n) : Nat)) := by
  have hw : 0 < 8 * n := Nat.mul_pos (by decide) (pos_of_mem_atomSizes hn)
  rw [toInt_ofNat_of_lt hw hx, toInt_ofNat_of_lt hw hy]

end Sys2Proof.Machine
end

section
/-! SUPPORT. The links' ports: what sending frames leaves of a port (R284 to R290), what a port that loses light, lanes or its service
leaves (R281 to R283), and one lemma for each way in which a row of the link block goes. -/

namespace Sys2Proof.SMap

/-- A table changed and filtered by its values reads, at a key whose value is kept, as the change of what it read. -/
theorem get_filter_map {α : Type} (d : α) (keep : α → Bool) (f : α → α) (hd : f d = d) (m : SMap α) (k : Nat)
    (h : keep (f (get d m k)) = true) : get d ((m.map fun q => (q.1, f q.2)).filter fun q => keep q.2) k = f (get d m k) := by
  induction m with
  | nil => exact hd.symm
  | cons x m ih =>
    obtain ⟨j, v⟩ := x
    by_cases hk : k = j
    · subst hk
      simp only [get, if_true] at h ⊢
      rw [List.map_cons, List.filter_cons_of_pos (by exact h)]
      simp [get]
    · simp only [get, if_neg hk] at h ⊢
      by_cases hv : keep (f v) = true
      · rw [List.map_cons, List.filter_cons_of_pos (by exact hv)]
        simp only [get, if_neg hk]
        exact ih h
      · rw [List.map_cons, List.filter_cons_of_neg (by exact hv)]
        exact ih h

end Sys2Proof.SMap

namespace Sys2Proof.Machine

open Sys2Proof

/-! ### Fields of numbers, and rows of a running engine -/

theorem fld_low (x w : Nat) : fld x 0 w = x % 2 ^ w := by
  unfold fld
  rw [Nat.pow_zero, Nat.div_one]

theorem next_live {s : State} (runs : s.runs = true) {f : Eng → Eng} {e : Eng} (h : f s.eng = e) :
    (.next (s.live f) : Host.Outcome State Fault Refusal) = .next { s with eng := e } := by
  rw [State.live_of_runs runs, h]

/-- A row that leaves the engine leaves the state. -/
theorem next_live_same {s : State} {f : Eng → Eng} (h : f s.eng = s.eng) :
    (.next (s.live f) : Host.Outcome State Fault Refusal) = .next s := by
  unfold State.live
  rw [h]
  exact congrArg _ (ite_self _)

/-! ### Pairs and ports read as they were set -/

@[simp] theorem ZPort.pair_setPair_self (x : ZPort) (n : Nat) (q : Pair) : (x.setPair n q).pair n = q := SMap.get_set_self _ _ _ _

theorem ZPort.pair_setPair_ne (x : ZPort) {n k : Nat} (q : Pair) (h : k ≠ n) : (x.setPair n q).pair k = x.pair k :=
  SMap.get_set_ne _ _ _ h

@[simp] theorem ZPort.pair_onPair_self (x : ZPort) (n : Nat) (f : Pair → Pair) : (x.onPair n f).pair n = f (x.pair n) :=
  SMap.get_set_self _ _ _ _

theorem ZPort.pair_onPair_ne (x : ZPort) {n k : Nat} (f : Pair → Pair) (h : k ≠ n) : (x.onPair n f).pair k = x.pair k :=
  SMap.get_set_ne _ _ _ h

@[simp] theorem Eng.port_onPort_self (e : Eng) (p : Nat) (f : ZPort → ZPort) : (e.onPort p f).port' p = f (e.port' p) :=
  Eng.port_setPort_self _ _ _

@[simp] theorem Eng.port_countZw (e : Eng) (i n k : Nat) : (e.countZw i n).port' k = e.port' k := rfl
@[simp] theorem Eng.port_zwStatus (e : Eng) (b : BitVec 8) (k : Nat) : (e.zwStatus b).port' k = e.port' k := rfl
@[simp] theorem Eng.port_releaseLane (e : Eng) (p : Fin 8) (l : Fin 16) (k : Nat) : (e.releaseLane p l).port' k = e.port' k := rfl
@[simp] theorem Eng.port_holdLane (e : Eng) (p : Fin 8) (l : Fin 16) (k : Nat) : (e.holdLane p l).port' k = e.port' k := rfl

theorem Eng.Told.port' {e e' : Eng} (h : e.Told e') (k : Nat) : e'.port' k = e.port' k := by
  unfold Eng.port'
  rw [h.zw]

/-! ### What sending leaves of a port -/

/-- `y` is `x` with frames sent and cells returned: the service, the lanes and the keys stand; only a receive key's pending switch can
be done with (R286). -/
structure ZPort.Sent (x y : ZPort) : Prop where
  st : y.st = x.st
  pairs : y.pairs = x.pairs
  lanes : y.lanes = x.lanes
  moves : y.moves = x.moves
  integrity : y.integrity = x.integrity
  tx : y.tx = x.tx
  rx : x.rx.sw = none → y.rx = x.rx

theorem ZPort.Sent.refl (x : ZPort) : x.Sent x := ⟨rfl, rfl, rfl, rfl, rfl, rfl, fun _ => rfl⟩

theorem ZPort.Sent.trans {x y z : ZPort} (h : x.Sent y) (g : y.Sent z) : x.Sent z where
  st := g.st.trans h.st
  pairs := g.pairs.trans h.pairs
  lanes := g.lanes.trans h.lanes
  moves := g.moves.trans h.moves
  integrity := g.integrity.trans h.integrity
  tx := g.tx.trans h.tx
  rx hs := (g.rx (h.rx hs ▸ hs)).trans (h.rx hs)

theorem sent_emit (x : ZPort) (ms : List ZMsg) : x.Sent (x.emit ms) := by
  refine ⟨rfl, rfl, rfl, rfl, rfl, rfl, fun hs => ?_⟩
  simp [ZPort.emit, hs]

theorem sent_fill (n left : Nat) (x : ZPort) (ms : List ZMsg) : x.Sent (ZPort.fill n left x ms).1 := by
  induction n generalizing left x ms with
  | zero => exact .refl x
  | succ n ih =>
    rw [ZPort.fill]
    split
    · exact .refl x
    · extract_lets y
      have taken : x.Sent y := ⟨rfl, rfl, rfl, rfl, rfl, rfl, fun _ => rfl⟩
      exact taken.trans (ih _ _ _)

theorem sent_pump (n : Nat) (x : ZPort) : x.Sent (ZPort.pump n x).1 := by
  induction n generalizing x with
  | zero => exact .refl x
  | succ n ih =>
    rw [ZPort.pump]
    split
    · have filled := sent_fill (x.queue.length + x.fwd.length) (255 - ctlCells x.control) x []
      generalize ZPort.fill _ _ x [] = p at filled ⊢
      dsimp only
      split
      · exact .refl x
      · exact (filled.trans (sent_emit _ _)).trans (ih _)
    · exact .refl x

/-- Every port of `e'` is that of `e` with frames sent and cells returned; the calibration and the sweep stand. -/
structure Eng.Carries (e e' : Eng) : Prop where
  ports : ∀ k, (e.port' k).Sent (e'.port' k)
  cal : e'.zw.cal = e.zw.cal
  swp : e'.swp = e.swp

theorem Eng.Carries.refl (e : Eng) : e.Carries e := ⟨fun _ => .refl _, rfl, rfl⟩

theorem Eng.Carries.trans {a b c : Eng} (h : a.Carries b) (g : b.Carries c) : a.Carries c :=
  ⟨fun k => (h.ports k).trans (g.ports k), g.cal.trans h.cal, g.swp.trans h.swp⟩

/-- What leaves the table of ports leaves them all. -/
theorem carries_of_ports {e e' : Eng} (h : e'.zw.ports = e.zw.ports) (cal : e'.zw.cal = e.zw.cal) (swp : e'.swp = e.swp) :
    e.Carries e' := by
  refine ⟨fun k => ?_, cal, swp⟩
  unfold Eng.port'
  rw [h]
  exact .refl _

theorem carries_onZw {e : Eng} {f : Zw → Zw} (h : (f e.zw).ports = e.zw.ports) (cal : (f e.zw).cal = e.zw.cal) :
    e.Carries (e.onZw f) := carries_of_ports h cal rfl

theorem Eng.Told.carries {e e' : Eng} (h : e.Told e') : e.Carries e' :=
  carries_of_ports (congrArg Zw.ports h.zw) (congrArg Zw.cal h.zw) h.swp

theorem carries_foldl {α : Type} {f : Eng → α → Eng} (hf : ∀ (e : Eng) a, e.Carries (f e a)) (xs : List α) (e : Eng) :
    e.Carries (xs.foldl f e) := by
  induction xs generalizing e with
  | nil => exact .refl e
  | cons x xs ih => exact (hf e x).trans (ih _)

theorem carries_setPort {e : Eng} {p : Nat} {x : ZPort} (h : (e.port' p).Sent x) : e.Carries (e.setPort p x) := by
  refine ⟨fun k => ?_, rfl, rfl⟩
  rw [Eng.port_setPort]
  split
  · rename_i hk
    exact hk ▸ h
  · exact .refl _

theorem carries_owe (e : Eng) (m : ZMsg) : e.Carries (e.owe m) := by
  unfold Eng.owe
  split
  · split
    · exact carries_setPort ⟨rfl, rfl, rfl, rfl, rfl, rfl, fun _ => rfl⟩
    · exact .refl e
  · exact .refl e

theorem carries_pump (e : Eng) (p : Nat) : e.Carries (e.pump p) :=
  (carries_setPort (sent_pump _ _)).trans (carries_foldl carries_owe _ _)

theorem carries_forward (e : Eng) (m : ZMsg) : e.Carries (e.forward m) := by
  unfold Eng.forward
  split
  · exact carries_owe _ _
  · split
    · exact carries_of_ports rfl rfl rfl
    · refine (carries_setPort ?_).trans (carries_pump _ _)
      split <;> exact ⟨rfl, rfl, rfl, rfl, rfl, rfl, fun _ => rfl⟩

theorem carries_unstick (e : Eng) : e.Carries e.unstick := by
  unfold Eng.unstick
  exact (carries_onZw rfl rfl).trans (carries_foldl carries_forward _ _)

theorem carries_send (e : Eng) (d : Nat) (b : ZBody) (u : Purpose) : e.Carries (e.send d b u) := by
  unfold Eng.send
  split
  · exact carries_of_ports rfl rfl rfl
  · unfold Eng.sendNow
    extract_lets k n m e1 e2
    have kept : e.Carries e2 := by
      unfold e2
      split <;> exact carries_of_ports rfl rfl rfl
    exact kept.trans (carries_forward _ _)

theorem carries_cast (e : Eng) (m : ZMsg) (k : Option Nat) : e.Carries (e.cast m k) := by
  unfold Eng.cast
  split
  · exact .refl e
  · refine carries_foldl (fun e p => ?_) _ _
    dsimp only
    split
    · refine (carries_setPort ?_).trans (carries_pump _ _)
      exact ⟨rfl, rfl, rfl, rfl, rfl, rfl, fun _ => rfl⟩
    · exact .refl e

theorem see_frame (z : Zw) (m : ZMsg) : (z.see m).ports = z.ports ∧ (z.see m).cal = z.cal := by
  unfold Zw.see
  split <;> exact ⟨rfl, rfl⟩

theorem carries_flood (e : Eng) (b : ZBody) : e.Carries (e.flood b) := by
  unfold Eng.flood
  exact (carries_onZw (see_frame _ _).1 (see_frame _ _).2).trans (carries_cast _ _ _)

/-- A port without messages to send sends none. -/
theorem pump_of_idle {e : Eng} {p : Nat} (queue : (e.port' p).queue = []) (fwd : (e.port' p).fwd = []) :
    e.pump p = e.setPort p (e.port' p) := by
  simp [Eng.pump, queue, fwd, ZPort.pump]

/-! ### A port that sheds lanes -/

/-- `y` is `x` with lanes, moves or its service shed: what was bad or out of service stays so, and the keys stand. -/
structure ZPort.Sheds (x y : ZPort) : Prop where
  bad : ∀ n, (x.pair n).bad = true → (y.pair n).bad = true
  lanes : ∀ l, x.lanes.get none l = none → y.lanes.get none l = none
  moves : ∀ m ∈ y.moves, m ∈ x.moves
  integrity : y.integrity = x.integrity
  tx : y.tx = x.tx
  rx : x.rx.sw = none → y.rx = x.rx

theorem ZPort.Sent.sheds {x y : ZPort} (h : x.Sent y) : x.Sheds y where
  bad n := by unfold ZPort.pair; rw [h.pairs]; exact id
  lanes l := by rw [h.lanes]; exact id
  moves m hm := h.moves ▸ hm
  integrity := h.integrity
  tx := h.tx
  rx := h.rx

theorem ZPort.Sheds.trans {x y z : ZPort} (h : x.Sheds y) (g : y.Sheds z) : x.Sheds z where
  bad n hn := g.bad n (h.bad n hn)
  lanes l hl := g.lanes l (h.lanes l hl)
  moves m hm := h.moves m (g.moves m hm)
  integrity := g.integrity.trans h.integrity
  tx := g.tx.trans h.tx
  rx hs := (g.rx (h.rx hs ▸ hs)).trans (h.rx hs)

/-- A pair without light, with what is kept of it while its port is down. -/
def Pair.down (q : Pair) : Pair := { q with safety := .off, tune := .idle, seen := false, unc := [] }

/-- A port as it goes down (R283). -/
def ZPort.downed (x : ZPort) : ZPort :=
  { x with st := .down, noKey := false, pairs := (x.pairs.map fun q => (q.1, q.2.down)).filter (·.2 != {}), lanes := [], moves := [],
           queue := [], fwd := [], replay := [], credit := [], owed := [], nak := false, ctls := [], reports := [] }

theorem sheds_downed (x : ZPort) : x.Sheds x.downed where
  bad n hn := by
    have kept : (x.pair n).down != {} := by
      simp only [bne_iff_ne, ne_eq]
      intro h
      have : (x.pair n).down.bad = false := h ▸ rfl
      exact absurd (hn.symm.trans this) (by decide)
    have read : x.downed.pair n = (x.pair n).down :=
      SMap.get_filter_map ({} : Pair) (fun v => v != {}) Pair.down rfl x.pairs n kept
    rw [read]
    exact hn
  lanes _ _ := rfl
  moves _ hm := nomatch hm
  integrity := rfl
  tx := rfl
  rx _ := rfl

/-- A port that is down when the receive buffer of a port is given up stands but for the messages that wait in it (R283). -/
theorem port_disown {z : Zw} {p k : Nat} (h : (z.ports.get {} k).st = .down) :
    (z.disown p).ports.get {} k = { z.ports.get {} k with fwd := (z.ports.get {} k).fwd.map (disown p) } := by
  refine SMap.get_filter_map {} (fun y => decide (y ≠ {})) (fun x => { x with fwd := x.fwd.map (disown p) }) rfl z.ports k ?_
  simp only [decide_eq_true_eq]
  intro hc
  have : PSt.down = .dark := h.symm.trans (congrArg ZPort.st hc)
  cases this

theorem port_releaseLanes (p : Fin 8) (ls : List (Fin 16)) (e : Eng) (k : Nat) :
    (ls.foldl (fun e l => e.releaseLane p l) e).port' k = e.port' k := by
  induction ls generalizing e with
  | nil => rfl
  | cons l ls ih => exact ih _

/-- Releasing lanes holds none (R18). -/
theorem moving_releaseLanes (p : Fin 8) (ls : List (Fin 16)) (e : Eng) :
    (ls.foldl (fun e l => e.releaseLane p l) e).swp.moving ⊆ e.swp.moving := by
  induction ls generalizing e with
  | nil => exact List.Subset.refl _
  | cons l ls ih => exact List.Subset.trans (ih _) (List.filter_subset_self _)

/-- A port that goes down (R283): what it then sends for others leaves it down, and no lane's hold begins. -/
theorem portDown_of_up {e : Eng} {p : Fin 8} (up : ¬ ((e.port' p).st = .down ∨ (e.port' p).st = .dark)) (c : Nat) :
    (e.port' p).downed.Sent ((e.portDown p c).port' p) ∧ (e.portDown p c).swp.moving ⊆ e.swp.moving := by
  unfold Eng.portDown
  extract_lets x lanes dark y e1 e2 e3 e4
  rw [if_neg up]
  have port1 : e1.port' p = x.downed := (port_releaseLanes p _ _ _).trans (Eng.port_setPort_self _ _ _)
  have port2 : e2.port' p = x.downed := by
    refine (port_disown (z := e1.zw) (p := p) (k := p) (congrArg ZPort.st port1)).trans ?_
    rw [show e1.zw.ports.get {} p = x.downed from port1]
    rfl
  have moved : e2.swp.moving ⊆ e.swp.moving := moving_releaseLanes p _ _
  suffices h : e2.Carries _ from ⟨port2 ▸ h.ports p, h.swp.symm ▸ moved⟩
  have sent : e2.Carries e4 := (told_postEvt _ _ _ _ _).carries.trans (carries_foldl carries_forward _ _)
  refine sent.trans ?_
  split
  · split
    · exact .refl e4
    · dsimp only
      split
      · exact carries_onZw rfl rfl
      · split
        · exact carries_send _ _ _ _
        · exact carries_flood _ _
  · exact .refl e4

/-- A port that goes down, if it does, sheds lanes. -/
theorem portDown_sheds (e : Eng) (p : Fin 8) (c : Nat) :
    (e.port' p).Sheds ((e.portDown p c).port' p) ∧ (e.portDown p c).swp.moving ⊆ e.swp.moving := by
  by_cases up : (e.port' p).st = .down ∨ (e.port' p).st = .dark
  · have stands : e.portDown p c = e := if_pos up
    rw [stands]
    exact ⟨(ZPort.Sent.refl _).sheds, List.Subset.refl _⟩
  · obtain ⟨down, moving⟩ := portDown_of_up up c
    exact ⟨(sheds_downed _).trans down.sheds, moving⟩

/-! ### Lanes that leave service, and moves that fail (R281 to R283) -/

/-- A port without one of its lanes. -/
def ZPort.dropped (x : ZPort) (lane : Nat) : ZPort := { x with lanes := x.lanes.set none lane none }

theorem ZPort.lanes_dropped (x : ZPort) (lane : Nat) : (x.dropped lane).lanes.get none lane = none :=
  SMap.get_set_self none x.lanes lane none

theorem dropLane_sheds (e : Eng) (p : Fin 8) (lane : Nat) :
    ((e.port' p).dropped lane).Sheds ((e.dropLane p lane).port' p) ∧ (e.dropLane p lane).swp.moving ⊆ e.swp.moving := by
  unfold Eng.dropLane
  extract_lets e1
  have port : e1.port' p = (e.port' p).dropped lane := Eng.port_onPort_self _ _ _
  rw [← port]
  split
  · exact portDown_sheds e1 p 0
  · exact ⟨(ZPort.Sent.refl _).sheds, List.Subset.refl _⟩

/-- A port as a move of it fails (R282): the spare and the pair are retired. -/
def ZPort.failed (x : ZPort) (m : Move) : ZPort :=
  ({ x.onPair m.spare Pair.retire with moves := x.moves.filter (·.lane != m.lane) } : ZPort).onPair m.src Pair.retire

theorem failed_bad (x : ZPort) (m : Move) : ((x.failed m).pair m.src).bad = true ∧ ((x.failed m).pair m.spare).bad = true := by
  have src : ((x.failed m).pair m.src).bad = true := congrArg Pair.bad (ZPort.pair_onPair_self _ _ _)
  refine ⟨src, ?_⟩
  by_cases h : m.spare.val = m.src.val
  · rw [h]; exact src
  · have spare : ((x.onPair m.spare Pair.retire).pair m.spare).bad = true := congrArg Pair.bad (ZPort.pair_onPair_self _ _ _)
    exact (congrArg Pair.bad (ZPort.pair_onPair_ne _ _ h)).trans spare

/-- A move that fails (R282): both pairs are retired, the lane is out of service and no longer on the move, and its hold ends. -/
theorem moveFail_port (e : Eng) (p : Fin 8) (m : Move) {y : ZPort} (hy : y = (e.moveFail p m).port' p) :
    (y.pair m.src).bad = true ∧ (y.pair m.spare).bad = true ∧ y.lanes.get none m.lane = none ∧
      (∀ z ∈ y.moves, z.lane ≠ m.lane) ∧ (p, m.lane) ∉ (e.moveFail p m).swp.moving := by
  subst hy
  unfold Eng.moveFail
  extract_lets e1 e2
  obtain ⟨sheds, moving⟩ := dropLane_sheds (e2.releaseLane p m.lane) p m.lane
  have port : (e2.releaseLane p m.lane).port' p = (e.port' p).failed m := by
    simp only [e2, e1, Eng.port_releaseLane, Eng.port_zwStatus, Eng.port_onPort_self]
    rfl
  rw [port] at sheds
  obtain ⟨src, spare⟩ := failed_bad (e.port' p) m
  refine ⟨sheds.bad _ src, sheds.bad _ spare, sheds.lanes _ (ZPort.lanes_dropped _ _), fun z hz => ?_, fun hm => ?_⟩
  · have kept := List.mem_filter.mp (sheds.moves z hz)
    simpa using kept.2
  · have kept := List.mem_filter.mp (moving hm)
    simp at kept

/-! ### Calibration (R279, R281) -/

/-- Of a change made step by step, one step alone counts. -/
theorem foldl_of_once {α β : Type} {f : β → α → β} {b : β} {a : α} {xs : List α} (once : xs.Nodup) (mem : a ∈ xs)
    (before : ∀ x, x ≠ a → f b x = b) (after : ∀ x, x ≠ a → f (f b a) x = f b a) : xs.foldl f b = f b a := by
  have stands {c : β} {ys : List α} (h : ∀ x, x ≠ a → f c x = c) (ha : a ∉ ys) : ys.foldl f c = c := by
    induction ys with
    | nil => rfl
    | cons y ys ih =>
      rw [List.foldl_cons, h y fun hy => ha (hy ▸ .head _)]
      exact ih fun hm => ha (.tail _ hm)
  obtain ⟨pre, post, rfl⟩ := List.append_of_mem mem
  obtain ⟨-, hpost, apart⟩ := List.nodup_append.mp once
  rw [List.foldl_append, stands before fun hm => apart a hm a (.head _) rfl, List.foldl_cons,
    stands after (List.nodup_cons.mp hpost).1]

/-- A lit pair lost lock or lacks headroom: it needs moving (R281). -/
def Eng.weak (e : Eng) (p : Fin 8) (lost : Fin 18 → Bool) (n : Fin 18) : Bool :=
  ((e.port' p).pair n).safety == .lit && (lost n || decide (((e.port' p).pair n).head < fld e.zw.cal.toNat 0 7))

theorem weak_eq_false {e : Eng} {p : Fin 8} {lost : Fin 18 → Bool} {n : Fin 18}
    (h : ((e.port' p).pair n).safety = .lit → lost n = false ∧ e.zw.cal.toNat % 128 ≤ ((e.port' p).pair n).head) :
    e.weak p lost n = false := by
  unfold Eng.weak
  by_cases lit : ((e.port' p).pair n).safety = .lit
  · obtain ⟨locked, head⟩ := h lit
    simp [locked, fld_low, head]
  · simp [lit]

/-- The pairs in need are moved one after the other. -/
theorem moveWeak_eq (e : Eng) (p : Fin 8) (lost : Fin 18 → Bool) :
    e.moveWeak p lost = (List.finRange 18).foldl (fun e n => if e.weak p lost n = true then e.needsMoving p n false else e) e := rfl

/-- While every lit pair has lock and headroom, none is moved. -/
theorem moveWeak_of_strong {e : Eng} {p : Fin 8} {lost : Fin 18 → Bool}
    (h : ∀ n : Fin 18, ((e.port' p).pair n).safety = .lit → lost n = false ∧ e.zw.cal.toNat % 128 ≤ ((e.port' p).pair n).head) :
    e.moveWeak p lost = e := by
  rw [moveWeak_eq]
  exact List.foldl_fixed' (fun n => if_neg (by rw [weak_eq_false (h n)]; decide)) _

/-- Where one pair alone needs moving, and moving it leaves the others their lock and headroom, it is the one that is moved. -/
theorem moveWeak_of_one {e e' : Eng} {p : Fin 8} {lost : Fin 18 → Bool} {n : Fin 18} (moved : e.needsMoving p n false = e')
    (pairs : (e'.port' p).pairs = (e.port' p).pairs) (cal : e'.zw.cal = e.zw.cal) (lit : ((e.port' p).pair n).safety = .lit)
    (gone : lost n = true)
    (others : ∀ k : Fin 18, k ≠ n → ((e.port' p).pair k).safety = .lit →
      lost k = false ∧ e.zw.cal.toNat % 128 ≤ ((e.port' p).pair k).head) : e.moveWeak p lost = e' := by
  have same (k : Nat) : (e'.port' p).pair k = (e.port' p).pair k := by unfold ZPort.pair; rw [pairs]
  have needs : e.weak p lost n = true := by simp [Eng.weak, lit, gone]
  have step : (if e.weak p lost n then e.needsMoving p n false else e) = e' := (if_pos needs).trans moved
  rw [moveWeak_eq, ← step]
  refine foldl_of_once (List.nodup_finRange 18) (List.mem_finRange n) (fun k hk => if_neg ?_) (fun k hk => if_neg ?_)
  · rw [weak_eq_false (others k hk)]; decide
  · rw [step, weak_eq_false fun hl => by rw [same, cal]; exact others k hk (same k ▸ hl)]; decide

theorem pilotLost_eq_false {b : Pilot} (rx : b.rxDetune.natAbs * 480 ≤ 81920) (far : b.farDetune.natAbs * 480 ≤ 81920) :
    pilotLost b = false := by
  simp [pilotLost, beyond, rx, far]

theorem pilotLost_eq_true {b : Pilot} (h : 81920 < b.rxDetune.natAbs * 480 ∨ 81920 < b.farDetune.natAbs * 480) :
    pilotLost b = true := by
  simpa [pilotLost, beyond] using h

/-- A port whose lit pair a pilot block measured (R279): the filter ring's heater is corrected, the far ring's detuning is due to be
reported. -/
def ZPort.piloted (x : ZPort) (b : Pilot) : ZPort :=
  let q : Pair := { x.pair b.pair with rx := correct (x.pair b.pair).rx b.rxDetune }
  { x.setPair b.pair q with
    reports := (x.reports.filter fun r => r.pair != b.pair) ++ [{ pair := b.pair, codes := b.farDetune, head := q.own }] }

/-- A pilot block of one lit pair, while no lane is on the move. -/
theorem pilotBlock_of_lit {e : Eng} {p : Fin 8} {b : Pilot} (live : (e.port' p).st = .live) (moves : (e.port' p).moves = [])
    (lit : ((e.port' p).pair b.pair).safety = .lit) :
    e.pilotBlock p [b] = (e.setPort p ((e.port' p).piloted b)).moveWeak p fun n => b.pair == n && pilotLost b := by
  unfold Eng.pilotBlock
  rw [if_neg (not_not_intro live)]
  extract_lets fix e1 e2
  have fixes : fix (e.port' p) b = (e.port' p).piloted b := by
    unfold fix
    rw [if_pos lit]
    simp only [ZPort.pair_onPair_self]
    rfl
  have fixed : e1 = e.setPort p ((e.port' p).piloted b) := congrArg (e.setPort p) fixes
  have still : (e1.port' p).moves = [] := by
    rw [fixed, Eng.port_setPort_self]
    exact moves
  have stands : e2 = e1 := by
    unfold e2
    rw [still]
    rfl
  rw [stands, fixed]
  simp only [List.any_cons, List.any_nil, Bool.or_false]

/-! ### Moves to a spare (R281, R282) -/

/-- A pair that is probed (R276). -/
def Pair.probing (q : Pair) : Pair := { q with safety := .probe, tune := .idle }

/-- A move as it begins. -/
def Eng.newMove (e : Eng) (lane : Fin 16) (n s : Fin 18) (mine dark : Bool) : Move :=
  { lane := lane, src := n, spare := s, mine := mine, begun := !mine, dark := dark, swAt := none, switched := false,
    since := e.hth.time }

section

variable (e : Eng) (p : Fin 8) (lane : Fin 16) (n s : Fin 18) (mine dark : Bool)

theorem moveStart_mine_port : (e.moveStart p lane n s true dark).port' p =
    { e.port' p with moves := (e.port' p).moves ++ [e.newMove lane n s true dark], ctls := (e.port' p).ctls ++ [.request lane] } := by
  simp only [Eng.moveStart, Eng.port_countZw, Eng.port_holdLane, Eng.port_onPort_self]
  rfl

theorem moveStart_theirs_port : (e.moveStart p lane n s false dark).port' p =
    { (e.port' p).onPair s Pair.probing with
      moves := (e.port' p).moves ++ [e.newMove lane n s false dark], ctls := (e.port' p).ctls ++ [.ack lane] } := by
  simp only [Eng.moveStart, Eng.port_countZw, Eng.port_holdLane, Eng.port_onPort_self]
  rfl

theorem moveStart_theirs_pair :
    ((e.moveStart p lane n s false dark).port' p).pair s = ((e.port' p).pair s).probing := by
  rw [moveStart_theirs_port]
  exact ZPort.pair_onPair_self (e.port' p) s Pair.probing

/-- A lane on the move holds the sweep (R18). -/
theorem moveStart_moving : (p, lane) ∈ (e.moveStart p lane n s mine dark).swp.moving := by
  show (p, lane) ∈ if e.swp.moving.contains (p, lane) then e.swp.moving else e.swp.moving ++ [(p, lane)]
  split
  · rename_i h
    exact List.contains_iff_mem.mp h
  · exact List.mem_append_right _ (.head _)

end

/-- A working pair in need whose fibre's spare is free is moved there. -/
theorem needsMoving_of_spare {e : Eng} {p : Fin 8} {n s : Fin 18} {l : Fin 16} (live : (e.port' p).st = .live)
    (lane : (e.port' p).laneUsing n = some l.val) (moves : (e.port' p).moves = []) (works : n.val % 9 ≠ 8)
    (spare : s.val = 9 * (n.val / 9) + 8) (free : (e.port' p).spareFree s = true) :
    e.needsMoving p n false = e.moveStart p l n s true false := by
  unfold Eng.needsMoving
  obtain ⟨i, hi⟩ := s
  obtain rfl : i = 9 * (n.val / 9) + 8 := spare
  have spares : (!isSpare n && (e.port' p).spareFree (9 * (n.val / 9) + 8)) = true := by
    rw [free]
    simp [isSpare, works]
  simp only [lane, moves]
  rw [dif_pos l.isLt, if_pos spares]
  simp only [List.any_nil, Bool.false_eq_true, if_false, live, if_true]

theorem ZPort.pair_piloted_self (x : ZPort) (b : Pilot) :
    (x.piloted b).pair b.pair = { x.pair b.pair with rx := correct (x.pair b.pair).rx b.rxDetune } := ZPort.pair_setPair_self _ _ _

theorem ZPort.pair_piloted_ne (x : ZPort) (b : Pilot) {k : Nat} (h : k ≠ b.pair) : (x.piloted b).pair k = x.pair k :=
  ZPort.pair_setPair_ne _ _ h

/-- A measurement within capture, of a port whose lit pairs keep their headroom, corrects the filter ring alone (R279). -/
theorem pilotBlock_of_captured {e : Eng} {p : Fin 8} {b : Pilot} (captured : pilotLost b = false) (live : (e.port' p).st = .live)
    (moves : (e.port' p).moves = []) (lit : ((e.port' p).pair b.pair).safety = .lit)
    (head : e.zw.cal.toNat % 128 ≤ (((e.port' p).piloted b).pair b.pair).head)
    (others : ∀ n : Fin 18, n ≠ b.pair → ((e.port' p).pair n).safety = .lit → e.zw.cal.toNat % 128 ≤ ((e.port' p).pair n).head) :
    e.pilotBlock p [b] = e.setPort p ((e.port' p).piloted b) := by
  refine (pilotBlock_of_lit live moves lit).trans (moveWeak_of_strong fun n hn => ⟨by rw [captured, Bool.and_false], ?_⟩)
  rw [Eng.port_setPort_self] at hn ⊢
  by_cases h : n = b.pair
  · exact h ▸ head
  · rw [ZPort.pair_piloted_ne _ _ (Fin.val_ne_of_ne h)] at hn ⊢
    exact others n h hn

/-- A pair found out of capture is moved to its fibre's spare (R281, R282). -/
theorem pilotBlock_of_lost {e : Eng} {p : Fin 8} {b : Pilot} {s : Fin 18} {l : Fin 16} (gone : pilotLost b = true)
    (live : (e.port' p).st = .live) (moves : (e.port' p).moves = []) (lit : ((e.port' p).pair b.pair).safety = .lit)
    (lane : (e.port' p).laneUsing b.pair = some l.val) (works : b.pair.val % 9 ≠ 8) (spare : s.val = 9 * (b.pair.val / 9) + 8)
    (free : (e.port' p).spareFree s = true)
    (others : ∀ n : Fin 18, n ≠ b.pair → ((e.port' p).pair n).safety = .lit → e.zw.cal.toNat % 128 ≤ ((e.port' p).pair n).head) :
    e.pilotBlock p [b] = (e.setPort p ((e.port' p).piloted b)).moveStart p l b.pair s true false := by
  have port : (e.setPort p ((e.port' p).piloted b)).port' p = (e.port' p).piloted b := Eng.port_setPort_self _ _ _
  have apart : s.val ≠ b.pair.val := by omega
  have stillFree : ((e.port' p).piloted b).spareFree s = true := by
    unfold ZPort.spareFree at free ⊢
    rw [ZPort.pair_piloted_ne _ _ apart]
    exact free
  have stillLit : (((e.port' p).piloted b).pair b.pair).safety = .lit := by
    rw [ZPort.pair_piloted_self]
    exact lit
  refine (pilotBlock_of_lit live moves lit).trans (moveWeak_of_one (n := b.pair)
    (needsMoving_of_spare (by rw [port]; exact live) (by rw [port]; exact lane) (by rw [port]; exact moves) works spare
      (by rw [port]; exact stillFree))
    (by rw [moveStart_mine_port]) rfl (by rw [port]; exact stillLit) (by rw [beq_self_eq_true, gone]; rfl) fun n hn hl => ?_)
  rw [port, ZPort.pair_piloted_ne _ _ (Fin.val_ne_of_ne hn)] at hl ⊢
  exact ⟨by rw [beq_eq_false_iff_ne.mpr (Ne.symm hn), Bool.false_and], others n hn hl⟩

/-- The far end's request for a lane whose fibre's spare is free is acknowledged (R282). -/
theorem moveRequest_of_spare {e : Eng} {p : Fin 8} {lane : Fin 16} {n s : Fin 18} (live : (e.port' p).st = .live)
    (lanes : (e.port' p).lanes.get none lane = some n.val) (still : (e.port' p).moveOf lane = none)
    (spare : s.val = if lane.val < 8 then 8 else 17) (free : (e.port' p).spareFree s = true) :
    e.moveRequest p lane = e.moveStart p lane n s false false := by
  have hs : s = if lane.val < 8 then 8 else 17 := by
    apply Fin.ext
    rw [spare]
    split <;> rfl
  subst hs
  unfold Eng.moveRequest
  simp only [lanes, still]
  rw [dif_pos n.isLt, if_pos ⟨live, free⟩]

/-- A move is its lane's. -/
theorem lane_of_moveOf {x : ZPort} {lane : Fin 16} {m : Move} (h : x.moveOf lane = some m) : m.lane = lane := by
  have := List.find?_some h
  exact Fin.ext (by simpa using this)

/-- A lane is not switched before a frame is agreed and its spare has trained. -/
theorem laneSwitch_of_unready {e : Eng} {p : Fin 8} {lane : Fin 16} {m : Move} (move : (e.port' p).moveOf lane = some m)
    (h : m.swAt = none ∨ ((e.port' p).pair m.spare).tune ≠ .trained) : e.laneSwitch p lane = e := by
  unfold Eng.laneSwitch
  simp only [move]
  exact if_pos (.inr (h.imp (fun n => by rw [n]; rfl) id))

/-- A port whose lane has switched to its spare. -/
def ZPort.switchedTo (x : ZPort) (lane : Fin 16) (m : Move) : ZPort :=
  let y := (x.onPair m.src Pair.retire).onPair m.spare fun q => { q with taken := true }
  { y with lanes := y.lanes.set none lane (some m.spare.val),
           moves := y.moves.map fun z => if z.lane == lane then { z with switched := true } else z }

theorem laneSwitch_of_ready {e : Eng} {p : Fin 8} {lane : Fin 16} {m : Move} (move : (e.port' p).moveOf lane = some m)
    (before : m.switched = false) (agreed : m.swAt ≠ none) (trained : ((e.port' p).pair m.spare).tune = .trained) :
    e.laneSwitch p lane = (e.setPort p ((e.port' p).switchedTo lane m)).zwStatus 0x04 := by
  have ready : ¬ (m.switched = true ∨ m.swAt.isNone = true ∨ ((e.port' p).pair m.spare).tune ≠ .trained) := by
    simp [before, agreed, trained]
  unfold Eng.laneSwitch
  simp only [move]
  rw [if_neg ready]
  rfl

theorem ZPort.lanes_switchedTo (x : ZPort) (lane : Fin 16) (m : Move) :
    (x.switchedTo lane m).lanes.get none lane = some m.spare.val :=
  SMap.get_set_self none x.lanes lane (some m.spare.val)

/-- The old pair is used, the spare taken. -/
theorem ZPort.pairs_switchedTo (x : ZPort) (lane : Fin 16) (m : Move) :
    ((x.switchedTo lane m).pair m.src).bad = true ∧ ((x.switchedTo lane m).pair m.spare).taken = true := by
  show ((((x.onPair m.src Pair.retire).onPair m.spare fun q => { q with taken := true }).pair m.src).bad = true) ∧
    ((((x.onPair m.src Pair.retire).onPair m.spare fun q => { q with taken := true }).pair m.spare).taken = true)
  have src : ((x.onPair m.src Pair.retire).pair m.src).bad = true := congrArg Pair.bad (ZPort.pair_onPair_self _ _ _)
  refine ⟨?_, by rw [ZPort.pair_onPair_self]⟩
  by_cases h : m.src.val = m.spare.val
  · rw [← h, ZPort.pair_onPair_self]
    exact src
  · rw [ZPort.pair_onPair_ne _ _ h]
    exact src

theorem moveTimeout_of_late {e : Eng} {p : Fin 8} {lane : Fin 16} {m : Move} (move : (e.port' p).moveOf lane = some m)
    (before : m.switched = false) (late : m.since.toNat + 1000 * (e.zw.cal.toNat / 2 ^ 16) ≤ e.hth.time.toNat) :
    e.moveTimeout p lane = e.moveFail p m := by
  have field : fld e.zw.cal.toNat 16 16 = e.zw.cal.toNat / 2 ^ 16 := Nat.mod_eq_of_lt (by have := e.zw.cal.isLt; omega)
  unfold Eng.moveTimeout
  simp only [move, field]
  exact if_neg fun h => h.elim (by rw [before]; decide) late.not_gt

/-- A status bit that was set reads as set. -/
theorem status_zwStatus (e : Eng) {b : BitVec 8} {i : Nat} (h : b.getLsbD i = true) : (e.zwStatus b).zw.status.getLsbD i = true := by
  show (e.zw.status ||| b).getLsbD i = true
  rw [BitVec.getLsbD_or, h, Bool.or_true]

/-! ### Frames (R284, R285, R287) -/

/-- The engine after it counted a frame's codewords, none of them uncorrectable (R295). -/
def Eng.counted (e : Eng) (f : ZFrame) : Eng := (e.countZw 0 f.corrected).countZw 1 0

section

variable {e : Eng} {p : Fin 8} {f : ZFrame} (live : (e.port' p).st = .live) (clean : f.uncorrLanes = [])

include live clean

/-- A frame that its FEC lost, or that came too early, is asked for again (R285). -/
theorem frameReceive_of_bad_or_ahead (bad : f.fecOk = false ∨ (f.tagOk = true ∧ (e.port' p).rxNext < f.num.toNat)) :
    e.frameReceive p f = (e.counted f).setPort p { e.port' p with nak := true } := by
  cases fec : f.fecOk with
  | false => simp [Eng.frameReceive, live, clean, Eng.uncWords, Eng.counted, Eng.onPort, fec]
  | true =>
    obtain ⟨tag, ahead⟩ := bad.resolve_left (by simp [fec])
    simp [Eng.frameReceive, live, clean, Eng.uncWords, Eng.counted, Eng.onPort, fec, tag, ahead.not_gt, ahead.ne']

variable (fec : f.fecOk = true)

include fec

/-- A frame whose tag fails is counted by its number (R287). -/
def ZPort.untagged (x : ZPort) (n : Nat) : ZPort := { x with nak := true, bad := x.bad.set 0 n (x.bad.get 0 n + 1) }

theorem frameReceive_of_bad_tag (tag : f.tagOk = false) (few : (e.port' p).bad.get 0 f.num.toNat < 7) :
    e.frameReceive p f = ((e.counted f).setPort p ((e.port' p).untagged f.num.toNat)).countZw 2 1 := by
  simp [Eng.frameReceive, live, clean, Eng.uncWords, Eng.counted, Eng.onPort, ZPort.untagged, fec, tag, few.not_ge]

/-- The eighth failure of one frame's tag takes the port down (R287). -/
theorem frameReceive_of_eighth_bad_tag (tag : f.tagOk = false) (seven : (e.port' p).bad.get 0 f.num.toNat = 7) :
    ((e.frameReceive p f).port' p).st = .down ∧ ((e.frameReceive p f).port' p).integrity = true := by
  obtain ⟨u, hu, down⟩ : ∃ u, u = (((e.counted f).setPort p ((e.port' p).untagged f.num.toNat)).countZw 2 1).onPort p (fun x =>
      { x with integrity := true }) ∧ e.frameReceive p f = (u.portDown p 2).postEvt 9 p 0x0901 f.num.toNat := by
    refine ⟨_, rfl, ?_⟩
    simp [Eng.frameReceive, live, clean, Eng.uncWords, Eng.counted, Eng.onPort, ZPort.untagged, fec, tag, seven]
  have port : u.port' p = { (e.port' p).untagged f.num.toNat with integrity := true } := by
    rw [hu]
    simp
  have up : ¬ ((u.port' p).st = .down ∨ (u.port' p).st = .dark) := by
    rw [port]
    simp [ZPort.untagged, live]
  have sent := (portDown_of_up up 2).1.trans ((told_postEvt _ 9 p 0x0901 f.num.toNat).carries.ports p)
  rw [← down] at sent
  exact ⟨sent.st, sent.integrity.trans (congrArg ZPort.integrity port)⟩

theorem frameReceive_of_old (tag : f.tagOk = true) (old : f.num.toNat < (e.port' p).rxNext) :
    e.frameReceive p f = (e.counted f).setPort p { e.port' p with bad := (e.port' p).bad.set 0 f.num.toNat 0 } := by
  simp [Eng.frameReceive, live, clean, Eng.uncWords, Eng.counted, Eng.onPort, fec, tag, old]

theorem frameReceive_of_next (tag : f.tagOk = true) (next : f.num.toNat = (e.port' p).rxNext) :
    e.frameReceive p f = (e.counted f).acceptFrame p f := by
  simp [Eng.frameReceive, live, clean, Eng.uncWords, Eng.counted, fec, tag, next]

end

/-! ### Messages that arrive (R143, R289, R292) -/

/-- A read request of a peer. -/
def isReadReq (m : ZMsg) : Bool := match m.body with
  | .readReq .. => true
  | _ => false

theorem isReadReq_eq_false {m : ZMsg} (h : ∀ a b c, m.body ≠ .readReq a b c) : isReadReq m = false := by
  unfold isReadReq
  split
  · rename_i hb
    exact absurd hb (h _ _ _)
  · rfl

/-- Sectors that a message asks for. -/
def readSectors (m : ZMsg) : Nat := match m.body with
  | .readReq _ _ n => n.toNat + 1
  | _ => 0

/-- The oldest read request moves into the lowest serve buffer with room (log entry 199). -/
theorem serveFill'_succ (n : Nat) (e : Eng) :
    Eng.serveFill' (n + 1) e = match e.zw.inbox.find? isReadReq with
      | none => e
      | some m => match (List.finRange 64).find? fun gl => decide (e.gln.serving gl + readSectors m ≤ 256) with
        | none => e
        | some gl => Eng.serveFill' n ((e.takeOf isReadReq).1.onGln fun g =>
            { g with serve := g.serve ++ [(gl, { m with arr := none })] }) := rfl

/-- Without a read request the serve buffers take nothing. -/
theorem serveFill'_of_no_read {e : Eng} (h : ∀ y ∈ e.zw.inbox, isReadReq y = false) (n : Nat) : Eng.serveFill' n e = e := by
  cases n with
  | zero => rfl
  | succ n =>
    have none : e.zw.inbox.find? isReadReq = none := List.find?_eq_none.mpr fun y hy => by rw [h y hy]; decide
    rw [serveFill'_succ, none]

theorem serveFill_of_no_read {e : Eng} (h : ∀ y ∈ e.zw.inbox, isReadReq y = false) : e.serveFill = e := by
  unfold Eng.serveFill
  rw [serveFill'_of_no_read h]
  exact ite_self _

/-- What the serve buffers take from the inbox leaves the ports but for the cells it returns, and the numbers expected. -/
structure Eng.Returns (e e' : Eng) : Prop where
  ports : ∀ k, ∃ ow, e'.port' k = { e.port' k with owed := ow }
  rxSeq : e'.zw.rxSeq = e.zw.rxSeq

theorem Eng.Returns.refl (e : Eng) : e.Returns e := ⟨fun k => ⟨(e.port' k).owed, rfl⟩, rfl⟩

theorem Eng.Returns.trans {a b c : Eng} (h : a.Returns b) (g : b.Returns c) : a.Returns c := by
  refine ⟨fun k => ?_, g.rxSeq.trans h.rxSeq⟩
  obtain ⟨_, hb⟩ := h.ports k
  obtain ⟨ow, hc⟩ := g.ports k
  exact ⟨ow, by rw [hc, hb]⟩

theorem returns_onGln (e : Eng) (f : Gln → Gln) : e.Returns (e.onGln f) := ⟨fun k => ⟨(e.port' k).owed, rfl⟩, rfl⟩

theorem returns_owe (e : Eng) (m : ZMsg) : e.Returns (e.owe m) := by
  unfold Eng.owe
  split
  · split
    · refine ⟨fun k => ?_, rfl⟩
      unfold Eng.onPort
      rw [Eng.port_setPort]
      split
      · rename_i hk
        rw [hk]
        exact ⟨_, rfl⟩
      · exact ⟨_, rfl⟩
    · exact .refl e
  · exact .refl e

theorem returns_takeOf (e : Eng) (q : ZMsg → Bool) : e.Returns (e.takeOf q).1 := by
  unfold Eng.takeOf
  split
  · exact .refl e
  · exact Eng.Returns.trans (b := e.onZw _) ⟨fun k => ⟨(e.port' k).owed, rfl⟩, rfl⟩ (returns_owe _ _)

theorem returns_serveFill' (n : Nat) (e : Eng) : e.Returns (Eng.serveFill' n e) := by
  induction n generalizing e with
  | zero => exact .refl e
  | succ n ih =>
    rw [serveFill'_succ]
    split
    · exact .refl e
    · split
      · exact .refl e
      · exact (returns_takeOf e _).trans ((returns_onGln _ _).trans (ih _))

theorem returns_serveFill (e : Eng) : e.Returns e.serveFill := by
  unfold Eng.serveFill
  split
  · exact .refl e
  · exact returns_serveFill' _ _

/-- A message as it arrives at a port, in whose receive buffer it takes up cells (R289). -/
def arrived (p : Fin 8) (z : ZMsg) : ZMsg := { z with arr := some { port := p, chan := zChan z, owes := true } }

/-- The message that a position expects next from its source in its class is delivered (R292). -/
theorem arrive_of_next {e : Eng} {p : Fin 8} {z : ZMsg} (known : z.body ≠ .reserved) (routed : zFlooded z.body = false)
    (hop : z.hop = false) (mine : z.dst.toNat = e.hth.pos) (next : z.seq = e.zw.rxSeq.get 0 (zKey z)) (early : e.zw.early = []) :
    e.arrive p z = e.onZw fun w => { w with inbox := w.inbox ++ [arrived p z], rxSeq := w.rxSeq.set 0 (zKey z) (z.seq + 1) } := by
  have delivered : e.arrive p z = e.deliver (arrived p z) := by
    unfold Eng.arrive
    dsimp only
    split
    · contradiction
    · have plain : (zFlooded z.body || z.hop) = false := by rw [routed, hop]; rfl
      rw [if_neg (by rw [plain]; decide), if_pos mine]
      rfl
  have key : zKey (arrived p z) = zKey z := rfl
  have seq : (arrived p z).seq = z.seq := rfl
  rw [delivered]
  unfold Eng.deliver Eng.onZw
  simp only [key, seq, ← next, if_true, early, List.length_nil, Zw.settle]

/-- The engine after a frame with one message was accepted, before the serve buffers take what they have room for. -/
def Eng.accepted (e : Eng) (p : Fin 8) (f : ZFrame) (z : ZMsg) : Eng :=
  (e.setPort p { e.port' p with rxNext := (e.port' p).rxNext + 1, bad := (e.port' p).bad.set 0 f.num.toNat 0, nak := false }).onZw
    fun w => { w with inbox := w.inbox ++ [arrived p z], rxSeq := w.rxSeq.set 0 (zKey z) (z.seq + 1) }

theorem acceptFrame_of_next {e : Eng} {p : Fin 8} {f : ZFrame} {z : ZMsg} (msgs : f.msgs = [z]) (known : z.body ≠ .reserved)
    (routed : zFlooded z.body = false) (hop : z.hop = false) (mine : z.dst.toNat = e.hth.pos)
    (next : z.seq = e.zw.rxSeq.get 0 (zKey z)) (early : e.zw.early = []) :
    e.acceptFrame p f = (e.accepted p f z).serveFill := by
  unfold Eng.acceptFrame
  simp only [msgs, List.foldl_cons, List.foldl_nil]
  refine congrArg Eng.serveFill ((arrive_of_next known routed hop ?_ ?_ ?_).trans rfl)
  · exact mine
  · exact next
  · exact early

@[simp] theorem Eng.port_accepted (e : Eng) (p : Fin 8) (f : ZFrame) (z : ZMsg) : (e.accepted p f z).port' p =
    { e.port' p with rxNext := (e.port' p).rxNext + 1, bad := (e.port' p).bad.set 0 f.num.toNat 0, nak := false } :=
  Eng.port_setPort_self e p _

theorem rxSeq_accepted (e : Eng) (p : Fin 8) (f : ZFrame) (z : ZMsg) :
    (e.accepted p f z).zw.rxSeq.get 0 (zKey z) = z.seq + 1 := SMap.get_set_self 0 e.zw.rxSeq _ _

theorem inbox_owe (e : Eng) (m : ZMsg) : (e.owe m).zw.inbox = e.zw.inbox := by
  unfold Eng.owe
  split
  · split <;> rfl
  · rfl

/-- A read request that arrives behind none moves into gleaner 0's serve buffer while that has room (R143; log entry 199). -/
theorem serveFill_of_last_read {e : Eng} {ms : List ZMsg} {m : ZMsg} (inbox : e.zw.inbox = ms ++ [m])
    (others : ∀ y ∈ ms, isReadReq y = false) (reads : isReadReq m = true) (idle : e.busy 1 = false)
    (room : e.gln.serving 0 + readSectors m ≤ 256) :
    e.serveFill = ((e.onZw fun w => { w with inbox := ms }).owe m).onGln fun g =>
      { g with serve := g.serve ++ [(0, { m with arr := none })] } := by
  have before : ∀ y ∈ ms, ¬ isReadReq y = true := fun y hy => by rw [others y hy]; decide
  have found : e.zw.inbox.find? isReadReq = some m := by
    rw [inbox, List.find?_append, List.find?_eq_none.mpr before]
    simp [reads]
  have taken : e.zw.inbox.eraseP isReadReq = ms := by
    rw [inbox, List.eraseP_append_right _ before]
    simp [reads]
  have first : (List.finRange 64).find? (fun gl => decide (e.gln.serving gl + readSectors m ≤ 256)) = some 0 := by
    rw [List.finRange_succ]
    exact List.find?_cons_of_pos (by simpa using room)
  have took : e.takeOf isReadReq = ((e.onZw fun w => { w with inbox := ms }).owe m, some m) := by
    unfold Eng.takeOf Eng.onZw
    simp only [found, taken]
  have rest : (((e.onZw fun w => { w with inbox := ms }).owe m).onGln fun g =>
      { g with serve := g.serve ++ [(0, { m with arr := none })] }).zw.inbox = ms := inbox_owe _ _
  have len : e.zw.inbox.length = ms.length + 1 := by rw [inbox, List.length_append]; rfl
  unfold Eng.serveFill
  rw [idle, if_neg Bool.false_ne_true, len, serveFill'_succ]
  simp only [found, first, took]
  exact serveFill'_of_no_read (by rw [rest]; exact others) _

theorem owed_owe_arrived (e : Eng) (p : Fin 8) (z : ZMsg) :
    ((e.owe (arrived p z)).port' p).owed.get 0 (zChan z) = (e.port' p).owed.get 0 (zChan z) + zCells z.body := by
  show ((e.onPort p fun x => { x with owed := x.owed.modify 0 (zChan z) (· + zCells z.body) }).port' p).owed.get 0 (zChan z) = _
  rw [Eng.port_onPort_self]
  exact SMap.get_set_self _ _ _ _

theorem gln_owe (e : Eng) (m : ZMsg) : (e.owe m).gln = e.gln := by
  obtain ⟨_, h⟩ := zwOnly_owe e m
  rw [h]

/-- A frame with the message expected next is accepted (R285, R292). -/
theorem accepted_port (e : Eng) (p : Fin 8) (f : ZFrame) (z : ZMsg) {y : ZPort} (hy : y = (e.accepted p f z).serveFill.port' p) :
    y.rxNext = (e.port' p).rxNext + 1 ∧ y.nak = false ∧ (e.accepted p f z).serveFill.zw.rxSeq.get 0 (zKey z) = z.seq + 1 := by
  obtain ⟨ports, rxSeq⟩ := returns_serveFill (e.accepted p f z)
  obtain ⟨ow, port⟩ := ports p
  rw [hy, port, Eng.port_accepted, rxSeq]
  exact ⟨rfl, rfl, rxSeq_accepted _ _ _ _⟩

/-- A message that is no read request waits for its unit. -/
theorem serveFill_accepted {e : Eng} {z : ZMsg} (others : ∀ y ∈ e.zw.inbox, isReadReq y = false) (plain : isReadReq z = false)
    (p : Fin 8) (f : ZFrame) {t : Eng} (ht : t = (e.accepted p f z).serveFill) :
    (t.port' p).owed = (e.port' p).owed ∧ t.gln = e.gln ∧ t.zw.inbox = e.zw.inbox ++ [arrived p z] := by
  have waits : (e.accepted p f z).serveFill = e.accepted p f z := by
    refine serveFill_of_no_read fun y hy => ?_
    rcases List.mem_append.mp hy with h | h
    · exact others y h
    · rw [List.mem_singleton.mp h]
      exact plain
  rw [ht, waits, Eng.port_accepted]
  exact ⟨rfl, rfl, rfl⟩

/-- A read request moves into a serve buffer, and its cell is returned (R143, R289). -/
theorem serveFill_accepted_of_read {e : Eng} {z : ZMsg} (others : ∀ y ∈ e.zw.inbox, isReadReq y = false)
    {a : BitVec 58} {b : BitVec 2} {c : BitVec 8} (body : z.body = .readReq a b c) (idle : e.busy 1 = false)
    (room : e.gln.serving 0 + c.toNat + 1 ≤ 256) (p : Fin 8) (f : ZFrame) {t : Eng} (ht : t = (e.accepted p f z).serveFill) :
    (t.port' p).owed.get 0 (zChan z) = (e.port' p).owed.get 0 (zChan z) + 1 ∧ t.zw.inbox = e.zw.inbox ∧
      t.gln.serve = e.gln.serve ++ [(0, { z with arr := none })] := by
  have reads : isReadReq (arrived p z) = true := by
    show (match z.body with | .readReq .. => true | _ => false) = true
    rw [body]
  have sectors : readSectors (arrived p z) = c.toNat + 1 := by
    show (match z.body with | .readReq _ _ n => n.toNat + 1 | _ => 0) = _
    rw [body]
  have cells : zCells z.body = 1 := by rw [body]; rfl
  have served := serveFill_of_last_read (e := e.accepted p f z) rfl others reads idle (by rw [sectors]; exact room)
  rw [ht, served]
  refine ⟨?_, inbox_owe _ _, ?_⟩
  · refine (owed_owe_arrived _ p z).trans ?_
    rw [cells]
    exact congrArg (·.owed.get 0 (zChan z) + 1) (Eng.port_accepted e p f z)
  · show (Eng.owe _ _).gln.serve ++ _ = _
    rw [gln_owe]
    rfl

/-- A frame with the one message expected next is taken (R285, R292): it reaches the inbox, or gleaner 0's serve buffer. -/
theorem frameReceive_of_message {e : Eng} {p : Fin 8} {f : ZFrame} {z : ZMsg} (live : (e.port' p).st = .live)
    (clean : f.uncorrLanes = []) (fec : f.fecOk = true) (tag : f.tagOk = true) (next : f.num.toNat = (e.port' p).rxNext)
    (msgs : f.msgs = [z]) (known : z.body ≠ .reserved) (routed : zFlooded z.body = false) (hop : z.hop = false)
    (mine : z.dst.toNat = e.hth.pos) (seq : z.seq = e.zw.rxSeq.get 0 (zKey z)) (early : e.zw.early = [])
    (others : ∀ y ∈ e.zw.inbox, isReadReq y = false) {t : Eng} (ht : t = e.frameReceive p f) :
    ((t.port' p).rxNext = (e.port' p).rxNext + 1 ∧ (t.port' p).nak = false ∧ t.zw.rxSeq.get 0 (zKey z) = z.seq + 1) ∧
      (isReadReq z = false → (t.port' p).owed = (e.port' p).owed ∧ t.gln = e.gln ∧ t.zw.inbox = e.zw.inbox ++ [arrived p z]) ∧
      (∀ a b c, z.body = .readReq a b c → e.busy 1 = false → e.gln.serving 0 + c.toNat + 1 ≤ 256 →
        (t.port' p).owed.get 0 (zChan z) = (e.port' p).owed.get 0 (zChan z) + 1 ∧ t.zw.inbox = e.zw.inbox ∧
        t.gln.serve = e.gln.serve ++ [(0, { z with arr := none })]) := by
  have taken : t = ((e.counted f).accepted p f z).serveFill := ht.trans
    ((frameReceive_of_next live clean fec tag next).trans (acceptFrame_of_next (e := e.counted f) msgs known routed hop mine seq early))
  exact ⟨taken ▸ accepted_port (e.counted f) p f z rfl,
    fun plain => serveFill_accepted (e := e.counted f) others plain p f taken,
    fun a b c body idle room => serveFill_accepted_of_read (e := e.counted f) others body idle room p f taken⟩

/-! ### Link control (R279, R284 to R286, R289) -/

/-- The credits of a link control cell add to their channels' (R289). -/
theorem get_addCredits (cs : List (BitVec 8)) (k v : Nat) (m : SMap Int) :
    ((cs.zipIdx k).foldl (fun (m : SMap Int) (y : BitVec 8 × Nat) => m.modify 0 y.2 fun r => r + 16 * (y.1.toNat : Int)) m).get 0 v =
      m.get 0 v + if k ≤ v then 16 * ((cs.getD (v - k) 0).toNat : Int) else 0 := by
  induction cs generalizing k m with
  | nil => simp
  | cons c cs ih =>
    rw [List.zipIdx_cons, List.foldl_cons, ih]
    unfold SMap.modify
    rw [SMap.get_set]
    rcases lt_trichotomy v k with h | rfl | h
    · rw [if_neg h.ne, if_neg (by omega), if_neg (by omega)]
    · rw [if_pos rfl, if_neg (by omega), if_pos le_rfl]
      simp
    · rw [if_neg h.ne', if_pos (by omega), if_pos h.le, show v - k = (v - (k + 1)) + 1 by omega, List.getD_cons_succ]

/-- A link control cell that only acknowledges and returns credits (R285, R289). -/
theorem linkControl_of_quiet {e : Eng} {p : Fin 8} {c : ZCtl} (live : (e.port' p).st = .live) (queue : (e.port' p).queue = [])
    (fwd : (e.port' p).fwd = []) (nak : c.nak = false) (keySw : c.keySw = false) (ctl : c.ctl = .none) (reports : c.reports = []) :
    (e.linkControl p c).port' p = { (e.port' p).acked c.ack.toNat with
      credit := (c.credits.take 6).zipIdx.foldl (fun (m : SMap Int) (y : BitVec 8 × Nat) =>
        m.modify 0 y.2 fun r => r + 16 * (y.1.toNat : Int)) (e.port' p).credit } := by
  unfold Eng.linkControl
  rw [if_neg (not_not_intro live)]
  simp only [nak, keySw, ctl, reports, Bool.false_eq_true, if_false, List.foldl_nil, List.isEmpty_nil, if_true, Eng.moveCtl,
    Eng.port_onPort_self]
  rw [pump_of_idle (by simp [ZPort.acked, queue]) (by simp [ZPort.acked, fwd])]
  simp only [Eng.port_setPort_self, Eng.port_onPort_self]
  rfl

/-- What a link control cell does before its reports: the keys can switch and frames can be sent, but the pairs stand. -/
structure Eng.KeepsPairs (e e' : Eng) (p : Nat) : Prop where
  pairs : (e'.port' p).pairs = (e.port' p).pairs
  cal : e'.zw.cal = e.zw.cal
  swp : e'.swp = e.swp

theorem Eng.KeepsPairs.trans {a b c : Eng} {p : Nat} (h : a.KeepsPairs b p) (g : b.KeepsPairs c p) : a.KeepsPairs c p :=
  ⟨g.pairs.trans h.pairs, g.cal.trans h.cal, g.swp.trans h.swp⟩

theorem Eng.Carries.keepsPairs {e e' : Eng} (h : e.Carries e') (p : Nat) : e.KeepsPairs e' p := ⟨(h.ports p).pairs, h.cal, h.swp⟩

theorem keepsPairs_onPort (e : Eng) (p : Nat) {f : ZPort → ZPort} (h : (f (e.port' p)).pairs = (e.port' p).pairs) :
    e.KeepsPairs (e.onPort p f) p := ⟨by rw [Eng.port_onPort_self, h], rfl, rfl⟩

/-- A report of the far end corrects the modulator ring's heater; pairs in need are moved then (R279, R281). -/
theorem linkControl_of_report {e : Eng} {p : Fin 8} {c : ZCtl} {r : Detune} (live : (e.port' p).st = .live) (ctl : c.ctl = .none)
    (reports : c.reports = [r]) :
    ∃ e', e.KeepsPairs e' p ∧ e.linkControl p c = (e'.onPort p fun x => x.detune r).moveWeak p fun _ => false := by
  unfold Eng.linkControl
  rw [if_neg (not_not_intro live)]
  extract_lets e1 e2 e3 add e4 e5 e6
  refine ⟨e4, ?_, ?_⟩
  · have k1 : e.KeepsPairs e1 p := keepsPairs_onPort e p rfl
    have k2 : e1.KeepsPairs e2 p := by
      unfold e2
      split
      · exact ⟨rfl, rfl, rfl⟩
      · exact ⟨rfl, rfl, rfl⟩
    have k3 : e2.KeepsPairs e3 p := by
      unfold e3
      split
      · exact keepsPairs_onPort e2 p rfl
      · exact ⟨rfl, rfl, rfl⟩
    exact ((k1.trans k2).trans k3).trans ((keepsPairs_onPort e3 p rfl).trans ((carries_pump _ _).keepsPairs p))
  · have once : e5 = e4.onPort p fun x => x.detune r := by
      unfold e5
      rw [reports]
      rfl
    unfold e6
    rw [ctl, reports, once]
    rfl

theorem ZPort.pair_detune_self {x : ZPort} {r : Detune} (lit : (x.pair r.pair).safety = .lit) :
    (x.detune r).pair r.pair = { x.pair r.pair with tx := correct (x.pair r.pair).tx r.codes, far := r.head } := by
  unfold ZPort.detune
  rw [if_pos lit, ZPort.pair_onPair_self]

theorem ZPort.pair_detune_ne (x : ZPort) (r : Detune) {k : Nat} (h : k ≠ r.pair) : (x.detune r).pair k = x.pair k := by
  unfold ZPort.detune
  split
  · exact ZPort.pair_onPair_ne _ _ h
  · rfl

/-- A report of a port whose lit pairs keep their headroom corrects the modulator ring alone (R279). -/
theorem linkControl_of_captured {e : Eng} {p : Fin 8} {c : ZCtl} {r : Detune} (live : (e.port' p).st = .live) (ctl : c.ctl = .none)
    (reports : c.reports = [r]) (lit : ((e.port' p).pair r.pair).safety = .lit) {q : Pair}
    (hq : q = { (e.port' p).pair r.pair with tx := correct ((e.port' p).pair r.pair).tx r.codes, far := r.head })
    (head : e.zw.cal.toNat % 128 ≤ q.head)
    (others : ∀ n : Fin 18, n ≠ r.pair → ((e.port' p).pair n).safety = .lit → e.zw.cal.toNat % 128 ≤ ((e.port' p).pair n).head) :
    ((e.linkControl p c).port' p).pair r.pair = q ∧ (e.linkControl p c).swp = e.swp := by
  obtain ⟨e', keeps, control⟩ := linkControl_of_report live ctl reports
  have same (k : Nat) : (e'.port' p).pair k = (e.port' p).pair k := by unfold ZPort.pair; rw [keeps.pairs]
  have corrected : ((e'.port' p).detune r).pair r.pair = q := by
    rw [ZPort.pair_detune_self (by rw [same]; exact lit), same, hq]
  have strong : (e'.onPort p fun x => x.detune r).moveWeak p (fun _ => false) = e'.onPort p fun x => x.detune r := by
    refine moveWeak_of_strong fun n hn => ⟨rfl, ?_⟩
    show e'.zw.cal.toNat % 128 ≤ _
    rw [Eng.port_onPort_self] at hn ⊢
    rw [keeps.cal]
    by_cases h : n = r.pair
    · rw [h, corrected]
      exact head
    · rw [ZPort.pair_detune_ne _ _ (Fin.val_ne_of_ne h), same] at hn ⊢
      exact others n h hn
  rw [control, strong, Eng.port_onPort_self]
  exact ⟨corrected, keeps.swp⟩

/-! ### Keys (R286) -/

/-- A key loads into the slot not in use, or into the active one while that holds none (log entry 25). -/
theorem load_of_still {k : KeyDir} (still : k.sw = none) (s : KeySlot) :
    ∃ k', k.load s = some k' ∧ k'.sw = none ∧ k'.act = k.act ∧ (if k.act = k.slot.ok then k'.s0 else k'.s1) = s := by
  refine ⟨_, if_neg (by simp [still]), ?_⟩
  cases k.slot.ok <;> cases act : k.act <;> simp [still]

theorem load_of_pending {k : KeyDir} (pending : k.sw ≠ none) (s : KeySlot) : k.load s = none :=
  if_pos (Option.isSome_iff_ne_none.mpr pending)

/-- A port that goes live, or cannot, keeps its keys. -/
theorem goLive_sheds (e : Eng) (p : Fin 8) : (e.port' p).Sheds ((e.goLive p).port' p) := by
  unfold Eng.goLive
  extract_lets x
  split
  · exact (portDown_sheds e p 0).1
  · split
    · have sends (a : Eng) : (a.port' p).Sheds ((a.unstick.pump p).port' p) :=
        (((carries_unstick a).trans (carries_pump _ p)).ports p).sheds
      refine ZPort.Sheds.trans ?_ (sends _)
      rw [port_releaseLanes, Eng.port_setPort_self]
      exact ⟨fun _ => id, fun _ => id, fun _ => id, rfl, rfl, fun _ => rfl⟩
    · rw [Eng.port_setPort_self]
      exact ⟨fun _ => id, fun _ => id, fun _ => id, rfl, rfl, fun _ => rfl⟩

/-- The fields of a write of LE_ZW_KEY_CTL with one operation bit set (R286). -/
theorem keyCtl_fields (v : W32) {c : W32} (hc : c = 0x10 ∨ c = 0x20) :
    fld ((v &&& 0xF) ||| c).toNat 0 3 = v.toNat % 8 ∧ bit ((v &&& 0xF) ||| c).toNat 3 = v.getLsbD 3 := by
  constructor
  · have low : ((v &&& 0xF) ||| c).setWidth 3 = v.setWidth 3 := by
      ext i hi
      rcases hc with rfl | rfl <;> interval_cases i <;> simp
    have h := congrArg BitVec.toNat low
    rw [BitVec.toNat_setWidth, BitVec.toNat_setWidth] at h
    rw [fld_low]
    exact h
  · rw [bit_toNat]
    rcases hc with rfl | rfl <;> simp

/-- A served write of LE_ZW_KEY_CTL. -/
theorem regWr_keyCtl {s : State} {m : Fin 64} {v : W32} (h : s.serves m 0x15010 (.wr32 v) = true) :
    s.regWr m 0x15010 v = { s with eng := s.eng.keyCtl v.toNat } := by
  rw [regWr_of_plain h (by decide) (by decide)]
  rfl

/-- The keys of a direction. -/
def ZPort.keys (x : ZPort) (rx : Bool) : KeyDir := if rx then x.rx else x.tx

/-- A port whose keys of a direction are replaced. -/
def ZPort.setKeys (x : ZPort) (rx : Bool) (k : KeyDir) : ZPort := if rx then { x with rx := k } else { x with tx := k }

theorem ZPort.keys_setKeys (x : ZPort) (rx : Bool) (k : KeyDir) : (x.setKeys rx k).keys rx = k := by cases rx <;> rfl

theorem ZPort.Sheds.keys {x y : ZPort} (h : x.Sheds y) {rx : Bool} (still : (x.keys rx).sw = none) : y.keys rx = x.keys rx := by
  cases rx
  · exact h.tx
  · exact h.rx still

section

variable {e : Eng} {p : Fin 8} {w : Nat} (port : fld w 0 3 = p.val)

include port

/-- A load while a switch is pending is discarded (R286). -/
theorem keyCtl_of_busy_load (load : bit w 4 = true) (no : bit w 5 = false) (pending : ((e.port' p).keys (bit w 3)).sw ≠ none) :
    e.keyCtl w = e.zwStatus 0x20 := by
  unfold Eng.keyCtl
  simp only [port, load, no, if_true, Bool.false_and, Bool.false_eq_true, if_false]
  rw [show (if bit w 3 = true then (e.port' p).rx else (e.port' p).tx) = (e.port' p).keys (bit w 3) from rfl,
    load_of_pending pending]

/-- A load puts the staged key in its slot, and may let a port that waited for it go live (R278, R286). -/
theorem keyCtl_of_load (load : bit w 4 = true) (no : bit w 5 = false) {k : KeyDir}
    (loaded : ((e.port' p).keys (bit w 3)).load { key := e.zw.key, salt := e.zw.salt, ok := true } = some k) :
    ((e.port' p).setKeys (bit w 3) k).Sheds ((e.keyCtl w).port' p) := by
  have set : (e.setPort p ((e.port' p).setKeys (bit w 3) k)).port' p = (e.port' p).setKeys (bit w 3) k := Eng.port_setPort_self _ _ _
  unfold Eng.keyCtl
  simp only [port, load, no, if_true, Bool.false_and, Bool.false_eq_true, if_false]
  rw [show (if bit w 3 = true then (e.port' p).rx else (e.port' p).tx) = (e.port' p).keys (bit w 3) from rfl, loaded]
  dsimp only
  rw [← set]
  split
  · exact goLive_sheds _ _
  · exact (ZPort.Sent.refl _).sheds

/-- The key of a load is in its slot, whether or not the port goes live with it (R286). -/
theorem keyCtl_loads (load : bit w 4 = true) (no : bit w 5 = false) {k k' : KeyDir} (hk : k = (e.port' p).keys (bit w 3))
    (hk' : k' = ((e.keyCtl w).port' p).keys (bit w 3)) (still : k.sw = none) :
    k'.act = k.act ∧ (if k.act = k.slot.ok then k'.s0 else k'.s1) = { key := e.zw.key, salt := e.zw.salt, ok := true } := by
  subst hk
  obtain ⟨k1, loaded, still1, act, slot⟩ := load_of_still still { key := e.zw.key, salt := e.zw.salt, ok := true }
  have set := ZPort.keys_setKeys (e.port' p) (bit w 3) k1
  have keys := (keyCtl_of_load port load no loaded).keys (rx := bit w 3) (by rw [set]; exact still1)
  rw [hk', keys, set]
  exact ⟨act, slot⟩

/-- A switch is agreed for the frame 64 ahead (R286; log entry 80). -/
theorem keyCtl_of_switch (no : bit w 4 = false) (switch : bit w 5 = true) (tx : bit w 3 = false) (still : (e.port' p).tx.sw = none)
    (queue : (e.port' p).queue = []) (fwd : (e.port' p).fwd = []) :
    (e.keyCtl w).port' p = { e.port' p with
      tx := { (e.port' p).tx with sw := some ((e.port' p).txNext + 63) }, swTold := false, out := false } := by
  unfold Eng.keyCtl
  simp only [port, no, switch, tx, still, Bool.false_eq_true, if_false, Bool.not_false, Bool.and_self, Option.isNone_none, if_true]
  rw [pump_of_idle (by rw [Eng.port_onPort_self]; exact queue) (by rw [Eng.port_onPort_self]; exact fwd), Eng.port_setPort_self,
    Eng.port_onPort_self]

end

theorem keyExhausted_of_idle {e : Eng} {p : Fin 8}
    (h : (e.port' p).out = true ∨ (e.port' p).tx.sw ≠ none ∨ (e.port' p).txNext - (e.port' p).tx.base < 2 ^ 62) :
    e.keyExhausted p = e := by
  have idle : (e.port' p).out = true ∨ (!(e.port' p).spent) = true := by
    rcases h with out | pending | few
    · exact .inl out
    · have switching : (e.port' p).tx.sw.isNone = false := Option.isNone_eq_false_iff.mpr (Option.isSome_iff_ne_none.mpr pending)
      exact .inr (by rw [ZPort.spent, switching]; rfl)
    · exact .inr (by rw [ZPort.spent, decide_eq_false few.not_ge, Bool.and_false]; rfl)
  exact if_pos idle

theorem keyExhausted_of_spent {e : Eng} {p : Fin 8} (out : (e.port' p).out = false) (still : (e.port' p).tx.sw = none)
    (spent : 2 ^ 62 ≤ (e.port' p).txNext - (e.port' p).tx.base) :
    (e.keyExhausted p).port' p = { e.port' p with out := true } := by
  have isSpent : (e.port' p).spent = true := by
    unfold ZPort.spent
    rw [still, decide_eq_true spent]
    rfl
  unfold Eng.keyExhausted
  simp only [out, isSpent, Bool.not_true, Bool.false_eq_true, or_self, if_false]
  rw [(told_postEvt _ _ _ _ _).port', Eng.port_setPort_self]

/-! ### Resends (R293) -/

theorem tracked_owe (e : Eng) (m : ZMsg) : (e.owe m).zw.tracked = e.zw.tracked := by
  unfold Eng.owe
  split
  · split <;> rfl
  · rfl

theorem tracked_pump (e : Eng) (p : Nat) : (e.pump p).zw.tracked = e.zw.tracked := by
  unfold Eng.pump
  generalize ZPort.pump _ _ = out
  have owed (ms : List ZMsg) (e : Eng) : (ms.foldl Eng.owe e).zw.tracked = e.zw.tracked := by
    induction ms generalizing e with
    | nil => rfl
    | cons m ms ih => exact (ih _).trans (tracked_owe _ _)
  exact owed _ _

/-- Routing a message leaves the tracked ones. -/
theorem tracked_forward (e : Eng) (m : ZMsg) : (e.forward m).zw.tracked = e.zw.tracked := by
  unfold Eng.forward
  split
  · exact tracked_owe _ _
  · split
    · rfl
    · exact tracked_pump _ _

/-- What is told on behalf of a command's work leaves the link block. -/
theorem behalf_zw {f : Eng → Eng} (told : ∀ e : Eng, e.Told (f e)) (e : Eng) (work : Option (Fin 64)) :
    (e.behalf work f).zw = e.zw := by
  cases work with
  | none => exact (told e).zw
  | some r => exact (told _).zw

theorem timeout_due {e : Eng} {t : Track} (lost : t.lost = false)
    (late : t.at_.toNat + 1000 * (e.zw.e2e.toNat % 2 ^ 16) ≤ e.hth.time.toNat) :
    ¬ (t.lost = true ∨ e.hth.time.toNat < t.at_.toNat + 1000 * (e.zw.e2e.toNat % 2 ^ 16)) := by
  rw [lost]
  exact fun h => h.elim (by decide) late.not_gt

section

variable {e : Eng} {dst : BitVec 8} {cls : Fin 3} {seq : W32} {t : Track} {hit : Track → Bool}
  (hhit : hit = fun y => y.msg.dst == dst && zCls y.msg.body == cls.val && y.msg.seq == seq)
  (found : e.zw.tracked.find? hit = some t) (lost : t.lost = false)

include hhit

/-- The tracked message that a timeout is about. -/
theorem timeout_hit (y : Track) :
    (y.msg.dst.toNat == dst.toNat && zCls y.msg.body == cls.val && y.msg.seq == seq) = hit y := by
  subst hhit
  rw [show (y.msg.dst.toNat == dst.toNat) = (y.msg.dst == dst) by
    rw [Bool.eq_iff_iff, beq_iff_eq, beq_iff_eq, BitVec.toNat_inj]]

include found

theorem e2eTimeout_of_early (early : e.hth.time.toNat < t.at_.toNat + 1000 * (e.zw.e2e.toNat % 2 ^ 16)) :
    e.e2eTimeout dst.toNat cls seq = e := by
  unfold Eng.e2eTimeout
  simp only [timeout_hit hhit, found, fld_low]
  exact if_pos (.inr early)

include lost

variable (late : t.at_.toNat + 1000 * (e.zw.e2e.toNat % 2 ^ 16) ≤ e.hth.time.toNat)

include late

theorem e2eTimeout_of_retry (retry : t.sent < e.zw.e2e.toNat / 2 ^ 16 % 16) :
    (e.e2eTimeout dst.toNat cls seq).zw.tracked =
      e.zw.tracked.map fun y => if hit y then { y with sent := y.sent + 1, at_ := e.hth.time } else y := by
  have tries : t.sent < fld e.zw.e2e.toNat 16 4 := retry
  unfold Eng.e2eTimeout
  simp only [timeout_hit hhit, found, fld_low]
  rw [if_neg (timeout_due lost late), if_pos tries, tracked_forward]
  rfl

theorem e2eTimeout_of_spent (spent : e.zw.e2e.toNat / 2 ^ 16 % 16 ≤ t.sent) :
    (e.e2eTimeout dst.toNat cls seq).zw.status.getLsbD 1 = true ∧
      (e.e2eTimeout dst.toNat cls seq).zw.tracked = e.zw.tracked.map fun y => if hit y then { y with lost := true } else y := by
  have tries : ¬ t.sent < fld e.zw.e2e.toNat 16 4 := spent.not_gt
  unfold Eng.e2eTimeout
  simp only [timeout_hit hhit, found, fld_low]
  rw [if_neg (timeout_due lost late), if_neg tries]
  split
  · rw [behalf_zw fun _ => told_postEvt _ _ _ _ _]
    exact ⟨status_zwStatus _ rfl, rfl⟩
  · exact ⟨status_zwStatus _ rfl, rfl⟩

end

end Sys2Proof.Machine
end
section
/-! The statements about atomics and links. -/

namespace Sys2Proof.Machine

open Sys2Proof

/-- Settles O42: each atomic is its code's access, and each answer is one of the ways that access goes. -/
theorem atomicsAnswerAndStore : Obligations.AtomicsAnswerAndStore := by
  rintro s m addr n op cmp code c sizes new _ _ rfl rfl h
  have small : op.toNat % 2 ^ (8 * n) < 2 ^ (8 * n) := Nat.mod_lt _ (Nat.two_pow_pos _)
  obtain ⟨cmp', is⟩ : ∃ cmp', IsAtomic c code m addr n op cmp' sizes new := by
    rcases h with ⟨rfl, rfl, rfl, rfl⟩ | ⟨rfl, rfl, rfl, rfl⟩ | ⟨rfl, rfl, rfl, rfl⟩ | ⟨rfl, rfl, rfl, rfl⟩ |
      ⟨rfl, rfl, rfl, rfl⟩ | ⟨rfl, rfl, rfl, rfl⟩ | ⟨rfl, rfl, rfl, rfl⟩ | ⟨rfl, rfl, rfl, rfl⟩ | ⟨rfl, rfl, rfl, rfl⟩ |
      ⟨rfl, rfl, rfl, rfl⟩ | ⟨rfl, rfl, rfl, rfl⟩ | ⟨rfl, rfl, rfl, rfl⟩ | ⟨rfl, rfl, rfl, rfl⟩
    -- the signed minimum and maximum compare two's complement numbers
    on_goal 7 =>
      exact ⟨0, fun _ => rfl, rfl, by decide, fun hn old hold => congrArg some (if_congr (signed_lt_iff hn small hold) rfl rfl)⟩
    on_goal 7 =>
      exact ⟨0, fun _ => rfl, rfl, by decide, fun hn old hold => congrArg some (if_congr (signed_lt_iff hn hold small) rfl rfl)⟩
    -- the compare and swap alone has a second operand
    on_goal 2 => exact ⟨cmp, fun _ => rfl, rfl, by decide, fun _ _ _ => rfl⟩
    all_goals exact ⟨0, fun _ => rfl, rfl, by decide, fun _ _ _ => rfl⟩
  obtain ⟨rfl, code16⟩ := And.intro is.sizes is.code_lt
  rw [is.exec s]
  refine ⟨fun h => congrArg _ (State.atomic_of_not_ready h), fun runs serving => ⟨fun size => ⟨?_, ?_⟩, ?_, ?_, ?_, ?_⟩⟩
  · exact congrArg _ (State.atomic_of_bad_size runs serving size)
  · have whole : (BitVec.ofNat 4 code).toNat = code := Nat.mod_eq_of_lt code16
    show Host.Outcome.next (if (atomSizes (BitVec.ofNat 4 code).toNat).contains n then s
      else s.atomic (BitVec.ofNat 4 code).toNat m addr n 0 0 .ok) = _
    rw [whole, if_neg (by simpa using size), State.atomic_of_bad_size runs serving size]
    rfl
  · exact fun size waits => congrArg _ (State.atomic_of_waits runs serving size waits)
  · exact fun size ready align => congrArg _ (State.atomic_of_misaligned runs serving size ready align)
  · exact fun size ready align _ denied => ⟨_, rfl, State.atomic_of_denied runs serving size ready align denied⟩
  · intro old size ready align hole granted answer value
    obtain ⟨atomic, ao, dirs, host, dev⟩ := State.atomic_of_granted (op := op) (cmp := cmp') runs serving size ready align hole granted
      answer value rfl
    refine ⟨_, rfl, atomic, ao, dirs, host, fun off lines _ => ?_⟩
    rw [is.new size old (value ▸ leNat_rdDev_lt _ _ _ _)]
    exact dev off lines

/-- Settles O48: each row of the links goes the way that its unit's lemma says; what is sent meanwhile leaves lanes, pairs and keys. -/
theorem lanesMoveAndFramesAreTaken : Obligations.LanesMoveAndFramesAreTaken := by
  rintro s p _ runs rfl
  refine ⟨?_, ?_, ?_, ?_, ?_, ?_, ?_, ?_, ?_, ?_, ?_⟩
  · rintro b _ _ rx far live moves rfl lit rfl head others
    exact ⟨_, next_live runs (pilotBlock_of_captured (pilotLost_eq_false rx far) live moves lit
      (by rw [ZPort.pair_piloted_self]; exact head) others), rfl, Eng.port_setPort_self _ _ _⟩
  · intro n sp l dr df far live lit moves lane works spare free others
    refine ⟨_, s.eng.newMove l n sp true false, next_live runs
      (pilotBlock_of_lost (pilotLost_eq_true far) live moves lit lane works spare free others), ?_, rfl, rfl, rfl, rfl, rfl, moveStart_moving _ _ _ _ _ _ _⟩
    show ((Eng.moveStart _ _ _ _ _ _ _).port' p).moves = _
    rw [moveStart_mine_port, Eng.port_setPort_self]
    exact congrArg (· ++ [_]) moves
  · intro lane n sp lanes live still hsp free
    obtain ⟨sp, rfl⟩ : ∃ i : Fin 18, i.val = sp := ⟨⟨sp, by split at hsp <;> omega⟩, rfl⟩
    refine ⟨_, _, s.eng.newMove lane n sp false false, next_live runs (moveRequest_of_spare live lanes still hsp free), rfl, ?_, rfl,
      rfl, rfl, rfl, rfl, rfl, congrArg Pair.safety (moveStart_theirs_pair _ _ _ _ _ _), moveStart_moving _ _ _ _ _ _ _⟩
    show ((Eng.moveStart _ _ _ _ _ _ _).port' p).moves = _
    rw [moveStart_theirs_port]
  · intro lane mv move before
    obtain rfl := lane_of_moveOf move
    refine ⟨fun unready => next_live_same (laneSwitch_of_unready move unready), fun agreed trained => ?_, fun late => ?_⟩
    · obtain ⟨src, spare⟩ := ZPort.pairs_switchedTo (s.eng.port' p) mv.lane mv
      refine ⟨_, _, next_live runs (laneSwitch_of_ready move before agreed trained), Eng.port_setPort_self _ _ _ |>.symm,
        ZPort.lanes_switchedTo _ _ _, src, spare, status_zwStatus _ rfl, rfl⟩
    · refine ⟨_, _, next_live runs (moveTimeout_of_late move before late), rfl, ?_⟩
      dsimp only
      exact moveFail_port s.eng p mv rfl
  · intro f live clean
    refine ⟨?_, ?_, ?_, ?_, ?_⟩
    · intro old fec tag
      exact ⟨_, next_live runs (frameReceive_of_old live clean fec tag old), Eng.port_setPort_self _ _ _, rfl⟩
    · intro bad
      exact ⟨_, next_live runs (frameReceive_of_bad_or_ahead live clean bad), Eng.port_setPort_self _ _ _, rfl⟩
    · intro fec tag few
      exact ⟨_, next_live runs (frameReceive_of_bad_tag live clean fec tag few), Eng.port_setPort_self _ _ _, rfl⟩
    · intro fec tag seven
      obtain ⟨down, integrity⟩ := frameReceive_of_eighth_bad_tag live clean fec tag seven
      exact ⟨_, _, next_live runs rfl, rfl, down, integrity⟩
    · rintro z _ next fec tag - msgs known routed hop mine rfl seq early noReads
      have others : ∀ y ∈ s.eng.zw.inbox, isReadReq y = false := fun y hy => isReadReq_eq_false (noReads y hy)
      obtain ⟨⟨rxNext, nak, rxSeq⟩, waits, served⟩ :=
        frameReceive_of_message live clean fec tag next msgs known routed hop mine seq early others rfl
      exact ⟨_, _, next_live runs rfl, rfl, rxNext, nak, rxSeq, fun plain => waits (isReadReq_eq_false plain), served⟩
  · intro c live queue fwd still nak keySw ctl reports
    have port := linkControl_of_quiet live queue fwd nak keySw ctl reports
    refine ⟨_, _, next_live runs rfl, port.symm, rfl, fun f => ?_, fun v hv => ?_⟩
    · simp [ZPort.acked]
    · refine (get_addCredits _ 0 v _).trans ?_
      simp [List.getD, hv]
  · rintro c r _ _ live ctl reports rfl lit rfl head others
    obtain ⟨pair, swp⟩ := linkControl_of_captured live ctl reports lit rfl head others
    exact ⟨_, next_live runs rfl, pair, swp⟩
  · rintro m v _ hp rfl
    refine ⟨fun serves => ?_, fun serves tx still queue fwd => ?_⟩
    · obtain ⟨port, rx⟩ := keyCtl_fields v (.inl rfl)
      have load : bit ((v &&& 0xF) ||| 0x10).toNat 4 = true := by rw [bit_toNat, BitVec.getLsbD_or]; exact Bool.or_true _
      have noSwitch : bit ((v &&& 0xF) ||| 0x10).toNat 5 = false := by rw [bit_toNat]; simp
      rw [hp] at port
      refine ⟨_, _, _, congrArg Host.Outcome.next (regWr_keyCtl serves), rfl, rfl, fun pending => ?_, fun still => ?_⟩
      · rw [keyCtl_of_busy_load port load noSwitch (rx ▸ pending)]
        exact ⟨rfl, status_zwStatus _ rfl⟩
      · exact keyCtl_loads port load noSwitch (by rw [rx]; rfl) (by rw [rx]; rfl) still
    · obtain ⟨port, rx⟩ := keyCtl_fields v (.inr rfl)
      have noLoad : bit ((v &&& 0xF) ||| 0x20).toNat 4 = false := by rw [bit_toNat]; simp
      have switch : bit ((v &&& 0xF) ||| 0x20).toNat 5 = true := by rw [bit_toNat, BitVec.getLsbD_or]; exact Bool.or_true _
      exact ⟨_, congrArg Host.Outcome.next (regWr_keyCtl serves),
        keyCtl_of_switch (port.trans hp) noLoad switch (rx.trans tx) still queue fwd⟩
  · exact fun idle => next_live_same (keyExhausted_of_idle idle)
  · exact fun out still spent => ⟨_, next_live runs rfl, keyExhausted_of_spent out still spent⟩
  · intro dst cls seq tr hit hhit found lost
    refine ⟨fun early => next_live_same (e2eTimeout_of_early hhit found early), fun late retry => ?_, fun late spent => ?_⟩
    · exact ⟨_, next_live runs rfl, e2eTimeout_of_retry hhit found lost late retry⟩
    · obtain ⟨status, tracked⟩ := e2eTimeout_of_spent hhit found lost late spent
      exact ⟨_, next_live runs rfl, status, tracked⟩

end Sys2Proof.Machine
end

section
/-! The statement about preparation jobs. Its clause on a UNIQ whose writes fail says that device memory stands. But such a UNIQ retires
with fault, the fault ends its running program (R118), and the program's message 0x0200 is written into its message reel, which may lie
in device memory (R87, R89). The state below is such a program's. -/

namespace Sys2Proof.Machine

open Sys2Proof

/-- A stream descriptor of 32-bit items (R103). -/
def itemStream (base rows : Nat) : BitVec 256 := BitVec.ofNat 256 (base + rows * 2 ^ 64 + 2 ^ 104 + 2 ^ 176)

/-- A UNIQ of ticket 1 of director 0: one index into table 1, of 64 rows. -/
def hbmReelUniq : UniqJob where
  h := { key := { dir := 0, ticket := 1 }, prior := none, master := 0, reel := 0, count := 0 }
  tab := BitVec.ofNat 256 (31 * 2 ^ 16 + 2 ^ 31 + 64 * 2 ^ 64 + 2 ^ 240)
  inp := itemStream 0x1000 1
  out := itemStream 0x5000 1
  inv := itemStream 0x8000 1
  cnt := 0x9000

/-- The UNIQ's ticket, which has no outcome yet. -/
def hbmReelSlot : TSlot := { ticket := 1, out := none }

/-- A running engine that holds the UNIQ of a running program; message reel 0, the program's, is enabled and lies in device memory. -/
def hbmReelState : State where
  ao := { phase := .configured }
  eng := {
    dirs := [(0, { st := .running, tcount := 1, slots := [(1, some hbmReelSlot)] })],
    fe := { mreels := [(0, { base := 0x10000, cfg := 1 })] },
    gln := { uniqs := [hbmReelUniq] } }

theorem hbmReelState_ticketLive : hbmReelState.ticketLive hbmReelUniq.h.key hbmReelSlot :=
  ⟨rfl, rfl, rfl, fun _ stop => nomatch stop⟩

theorem hbmReelState_noFence : hbmReelState.noFence hbmReelUniq.h.key := fun _ => nofun

/-- The UNIQ starts, may make all its accesses, and reads its index; its lists are of one value. The write of the first list meets the
error. -/
theorem hbmReelUniq_granted :
    hbmReelState.eng.turn hbmReelState.eng.hsUniq hbmReelUniq.h = .go ∧
    (hbmReelState.eng.wideOk 0 true false 0x1000 4 ∧ hbmReelState.eng.answer 0x1000 4 .ok = .ok) ∧
    hbmReelState.eng.wideOk 0 false true 0x5000 4 ∧ hbmReelState.eng.wideOk 0 false true 0x8000 4 ∧
    hbmReelState.eng.wideOk 0 false true 0x9000 8 ∧ hbmReelState.eng.answer 0x5000 4 .uncorr ≠ .ok ∧
    uniqLists (tabOf hbmReelUniq.tab) [leNat (((hbmReelState.eng.rdDev true 0x1000 4).drop 0).take 4)] [] [] [] = ([0], [0]) := by
  unfold Eng.wideOk
  decide +kernel

/-- The engine after the UNIQ's writes met an uncorrectable error. -/
def hbmReelAfter : Eng := hbmReelState.eng.uniqRetire hbmReelUniq.h.key .ok .uncorr

theorem exec_hbmReelUniq :
    exec (.uniqRetire hbmReelUniq.h.key .ok .uncorr) hbmReelState = .next { hbmReelState with eng := hbmReelAfter } := rfl

/-- The message of the program's fault stands at the head of the reel: its stamp is valid, its class 2 and its code 0x0200. -/
theorem hbmReelAfter_message :
    hbmReelAfter.dev.rdN 0x10000 2 = [0x80, 2] ∧ hbmReelAfter.dev.rdN 0x10008 2 = [0, 2] := by decide +kernel

/-- Device memory held zeros there. -/
theorem hbmReelAfter_dev_ne : hbmReelAfter.dev ≠ hbmReelState.eng.dev := by
  intro same
  obtain ⟨message, _⟩ := hbmReelAfter_message
  rw [same] at message
  exact absurd message (by decide)

/-- Refutes O33: the fault of a UNIQ whose writes met an error ends its running program, whose message changes device memory. -/
theorem not_preparationJobsRetire : ¬ Obligations.PreparationJobsRetire := by
  intro holds
  obtain ⟨_, _, uniqWrites, _⟩ := holds hbmReelState hbmReelUniq.h.key hbmReelSlot rfl hbmReelState_ticketLive
  obtain ⟨starts, ⟨reads, answered⟩, list, inverse, count, failed, lists⟩ := hbmReelUniq_granted
  obtain ⟨t, ran, _, stands⟩ :=
    (uniqWrites hbmReelUniq _ _ _ [0] [0] rfl starts rfl rfl rfl reads answered lists.symm list inverse count .uncorr).1 (.inl failed)
  obtain rfl : { hbmReelState with eng := hbmReelAfter } = t := Host.Outcome.next.inj (exec_hbmReelUniq.symm.trans ran)
  exact hbmReelAfter_dev_ne (stands hbmReelState_noFence)

end Sys2Proof.Machine
end

section
/-! The statement about maps and comparisons. Its clause on a comparison takes any replica and says that a stream request to the replica's
position is awaited. A map holds that position in 8 bits (R53) and a link message its destination too (R288), but the clause does not bound
it: the request to a replica on position 256 is sent to position 0. No map that passed its check (R54) gives such a replica. -/

namespace Sys2Proof.Machine

open Sys2Proof

/-- Where no message waits to be sent, none is awaited from a position beyond 8 bits: a sent message's destination has 8. -/
theorem Zw.awaits_of_256_le {z : Zw} (sent : z.blocked = []) (p : Purpose → Bool) {pos : Nat} (wide : 256 ≤ pos) :
    (z.awaits fun u dst _ => p u && dst == pos) = false := by
  have elsewhere (t : Track) : t.msg.dst.toNat ≠ pos := by have := t.msg.dst.isLt; omega
  simp [Zw.awaits, sent, elsewhere]

/-- An entry homed here, of one row and with one replica. -/
def wideEntry : Ent where
  firstRow := 0
  table := 1
  tier := 0
  home := 0
  rowCount := 1
  elemFirst := 0
  hold := false
  base := 0x10000
  elemCount := 32
  stride4 := 32
  nrep := 1
  repIdx := 0

/-- Its replica, on a position that does not fit in 8 bits. -/
def wideReplica : Rep where
  base := 0x20000
  position := 256
  tier := 0

/-- A running engine whose active map holds the entry. -/
def wideReplicaState : State where
  ao := { phase := .configured }
  eng := { map := { ents := [wideEntry], reps := [wideReplica] } }

/-- The write of rep_check is served, and the entry is one that it compares: no lane claims a row of it. -/
theorem wideReplicaState_compares :
    wideReplicaState.serves 0 0xC024 (.wr32 2) = true ∧
    (wideReplicaState.eng.homeEnt 0 wideEntry).reps = [wideReplica] ∧
    wideReplicaState.eng.hth.isFailed wideReplica.position = false ∧
    0 < (wideReplicaState.eng.homeEnt 0 wideEntry).bytes ∧
    wideReplicaState.eng.claimedIn wideEntry = false := by decide +kernel

/-- The state after the write. -/
def wideReplicaAfter : State := (wideReplicaState.access 0 0xC024 (.wr32 2) (some [])).1

theorem exec_repCheck_wideReplica : exec (.repCheck 0 []) wideReplicaState = .next wideReplicaAfter := rfl

/-- The comparison's one request went out at once, to position 0. -/
theorem wideReplicaAfter_sent :
    wideReplicaAfter.eng.zw.blocked = [] ∧
    wideReplicaAfter.eng.zw.tracked.map (fun t => (t.use, t.msg.dst)) = [(.compare 1 0, 0)] := by decide +kernel

/-- Refutes O13: the comparison asks position 0 for the rows of a replica on position 256, which no message awaits. -/
theorem not_mapsAreCheckedAndReplicasCompared : ¬ Obligations.MapsAreCheckedAndReplicasCompared := by
  intro holds
  obtain ⟨_, compares, _⟩ := holds
  obtain ⟨served, reps, live, bytes, free⟩ := wideReplicaState_compares
  obtain ⟨t, c, ran, _, _, _, _, _, _, unclaimed, _⟩ :=
    compares wideReplicaState 0 wideEntry wideReplica [] served rfl rfl rfl reps live (by decide) bytes
  obtain ⟨_, _, _, awaited⟩ := unclaimed free
  obtain rfl : wideReplicaAfter = t := Host.Outcome.next.inj (exec_repCheck_wideReplica.symm.trans ran)
  obtain ⟨sent, _⟩ := wideReplicaAfter_sent
  rw [Zw.awaits_of_256_le sent (· == .compare c.num 0) (by decide)] at awaited
  exact Bool.false_ne_true awaited

end Sys2Proof.Machine
end

section
/-! SUPPORT. The commands in flight of a reel (R78, R84): what finishing and running one does, and which one a unit acts on. -/

namespace Sys2Proof.Machine

open Sys2Proof

/-- The engine with the commands in flight of a reel replaced, and nothing else changed. -/
def Eng.setInflight (e : Eng) (n : Nat) (cs : List Cmd) : Eng := e.setReel n { e.reel n with inflight := cs }

@[simp] theorem Eng.inflight_setInflight_self (e : Eng) (n : Nat) (cs : List Cmd) :
    ((e.setInflight n cs).reel n).inflight = cs := by
  unfold Eng.setInflight
  rw [Eng.reel_setReel_self]

/-- Command `c` is in flight at reel `n`, between `pre` and `post`, and no other command in flight there has its count. -/
structure Eng.InFlight (e : Eng) (n : Nat) (pre : List Cmd) (c : Cmd) (post : List Cmd) : Prop where
  inflight : (e.reel n).inflight = pre ++ c :: post
  alone : ∀ x ∈ pre ++ post, x.count ≠ c.count

/-- A change that leaves every command but one. -/
theorem map_eq_of_others {α : Type} {f : α → α} {pre post : List α} (c : α) (others : ∀ x ∈ pre ++ post, f x = x) :
    (pre ++ c :: post).map f = pre ++ f c :: post := by
  have stand (l : List α) (h : ∀ x ∈ l, f x = x) : l.map f = l := (List.map_congr_left h).trans (List.map_id' l)
  rw [List.map_append, List.map_cons, stand pre fun x hx => others x (List.mem_append_left _ hx),
    stand post fun x hx => others x (List.mem_append_right _ hx)]

theorem Cmd.finished_of_ready {c : Cmd} (h : c.phase = .ready) : c.finished = false := by simp [Cmd.finished, h]

section

variable {e e' : Eng} {n : Nat} {pre post : List Cmd} {c : Cmd} (h : e.InFlight n pre c post)

include h

theorem Eng.InFlight.find_count : (e.reel n).inflight.find? (·.count == c.count) = some c := by
  have before : ∀ x ∈ pre, ¬ (x.count == c.count) = true := fun x hx => by
    simpa using h.alone x (List.mem_append_left _ hx)
  rw [h.inflight, List.find?_append, List.find?_eq_none.mpr before]
  simp

/-- What leaves the reel's commands leaves the command in flight. -/
theorem Eng.InFlight.of_inflight (same : (e'.reel n).inflight = (e.reel n).inflight) : e'.InFlight n pre c post :=
  ⟨same.trans h.inflight, h.alone⟩

theorem Eng.InFlight.finishCmd (unfinished : c.finished = false) (st : Byte) (fl : BitVec 4) (de : W32) :
    e.finishCmd n c.count st fl de = e.setInflight n (pre ++ { c with phase := .done st fl de } :: post) := by
  unfold Eng.finishCmd Eng.setInflight
  dsimp only
  rw [h.inflight, map_eq_of_others c fun x hx => if_neg (by simp [h.alone x hx])]
  simp [unfinished]

theorem Eng.InFlight.setInflight {c' : Cmd} (count : c'.count = c.count) :
    (e.setInflight n (pre ++ c' :: post)).InFlight n pre c' post :=
  ⟨e.inflight_setInflight_self n _, fun x hx => count ▸ h.alone x hx⟩

end

theorem Eng.InFlight.runCmd {e : Eng} {n : Fin 64} {pre post : List Cmd} {c : Cmd} (h : e.InFlight n.val pre c post)
    (f : Cmd → Cmd) : e.runCmd n c f = e.setInflight n.val (pre ++ { f c with phase := .running } :: post) := by
  unfold Eng.runCmd Eng.onReel Eng.setInflight
  dsimp only
  rw [h.inflight, map_eq_of_others c fun x hx => if_neg (by simp [h.alone x hx])]
  simp

section

variable {s : State} {n : Fin 64} {ty : Nat} {pre post : List Cmd} {c : Cmd} (h : s.acting n ty pre c post)

include h

theorem State.acting.inFlight : s.eng.InFlight n.val pre c post := by
  obtain ⟨-, inflight, alone, -⟩ := h
  exact ⟨inflight, alone⟩

theorem State.acting.runs : s.runs = true := by
  obtain ⟨fronts, -⟩ := h
  exact ((Bool.and_eq_true _ _).mp fronts).1

theorem State.acting.idle : s.eng.busy 0 = false := by
  obtain ⟨fronts, -⟩ := h
  simpa using ((Bool.and_eq_true _ _).mp fronts).2

theorem State.acting.type_eq : c.type.toNat = ty := by
  obtain ⟨-, -, -, type, -⟩ := h
  exact type

theorem State.acting.unfinished : c.finished = false := by
  obtain ⟨-, -, -, -, ready, -⟩ := h
  exact Cmd.finished_of_ready ready

theorem State.acting.ready : (s.eng.reel n.val).ready ty = some c := by
  obtain ⟨-, inflight, -, type, ready, first⟩ := h
  have before : ∀ x ∈ pre, ¬ (x.type.toNat == ty && x.phase == .ready) = true := fun x hx => by
    simpa using first x hx
  unfold Reel.ready
  rw [inflight, List.find?_append, List.find?_eq_none.mpr before]
  simp [type, ready]

/-- The unit of a type acts on the command. -/
theorem State.acting.act (f : Eng → Cmd → Eng) : s.live (fun e => e.act n ty f) = { s with eng := f s.eng c } := by
  rw [State.live_of_runs h.runs]
  unfold Eng.act
  rw [h.idle, h.ready]
  rfl

/-- What a unit's action on the command makes of the engine. -/
theorem State.acting.next {f : Eng → Cmd → Eng} {e : Eng} (acts : f s.eng c = e) :
    (.next (s.live fun e => e.act n ty f) : Host.Outcome State Fault Refusal) = .next { s with eng := e } := by
  rw [h.act, acts]

/-- A unit that ends its command with a status does nothing else (R84). -/
theorem State.acting.finishes {f : Eng → Cmd → Eng} {st : Byte} {fl : BitVec 4} {de : W32}
    (ends : f s.eng c = s.eng.finishCmd n.val c.count st fl de) :
    (.next (s.live fun e => e.act n ty f) : Host.Outcome State Fault Refusal) =
      .next (s.setInflight n (pre ++ { c with phase := .done st fl de } :: post)) := by
  exact h.next (ends.trans (h.inFlight.finishCmd h.unfinished _ _ _))

end

end Sys2Proof.Machine
end

section
/-! SUPPORT. What publishing along paths 1 and 2 does (R82, R240), and writes not acknowledged yet (R248). -/

namespace Sys2Proof.SMap

/-- A key that no entry has reads the default. -/
theorem get_of_not_mem_keys {α : Type} (d : α) {m : SMap α} {k : Nat} (h : k ∉ m.map (·.1)) : get d m k = d := by
  induction m with
  | nil => rfl
  | cons x m ih =>
    obtain ⟨j, v⟩ := x
    simp only [List.map_cons, List.mem_cons, not_or] at h
    simp only [get, if_neg h.1]
    exact ih h.2

end Sys2Proof.SMap

namespace Sys2Proof.Machine

open Sys2Proof

/-- A fold whose step makes `P` hold of its element, and keeps it of every other, makes it hold of each element of the list. -/
theorem foldl_establishes {σ α : Type} {f : σ → α → σ} {P : σ → α → Prop} (made : ∀ s a, P (f s a) a)
    (kept : ∀ s a b, P s b → P (f s a) b) (xs : List α) (a : α) (s : σ) (h : a ∉ xs → P s a) : P (xs.foldl f s) a := by
  induction xs generalizing s with
  | nil => exact h List.not_mem_nil
  | cons x xs ih =>
    refine ih _ fun out => ?_
    by_cases hx : a = x
    · exact hx ▸ made s x
    · exact kept s x a (h (List.not_mem_cons_of_ne_of_not_mem hx out))

/-- What publishing can change: the sward, device memory, the ports' counters, and the host coupling. -/
def Eng.Publishes (e e' : Eng) : Prop := ∃ w d k h, e' = { e with swd := w, dev := d, mp := { e.mp with ctrs := k }, hc := h }

theorem Eng.Publishes.refl (e : Eng) : e.Publishes e := ⟨_, _, _, _, rfl⟩

theorem Eng.Publishes.trans {a b c : Eng} : a.Publishes b → b.Publishes c → a.Publishes c := by
  rintro ⟨_, _, _, _, rfl⟩ ⟨_, _, _, _, rfl⟩; exact ⟨_, _, _, _, rfl⟩

section

variable {e e' : Eng} (h : e.Publishes e')

include h

theorem Eng.Publishes.reel (n : Nat) : e'.reel n = e.reel n := by obtain ⟨_, _, _, _, rfl⟩ := h; rfl
theorem Eng.Publishes.dirs : e'.dirs = e.dirs := by obtain ⟨_, _, _, _, rfl⟩ := h; rfl
theorem Eng.Publishes.owed (o : Owner) : e'.mp.owed o = e.mp.owed o := by obtain ⟨_, _, _, _, rfl⟩ := h; rfl

end

theorem publishes_foldl {α : Type} {f : Eng → α → Eng} (hf : ∀ (e : Eng) a, e.Publishes (f e a)) (xs : List α) (e : Eng) :
    e.Publishes (xs.foldl f e) := by
  induction xs generalizing e with
  | nil => exact .refl e
  | cons x xs ih => exact (hf e x).trans (ih _)

theorem publishes_onSwd (e : Eng) (f : Swd → Swd) : e.Publishes (e.onSwd f) := ⟨_, _, _, _, rfl⟩

theorem publishes_writeEvict (e : Eng) (v : Evict) : e.Publishes (e.writeEvict v) := by
  unfold Eng.writeEvict
  cases v.d0 <;> cases v.d1 <;> exact ⟨_, _, _, _, rfl⟩

theorem publishes_drainSlice (e : Eng) (slice : Nat) : e.Publishes (e.drainSlice slice) := by
  unfold Eng.drainSlice
  exact (publishes_foldl publishes_writeEvict _ e).trans (publishes_onSwd _ _)

theorem publishes_writeBack (e : Eng) (line : Nat) : e.Publishes (e.writeBack line) := by
  unfold Eng.writeBack
  split
  · exact .refl e
  · exact (publishes_writeEvict _ _).trans (publishes_onSwd _ _)

theorem publishes_writeBackAll (e : Eng) : e.Publishes e.writeBackAll := by
  unfold Eng.writeBackAll
  exact (publishes_foldl publishes_drainSlice _ e).trans (publishes_foldl publishes_writeBack _ _)

theorem publishes_publish (e : Eng) (paths : BitVec 4) (own : Option (Fin 64 × W24) → Bool) :
    e.Publishes (e.publish paths own) := by
  unfold Eng.publish
  dsimp only
  have written : e.Publishes (if bit paths.toNat 0 || bit paths.toNat 1 then e.writeBackAll else e) := by
    split
    · exact publishes_writeBackAll e
    · exact .refl e
  split
  · exact written.trans ⟨_, _, _, _, rfl⟩
  · exact written

/-! ### Nothing dirty is left (R240) -/

theorem writeEvict_swd (e : Eng) (v : Evict) : (e.writeEvict v).swd = e.swd := by
  unfold Eng.writeEvict
  cases v.d0 <;> cases v.d1 <;> rfl

theorem foldl_writeEvict_swd (vs : List Evict) (e : Eng) : (vs.foldl (fun e v => e.writeEvict v) e).swd = e.swd := by
  induction vs generalizing e with
  | nil => rfl
  | cons v vs ih => exact (ih _).trans (writeEvict_swd e v)

/-- A slice that is drained has an empty eviction buffer; lines and the other buffers stand. -/
theorem drainSlice_swd (e : Eng) (slice : Nat) :
    (e.drainSlice slice).swd = { e.swd with evb := e.swd.evb.set [] slice [] } := by
  unfold Eng.drainSlice
  dsimp only
  rw [Eng.onSwd_self, foldl_writeEvict_swd]

theorem writeBack_of_absent {e : Eng} {line : Nat} (h : e.swd.lines.get none line = none) : e.writeBack line = e := by
  unfold Eng.writeBack
  rw [h]

/-- A line whose sectors are written back. -/
def Line.writtenBack (l : Line) : Line := { l with s0 := { l.s0 with dirty := false }, s1 := { l.s1 with dirty := false } }

theorem writeBack_swd {e : Eng} {line : Nat} {l : Line} (h : e.swd.lines.get none line = some l) :
    (e.writeBack line).swd = { e.swd with lines := e.swd.lines.set none line (some l.writtenBack) } := by
  unfold Eng.writeBack
  simp only [h, Eng.onSwd_self, writeEvict_swd]
  rfl

theorem writeBack_evb (e : Eng) (line : Nat) : (e.writeBack line).swd.evb = e.swd.evb := by
  cases h : e.swd.lines.get none line with
  | none => rw [writeBack_of_absent h]
  | some l => rw [writeBack_swd h]

/-- The line is not resident with a dirty sector. -/
def Swd.cleanAt (w : Swd) (k : Nat) : Prop := ∀ l, w.lines.get none k = some l → l.s0.dirty = false ∧ l.s1.dirty = false

theorem cleanAt_writeBack (e : Eng) (line : Nat) : (e.writeBack line).swd.cleanAt line := by
  intro l hl
  cases h : e.swd.lines.get none line with
  | none => rw [writeBack_of_absent h, h] at hl; cases hl
  | some l' =>
    rw [writeBack_swd h] at hl
    obtain rfl := Option.some.inj ((SMap.get_set_self _ _ _ _).symm.trans hl)
    exact ⟨rfl, rfl⟩

theorem cleanAt_writeBack_of_cleanAt (e : Eng) (line k : Nat) (clean : e.swd.cleanAt k) : (e.writeBack line).swd.cleanAt k := by
  by_cases hk : k = line
  · exact hk ▸ cleanAt_writeBack e line
  · cases h : e.swd.lines.get none line with
    | none => rw [writeBack_of_absent h]; exact clean
    | some l' =>
      intro l hl
      rw [writeBack_swd h] at hl
      exact clean l ((SMap.get_set_ne none e.swd.lines (some l'.writtenBack) hk).symm.trans hl)

theorem foldl_writeBack_evb (ks : List Nat) (e : Eng) : (ks.foldl (fun e k => e.writeBack k) e).swd.evb = e.swd.evb := by
  induction ks generalizing e with
  | nil => rfl
  | cons k ks ih => exact (ih _).trans (writeBack_evb e k)

/-- After the whole sward is written back, no eviction entry is left (R240). -/
theorem writeBackAll_evb (e : Eng) (sl : Nat) : e.writeBackAll.swd.evb.get [] sl = [] := by
  unfold Eng.writeBackAll
  dsimp only
  rw [foldl_writeBack_evb]
  refine foldl_establishes (P := fun (e : Eng) sl => e.swd.evb.get [] sl = []) ?_ ?_ _ sl e (SMap.get_of_not_mem_keys [])
  · intro e sl
    rw [drainSlice_swd]
    exact SMap.get_set_self [] e.swd.evb sl []
  · intro e sl k empty
    rw [drainSlice_swd]
    exact (SMap.get_set [] e.swd.evb k sl []).trans (by rw [empty, ite_self])

/-- And no resident line is dirty. -/
theorem writeBackAll_cleanAt (e : Eng) (k : Nat) : e.writeBackAll.swd.cleanAt k := by
  refine foldl_establishes (P := fun (e : Eng) k => e.swd.cleanAt k) cleanAt_writeBack cleanAt_writeBack_of_cleanAt _ k _ ?_
  intro out l hl
  rw [SMap.get_of_not_mem_keys none out] at hl
  cases hl

/-- Publishing along path 1 or 2 writes the whole sward back. -/
theorem publish_swd {e : Eng} {paths : BitVec 4} (named : (bit paths.toNat 0 || bit paths.toNat 1) = true)
    (own : Option (Fin 64 × W24) → Bool) : (e.publish paths own).swd = e.writeBackAll.swd := by
  unfold Eng.publish
  dsimp only
  rw [if_pos named]
  split <;> rfl

/-! ### Writes not acknowledged yet (R248) -/

theorem find_map_owner {o : Owner} {n k : Nat} {acks : List (Owner × Nat)} (found : acks.find? (·.1 == o) = some (o, k)) :
    (acks.map fun x => if x.1 == o then (o, n) else x).find? (·.1 == o) = some (o, n) := by
  induction acks with
  | nil => cases found
  | cons x xs ih =>
    by_cases hx : x.1 = o
    · simp [hx]
    · rw [List.find?_cons_of_neg (by simpa using hx)] at found
      simp only [List.map_cons, beq_iff_eq, if_neg hx] at ih ⊢
      rw [List.find?_cons_of_neg (by simpa using hx)]
      exact ih found

/-- One more write is not acknowledged. -/
theorem Mp.owed_owe (p : Mp) {o : Owner} (ho : o ≠ .engine) : (p.owe o).owed o = p.owed o + 1 := by
  unfold Mp.owe Mp.owed
  split
  · contradiction
  · cases h : p.acks.find? (·.1 == o) with
    | none => simp [List.find?_append, h]
    | some x =>
      obtain rfl : x.1 = o := by simpa using List.find?_some h
      dsimp only
      rw [find_map_owner h]
      rfl

end Sys2Proof.Machine
end

section
/-! SUPPORT. FENCE and WAIT commands (R80, R114, R345). -/

namespace Sys2Proof.Machine

open Sys2Proof

/-- A 13-bit clapper number. -/
theorem clapper_fld (x : Nat) : fld x 0 13 = x % 8192 := fld_low x 13

/-- The paths of a FENCE's byte: bits 2 and 1 name paths 1 and 2, and bit 3 path 3. -/
theorem fencePaths (b : Nat) {paths : BitVec 4} (h : paths = BitVec.ofNat 4 (b / 2)) :
    bit paths.toNat 2 = b.testBit 3 ∧ (b / 2 % 4 ≠ 0 → (bit paths.toNat 0 || bit paths.toNat 1) = true) := by
  subst h
  constructor
  · rw [bit_toNat, BitVec.getLsbD_ofNat, Nat.testBit_div_two]
    rfl
  · intro named
    simp only [bit, fld, BitVec.toNat_ofNat, Bool.or_eq_true, beq_iff_eq]
    omega

/-- When a WAIT that begins to wait times out (R345): its timeout counts microseconds, 0 for none. -/
def Eng.deadlineOf (e : Eng) (c : Cmd) : Option W64 :=
  if le c.body 4 4 = 0 then none else some (e.hth.time + BitVec.ofNat 64 (1000 * le c.body 4 4))

section

variable {e : Eng} {n : Fin 64} {pre post : List Cmd} {c : Cmd} (h : e.InFlight n.val pre c post)

/-- A FENCE waits while a command dispatched before it stands (R80). -/
theorem fence_of_waits (waits : ∃ x ∈ c.after, ∃ y ∈ (e.reel x.1.val).inflight, y.count = x.2) : e.fence n c = e := by
  unfold Eng.fence
  refine if_pos (List.any_eq_true.mpr ?_)
  obtain ⟨x, hx, y, hy, count⟩ := waits
  exact ⟨x, hx, List.any_eq_true.mpr ⟨y, hy, beq_iff_eq.mpr count⟩⟩

include h

/-- A FENCE whose commands have completed publishes, owes path 3's flushing read, and finishes (R80, R82, R267). -/
theorem fence_of_complete (unfinished : c.finished = false)
    (complete : ∀ x ∈ c.after, ∀ y ∈ (e.reel x.1.val).inflight, y.count ≠ x.2) {t : Eng} (ht : t = e.fence n c) :
    (t.reel n.val).inflight = pre ++ { c with phase := .done 0 0 0 } :: post ∧
      (le c.body 0 1 / 2 % 4 ≠ 0 → t.swd = e.writeBackAll.swd) ∧
      t.mp.owed (.cmd n c.count) = e.mp.owed (.cmd n c.count) + (if (le c.body 0 1).testBit 3 then 1 else 0) ∧
      t.dirs = e.dirs := by
  have none : (c.after.any fun x => (e.reel x.1).inflight.any (·.count == x.2)) = false := by
    simpa using complete
  unfold Eng.fence at ht
  rw [if_neg (by rw [none]; decide)] at ht
  extract_lets paths all e1 e2 at ht
  obtain ⟨flushes, writes⟩ := fencePaths (le c.body 0 1) (show paths = _ from rfl)
  have published : e.Publishes e1 := publishes_publish _ _ _
  have owes : e2 = if (le c.body 0 1).testBit 3 then { e1 with mp := e1.mp.owe (.cmd n c.count) } else e1 := by
    rw [← flushes]
  have stands : e2.reel n.val = e.reel n.val ∧ e2.swd = e1.swd ∧ e2.dirs = e.dirs := by
    rw [owes]
    split
    · exact ⟨published.reel _, rfl, published.dirs⟩
    · exact ⟨published.reel _, rfl, published.dirs⟩
  obtain ⟨reel, swd, dirs⟩ := stands
  rw [(h.of_inflight (congrArg Reel.inflight reel)).finishCmd unfinished] at ht
  subst ht
  refine ⟨e2.inflight_setInflight_self _ _, fun named => swd.trans (publish_swd (writes named) _), ?_, dirs⟩
  show e2.mp.owed _ = _
  rw [owes, ← published.owed]
  split
  · exact Mp.owed_owe _ (by simp)
  · rfl

omit h in
/-- A WAIT waits behind the front end's own operations on its clapper (R344). -/
theorem waitCmd_of_held (held : e.clpHeld 8 (le c.body 0 2 % 8192) = true) : e.waitCmd n c = e := by
  unfold Eng.waitCmd
  rw [clapper_fld, if_pos held]

section

variable {cl : Nat} (clapper : cl = le c.body 0 2 % 8192) (free : e.clpHeld 8 cl = false)

include clapper free

omit h in
theorem waitCmd_of_granted (granted : e.acc.firstDenied 1 c.master true false cl 1 = none) :
    e.waitCmd n c = if condHolds (le c.body 2 1 == 1) (BitVec.ofNat 64 (le c.body 8 8)) (e.clap cl) then
        e.finishCmd n c.count 0 0 ((e.clap cl).setWidth 32)
      else e.runCmd n c fun x => { x with deadline := e.deadlineOf c } := by
  subst clapper
  unfold Eng.waitCmd
  simp only [clapper_fld, free, check_of_granted (by simp) granted, Bool.false_eq_true, if_false, Bool.not_true]
  rfl

/-- A WAIT whose master may not read the clapper ends with status access denied (R80). -/
theorem waitCmd_of_denied (unfinished : c.finished = false)
    (denied : e.acc.firstDenied 1 c.master true false cl 1 ≠ none) :
    ((e.waitCmd n c).reel n.val).inflight = pre ++ { c with phase := .done 3 0 0 } :: post := by
  subst clapper
  have refused := check_of_denied denied
  have told := told_check e 1 c.master true false (le c.body 0 2 % 8192) 1
  unfold Eng.waitCmd
  simp only [clapper_fld, free, Bool.false_eq_true, if_false, refused, Bool.not_false, if_true]
  rw [(h.of_inflight (congrArg Reel.inflight (told.reel n.val))).finishCmd unfinished, Eng.inflight_setInflight_self]

end

/-- The oldest WAIT that waits times out (R345). -/
theorem waitTimeout_of_reel (type : c.type = 6) (older : ∀ x ∈ pre, x.type ≠ 6) (running : c.phase = .running) {dl : W64}
    (deadline : c.deadline = some dl) (due : dl ≤ e.hth.time) :
    e.waitTimeout (.reel n) =
      e.setInflight n.val (pre ++ { c with phase := .done 6 0 ((e.clap (le c.body 0 2 % 8192)).setWidth 32) } :: post) := by
  have found : (e.reel n.val).inflight.find? (fun c => c.type == 6 && c.phase == .running) = some c := by
    have before : ∀ x ∈ pre, ¬ (x.type == 6 && x.phase == .running) = true := fun x hx => by
      rw [beq_false_of_ne (older x hx)]
      exact Bool.false_ne_true
    rw [h.inflight, List.find?_append, List.find?_eq_none.mpr before]
    simp [type, running]
  have unfinished : c.finished = false := by simp [Cmd.finished, running]
  refine Eq.trans ?_ (h.finishCmd unfinished _ _ _)
  unfold Eng.waitTimeout
  simp only [found, deadline, if_pos due, clapper_fld]

end

theorem waitTimeout_of_dir {e : Eng} {d : Fin 8} {dst : BitVec 5} {cl : Fin 8192} {eq : Bool} {v dl : W64}
    (waiting : (e.dir d.val).st = .waiting) (wait : (e.dir d.val).wait = .clapper dst cl eq v (some dl)) (due : dl ≤ e.hth.time) :
    e.waitTimeout (.dir d) = e.setDir d.val ((e.dir d.val).cont.putI dst 6) := by
  unfold Eng.waitTimeout
  simp only [waiting, wait, if_pos due]

end Sys2Proof.Machine
end

section
/-! SUPPORT. Clapper operations served at once (R342 to R345), and a SIGNAL's ways (R80, R346). -/

namespace Sys2Proof.Machine

open Sys2Proof

/-- What waking waiters and barrier logic can change: directors, commands in flight, the clappers' queues, the link block and the
heath's barriers. Values of clappers and both memories stand. -/
structure Eng.Wakes (e e' : Eng) : Prop where
  vals : e'.clp.vals = e.clp.vals
  dev : e'.dev = e.dev
  host : e'.host = e.host
  /-- A command that was finished stays as it is. -/
  done : ∀ n c, c ∈ (e.reel n).inflight → c.finished = true → c ∈ (e'.reel n).inflight

theorem Eng.Wakes.refl (e : Eng) : e.Wakes e := ⟨rfl, rfl, rfl, fun _ _ h _ => h⟩

theorem Eng.Wakes.trans {a b c : Eng} (h : a.Wakes b) (g : b.Wakes c) : a.Wakes c :=
  ⟨g.vals.trans h.vals, g.dev.trans h.dev, g.host.trans h.host, fun n x hx hf => g.done n x (h.done n x hx hf) hf⟩

theorem wakes_foldl {α : Type} {f : Eng → α → Eng} (hf : ∀ (e : Eng) a, e.Wakes (f e a)) (xs : List α) (e : Eng) :
    e.Wakes (xs.foldl f e) := by
  induction xs generalizing e with
  | nil => exact .refl e
  | cons x xs ih => exact (hf e x).trans (ih _)

/-- What leaves the reels, the clappers' values and the memories. -/
theorem wakes_of_fields {e e' : Eng} (fe : e'.fe = e.fe) (vals : e'.clp.vals = e.clp.vals) (dev : e'.dev = e.dev)
    (host : e'.host = e.host) : e.Wakes e' :=
  ⟨vals, dev, host, fun n c hc _ => by unfold Eng.reel at hc ⊢; rw [fe]; exact hc⟩

theorem wakes_setDir (e : Eng) (d : Nat) (x : Dir) : e.Wakes (e.setDir d x) := wakes_of_fields rfl rfl rfl rfl

theorem wakes_clpQueue (e : Eng) (r : ClpReq) : e.Wakes (e.clpQueue r) := wakes_of_fields rfl rfl rfl rfl

theorem Eng.ZwOnly.wakes {e e' : Eng} : e.ZwOnly e' → e.Wakes e' := by
  rintro ⟨z, rfl⟩
  exact wakes_of_fields rfl rfl rfl rfl

theorem wakes_finishCmd (e : Eng) (r : Nat) (count : W24) (st : Byte) (fl : BitVec 4) (de : W32) :
    e.Wakes (e.finishCmd r count st fl de) := by
  refine ⟨rfl, rfl, rfl, fun n c hc hf => ?_⟩
  unfold Eng.finishCmd
  rw [Eng.reel_setReel]
  split
  · rename_i hn
    subst hn
    exact List.mem_map.mpr ⟨c, hc, if_neg (by simp [hf])⟩
  · exact hc

theorem wakes_wake (e : Eng) (cl : Fin 8192) (v : W64) : e.Wakes (e.wake cl v) := by
  unfold Eng.wake
  refine (wakes_foldl (fun e d => ?_) _ _).trans (wakes_foldl (fun e r => wakes_foldl (fun e c => ?_) _ _) _ _)
  · dsimp only
    split
    · split
      · exact wakes_setDir _ _ _
      · exact .refl e
    · exact .refl e
  · split
    · exact wakes_finishCmd _ _ _ _ _ _
    · exact .refl e

theorem wakes_release (e : Eng) (b : Barrier) : e.Wakes (e.release b) :=
  (wakes_clpQueue e _).trans (wakes_foldl (fun e _ => (zwOnly_send e _ _ _).wakes) _ _)

theorem wakes_barriers (e : Eng) (cl : Fin 8192) (r : ClpReq) (old v : W64) : e.Wakes (e.barriers cl r old v) := by
  refine wakes_foldl (fun e b => ?_) _ _
  dsimp only
  split
  · exact .refl e
  · split
    · have gen (b' : SMap Barrier) : e.Wakes { e with hth := { e.hth with bars := b' } } := wakes_of_fields rfl rfl rfl rfl
      split
      · exact (gen _).trans (wakes_release _ _)
      · exact gen _
    · split
      · exact wakes_release _ _
      · exact .refl e

/-- The clapper's value after an operation of a command: set to its value, or that added. -/
def ClpReq.result (r : ClpReq) (old : W64) : W64 := if r.kind = .set then r.val else old + r.val

/-- A granted operation of a command on a free bank is served at once: the clapper takes its value, and the command is finished. -/
theorem clpPresent_of_cmd {e : Eng} {r : ClpReq} {n : Fin 64} {pre post : List Cmd} {c : Cmd}
    (h : e.InFlight n.val pre c post) (unfinished : c.finished = false) (free : e.clp.queues.get [] (r.clapper.val % 16) = [])
    (kind : r.kind = .set ∨ r.kind = .add) (plain : r.granted = false ∧ r.keepLow = false ∧ r.dst = none ∧ r.peer = none)
    (cmd : r.cmd = some (n, c.count)) (granted : e.acc.firstDenied 1 r.master false true r.clapper.val 1 = none) :
    ∃ e' : Eng, e'.clp.vals = e.clp.vals.set 0 r.clapper.val (r.result (e.clap r.clapper.val)) ∧ e'.dev = e.dev ∧ e'.host = e.host ∧
      (e'.reel n.val).inflight = pre ++ { c with phase := .done 0 0 c.detail } :: post ∧ e'.Wakes (e.clpPresent r) := by
  obtain ⟨port, keepLow, dst, peer⟩ := plain
  have noFetch : (r.kind == .fetchAdd) = false := by rcases kind with k | k <;> rw [k] <;> rfl
  -- the engine that has noted who was served last, then that with the value stored
  let e1 : Eng := { e with clp := { e.clp with last := e.clp.last.set 11 (r.clapper.val % 16) r.req.val } }
  have value : (if r.kind == .set then (if r.keepLow then r.val.extractLsb' 32 32 ++ (e1.clap r.clapper).setWidth 32 else r.val)
      else e1.clap r.clapper + r.val) = r.result (e1.clap r.clapper) := by
    rw [keepLow]
    rcases kind with k | k <;> rw [ClpReq.result, k] <;> rfl
  let e2 : Eng := { e1 with clp := { e1.clp with vals := e1.clp.vals.set 0 r.clapper.val (r.result (e1.clap r.clapper)) } }
  have flight : e2.InFlight n.val pre c post := h.of_inflight rfl
  have checked : e1.check 1 r.master false true r.clapper.val 1 = (e1, true) := check_of_granted (by simp) granted
  have answered (old : W64) : e2.clpAnswer r old true = e2.setInflight n.val (pre ++ { c with phase := .done 0 0 c.detail } :: post) := by
    unfold Eng.clpAnswer
    simp only [dst, peer, cmd, flight.find_count, if_true]
    exact flight.finishCmd unfinished _ _ _
  refine ⟨e2.setInflight n.val (pre ++ { c with phase := .done 0 0 c.detail } :: post), rfl, rfl, rfl,
    e2.inflight_setInflight_self _ _, ?_⟩
  unfold Eng.clpPresent Eng.clpServe
  simp only [free, List.isEmpty_nil, Bool.not_true, Bool.false_eq_true, if_false, port, noFetch]
  rw [show e1.check 1 r.master false true r.clapper.val 1 = (e1, true) from checked]
  simp only [if_true]
  rw [value, answered]
  exact (wakes_wake _ _ _).trans (wakes_barriers _ _ _ _ _)

/-! ### SIGNAL (R80, R346) -/

/-- The operation that a SIGNAL to this engine presents. -/
def Cmd.signalReq (c : Cmd) (n : Fin 64) (cl : Fin 8192) : ClpReq :=
  { req := 8, master := c.master, clapper := cl, kind := if le c.body 2 1 = 0 then .set else .add,
    val := BitVec.ofNat 64 (le c.body 8 8), dst := none, peer := none, cmd := some (n, c.count) }

theorem Cmd.signalReq_kind (c : Cmd) (n : Fin 64) (cl : Fin 8192) :
    (c.signalReq n cl).kind = .set ∨ (c.signalReq n cl).kind = .add := by
  unfold Cmd.signalReq
  dsimp only
  split
  · exact .inl rfl
  · exact .inr rfl

theorem Cmd.signalReq_result (c : Cmd) (n : Fin 64) (cl : Fin 8192) (old : W64) :
    (c.signalReq n cl).result old =
      if le c.body 2 1 = 0 then BitVec.ofNat 64 (le c.body 8 8) else old + BitVec.ofNat 64 (le c.body 8 8) := by
  unfold Cmd.signalReq ClpReq.result
  by_cases h : le c.body 2 1 = 0 <;> simp [h]

section

variable {e : Eng} {n : Fin 64} {c : Cmd}

theorem signal_of_self (self : e.hth.isSelf (le c.body 3 1) = true) {cl : Fin 8192} (hcl : cl.val = le c.body 0 2 % 8192) :
    e.signal n c = (e.runCmd n c).clpPresent (c.signalReq n cl) := by
  have same : (⟨fld (le c.body 0 2) 0 13, by unfold fld; exact Nat.mod_lt _ (by decide)⟩ : Fin 8192) = cl :=
    Fin.ext ((clapper_fld _).trans hcl.symm)
  unfold Eng.signal
  simp only [self, if_true]
  rw [same]
  rfl

variable (peer : e.hth.isSelf (le c.body 3 1) = false)

include peer

theorem signal_of_gone (gone : e.hth.gone (le c.body 3 1) = true) : e.signal n c = e.finishCmd n c.count 7 0 0 := by
  unfold Eng.signal
  simp only [peer, gone, Bool.false_eq_true, if_false, if_true]

/-- The message that a SIGNAL to a peer sends. -/
theorem signal_of_peer (there : e.hth.gone (le c.body 3 1) = false) :
    e.signal n c = (e.runCmd n c).send (le c.body 3 1)
      (.clpOp (BitVec.ofNat 13 (le c.body 0 2 % 8192)) (BitVec.ofNat 2 (le c.body 2 1)) (BitVec.ofNat 64 (le c.body 8 8)))
      (.signal n c.count) := by
  unfold Eng.signal
  simp only [peer, there, Bool.false_eq_true, if_false, clapper_fld]

end

/-- A SIGNAL has no detail (R84). -/
theorem Cmd.detail_of_signal {c : Cmd} (type : c.type.toNat = 5) : c.detail = 0 := by
  unfold Cmd.detail
  rw [if_neg]
  rintro (h | h) <;> rw [h] at type <;> contradiction

/-- The command `c` as its unit works on it. -/
def Cmd.atWork (c : Cmd) : Cmd := { c with phase := .running }

theorem Eng.InFlight.atWork {e : Eng} {n : Fin 64} {pre post : List Cmd} {c : Cmd} (h : e.InFlight n.val pre c post) :
    (e.runCmd n c).InFlight n.val pre c.atWork post := (h.runCmd id) ▸ h.setInflight rfl

/-- A SIGNAL to this engine operates its clapper at once and finishes (R80, R342). -/
theorem signal_of_granted {e : Eng} {n : Fin 64} {pre post : List Cmd} {c : Cmd} (h : e.InFlight n.val pre c post)
    (type : c.type.toNat = 5) (self : e.hth.isSelf (le c.body 3 1) = true) {cl : Nat} (hcl : cl = le c.body 0 2 % 8192)
    (free : e.clp.queues.get [] (cl % 16) = []) (granted : e.acc.firstDenied 1 c.master false true cl 1 = none) {v : W64}
    (hv : v = BitVec.ofNat 64 (le c.body 8 8)) {t : Eng} (ht : t = e.signal n c) :
    (∀ x, t.clap x = if x = cl then (if le c.body 2 1 = 0 then v else e.clap cl + v) else e.clap x) ∧
      { c with phase := .done 0 0 0 } ∈ (t.reel n.val).inflight ∧ t.dev = e.dev ∧ t.host = e.host := by
  subst hcl hv
  let cl : Fin 8192 := ⟨le c.body 0 2 % 8192, Nat.mod_lt _ (by decide)⟩
  obtain ⟨e', vals, dev, host, inflight, wakes⟩ :=
    clpPresent_of_cmd (r := c.signalReq n cl) h.atWork rfl free (c.signalReq_kind n cl) ⟨rfl, rfl, rfl, rfl⟩ rfl granted
  rw [← signal_of_self self (cl := cl) rfl, ← ht] at wakes
  have detail : c.atWork.detail = 0 := Cmd.detail_of_signal type
  refine ⟨fun x => ?_, wakes.done n.val _ ?_ rfl, wakes.dev.trans dev, wakes.host.trans host⟩
  · unfold Eng.clap
    rw [wakes.vals, vals, c.signalReq_result]
    exact SMap.get_set 0 e.clp.vals x cl.val _
  · rw [inflight, detail]
    exact List.mem_append_right _ List.mem_cons_self

section

variable {e e' : Eng} (h : e.ZwOnly e')

include h

theorem Eng.ZwOnly.reel (n : Nat) : e'.reel n = e.reel n := by obtain ⟨_, rfl⟩ := h; rfl
theorem Eng.ZwOnly.clap (x : Nat) : e'.clap x = e.clap x := by obtain ⟨_, rfl⟩ := h; rfl
theorem Eng.ZwOnly.dirs : e'.dirs = e.dirs := by obtain ⟨_, rfl⟩ := h; rfl

end

/-- A message that waits is kept with its destination (R289, R293, R294). -/
theorem send_of_waits {e : Eng} {d : Nat} {b : ZBody} (waits : e.sendWaits d b = true) (u : Purpose) :
    e.send d b u = e.onZw fun z => { z with blocked := z.blocked ++ [(d, b, u)] } := if_pos waits

/-- A tracked message that is sent is kept until it is answered (R293). -/
theorem tracked_send {e : Eng} {d : Nat} {b : ZBody} (now : e.sendWaits d b = false) (tracks : zTracked b = true) (u : Purpose) :
    ∃ k : Track, (e.send d b u).zw.tracked = e.zw.tracked ++ [k] ∧ k.msg.dst = BitVec.ofNat 8 d ∧ k.msg.body = b ∧ k.use = u := by
  unfold Eng.send
  rw [if_neg (by rw [now]; decide)]
  unfold Eng.sendNow
  dsimp only
  rw [if_pos tracks, tracked_forward]
  exact ⟨_, rfl, rfl, rfl, rfl⟩

end Sys2Proof.Machine
end

section
/-! SUPPORT. The fetch of slots (R66, R72, R76, R406): which reel a grant goes to, what ageing leaves, and how a slot's read ends. -/

namespace Sys2Proof.Machine

open Sys2Proof

/-! ### The arbiter (R76) -/

/-- A fold that keeps what it has or takes the element before it ends with one of the list's elements, or with what it began. -/
theorem foldl_picks {α : Type} {f : Option α → α → Option α} (picks : ∀ b x y, f b x = some y → b = some y ∨ y = x)
    {xs : List α} {b : Option α} {y : α} (h : xs.foldl f b = some y) : b = some y ∨ y ∈ xs := by
  induction xs generalizing b with
  | nil => exact .inl h
  | cons x xs ih =>
    rcases ih h with hb | hy
    · rcases picks b x y hb with hb | rfl
      · exact .inl hb
      · exact .inr List.mem_cons_self
    · exact .inr (List.mem_cons_of_mem _ hy)

/-- The arbiter grants an eligible reel; while none is aged, no eligible reel has a lower priority number (R76). -/
theorem grantee_spec {e : Eng} {n : Nat} (h : e.grantee = some n) :
    (e.reel n).eligible = true ∧
      ((∀ k, (e.reel k).agedAt = none) → ∀ k < 64, (e.reel k).eligible = true → (e.reel n).prio ≤ (e.reel k).prio) := by
  unfold Eng.grantee at h
  extract_lets el aged at h
  split at h
  · rename_i g m first
    cases h
    have mem : (g, n) ∈ aged := by
      refine (foldl_picks (fun b x y hxy => ?_) first).resolve_left (by simp)
      cases b with
      | none => exact .inr (Option.some.inj hxy).symm
      | some b =>
        simp only at hxy
        split at hxy
        · exact .inr (Option.some.inj hxy).symm
        · exact .inl hxy
    obtain ⟨k, hk, found⟩ := List.mem_filterMap.mp mem
    obtain ⟨g', age, same⟩ := Option.map_eq_some_iff.mp found
    cases same
    exact ⟨(List.mem_filter.mp hk).2, fun fresh => absurd age (by rw [fresh]; simp)⟩
  · split at h
    · cases h
    · rename_i p least
      have granted := List.find?_some h
      simp only [Bool.and_eq_true, beq_iff_eq] at granted
      obtain ⟨eligible, prio⟩ := granted
      refine ⟨eligible, fun _ k hk hel => ?_⟩
      rw [prio]
      exact (List.min?_eq_some_iff.mp least).2 _ (List.mem_map_of_mem (List.mem_filter.mpr ⟨List.mem_range.mpr hk, hel⟩))

/-- Only how long the reels have been passed over differs. -/
structure Eng.Ages (e e' : Eng) : Prop where
  frame : ∃ rs, e' = { e with fe := { e.fe with reels := rs } }
  reels : ∀ k, ∃ p a, e'.reel k = { e.reel k with passed := p, agedAt := a }

theorem Eng.Ages.refl (e : Eng) : e.Ages e := ⟨⟨_, rfl⟩, fun _ => ⟨_, _, rfl⟩⟩

theorem Eng.Ages.trans {a b c : Eng} (h : a.Ages b) (g : b.Ages c) : a.Ages c := by
  obtain ⟨_, hb⟩ := h.frame
  obtain ⟨rs, hc⟩ := g.frame
  refine ⟨⟨rs, by rw [hc, hb]⟩, fun k => ?_⟩
  obtain ⟨_, _, hk⟩ := h.reels k
  obtain ⟨p, a, gk⟩ := g.reels k
  exact ⟨p, a, by rw [gk, hk]⟩

theorem ages_setReel {e : Eng} {n : Nat} {r : Reel} {p : Nat} {a : Option Nat} (h : r = { e.reel n with passed := p, agedAt := a }) :
    e.Ages (e.setReel n r) := by
  refine ⟨⟨_, rfl⟩, fun k => ?_⟩
  rw [Eng.reel_setReel]
  split
  · rename_i hk
    exact hk ▸ ⟨p, a, h⟩
  · exact ⟨_, _, rfl⟩

theorem ages_age (e : Eng) (n : Nat) : e.Ages (e.age n) := by
  unfold Eng.age
  induction List.range 64 generalizing e with
  | nil => exact .refl e
  | cons i is ih =>
    refine Eng.Ages.trans ?_ (ih _)
    dsimp only
    split
    · split
      · exact .refl e
      · exact ages_setReel rfl
    · exact ages_setReel rfl

/-- The slot that a grant to a reel begins to read. -/
def Reel.nextSlot (r : Reel) : Slot := { count := r.rd + BitVec.ofNat 24 r.slots.length, st := .reading }

/-- A grant begins the read of the granted reel's next slot, and changes no other reel's slots (R76). -/
theorem fetchGrant_of_grantee {e : Eng} {n : Nat} (idle : e.busy 0 = false) (granted : e.grantee = some n) {t : Eng}
    (ht : t = e.fetchGrant) :
    (t.reel n).slots = (e.reel n).slots ++ [(e.reel n).nextSlot] ∧ (∀ k, k ≠ n → (t.reel k).slots = (e.reel k).slots) ∧
      t.dirs = e.dirs ∧ t.dev = e.dev ∧ t.host = e.host := by
  have aged := ages_age e n
  unfold Eng.fetchGrant at ht
  rw [idle, granted] at ht
  simp only [Bool.false_eq_true, if_false] at ht
  generalize e.age n = e1 at aged ht
  obtain ⟨rs, frame⟩ := aged.frame
  obtain ⟨_, _, self⟩ := aged.reels n
  subst ht
  refine ⟨?_, fun k hk => ?_, ?_, ?_, ?_⟩
  · refine (congrArg Reel.slots (Eng.reel_setReel_self _ n _)).trans ?_
    show (e1.reel n).slots ++ [(e1.reel n).nextSlot] = _
    rw [self]
    rfl
  · obtain ⟨_, _, other⟩ := aged.reels k
    refine (congrArg Reel.slots ((Eng.reel_setReel _ n k _).trans (if_neg hk))).trans ?_
    show (e1.reel k).slots = _
    rw [other]
  all_goals subst frame; rfl

/-! ### A slot's read returns (R66, R72, R406) -/

section

variable {e : Eng} {n : Nat} {x : Slot} (slots : (e.reel n).slots = [x])

include slots

/-- A reel's one slot in another state. -/
theorem onReel_setSlot (st : SlotSt) :
    e.onReel n (·.setSlot x.count st) = e.setReel n { e.reel n with slots := [{ x with st := st }] } := by
  unfold Eng.onReel Reel.setSlot
  dsimp only
  rw [slots]
  simp

/-- A slot that is held, or still read, leaves its reel. -/
theorem slotSettle_of_open (is : ∀ b, x.st ≠ .exhausted b ∧ x.st ≠ .failed b) : e.slotSettle n = e := by
  unfold Eng.slotSettle
  simp only [slots, placeSlots, if_true]
  cases hst : x.st with
  | exhausted b => exact absurd hst (is b).1
  | failed k => exact absurd hst (is k).2
  | _ => simp [List.find?, hst]

/-- A slot whose re-reads all returned without its lap halts its reel as torn (R72). -/
theorem slotSettle_of_exhausted {b : Byte} (st : x.st = .exhausted b) :
    (e.slotSettle n).reel n = { (e.reel n).unaged with halted := true, torn := true, slots := [] } := by
  unfold Eng.slotSettle
  simp only [slots, placeSlots, if_true, List.find?, st, Bool.not_false]
  exact ((told_post _ _ _ _ _ _).reel n).trans (Eng.reel_setReel_self _ _ _)

/-- A slot whose read failed halts its reel (R406). -/
theorem slotSettle_of_failed {k : Byte} (st : x.st = .failed k) :
    (e.slotSettle n).reel n = { (e.reel n).unaged with halted := true, fetchErr := true, slots := [] } := by
  unfold Eng.slotSettle
  simp only [slots, placeSlots, if_true, List.find?, st, Bool.not_false]
  exact ((told_post _ _ _ _ _ _).reel n).trans (Eng.reel_setReel_self _ _ _)

end

/-- The read numbered `k` of a slot is the one that returns next (R72): its first, or one of the re-reads issued. -/
def SlotSt.due (st : SlotSt) (k : Nat) : Bool := match st with
  | .reading => k == 0
  | .rereading issued returned _ => decide (1 ≤ k) && decide (k ≤ issued) && decide (returned < issued)
  | _ => false

/-- What the bytes of a slot's read make of it, where they may show its lap `stamp` (R66, R72). -/
def SlotSt.after (st : SlotSt) (stamp : Nat) (bs : List Byte) : SlotSt :=
  if le bs 0 1 = stamp then .got bs
  else match st with
    | .rereading issued returned _ =>
      if returned = 15 then .exhausted (bs.headD 0) else .rereading issued (returned + 1) (bs.headD 0)
    | _ => .rereading 0 0 (bs.headD 0)

section

variable {e : Eng} {n : Nat} {x : Slot} (slots : (e.reel n).slots = [x]) (loc : (e.reel n).loc = true)
  (granted : e.acc.firstDenied 5 (e.reel n).master true false ((e.reel n).slotAddr x.count) 64 = none)
  {k : Nat} (due : x.st.due k = true)

include slots loc granted due

/-- A read of a slot in host memory, which its reel's master may read, that has returned. -/
theorem slotReturn_of_due (res : ReadRes) :
    e.slotReturn n x.count k res =
      if res ≠ .ok then (e.onReel n (·.setSlot x.count (.failed (if hostSide res then 2 else 1)))).slotSettle n
      else (e.onReel n (·.setSlot x.count
        (x.st.after ((e.reel n).stamp x.count) (e.host.rdN ((e.reel n).slotAddr x.count) 64)))).slotSettle n := by
  have found : (e.reel n).slots.find? (·.count == x.count) = some x := by simp [slots]
  have checked : e.checkMem true true (e.reel n).master true false ((e.reel n).slotAddr x.count) 64 = (e, true) :=
    check_of_granted (by simp) granted
  have notEarly : ¬ (!x.st.due k) = true := by rw [due]; decide
  unfold Eng.slotReturn
  simp only [found, loc, checked, if_true, Bool.not_true, Bool.false_eq_true, if_false]
  exact if_neg notEarly

theorem slotReturn_of_failed {res : ReadRes} (failed : res ≠ .ok) {t : Eng} (ht : t = e.slotReturn n x.count k res) :
    t.reel n = { (e.reel n).unaged with halted := true, fetchErr := true, slots := [] } := by
  rw [slotReturn_of_due slots loc granted due, if_pos failed, onReel_setSlot slots] at ht
  rw [ht, slotSettle_of_failed (e := e.setReel n _) (congrArg Reel.slots (Eng.reel_setReel_self _ _ _)) rfl,
    Eng.reel_setReel_self]
  rfl

/-- A slot that its read leaves held, or to be read again, is all that changes. -/
theorem slotReturn_of_open {st : SlotSt} (hst : st = x.st.after ((e.reel n).stamp x.count) (e.host.rdN ((e.reel n).slotAddr x.count) 64))
    (is : ∀ b, st ≠ .exhausted b ∧ st ≠ .failed b) :
    e.slotReturn n x.count k .ok = e.setReel n { e.reel n with slots := [{ x with st := st }] } := by
  rw [slotReturn_of_due slots loc granted due, if_neg (by simp), ← hst, onReel_setSlot slots]
  exact slotSettle_of_open (e := e.setReel n _) (congrArg Reel.slots (Eng.reel_setReel_self _ _ _)) is

theorem slotReturn_of_exhausted {b : Byte}
    (hst : x.st.after ((e.reel n).stamp x.count) (e.host.rdN ((e.reel n).slotAddr x.count) 64) = .exhausted b) {t : Eng}
    (ht : t = e.slotReturn n x.count k .ok) :
    t.reel n = { (e.reel n).unaged with halted := true, torn := true, slots := [] } := by
  rw [slotReturn_of_due slots loc granted due, if_neg (by simp), hst, onReel_setSlot slots] at ht
  rw [ht, slotSettle_of_exhausted (e := e.setReel n _) (congrArg Reel.slots (Eng.reel_setReel_self _ _ _)) rfl,
    Eng.reel_setReel_self]
  rfl

end

end Sys2Proof.Machine
end

section
/-! SUPPORT. The reels' registers (R71, R73, R75, R91, R405), and the records that a message reel writes to host memory (R86, R89). -/

namespace Sys2Proof.Machine

open Sys2Proof

/-! ### The rows of the reels' registers -/

theorem regBlock_of_page {off : Nat} (lo : 0xA000 ≤ off) (hi : off < 0xB000) : regBlock off = (3, 0xA000) := by
  unfold regBlock
  rw [if_neg (by omega), if_pos (by omega)]
  have page : off / 0x1000 = 10 := by omega
  rw [page]

/-- Of the reel block's words only the bases are pairs (R4). -/
theorem isPair_of_page {off : Nat} (lo : 0xA000 ≤ off) (hi : off < 0xB000) (rest : off % 0x20 ≠ 0) : isPair off = false := by
  have rest : (off - 0xA000) % 0x20 ≠ 0 := by omega
  unfold isPair
  rw [regBlock_of_page lo hi]
  show (decide (off - 0xA000 < 0xA00) && (off - 0xA000) % 0x20 == 0) = false
  rw [beq_false_of_ne rest, Bool.and_false]

theorem blkWr_of_page (s : State) (m : Fin 64) {off : Nat} (lo : 0xA000 ≤ off) (hi : off < 0xB000) (v : Nat) :
    s.blkWr m off v = { s with eng := s.eng.feWr (off - 0xA000) v } := by
  unfold State.blkWr
  rw [regBlock_of_page lo hi]
  rfl

/-- A served write of a 32-bit register of the reel block. -/
theorem regWr_of_page {s : State} {m : Fin 64} {off : Nat} {v : W32} {e : Eng} (h : s.serves m off (.wr32 v) = true)
    (lo : 0xA000 ≤ off) (hi : off < 0xB000) (word : 8 ≤ off % 0x20) (acts : s.eng.feWr (off - 0xA000) v.toNat = e) :
    s.regWr m off v = { s with eng := e } := by
  rw [regWr_of_plain h (isPair_of_page lo hi (by omega)) (isPair_of_page (by omega) (by omega) (by omega)),
    blkWr_of_page s m lo hi, acts]

/-- The registers of command reel `n` lie at its stride (R91). -/
theorem reel_register (n : Fin 64) {o : Nat} (ho : o < 0x20) :
    o + 0x20 * n.val < 0x800 ∧ (o + 0x20 * n.val) / 0x20 = n.val ∧ (o + 0x20 * n.val) % 0x20 = o := by
  have := n.isLt
  omega

/-- The registers of message reel `k` lie at its stride (R91). -/
theorem mreel_register (k : Fin 16) {o : Nat} (ho : o < 0x20) :
    ¬ 0x800 + o + 0x20 * k.val < 0x800 ∧ 0x800 + o + 0x20 * k.val < 0xA00 ∧
      (0x800 + o + 0x20 * k.val - 0x800) / 0x20 = k.val ∧ (0x800 + o + 0x20 * k.val) % 0x20 = o := by
  have := k.isLt
  omega

section

variable (e : Eng) (n : Fin 64) (k : Fin 16) (v : W32)

theorem feWr_reelBase (v : W64) : e.feWr (0x00 + 0x20 * n.val) v.toNat = e.reelBase n.val v := by
  obtain ⟨lt, index, rest⟩ := reel_register n (o := 0x00) (by decide)
  unfold Eng.feWr
  rw [if_pos lt, index, rest, BitVec.ofNat_toNat 64 v, BitVec.setWidth_eq]
  rfl

theorem feWr_reelCfg : e.feWr (0x08 + 0x20 * n.val) v.toNat = e.reelCfg n.val v := by
  obtain ⟨lt, index, rest⟩ := reel_register n (o := 0x08) (by decide)
  unfold Eng.feWr
  rw [if_pos lt, index, rest, BitVec.ofNat_toNat 32 v, BitVec.setWidth_eq]
  rfl

theorem feWr_doorbell : e.feWr (0x0C + 0x20 * n.val) v.toNat = e.doorbell n.val (v.setWidth 24) := by
  obtain ⟨lt, index, rest⟩ := reel_register n (o := 0x0C) (by decide)
  unfold Eng.feWr
  rw [if_pos lt, index, rest, BitVec.ofNat_toNat 32 v, BitVec.setWidth_eq]
  rfl

theorem feWr_reelRd : e.feWr (0x14 + 0x20 * n.val) v.toNat = e.reelRd n.val (v.setWidth 24) := by
  obtain ⟨lt, index, rest⟩ := reel_register n (o := 0x14) (by decide)
  unfold Eng.feWr
  rw [if_pos lt, index, rest, BitVec.ofNat_toNat 32 v, BitVec.setWidth_eq]
  rfl

theorem feWr_mreelCfg : e.feWr (0x800 + 0x08 + 0x20 * k.val) v.toNat = e.mreelCfg k.val v := by
  obtain ⟨ge, lt, index, rest⟩ := mreel_register k (o := 0x08) (by decide)
  unfold Eng.feWr
  rw [if_neg ge, if_pos lt, index, rest, BitVec.ofNat_toNat 32 v, BitVec.setWidth_eq]
  rfl

theorem feWr_mreelRd : e.feWr (0x800 + 0x10 + 0x20 * k.val) v.toNat = e.mreelRd k.val v := by
  obtain ⟨ge, lt, index, rest⟩ := mreel_register k (o := 0x10) (by decide)
  unfold Eng.feWr
  rw [if_neg ge, if_pos lt, index, rest, BitVec.ofNat_toNat 32 v, BitVec.setWidth_eq]
  rfl

end

section

variable {s : State} {m n : Fin 64} {k : Fin 16} {v : W32}

theorem exec_reelDoorbell (h : s.serves m (0xA00C + 0x20 * n.val) (.wr32 v) = true) :
    exec (.reelDoorbell m n v) s = .next { s with eng := s.eng.doorbell n.val (v.setWidth 24) } := by
  refine congrArg _ (regWr_of_page h (by omega) (by omega) (by omega) ?_)
  rw [show 0xA00C + 0x20 * n.val - 0xA000 = 0x0C + 0x20 * n.val by omega, feWr_doorbell]

theorem exec_reelCfgWrite (h : s.serves m (0xA008 + 0x20 * n.val) (.wr32 v) = true) :
    exec (.reelCfgWrite m n v) s = .next { s with eng := s.eng.reelCfg n.val v } := by
  refine congrArg _ (regWr_of_page h (by omega) (by omega) (by omega) ?_)
  rw [show 0xA008 + 0x20 * n.val - 0xA000 = 0x08 + 0x20 * n.val by omega, feWr_reelCfg]

theorem exec_reelRdWrite (h : s.serves m (0xA014 + 0x20 * n.val) (.wr32 v) = true) :
    exec (.reelRdWrite m n v) s = .next { s with eng := s.eng.reelRd n.val (v.setWidth 24) } := by
  refine congrArg _ (regWr_of_page h (by omega) (by omega) (by omega) ?_)
  rw [show 0xA014 + 0x20 * n.val - 0xA000 = 0x14 + 0x20 * n.val by omega, feWr_reelRd]

/-- A 64-bit write of a base also drops the low word that its master's latch held (R5). -/
theorem exec_reelBaseWrite {v : W64} (h : s.serves m (0xA000 + 0x20 * n.val) (.wr64 v) = true) :
    ∃ t : State, exec (.reelBaseWrite m n v) s = .next { t with eng := t.eng.reelBase n.val v } ∧ t.ao = s.ao ∧
      t.eng.fe = s.eng.fe ∧ t.eng.dirs = s.eng.dirs := by
  refine ⟨s.onLatch m (0xA000 + 0x20 * n.val) fun l => { l with wr := none }, congrArg Host.Outcome.next ?_, rfl, rfl, rfl⟩
  refine (regWr64_of_serves h).trans ((blkWr_of_page _ m (by omega) (by omega) _).trans ?_)
  rw [show 0xA000 + 0x20 * n.val - 0xA000 = 0x00 + 0x20 * n.val by omega, feWr_reelBase]

theorem exec_mreelCfgWrite (h : s.serves m (0xA808 + 0x20 * k.val) (.wr32 v) = true) :
    exec (.mreelCfgWrite m k v) s = .next { s with eng := s.eng.mreelCfg k.val v } := by
  refine congrArg _ (regWr_of_page h (by omega) (by omega) (by omega) ?_)
  rw [show 0xA808 + 0x20 * k.val - 0xA000 = 0x800 + 0x08 + 0x20 * k.val by omega, feWr_mreelCfg]

theorem exec_mreelRdWrite (h : s.serves m (0xA810 + 0x20 * k.val) (.wr32 v) = true) :
    exec (.mreelRdWrite m k v) s = .next { s with eng := s.eng.mreelRd k.val v } := by
  refine congrArg _ (regWr_of_page h (by omega) (by omega) (by omega) ?_)
  rw [show 0xA810 + 0x20 * k.val - 0xA000 = 0x800 + 0x10 + 0x20 * k.val by omega, feWr_mreelRd]

end

end Sys2Proof.Machine
end

section
/-! SUPPORT. What the message reels do (R86, R89 to R91): what posting keeps of a reel, and the records written to host memory. -/

namespace Sys2Proof.Machine

open Sys2Proof

/-! ### Bytes of a number -/

theorem leNat_leBytes (n v : Nat) : leNat (leBytes n v) = v % 256 ^ n := by
  induction n generalizing v with
  | zero => simp [leBytes, leNat, Nat.mod_one]
  | succ n ih =>
    have low : (BitVec.ofNat 8 v).toNat = v % 256 := BitVec.toNat_ofNat ..
    rw [leBytes, leNat, ih, low, Nat.pow_succ', Nat.mod_mul]

theorem fld_congr {x y lo w : Nat} (h : ∀ i < w, x.testBit (lo + i) = y.testBit (lo + i)) : fld x lo w = fld y lo w := by
  refine Nat.eq_of_testBit_eq fun i => ?_
  unfold fld
  rw [Nat.testBit_mod_two_pow, Nat.testBit_mod_two_pow, Nat.testBit_div_two_pow, Nat.testBit_div_two_pow, Nat.add_comm i lo]
  by_cases hi : i < w
  · rw [h i hi]
  · simp [hi]

theorem Memory.rdN_eq_drop_take (m : Memory) (a n : Nat) {o k : Nat} (h : o + k ≤ n) :
    m.rdN (a + o) k = ((m.rdN a n).drop o).take k := by
  refine List.ext_getElem (by simp; omega) fun i hi _ => ?_
  rw [Memory.length_rdN] at hi
  rw [List.getElem_take, List.getElem_drop, Memory.getElem_rdN, Memory.getElem_rdN, Nat.add_assoc]

/-- A record's bytes from its eighth on, and then its stamp with the first seven (R86), lie in the order of the record. -/
theorem Memory.rdN_record (m : Memory) (a : Nat) (stamp : Byte) {rec : List Byte} (len : rec.length = 31) :
    ((m.wrN (a + 8) (rec.drop 7)).wrN a (stamp :: rec.take 7)).rdN a 32 = stamp :: rec := by
  refine List.ext_getElem (by simp [len]) fun i hi _ => ?_
  rw [Memory.length_rdN] at hi
  rw [Memory.getElem_rdN]
  by_cases low : i < 8
  · rw [Memory.rd_wrN_of_inside _ _ _ _ (by simpa [len] using low)]
    cases i with
    | zero => rfl
    | succ i => simp
  · obtain ⟨j, rfl⟩ : ∃ j, i = 8 + j := ⟨i - 8, by omega⟩
    rw [Memory.rd_wrN_of_outside _ _ _ _ (by simp [len]), ← Nat.add_assoc,
      Memory.rd_wrN_of_inside _ _ _ _ (by simp [len]; omega), List.getElem_drop]
    simp only [show 8 + j = 7 + j + 1 by omega, List.getElem_cons_succ]

theorem Memory.rd_record_of_outside (m : Memory) (a : Nat) (stamp : Byte) {rec : List Byte} (len : rec.length = 31) {y : Nat}
    (out : y < a ∨ a + 32 ≤ y) : ((m.wrN (a + 8) (rec.drop 7)).wrN a (stamp :: rec.take 7)).rd y = m.rd y := by
  rw [Memory.rd_wrN_of_outside _ _ _ _ (by simp [len]; omega), Memory.rd_wrN_of_outside _ _ _ _ (by simp [len]; omega)]

/-! ### Posting keeps the message reels' settings -/

/-- Every message reel has the settings, the flags and the RD of before. -/
def Eng.Mails (e e' : Eng) : Prop := ∀ k, ∃ w l a h, e'.mreel k = { e.mreel k with wr := w, lost := l, armed := a, held := h }

theorem Eng.Mails.of_mreels {e e' : Eng} (h : e'.fe.mreels = e.fe.mreels) : e.Mails e' := by
  intro k
  unfold Eng.mreel
  rw [h]
  exact ⟨_, _, _, _, rfl⟩

theorem Eng.Mails.refl (e : Eng) : e.Mails e := .of_mreels rfl

theorem Eng.Mails.trans {a b c : Eng} (h : a.Mails b) (g : b.Mails c) : a.Mails c := by
  intro k
  obtain ⟨_, _, _, _, hk⟩ := h k
  obtain ⟨_, _, _, _, gk⟩ := g k
  rw [gk, hk]
  exact ⟨_, _, _, _, rfl⟩

theorem mails_setMreel (e : Eng) (m : Nat) (w : W24) (l : W32) (a : Bool) (h : List (List Byte)) :
    e.Mails (e.setMreel m { e.mreel m with wr := w, lost := l, armed := a, held := h }) := by
  intro k
  rw [Eng.mreel_setMreel]
  by_cases hk : k = m
  · subst hk
    rw [if_pos rfl]
    exact ⟨_, _, _, _, rfl⟩
  · rw [if_neg hk]
    exact ⟨_, _, _, _, rfl⟩

theorem mails_foldl {α : Type} {f : Eng → α → Eng} (hf : ∀ (e : Eng) a, e.Mails (f e a)) (xs : List α) (e : Eng) :
    e.Mails (xs.foldl f e) := by
  induction xs generalizing e with
  | nil => exact .refl e
  | cons x xs ih => exact (hf e x).trans (ih _)

theorem mails_lose (e : Eng) (m n : Nat) : e.Mails (e.lose m n) := mails_setMreel _ _ _ _ _ _

theorem mails_mkRec (e : Eng) (c i k p : Nat) : e.Mails (e.mkRec c i k p).1 := .of_mreels rfl

theorem putBytes_fe (e : Eng) (h : Bool) (a : Nat) (bs : List Byte) : (e.putBytes h a bs).fe = e.fe := by
  cases h <;> rfl

theorem mails_irq (e : Eng) (m : Nat) : e.Mails (e.irq m) := by
  unfold Eng.irq
  dsimp only
  split
  · exact (mails_setMreel e m _ _ _ _).trans (.of_mreels rfl)
  · exact .refl e

theorem mails_emit (e : Eng) (m : Nat) (rec : List Byte) : e.Mails (e.emit m rec).1 := by
  unfold Eng.emit
  dsimp only
  split
  · exact mails_lose _ _ _
  · refine Eng.Mails.trans (.of_mreels ?_) ((mails_setMreel _ _ _ _ _ _).trans (mails_irq _ _))
    rw [putBytes_fe, putBytes_fe]

theorem mails_flushReel (k : Nat) (e : Eng) (m : Nat) (rep : Bool) : e.Mails (e.flushReel k m rep).1 := by
  induction k generalizing e rep with
  | zero => exact .refl e
  | succ k ih =>
    unfold Eng.flushReel
    dsimp only
    split
    · exact .refl e
    · split
      · exact (((mails_setMreel _ _ _ _ _ _).trans (mails_mkRec _ _ _ _ _)).trans (mails_emit _ _ _)).trans (ih _ _)
      · split
        · exact .refl e
        · exact ((mails_setMreel _ _ _ _ _ _).trans (mails_emit _ _ _)).trans (ih _ _)

theorem mails_hand (e : Eng) (m : Nat) (rec : List Byte) : e.Mails (e.hand m rec).1 := by
  unfold Eng.hand
  dsimp only
  split
  · exact mails_lose _ _ _
  · split
    · exact (mails_setMreel _ _ _ _ _ _).trans (mails_flushReel _ _ _ _)
    · exact mails_lose _ _ _

theorem mails_noteDenial (e : Eng) (m : Fin 64) (t : Nat) (r w z : Bool) (u : Nat) : e.Mails (e.noteDenial m t r w z u).1 := by
  unfold Eng.noteDenial
  dsimp only
  split <;> exact .of_mreels rfl

theorem mails_noteRec (e : Eng) (m : Nat) (u : Nat × Bool) : e.Mails (e.noteRec m u).1 := by
  unfold Eng.noteRec
  refine Eng.Mails.trans (b := if u.2 then { e with mp := { e.mp with noTarget := true } } else e) ?_ (mails_noteDenial _ _ _ _ _ _ _)
  split <;> exact .of_mreels rfl

theorem mails_recDenied (e : Eng) (m : Nat) (us : List (Nat × Bool)) : e.Mails (e.recDenied m us) := by
  unfold Eng.recDenied
  refine mails_foldl (fun e u => ?_) us e
  have noted := mails_noteRec e m u
  split <;> rename_i eq <;> rw [eq] at noted
  · exact noted
  · refine noted.trans ?_
    generalize denyPayload 63 _ _ _ _ _ = pay
    rename_i e1
    refine ((mails_mkRec e1 0 0 0x0100 pay).trans (mails_hand _ e1.evtReel (e1.mkRec 0 0 0x0100 pay).2)).trans ?_
    exact mails_foldl (fun e v => mails_noteRec e e.evtReel v) _ _

theorem mails_logRec (e : Eng) (c l i p : Nat) (u : Bool) : e.Mails (e.logRec c l i p u) := by
  obtain ⟨r, b, h⟩ := logRec_frame e c l i p u
  rw [h]
  exact .of_mreels rfl

theorem mails_post (e : Eng) (m c i k p : Nat) : e.Mails (e.post m c i k p) := by
  unfold Eng.post
  dsimp only
  generalize he : (if logged k = true then e.logRec k c i p false else e) = e1
  have logs : e.Mails e1 := by
    subst he
    split
    · exact mails_logRec _ _ _ _ _ _
    · exact .refl e
  exact ((logs.trans (mails_mkRec _ _ _ _ _)).trans (mails_hand _ _ _)).trans (mails_recDenied _ _ _)

/-! ### A record written to host memory -/

/-- The memory with a record at the reel's next slot (R86). -/
def MReel.recorded (r : MReel) (m : Memory) (rec : List Byte) : Memory :=
  (m.wrN (r.base.toNat + 32 * (r.wr.toNat % r.size) + 8) (rec.drop 7)).wrN (r.base.toNat + 32 * (r.wr.toNat % r.size))
    (BitVec.ofNat 8 (128 + r.wr.toNat / r.size % 128) :: rec.take 7)

/-- A reel in host memory that sends no interrupt, whose next slot the housekeeping master may write. -/
def Eng.Mailable (e : Eng) (m : Nat) : Prop :=
  bit (e.mreel m).cfg.toNat 1 = true ∧ bit (e.mreel m).cfg.toNat 6 = false ∧
    e.acc.firstDenied 5 63 false true ((e.mreel m).base.toNat + 32 * ((e.mreel m).wr.toNat % (e.mreel m).size)) 32 = none

theorem irq_of_off {e : Eng} {m : Nat} (off : bit (e.mreel m).cfg.toNat 6 = false) : e.irq m = e := by
  unfold Eng.irq
  simp only [off, Bool.false_and, Bool.false_eq_true, if_false]

theorem emit_to_host {e : Eng} {m : Nat} (h : e.Mailable m) (rec : List Byte) :
    e.emit m rec = (({ e with host := (e.mreel m).recorded e.host rec } : Eng).setMreel m { e.mreel m with wr := (e.mreel m).wr + 1 }, none) := by
  obtain ⟨host, off, granted⟩ := h
  unfold Eng.emit Eng.recRefused
  simp only [host, if_true, granted, Option.map_none]
  rw [irq_of_off]
  · rfl
  · rw [Eng.mreel_setMreel_self]
    exact off

theorem flushReel_of_nothing_owed {e : Eng} {m : Nat} (k : Nat) (rep : Bool) (lost : (e.mreel m).lost = 0)
    (held : (e.mreel m).held = []) : e.flushReel k m rep = (e, []) := by
  cases k with
  | zero => rfl
  | succ k =>
    unfold Eng.flushReel
    simp [lost, held]

/-- A record of a reel was written, and the reel owes `l` and `h` still. -/
structure Eng.Mailed (e : Eng) (m : Nat) (rec : List Byte) (l : W32) (h : List (List Byte)) (e' : Eng) : Prop where
  mreel : e'.mreel m = { e.mreel m with lost := l, held := h, wr := (e.mreel m).wr + 1 }
  host : e'.host = (e.mreel m).recorded e.host rec
  dev : e'.dev = e.dev

section

variable {e : Eng} {m : Nat}

theorem emit_mailed (ready : e.Mailable m) (rec : List Byte) {l : W32} {h : List (List Byte)} {r : MReel}
    (hr : r = { e.mreel m with lost := l, held := h }) {e1 : Eng} (reel : e1.mreel m = r) (acc : e1.acc = e.acc)
    (host : e1.host = e.host) (dev : e1.dev = e.dev) : (e1.emit m rec).2 = none ∧ e.Mailed m rec l h (e1.emit m rec).1 := by
  obtain ⟨inHost, off, granted⟩ := ready
  have ready1 : e1.Mailable m := by
    unfold Eng.Mailable
    rw [reel, hr, acc]
    exact ⟨inHost, off, granted⟩
  rw [emit_to_host ready1, reel, hr, host]
  exact ⟨rfl, Eng.mreel_setMreel_self .., rfl, dev⟩

section

variable (on : (e.mreel m).enabled = true) (space : (e.mreel m).full = false)

include on space

theorem flushReel_of_lost (k : Nat) (lost : (e.mreel m).lost ≠ 0) {e1 e2 : Eng} {rec : List Byte}
    (report : (e.setMreel m { e.mreel m with lost := 0 }).mkRec 0xE m 0x0020 (e.mreel m).lost.toNat = (e1, rec))
    (write : e1.emit m rec = (e2, none)) (rest : e2.flushReel k m true = (e2, [])) : e.flushReel (k + 1) m true = (e2, []) := by
  unfold Eng.flushReel
  simp only [on, space, Bool.not_true, Bool.or_false, Bool.false_eq_true, if_false, Bool.true_and, bne_iff_ne, ne_eq, lost,
    not_false_eq_true, if_true, report, write, Option.isNone_none, rest, Option.toList_none, List.append_nil]

theorem flushReel_of_held (k : Nat) (lost : (e.mreel m).lost = 0) {e2 : Eng} {rec : List Byte} {recs : List (List Byte)}
    (held : (e.mreel m).held = rec :: recs) (write : (e.setMreel m { e.mreel m with held := recs }).emit m rec = (e2, none))
    (rest : e2.flushReel k m true = (e2, [])) : e.flushReel (k + 1) m true = (e2, []) := by
  have silent : (true && (e.mreel m).lost != 0) = false := by rw [lost]; rfl
  unfold Eng.flushReel
  simp only [on, space, Bool.not_true, Bool.or_false, Bool.false_eq_true, if_false, silent, held, write, Option.isNone_none,
    Bool.true_and, rest, Option.toList_none, List.append_nil]

end

theorem flush_of_granted {e1 : Eng} (h : e.flushReel 130 m true = (e1, [])) : e.flush m = e1 := by
  unfold Eng.flush
  rw [h]
  rfl

/-- With space, a reel that holds nothing reports what it lost (R89). -/
theorem flush_of_lost (ready : e.Mailable m) (on : (e.mreel m).enabled = true) (space : (e.mreel m).full = false)
    (lost : (e.mreel m).lost ≠ 0) (held : (e.mreel m).held = []) :
    e.Mailed m (e.mkRec 0xE m 0x0020 (e.mreel m).lost.toNat).2 0 [] (e.flush m) := by
  cases report : (e.setMreel m { e.mreel m with lost := 0 }).mkRec 0xE m 0x0020 (e.mreel m).lost.toNat with
  | mk e1 rec =>
    have reel : e1.mreel m = { e.mreel m with lost := 0 } := by
      rw [show e1 = (e1, rec).1 from rfl, ← report]
      exact Eng.mreel_setMreel_self ..
    have same : (e.mkRec 0xE m 0x0020 (e.mreel m).lost.toNat).2 = rec := congrArg Prod.snd report
    have acc : e1.acc = e.acc := (congrArg (fun x => x.1.acc) report).symm
    have host : e1.host = e.host := (congrArg (fun x => x.1.host) report).symm
    have dev : e1.dev = e.dev := (congrArg (fun x => x.1.dev) report).symm
    obtain ⟨granted, mailed⟩ := emit_mailed ready rec (l := 0) (h := (e.mreel m).held) rfl reel acc host dev
    rw [held] at mailed
    rw [same, flush_of_granted (flushReel_of_lost on space 129 lost report (Prod.ext rfl granted)
      (flushReel_of_nothing_owed 129 true (by rw [mailed.mreel]) (by rw [mailed.mreel])))]
    exact mailed

/-- With space and nothing lost, a reel writes the record that it holds (R89). -/
theorem flush_of_held (ready : e.Mailable m) (on : (e.mreel m).enabled = true) (space : (e.mreel m).full = false)
    (lost : (e.mreel m).lost = 0) {rec : List Byte} (held : (e.mreel m).held = [rec]) : e.Mailed m rec 0 [] (e.flush m) := by
  obtain ⟨granted, mailed⟩ := emit_mailed ready rec (l := (e.mreel m).lost) (h := []) rfl
    (e1 := e.setMreel m { e.mreel m with held := [] }) (Eng.mreel_setMreel_self ..) rfl rfl rfl
  rw [lost] at mailed
  rw [flush_of_granted (flushReel_of_held on space 129 lost held (Prod.ext rfl granted)
    (flushReel_of_nothing_owed 129 true (by rw [mailed.mreel]) (by rw [mailed.mreel])))]
  exact mailed

end

end Sys2Proof.Machine
end

section
/-! SUPPORT. What a write of a reel's register does (R71, R73, R75, R90, R91, R405), case by case. -/

namespace Sys2Proof.Machine

open Sys2Proof

/-! ### Command reels -/

section

variable {e : Eng} {n : Nat} {v : W24}

theorem doorbell_of_overrun (h : (e.reel n).size < (v - (e.reel n).rd).toNat) :
    (e.doorbell n v).reel n = { (e.reel n).unaged with halted := true, overrun := true, slots := [] } := by
  unfold Eng.doorbell
  rw [if_pos h]
  exact ((told_post ..).reel n).trans (Eng.reel_setReel_self ..)

theorem doorbell_of_advance (h : ((e.reel n).wr - (e.reel n).rd).toNat < (v - (e.reel n).rd).toNat)
    (fits : (v - (e.reel n).rd).toNat ≤ (e.reel n).size) :
    e.doorbell n v = e.setReel n { e.reel n with wr := v, halted := false } := by
  unfold Eng.doorbell
  rw [if_neg (by omega), if_neg (by omega)]

theorem doorbell_of_wr (h : v = (e.reel n).wr) (fits : ((e.reel n).wr - (e.reel n).rd).toNat ≤ (e.reel n).size) :
    e.doorbell n v = e.setReel n { e.reel n with halted := false } := by
  subst h
  unfold Eng.doorbell
  rw [if_neg (by omega), if_pos (le_refl _), if_pos rfl]

theorem doorbell_of_behind (h : (v - (e.reel n).rd).toNat < ((e.reel n).wr - (e.reel n).rd).toNat)
    (fits : ((e.reel n).wr - (e.reel n).rd).toNat ≤ (e.reel n).size) : e.doorbell n v = e := by
  unfold Eng.doorbell
  rw [if_neg (by omega), if_pos (by omega), if_neg]
  rintro rfl
  exact lt_irrefl _ h

end

/-- A configuration word with the bits of `f` as they were in `c`. -/
def keepBits (v c f : W32) : W32 := (v &&& ~~~f) ||| (c &&& f)

theorem getLsbD_keepBits (v c f : W32) (i : Nat) :
    (keepBits v c f).getLsbD i = if f.getLsbD i then c.getLsbD i else v.getLsbD i := by
  unfold keepBits
  rw [BitVec.getLsbD_or, BitVec.getLsbD_and, BitVec.getLsbD_and, BitVec.getLsbD_not]
  cases hf : f.getLsbD i
  · by_cases hi : i < 32
    · simp [hi]
    · simp [BitVec.getLsbD_of_ge v i (by omega), hi]
  · simp

theorem fld_keepBits_of_set {v c f : W32} {lo w : Nat} (h : ∀ i < w, f.getLsbD (lo + i) = true) :
    fld (keepBits v c f).toNat lo w = fld c.toNat lo w :=
  fld_congr fun i hi => by
    show (keepBits v c f).getLsbD (lo + i) = c.getLsbD (lo + i)
    rw [getLsbD_keepBits, h i hi, if_pos rfl]

theorem fld_keepBits_of_clear {v c f : W32} {lo w : Nat} (h : ∀ i < w, f.getLsbD (lo + i) = false) :
    fld (keepBits v c f).toNat lo w = fld v.toNat lo w :=
  fld_congr fun i hi => by
    show (keepBits v c f).getLsbD (lo + i) = v.getLsbD (lo + i)
    rw [getLsbD_keepBits, h i hi, if_neg Bool.false_ne_true]

/-- The configuration that a write of LE_REEL_CFG leaves (R91). -/
def Reel.written (r : Reel) (v : W32) : W32 :=
  if !r.en && r.idle then BitVec.ofNat 32 (v.toNat % 2 ^ 26) else keepBits (BitVec.ofNat 32 (v.toNat % 2 ^ 26)) r.cfg 0x000FE03E

theorem fld_implemented (v : W32) {lo w k : Nat} (h : lo + w ≤ k) : fld (BitVec.ofNat 32 (v.toNat % 2 ^ k)).toNat lo w = fld v.toNat lo w := by
  have small : v.toNat % 2 ^ k < 2 ^ 32 := (Nat.mod_le _ _).trans_lt v.isLt
  rw [BitVec.toNat_ofNat, Nat.mod_eq_of_lt small]
  exact fld_congr fun i hi => by rw [Nat.testBit_mod_two_pow, decide_eq_true (by omega), Bool.true_and]

theorem Reel.fld_written_of_clear (r : Reel) (v : W32) {lo w : Nat} (h : ∀ i < w, (0x000FE03E : W32).getLsbD (lo + i) = false)
    (fits : lo + w ≤ 26) : fld (r.written v).toNat lo w = fld v.toNat lo w := by
  unfold Reel.written
  split
  · exact fld_implemented v fits
  · rw [fld_keepBits_of_clear h, fld_implemented v fits]

theorem Reel.fld_written_of_enabled {r : Reel} (on : r.en = true) (v : W32) {lo w : Nat}
    (h : ∀ i < w, (0x000FE03E : W32).getLsbD (lo + i) = true) : fld (r.written v).toNat lo w = fld r.cfg.toNat lo w := by
  unfold Reel.written
  rw [on, if_neg (by simp), fld_keepBits_of_set h]

/-- The reel after a write of LE_REEL_CFG that neither disables nor refuses (R91). -/
def Reel.configured (r : Reel) (v : W32) : Reel :=
  { r with
    cfg := r.written v
    cfgBusy := r.cfgBusy || !(!r.en && r.idle) && (BitVec.ofNat 32 (v.toNat % 2 ^ 26) &&& 0x000FE03E) != (r.cfg &&& 0x000FE03E) }

theorem reelCfg_eq (e : Eng) (n : Nat) (v : W32) :
    e.reelCfg n v =
      if bit ((e.reel n).written v).toNat 0 && !(e.reel n).en then
        if e.enableBad n ((e.reel n).configured v) then
          (e.setReel n { (e.reel n).configured v with cfg := (e.reel n).written v &&& 0xFFFFFFFE, cfgRefused := true }).postReel
            n 0x0012 v.toNat
        else e.setReel n ((e.reel n).configured v)
      else if !bit ((e.reel n).written v).toNat 0 then e.setReel n { ((e.reel n).configured v).unaged with slots := [] }
      else e.setReel n ((e.reel n).configured v) := rfl

theorem Reel.written_enabled (r : Reel) (v : W32) : bit (r.written v).toNat 0 = v.getLsbD 0 := by
  rw [← bit_toNat v 0]
  unfold bit
  rw [Reel.fld_written_of_clear _ _ (by decide) (by decide)]

/-- A write that clears the enable bit discards what the reel has fetched (R75). -/
theorem reelCfg_of_disable {e : Eng} {n : Nat} {v : W32} (off : v.getLsbD 0 = false) :
    e.reelCfg n v = e.setReel n { ((e.reel n).configured v).unaged with slots := [] } := by
  rw [reelCfg_eq, Reel.written_enabled, off]
  rfl

theorem Reel.free_iff (r : Reel) : (!r.en && r.idle) = true ↔ r.en = false ∧ r.idle = true := by simp

section

variable (e : Eng) (n : Nat)

theorem reelRd_eq (v : W24) : e.reelRd n v = e.setReel n (if (e.reel n).en = false ∧ (e.reel n).idle = true then
    { e.reel n with rd := v, done := v, wr := v } else { e.reel n with cfgBusy := true }) := by
  unfold Eng.reelRd
  dsimp only
  simp only [Reel.free_iff]
  exact (apply_ite _ _ _ _).symm

theorem reelBase_eq (v : W64) : e.reelBase n v = e.setReel n (if (e.reel n).en = false ∧ (e.reel n).idle = true then
    { e.reel n with base := BitVec.ofNat 64 (v.toNat / 4096 * 4096) } else { e.reel n with cfgBusy := true }) := by
  unfold Eng.reelBase
  dsimp only
  simp only [Reel.free_iff]
  exact (apply_ite _ _ _ _).symm

end

/-! ### Message reels -/

/-- The configuration that a write of LE_MREEL_CFG leaves (R91). -/
def MReel.written (r : MReel) (v : W32) : W32 :=
  if r.enabled then keepBits (BitVec.ofNat 32 (v.toNat % 2 ^ 18)) r.cfg 0x3E else BitVec.ofNat 32 (v.toNat % 2 ^ 18)

/-- The reel after a write of LE_MREEL_CFG that neither disables nor refuses (R91). -/
def MReel.configured (r : MReel) (v : W32) : MReel :=
  { r with
    cfg := r.written v
    cfgBusy := r.cfgBusy || r.enabled && (BitVec.ofNat 32 (v.toNat % 2 ^ 18) &&& 0x3E) != (r.cfg &&& 0x3E) }

theorem mreelCfg_eq (e : Eng) (m : Nat) (v : W32) :
    e.mreelCfg m v =
      if bit ((e.mreel m).written v).toNat 0 && !(e.mreel m).enabled then
        if 11 ≤ fld ((e.mreel m).written v).toNat 2 4 then
          (e.setMreel m { (e.mreel m).configured v with cfg := (e.mreel m).written v &&& 0xFFFFFFFE, cfgRefused := true }).post
            e.evtReel 0xE m 0x0021 v.toNat
        else (e.setMreel m ((e.mreel m).configured v)).flush m
      else if !bit ((e.mreel m).written v).toNat 0 then e.setMreel m ((e.mreel m).configured v).dropHeld
      else e.setMreel m ((e.mreel m).configured v) := rfl

theorem MReel.written_enabled (r : MReel) (v : W32) : bit (r.written v).toNat 0 = v.getLsbD 0 := by
  rw [← bit_toNat v 0]
  unfold MReel.written bit
  split
  · rw [fld_keepBits_of_clear (by decide), fld_implemented v (by decide)]
  · rw [fld_implemented v (by decide)]

theorem MReel.written_size {r : MReel} (was : r.enabled = false) (v : W32) : fld (r.written v).toNat 2 4 = v.toNat / 4 % 16 := by
  unfold MReel.written
  rw [was, if_neg Bool.false_ne_true, fld_implemented v (by decide)]
  rfl

theorem bit_clear_enable (c : W32) : bit (c &&& 0xFFFFFFFE).toNat 0 = false := by
  rw [bit_toNat, BitVec.getLsbD_and]
  exact Bool.and_false _

theorem flush_setMreel_of_nothing_owed {e : Eng} {m : Nat} {r : MReel} (lost : r.lost = 0) (held : r.held = []) :
    (e.setMreel m r).flush m = e.setMreel m r :=
  flush_of_nothing_owed (by rw [Eng.mreel_setMreel_self]; exact lost) (by rw [Eng.mreel_setMreel_self]; exact held)

/-- The engine after reel `m`, armed and enabled to interrupt, has sent its interrupt (R90). -/
def Eng.interrupted (e : Eng) (m : Nat) : Eng :=
  let e1 := e.setMreel m { e.mreel m with armed := false }
  { e1 with fe := { e1.fe with msi := e.fe.msi ++ [(e.mreel m).cfg.extractLsb' 7 11] } }

theorem irq_of_on {e : Eng} {m : Nat} (on : (e.mreel m).cfg.getLsbD 6 = true) (armed : (e.mreel m).armed = true) :
    e.irq m = e.interrupted m := by
  have vector : BitVec.ofNat 11 (fld (e.mreel m).cfg.toNat 7 11) = (e.mreel m).cfg.extractLsb' 7 11 := by
    rw [← ofNat_toNat_div]
    exact BitVec.eq_of_toNat_eq (by simp [fld])
  unfold Eng.irq
  dsimp only
  rw [bit_toNat, on, armed, if_pos (by rfl), vector]
  rfl

theorem interrupted_mreel (e : Eng) (m k : Nat) :
    (e.interrupted m).mreel k = if k = m then { e.mreel m with armed := false } else e.mreel k := Eng.mreel_setMreel ..

section

variable {e : Eng} {m : Nat} {v : W32}

/-- An enable of a reel whose size is reserved is refused (R91). -/
theorem mreelCfg_of_refused (was : (e.mreel m).enabled = false) (on : v.getLsbD 0 = true) (bad : 11 ≤ v.toNat / 4 % 16) :
    ((e.mreelCfg m v).mreel m).enabled = false ∧ ((e.mreelCfg m v).mreel m).cfgRefused = true := by
  rw [mreelCfg_eq, MReel.written_enabled, on, was, MReel.written_size was, if_pos (by rfl), if_pos bad]
  obtain ⟨_, _, _, _, kept⟩ := mails_post (e.setMreel m
    { (e.mreel m).configured v with cfg := (e.mreel m).written v &&& 0xFFFFFFFE, cfgRefused := true }) e.evtReel 0xE m 0x0021
    v.toNat m
  rw [kept, Eng.mreel_setMreel_self]
  exact ⟨bit_clear_enable _, rfl⟩

/-- An enable of a reel that owes nothing. -/
theorem mreelCfg_of_enable (was : (e.mreel m).enabled = false) (held : (e.mreel m).held = []) (lost : (e.mreel m).lost = 0)
    (on : v.getLsbD 0 = true) (good : v.toNat / 4 % 16 < 11) (small : v.toNat < 2 ^ 18) :
    e.mreelCfg m v = e.setMreel m { e.mreel m with cfg := v } := by
  have all : (e.mreel m).written v = v := by
    unfold MReel.written
    rw [was, if_neg Bool.false_ne_true, Nat.mod_eq_of_lt small, BitVec.ofNat_toNat 32 v, BitVec.setWidth_eq]
  have same : (e.mreel m).configured v = { e.mreel m with cfg := v } := by
    unfold MReel.configured
    rw [all, was, Bool.false_and, Bool.or_false]
  rw [mreelCfg_eq, MReel.written_enabled, on, was, MReel.written_size was, if_pos (by rfl), if_neg (by omega), same]
  exact flush_setMreel_of_nothing_owed lost held

/-- A write that clears the enable bit drops the held records and counts them lost (R91). -/
theorem mreelCfg_of_disable (off : v.getLsbD 0 = false) :
    e.mreelCfg m v = e.setMreel m ((e.mreel m).configured v).dropHeld := by
  rw [mreelCfg_eq, MReel.written_enabled, off]
  rfl

/-- A write of LE_MREEL_RD beyond the reel's records changes nothing but cfg_busy (R91). -/
theorem mreelRd_of_bad (bad : (e.mreel m).size < ((e.mreel m).wr - v.setWidth 24).toNat) :
    e.mreelRd m v = e.setMreel m { e.mreel m with cfgBusy := true } := by
  unfold Eng.mreelRd
  rw [if_pos bad]

/-- The reel after a write of LE_MREEL_RD within its records (R89, R90). -/
def MReel.consumed (r : MReel) (v : W32) : MReel := { r with rd := v.setWidth 24, armed := r.armed || bit v.toNat 24 }

theorem mreelRd_of_good (good : ((e.mreel m).wr - v.setWidth 24).toNat ≤ (e.mreel m).size) :
    e.mreelRd m v = (if bit v.toNat 24 && v.setWidth 24 != (e.mreel m).wr then (e.setMreel m ((e.mreel m).consumed v)).irq m
      else e.setMreel m ((e.mreel m).consumed v)).flush m := by
  unfold Eng.mreelRd
  rw [if_neg (by omega)]
  rfl

theorem MReel.consumed_of_arm (r : MReel) (arm : v.getLsbD 24 = true) :
    r.consumed v = { r with rd := v.setWidth 24, armed := true } := by
  unfold MReel.consumed
  rw [bit_toNat, arm, Bool.or_true]

/-- Without a re-arm nothing is sent. -/
theorem mreelRd_of_unarmed (good : ((e.mreel m).wr - v.setWidth 24).toNat ≤ (e.mreel m).size) (arm : v.getLsbD 24 = false)
    (held : (e.mreel m).held = []) (lost : (e.mreel m).lost = 0) :
    e.mreelRd m v = e.setMreel m { e.mreel m with rd := v.setWidth 24 } := by
  have same : (e.mreel m).consumed v = { e.mreel m with rd := v.setWidth 24 } := by
    unfold MReel.consumed
    rw [bit_toNat, arm, Bool.or_false]
  rw [mreelRd_of_good good, bit_toNat, arm, same]
  exact flush_setMreel_of_nothing_owed lost held

/-- A re-arm behind WR interrupts at once and leaves the reel unarmed (R90). -/
theorem mreelRd_of_behind (good : ((e.mreel m).wr - v.setWidth 24).toNat ≤ (e.mreel m).size) (arm : v.getLsbD 24 = true)
    (held : (e.mreel m).held = []) (lost : (e.mreel m).lost = 0) (behind : v.setWidth 24 ≠ (e.mreel m).wr)
    (on : (e.mreel m).cfg.getLsbD 6 = true) : e.mreelRd m v = (e.setMreel m ((e.mreel m).consumed v)).interrupted m := by
  have sends : (e.setMreel m ((e.mreel m).consumed v)).irq m = (e.setMreel m ((e.mreel m).consumed v)).interrupted m := by
    refine irq_of_on ?_ ?_ <;> rw [Eng.mreel_setMreel_self]
    · exact on
    · rw [MReel.consumed_of_arm _ arm]
  have reel := interrupted_mreel (e.setMreel m ((e.mreel m).consumed v)) m m
  rw [if_pos rfl, Eng.mreel_setMreel_self] at reel
  rw [mreelRd_of_good good, bit_toNat, arm, if_pos (by simpa using behind), sends]
  exact flush_of_nothing_owed (by rw [reel]; exact lost) (by rw [reel]; exact held)

/-- A re-arm at WR, or of a reel that sends no interrupt, leaves the reel armed (R90). -/
theorem mreelRd_of_quiet (good : ((e.mreel m).wr - v.setWidth 24).toNat ≤ (e.mreel m).size) (held : (e.mreel m).held = [])
    (lost : (e.mreel m).lost = 0) (quiet : v.setWidth 24 = (e.mreel m).wr ∨ (e.mreel m).cfg.getLsbD 6 = false) :
    e.mreelRd m v = e.setMreel m ((e.mreel m).consumed v) := by
  have silent : (if bit v.toNat 24 && v.setWidth 24 != (e.mreel m).wr then (e.setMreel m ((e.mreel m).consumed v)).irq m
      else e.setMreel m ((e.mreel m).consumed v)) = e.setMreel m ((e.mreel m).consumed v) := by
    rcases quiet with same | off
    · rw [same, bne_self_eq_false, Bool.and_false]
      rfl
    · rw [irq_of_off (by rw [Eng.mreel_setMreel_self]; exact (bit_toNat _ 6).trans off), ite_self]
  rw [mreelRd_of_good good, silent]
  exact flush_setMreel_of_nothing_owed lost held

end

/-- A reel that sends no interrupt only consumes, and writes what it owes (R89). -/
theorem mreelRd_of_silent {e : Eng} {m : Nat} {v : W32} (good : ((e.mreel m).wr - v.setWidth 24).toNat ≤ (e.mreel m).size)
    (off : bit (e.mreel m).cfg.toNat 6 = false) :
    e.mreelRd m v = (e.setMreel m ((e.mreel m).consumed v)).flush m := by
  have quiet : (e.setMreel m ((e.mreel m).consumed v)).irq m = e.setMreel m ((e.mreel m).consumed v) :=
    irq_of_off (by rw [Eng.mreel_setMreel_self]; exact off)
  rw [mreelRd_of_good good, quiet, ite_self]

/-! ### A record that a write of LE_MREEL_RD lets out (R89) -/

section

variable {e e' : Eng} {m a : Nat} {rec : List Byte} {l : W32} {h : List (List Byte)}

theorem Eng.Mailed.rdN (wrote : e.Mailed m rec l h e') (len : rec.length = 31)
    (ha : a = (e.mreel m).base.toNat + 32 * ((e.mreel m).wr.toNat % (e.mreel m).size)) :
    e'.host.rdN a 32 = BitVec.ofNat 8 (128 + (e.mreel m).wr.toNat / (e.mreel m).size % 128) :: rec := by
  rw [wrote.host, ha]
  exact Memory.rdN_record _ _ _ len

theorem Eng.Mailed.rd_of_outside (wrote : e.Mailed m rec l h e') (len : rec.length = 31)
    (ha : a = (e.mreel m).base.toNat + 32 * ((e.mreel m).wr.toNat % (e.mreel m).size)) {y : Nat} (out : y < a ∨ a + 32 ≤ y) :
    e'.host.rd y = e.host.rd y := by
  rw [wrote.host]
  exact Memory.rd_record_of_outside _ _ _ len (ha ▸ out)

end

theorem Memory.head_of_rdN {m : Memory} {a n : Nat} {b : Byte} {bs : List Byte} (h : m.rdN a (n + 1) = b :: bs) : m.rd a = b :=
  (List.cons.inj h).1

/-- The parts of the messages-lost record (R86, R89): its code and its count. -/
theorem lost_record_parts {e : Eng} {m p a : Nat} {stamp : Byte} {mem : Memory} (small : p < 2 ^ 32)
    (h : mem.rdN a 32 = stamp :: (e.mkRec 0xE m 0x0020 p).2) :
    leNat (mem.rdN (a + 8) 2) = 0x0020 ∧ leNat (mem.rdN (a + 16) 4) = p := by
  have code : mem.rdN (a + 8) 2 = leBytes 2 0x0020 := by
    rw [Memory.rdN_eq_drop_take mem a 32 (by decide), h]
    rfl
  have count : mem.rdN (a + 16) 4 = leBytes 4 p := by
    rw [Memory.rdN_eq_drop_take mem a 32 (by decide), h]
    rfl
  rw [code, count, leNat_leBytes, leNat_leBytes]
  exact ⟨rfl, Nat.mod_eq_of_lt small⟩

/-- A write of LE_MREEL_RD that makes space, at a reel in host memory that interrupts nobody: what the reel owed is written with RD
moved (R89). -/
theorem mreelRd_writes {e : Eng} {m a : Nat} {v : W32} {r : MReel} (hr : r = e.mreel m) (on : r.enabled = true)
    (host : r.cfg.getLsbD 1 = true) (quiet : r.cfg.getLsbD 6 = false) (space : (r.wr - v.setWidth 24).toNat < r.size)
    (ha : a = r.base.toNat + 32 * (r.wr.toNat % r.size)) (granted : e.acc.firstDenied 5 63 false true a 32 = none) :
    ∃ e1 : Eng, e1.mreel m = r.consumed v ∧ e1.host = e.host ∧ e1.dev = e.dev ∧ e1.Mailable m ∧ (e1.mreel m).full = false ∧
      e.mreelRd m v = e1.flush m := by
  subst hr ha
  have reel := Eng.mreel_setMreel_self (e := e) m ((e.mreel m).consumed v)
  refine ⟨e.setMreel m ((e.mreel m).consumed v), reel, rfl, rfl, ⟨?_, ?_, ?_⟩, ?_, mreelRd_of_silent (le_of_lt space) ?_⟩
  · rw [reel]
    exact (bit_toNat _ 1).trans host
  · rw [reel]
    exact (bit_toNat _ 6).trans quiet
  · rw [reel]
    exact granted
  · rw [reel]
    exact beq_false_of_ne (ne_of_lt space)
  · exact (bit_toNat _ 6).trans quiet

end Sys2Proof.Machine
end

section
/-! The statement about dispatch and completion. Its clause on an INLINE_BAG whose descriptor cannot be read says that device memory
stands. But a denied read is a denial (R353), and the first denial's message 0x0100 is written into the message reel of LE_MSG_EVT_REEL,
which may lie in device memory (R87, R89). The state below is such an engine's. -/

namespace Sys2Proof.Machine

open Sys2Proof

theorem bagRead_of_denied {e e1 : Eng} {m : Fin 64} {b : List Byte} (table : fld (le b 8 2) 0 12 < e.map.tblCount) (r : ReadRes)
    (denied : e.check 3 m true false (e.map.tblBase.toNat + 32 * fld (le b 8 2) 0 12) 32 = (e1, false)) :
    e.bagRead m 2 b r = some (e1, 3) := by
  unfold Eng.bagRead
  dsimp only
  rw [if_pos ⟨rfl, table⟩, denied]

/-- The slot of an INLINE_BAG into table 1. -/
def bagMailSlot : List Byte := [0x80, 2] ++ List.replicate 22 0 ++ [1] ++ List.replicate 39 0

/-- A running engine that fetched an INLINE_BAG into table 1; the tables of R352 refuse its master the read of the table's descriptor. No
denial is recorded yet; message reel 0, that of LE_MSG_EVT_REEL, is enabled and lies in device memory. -/
def bagMailState : State where
  ao := { phase := .configured }
  eng := {
    acc := { enforce := 8 },
    map := { tblCount := 2 },
    fe := {
      reels := [(0, { cfg := 0x000201C3, wr := 1, slots := [{ count := 0, st := .got bagMailSlot }] })],
      mreels := [(0, { base := 0x10000, cfg := 1 })] } }

/-- The INLINE_BAG is the reel's next command, all of whose slots are here, and nothing holds it back. -/
theorem bagMailState_next :
    bagMailState.runs = true ∧ bagMailState.eng.busy 0 = false ∧
    (∀ x ∈ (bagMailState.eng.reel (0 : Fin 64).val).slots, x.lost = false) ∧
    (bagMailState.eng.reel (0 : Fin 64).val).slots.map Slot.st = [bagMailSlot].map SlotSt.got ++ [] ∧
    [bagMailSlot].length = le bagMailSlot 2 1 % 8 + 1 ∧ (bagMailState.eng.reel (0 : Fin 64).val).inflight = [] ∧
    le bagMailSlot 3 1 / 16 % 2 = 0 ∧
    hdrBad bagMailSlot = false := by decide +kernel

/-- The engine after the descriptor's read was denied. -/
def bagMailDenied : Eng := (bagMailState.eng.check 3 0 true false 32 32).1

/-- The descriptor's read is denied. -/
theorem bagMailState_denied :
    bagMailState.eng.bagRead (bagMailState.eng.reel (0 : Fin 64).val).master (le bagMailSlot 1 1) (bodyOf [bagMailSlot]) .ok =
      some (bagMailDenied, 3) :=
  bagRead_of_denied (by decide +kernel) .ok (Prod.ext rfl (by decide +kernel))

/-- The engine after the dispatch. -/
def bagMailAfter : Eng := bagMailState.eng.dispatch 0 .ok

theorem exec_bagMailDispatch : exec (.commandDispatch 0 .ok) bagMailState = .next { bagMailState with eng := bagMailAfter } := rfl

/-- The message of the denial stands at the head of the reel: its stamp is valid, its class 0 and its code 0x0100. -/
theorem bagMailAfter_message : bagMailAfter.dev.rdN 0x10000 2 = [0x80, 0] ∧ bagMailAfter.dev.rdN 0x10008 2 = [0, 1] := by
  decide +kernel

/-- Device memory held zeros there. -/
theorem bagMailAfter_dev_ne : bagMailAfter.dev ≠ bagMailState.eng.dev := by
  intro same
  obtain ⟨message, _⟩ := bagMailAfter_message
  rw [same] at message
  exact absurd message (by decide)

/-- Refutes O16: the denied read of an INLINE_BAG's descriptor is the first denial, whose message changes device memory. -/
theorem not_commandsDispatchAndComplete : ¬ Obligations.CommandsDispatchAndComplete := by
  intro holds
  obtain ⟨runs, free, whole, slots, len, alone, ordered, good⟩ := bagMailState_next
  obtain ⟨_, _, refusedRead, _⟩ := holds bagMailState 0 runs
  have noFence : ∀ x ∈ (bagMailState.eng.reel (0 : Fin 64).val).inflight, x.type ≠ 4 ∧ x.type ≠ 6 := by
    rw [alone]
    exact fun _ => nofun
  obtain ⟨t, k, ran, _, _, _, _, stands⟩ :=
    refusedRead bagMailSlot [] [] .ok _ 3 free whole slots len noFence (.inl ordered) good bagMailState_denied (by decide)
  obtain rfl : { bagMailState with eng := bagMailAfter } = t := Host.Outcome.next.inj (exec_bagMailDispatch.symm.trans ran)
  exact bagMailAfter_dev_ne stands

end Sys2Proof.Machine
end

section
/-! SUPPORT. What the front end writes for an inline COPY or an INLINE_BAG (R80, R81, R228), and the writes of a CONFIG command. -/

namespace Sys2Proof.Machine

open Sys2Proof

/-! ### A write past a sward that is off -/

/-- The part of a write in one sector has the write's bytes there. -/
theorem sliceFor_getElem? (a : Nat) (bs : List Byte) {sa x : Nat} (aligned : sa % 64 = 0) (hx : x / 64 * 64 = sa) (le : a ≤ x) :
    sa + (sliceFor a bs sa).1 ≤ x ∧ (sliceFor a bs sa).2[x - (sa + (sliceFor a bs sa).1)]? = bs[x - a]? := by
  unfold sliceFor
  split
  · refine ⟨by omega, ?_⟩
    rw [List.getElem?_take, if_pos (by omega), List.getElem?_drop]
    congr 1
    omega
  · refine ⟨by omega, ?_⟩
    dsimp only
    rw [List.getElem?_take, if_pos (by omega)]
    congr 1
    omega

/-- The part of a write in one sector lies in the sector. -/
theorem sliceFor_in_sector (a : Nat) (bs : List Byte) {sa x : Nat} (aligned : sa % 64 = 0) (lo : sa + (sliceFor a bs sa).1 ≤ x)
    (hi : x < sa + (sliceFor a bs sa).1 + (sliceFor a bs sa).2.length) : x / 64 * 64 = sa := by
  unfold sliceFor at lo hi
  split at lo <;> simp_all <;> omega

theorem Memory.rd_wrN (m : Memory) (a : Nat) (bs : List Byte) (x : Nat) :
    (m.wrN a bs).rd x = if a ≤ x then bs[x - a]?.getD (m.rd x) else m.rd x := by
  split
  · next le =>
    by_cases hi : x < a + bs.length
    · obtain ⟨i, rfl⟩ : ∃ i, x = a + i := ⟨x - a, by omega⟩
      have hi : i < bs.length := by omega
      rw [Memory.rd_wrN_of_inside bs m a i hi, Nat.add_sub_cancel_left, List.getElem?_eq_getElem hi]
      rfl
    · rw [Memory.rd_wrN_of_outside _ _ _ _ (by omega), List.getElem?_eq_none (by omega)]
      rfl
  · exact Memory.rd_wrN_of_outside _ _ _ _ (by omega)

/-- A memory with the parts of a write in some sectors. -/
def Memory.wrSectors (m : Memory) (a : Nat) (bs : List Byte) (ss : List Nat) : Memory :=
  ss.foldl (fun m sa => m.wrN (sa + (sliceFor a bs sa).1) (sliceFor a bs sa).2) m

theorem Memory.rd_wrSector (m : Memory) (a : Nat) (bs : List Byte) {sa : Nat} (aligned : sa % 64 = 0) (x : Nat) :
    (m.wrN (sa + (sliceFor a bs sa).1) (sliceFor a bs sa).2).rd x =
      if x / 64 * 64 = sa ∧ a ≤ x then bs[x - a]?.getD (m.rd x) else m.rd x := by
  split
  · next within =>
    obtain ⟨sector, le⟩ := within
    obtain ⟨lo, byte⟩ := sliceFor_getElem? a bs aligned sector le
    rw [Memory.rd_wrN, if_pos lo, byte]
  · next without =>
    refine Memory.rd_wrN_of_outside _ _ _ _ ?_
    by_contra inside
    rw [not_or, not_lt, not_le] at inside
    obtain ⟨lo, hi⟩ := inside
    exact without ⟨sliceFor_in_sector a bs aligned lo hi, (sliceFor_within a sa bs x lo hi).1⟩

theorem Memory.rd_wrSectors (m : Memory) (a : Nat) (bs : List Byte) {ss : List Nat} (aligned : ∀ sa ∈ ss, sa % 64 = 0) (x : Nat) :
    (m.wrSectors a bs ss).rd x = if x / 64 * 64 ∈ ss ∧ a ≤ x then bs[x - a]?.getD (m.rd x) else m.rd x := by
  unfold Memory.wrSectors
  induction ss generalizing m with
  | nil => simp
  | cons sa ss ih =>
    obtain ⟨first, others⟩ := List.forall_mem_cons.mp aligned
    rw [List.foldl_cons, ih _ others, Memory.rd_wrSector m a bs first]
    by_cases le : a ≤ x
    · by_cases here : x / 64 * 64 = sa
      · cases bs[x - a]? <;> simp [here, le]
      · simp [here, le]
    · simp [le]

theorem mem_sectorsOf {a n sa : Nat} (h : sa ∈ sectorsOf a n) : sa % 64 = 0 := by
  unfold sectorsOf at h
  split at h
  · cases h
  · obtain ⟨i, _, rfl⟩ := List.mem_map.mp h
    omega

theorem sector_mem_sectorsOf {a n x : Nat} (lo : a ≤ x) (hi : x < a + n) : x / 64 * 64 ∈ sectorsOf a n := by
  unfold sectorsOf
  rw [if_neg (by simp; omega)]
  exact List.mem_map.mpr ⟨x / 64 - a / 64, List.mem_range.mpr (by omega), by congr 1; omega⟩

/-- The parts of a write in all its sectors are the write. -/
theorem Memory.rd_wrSectors_of_inside (m : Memory) (a : Nat) (bs : List Byte) {i : Nat} (h : i < bs.length) :
    (m.wrSectors a bs (sectorsOf a bs.length)).rd (a + i) = bs[i] := by
  rw [Memory.rd_wrSectors m a bs (fun _ => mem_sectorsOf), if_pos ⟨sector_mem_sectorsOf (by omega) (by omega), by omega⟩,
    Nat.add_sub_cancel_left, List.getElem?_eq_getElem h]
  rfl

theorem Memory.rd_wrSectors_of_outside (m : Memory) (a : Nat) (bs : List Byte) {x : Nat} (h : x < a ∨ a + bs.length ≤ x) :
    (m.wrSectors a bs (sectorsOf a bs.length)).rd x = m.rd x := by
  rw [Memory.rd_wrSectors m a bs (fun _ => mem_sectorsOf)]
  split
  · rw [List.getElem?_eq_none (by omega)]
    rfl
  · rfl

theorem coverSector_enabled (w : Swd) (sa off : Nat) (bs : List Byte) : (w.coverSector sa off bs).enabled = w.enabled := by
  unfold Swd.coverSector
  dsimp only
  split <;> rfl

theorem cover_enabled (w : Swd) (a : Nat) (bs : List Byte) : (w.cover a bs).enabled = w.enabled := by
  unfold Swd.cover
  induction sectorsOf a bs.length generalizing w with
  | nil => rfl
  | cons sa ss ih => exact (ih _).trans (coverSector_enabled _ _ _ _)

theorem charge_acks (p : Mp) (a n : Nat) : (p.charge a n).acks = p.acks := by
  unfold Mp.charge
  dsimp only
  split
  · split <;> rfl
  · rfl

theorem move_acks (p : Mp) (wide : Bool) (a n : Nat) : (p.move wide a n).acks = p.acks := by
  unfold Mp.move
  induction pagesOf a n generalizing p with
  | nil => rfl
  | cons x xs ih => exact (ih _).trans (charge_acks _ _ _)

/-- The sward is off: a write goes through to memory. -/
theorem back_of_off {e : Eng} (off : e.swd.enabled = false) (a : Nat) (bs : List Byte) :
    (e.back a bs).dev = e.dev.wrSectors a bs (sectorsOf a bs.length) ∧ (e.back a bs).mp.acks = e.mp.acks ∧ e.SwardOnly (e.back a bs) := by
  unfold Eng.back Memory.wrSectors
  induction sectorsOf a bs.length generalizing e with
  | nil => exact ⟨rfl, rfl, .refl e⟩
  | cons sa ss ih =>
    rw [List.foldl_cons, List.foldl_cons, backSector_of_off off]
    obtain ⟨dev, acks, only⟩ := ih (e := e.thruWr false (sa + (sliceFor a bs sa).1) (sliceFor a bs sa).2) ((cover_enabled _ _ _).trans off)
    exact ⟨dev, acks.trans (move_acks _ _ _ _), (swardOnly_thruWr _ _ _ _).trans only⟩

/-! ### The payload of an inline COPY or an INLINE_BAG -/

theorem frontWrite_reel (e : Eng) (cmd : Fin 64 × W24) (host : Bool) (a : Nat) (bs : List Byte) (n : Nat) :
    (e.frontWrite cmd host a bs).reel n = e.reel n := by
  cases host
  · have only : e.SwardOnly (e.back a bs) := by
      unfold Eng.back
      generalize sectorsOf a bs.length = ss
      induction ss generalizing e with
      | nil => exact .refl e
      | cons sa ss ih => exact (swardOnly_backSector _ _ _ _).trans (ih _)
    obtain ⟨_, _, _, same⟩ := only
    unfold Eng.frontWrite
    rw [same]
    rfl
  · rfl

theorem somePrefix_reel (e : Eng) (cmd : Fin 64 × W24) (host : Bool) (a : Nat) (bs : List Byte) (n : Nat) :
    (e.somePrefix cmd host a bs).reel n = e.reel n := by
  induction bs generalizing e a with
  | nil => rfl
  | cons b bs ih =>
    unfold Eng.somePrefix
    split
    · next e1 free =>
      have same : e1.reel n = e.reel n := (congrArg (fun x => x.1.reel n) free).symm
      rw [ih, frontWrite_reel, same]
    · next e1 free => exact (congrArg (fun x => x.1.reel n) free).symm

theorem workDone_of_plain {cl : Nat} (plain : bit cl 15 = false) (e : Eng) (n : Fin 64) (count : W24) (add : Nat) (de : W32)
    (m : Fin 64) : e.workDone n count cl add de m = e.finishCmd n count 0 0 de := by
  unfold Eng.workDone
  rw [plain]
  rfl

section

variable {e : Eng} {n : Fin 64} {pre post : List Cmd} {c : Cmd} (h : e.InFlight n.val pre c post)

include h

/-- A command that is run and ends at once. -/
theorem Eng.InFlight.ends (st : Byte) (fl : BitVec 4) (de : W32) :
    (((e.runCmd n c).finishCmd n c.count st fl de).reel n.val).inflight = pre ++ { c with phase := .done st fl de } :: post := by
  rw [show c.count = c.atWork.count from rfl, h.atWork.finishCmd rfl]
  exact Eng.inflight_setInflight_self ..

/-- A payload that may not be written whole ends its command with status access denied (R81). -/
theorem inlineWrite_of_denied (unfinished : c.finished = false) {host : Bool} {a : Nat} {bs : List Byte}
    (denied : e.acc.firstDenied (if host then 5 else 3) c.master false true a bs.length ≠ none) (r : ReadRes) :
    ((e.inlineWrite n c host a bs r).reel n.val).inflight = pre ++ { c with phase := .done 3 0 c.detail } :: post := by
  have refused : (e.checkMem host false c.master false true a bs.length).2 = false := check_of_denied denied
  have kept : (e.checkMem host false c.master false true a bs.length).1.reel n.val = e.reel n.val := (told_check ..).reel n.val
  unfold Eng.inlineWrite
  extract_lets first hole stop
  generalize e.checkMem host false c.master false true a bs.length = x at refused kept
  obtain ⟨e1, ok⟩ := x
  subst refused
  have there : (e1.somePrefix (n, c.count) host a (bs.take stop)).InFlight n.val pre c post :=
    h.of_inflight (congrArg Reel.inflight ((somePrefix_reel ..).trans kept))
  show ((Eng.finishCmd _ n c.count 3 0 c.detail).reel n.val).inflight = _
  rw [there.finishCmd unfinished]
  exact Eng.inflight_setInflight_self ..

end

section

variable {e : Eng} {n : Fin 64} {c : Cmd} {a : Nat} {bs : List Byte}
  (plain : bit (le c.body (if c.type = 2 then 16 else 22) 2) 15 = false)

include plain

/-- A payload for host memory (R80). -/
theorem inlineWrite_to_host (granted : e.acc.firstDenied 5 c.master false true a bs.length = none) (r : ReadRes) :
    e.inlineWrite n c true a bs r =
      (({ e with host := e.host.wrN a bs } : Eng).runCmd n c).finishCmd n c.count 0 0 c.detail := by
  have check : e.checkMem true false c.master false true a bs.length = (e, true) :=
    check_of_granted (fun t => absurd t (by decide)) granted
  unfold Eng.inlineWrite
  rw [check]
  exact workDone_of_plain plain ..

/-- The engine after a payload's write through the sward, which is acknowledged later (R228, R248). -/
def Eng.payload (e : Eng) (cmd : Fin 64 × W24) (a : Nat) (bs : List Byte) : Eng :=
  let w := (e.answered a bs.length).frontWrite cmd false a bs
  { w with mp := w.mp.owe (.cmd cmd.1 cmd.2) }

/-- A payload for device memory, where the sward is off (R80, R237). -/
theorem inlineWrite_to_device (hole : e.mp.firstHole a bs.length = none)
    (granted : e.acc.firstDenied 3 c.master false true a bs.length = none) (off : e.swd.enabled = false)
    (pending : e.swd.pending = false) (idle : e.busy 5 = false) :
    e.inlineWrite n c false a bs .ok = ((e.payload (n, c.count) a bs).runCmd n c).finishCmd n c.count 0 0 c.detail := by
  have check : e.checkMem false false c.master false true a bs.length = (e, true) := check_of_granted (fun _ => hole) granted
  have allocates : e.swd.allocates = false := by
    unfold Swd.allocates
    rw [off]
    rfl
  have fills : e.fills a bs = [] := by
    unfold Eng.fills Eng.needsFill
    rw [allocates]
    simp
  have goes : e.sectorsWait [] = false := by
    unfold Eng.sectorsWait
    rw [pending, idle, allocates]
    rfl
  unfold Eng.inlineWrite
  rw [check]
  dsimp only
  rw [fills, goes]
  exact workDone_of_plain plain ..

end

/-- What such a payload's write changes, where the sward is off. -/
theorem payload_of_off {e : Eng} (off : e.swd.enabled = false) (cmd : Fin 64 × W24) (a : Nat) (bs : List Byte) :
    (e.payload cmd a bs).dev = e.dev.wrSectors a bs (sectorsOf a bs.length) ∧ (e.payload cmd a bs).host = e.host ∧
      (∀ k, (e.payload cmd a bs).reel k = e.reel k) ∧
      (e.payload cmd a bs).mp.owed (.cmd cmd.1 cmd.2) = e.mp.owed (.cmd cmd.1 cmd.2) + 1 := by
  obtain ⟨dev, acks, only⟩ := back_of_off (e := e.answered a bs.length) off a bs
  refine ⟨dev, only.host, fun k => frontWrite_reel .., (Mp.owed_owe _ (o := .cmd cmd.1 cmd.2) nofun).trans ?_⟩
  unfold Mp.owed
  rw [show ((e.answered a bs.length).frontWrite cmd false a bs).mp.acks = e.mp.acks from acks]

section

variable {e : Eng} {n : Fin 64} {pre post : List Cmd} {c : Cmd} {a : Nat} {bs : List Byte}

/-- An inline payload, written whole to device memory where the sward is off, ends its command and owes an acknowledgement. -/
theorem inlineWrite_through (h : e.InFlight n.val pre c post) (plain : bit (le c.body (if c.type = 2 then 16 else 22) 2) 15 = false)
    (hole : e.mp.firstHole a bs.length = none) (granted : e.acc.firstDenied 3 c.master false true a bs.length = none)
    (off : e.swd.enabled = false) (pending : e.swd.pending = false) (idle : e.busy 5 = false) {e' : Eng}
    (he : e.inlineWrite n c false a bs .ok = e') :
    (∀ i (hi : i < bs.length), e'.dev.rd (a + i) = bs[i]) ∧ (∀ x, x < a ∨ a + bs.length ≤ x → e'.dev.rd x = e.dev.rd x) ∧
      e'.host = e.host ∧ (e'.reel n.val).inflight = pre ++ { c with phase := .done 0 0 c.detail } :: post ∧
      e'.mp.owed (.cmd n c.count) = e.mp.owed (.cmd n c.count) + 1 := by
  obtain ⟨dev, host, reel, owed⟩ := payload_of_off off (n, c.count) a bs
  have there : (e.payload (n, c.count) a bs).InFlight n.val pre c post := h.of_inflight (congrArg Reel.inflight (reel n.val))
  rw [← he, inlineWrite_to_device plain hole granted off pending idle]
  refine ⟨fun i hi => ?_, fun x out => ?_, host, there.ends 0 0 c.detail, owed⟩
  · exact (congrArg (·.rd (a + i)) dev).trans (Memory.rd_wrSectors_of_inside _ a bs hi)
  · exact (congrArg (·.rd x) dev).trans (Memory.rd_wrSectors_of_outside _ a bs out)

end

theorem Cmd.detail_of_copy {c : Cmd} (type : c.type.toNat = 3) : c.detail = BitVec.ofNat 32 c.dir := by
  unfold Cmd.detail
  rw [if_pos (.inr (BitVec.eq_of_toNat_eq type))]

theorem Cmd.detail_of_bag {c : Cmd} (type : c.type.toNat = 2) : c.detail = 0 := by
  obtain type : c.type = 2 := BitVec.eq_of_toNat_eq type
  unfold Cmd.detail
  rw [type]
  rfl

theorem bit_eq_testBit (x i : Nat) : bit x i = x.testBit i := by
  simp only [bit, fld, Nat.testBit_eq_decide_div_mod_eq]
  rfl

section

variable {s : State} {n : Fin 64} {pre post : List Cmd} {c : Cmd} (acts : s.acting n 3 pre c post)

include acts

/-- A COPY with an inline payload is the front end's to write (R80). -/
theorem exec_copy_of_inline (inl : (le c.body 21 1).testBit 0 = true) (r : ReadRes) {h : Bool} (hh : h = (le c.body 21 1).testBit 2) :
    exec (.copy n r) s =
      .next { s with eng := s.eng.inlineWrite n c h (le c.body 8 8) ((c.body.drop 32).take (le c.body 16 5)) r } := by
  refine acts.next ?_
  rw [bit_eq_testBit, if_pos inl, bit_eq_testBit, hh]

theorem exec_copy_of_transfer (transfer : (le c.body 21 1).testBit 0 = false) (r : ReadRes) :
    exec (.copy n r) s = .next (s.setInflight n (pre ++ { c with phase := .running } :: post)) := by
  refine acts.next (Eq.trans ?_ (acts.inFlight.runCmd id))
  rw [bit_eq_testBit, if_neg (by simp [transfer])]

theorem copy_plain (plain : (le c.body 22 2).testBit 15 = false) : bit (le c.body (if c.type = 2 then 16 else 22) 2) 15 = false := by
  have copy : c.type ≠ 2 := fun bag => by
    have type := acts.type_eq
    rw [bag] at type
    exact absurd type (by decide)
  rw [if_neg copy, bit_eq_testBit, plain]

end

theorem bag_plain {c : Cmd} (bag : c.type.toNat = 2) (plain : (le c.body 16 2).testBit 15 = false) :
    bit (le c.body (if c.type = 2 then 16 else 22) 2) 15 = false := by
  rw [if_pos (BitVec.eq_of_toNat_eq bag), bit_eq_testBit, plain]

/-! ### CONFIG (R81, R401) -/

section

variable {s : State} {n : Fin 64} {count : W24} {k left : Nat} {c : Cmd}
  (found : (s.eng.reel n.val).inflight.find? (fun y => y.count == count && y.phase == .running) = some c)

include found

theorem configRun_of_done {t : State} {v : Nat}
    (served : s.access c.master (le c.body (8 + 8 * k) 4) (.wr32 (BitVec.ofNat 32 (le c.body (12 + 8 * k) 4)))
      (cfg := some (n, count, k)) = (t, .done v)) : s.configRun n count k (left + 1) = t.configRun n count (k + 1) left := by
  conv_lhs => unfold State.configRun
  rw [found]
  dsimp only
  rw [served]

theorem configRun_of_denied {t : State}
    (denied : s.access c.master (le c.body (8 + 8 * k) 4) (.wr32 (BitVec.ofNat 32 (le c.body (12 + 8 * k) 4)))
      (cfg := some (n, count, k)) = (t, .denied)) :
    s.configRun n count k (left + 1) = { t with eng := t.eng.finishCmd n count 3 0 0 } := by
  unfold State.configRun
  rw [found]
  dsimp only
  rw [denied]

theorem configRun_of_waits {t : State}
    (waits : s.access c.master (le c.body (8 + 8 * k) 4) (.wr32 (BitVec.ofNat 32 (le c.body (12 + 8 * k) 4)))
      (cfg := some (n, count, k)) = (t, .waits)) : s.configRun n count k (left + 1) = t := by
  unfold State.configRun
  rw [found]
  dsimp only
  rw [waits]

end

theorem exec_config {s : State} {n : Fin 64} {pre post : List Cmd} {c : Cmd} (acts : s.acting n 8 pre c post) :
    exec (.config n) s = .next (({ s with eng := s.eng.runCmd n c } : State).configRun n c.count 0 (le c.body 0 1)) := by
  show execConfig n s = _
  unfold execConfig
  rw [acts.runs, acts.idle, acts.ready]
  rfl

/-- Writes that are served one after the other bring the command to the next one. -/
theorem configRun_of_served {us : Nat → State} {vs : Nat → Nat} {n : Fin 64} {c : Cmd} {k : Nat} (fits : k ≤ le c.body 0 1)
    (served : ∀ i < k, (us i).access c.master (le c.body (8 + 8 * i) 4) (.wr32 (BitVec.ofNat 32 (le c.body (12 + 8 * i) 4)))
      (cfg := some (n, c.count, i)) = (us (i + 1), .done (vs i)))
    (there : ∀ i ≤ k, ∃ x, ((us i).eng.reel n.val).inflight.find? (fun y => y.count == c.count && y.phase == .running) = some x ∧
      x.body = c.body ∧ x.master = c.master) :
    (us 0).configRun n c.count 0 (le c.body 0 1) = (us k).configRun n c.count k (le c.body 0 1 - k) := by
  induction k with
  | zero => rfl
  | succ k ih =>
    obtain ⟨x, found, body, master⟩ := there k (by omega)
    rw [ih (by omega) (fun i hi => served i (by omega)) fun i hi => there i (by omega),
      show le c.body 0 1 - k = le c.body 0 1 - (k + 1) + 1 by omega]
    refine configRun_of_done (v := vs k) found ?_
    rw [body, master]
    exact served k (by omega)

/-! ### TAKE_NOW (R320, R321) -/

section

variable {e : Eng} {n : Fin 64} {c : Cmd}

theorem takeNow_of_disabled (off : e.tk.enabled = false) (same : Bool) : e.takeNow n c same = e.finishCmd n c.count 2 0 0 := by
  unfold Eng.takeNow
  rw [off]
  rfl

variable (on : e.tk.enabled = true)

include on

/-- No TAKE's request stands last that the command could join: it asks for a cut of its own. -/
theorem takeNow_of_alone {same : Bool}
    (alone : same = false ∨ ∀ x ∈ e.tk.cuts.getLast?, x.byTake = none ∨ x.cmd ≠ none ∨ x.at_ ≠ e.hth.time) :
    e.takeNow n c same = (e.runCmd n c).cutRequest (le c.body 0 1 == 1) none 0 (some (n, c.count)) := by
  have tk : (e.runCmd n c).tk = e.tk := rfl
  unfold Eng.takeNow
  rw [on]
  dsimp only
  rw [if_neg (by simp), tk]
  cases last : e.tk.cuts.getLast? with
  | none => rfl
  | some x =>
    refine if_neg ?_
    rcases alone with rfl | other
    · simp
    · have hth : (e.runCmd n c).hth = e.hth := rfl
      rcases other x last with none | some | early
      · simp [none]
      · simp [Option.isNone_iff_eq_none, some]
      · simp [hth, early]

/-- The last request is a TAKE's of this cycle: the command joins it. -/
theorem takeNow_of_join {cuts : List Cut} {x : Cut} {h : Hdr} (last : e.tk.cuts = cuts ++ [x]) (take : x.byTake = some h)
    (free : x.cmd = none) (now : x.at_ = e.hth.time) :
    e.takeNow n c true = (e.runCmd n c).onTk fun k =>
      { k with cuts := cuts ++ [{ x with print := x.print || le c.body 0 1 == 1, cmd := some (n, c.count) }] } := by
  have tk : (e.runCmd n c).tk = e.tk := rfl
  have hth : (e.runCmd n c).hth = e.hth := rfl
  unfold Eng.takeNow
  rw [on]
  dsimp only
  rw [if_neg (by simp), tk, last, List.getLast?_concat]
  dsimp only
  rw [if_pos (by simp [take, free, now, hth])]
  unfold Eng.onTk
  rw [tk]
  dsimp only
  rw [last, List.dropLast_concat]

end

end Sys2Proof.Machine
end

section
/-! SUPPORT. The messages on their way out of the engine (R285, R290): a pump moves them between a port's queues and its replay buffer, and
a message sent is one more. -/

namespace Sys2Proof.Machine

open Sys2Proof

theorem append_swap {α : Type} (a b c : List α) : (a ++ b ++ c).Perm (a ++ c ++ b) := by
  rw [List.append_assoc, List.append_assoc]
  exact List.perm_append_comm.append_left a

/-! ### At one port -/

/-- What a neighbour is told of a message: its destination, its number and its body. -/
def heading (m : ZMsg) : BitVec 8 × W32 × ZBody := (m.dst, m.seq, m.body)

/-- The messages that a port holds until the neighbour has acknowledged them. -/
def ZPort.carried (x : ZPort) : List (BitVec 8 × W32 × ZBody) :=
  (x.queue ++ x.fwd ++ x.replay.flatMap fun f => f.msgs).map heading

theorem carried_queue (x : ZPort) (m : ZMsg) : ({ x with queue := x.queue ++ [m] } : ZPort).carried.Perm (x.carried ++ [heading m]) := by
  unfold ZPort.carried
  rw [show [heading m] = [m].map heading from rfl, ← List.map_append]
  exact (((append_swap _ _ _).append_right _).trans (append_swap _ _ _)).map _

theorem carried_emit (x : ZPort) (ms : List ZMsg) : (x.emit ms).carried = x.carried ++ ms.map heading := by
  unfold ZPort.carried ZPort.emit
  simp only [List.flatMap_append, List.flatMap_cons, List.flatMap_nil, List.append_nil, List.map_append, List.map_map,
    List.append_assoc]
  rfl

theorem mem_of_nextOf {x : ZPort} {v : Nat} {f : Bool} {m : ZMsg} (h : x.nextOf v = some (f, m)) :
    if f then m ∈ x.fwd else m ∈ x.queue := by
  unfold ZPort.nextOf at h
  dsimp only at h
  cases hl : x.queue.find? fun m => zChan m == v with
  | none =>
    cases hf : x.fwd.find? fun m => zChan m == v with
    | none => simp [hl, hf] at h
    | some b =>
      have : b ∈ x.fwd := List.mem_of_find?_eq_some hf
      simp [hl, hf] at h
      obtain ⟨rfl, rfl⟩ := h
      exact this
  | some a =>
    have ha : a ∈ x.queue := List.mem_of_find?_eq_some hl
    cases hf : x.fwd.find? fun m => zChan m == v with
    | none =>
      simp [hl, hf] at h
      obtain ⟨rfl, rfl⟩ := h
      exact ha
    | some b =>
      have hb : b ∈ x.fwd := List.mem_of_find?_eq_some hf
      simp only [hl, hf, Option.map_some, Option.some_or] at h
      split at h <;> cases h
      · exact hb
      · exact ha

/-- A message that is taken for a frame has left the port's queues. -/
theorem carried_take {x y : ZPort} {f : Bool} {m : ZMsg} (there : if f then m ∈ x.fwd else m ∈ x.queue)
    (queue : y.queue = if f then x.queue else x.queue.erase m) (fwd : y.fwd = if f then x.fwd.erase m else x.fwd)
    (replay : y.replay = x.replay) : (y.carried ++ [heading m]).Perm x.carried := by
  unfold ZPort.carried
  rw [queue, fwd, replay]
  have one : [heading m] = [m].map heading := rfl
  rw [one, ← List.map_append]
  refine List.Perm.map _ ?_
  cases f with
  | false =>
    have split : x.queue.Perm (m :: x.queue.erase m) := List.perm_cons_erase there
    refine (List.perm_append_comm.trans ?_)
    simp only [Bool.false_eq_true, if_false, List.singleton_append, ← List.cons_append]
    exact ((split.symm.append_right _).append_right _)
  | true =>
    have split : x.fwd.Perm (m :: x.fwd.erase m) := List.perm_cons_erase there
    refine (List.perm_append_comm.trans ?_)
    simp only [if_true, List.singleton_append]
    refine (List.perm_middle.symm.append_right (x.replay.flatMap fun f => f.msgs)).trans ?_
    exact (split.symm.append_left _).append_right _

theorem carried_fill (n left : Nat) (x : ZPort) (ms : List ZMsg) :
    ((ZPort.fill n left x ms).1.carried ++ (ZPort.fill n left x ms).2.map heading).Perm (x.carried ++ ms.map heading) := by
  induction n generalizing left x ms with
  | zero => exact .refl _
  | succ n ih =>
    rw [ZPort.fill]
    split
    · exact .refl _
    · next v f m found =>
      extract_lets y
      have there : if f then m ∈ x.fwd else m ∈ x.queue := by
        obtain ⟨w, _, fits⟩ := List.exists_of_findSome?_eq_some found
        split at fits
        · next next =>
          split at fits
          · cases fits
            exact mem_of_nextOf next
          · cases fits
        · cases fits
      refine (ih _ y _).trans ?_
      rw [List.map_append, ← List.append_assoc]
      refine (append_swap ..).trans ?_
      exact (carried_take (y := y) there rfl rfl rfl).append_right _

theorem carried_pump (n : Nat) (x : ZPort) : (ZPort.pump n x).1.carried.Perm x.carried := by
  induction n generalizing x with
  | zero => exact .refl _
  | succ n ih =>
    rw [ZPort.pump]
    split
    · have filled := carried_fill (x.queue.length + x.fwd.length) (255 - ctlCells x.control) x []
      generalize ZPort.fill _ _ x [] = p at filled ⊢
      obtain ⟨y, ms⟩ := p
      dsimp only at filled ⊢
      split
      · exact .refl _
      · refine (ih _).trans ?_
        rw [carried_emit]
        simpa using filled
    · exact .refl _

/-! ### At the engine -/

theorem outgoing_eq (e : Eng) : e.outgoing = e.zw.stuck.map heading ++ (List.range 8).flatMap fun p => (e.port' p).carried := by
  unfold Eng.outgoing
  rw [List.map_append, List.map_flatMap]
  rfl

/-- A list that is made port by port, where one port's part is longer. -/
theorem flatMap_perm_of_one {α β : Type} [DecidableEq α] {f g : α → List β} {p : α} {extra : List β} (grown : (g p).Perm (f p ++ extra))
    (others : ∀ k, k ≠ p → g k = f k) {ks : List α} (nodup : ks.Nodup) (there : p ∈ ks) :
    (ks.flatMap g).Perm (ks.flatMap f ++ extra) := by
  induction ks with
  | nil => cases there
  | cons k ks ih =>
    obtain ⟨out, nodup⟩ := List.nodup_cons.mp nodup
    rw [List.flatMap_cons, List.flatMap_cons]
    by_cases hk : k = p
    · subst hk
      have rest : ks.flatMap g = ks.flatMap f := by
        rw [List.flatMap_def, List.flatMap_def, List.map_congr_left fun j hj => others j fun eq => out (eq ▸ hj)]
      rw [rest]
      exact (grown.append_right _).trans (append_swap ..)
    · rw [others k hk, List.append_assoc]
      exact (ih nodup (List.mem_of_ne_of_mem (Ne.symm hk) there)).append_left _

theorem outgoing_setPort {e : Eng} {p : Nat} {x : ZPort} {extra : List (BitVec 8 × W32 × ZBody)}
    (grown : x.carried.Perm ((e.port' p).carried ++ extra)) (hp : p < 8) : (e.setPort p x).outgoing.Perm (e.outgoing ++ extra) := by
  rw [outgoing_eq, outgoing_eq, List.append_assoc]
  refine List.Perm.append_left _ (flatMap_perm_of_one (p := p) ?_ (fun k hk => ?_) List.nodup_range (List.mem_range.mpr hp))
  · rw [Eng.port_setPort_self]
    exact grown
  · rw [Eng.port_setPort, if_neg hk]

theorem outgoing_setPort_of_same {e : Eng} {p : Nat} {x : ZPort} (same : x.carried = (e.port' p).carried) :
    (e.setPort p x).outgoing = e.outgoing := by
  rw [outgoing_eq, outgoing_eq]
  have ports : ∀ k, ((e.setPort p x).port' k).carried = (e.port' k).carried := fun k => by
    rw [Eng.port_setPort]
    split
    · next hk => rw [same, hk]
    · rfl
  simp only [ports]
  rfl

theorem outgoing_owe (e : Eng) (m : ZMsg) : (e.owe m).outgoing = e.outgoing := by
  unfold Eng.owe
  split
  · split
    · exact outgoing_setPort_of_same rfl
    · rfl
  · rfl

theorem outgoing_foldl_owe (ms : List ZMsg) (e : Eng) : (ms.foldl Eng.owe e).outgoing = e.outgoing := by
  induction ms generalizing e with
  | nil => rfl
  | cons m ms ih => exact (ih _).trans (outgoing_owe _ _)

theorem outgoing_pump (e : Eng) {p : Nat} (hp : p < 8) : (e.pump p).outgoing.Perm e.outgoing := by
  unfold Eng.pump
  dsimp only
  have pumped := carried_pump ((e.port' p).queue.length + (e.port' p).fwd.length) (e.port' p)
  generalize ZPort.pump _ _ = out at pumped ⊢
  rw [outgoing_foldl_owe]
  simpa using outgoing_setPort (extra := []) (by simpa using pumped) hp

theorem route_lt {e : Eng} {d p : Nat} {dl : Bool} (h : e.route d = some (p, dl)) : p < 8 := by
  unfold Eng.route at h
  extract_lets w live at h
  split at h
  · cases h
    exact Nat.mod_lt _ (by decide)
  · split at h
    · cases h
      exact Nat.mod_lt _ (by decide)
    · cases h

/-- A message of the engine's own is one more on its way. -/
theorem outgoing_forward (e : Eng) {m : ZMsg} (own : m.arr = none) : (e.forward m).outgoing.Perm (e.outgoing ++ [heading m]) := by
  unfold Eng.forward
  rw [if_neg (by simp [own])]
  split
  · rw [outgoing_eq, outgoing_eq]
    simp only [Eng.onZw, List.map_append, List.map_cons, List.map_nil]
    exact append_swap ..
  · next p dl found =>
    have hp : p < 8 := by
      split at found
      · cases found
      · exact route_lt found
    dsimp only
    refine (outgoing_pump _ hp).trans (outgoing_setPort ?_ hp)
    rw [own]
    exact carried_queue (e.port' p) _

/-- A message that need not wait is numbered on from the last of its class, and is one more on its way (R292). -/
theorem outgoing_send {e : Eng} {d : Nat} {b : ZBody} (now : e.sendWaits d b = false) (u : Purpose) :
    (e.send d b u).outgoing.Perm (e.outgoing ++ [(BitVec.ofNat 8 d, e.zw.txSeq.get 0 (3 * d + zCls b), b)]) := by
  unfold Eng.send
  rw [if_neg (by rw [now]; decide)]
  unfold Eng.sendNow
  dsimp only
  refine (outgoing_forward _ rfl).trans (List.Perm.append_right _ ?_)
  split <;> exact .refl _

end Sys2Proof.Machine
end

section
/-! SUPPORT. What an answer from a peer does (R142, R184, R195, R216, R288, R346): the message taken, the request it goes to, and the work
that learns of it. -/

namespace Sys2Proof.Machine

open Sys2Proof

/-! ### The message taken, and the request answered -/

/-- The engine with message `z` taken from between `pre` and `post` of the inbox. -/
def Eng.taken (e : Eng) (pre post : List ZMsg) (z : ZMsg) : Eng := ({ e with zw := { e.zw with inbox := pre ++ post } } : Eng).owe z

theorem takeMsg_of_first {e : Eng} {pre post : List ZMsg} {z : ZMsg} {p : ZBody → Bool} (inbox : e.zw.inbox = pre ++ z :: post)
    (first : ∀ y ∈ pre, p y.body = false) (hz : p z.body = true) : e.takeMsg p = (e.taken pre post z, some z) := by
  have before : ∀ y ∈ pre, ¬ p y.body = true := fun y hy => by rw [first y hy]; decide
  have found : e.zw.inbox.find? (fun m => p m.body) = some z := by
    rw [inbox, List.find?_append, List.find?_eq_none.mpr before]
    simp [hz]
  have left : e.zw.inbox.eraseP (fun m => p m.body) = pre ++ post := by
    rw [inbox, List.eraseP_append_right _ before]
    simp [hz]
  unfold Eng.takeMsg Eng.takeOf
  rw [found]
  dsimp only
  rw [show (e.onZw fun z => { z with inbox := z.inbox.eraseP fun m => p m.body }) = { e with zw := { e.zw with inbox := pre ++ post } } by
    unfold Eng.onZw
    dsimp only
    rw [left]]
  rfl

theorem tracked_taken (e : Eng) (pre post : List ZMsg) (z : ZMsg) : (e.taken pre post z).zw.tracked = e.zw.tracked := tracked_owe _ _

/-- Owing a port cells changes nothing but the ports. -/
theorem owe_ports (e : Eng) (m : ZMsg) : ∃ ps, e.owe m = { e with zw := { e.zw with ports := ps } } := by
  unfold Eng.owe
  split
  · split <;> exact ⟨_, rfl⟩
  · exact ⟨_, rfl⟩

/-- `e'` is `e` with only the link block changed: the requests in `ts` stand, none waits, and nothing else is on its way out. -/
structure Eng.Answers (e : Eng) (ts : List Track) (e' : Eng) : Prop where
  only : e.ZwOnly e'
  tracked : e'.zw.tracked = ts
  blocked : e'.zw.blocked = []
  txSeq : e'.zw.txSeq = e.zw.txSeq
  outgoing : e'.outgoing = e.outgoing

/-- The engine with request `t` replaced in the store. -/
def Eng.retrack (e : Eng) (t t' : Track) : Eng := e.onZw fun z => { z with tracked := z.tracked.map fun y => if y == t then t' else y }

section

variable {e : Eng} (unblocked : e.zw.blocked = [])

include unblocked

theorem answers_taken (pre post : List ZMsg) (z : ZMsg) : e.Answers e.zw.tracked (e.taken pre post z) := by
  have out : (e.taken pre post z).outgoing = e.outgoing := outgoing_owe _ _
  obtain ⟨ps, taken⟩ := owe_ports ({ e with zw := { e.zw with inbox := pre ++ post } } : Eng) z
  replace taken : e.taken pre post z = _ := taken
  refine ⟨⟨_, taken⟩, ?_, ?_, ?_, out⟩ <;> rw [taken]
  exact unblocked

/-- The first tracked message that `p` picks leaves the store, and no other message waits. -/
theorem untrack_of_unblocked (p : Track → Bool) : e.untrack p = e.onZw fun z => { z with tracked := z.tracked.eraseP p } := by
  unfold Eng.untrack Eng.unblock
  rw [if_pos]
  show e.zw.blocked.isEmpty = true
  rw [unblocked]
  rfl

end

section

variable {e e' : Eng} {ts : List Track} (h : e.Answers ts e')

include h

theorem Eng.Answers.untrack (p : Track → Bool) : e.Answers (ts.eraseP p) (e'.untrack p) := by
  rw [untrack_of_unblocked h.blocked]
  exact ⟨h.only.trans (zwOnly_onZw _ _), congrArg (List.eraseP p) h.tracked, h.blocked, h.txSeq, h.outgoing⟩

theorem Eng.Answers.untrack_eq (t : Track) : e.Answers (ts.erase t) (e'.untrack (· == t)) := by
  rw [List.erase_eq_eraseP']
  exact h.untrack _

theorem Eng.Answers.retrack (t t' : Track) : e.Answers (ts.map fun y => if y = t then t' else y) (e'.retrack t t') := by
  have changed : (ts.map fun y => if y == t then t' else y) = ts.map fun y => if y = t then t' else y := by
    simp only [beq_iff_eq]
  exact ⟨h.only.trans (zwOnly_onZw _ _), (congrArg _ h.tracked).trans changed, h.blocked, h.txSeq, h.outgoing⟩

/-- An answered request leaves the store with its last answer. -/
theorem Eng.Answers.resolve {c : Prop} [Decidable c] {b : Bool} (hb : b = true ↔ c) (t t' : Track) :
    e.Answers (if c then ts.erase t else ts.map fun y => if y = t then t' else y)
      (if b then e'.untrack (· == t) else e'.retrack t t') := by
  by_cases hc : c
  · rw [if_pos hc, if_pos (hb.mpr hc)]
    exact h.untrack_eq t
  · rw [if_neg hc, if_neg fun yes => hc (hb.mp yes)]
    exact h.retrack t t'

theorem Eng.Answers.countGln (i n : Nat) : (e.countGln i n).Answers ts (e'.countGln i n) := by
  obtain ⟨w, only⟩ := h.only
  exact ⟨⟨w, congrArg (·.countGln i n) only⟩, h.tracked, h.blocked, h.txSeq, h.outgoing⟩

theorem Eng.Answers.gln : e'.gln = e.gln := by obtain ⟨_, only⟩ := h.only; rw [only]
theorem Eng.Answers.swp : e'.swp = e.swp := by obtain ⟨_, only⟩ := h.only; rw [only]
theorem Eng.Answers.ted : e'.ted = e.ted := by obtain ⟨_, only⟩ := h.only; rw [only]
theorem Eng.Answers.fe : e'.fe = e.fe := by obtain ⟨_, only⟩ := h.only; rw [only]
theorem Eng.Answers.dirs : e'.dirs = e.dirs := by obtain ⟨_, only⟩ := h.only; rw [only]
theorem Eng.Answers.clp : e'.clp = e.clp := by obtain ⟨_, only⟩ := h.only; rw [only]
theorem Eng.Answers.hth : e'.hth = e.hth := by obtain ⟨_, only⟩ := h.only; rw [only]
theorem Eng.Answers.dev : e'.dev = e.dev := by obtain ⟨_, only⟩ := h.only; rw [only]

theorem Eng.Answers.glean (k : Key) : e'.glean k = e.glean k := by unfold Eng.glean; rw [h.gln]
theorem Eng.Answers.topkOf (k : Key) : e'.topkOf k = e.topkOf k := by unfold Eng.topkOf; rw [h.swp]
theorem Eng.Answers.sweepOf (k : Key) : e'.sweepOf k = e.sweepOf k := by unfold Eng.sweepOf; rw [h.swp]
theorem Eng.Answers.optOf (k : Key) : e'.optOf k = e.optOf k := by unfold Eng.optOf; rw [h.ted]
theorem Eng.Answers.reel (n : Nat) : e'.reel n = e.reel n := by unfold Eng.reel; rw [h.fe]
theorem Eng.Answers.dir (d : Nat) : e'.dir d = e.dir d := by unfold Eng.dir; rw [h.dirs]

end

/-- The request that an answer of sector `idx` from `src` can go to. -/
def awaitsRead (src : BitVec 8) (idx : Nat) (y : Track) : Bool :=
  y.msg.dst == src && match y.msg.body with
    | .readReq _ _ n => decide (idx ≤ n.toNat) && !y.got.any fun x => x.1 == idx
    | _ => false

/-- The write that an outcome from `src` can go to. -/
def awaitsWrite (src : BitVec 8) (y : Track) : Bool :=
  y.msg.dst == src && match y.msg.body with
    | .write .. => true
    | _ => false

/-- The run that sectors from `src`, from `idx` on, can go to. -/
def awaitsStream (src : BitVec 8) (idx : Nat) (y : Track) : Bool :=
  y.msg.dst == src && match y.msg.body with
    | .streamReq _ _ n => decide (idx ≤ n.toNat) && !y.got.any fun x => x.1 == idx
    | _ => false

/-- The clapper operation that an outcome from `src` can go to. -/
def awaitsClapper (src : BitVec 8) (y : Track) : Bool :=
  y.msg.dst == src && match y.msg.body with
    | .clpOp .. => true
    | _ => false

/-- The bytes of a request's answers, in the order of their sectors; an uncorrectable one stands for zeros. -/
def sectorBytes (got : List (Nat × List Byte)) : List Byte :=
  (sortBy (·.1) got).flatMap fun x => if x.2.isEmpty then List.replicate 64 0 else x.2

theorem sectorBytes_of_one {idx : Nat} {data : List Byte} (nonempty : data ≠ []) : sectorBytes [(idx, data)] = data := by
  show (if data.isEmpty then List.replicate 64 0 else data) ++ [] = data
  simp [nonempty]

/-- A denied operation that a director posted is noted, and told. -/
def Eng.noted (e : Eng) (de : Bool) (m cls inst code payload : Nat) : Eng :=
  if de then ({ e with clp := { e.clp with peerDenied := true } } : Eng).post m cls inst code payload else e

/-- The request with one more answer. -/
def Track.answered (t : Track) (idx : Nat) (data : List Byte) : Track := { t with got := t.got ++ [(idx, data)] }

section

variable {e : Eng} {pre post : List ZMsg} {z : ZMsg} (inbox : e.zw.inbox = pre ++ z :: post)

include inbox

/-! ### Which case an answer meets -/

section

variable {idx : BitVec 8} {de un : Bool} {data : List Byte} (body : z.body = .readRsp idx de un data)
  (first : ∀ y ∈ pre, ∀ a b c d, y.body ≠ .readRsp a b c d)

include body first

theorem readResponse_of_none (none : e.zw.tracked.find? (awaitsRead z.src idx.toNat) = none) (wrs : List ReadRes) :
    e.readResponse wrs = e.taken pre post z := by
  rw [← tracked_taken e pre post z] at none
  unfold Eng.readResponse
  rw [takeMsg_of_first inbox ?others ?own]
  case others =>
    intro y hy
    split
    · next eq => exact (first y hy _ _ _ _ eq).elim
    · rfl
  case own => rw [body]
  dsimp only
  rw [body]
  dsimp only
  split
  · rfl
  · next t some => exact absurd (none.symm.trans some) nofun

/-- An answer goes to the request by what that is for, and by how it was answered. -/
theorem readResponse_of_some {t : Track} (found : e.zw.tracked.find? (awaitsRead z.src idx.toNat) = some t)
    {sec : BitVec 58} {tier : BitVec 2} {n : BitVec 8} (req : t.msg.body = .readReq sec tier n) (wrs : List ReadRes) :
    (t.use = .left → e.readResponse wrs = if de || (t.answered idx.toNat []).got.length == n.toNat + 1 then
        (e.taken pre post z).untrack (· == t) else (e.taken pre post z).retrack t (t.answered idx.toNat [])) ∧
      (∀ k pos i, t.use = .read k pos i → de = true → e.readResponse wrs =
        (((e.taken pre post z).untrack (· == t)).readBad k pos i 0 true).readDone k pos i sec.toNat
          (List.replicate (64 * (n.toNat + 1)) 0) true wrs) ∧
      (∀ k pos i t' e1, t.use = .read k pos i → de = false → t' = t.answered idx.toNat (if un then [] else data) →
        e1 = (if un then (e.taken pre post z).readBad k pos i (64 * (sec.toNat + idx.toNat)) false
          else (e.taken pre post z).countGln 3 1) → e.readResponse wrs =
        if t'.got.length = n.toNat + 1 then (e1.untrack (· == t)).readDone k pos i sec.toNat
          (sectorBytes t'.got) (t'.got.any (·.2.isEmpty)) wrs
        else e1.retrack t t') := by
  rw [← tracked_taken e pre post z] at found
  unfold Eng.readResponse
  rw [takeMsg_of_first inbox ?others ?own]
  case others =>
    intro y hy
    split
    · next eq => exact (first y hy _ _ _ _ eq).elim
    · rfl
  case own => rw [body]
  dsimp only
  rw [body]
  dsimp only
  split
  · next none => exact absurd (found.symm.trans none) nofun
  · next u some =>
    obtain rfl := Option.some.inj (found.symm.trans some)
    rw [req]
    obtain ⟨msg, use, sent, got, lost, since⟩ := t
    dsimp only
    refine ⟨?_, ?_, ?_⟩
    · rintro rfl
      rfl
    · rintro k pos i rfl denied
      rw [denied]
      rfl
    · rintro k pos i t' e1 rfl granted rfl rfl
      rw [granted]
      rfl

end

section

variable {st : BitVec 2} (body : z.body = .writeAck st) (first : ∀ y ∈ pre, ∀ a, y.body ≠ .writeAck a)

include body first

theorem writeAckMsg_of_none (none : e.zw.tracked.find? (awaitsWrite z.src) = none) :
    e.writeAckMsg = e.taken pre post z := by
  rw [← tracked_taken e pre post z] at none
  unfold Eng.writeAckMsg
  rw [takeMsg_of_first inbox ?others ?own]
  case others =>
    intro y hy
    split
    · next eq => exact (first y hy _ eq).elim
    · rfl
  case own => rw [body]
  dsimp only
  rw [body]
  dsimp only
  split
  · rfl
  · next t some => exact absurd (none.symm.trans some) nofun

/-- A write's outcome goes to its OPT's lane or its TOPK. -/
theorem writeAckMsg_of_some {t : Track} (found : e.zw.tracked.find? (awaitsWrite z.src) = some t) :
    (∀ lane, t.use = .replica lane → e.writeAckMsg = ((e.taken pre post z).untrack (awaitsWrite z.src)).replicaAck lane st.toNat) ∧
      (∀ k, t.use = .topk k → e.writeAckMsg = if st = 0 then ((e.taken pre post z).untrack (awaitsWrite z.src)).topkNext k
        else ((e.taken pre post z).untrack (awaitsWrite z.src)).topkRefused k) := by
  rw [← tracked_taken e pre post z] at found
  unfold Eng.writeAckMsg
  rw [takeMsg_of_first inbox ?others ?own]
  case others =>
    intro y hy
    split
    · next eq => exact (first y hy _ eq).elim
    · rfl
  case own => rw [body]
  dsimp only
  rw [body]
  dsimp only
  split
  · next none => exact absurd (found.symm.trans none) nofun
  · next u some =>
    obtain rfl := Option.some.inj (found.symm.trans some)
    refine ⟨fun lane use => ?_, fun k use => ?_⟩
    · rw [use]
      rfl
    · rw [use]
      rfl

end

section

variable {idx : BitVec 8} {de un : Bool} {data : List Byte} (body : z.body = .streamData idx de un data)
  (first : ∀ y ∈ pre, ∀ a b c d, y.body ≠ .streamData a b c d)

include body first

theorem streamDataMsg_of_none (none : e.zw.tracked.find? (awaitsStream z.src idx.toNat) = none) :
    e.streamDataMsg = e.taken pre post z := by
  rw [← tracked_taken e pre post z] at none
  unfold Eng.streamDataMsg
  rw [takeMsg_of_first inbox ?others ?own]
  case others =>
    intro y hy
    split
    · next eq => exact (first y hy _ _ _ _ eq).elim
    · rfl
  case own => rw [body]
  dsimp only
  rw [body]
  dsimp only
  split
  · rfl
  · next t some => exact absurd (none.symm.trans some) nofun

/-- The sectors of a run go to the SWEEP that asked. -/
theorem streamDataMsg_of_some {t : Track} (found : e.zw.tracked.find? (awaitsStream z.src idx.toNat) = some t)
    {sec : BitVec 58} {tier : BitVec 2} {n1 : BitVec 6} (req : t.msg.body = .streamReq sec tier n1) {k : Key} (use : t.use = .stream k) :
    e.streamDataMsg = (if (t.answered idx.toNat []).got.length == (if n1.toNat + 1 ≤ 32 then 1 else 2) then
        (e.taken pre post z).untrack (· == t) else (e.taken pre post z).retrack t (t.answered idx.toNat [])).streamSweep k z.src.toNat
      sec.toNat idx.toNat (if idx.toNat = 0 then min (n1.toNat + 1) 32 else n1.toNat + 1 - idx.toNat) de
      (if de || un then none else some data) := by
  rw [← tracked_taken e pre post z] at found
  unfold Eng.streamDataMsg
  rw [takeMsg_of_first inbox ?others ?own]
  case others =>
    intro y hy
    split
    · next eq => exact (first y hy _ _ _ _ eq).elim
    · rfl
  case own => rw [body]
  dsimp only
  rw [body]
  dsimp only
  split
  · next none => exact absurd (found.symm.trans none) nofun
  · next u some =>
    obtain rfl := Option.some.inj (found.symm.trans some)
    rw [req]
    obtain ⟨msg, purpose, sent, got, lost, since⟩ := t
    subst use
    rfl

end

section

variable {de : Bool} (body : z.body = .clpAck de) (first : ∀ y ∈ pre, ∀ a, y.body ≠ .clpAck a)

include body first

theorem clapperAck_of_none (none : e.zw.tracked.find? (awaitsClapper z.src) = none) :
    e.clapperAck = e.taken pre post z := by
  rw [← tracked_taken e pre post z] at none
  unfold Eng.clapperAck
  rw [takeMsg_of_first inbox ?others ?own]
  case others =>
    intro y hy
    split
    · next eq => exact (first y hy _ eq).elim
    · rfl
  case own => rw [body]
  dsimp only
  rw [body]
  dsimp only
  split
  · rfl
  · next t some => exact absurd (none.symm.trans some) nofun

/-- A clapper's outcome goes to its SIGNAL or its director. -/
theorem clapperAck_of_some {t : Track} (found : e.zw.tracked.find? (awaitsClapper z.src) = some t) {e1 : Eng}
    (he : e1 = (e.taken pre post z).untrack (awaitsClapper z.src)) :
    (∀ reel count, t.use = .signal reel count → e.clapperAck =
        e1.finishCmd reel.val count (if de then 3 else 0) 0 (e1.cmdDetail reel count)) ∧
      (∀ d cl, t.use = .posted d cl → e.clapperAck = (e1.noted de (e1.mreelOf (e1.dir d.val).reel) 2 d 0x0201
        (z.src.toNat + cl.toNat * 2 ^ 16 + workTag (e1.dir d.val).reel (e1.dir d.val).count)).postedDone d) := by
  rw [← tracked_taken e pre post z] at found
  subst he
  unfold Eng.clapperAck
  rw [takeMsg_of_first inbox ?others ?own]
  case others =>
    intro y hy
    split
    · next eq => exact (first y hy _ eq).elim
    · rfl
  case own => rw [body]
  dsimp only
  rw [body]
  dsimp only
  split
  · next none => exact absurd (found.symm.trans none) nofun
  · next u some =>
    obtain rfl := Option.some.inj (found.symm.trans some)
    refine ⟨fun reel count use => ?_, fun d cl use => ?_⟩
    · rw [use]
      rfl
    · rw [use]
      rfl

end

end

end Sys2Proof.Machine
end

section
/-! SUPPORT. What the work that asked does with an answer: a GLEAN's request (R142), a SWEEP's run (R184), a TOPK's write (R195), a
replica's write (R216), a command and a director (R346). -/

namespace Sys2Proof.Machine

open Sys2Proof

/-! ### Lists of jobs by key -/

theorem find?_map_replace {α κ : Type} [DecidableEq κ] {key : α → κ} {k : κ} {x x' : α} {l : List α}
    (found : l.find? (key · == k) = some x) (same : key x' = key x) :
    (l.map fun y => if key y == key x' then x' else y).find? (key · == k) = some x' := by
  have here : key x = k := by simpa using List.find?_some found
  rw [same, here]
  induction l with
  | nil => cases found
  | cons y l ih =>
    by_cases hy : key y = k
    · simp [hy, same, here]
    · rw [List.find?_cons_of_neg (by simpa using hy)] at found
      rw [List.map_cons, if_neg (by simpa using hy), List.find?_cons_of_neg (by simpa using hy)]
      exact ih found

theorem find?_map_change {α κ : Type} [DecidableEq κ] {key : α → κ} {k : κ} {f : α → α} (keeps : ∀ y, key (f y) = key y) (l : List α) :
    (l.map fun y => if key y == k then f y else y).find? (key · == k) = (l.find? (key · == k)).map f := by
  induction l with
  | nil => rfl
  | cons y l ih =>
    by_cases hy : key y = k
    · simp [hy, keeps]
    · rw [List.map_cons, if_neg (by simpa using hy), List.find?_cons_of_neg (by simpa using hy), ih,
        List.find?_cons_of_neg (by simpa using hy)]

section

variable {e : Eng} {k : Key}

theorem glean_setGlean {g g' : Glean} (found : e.glean k = some g) (key : g'.h.key = g.h.key) : (e.setGlean g').glean k = some g' :=
  find?_map_replace (key := fun y : Glean => y.h.key) found key

theorem topkOf_setTopk {j j' : TopkJob} (found : e.topkOf k = some j) (key : j'.h.key = j.h.key) : (e.setTopk j').topkOf k = some j' :=
  find?_map_replace (key := fun y : TopkJob => y.h.key) found key

theorem sweepOf_setSweep {j j' : SweepJob} (found : e.sweepOf k = some j) (key : j'.h.key = j.h.key) :
    (e.setSweep j').sweepOf k = some j' := find?_map_replace (key := fun y : SweepJob => y.h.key) found key

theorem optOf_setOpt {o o' : OptJob} (found : e.optOf k = some o) (key : o'.h.key = o.h.key) : (e.setOpt o').optOf k = some o' :=
  find?_map_replace (key := fun y : OptJob => y.h.key) found key

end

/-! ### A GLEAN's request -/

theorem part_setElem {g : Glean} {pos i : Nat} {x : Elem} {p : Part} (found : g.part pos i = some (x, p)) {f : Elem → Elem}
    (keeps : ∀ y, (f y).pos = y.pos ∧ (f y).parts = y.parts) : (g.setElem pos f).part pos i = some (f x, p) := by
  unfold Glean.part Glean.setElem at *
  dsimp only
  rw [find?_map_change (key := Elem.pos) fun y => (keeps y).1]
  obtain ⟨y, there, part⟩ := Option.bind_eq_some_iff.mp found
  obtain ⟨q, within, eq⟩ := Option.map_eq_some_iff.mp part
  cases eq
  rw [there]
  simp [(keeps x).2, within]

theorem pos_of_part {g : Glean} {pos i : Nat} {x : Elem} {p : Part} (found : g.part pos i = some (x, p)) : x.pos = pos := by
  unfold Glean.part at found
  obtain ⟨y, there, part⟩ := Option.bind_eq_some_iff.mp found
  obtain ⟨q, _, eq⟩ := Option.map_eq_some_iff.mp part
  cases eq
  simpa using List.find?_some there

section

variable {e : Eng} {k : Key} {pos i : Nat} {g : Glean} {x : Elem} {p : Part} (found : e.glean k = some g)
  (part : g.part pos i = some (x, p)) (issued : p.st = .issued)

include found part issued

/-- A request answered whole: its sectors join it, and a GLEAN that writes nothing out yet does nothing more. -/
theorem readDone_of_issued (quiet : g.out = false) (sec : Nat) (bs : List Byte) (bad : Bool) (wrs : List ReadRes) :
    e.readDone k pos i sec bs bad wrs = e.setGlean (g.setPart pos i fun q =>
      ({ q with chunks := q.chunks ++ [(sec, bs)], bad := q.bad || bad } : Part).assemble) := by
  unfold Eng.readDone
  rw [found]
  dsimp only
  rw [part]
  dsimp only
  rw [issued, if_neg (by decide)]
  unfold Eng.plainOut
  rw [if_neg (by show ¬ g.out = true; rw [quiet]; decide)]

theorem readBad_of_denied (sa : Nat) :
    e.readBad k pos i sa true = e.setGlean (g.setElem pos fun y => { y with outc := y.outc ||| 0x08 }) := by
  unfold Eng.readBad
  rw [found]
  dsimp only
  rw [part]
  dsimp only
  rw [issued, if_neg (by decide), if_pos rfl]

/-- An uncorrectable sector marks its element and is told once for it (R136, R143). -/
theorem readBad_of_uncorr (sa : Nat) : ∃ e1 h, e.Told e1 ∧ e.readBad k pos i sa false = e1.setGlean h ∧ h.h.key = g.h.key ∧ pos ∈ h.told ∧
    ∀ y ∈ h.elems, y.pos = pos → y.outc.getLsbD 5 = true := by
  have here := pos_of_part part
  have marked (y : Elem) (hy : y ∈ (g.setElem x.pos fun y => { y with outc := y.outc ||| 0x20 }).elems) (at_ : y.pos = pos) :
      y.outc.getLsbD 5 = true := by
    obtain ⟨w, _, rfl⟩ := List.mem_map.mp hy
    by_cases hw : (w.pos == x.pos) = true
    · rw [if_pos hw]
      simp
    · rw [if_neg hw] at at_
      exact absurd (by simp [here, at_]) hw
  have bad : e.readBad k pos i sa false = (e.elemUncorr g x sa).1.setGlean (e.elemUncorr g x sa).2 := by
    unfold Eng.readBad
    rw [found]
    dsimp only
    rw [part]
    dsimp only
    rw [issued, if_neg (by decide), if_neg (by decide)]
  refine ⟨(e.elemUncorr g x sa).1, (e.elemUncorr g x sa).2, ?_, bad, ?_⟩
  all_goals
    unfold Eng.elemUncorr
    dsimp only
    split
  · exact .refl e
  · exact told_post ..
  · next told =>
    refine ⟨rfl, ?_, marked⟩
    rw [← here]
    exact List.contains_iff_mem.mp told
  · refine ⟨rfl, ?_, marked⟩
    rw [← here]
    exact List.mem_cons_self

end

/-- A request's one sector has come: the request has its bytes. -/
theorem assemble_of_one {p : Part} {sec : Nat} {data : List Byte} (good : p.bad = false) (len : data.length = 64)
    (one : p.sectors = [64 * sec]) : ({ p with chunks := [(sec, data)] } : Part).assemble =
      { p with chunks := [(sec, data)], st := .got ((data.drop (p.addr % 64)).take p.bytes) } := by
  have sector : 64 * sec / 64 = sec := by omega
  have whole : data.take 64 = data := List.take_of_length_le (by omega)
  have found : [(sec, data)].find? (fun c => decide (c.1 ≤ 64 * sec / 64) && decide (64 * sec / 64 < c.1 + c.2.length / 64)) =
      some (sec, data) := List.find?_cons_of_pos (by simp [sector, len])
  unfold Part.assemble
  rw [show ({ p with chunks := [(sec, data)] } : Part).sectors = [64 * sec] from one]
  dsimp only
  rw [List.map_cons, List.map_nil, found, good]
  simp [sector, whole]

/-! ### A SWEEP's run -/

theorem get_foldl_set {α : Type} [DecidableEq α] (d : α) {key : Nat → Nat} (distinct : ∀ i j, key i = key j → i = j) (val : Nat → α)
    (m : SMap α) {n i : Nat}
    (hi : i < n) : ((List.range n).foldl (fun a i => a.set d (key i) (val i)) m).get d (key i) = val i := by
  refine foldl_establishes (P := fun (a : SMap α) i => a.get d (key i) = val i) (fun a i => SMap.get_set_self ..) (fun a i j kept => ?_)
    _ i m fun out => absurd (List.mem_range.mpr hi) out
  by_cases h : key j = key i
  · rw [distinct j i h]
    exact SMap.get_set_self ..
  · exact (SMap.get_set_ne _ _ _ h).trans kept

theorem streamSweep_of_denied {e : Eng} {k : Key} {j : SweepJob} (found : e.sweepOf k = some j) (src s fst cnt : Nat)
    (data : Option (List Byte)) : e.streamSweep k src s fst cnt true data = e.setSweep { j with fault := true } := by
  unfold Eng.streamSweep
  rw [found]
  rfl

theorem streamSweep_of_sectors {e : Eng} {k : Key} {j : SweepJob} (found : e.sweepOf k = some j) (src s fst cnt : Nat)
    (data : Option (List Byte)) : ∃ m, e.streamSweep k src s fst cnt false data = e.setSweep { j with arrived := m } ∧
      ∀ i < cnt, m.get none (peerSector src (s + fst + i)) = some (data.map fun bs => (bs.drop (64 * i)).take 64) := by
  refine ⟨_, ?_, fun i hi => get_foldl_set none (key := fun i => peerSector src (s + fst + i)) (fun i j eq => ?_) _ j.arrived hi⟩
  · unfold Eng.streamSweep
    rw [found]
    rfl
  · unfold peerSector at eq
    omega

/-! ### A replica's write and a TOPK's -/

/-- The lane waits for one acknowledgement fewer. -/
def Eng.acked (e : Eng) (lane : Fin 16) (c : Claim) : Eng :=
  e.onTed fun z => { z with lanes := z.lanes.set none lane (some { c with peers := c.peers - 1 }) }

theorem lane_acked (e : Eng) (lane : Fin 16) (c : Claim) :
    (e.acked lane c).ted.lanes.get none lane.val = some { c with peers := c.peers - 1 } :=
  SMap.get_set_self none e.ted.lanes lane.val (some { c with peers := c.peers - 1 })

section

variable {e : Eng} {lane : Fin 16} {c : Claim} (found : e.ted.lanes.get none lane.val = some c)

include found

theorem replicaAck_of_ok : e.replicaAck lane 0 = e.acked lane c := by
  unfold Eng.replicaAck
  rw [found]
  rfl

theorem replicaAck_of_refused {st : Nat} (refused : st ≠ 0) {o : OptJob} (opt : e.optOf c.k = some o) :
    e.replicaAck lane st = (e.acked lane c).setOpt { o with fault := true } := by
  unfold Eng.replicaAck
  rw [found]
  dsimp only
  rw [if_neg refused]
  change (match e.optOf c.k with | some o => _ | none => _) = _
  rw [opt]
  rfl

/-- Whatever the outcome, only the lane and its OPT change. -/
theorem replicaAck_lane (st : Nat) : (e.replicaAck lane st).ted.lanes.get none lane.val = some { c with peers := c.peers - 1 } ∧
    (e.replicaAck lane st).zw = e.zw := by
  unfold Eng.replicaAck
  rw [found]
  dsimp only
  split <;> exact ⟨lane_acked e lane c, rfl⟩

end

section

variable {e : Eng} {k : Key} {j : TopkJob} (found : e.topkOf k = some j)

include found

theorem topkRefused_eq : e.topkRefused k = e.setTopk { j with fault := true } := by
  unfold Eng.topkRefused
  rw [found]

/-- A TOPK that faulted, or whose last write was acknowledged, sends nothing more (R195). -/
theorem topkNext_of_end (ended : j.fault = true ∨ j.outs = some []) : e.topkNext k = e := by
  unfold Eng.topkNext
  rw [found]
  dsimp only
  rcases ended with fault | last
  · rw [fault]
  · rw [last]
    split
    · next eq => cases eq
    · rfl

theorem topkNext_of_more (good : j.fault = false) {x : Nat × List Byte} {rest : List (Nat × List Byte)} (outs : j.outs = some (x :: rest))
    (there : e.hth.isFailed j.dpos.toNat = false) : e.topkNext k =
      (e.setTopk { j with outs := some rest }).send j.dpos.toNat (.write (BitVec.ofNat 64 x.1) x.2) (.topk k) := by
  unfold Eng.topkNext
  rw [found]
  dsimp only
  rw [good, outs]
  dsimp only
  rw [there, if_neg Bool.false_ne_true]

end

/-- A write that had room in the store has it still where requests have been answered since. -/
theorem send_goes_of_answers {e e1 e2 : Eng} {ts : List Track} (h : e.Answers ts e1) (fewer : ts.Sublist e.zw.tracked) (zw : e2.zw = e1.zw)
    (rs : e2.busy 7 = e1.busy 7) {dst : BitVec 8} {a : W64} {bs : List Byte} (now : e.sendsNow dst [.write a bs]) :
    e2.sendWaits dst.toNat (.write a bs) = false := by
  obtain ⟨idle, _, stored, _⟩ := now
  have idle2 : e2.busy 7 = false := by
    obtain ⟨w, only⟩ := h.only
    rw [rs, only]
    exact idle
  have less : e2.zw.stored ≤ e.zw.stored := by
    unfold Zw.stored
    rw [zw, h.tracked]
    exact (fewer.map _).sum_le_sum fun _ _ => Nat.zero_le _
  have room : e2.zw.stored + 16 * zCells (.write a bs) ≤ 8388608 := le_trans (Nat.add_le_add_right less _) stored
  unfold Eng.sendWaits
  rw [idle2, zw, h.blocked]
  rw [zw] at room
  simp [rspCells, room]

/-- A message sent without a wait, where nothing else was sent since `s` (R292). -/
theorem sends_of_goes {s t : State} {e : Eng} {dst : BitVec 8} {b : ZBody} (goes : e.sendWaits dst.toNat b = false)
    (outgoing : e.outgoing = s.eng.outgoing) (txSeq : e.zw.txSeq = s.eng.zw.txSeq) (u : Purpose) (ht : t.eng = e.send dst.toNat b u) :
    s.Sends t dst [b] := by
  have sent := outgoing_send goes u
  rw [outgoing, txSeq, BitVec.ofNat_toNat, BitVec.setWidth_eq] at sent
  unfold State.Sends
  rw [ht]
  simpa using sent

/-! ### A command and a director -/

theorem endDetail_of_clp {e e' : Eng} (h : e'.clp = e.clp) (c : Cmd) : e'.endDetail c = e.endDetail c := by
  unfold Eng.endDetail Eng.clap
  rw [h]

theorem noted_frame (e : Eng) (de : Bool) (m cls inst code payload : Nat) : (e.noted de m cls inst code payload).zw = e.zw ∧
    (∀ d, (e.noted de m cls inst code payload).dir d = e.dir d) ∧
    (e.noted de m cls inst code payload).clp = { e.clp with peerDenied := e.clp.peerDenied || de } := by
  cases de with
  | false => exact ⟨rfl, fun _ => rfl, by rw [Bool.or_false]; rfl⟩
  | true =>
    have told := told_post ({ e with clp := { e.clp with peerDenied := true } } : Eng) m cls inst code payload
    exact ⟨told.zw, told.dir, by rw [Bool.or_true]; exact told.clp⟩

theorem settle_of_running {e : Eng} {d : Fin 8} (runs : (e.dir d.val).st = .running) : e.settle d = e := by
  unfold Eng.settle
  dsimp only
  rw [runs]

theorem postedDone_of_running {e : Eng} {d : Fin 8} (runs : (e.dir d.val).st = .running) :
    e.postedDone d = e.onDir d fun x => { x with peerOps := x.peerOps - 1 } := by
  refine settle_of_running ?_
  rw [Eng.dir_onDir, if_pos rfl]
  exact runs

/-- The detail that a command in flight ends with (R84). -/
theorem Eng.InFlight.cmdDetail {e : Eng} {n : Fin 64} {pre post : List Cmd} {c : Cmd} (h : e.InFlight n.val pre c post) :
    e.cmdDetail n c.count = e.endDetail c := by
  unfold Eng.cmdDetail
  rw [h.find_count]
  rfl

end Sys2Proof.Machine
end

section
/-! The statements about reels, commands and answers. -/

namespace Sys2Proof.Machine

open Sys2Proof

/-- Settles O14, by one lemma for each case of a register's write; the records are read back from the bytes written. -/
theorem reelRegistersObeyTheirReel : Obligations.ReelRegistersObeyTheirReel := by
  unfold Obligations.ReelRegistersObeyTheirReel
  intro s m n
  refine ⟨fun v h => ⟨fun beyond => ?_, fun ahead fits => ?_, fun same fits => ?_, fun behind fits => ?_⟩, fun v h off => ?_,
    fun v h => ?_, fun v h => ?_, fun k v h was on bad => ?_, fun k v h was held lost on good small => ?_,
    fun k v h arm held lost => ?_, fun k v r hr h arm held lost good => ?_, fun k v r hr h off => ?_,
    fun k v r a hr h on host quiet space ha granted => ?_⟩
  · exact ⟨_, exec_reelDoorbell h, doorbell_of_overrun beyond, rfl⟩
  · exact ⟨_, rfl, by rw [exec_reelDoorbell h, doorbell_of_advance ahead fits]⟩
  · exact ⟨_, rfl, by rw [exec_reelDoorbell h, doorbell_of_wr same fits]⟩
  · rw [exec_reelDoorbell h, doorbell_of_behind behind fits]
  · refine ⟨_, _, exec_reelCfgWrite h, rfl, ?_⟩
    rw [reelCfg_of_disable off, Eng.reel_setReel_self]
    refine ⟨(Reel.written_enabled _ v).trans off, rfl, rfl, ?_, fun on => ⟨?_, ?_⟩, rfl, rfl⟩
    · exact Reel.fld_written_of_clear _ v (by decide) (by decide)
    · exact congrArg (fun x => 2 ^ (x + 4)) (Reel.fld_written_of_enabled (lo := 2) (w := 4) on v (by decide))
    · exact congrArg (· == 1) (Reel.fld_written_of_enabled (lo := 1) (w := 1) on v (by decide))
  · exact ⟨_, rfl, by rw [exec_reelRdWrite h, reelRd_eq]⟩
  · obtain ⟨t, ex, ao, fe, dirs⟩ := exec_reelBaseWrite h
    have reel : t.eng.reel n.val = s.eng.reel n.val := by
      unfold Eng.reel
      rw [fe]
    refine ⟨_, ex, ?_, ao, ?_⟩
    · rw [reelBase_eq, reel]
      exact Eng.reel_setReel_self ..
    · rw [reelBase_eq]
      exact dirs
  · obtain ⟨disabled, refused⟩ := mreelCfg_of_refused was on bad
    exact ⟨_, exec_mreelCfgWrite h, disabled, refused, rfl⟩
  · exact ⟨_, rfl, by rw [exec_mreelCfgWrite h, mreelCfg_of_enable was held lost on good small]⟩
  · refine ⟨_, rfl, ?_⟩
    rw [exec_mreelRdWrite h]
    split
    · next bad => rw [mreelRd_of_bad bad]
    · next good => rw [mreelRd_of_unarmed (not_lt.mp good) arm held lost]
  · subst hr
    refine ⟨_, exec_mreelRdWrite h, ?_⟩
    by_cases sends : v.setWidth 24 ≠ (s.eng.mreel k.val).wr ∧ (s.eng.mreel k.val).cfg.getLsbD 6 = true
    · obtain ⟨behind, on⟩ := sends
      rw [mreelRd_of_behind good arm held lost behind on]
      refine ⟨fun quiet => ?_, fun _ _ => ⟨?_, ?_⟩, fun j other => ?_, rfl, rfl, rfl⟩
      · rcases quiet with same | off
        · exact absurd same behind
        · exact absurd on (Bool.eq_false_iff.mp off)
      · rw [interrupted_mreel, if_pos rfl, Eng.mreel_setMreel_self]
        rfl
      · unfold Eng.interrupted
        rw [Eng.mreel_setMreel_self]
        rfl
      · rw [interrupted_mreel, if_neg other, Eng.mreel_setMreel, if_neg other]
    · have quiet : v.setWidth 24 = (s.eng.mreel k.val).wr ∨ (s.eng.mreel k.val).cfg.getLsbD 6 = false := by
        rw [not_and_or, not_not, Bool.not_eq_true] at sends
        exact sends
      rw [mreelRd_of_quiet good held lost quiet]
      refine ⟨fun _ => ⟨?_, rfl⟩, fun behind on => absurd ⟨behind, on⟩ sends, fun j other => ?_, rfl, rfl, rfl⟩
      · rw [Eng.mreel_setMreel_self, MReel.consumed_of_arm _ arm]
      · rw [Eng.mreel_setMreel, if_neg other]
  · subst hr
    refine ⟨_, exec_mreelCfgWrite h, ?_⟩
    rw [mreelCfg_of_disable off, Eng.mreel_setMreel_self]
    exact ⟨(MReel.written_enabled _ v).trans off, rfl, rfl, rfl, rfl, rfl, rfl, rfl, rfl⟩
  · obtain ⟨e1, reel, hostMem, dev, ready, full, eq⟩ := mreelRd_writes hr on host quiet space ha granted
    have on1 : (e1.mreel k.val).enabled = true := by
      rw [reel]
      exact on
    have slot : a = (e1.mreel k.val).base.toNat + 32 * ((e1.mreel k.val).wr.toNat % (e1.mreel k.val).size) := by
      rw [reel]
      exact ha
    rw [← hostMem, ← dev]
    refine ⟨fun lost held => ?_, fun rec lost held len => ?_⟩
    · have wrote := flush_of_lost ready on1 full (by rw [reel]; exact lost) (by rw [reel]; exact held)
      have bytes := wrote.rdN rfl slot
      obtain ⟨code, count⟩ := lost_record_parts (BitVec.isLt _) bytes
      refine ⟨_, exec_mreelRdWrite h, ?_⟩
      rw [eq]
      refine ⟨?_, ?_, code, ?_, fun y out => wrote.rd_of_outside rfl slot out, wrote.dev⟩
      · rw [wrote.mreel, reel, MReel.consumed, bit_toNat, held]
      · rw [Memory.head_of_rdN bytes, reel]
        rfl
      · rw [count, reel]
        rfl
    · have wrote := flush_of_held ready on1 full (by rw [reel]; exact lost) (by rw [reel]; exact held)
      refine ⟨_, exec_mreelRdWrite h, ?_⟩
      rw [eq]
      refine ⟨?_, ?_, fun y out => wrote.rd_of_outside len slot out, wrote.dev⟩
      · rw [wrote.mreel, reel, MReel.consumed, bit_toNat, lost]
      · rw [wrote.rdN len slot, reel]
        rfl

/-- Settles O15: the arbiter's choice, and each way in which a slot's read ends. -/
theorem slotsAreFetchedUntilTheyShowTheirLap : Obligations.SlotsAreFetchedUntilTheyShowTheirLap := by
  intro s runs
  refine ⟨fun n idle granted => ?_, fun n c bs slots loc granted hbs => ⟨?_, fun x failed => ?_⟩,
    fun n c last i k slots early => ⟨_, rfl, fun j hj => ?_⟩, fun n c last bs slots loc granted hbs other => ?_⟩
  · obtain ⟨eligible, lowest⟩ := grantee_spec granted
    obtain ⟨own, others, dirs, dev, host⟩ := fetchGrant_of_grantee idle granted rfl
    exact ⟨_, next_live runs rfl, eligible, own, others, lowest, rfl, dirs, dev, host⟩
  · refine ⟨_, _, rfl, rfl, next_live runs (slotReturn_of_open slots loc granted rfl ?_ ?_)⟩
    · subst hbs
      rfl
    · intro b
      split
      · exact ⟨nofun, nofun⟩
      · exact ⟨nofun, nofun⟩
  · obtain ⟨e, he⟩ : ∃ e, e = s.eng.slotReturn n.val c (0 : Fin 17) x := ⟨_, rfl⟩
    have halted := slotReturn_of_failed slots loc granted rfl failed he
    refine ⟨_, next_live runs he.symm, ?_⟩
    dsimp only
    rw [halted]
    exact ⟨rfl, rfl, rfl, rfl, rfl⟩
  · refine next_live runs ?_
    have found : (s.eng.reel n.val).slots.find? (·.count == c) = some { count := c, st := .rereading i k last } := by simp [slots]
    simp only [found, hj, if_true]
    exact onReel_setSlot slots _
  · subst hbs
    obtain ⟨e, he⟩ : ∃ e, e = s.eng.slotReturn n.val c (16 : Fin 17) .ok := ⟨_, rfl⟩
    have torn := slotReturn_of_exhausted slots loc granted rfl (if_neg other) he
    refine ⟨_, next_live runs he.symm, ?_⟩
    dsimp only
    rw [torn]
    exact ⟨rfl, rfl, rfl, rfl⟩

/-- Settles O17: each command's unit acts on it, and finishing, running and publishing are the shared operations' lemmas. -/
theorem nopFenceAndWaitCommands : Obligations.NopFenceAndWaitCommands := by
  intro s n pre c post
  refine ⟨fun acts => acts.finishes rfl, fun acts complete => ?_, fun acts waits => ?_, fun acts held => ?_,
    fun acts free granted v hv => ?_, fun acts free denied => ?_, ?_, ?_⟩
  · obtain ⟨inflight, swd, owed, dirs⟩ := fence_of_complete acts.inFlight acts.unfinished complete rfl
    refine ⟨_, acts.next rfl, inflight, fun named => ?_, owed, rfl, dirs⟩
    dsimp only
    rw [swd named]
    exact ⟨writeBackAll_evb _, writeBackAll_cleanAt _⟩
  · exact acts.next (fence_of_waits waits)
  · exact acts.next (waitCmd_of_held held)
  · subst hv
    have read := waitCmd_of_granted (n := n) rfl free granted
    refine ⟨fun holds => acts.finishes (f := fun e c => e.waitCmd n c) (read.trans (if_pos holds)), fun waits => ⟨_, rfl, ?_⟩⟩
    exact acts.next (read.trans ((if_neg (by rw [waits]; decide)).trans (acts.inFlight.runCmd _)))
  · exact ⟨_, acts.next rfl, waitCmd_of_denied acts.inFlight rfl free acts.unfinished denied⟩
  · intro dl runs inflight alone older type running deadline due
    exact next_live runs (waitTimeout_of_reel ⟨inflight, alone⟩ type older running deadline due)
  · exact fun d dst cl eq v dl runs waiting wait due => next_live runs (waitTimeout_of_dir waiting wait due)

/-- Settles O18: a SIGNAL's operation is its bank's, or its peer's message, or its status. -/
theorem signalOperatesOneClapper : Obligations.SignalOperatesOneClapper := by
  intro s n pre c post cl v acts hcl hv
  refine ⟨fun self free granted => ?_, fun peer gone => acts.finishes (signal_of_gone peer gone), fun peer there => ?_⟩
  · obtain ⟨values, finished, dev, host⟩ := signal_of_granted acts.inFlight acts.type_eq self hcl free granted hv rfl
    exact ⟨_, _, acts.next rfl, values, finished, rfl, rfl, dev, host, rfl⟩
  · subst hcl hv
    have sent := zwOnly_send (s.eng.runCmd n c) (le c.body 3 1)
    refine ⟨_, _, acts.next (signal_of_peer peer there), rfl, fun now => ?_, fun waits => ?_, ?_, fun x => ?_, ?_⟩
    · obtain ⟨k, tracked, dst, body, -⟩ := tracked_send (e := s.eng.runCmd n c) now rfl (.signal n c.count)
      exact ⟨k, tracked, dst, body⟩
    · refine ⟨.signal n c.count, ?_⟩
      dsimp only
      rw [send_of_waits (e := s.eng.runCmd n c) waits]
      exact ⟨rfl, rfl⟩
    · exact (congrArg Reel.inflight ((sent _ _).reel n.val)).trans acts.inFlight.atWork.inflight
    · exact (sent _ _).clap x
    · exact (sent _ _).dirs

/-- Settles O20: a payload's bytes are those of its parts in the sectors; CONFIG's writes by induction on how many were served. -/
theorem copyBagConfigAndTakeNowCommands : Obligations.CopyBagConfigAndTakeNowCommands := by
  unfold Obligations.CopyBagConfigAndTakeNowCommands
  intro s n pre c post
  refine ⟨fun acts transfer r => exec_copy_of_transfer acts transfer r, fun bs a acts inl host hbs ha plain granted r => ?_,
    fun bs a acts inl device hbs ha plain hole granted off pending idle _ _ => ?_,
    fun bs a h r acts inl hh hbs ha _ denied => ?_, fun bs a acts hbs ha plain hole granted off pending idle _ _ => ?_,
    fun acts _ denied r => ?_, fun us vs k acts fits first served there => ⟨fun all => ?_, fun u more => ⟨fun denied => ?_, fun waits => ?_⟩⟩,
    fun same acts off => acts.finishes (takeNow_of_disabled off same), fun same acts on alone => ?_,
    fun cuts x h acts on last take free now => ?_⟩
  · subst hbs ha
    refine ⟨_, exec_copy_of_inline acts inl r host.symm, ?_⟩
    rw [inlineWrite_to_host (copy_plain acts plain) granted r, Cmd.detail_of_copy acts.type_eq]
    have there : ({ s.eng with host := s.eng.host.wrN (le c.body 8 8) ((c.body.drop 32).take (le c.body 16 5)) } : Eng).InFlight
      n.val pre c post := acts.inFlight.of_inflight rfl
    exact ⟨rfl, rfl, there.ends _ _ _, rfl, rfl⟩
  · subst hbs ha
    obtain ⟨inside, outside, host, inflight, owed⟩ :=
      inlineWrite_through acts.inFlight (copy_plain acts plain) hole granted off pending idle rfl
    rw [Cmd.detail_of_copy acts.type_eq] at inflight
    exact ⟨_, exec_copy_of_inline acts inl .ok device.symm, inside, outside, host, inflight, owed⟩
  · subst hbs ha
    have ended := inlineWrite_of_denied acts.inFlight acts.unfinished denied r
    rw [Cmd.detail_of_copy acts.type_eq] at ended
    exact ⟨_, exec_copy_of_inline acts inl r hh, ended⟩
  · subst hbs ha
    obtain ⟨inside, outside, host, inflight, owed⟩ :=
      inlineWrite_through acts.inFlight (bag_plain acts.type_eq plain) hole granted off pending idle rfl
    rw [Cmd.detail_of_bag acts.type_eq] at inflight
    exact ⟨_, acts.next rfl, inside, outside, host, inflight, owed⟩
  · have ended := inlineWrite_of_denied (host := false) acts.inFlight acts.unfinished denied r
    rw [Cmd.detail_of_bag acts.type_eq] at ended
    exact ⟨_, acts.next rfl, ended⟩
  · rw [exec_config acts, ← first, configRun_of_served fits served there, all, Nat.sub_self]
    rfl
  · obtain ⟨x, found, body, master⟩ := there k le_rfl
    rw [exec_config acts, ← first, configRun_of_served fits served there, ← Nat.succ_pred_eq_of_pos (Nat.sub_pos_of_lt more)]
    exact congrArg _ (configRun_of_denied found (by rw [body, master]; exact denied))
  · obtain ⟨x, found, body, master⟩ := there k le_rfl
    rw [exec_config acts, ← first, configRun_of_served fits served there, ← Nat.succ_pred_eq_of_pos (Nat.sub_pos_of_lt more)]
    exact congrArg _ (configRun_of_waits found (by rw [body, master]; exact waits))
  · exact ⟨_, _, acts.next (takeNow_of_alone on alone), rfl, rfl, rfl, rfl, rfl, acts.inFlight.atWork.inflight, rfl⟩
  · exact ⟨_, acts.next (takeNow_of_join on last take free now), rfl, acts.inFlight.atWork.inflight, rfl⟩

/-- Settles O52, message kind by message kind: the message is taken, its request answered, and the work that asked told. -/
theorem answersReachTheirRequests : Obligations.AnswersReachTheirRequests := by
  unfold Obligations.AnswersReachTheirRequests
  intro s pre post z tr mine runs inbox unblocked
  have took := answers_taken unblocked pre post z
  refine ⟨fun idx de un data body first hm => ?_, fun st body first hm => ?_, fun idx de un data body first hm => ?_,
    fun de body first hm => ?_⟩
  · replace hm : mine = awaitsRead z.src idx.toNat := hm
    subst hm
    refine ⟨fun none => next_live runs (readResponse_of_none inbox body first none []), fun sec tier n found req left => ?_,
      fun sec tier n k pos i found req use => ⟨fun good corr part => ?_, fun g x p glean quiet part issued =>
        ⟨fun good corr one empty nonempty => ?_, fun good unc more => ?_, fun denied => ?_⟩⟩⟩
    · obtain ⟨rest, -, -⟩ := readResponse_of_some inbox body first found req []
      have last : (de || (tr.answered idx.toNat []).got.length == n.toNat + 1) = true ↔ de = true ∨ tr.got.length = n.toNat := by
        simp [Track.answered]
      have answers := took.resolve last tr (tr.answered idx.toNat [])
      exact ⟨_, next_live runs (rest left), congrArg _ answers.gln, answers.dev, answers.tracked⟩
    · obtain ⟨-, -, rest⟩ := readResponse_of_some inbox body first found req []
      have answer := rest k pos i (tr.answered idx.toNat data) ((s.eng.taken pre post z).countGln 3 1) use good (by rw [corr]; rfl)
        (by rw [corr]; rfl)
      rw [if_neg (by simp [Track.answered]; omega)] at answer
      have gleans : (s.eng.taken pre post z).gln.gleans = s.eng.gln.gleans := congrArg Gln.gleans took.gln
      exact ⟨_, next_live runs answer, ((took.countGln 3 1).retrack tr _).tracked, gleans⟩
    · obtain ⟨-, -, rest⟩ := readResponse_of_some inbox body first found req []
      have answer := rest k pos i (tr.answered idx.toNat data) ((s.eng.taken pre post z).countGln 3 1) use good (by rw [corr]; rfl)
        (by rw [corr]; rfl)
      have whole : (tr.answered idx.toNat data).got = [(idx.toNat, data)] := by simp [Track.answered, empty]
      have clean : [(idx.toNat, data)].any (·.2.isEmpty) = false := by simp [nonempty]
      rw [whole, if_pos (by rw [one]; rfl), sectorBytes_of_one nonempty, clean] at answer
      have answers := (took.countGln 3 1).untrack_eq tr
      have there := (answers.glean k).trans glean
      replace answer := answer.trans (readDone_of_issued there part issued quiet ..)
      simp only [Bool.or_false] at answer
      exact ⟨_, next_live runs answer, answers.tracked, answers.dev, glean_setGlean there rfl, fun _ => assemble_of_one⟩
    · obtain ⟨-, -, rest⟩ := readResponse_of_some inbox body first found req []
      have glean1 := (took.glean k).trans glean
      obtain ⟨e1, h, told, bad, key, within, marked⟩ := readBad_of_uncorr glean1 part issued (64 * (sec.toNat + idx.toNat))
      have answer := rest k pos i (tr.answered idx.toNat []) (e1.setGlean h) use good (by rw [unc]; rfl) (by rw [unc]; exact bad.symm)
      rw [if_neg (by simp [Track.answered]; omega)] at answer
      have zw : e1.zw = (s.eng.taken pre post z).zw := told.zw
      have glean2 : e1.glean k = Option.some g := by
        unfold Eng.glean
        rw [told.gln]
        exact glean1
      refine ⟨_, h, next_live runs answer, ?_, glean_setGlean glean2 key, within, marked⟩
      refine Eq.trans ?_ (took.retrack tr (tr.answered idx.toNat [])).tracked
      exact congrArg (fun w : Zw => w.tracked.map fun y => if y == tr then tr.answered idx.toNat [] else y) zw
    · obtain ⟨-, rest, -⟩ := readResponse_of_some inbox body first found req []
      have answers := took.untrack_eq tr
      have glean1 := (answers.glean k).trans glean
      have answer := rest k pos i use denied
      rw [readBad_of_denied glean1 part issued] at answer
      have glean2 := glean_setGlean (g' := g.setElem pos fun y => { y with outc := y.outc ||| 0x08 }) glean1 rfl
      rw [readDone_of_issued glean2 (part_setElem part fun _ => ⟨rfl, rfl⟩) issued quiet] at answer
      simp only [Bool.or_true] at answer
      exact ⟨_, next_live runs answer, answers.tracked, glean_setGlean glean2 rfl⟩
  · replace hm : mine = awaitsWrite z.src := hm
    subst hm
    refine ⟨fun none => next_live runs (writeAckMsg_of_none inbox body first none), fun found => ?_⟩
    obtain ⟨replica, topks⟩ := writeAckMsg_of_some inbox body first found
    have answers := took.untrack (awaitsWrite z.src)
    refine ⟨fun lane c use claim => ?_, fun k j use topk => ⟨fun refused => ?_, fun ok ended => ?_,
      fun p rest b ok good outs there hb now => ?_⟩⟩
    · have claim1 := (congrArg (fun t : Ted => t.lanes.get none lane.val) answers.ted).trans claim
      obtain ⟨lane1, zw⟩ := replicaAck_lane claim1 st.toNat
      refine ⟨_, next_live runs (replica lane use), (congrArg Zw.tracked zw).trans answers.tracked, lane1, fun ok => ?_,
        fun o refused opt => ?_⟩
      · subst ok
        show (Eng.replicaAck _ lane 0).ted.opts = _
        rw [replicaAck_of_ok claim1]
        have opts := congrArg Ted.opts answers.ted
        exact opts
      · have opt1 := (answers.optOf c.k).trans opt
        rw [replicaAck_of_refused claim1 (fun zero => refused (BitVec.eq_of_toNat_eq zero)) opt1]
        exact ⟨_, optOf_setOpt (e := Eng.acked _ lane c) opt1 rfl, rfl⟩
    · have topk1 := (answers.topkOf k).trans topk
      have answer := topks k use
      rw [if_neg refused, topkRefused_eq topk1] at answer
      exact ⟨_, next_live runs answer, answers.tracked, topkOf_setTopk topk1 rfl⟩
    · have topk1 := (answers.topkOf k).trans topk
      have answer := topks k use
      rw [if_pos ok, topkNext_of_end topk1 ended] at answer
      exact ⟨_, next_live runs answer, answers.tracked, topk1⟩
    · subst hb
      have topk1 := (answers.topkOf k).trans topk
      have answer := topks k use
      rw [if_pos ok, topkNext_of_more topk1 good outs (by rw [answers.hth]; exact there)] at answer
      have goes := send_goes_of_answers answers List.eraseP_sublist
        (e2 := ((s.eng.taken pre post z).untrack (awaitsWrite z.src)).setTopk { j with outs := some rest }) rfl rfl now
      refine ⟨_, next_live runs answer, ?_, ?_⟩
      · obtain ⟨w, only⟩ := zwOnly_send (((s.eng.taken pre post z).untrack (awaitsWrite z.src)).setTopk { j with outs := some rest })
          j.dpos.toNat (.write (BitVec.ofNat 64 p.1) p.2) (.topk k)
        rw [only]
        exact topkOf_setTopk topk1 rfl
      · exact sends_of_goes goes answers.outgoing answers.txSeq (.topk k) rfl
  · replace hm : mine = awaitsStream z.src idx.toNat := hm
    subst hm
    refine ⟨fun none => next_live runs (streamDataMsg_of_none inbox body first none),
      fun sec tier n1 n cnt k j found req use sweep hn hcnt => ?_⟩
    subst hn hcnt
    have answer := streamDataMsg_of_some inbox body first found req use
    have last : ((tr.answered idx.toNat []).got.length == (if n1.toNat + 1 ≤ 32 then 1 else 2)) = true ↔
        tr.got.length + 1 = (if n1.toNat + 1 ≤ 32 then 1 else 2) := by simp [Track.answered]
    have answers := took.resolve last tr (tr.answered idx.toNat [])
    have sweep1 := (answers.sweepOf k).trans sweep
    cases de with
    | true =>
      rw [streamSweep_of_denied sweep1] at answer
      exact ⟨_, _, next_live runs answer, sweepOf_setSweep sweep1 rfl, answers.tracked, fun _ => rfl, nofun⟩
    | false =>
      obtain ⟨m, arrived, sectors⟩ := streamSweep_of_sectors sweep1 z.src.toNat sec.toNat idx.toNat
        (if idx.toNat = 0 then min (n1.toNat + 1) 32 else n1.toNat + 1 - idx.toNat) (if false || un then none else some data)
      rw [arrived] at answer
      refine ⟨_, _, next_live runs answer, sweepOf_setSweep sweep1 rfl, answers.tracked, nofun, fun _ => ⟨rfl, fun i hi => ?_⟩⟩
      rw [sectors i hi]
      cases un <;> rfl
  · replace hm : mine = awaitsClapper z.src := hm
    subst hm
    refine ⟨fun none => next_live runs (clapperAck_of_none inbox body first none), fun found => ?_⟩
    obtain ⟨e1, he⟩ : ∃ e1, e1 = (s.eng.taken pre post z).untrack (awaitsClapper z.src) := ⟨_, rfl⟩
    obtain ⟨signal, posted⟩ := clapperAck_of_some inbox body first found he
    have answers : s.eng.Answers (s.eng.zw.tracked.eraseP (awaitsClapper z.src)) e1 := he ▸ took.untrack _
    refine ⟨fun reel count xs c ys use flight hc unfinished alone => ?_, fun d cl use running => ?_⟩
    · subst hc
      have there : e1.InFlight reel.val xs c ys :=
        ⟨(congrArg Reel.inflight (answers.reel reel.val)).trans flight, alone⟩
      have answer := signal reel _ use
      rw [there.cmdDetail, there.finishCmd unfinished] at answer
      refine ⟨_, next_live runs answer, answers.tracked, ?_⟩
      rw [Eng.inflight_setInflight_self, endDetail_of_clp answers.clp]
    · have dir1 := answers.dir d.val
      obtain ⟨zw, dirs, clp⟩ := noted_frame e1 de (e1.mreelOf (e1.dir d.val).reel) 2 d 0x0201
        (z.src.toNat + cl.toNat * 2 ^ 16 + workTag (e1.dir d.val).reel (e1.dir d.val).count)
      have answer := (posted d cl use).trans (postedDone_of_running (by rw [dirs, dir1]; exact running))
      refine ⟨_, next_live runs answer, (congrArg Zw.tracked zw).trans answers.tracked, ?_, ?_⟩
      · rw [Eng.dir_onDir, if_pos rfl, dirs, dir1]
      · rw [← answers.clp]
        exact clp

end Sys2Proof.Machine
end

section
/-! SUPPORT. What the engine answers its peers (R143, R184, R288, R289, R292): sending leaves the inbox, and answers sent one after the
other are numbered on. -/

namespace Sys2Proof.Machine

open Sys2Proof

/-! ### What sending leaves of the link block -/

/-- Only the ports and the messages without a route differ. -/
def Eng.Routes (e e' : Eng) : Prop := ∃ ps ms, e' = { e with zw := { e.zw with ports := ps, stuck := ms } }

theorem Eng.Routes.refl (e : Eng) : e.Routes e := ⟨_, _, rfl⟩

theorem Eng.Routes.trans {a b c : Eng} : a.Routes b → b.Routes c → a.Routes c := by
  rintro ⟨_, _, rfl⟩ ⟨ps, ms, rfl⟩; exact ⟨ps, ms, rfl⟩

theorem routes_owe (e : Eng) (m : ZMsg) : e.Routes (e.owe m) := by
  obtain ⟨ps, owed⟩ := owe_ports e m
  exact ⟨ps, _, owed⟩

theorem routes_pump (e : Eng) (p : Nat) : e.Routes (e.pump p) := by
  unfold Eng.pump
  dsimp only
  generalize ZPort.pump _ _ = out
  have owed (ms : List ZMsg) (e : Eng) : e.Routes (ms.foldl Eng.owe e) := by
    induction ms generalizing e with
    | nil => exact .refl e
    | cons m ms ih => exact (routes_owe e m).trans (ih _)
  exact Eng.Routes.trans (b := e.setPort p out.1) ⟨_, _, rfl⟩ (owed _ _)

theorem routes_forward (e : Eng) (m : ZMsg) : e.Routes (e.forward m) := by
  unfold Eng.forward
  split
  · exact routes_owe _ _
  · split
    · exact ⟨_, _, rfl⟩
    · exact Eng.Routes.trans ⟨_, _, rfl⟩ (routes_pump _ _)

/-- Sending takes no message from the inbox. -/
theorem inbox_send (e : Eng) (d : Nat) (b : ZBody) (u : Purpose) : (e.send d b u).zw.inbox = e.zw.inbox := by
  unfold Eng.send
  split
  · rfl
  · unfold Eng.sendNow
    extract_lets k n m e1 e2
    have inbox : e2.zw.inbox = e.zw.inbox := by
      unfold e2
      split <;> rfl
    obtain ⟨_, _, routed⟩ := routes_forward e2 m
    rw [routed]
    exact inbox

/-- A message sent without a wait takes the next number of its class (R292). -/
theorem txSeq_send {e : Eng} {d : Nat} {b : ZBody} (now : e.sendWaits d b = false) (u : Purpose) :
    (e.send d b u).zw.txSeq = e.zw.txSeq.set 0 (3 * d + zCls b) (e.zw.txSeq.get 0 (3 * d + zCls b) + 1) := by
  unfold Eng.send
  rw [if_neg (by rw [now]; decide)]
  unfold Eng.sendNow
  extract_lets k n m e1 e2
  have numbered : e2.zw.txSeq = e.zw.txSeq.set 0 k (n + 1) := by
    unfold e2
    split <;> rfl
  obtain ⟨_, _, routed⟩ := routes_forward e2 m
  rw [routed]
  exact numbered

/-! ### Answers -/

/-- The messages that answer a peer's request. -/
def answersPeer : ZBody → Bool
  | .readRsp .. | .writeAck .. | .streamData .. | .clpAck .. => true
  | _ => false

/-- An answer needs no place in the tracked store and no room for answers to it: it waits only for a link block that goes idle. -/
theorem sendWaits_of_answer {b : ZBody} (answer : answersPeer b = true) (e : Eng) (d : Nat) : e.sendWaits d b = e.busy 7 := by
  have plain : zStored b = false ∧ rspCells b = 0 := by
    cases b with
    | readRsp | writeAck | streamData | clpAck => exact ⟨rfl, rfl⟩
    | _ => cases answer
  simp [Eng.sendWaits, plain]

/-- Between `e` and `e'` the bodies `bs`, of class `c`, were sent to position `dst` in order; the inbox, the directors and the restarts in
progress stand. -/
structure Eng.Replied (e : Eng) (dst : BitVec 8) (c : Nat) (bs : List ZBody) (e' : Eng) : Prop where
  outgoing : e'.outgoing.Perm (e.outgoing ++ bs.zipIdx.map fun x =>
    (dst, e.zw.txSeq.get 0 (3 * dst.toNat + zCls x.1) + BitVec.ofNat 32 x.2, x.1))
  number : e'.zw.txSeq.get 0 (3 * dst.toNat + c) = e.zw.txSeq.get 0 (3 * dst.toNat + c) + BitVec.ofNat 32 bs.length
  inbox : e'.zw.inbox = e.zw.inbox
  dirs : e'.dirs = e.dirs
  rs : e'.rs = e.rs

variable {e e1 e2 : Eng} {dst : BitVec 8} {c : Nat} {bs : List ZBody}

/-- Messages on their way stand where the link block does. -/
theorem outgoing_of_zw (zw : e1.zw = e.zw) : e1.outgoing = e.outgoing := by
  unfold Eng.outgoing Eng.port'
  rw [zw]

/-- Nothing was sent where the link block stands. -/
theorem replied_nil (zw : e1.zw = e.zw) (dirs : e1.dirs = e.dirs) (rs : e1.rs = e.rs) : e.Replied dst c [] e1 where
  outgoing := by
    simp [outgoing_of_zw zw]
  number := by simp [zw]
  inbox := by rw [zw]
  dirs := dirs
  rs := rs

/-- Work that leaves the link block sends nothing more. -/
theorem Eng.Replied.of_same (h : e.Replied dst c bs e1) (zw : e2.zw = e1.zw) (dirs : e2.dirs = e1.dirs) (rs : e2.rs = e1.rs) :
    e.Replied dst c bs e2 where
  outgoing := by
    rw [outgoing_of_zw zw]
    exact h.outgoing
  number := by rw [zw]; exact h.number
  inbox := by rw [zw]; exact h.inbox
  dirs := dirs.trans h.dirs
  rs := rs.trans h.rs

/-- One more answer is numbered on from those before it. -/
theorem Eng.Replied.send (h : e.Replied dst c bs e1) {b : ZBody} (answer : answersPeer b = true) (cls : zCls b = c)
    (idle : e.busy 7 = false) (u : Purpose) : e.Replied dst c (bs ++ [b]) (e1.send dst.toNat b u) := by
  have now : e1.sendWaits dst.toNat b = false := by
    rw [sendWaits_of_answer answer]
    unfold Eng.busy at idle ⊢
    rw [h.rs]
    exact idle
  obtain ⟨_, only⟩ := zwOnly_send e1 dst.toNat b u
  refine ⟨?_, ?_, (inbox_send _ _ _ _).trans h.inbox, ?_, ?_⟩
  · refine (outgoing_send now u).trans ?_
    rw [BitVec.ofNat_toNat, BitVec.setWidth_eq, cls, h.number, List.zipIdx_append, List.map_append, ← List.append_assoc]
    refine (h.outgoing.append_right _).trans (.of_eq ?_)
    simp [cls]
  · rw [txSeq_send now, cls, SMap.get_set_self, h.number, List.length_append, BitVec.add_assoc]
    congr 1
    exact (BitVec.ofNat_add _ _).symm
  · rw [only]
    exact h.dirs
  · rw [only]
    exact h.rs

theorem Eng.Replied.sends {s t : State} (h : s.eng.Replied dst c bs t.eng) : s.Sends t dst bs := h.outgoing

end Sys2Proof.Machine
end

section
/-! SUPPORT. What a read of device memory leaves (R228, R229, R236, R247): the bytes of every sector, and how the reads of other sectors
are answered (R251, R254). -/

namespace Sys2Proof.Machine

open Sys2Proof

/-! ### The memory ports -/

/-- Only credits and counters of the memory ports differ. -/
def Mp.Moved (p q : Mp) : Prop := ∃ c k, q = { p with credit := c, ctrs := k }

theorem Mp.Moved.refl (p : Mp) : p.Moved p := ⟨_, _, rfl⟩

theorem Mp.Moved.trans {p q r : Mp} : p.Moved q → q.Moved r → p.Moved r := by rintro ⟨_, _, rfl⟩ ⟨c, k, rfl⟩; exact ⟨c, k, rfl⟩

theorem moved_charge (p : Mp) (a n : Nat) : p.Moved (p.charge a n) := by
  unfold Mp.charge
  dsimp only
  split
  · split <;> exact ⟨_, _, rfl⟩
  · exact ⟨_, _, rfl⟩

theorem moved_count (p : Mp) (wide : Bool) (a n : Nat) : p.Moved (p.count wide a n) := ⟨_, _, rfl⟩

theorem moved_foldl {α : Type} {f : Mp → α → Mp} (hf : ∀ (p : Mp) a, p.Moved (f p a)) (xs : List α) (p : Mp) : p.Moved (xs.foldl f p) := by
  induction xs generalizing p with
  | nil => exact .refl p
  | cons x xs ih => exact (hf p x).trans (ih _)

theorem moved_move (p : Mp) (wide : Bool) (a n : Nat) : p.Moved (p.move wide a n) :=
  moved_foldl (fun _ _ => (moved_charge _ _ _).trans (moved_count _ _ _ _)) _ _

/-! ### Lookups (R228, R229) -/

/-- Between `e` and `e'` sectors were looked up: the bytes that the sward holds stand. -/
structure Eng.Looks (e e' : Eng) : Prop where
  only : ∃ w p, e.mp.Moved p ∧ e' = { e with swd := w, mp := p }
  sector : ∀ sa, e'.swd.sector sa = e.swd.sector sa
  evb : e'.swd.evb = e.swd.evb

theorem Eng.Looks.refl (e : Eng) : e.Looks e := ⟨⟨_, _, .refl _, rfl⟩, fun _ => rfl, rfl⟩

theorem Eng.Looks.trans {a b c : Eng} (h : a.Looks b) (g : b.Looks c) : a.Looks c := by
  refine ⟨?_, fun sa => (g.sector sa).trans (h.sector sa), g.evb.trans h.evb⟩
  obtain ⟨_, _, hp, rfl⟩ := h.only
  obtain ⟨w, p, gp, rfl⟩ := g.only
  exact ⟨w, p, hp.trans gp, rfl⟩

theorem sector_reference (w : Swd) (line sa : Nat) : (w.reference line).sector sa = w.sector sa := by
  unfold Swd.reference
  split
  · rfl
  · next l there =>
    dsimp only
    have same (v : Swd) (hv : v.lines = w.lines.set none line (some { l with ref := true, pf := false })) : v.sector sa = w.sector sa := by
      unfold Swd.sector
      rw [hv, SMap.get_set]
      by_cases here : sa / 128 = line
      · rw [if_pos here, here, there]
        rfl
      · rw [if_neg here]
    split <;> exact same _ rfl

theorem evb_reference (w : Swd) (line : Nat) : (w.reference line).evb = w.evb := by
  unfold Swd.reference
  split
  · rfl
  · dsimp only
    split <;> rfl

theorem looks_openMiss (e : Eng) (m : Fin 64) (line : Nat) (half demand : Bool) :
    e.Looks { e with swd := e.swd.openMiss m line half demand } := by
  refine ⟨⟨_, _, .refl _, rfl⟩, fun sa => ?_, ?_⟩ <;>
  · unfold Swd.openMiss
    dsimp only
    split <;> rfl

theorem looks_fetchSector (e : Eng) (sa : Nat) : e.Looks (e.fetchSector sa) := by
  unfold Eng.fetchSector
  split
  · exact .refl e
  · exact ⟨⟨_, _, moved_move _ _ _ _, rfl⟩, fun _ => rfl, rfl⟩

theorem looks_lookup (e : Eng) (m : Fin 64) (sa : Nat) : e.Looks (e.lookup m sa) := by
  unfold Eng.lookup
  extract_lets line half e1 e2
  split
  · exact ⟨⟨_, _, moved_move _ _ _ _, rfl⟩, fun _ => rfl, rfl⟩
  · split
    · exact ⟨⟨_, _, .refl _, rfl⟩, sector_reference _ _, evb_reference _ _⟩
    · have fetched : e.Looks e1 := by
        unfold e1
        split
        · exact .refl e
        · exact looks_fetchSector _ _
      have counted : e.Looks e2 := fetched.trans ⟨⟨_, _, .refl _, rfl⟩, fun _ => rfl, rfl⟩
      split
      · exact counted.trans (looks_openMiss _ _ _ _ _)
      · exact counted

theorem looks_readSward (e : Eng) (m : Fin 64) (a n : Nat) : e.Looks (e.readSward m a n).1 := by
  unfold Eng.readSward
  generalize sectorsOf a n = ss
  dsimp only
  induction ss generalizing e with
  | nil => exact .refl e
  | cons sa ss ih => exact (looks_lookup e m sa).trans (ih _)

/-! ### What a range of device memory reads -/

/-- The same bytes are read where the sward's sectors and memory are the same. -/
theorem rdDev_congr {e e' : Eng} (sector : ∀ sa, e'.swd.sector sa = e.swd.sector sa) (evb : e'.swd.evb = e.swd.evb)
    (dev : e'.dev = e.dev) (wide : Bool) (a n : Nat) : e'.rdDev wide a n = e.rdDev wide a n := by
  have one (sa : Nat) : e'.rdSector wide sa = e.rdSector wide sa := by
    unfold Eng.rdSector Swd.evbSector
    rw [sector, evb, dev]
  unfold Eng.rdDev
  rw [show e'.rdSector wide = e.rdSector wide from funext one]

/-- Reads are answered alike where the same sectors have timed out or were cut off. -/
theorem answer_congr {e e' : Eng} (dead : e'.mp.dead = e.mp.dead) (cut : e'.mp.cut = e.mp.cut) (a n : Nat) (r : ReadRes) :
    e'.answer a n r = e.answer a n r := by
  unfold Eng.answer
  rw [dead, cut]

theorem Mp.Moved.answer {e e' : Eng} (h : e.mp.Moved e'.mp) (a n : Nat) (r : ReadRes) : e'.answer a n r = e.answer a n r := by
  obtain ⟨_, _, moved⟩ := h
  exact answer_congr (by rw [moved]) (by rw [moved]) a n r

/-- A sector of a range meets the range. -/
theorem sectorsOf_bounds {a n sa : Nat} (h : sa ∈ sectorsOf a n) : a / 64 * 64 ≤ sa ∧ sa < a + n := by
  unfold sectorsOf at h
  split at h
  · cases h
  · next some =>
    obtain ⟨i, hi, rfl⟩ := List.mem_map.mp h
    have := List.mem_range.mp hi
    have : n ≠ 0 := by simpa using some
    omega

/-- That the sectors of one range have been answered leaves another's answer. -/
theorem answer_answered_of_disjoint {e : Eng} {a n b m : Nat} (apart : ∀ sa ∈ sectorsOf a n, sa ∉ sectorsOf b m) (r : ReadRes) :
    (e.answered b m).answer a n r = e.answer a n r := by
  have kept (xs : List Nat) : ((sectorsOf a n).any fun sa => (xs.filter fun s => !((sectorsOf b m).contains (s * 64))).contains (sa / 64)) =
      (sectorsOf a n).any fun sa => xs.contains (sa / 64) := by
    rw [Bool.eq_iff_iff, List.any_eq_true, List.any_eq_true]
    refine exists_congr fun sa => and_congr_right fun hsa => ?_
    have aligned : sa / 64 * 64 = sa := by have := mem_sectorsOf hsa; omega
    simp [aligned, apart sa hsa]
  unfold Eng.answer Eng.answered
  dsimp only
  rw [kept, kept]

/-- A wide read moves bytes and nothing else. -/
theorem moved_wideMove (e : Eng) (a n : Nat) : ∃ p, e.mp.Moved p ∧ e.wideMove a n = { e with mp := p } :=
  ⟨_, moved_foldl (fun _ _ => (moved_charge _ _ _).trans (moved_count _ _ _ _)) _ _, rfl⟩

end Sys2Proof.Machine
end

section
/-! SUPPORT. How the engine serves its peers' reads, writes and runs (R143, R184, R288, R346). -/

namespace Sys2Proof.Machine

open Sys2Proof

/-! ### Refused checks (R227, R352) -/

/-- A range that the ports do not reach, or that the tables refuse, is refused. -/
theorem check_of_refused {e : Eng} {t : Nat} (mem : t = 3 ∨ t = 4) {m : Fin 64} {r w : Bool} {a n : Nat}
    (h : e.mp.firstHole a n ≠ none ∨ e.acc.firstDenied t m r w a n ≠ none) : (e.check t m r w a n).2 = false := by
  unfold Eng.check
  rw [if_pos mem]
  split
  · rfl
  · next hole =>
    split
    · next granted => exact (h.elim (· hole) (· granted)).elim
    · rfl

/-! ### What serving leaves -/

/-- What serving a peer's read changes: the sward's bookkeeping, the memory ports, the gleaners' counters, the free values' counter and
the link block. -/
def Eng.Serves (e e' : Eng) : Prop :=
  ∃ w p k f z, e' = { e with swd := w, mp := p, gln := { e.gln with ctrs := k }, free := f, zw := z }

theorem Eng.Serves.refl (e : Eng) : e.Serves e := ⟨_, _, _, _, _, rfl⟩

theorem Eng.Serves.trans {a b c : Eng} : a.Serves b → b.Serves c → a.Serves c := by
  rintro ⟨_, _, _, _, _, rfl⟩ ⟨w, p, k, f, z, rfl⟩; exact ⟨w, p, k, f, z, rfl⟩

theorem Eng.ZwOnly.serves {e e' : Eng} : e.ZwOnly e' → e.Serves e' := by rintro ⟨_, rfl⟩; exact ⟨_, _, _, _, _, rfl⟩

theorem Eng.Looks.serves {e e' : Eng} (h : e.Looks e') : e.Serves e' := by
  obtain ⟨w, p, -, rfl⟩ := h.only
  exact ⟨_, _, _, _, _, rfl⟩

theorem serves_answered (e : Eng) (a n : Nat) : e.Serves (e.answered a n) := ⟨_, _, _, _, _, rfl⟩

section

variable {e e' : Eng}

theorem Eng.Serves.dev (h : e.Serves e') : e'.dev = e.dev := by obtain ⟨_, _, _, _, _, rfl⟩ := h; rfl
theorem Eng.Serves.dirs (h : e.Serves e') : e'.dirs = e.dirs := by obtain ⟨_, _, _, _, _, rfl⟩ := h; rfl
theorem Eng.Serves.rs (h : e.Serves e') : e'.rs = e.rs := by obtain ⟨_, _, _, _, _, rfl⟩ := h; rfl
theorem Eng.Serves.serve (h : e.Serves e') : e'.gln.serve = e.gln.serve := by obtain ⟨_, _, _, _, _, rfl⟩ := h; rfl
theorem Eng.Serves.serveDenied (h : e.Serves e') : e'.gln.serveDenied = e.gln.serveDenied := by
  obtain ⟨_, _, _, _, _, rfl⟩ := h; rfl

theorem Eng.ZwOnly.rdDev (h : e.ZwOnly e') (wide : Bool) (a n : Nat) : e'.rdDev wide a n = e.rdDev wide a n := by
  obtain ⟨_, rfl⟩ := h; rfl
theorem Eng.ZwOnly.answer (h : e.ZwOnly e') (a n : Nat) (r : ReadRes) : e'.answer a n r = e.answer a n r := by
  obtain ⟨_, rfl⟩ := h; rfl

end

/-! ### Reads (R143) -/

/-- A serve buffer takes nothing while no read waits. -/
theorem serveFill_of_no_reads {e : Eng} (none : ∀ y ∈ e.zw.inbox, ∀ u v w, y.body ≠ .readReq u v w) : e.serveFill = e := by
  unfold Eng.serveFill
  split
  · rfl
  · cases e.zw.inbox.length with
    | zero => rfl
    | succ n =>
      unfold Eng.serveFill'
      extract_lets isRead
      have absent : e.zw.inbox.find? isRead = Option.none := by
        refine List.find?_eq_none.mpr fun y hy => ?_
        unfold isRead
        split
        · next eq => exact absurd eq (none y hy _ _ _)
        · decide
      rw [absent]

/-- The answer for sector `i` of a read from `a` on, `bad` being the sectors that met an uncorrectable error. -/
def Eng.readAnswer (e : Eng) (a : Nat) (bad : List Nat) (i : Nat) : ZBody :=
  if e.answer (a + 64 * i) 64 (if i ∈ bad then .uncorr else .ok) = .ok then .readRsp (BitVec.ofNat 8 i) false false (e.rdDev false (a + 64 * i) 64)
  else .readRsp (BitVec.ofNat 8 i) false true []

/-- Sector `i` of a granted read is looked up and answered. -/
def Eng.serveSector (dst a : Nat) (bad : List Nat) (e : Eng) (i : Nat) : Eng :=
  let e1 := (e.readSward e.gln.peerMaster (a + 64 * i) 64).1
  if e.answer (a + 64 * i) 64 (if bad.contains i then .uncorr else .ok) = .ok then
    (e1.countGln 4 1).send dst (.readRsp (BitVec.ofNat 8 i) false false (e.rdDev false (a + 64 * i) 64))
  else (e1.answered (a + 64 * i) 64).send dst (.readRsp (BitVec.ofNat 8 i) false true [])

theorem serveRead_of_granted {e : Eng} {sector n : Nat} (hole : e.mp.firstHole (sector * 64) (64 * n) = none)
    (granted : e.acc.firstDenied 3 e.gln.peerMaster true false (sector * 64) (64 * n) = none) (m : ZMsg) (bad : List Nat) :
    e.serveRead m sector n bad = (List.range n).foldl (Eng.serveSector m.src.toNat (sector * 64) bad) e := by
  unfold Eng.serveRead
  dsimp only
  rw [check_of_granted (fun _ => hole) granted]
  rfl

/-- Between `e` and `e'` the first `i` sectors of a read were answered. -/
structure Eng.Served (e : Eng) (dst : BitVec 8) (a : Nat) (bad : List Nat) (i : Nat) (e' : Eng) : Prop where
  replied : e.Replied dst 1 ((List.range i).map (e.readAnswer a bad)) e'
  serves : e.Serves e'
  reads : ∀ b m, e'.rdDev false b m = e.rdDev false b m
  answers : ∀ j, i ≤ j → ∀ r, e'.answer (a + 64 * j) 64 r = e.answer (a + 64 * j) 64 r

variable {e e1 : Eng} {dst : BitVec 8} {a : Nat} {bad : List Nat}

/-- The engine that has looked a sector up, and then counted it or noted its error, sends the sector's answer. -/
theorem serveSector_eq {i : Nat} (h : e.Served dst a bad i e1) (aligned : a % 64 = 0) (d : Nat) : ∃ e2, e1.Serves e2 ∧ e2.zw = e1.zw ∧
    (∀ b m, e2.rdDev false b m = e1.rdDev false b m) ∧
    (∀ j, i < j → ∀ r, e2.answer (a + 64 * j) 64 r = e1.answer (a + 64 * j) 64 r) ∧
    e1.serveSector d a bad i = e2.send d (e.readAnswer a bad i) := by
  have looks := looks_readSward e1 e1.gln.peerMaster (a + 64 * i) 64
  obtain ⟨w, p, moved, only⟩ := looks.only
  have outcome : e1.answer (a + 64 * i) 64 (if bad.contains i then .uncorr else .ok) =
      e.answer (a + 64 * i) 64 (if i ∈ bad then .uncorr else .ok) := by
    rw [h.answers i le_rfl]
    simp
  unfold Eng.serveSector Eng.readAnswer
  rw [outcome, h.reads]
  generalize (e1.readSward e1.gln.peerMaster (a + 64 * i) 64).1 = e2 at looks only ⊢
  have reads (b m : Nat) : e2.rdDev false b m = e1.rdDev false b m := rdDev_congr looks.sector looks.evb looks.serves.dev _ _ _
  have answers (b m : Nat) (r : ReadRes) : e2.answer b m r = e1.answer b m r := Mp.Moved.answer (by rw [only]; exact moved) _ _ _
  have zw : e2.zw = e1.zw := by rw [only]
  generalize (if i ∈ bad then ReadRes.uncorr else .ok) = r
  dsimp only
  split
  · exact ⟨e2.countGln 4 1, looks.serves.trans ⟨_, _, _, _, _, rfl⟩, zw, reads, fun j _ => answers _ _, rfl⟩
  · refine ⟨e2.answered (a + 64 * i) 64, looks.serves.trans (serves_answered _ _ _), zw, reads, fun j hj r => ?_, rfl⟩
    refine (answer_answered_of_disjoint (fun sa here there => ?_) r).trans (answers _ _ r)
    have := sectorsOf_bounds here
    have := sectorsOf_bounds there
    have := mem_sectorsOf there
    omega

theorem Eng.Served.serveSector {i : Nat} (h : e.Served dst a bad i e1) (idle : e.busy 7 = false) (aligned : a % 64 = 0) :
    e.Served dst a bad (i + 1) (e1.serveSector dst.toNat a bad i) := by
  obtain ⟨e2, serves, zw, reads, answers, sent⟩ := serveSector_eq h aligned dst.toNat
  have only := zwOnly_send e2 dst.toNat (e.readAnswer a bad i) .cascade
  have sector : answersPeer (e.readAnswer a bad i) = true ∧ zCls (e.readAnswer a bad i) = 1 := by
    unfold Eng.readAnswer
    generalize (if i ∈ bad then ReadRes.uncorr else .ok) = r
    split <;> exact ⟨rfl, rfl⟩
  have all : (List.range (i + 1)).map (e.readAnswer a bad) = (List.range i).map (e.readAnswer a bad) ++ [e.readAnswer a bad i] := by
    rw [List.range_succ, List.map_append]
    rfl
  rw [sent]
  refine ⟨?_, (h.serves.trans serves).trans only.serves, fun b m => ?_, fun j hj r => ?_⟩
  · rw [all]
    exact (h.replied.of_same zw serves.dirs serves.rs).send sector.1 sector.2 idle _
  · rw [only.rdDev, reads, h.reads]
  · rw [only.answer, answers j hj, h.answers j (by omega)]

/-- Every sector of a granted read is answered, in order. -/
theorem served_foldl (idle : e.busy 7 = false) (aligned : a % 64 = 0) (n : Nat) :
    e.Served dst a bad n ((List.range n).foldl (Eng.serveSector dst.toNat a bad) e) := by
  induction n with
  | zero => exact ⟨replied_nil rfl rfl rfl, .refl e, fun _ _ => rfl, fun _ _ _ => rfl⟩
  | succ n ih =>
    rw [List.range_succ, List.foldl_append]
    exact ih.serveSector idle aligned

/-- A refused read is answered with one denial (R143). -/
theorem serveRead_of_refused {sector n : Nat} (refused : e.mp.firstHole (sector * 64) (64 * n) ≠ none ∨
      e.acc.firstDenied 3 e.gln.peerMaster true false (sector * 64) (64 * n) ≠ none) (idle : e.busy 7 = false) (m : ZMsg) (bad : List Nat) :
    (e.serveRead m sector n bad).gln = { e.gln with serveDenied := true } ∧
      e.Replied m.src 1 [.readRsp 0 true false []] (e.serveRead m sector n bad) := by
  have denied := check_of_refused (.inl rfl) refused
  have told := told_check e 3 e.gln.peerMaster true false (sector * 64) (64 * n)
  unfold Eng.serveRead
  dsimp only
  generalize e.check 3 e.gln.peerMaster true false (sector * 64) (64 * n) = q at denied told
  obtain ⟨e2, ok⟩ := q
  cases denied
  dsimp only at told ⊢
  have noted : e.Replied m.src 1 [] (e2.onGln fun g => { g with serveDenied := true }) := replied_nil told.zw told.dirs told.rs
  refine ⟨?_, noted.send (b := .readRsp 0 true false []) rfl rfl idle _⟩
  obtain ⟨_, only⟩ := zwOnly_send (e2.onGln fun g => { g with serveDenied := true }) m.src.toNat (.readRsp 0 true false []) .cascade
  rw [only]
  show ({ e2.gln with serveDenied := true } : Gln) = _
  rw [told.gln]

/-- The request that a serve buffer has held longest is served once the sward takes its reads. -/
theorem readRequest_of_held {gl : Fin 64} {z : ZMsg} {rest : List (Fin 64 × ZMsg)} (held : e.gln.serve = (gl, z) :: rest)
    {sec : BitVec 58} {tier : BitVec 2} {n : BitVec 8} (body : z.body = .readReq sec tier n)
    (none : ∀ y ∈ e.zw.inbox, ∀ u v w, y.body ≠ .readReq u v w) (released : e.inReset 1 = false) (bad : List Nat) :
    e.readRequest bad = if e.swdWaits (sec.toNat * 64) (64 * (n.toNat + 1)) then e
      else ((e.onGln fun g => { g with serve := rest }).serveRead z sec.toNat (n.toNat + 1) bad).serveFill := by
  unfold Eng.readRequest
  rw [serveFill_of_no_reads none]
  dsimp only
  rw [held]
  dsimp only
  rw [body]
  dsimp only
  rw [released, Bool.false_or]

/-- A read that is served leaves its buffer, and is answered sector by sector, or with one denial. -/
theorem readRequest_serves {gl : Fin 64} {z : ZMsg} {rest : List (Fin 64 × ZMsg)} (held : e.gln.serve = (gl, z) :: rest)
    {sec : BitVec 58} {tier : BitVec 2} {n1 : BitVec 8} (body : z.body = .readReq sec tier n1)
    (none : ∀ y ∈ e.zw.inbox, ∀ u v w, y.body ≠ .readReq u v w) (released : e.inReset 1 = false)
    (goes : e.swdWaits (sec.toNat * 64) (64 * (n1.toNat + 1)) = false) (idle : e.busy 7 = false) (bad : List Nat) :
    ∃ e', e.readRequest bad = e' ∧ e'.gln.serve = rest ∧ e'.zw.inbox = e.zw.inbox ∧ e'.dirs = e.dirs ∧
      (e.mp.firstHole (sec.toNat * 64) (64 * (n1.toNat + 1)) = Option.none →
        e.acc.firstDenied 3 e.gln.peerMaster true false (sec.toNat * 64) (64 * (n1.toNat + 1)) = Option.none →
        e'.dev = e.dev ∧ e'.gln.serveDenied = e.gln.serveDenied ∧
          e.Replied z.src 1 ((List.range (n1.toNat + 1)).map (e.readAnswer (sec.toNat * 64) bad)) e') ∧
      ((e.mp.firstHole (sec.toNat * 64) (64 * (n1.toNat + 1)) ≠ Option.none ∨
          e.acc.firstDenied 3 e.gln.peerMaster true false (sec.toNat * 64) (64 * (n1.toNat + 1)) ≠ Option.none) →
        e'.gln.serveDenied = true ∧ e.Replied z.src 1 [.readRsp 0 true false []] e') := by
  let e1 : Eng := e.onGln fun g => { g with serve := rest }
  let e2 := e1.serveRead z sec.toNat (n1.toNat + 1) bad
  have same {bs : List ZBody} (h : e1.Replied z.src 1 bs e2) : e.Replied z.src 1 bs e2 :=
    ⟨h.outgoing, h.number, h.inbox, h.dirs, h.rs⟩
  have served : e.readRequest bad = e2.serveFill := by
    rw [readRequest_of_held held body none released, goes, if_neg Bool.false_ne_true]
  have filled {bs : List ZBody} (h : e1.Replied z.src 1 bs e2) : e.readRequest bad = e2 :=
    served.trans (serveFill_of_no_reads (h.inbox ▸ none))
  by_cases granted : e.mp.firstHole (sec.toNat * 64) (64 * (n1.toNat + 1)) = Option.none ∧
      e.acc.firstDenied 3 e.gln.peerMaster true false (sec.toNat * 64) (64 * (n1.toNat + 1)) = Option.none
  · obtain ⟨hole, tables⟩ := granted
    have sectors : e2 = (List.range (n1.toNat + 1)).foldl (Eng.serveSector z.src.toNat (sec.toNat * 64) bad) e1 :=
      serveRead_of_granted (e := e1) hole tables z bad
    obtain ⟨replied, serves, -, -⟩ := served_foldl (e := e1) (dst := z.src) (bad := bad) idle (Nat.mul_mod_left sec.toNat 64) (n1.toNat + 1)
    rw [← sectors] at replied serves
    exact ⟨e2, filled replied, serves.serve, replied.inbox, replied.dirs, fun _ _ => ⟨serves.dev, serves.serveDenied, same replied⟩,
      fun refused => (refused.elim (· hole) (· tables)).elim⟩
  · have refused := Decidable.not_and_iff_not_or_not.mp granted
    obtain ⟨gln, replied⟩ := serveRead_of_refused (e := e1) refused idle z bad
    exact ⟨e2, filled replied, congrArg Gln.serve gln, replied.inbox, replied.dirs, fun hole tables => (granted ⟨hole, tables⟩).elim,
      fun _ => ⟨congrArg Gln.serveDenied gln, same replied⟩⟩

end Sys2Proof.Machine
end

section
/-! SUPPORT. A message taken from the inbox and answered: writes (R288) and runs (R184). -/

namespace Sys2Proof.Machine

open Sys2Proof

/-! ### The message taken -/

theorem zwOnly_taken (e : Eng) (pre post : List ZMsg) (z : ZMsg) : e.ZwOnly (e.taken pre post z) := by
  obtain ⟨ps, taken⟩ := owe_ports ({ e with zw := { e.zw with inbox := pre ++ post } } : Eng) z
  exact ⟨_, taken⟩

theorem inbox_taken (e : Eng) (pre post : List ZMsg) (z : ZMsg) : (e.taken pre post z).zw.inbox = pre ++ post := by
  obtain ⟨ps, taken⟩ := owe_ports ({ e with zw := { e.zw with inbox := pre ++ post } } : Eng) z
  exact congrArg (·.zw.inbox) taken

section

variable {e e' : Eng} (h : e.ZwOnly e')

include h

theorem Eng.ZwOnly.gln : e'.gln = e.gln := by obtain ⟨_, rfl⟩ := h; rfl
theorem Eng.ZwOnly.dev : e'.dev = e.dev := by obtain ⟨_, rfl⟩ := h; rfl
theorem Eng.ZwOnly.clp : e'.clp = e.clp := by obtain ⟨_, rfl⟩ := h; rfl
theorem Eng.ZwOnly.acc : e'.acc = e.acc := by obtain ⟨_, rfl⟩ := h; rfl
theorem Eng.ZwOnly.hth : e'.hth = e.hth := by obtain ⟨_, rfl⟩ := h; rfl
theorem Eng.ZwOnly.busy (b : Nat) : e'.busy b = e.busy b := by obtain ⟨_, rfl⟩ := h; rfl

end

theorem Eng.ZwOnly.wideOk {e e' : Eng} (h : e.ZwOnly e') {m : Fin 64} {r w : Bool} {a n : Nat} :
    e'.wideOk m r w a n ↔ e.wideOk m r w a n := by
  obtain ⟨_, rfl⟩ := h; rfl

theorem not_wideOk {e : Eng} {m : Fin 64} {r w : Bool} {a n : Nat} (h : ¬ e.wideOk m r w a n) :
    e.mp.firstHole a n ≠ none ∨ e.acc.firstDenied 4 m r w a n ≠ none := by
  by_contra granted
  obtain ⟨hole, tables⟩ := not_or.mp granted
  exact h ⟨not_not.mp hole, not_not.mp tables⟩

/-- The cells of a message that owes them are owed once it is taken (R289). -/
theorem owed_took (s : State) (pre post : List ZMsg) (z : ZMsg) {a : Arrival} (there : z.arr = some a) (owes : a.owes = true) :
    ((s.took pre post z).eng.port' a.port).owed.get 0 a.chan = (s.eng.port' a.port).owed.get 0 a.chan + zCells z.body := by
  unfold State.took Eng.owe
  rw [there]
  dsimp only
  rw [if_pos owes]
  unfold Eng.onPort
  rw [Eng.port_setPort_self]
  exact SMap.get_set_self _ _ _ _

/-- What is sent after a message was taken is sent since before it was. -/
theorem sends_of_replied {s t : State} {pre post : List ZMsg} {z : ZMsg} {dst : BitVec 8} {c : Nat} {bs : List ZBody}
    (h : (s.eng.taken pre post z).Replied dst c bs t.eng) : s.Sends t dst bs := by
  have out : (s.eng.taken pre post z).outgoing = s.eng.outgoing := outgoing_owe _ _
  obtain ⟨ps, taken⟩ := owe_ports ({ s.eng with zw := { s.eng.zw with inbox := pre ++ post } } : Eng) z
  have numbers : (s.eng.taken pre post z).zw.txSeq = s.eng.zw.txSeq := congrArg (·.zw.txSeq) taken
  unfold State.Sends
  rw [← out, ← numbers]
  exact h.outgoing

/-! ### Writes (R288) -/

/-- A write's outcome is noted, for a duplicate of it, and sent. -/
def Eng.writeDone (e : Eng) (m : ZMsg) (st : BitVec 2) : Eng :=
  (e.onZw fun z => { z with answers := z.answers.set 0 (zKey m * 2 ^ 32 + m.seq.toNat) st }).send m.src.toNat (.writeAck st)

/-- A write is checked, performed and acknowledged. -/
def Eng.serveWrite (e : Eng) (m : ZMsg) (a : Nat) (bs : List Byte) (r : ReadRes) : Eng :=
  match e.check 4 e.gln.peerMaster false true a bs.length with
  | (e, false) => e.writeDone m 1
  | (e, true) =>
    if e.answer a bs.length r ≠ .ok then (e.answered a bs.length).writeDone m 2 else (e.putBytes false a bs).writeDone m 0

variable {e : Eng} {pre post : List ZMsg} {z : ZMsg}

theorem writeMsg_of_taken (inbox : e.zw.inbox = pre ++ z :: post) {a : W64} {bs : List Byte} (body : z.body = .write a bs)
    (first : ∀ y ∈ pre, ∀ u v, y.body ≠ .write u v) (r : ReadRes) :
    e.writeMsg r = (e.taken pre post z).serveWrite z a.toNat bs r := by
  unfold Eng.writeMsg
  rw [takeMsg_of_first inbox ?others ?own]
  case others =>
    intro y hy
    split
    · next eq => exact (first y hy _ _ eq).elim
    · rfl
  case own => rw [body]
  dsimp only
  rw [body]
  rfl

section

variable {m : ZMsg} {a : Nat} {bs : List Byte} {r : ReadRes}

theorem serveWrite_of_ok (ok : e.wideOk e.gln.peerMaster false true a bs.length) :
    e.serveWrite m a bs r = if e.answer a bs.length r = .ok then (e.putBytes false a bs).writeDone m 0
      else (e.answered a bs.length).writeDone m 2 := by
  unfold Eng.serveWrite
  rw [check_of_granted (fun _ => ok.1) ok.2]
  exact ite_not _ _ _

theorem serveWrite_of_refused (refused : ¬ e.wideOk e.gln.peerMaster false true a bs.length) :
    ∃ e1, e.Told e1 ∧ e.serveWrite m a bs r = e1.writeDone m 1 := by
  have denied := check_of_refused (.inr rfl) (not_wideOk refused)
  have told := told_check e 4 e.gln.peerMaster false true a bs.length
  unfold Eng.serveWrite
  generalize e.check 4 e.gln.peerMaster false true a bs.length = q at denied told
  obtain ⟨e1, ok⟩ := q
  cases denied
  exact ⟨e1, told, rfl⟩

/-- The outcome sent after work that left the link block is one answer. -/
theorem replied_writeDone {e1 : Eng} (told : e.Told e1) (idle : e.busy 7 = false) (st : BitVec 2) :
    e.Replied m.src 1 [.writeAck st] (e1.writeDone m st) := by
  have noted : e.Replied m.src 1 []
      (e1.onZw fun z => { z with answers := z.answers.set 0 (zKey m * 2 ^ 32 + m.seq.toNat) st }) := by
    have base : e.Replied m.src 1 [] e1 := replied_nil told.zw told.dirs told.rs
    exact ⟨base.outgoing, base.number, base.inbox, base.dirs, base.rs⟩
  exact noted.send (b := .writeAck st) rfl rfl idle _

theorem zwOnly_writeDone (e : Eng) (m : ZMsg) (st : BitVec 2) : e.ZwOnly (e.writeDone m st) :=
  (zwOnly_onZw _ _).trans (zwOnly_send _ _ _ _)

end

/-! ### Runs (R184) -/

/-- How part `x` of a run from `a` on is answered, `bad` being the sectors that met an uncorrectable error. -/
def Eng.runAnswer (e : Eng) (a : Nat) (bad : List Nat) (x : Nat × Nat) : ReadRes :=
  e.answer (a + 64 * x.1) (64 * x.2) (if ∃ i ∈ bad, x.1 ≤ i ∧ i < x.1 + x.2 then .uncorr else .ok)

/-- What the answer to part `x` of a granted run holds: its bytes, or as many free ones where they could not be read. -/
def Eng.RunBytes (e : Eng) (a : Nat) (bad : List Nat) (x : Nat × Nat) (bs : List Byte) : Prop :=
  if e.runAnswer a bad x = .ok then bs = e.rdDev true (a + 64 * x.1) (64 * x.2) else bs.length = 64 * x.2

/-- A part of a run that is answered without its sectors, which are free. -/
def Eng.streamFail (dst : Nat) (denied uncorr : Bool) (e : Eng) (x : Nat × Nat) : Eng :=
  (e.freeBytes (64 * x.2)).1.send dst (.streamData (BitVec.ofNat 8 x.1) denied uncorr (e.freeBytes (64 * x.2)).2)

/-- A part of a granted run is read and answered. -/
def Eng.streamPart (dst a : Nat) (bad : List Nat) (e : Eng) (x : Nat × Nat) : Eng :=
  let e1 := e.answered (a + 64 * x.1) (64 * x.2)
  if e.answer (a + 64 * x.1) (64 * x.2) (if bad.any fun i => decide (x.1 ≤ i) && decide (i < x.1 + x.2) then .uncorr else .ok) ≠ .ok then
    Eng.streamFail dst false true e1 x
  else
    (e1.read false (a + 64 * x.1) (64 * x.2)).1.send dst
      (.streamData (BitVec.ofNat 8 x.1) false false (e1.read false (a + 64 * x.1) (64 * x.2)).2)

/-- The parts of a run of `n` sectors: one message for up to 32 of them, two for more. -/
def runParts (n : Nat) : List (Nat × Nat) := if n ≤ 32 then [(0, n)] else [(0, 32), (32, n - 32)]

/-- A run is checked, and its parts are read and answered. -/
def Eng.serveRun (e : Eng) (dst a n : Nat) (bad : List Nat) : Eng :=
  match e.check 4 e.gln.peerMaster true false a (64 * n) with
  | (e, false) => (runParts n).foldl (Eng.streamFail dst true false) (e.onGln fun g => { g with serveDenied := true })
  | (e, true) => (runParts n).foldl (Eng.streamPart dst a bad) e

theorem streamRequest_of_taken (inbox : e.zw.inbox = pre ++ z :: post) {sec : BitVec 58} {tier : BitVec 2} {n : BitVec 6}
    (body : z.body = .streamReq sec tier n) (first : ∀ y ∈ pre, ∀ u v w, y.body ≠ .streamReq u v w) (bad : List Nat) :
    e.streamRequest bad = (e.taken pre post z).serveRun z.src.toNat (sec.toNat * 64) (n.toNat + 1) bad := by
  unfold Eng.streamRequest
  rw [takeMsg_of_first inbox ?others ?own]
  case others =>
    intro y hy
    split
    · next eq => exact (first y hy _ _ _ eq).elim
    · rfl
  case own => rw [body]
  dsimp only
  rw [body]
  rfl

/-- Part `x` of a run was answered with `bs` after work that left the link block and the sward. -/
def Eng.Streams (e : Eng) (dst : BitVec 8) (x : Nat × Nat) (denied uncorr : Bool) (bs : List Byte) (e' : Eng) : Prop :=
  ∃ e1, e.Serves e1 ∧ e1.zw = e.zw ∧ e1.swd = e.swd ∧ e' = e1.send dst.toNat (.streamData (BitVec.ofNat 8 x.1) denied uncorr bs)

theorem streams_streamFail (e : Eng) (dst : BitVec 8) (denied uncorr : Bool) (x : Nat × Nat) :
    e.Streams dst x denied uncorr (e.freeBytes (64 * x.2)).2 (e.streamFail dst.toNat denied uncorr x) := by
  obtain ⟨k, free⟩ := freeBytes_frame (64 * x.2) e
  exact ⟨_, ⟨_, _, _, _, _, free⟩, by rw [free], by rw [free], rfl⟩

section

variable {e0 e1 : Eng} {dst : BitVec 8} {x : Nat × Nat} {denied uncorr : Bool} {bs : List Byte}

theorem Eng.Streams.serves (h : e.Streams dst x denied uncorr bs e1) : e.Serves e1 := by
  obtain ⟨e2, serves, -, -, rfl⟩ := h
  exact serves.trans (zwOnly_send _ _ _ _).serves

theorem Eng.Streams.swd (h : e.Streams dst x denied uncorr bs e1) : e1.swd = e.swd := by
  obtain ⟨e2, -, -, swd, rfl⟩ := h
  obtain ⟨_, only⟩ := zwOnly_send e2 dst.toNat (.streamData (BitVec.ofNat 8 x.1) denied uncorr bs) .cascade
  rw [only]
  exact swd

theorem Eng.Streams.replied (h : e.Streams dst x denied uncorr bs e1) {sent : List ZBody} (before : e0.Replied dst 1 sent e)
    (idle : e0.busy 7 = false) : e0.Replied dst 1 (sent ++ [.streamData (BitVec.ofNat 8 x.1) denied uncorr bs]) e1 := by
  obtain ⟨e2, serves, zw, -, rfl⟩ := h
  exact (before.of_same zw serves.dirs serves.rs).send rfl rfl idle _

end

/-- Parts that are answered one after the other: `J` holds of the engine and the parts to come, and `P` of the bytes of each answer. -/
theorem streamed_foldl {e0 : Eng} {dst : BitVec 8} {denied : Bool} {uncorr : Nat × Nat → Bool} {f : Eng → Nat × Nat → Eng}
    {J : Eng → List (Nat × Nat) → Prop} {P : Nat × Nat → List Byte → Prop} (idle : e0.busy 7 = false)
    (step : ∀ e x xs, J e (x :: xs) → ∃ bs, P x bs ∧ e.Streams dst x denied (uncorr x) bs (f e x) ∧ J (f e x) xs)
    {xs : List (Nat × Nat)} (apart : (xs.map Prod.fst).Nodup) {e : Eng} (start : J e xs) {sent : List ZBody}
    (before : e0.Replied dst 1 sent e) :
    ∃ d : Nat → List Byte, (∀ x ∈ xs, P x (d x.1)) ∧ e.Serves (xs.foldl f e) ∧
      e0.Replied dst 1 (sent ++ xs.map fun x => .streamData (BitVec.ofNat 8 x.1) denied (uncorr x) (d x.1)) (xs.foldl f e) := by
  induction xs generalizing e sent with
  | nil => exact ⟨fun _ => [], nofun, .refl e, by simpa using before⟩
  | cons x xs ih =>
    obtain ⟨out, apart⟩ := List.nodup_cons.mp apart
    obtain ⟨bs, here, streams, rest⟩ := step e x xs start
    obtain ⟨d, there, serves, replied⟩ := ih apart rest (streams.replied before idle)
    have other (y : Nat × Nat) (hy : y ∈ xs) : Function.update d x.1 bs y.1 = d y.1 :=
      Function.update_of_ne (fun eq : y.1 = x.1 => out (eq ▸ List.mem_map_of_mem hy)) _ _
    refine ⟨Function.update d x.1 bs, fun y hy => ?_, streams.serves.trans serves, ?_⟩
    · rcases List.mem_cons.mp hy with rfl | hy
      · rw [Function.update_self]
        exact here
      · rw [other y hy]
        exact there y hy
    · rw [List.map_cons, Function.update_self, List.map_congr_left fun y hy => by rw [other y hy]]
      simpa using replied

theorem nodup_runParts (n : Nat) : ((runParts n).map Prod.fst).Nodup := by
  unfold runParts
  split
  · exact List.nodup_singleton _
  · exact List.nodup_cons.mpr ⟨by simp, List.nodup_singleton _⟩

/-- A refused run's parts are all answered with a denial. -/
theorem serveRun_of_refused {dst : BitVec 8} {a n : Nat} (refused : ¬ e.wideOk e.gln.peerMaster true false a (64 * n))
    (idle : e.busy 7 = false) (bad : List Nat) :
    (e.serveRun dst.toNat a n bad).gln.serveDenied = true ∧ ∃ d : Nat → List Byte,
      (∀ x ∈ runParts n, (d x.1).length = 64 * x.2) ∧
      e.Replied dst 1 ((runParts n).map fun x => .streamData (BitVec.ofNat 8 x.1) true false (d x.1)) (e.serveRun dst.toNat a n bad) := by
  have denied := check_of_refused (.inr rfl) (not_wideOk refused)
  have told := told_check e 4 e.gln.peerMaster true false a (64 * n)
  unfold Eng.serveRun
  generalize e.check 4 e.gln.peerMaster true false a (64 * n) = q at denied told
  obtain ⟨e1, ok⟩ := q
  cases denied
  dsimp only at told ⊢
  have base : e.Replied dst 1 [] (e1.onGln fun g => { g with serveDenied := true }) := replied_nil told.zw told.dirs told.rs
  obtain ⟨d, lengths, serves, replied⟩ := streamed_foldl (J := fun _ _ => True) (P := fun x bs => bs.length = 64 * x.2)
    (uncorr := fun _ => false) (f := Eng.streamFail dst.toNat true false) idle
    (fun e x xs _ => ⟨_, freeBytes_length _ e, streams_streamFail e dst true false x, trivial⟩) (nodup_runParts n) trivial base
  exact ⟨serves.serveDenied, d, lengths, replied⟩

/-- The sectors of the parts to come are read and answered as they were in `e0`. -/
structure Eng.Unread (e0 : Eng) (a : Nat) (e : Eng) (xs : List (Nat × Nat)) : Prop where
  swd : e.swd = e0.swd
  dev : e.dev = e0.dev
  answers : ∀ x ∈ xs, ∀ r, e.answer (a + 64 * x.1) (64 * x.2) r = e0.answer (a + 64 * x.1) (64 * x.2) r
  apart : xs.Pairwise fun x y => ∀ sa ∈ sectorsOf (a + 64 * y.1) (64 * y.2), sa ∉ sectorsOf (a + 64 * x.1) (64 * x.2)

theorem unread_runParts (e : Eng) {a : Nat} (aligned : a % 64 = 0) (n : Nat) : e.Unread a e (runParts n) := by
  refine ⟨rfl, rfl, fun _ _ _ => rfl, ?_⟩
  unfold runParts
  split
  · exact List.pairwise_singleton _ _
  · refine List.pairwise_pair.mpr fun sa second first => ?_
    have := sectorsOf_bounds first
    have := sectorsOf_bounds second
    omega

theorem Eng.Unread.streamPart {e0 e : Eng} {a : Nat} {x : Nat × Nat} {xs : List (Nat × Nat)} (h : e0.Unread a e (x :: xs))
    (dst : BitVec 8) (bad : List Nat) :
    ∃ bs, e0.RunBytes a bad x bs ∧
      e.Streams dst x false (!decide (e0.runAnswer a bad x = .ok)) bs (e.streamPart dst.toNat a bad x) ∧
      e0.Unread a (e.streamPart dst.toNat a bad x) xs := by
  obtain ⟨others, apart⟩ := List.pairwise_cons.mp h.apart
  let e1 := e.answered (a + 64 * x.1) (64 * x.2)
  have outcome : e.answer (a + 64 * x.1) (64 * x.2) (if bad.any fun i => decide (x.1 ≤ i) && decide (i < x.1 + x.2) then .uncorr else .ok) =
      e0.runAnswer a bad x := by
    rw [h.answers x List.mem_cons_self]
    unfold Eng.runAnswer
    simp
  have later (y : Nat × Nat) (hy : y ∈ xs) (r : ReadRes) :
      e1.answer (a + 64 * y.1) (64 * y.2) r = e0.answer (a + 64 * y.1) (64 * y.2) r :=
    (answer_answered_of_disjoint (others y hy) r).trans (h.answers y (List.mem_cons_of_mem _ hy) r)
  -- what holds once the part's answer is sent, whichever it is
  have after {e2 : Eng} (b : ZBody) (serves : e1.Serves e2) (swd : e2.swd = e1.swd) (moved : e1.mp.Moved e2.mp) :
      e0.Unread a (e2.send dst.toNat b) xs := by
    obtain ⟨z, only⟩ := zwOnly_send e2 dst.toNat b .cascade
    refine ⟨?_, ?_, fun y hy r => ?_, apart⟩
    · rw [only]
      exact swd.trans h.swd
    · rw [only]
      exact serves.dev.trans h.dev
    · rw [(zwOnly_send e2 dst.toNat b .cascade).answer, moved.answer]
      exact later y hy r
  have answered : e.Serves e1 := serves_answered _ _ _
  unfold Eng.streamPart
  rw [outcome]
  by_cases ok : e0.runAnswer a bad x = .ok
  · rw [if_neg (not_not.mpr ok), decide_eq_true ok]
    obtain ⟨p, moved, wide⟩ := moved_wideMove e1 (a + 64 * x.1) (64 * x.2)
    have read : e1.Serves (e1.wideMove (a + 64 * x.1) (64 * x.2)) := ⟨_, _, _, _, _, wide⟩
    refine ⟨_, ?_, ⟨e1.wideMove (a + 64 * x.1) (64 * x.2), answered.trans read, by rw [wide]; rfl, by rw [wide]; rfl, rfl⟩,
      after (e2 := e1.wideMove (a + 64 * x.1) (64 * x.2)) _ read (by rw [wide]) (by rw [wide]; exact moved)⟩
    unfold Eng.RunBytes
    rw [if_pos ok]
    exact rdDev_congr (e := e0) (e' := e1) (fun sa => congrArg (·.sector sa) h.swd) (congrArg (·.evb) h.swd) h.dev _ _ _
  · rw [if_pos ok, decide_eq_false ok]
    obtain ⟨k, free⟩ := freeBytes_frame (64 * x.2) e1
    refine ⟨_, (if_neg ok).mpr (freeBytes_length _ e1), ⟨(e1.freeBytes (64 * x.2)).1, answered.trans ⟨_, _, _, _, _, free⟩, by rw [free]; rfl,
      by rw [free]; rfl, rfl⟩, after _ ⟨_, _, _, _, _, free⟩ (by rw [free]) (by rw [free]; exact .refl _)⟩

/-- A granted run's parts are answered in order, each with its sectors or with their error. -/
theorem serveRun_of_granted {dst : BitVec 8} {a n : Nat} (granted : e.wideOk e.gln.peerMaster true false a (64 * n))
    (aligned : a % 64 = 0) (idle : e.busy 7 = false) (bad : List Nat) :
    e.Serves (e.serveRun dst.toNat a n bad) ∧ ∃ d : Nat → List Byte,
      (∀ x ∈ runParts n, e.RunBytes a bad x (d x.1)) ∧
      e.Replied dst 1 ((runParts n).map fun x => .streamData (BitVec.ofNat 8 x.1) false (!decide (e.runAnswer a bad x = .ok)) (d x.1))
        (e.serveRun dst.toNat a n bad) := by
  unfold Eng.serveRun
  rw [check_of_granted (fun _ => granted.1) granted.2]
  have base : e.Replied dst 1 [] e := replied_nil rfl rfl rfl
  obtain ⟨d, bytes, serves, replied⟩ := streamed_foldl (J := e.Unread a) (P := e.RunBytes a bad)
    (uncorr := fun x => !decide (e.runAnswer a bad x = .ok)) (f := Eng.streamPart dst.toNat a bad) idle
    (fun _ _ _ h => h.streamPart dst bad) (nodup_runParts n) (unread_runParts e aligned n) base
  exact ⟨serves, d, bytes, replied⟩

end Sys2Proof.Machine
end

section
/-! SUPPORT. A peer's clapper operation (R342, R344 to R346): presented at its bank under the peers' master, and acknowledged when it is
served. -/

namespace Sys2Proof.Machine

open Sys2Proof

/-! ### What waking and barrier logic leave of the link block -/

/-- What each step keeps, a change made step by step keeps. -/
theorem foldl_keeps {α β : Type} {g : Eng → β} {f : Eng → α → Eng} (hf : ∀ e a, g (f e a) = g e) (xs : List α) (e : Eng) :
    g (xs.foldl f e) = g e := by
  induction xs generalizing e with
  | nil => rfl
  | cons x xs ih => exact (ih _).trans (hf e x)

/-- Waking waiters changes directors and reels. -/
theorem wake_keeps {β : Type} {g : Eng → β} (dir : ∀ e d x, g (Eng.setDir e d x) = g e) (reel : ∀ e n r, g (Eng.setReel e n r) = g e)
    (e : Eng) (cl : Fin 8192) (v : W64) : g (e.wake cl v) = g e := by
  unfold Eng.wake
  refine (foldl_keeps (g := g) (fun e r => foldl_keeps (g := g) (fun e c => ?_) _ _) _ _).trans (foldl_keeps (g := g) (fun e d => ?_) _ _)
  · split
    · exact reel _ _ _
    · rfl
  · dsimp only
    split
    · split
      · exact dir _ _ _
      · rfl
    · rfl

theorem wake_zw (e : Eng) (cl : Fin 8192) (v : W64) : (e.wake cl v).zw = e.zw :=
  wake_keeps (g := Eng.zw) (fun _ _ _ => rfl) (fun _ _ _ => rfl) e cl v

theorem wake_hth (e : Eng) (cl : Fin 8192) (v : W64) : (e.wake cl v).hth = e.hth :=
  wake_keeps (g := Eng.hth) (fun _ _ _ => rfl) (fun _ _ _ => rfl) e cl v

theorem inbox_release (e : Eng) (b : Barrier) : (e.release b).zw.inbox = e.zw.inbox :=
  foldl_keeps (g := fun e => e.zw.inbox) (fun _ _ => inbox_send _ _ _ _) _ _

theorem inbox_barriers (e : Eng) (cl : Fin 8192) (r : ClpReq) (old v : W64) : (e.barriers cl r old v).zw.inbox = e.zw.inbox := by
  refine foldl_keeps (g := fun e => e.zw.inbox) (fun e b => ?_) _ _
  dsimp only
  split
  · rfl
  · split
    · split
      · exact inbox_release _ _
      · rfl
    · split
      · exact inbox_release _ _
      · rfl

/-- Without an enabled barrier slot nothing is released (R308). -/
theorem barriers_of_disabled {e : Eng} (off : ∀ b < 16, (e.hth.bars.get {} b).cfg.getLsbD 31 = false) (cl : Fin 8192) (r : ClpReq)
    (old v : W64) : e.barriers cl r old v = e := by
  unfold Eng.barriers
  have each : ∀ b ∈ List.range 16, b < 16 := fun b hb => List.mem_range.mp hb
  generalize List.range 16 = bs at each
  induction bs with
  | nil => rfl
  | cons b bs ih =>
    obtain ⟨hb, each⟩ := List.forall_mem_cons.mp each
    rw [List.foldl_cons]
    dsimp only
    rw [bit_toNat, off b hb]
    exact ih each

/-! ### The operation -/

/-- The operation that a peer's message asks for. -/
def peerClapperReq (z : ZMsg) (m : Fin 64) (cl : BitVec 13) (op : BitVec 2) (v : W64) : ClpReq :=
  { req := 10, master := m, clapper := cl.toFin, kind := if op = 0 then .set else .add, val := v, dst := none,
    peer := some (z.src, z.seq), cmd := none }

section

variable {e : Eng} {z : ZMsg} {cl : BitVec 13} {op : BitVec 2} {v : W64}

theorem clapperOperation_of_taken {pre post : List ZMsg} (inbox : e.zw.inbox = pre ++ z :: post) (body : z.body = .clpOp cl op v)
    (first : ∀ y ∈ pre, ∀ u v w, y.body ≠ .clpOp u v w) :
    e.clapperOperation = if 2 ≤ op.toNat then (e.taken pre post z).countZw 2 1
      else (e.taken pre post z).clpPresent (peerClapperReq z (e.taken pre post z).gln.peerMaster cl op v) := by
  unfold Eng.clapperOperation
  rw [takeMsg_of_first inbox ?others ?own]
  case others =>
    intro y hy
    split
    · next eq => exact (first y hy _ _ _ eq).elim
    · rfl
  case own => rw [body]
  dsimp only
  rw [body]
  rfl

/-- The operation's result: the clapper is set, or added to. -/
theorem peerClapperReq_result (m : Fin 64) (old : W64) :
    (peerClapperReq z m cl op v).result old = if op = 0 then v else old + v := by
  unfold ClpReq.result peerClapperReq
  by_cases h : op = 0 <;> simp [h]

/-- Operations are queued behind those that wait at their bank. -/
theorem clpPresent_of_waiting {r : ClpReq} (waits : e.clp.queues.get [] (r.clapper.val % 16) ≠ []) :
    e.clpPresent r = e.clpQueue r := by
  unfold Eng.clpPresent
  rw [if_pos (by simp [waits])]

/-- A clapper with its new value, its bank having noted who was served last. -/
def Eng.clpStore (e : Eng) (r : ClpReq) (v : W64) : Eng :=
  { e with clp := { e.clp with last := e.clp.last.set 11 (r.clapper.val % 16) r.req.val, vals := e.clp.vals.set 0 r.clapper.val v } }

section

variable {r : ClpReq} (free : e.clp.queues.get [] (r.clapper.val % 16) = []) (port : r.granted = false)
  (kind : r.kind = .set ∨ r.kind = .add)

include free port kind

/-- A granted write on a free bank is served at once: the clapper takes its value, the requester is answered, and then waiters and
barriers learn of it. -/
theorem clpPresent_of_granted (whole : r.keepLow = false) (granted : e.acc.firstDenied 1 r.master false true r.clapper.val 1 = none)
    {w : W64} (hw : w = r.result (e.clap r.clapper.val)) :
    e.clpPresent r = (((e.clpStore r w).clpAnswer r (e.clap r.clapper.val) true).wake r.clapper w).barriers r.clapper r
      (e.clap r.clapper.val) w := by
  subst hw
  have noFetch : (r.kind == .fetchAdd) = false := by rcases kind with k | k <;> rw [k] <;> rfl
  let e1 : Eng := { e with clp := { e.clp with last := e.clp.last.set 11 (r.clapper.val % 16) r.req.val } }
  have value : (if r.kind == .set then (if r.keepLow then r.val.extractLsb' 32 32 ++ (e1.clap r.clapper).setWidth 32 else r.val)
      else e1.clap r.clapper + r.val) = r.result (e1.clap r.clapper) := by
    rw [whole]
    rcases kind with k | k <;> rw [ClpReq.result, k] <;> rfl
  have checked : e1.check 1 r.master false true r.clapper.val 1 = (e1, true) := check_of_granted (by simp) granted
  unfold Eng.clpPresent Eng.clpServe
  simp only [free, List.isEmpty_nil, Bool.not_true, Bool.false_eq_true, if_false, port, noFetch]
  rw [show e1.check 1 r.master false true r.clapper.val 1 = (e1, true) from checked]
  simp only [if_true]
  rw [value]
  rfl

/-- A refused one is answered so. -/
theorem clpPresent_of_refused (refused : e.acc.firstDenied 1 r.master false true r.clapper.val 1 ≠ none) :
    ∃ e1 e2 : Eng, e1 = { e with clp := { e.clp with last := e.clp.last.set 11 (r.clapper.val % 16) r.req.val } } ∧ e1.Told e2 ∧
      e.clpPresent r = e2.clpAnswer r 0 false := by
  have noFetch : (r.kind == .fetchAdd) = false := by rcases kind with k | k <;> rw [k] <;> rfl
  let e1 : Eng := { e with clp := { e.clp with last := e.clp.last.set 11 (r.clapper.val % 16) r.req.val } }
  have denied : (e1.check 1 r.master false true r.clapper.val 1).2 = false := check_of_denied refused
  refine ⟨e1, _, rfl, told_check e1 1 r.master false true r.clapper.val 1, ?_⟩
  unfold Eng.clpPresent Eng.clpServe
  simp only [free, List.isEmpty_nil, Bool.not_true, Bool.false_eq_true, if_false, port, noFetch]
  rw [if_neg (by rw [show (Eng.check _ 1 r.master false true r.clapper.val 1).2 = false from denied]; decide)]

end

theorem peerClapperReq_kind (m : Fin 64) : (peerClapperReq z m cl op v).kind = .set ∨ (peerClapperReq z m cl op v).kind = .add := by
  unfold peerClapperReq
  dsimp only
  split
  · exact .inl rfl
  · exact .inr rfl

section

variable {m : Fin 64} (free : e.clp.queues.get [] (cl.toNat % 16) = []) (idle : e.busy 7 = false)

include free

/-- A granted operation of a peer sets its clapper or adds to it, and is acknowledged. -/
theorem clapper_of_granted (granted : e.acc.firstDenied 1 m false true cl.toNat 1 = none) {e' : Eng}
    (he : e' = e.clpPresent (peerClapperReq z m cl op v)) :
    (∀ k, e'.clap k = if k = cl.toNat then (if op = 0 then v else e.clap k + v) else e.clap k) ∧ e'.zw.inbox = e.zw.inbox ∧
      (e.busy 7 = false → (∀ b < 16, (e.hth.bars.get {} b).cfg.getLsbD 31 = false) → ∃ e1 : Eng, e1.zw = e'.zw ∧
        e.Replied z.src 2 [.clpAck false] e1) := by
  let r := peerClapperReq z m cl op v
  let w := r.result (e.clap cl.toNat)
  let e1 := e.clpStore r w
  let e2 := e1.send z.src.toNat (.clpAck false)
  have served : e' = (e2.wake cl.toFin w).barriers cl.toFin r (e.clap cl.toNat) w :=
    he.trans (clpPresent_of_granted (r := r) free rfl (peerClapperReq_kind m) rfl granted rfl)
  have sent : e1.ZwOnly e2 := zwOnly_send _ _ _ _
  have wakes : e2.Wakes e' := served ▸ (wakes_wake _ _ _).trans (wakes_barriers _ _ _ _ _)
  refine ⟨fun k => ?_, ?_, fun idle off => ⟨e2, ?_, ?_⟩⟩
  · have vals : e'.clap k = e2.clap k := by unfold Eng.clap; rw [wakes.vals]
    rw [vals, sent.clap]
    refine (SMap.get_set 0 e.clp.vals k cl.toNat w).trans ?_
    split
    · next here => rw [here]; exact peerClapperReq_result m _
    · rfl
  · rw [served, inbox_barriers, wake_zw]
    exact inbox_send _ _ _ _
  · have same : (e2.wake cl.toFin w).hth = e.hth := by
      rw [wake_hth]
      obtain ⟨_, only⟩ := sent
      rw [only]
      rfl
    rw [served, barriers_of_disabled (by rw [same]; exact off), wake_zw]
  · exact (replied_nil (e := e) (e1 := e1) rfl rfl rfl).send (b := .clpAck false) rfl rfl idle _

/-- A refused operation of a peer changes no clapper and is answered so. -/
theorem clapper_of_refused (refused : e.acc.firstDenied 1 m false true cl.toNat 1 ≠ none) (idle : e.busy 7 = false) {e' : Eng}
    (he : e' = e.clpPresent (peerClapperReq z m cl op v)) :
    (∀ k, e'.clap k = e.clap k) ∧ e.Replied z.src 2 [.clpAck true] e' := by
  let r := peerClapperReq z m cl op v
  obtain ⟨e1, e2, rfl, told, served⟩ := clpPresent_of_refused (r := r) free rfl (peerClapperReq_kind m) refused
  let e3 := e2.onZw fun w => { w with answers := w.answers.set 0 ((3 * z.src.toNat + 2) * 2 ^ 32 + z.seq.toNat) 1 }
  have answer : e' = e3.send z.src.toNat (.clpAck true) := he.trans served
  have noted : e.Replied z.src 2 [] e3 := by
    have base : e.Replied z.src 2 [] e2 := replied_nil told.zw told.dirs told.rs
    exact ⟨base.outgoing, base.number, base.inbox, base.dirs, base.rs⟩
  rw [answer]
  exact ⟨fun k => ((zwOnly_send _ _ _ _).clap k).trans (told.clap k), noted.send (b := .clpAck true) rfl rfl idle _⟩

end

end

end Sys2Proof.Machine
end

section
/-! The statement about serving peers. -/

namespace Sys2Proof.Machine

open Sys2Proof

/-- Settles O51, message kind by message kind: the message is taken, served under the peers' master, and answered. -/
theorem peersAreServedAndAnswered : Obligations.PeersAreServedAndAnswered := by
  unfold Obligations.PeersAreServedAndAnswered
  intro s pm runs hpm
  subst hpm
  refine ⟨fun gl z rest sec tier n1 a n bad ok held body none released ha hn hok => ?_, fun pre post z inbox now => ?_⟩
  · subst ha hn
    refine ⟨fun waits => next_live_same ?_, fun goes now => ?_⟩
    · rw [readRequest_of_held held body none released, waits]
      rfl
    · obtain ⟨e, served, serve, inbox, dirs, granted, refused⟩ :=
        readRequest_serves held body none released goes now.1 bad
      refine ⟨_, next_live runs served, serve, inbox, dirs, rfl, fun hole tables => ?_, fun out => ?_⟩
      · obtain ⟨dev, denied, replied⟩ := granted hole tables
        refine ⟨dev, denied, ?_⟩
        rw [show (fun i => if ok i then ZBody.readRsp (BitVec.ofNat 8 i) false false (s.eng.rdDev false (sec.toNat * 64 + 64 * i) 64)
          else .readRsp (BitVec.ofNat 8 i) false true []) = s.eng.readAnswer (sec.toNat * 64) bad by
            funext i
            rw [hok, Eng.readAnswer]
            simp only [decide_eq_true_eq]]
        exact replied.sends
      · obtain ⟨denied, replied⟩ := refused out
        exact ⟨denied, replied.sends⟩
  · have only := zwOnly_taken s.eng pre post z
    have left := inbox_taken s.eng pre post z
    have idle : (s.eng.taken pre post z).busy 7 = false := (only.busy 7).trans now.1
    have gln := only.gln
    refine ⟨fun a there owes => owed_took s pre post z there owes, fun a bs r body first => ?_,
      fun sec tier n1 a n xs bad ok body first ha hn hxs hok => ?_, fun cl op v body first => ?_⟩
    · have taken := writeMsg_of_taken inbox body first r
      by_cases within : s.eng.wideOk s.eng.gln.peerMaster false true a.toNat bs.length
      · have within1 := only.wideOk.mpr within
        rw [← gln] at within1
        rw [serveWrite_of_ok within1, only.answer] at taken
        by_cases good : s.eng.answer a.toNat bs.length r = .ok
        · rw [if_pos good] at taken
          have replied := replied_writeDone (m := z) (told_putBytes (s.eng.taken pre post z) false a.toNat bs) idle 0
          refine ⟨_, next_live runs taken, replied.inbox.trans left, replied.dirs.trans only.dirs, rfl, fun _ => ⟨fun _ => ⟨?_,
            sends_of_replied replied⟩, fun bad => (bad good).elim⟩, fun out => (out within).elim⟩
          refine (zwOnly_writeDone _ _ _).serves.dev.trans ?_
          exact congrArg (·.wrN a.toNat bs) only.dev
        · rw [if_neg good] at taken
          have told : (s.eng.taken pre post z).Told ((s.eng.taken pre post z).answered a.toNat bs.length) :=
            ⟨_, _, _, _, _, _, _, _, _, _, rfl⟩
          have replied := replied_writeDone (m := z) told idle 2
          exact ⟨_, next_live runs taken, replied.inbox.trans left, replied.dirs.trans only.dirs, rfl, fun _ => ⟨fun ok => (good ok).elim,
            fun _ => ⟨(zwOnly_writeDone _ _ _).serves.dev.trans only.dev, sends_of_replied replied⟩⟩, fun out => (out within).elim⟩
      · have out : ¬ (s.eng.taken pre post z).wideOk (s.eng.taken pre post z).gln.peerMaster false true a.toNat bs.length := by
          rw [gln]
          exact fun ok => within (only.wideOk.mp ok)
        obtain ⟨e1, told, denied⟩ := serveWrite_of_refused (m := z) (r := r) out
        have replied := replied_writeDone (m := z) told idle 1
        exact ⟨_, next_live runs (taken.trans denied), replied.inbox.trans left, replied.dirs.trans only.dirs, rfl,
          fun ok => (within ok).elim, fun _ => sends_of_replied replied⟩
    · subst ha hn
      replace hxs : xs = runParts (n1.toNat + 1) := hxs
      subst hxs
      have taken := streamRequest_of_taken inbox body first bad
      by_cases within : s.eng.wideOk s.eng.gln.peerMaster true false (sec.toNat * 64) (64 * (n1.toNat + 1))
      · have within1 := only.wideOk.mpr within
        rw [← gln] at within1
        obtain ⟨serves, d, bytes, replied⟩ :=
          serveRun_of_granted (dst := z.src) within1 (Nat.mul_mod_left sec.toNat 64) idle bad
        have answers (x : Nat × Nat) : ok x = decide ((s.eng.taken pre post z).runAnswer (sec.toNat * 64) bad x = .ok) := by
          rw [hok, Eng.runAnswer, only.answer]
        refine ⟨_, d, next_live runs taken, replied.inbox.trans left, replied.dirs.trans only.dirs, rfl, fun _ => ⟨serves.dev.trans only.dev,
          fun x hx => ?_, ?_⟩, fun out => (out within).elim⟩
        · have part := bytes x hx
          unfold Eng.RunBytes at part
          rw [only.rdDev] at part
          rw [answers]
          simpa only [decide_eq_true_eq] using part
        · rw [funext answers]
          exact sends_of_replied replied
      · have out : ¬ (s.eng.taken pre post z).wideOk (s.eng.taken pre post z).gln.peerMaster true false (sec.toNat * 64)
            (64 * (n1.toNat + 1)) := by
          rw [gln]
          exact fun ok => within (only.wideOk.mp ok)
        obtain ⟨denied, d, lengths, replied⟩ := serveRun_of_refused (dst := z.src) out idle bad
        exact ⟨_, d, next_live runs taken, replied.inbox.trans left, replied.dirs.trans only.dirs, rfl, fun ok => (within ok).elim,
          fun _ => ⟨denied, lengths, sends_of_replied replied⟩⟩
    · have taken := clapperOperation_of_taken inbox body first
      have clp := only.clp
      by_cases reserved : 2 ≤ op.toNat
      · rw [if_pos reserved] at taken
        exact ⟨_, next_live runs taken, left, rfl, fun _ => rfl, fun plain => (plain.not_ge reserved).elim,
          fun plain => (plain.not_ge reserved).elim, fun plain => (plain.not_ge reserved).elim⟩
      rw [if_neg reserved, gln] at taken
      by_cases free : s.eng.clp.queues.get [] (cl.toNat % 16) = []
      · have free1 : (s.eng.taken pre post z).clp.queues.get [] (cl.toNat % 16) = [] := clp ▸ free
        by_cases granted : s.eng.acc.firstDenied 1 s.eng.gln.peerMaster false true cl.toNat 1 = Option.none
        · obtain ⟨values, inbox1, replied⟩ := clapper_of_granted (v := v) (op := op) (z := z) free1 (only.acc ▸ granted) rfl
          refine ⟨_, next_live runs taken, inbox1.trans left, rfl, fun two => (reserved two).elim, fun _ waits => (waits free).elim,
            fun _ _ _ => ⟨fun k => ?_, fun off => ?_⟩, fun _ _ refused => (refused granted).elim⟩
          · refine (values k).trans ?_
            rw [only.clap]
          · obtain ⟨e1, zw, sent⟩ := replied idle (only.hth ▸ off)
            have sends : s.Sends { s with eng := e1 } z.src [.clpAck false] := sends_of_replied sent
            unfold State.Sends at sends ⊢
            rw [outgoing_of_zw zw.symm]
            exact sends
        · obtain ⟨values, replied⟩ := clapper_of_refused (v := v) (op := op) (z := z) free1 (only.acc ▸ granted) idle rfl
          exact ⟨_, next_live runs taken, replied.inbox.trans left, rfl, fun two => (reserved two).elim, fun _ waits => (waits free).elim,
            fun _ _ ok => (granted ok).elim, fun _ _ _ => ⟨fun k => (values k).trans (only.clap k), sends_of_replied replied⟩⟩
      · have waits1 : (s.eng.taken pre post z).clp.queues.get [] (cl.toNat % 16) ≠ [] := clp ▸ free
        rw [clpPresent_of_waiting (r := peerClapperReq z s.eng.gln.peerMaster cl op v) waits1] at taken
        have vals := congrArg Clp.vals clp
        refine ⟨_, next_live runs taken, left, rfl, fun two => (reserved two).elim, fun _ _ => ⟨vals,
          peerClapperReq z s.eng.gln.peerMaster cl op v, ?_, rfl, rfl, rfl, rfl, rfl, rfl⟩, fun _ ok => (free ok).elim,
          fun _ ok => (free ok).elim⟩
        rw [← clp]
        exact SMap.get_set_self _ _ _ _

end Sys2Proof.Machine
end

section
/-! SUPPORT. A director's instructions (R95, R102, R107, R118): the frame of an instruction, a program fault, and the issue of a data-path
instruction to its unit. -/

namespace Sys2Proof.Machine

open Sys2Proof

/-! ### The frame of an instruction (R95, R102) -/

/-- A well-encoded instruction that its director executes has its effect. -/
theorem exec_of_insn {s : State} {d : Fin 8} {reads : List (BitVec 5)} (runs : s.executes d reads = true) {c : Instr} {ok : Bool}
    {f : Eng → Dir → Eng} (row : exec c s = .next (s.live fun e => e.insn d ok reads (f e))) (encoded : ok = true) :
    exec c s = .next { s with eng := f s.eng (s.eng.dir d) } := by
  unfold State.executes at runs
  simp only [Bool.and_eq_true, Bool.not_eq_true'] at runs
  obtain ⟨⟨live, can⟩, loaded⟩ := runs
  subst encoded
  refine row.trans (next_live live ?_)
  unfold Eng.insn
  rw [can, loaded]
  rfl

theorem running_of_executes {s : State} {d : Fin 8} {reads : List (BitVec 5)} (runs : s.executes d reads = true) :
    (s.eng.dir d).st = .running := by
  unfold State.executes Eng.canRun at runs
  simp only [Bool.and_eq_true, beq_iff_eq] at runs
  exact runs.1.2.1

/-- The immediate has no bit outside the mask of those that the instruction uses (R95). -/
theorem imm_within_mask {imm : BitVec 37} {mask : Nat} (within : ∀ i < 37, imm.getLsbD i = true → mask.testBit i = true) :
    (imm &&& ~~~(BitVec.ofNat 37 mask)) = 0 := by
  refine BitVec.eq_of_getLsbD_eq fun i hi => ?_
  rw [BitVec.getLsbD_and, BitVec.getLsbD_not, BitVec.getLsbD_ofNat]
  by_cases set : imm.getLsbD i = true
  · rw [within i hi set]
    simp [hi]
  · rw [Bool.eq_false_of_not_eq_true set]
    simp

/-! ### Program faults (R118, R122) -/

/-- `y` is `x` after a program fault with cause `c`: draining or ended, and nothing that the program computed has changed. -/
structure Dir.FaultedAs (x y : Dir) (c : Byte) : Prop where
  faulted : y.faulted = true
  cause : y.cause = c
  st : y.st = .draining ∨ y.st = .idle
  pc : y.pc = x.pc
  regs : y.regs = x.regs
  stack : y.stack = x.stack
  descs : y.descs = x.descs
  tcount : y.tcount = x.tcount

/-- A draining director drains on or ends its program. -/
theorem settle_dir_of_draining {e : Eng} {d : Fin 8} (drains : (e.dir d).st = .draining) : (e.settle d).dir d = e.dir d ∨
    ∃ code, (e.settle d).dir d = { e.dir d with st := .idle, wait := .none, exit := code, reserved := false } := by
  unfold Eng.settle
  dsimp only
  rw [drains]
  dsimp only
  split
  · unfold Eng.endProgram Eng.dir
    dsimp only
    rw [Eng.finishCmd_dirs]
    exact .inr ⟨_, Eng.dir_setDir_self e d _⟩
  · exact .inl rfl

theorem abandonStops_dir (e : Eng) (d : Fin 8) : ∃ ss, (e.abandonStops d).dir d = { e.dir d with stops := [], slots := ss } :=
  ⟨_, Eng.dir_setDir_self e d _⟩

/-- A running director that faults records the cause, and its program is over. -/
theorem progFault_dir {e : Eng} {d : Fin 8} (runs : (e.dir d).st = .running) (c r : Byte) :
    (e.dir d).FaultedAs ((e.progFault d c r).dir d) c := by
  let x : Dir := { e.dir d with st := .draining, wait := .none, faulted := true, cause := c, detail := r, bad := true, fetch := [] }
  unfold Eng.progFault
  dsimp only
  rw [if_neg (by simp [runs]), decide_eq_true (by simp [runs])]
  generalize hp : Eng.post _ _ 2 d.val 0x0200 _ = e1
  have told : (e.setDir d x).Told e1 := hp ▸ told_post _ _ _ _ _ _
  have there : e1.dir d = x := (told.dir d).trans (Eng.dir_setDir_self e d x)
  obtain ⟨ss, stopped⟩ := abandonStops_dir e1 d
  rw [there] at stopped
  have drains : ((e1.abandonStops d).dir d).st = .draining := by rw [stopped]
  rcases settle_dir_of_draining drains with same | ⟨code, ended⟩
  · rw [same, stopped]
    exact ⟨rfl, rfl, .inl rfl, rfl, rfl, rfl, rfl, rfl⟩
  · rw [ended, stopped]
    exact ⟨rfl, rfl, .inr rfl, rfl, rfl, rfl, rfl, rfl⟩

theorem faults_of_progFault {s : State} {d : Fin 8} {c : Instr} (runs : (s.eng.dir d).st = .running) {cause r : Byte}
    (h : exec c s = .next { s with eng := s.eng.progFault d cause r }) : s.Faults d c cause := by
  obtain ⟨faulted, hc, st, pc, regs, stack, descs, tcount⟩ := progFault_dir runs cause r
  exact ⟨_, h, faulted, hc, st, pc, regs, stack, descs, tcount, rfl⟩

/-! ### Issue (R107) -/

/-- The director with its next ticket, which s[dst] holds and whose slot is live. -/
def Dir.ticketed (x : Dir) (dst : BitVec 5) : Dir :=
  { x with tcount := x.nextTicket,
           slots := x.slots.set none (x.nextTicket.toNat % 256) (some { ticket := x.nextTicket, out := none }) }.putI dst
    (x.nextTicket.setWidth 64)

/-- Writing a register leaves everything but the registers and the loads in flight. -/
theorem putI_frame (x : Dir) (r : BitVec 5) (v : W64) :
    x.putI r v = { x with regs := (x.putI r v).regs, lds := (x.putI r v).lds } := by
  unfold Dir.putI Dir.put
  split <;> rfl

theorem slots_ticketed (x : Dir) (dst : BitVec 5) : (x.ticketed dst).slots =
    x.slots.set none (x.nextTicket.toNat % 256) (some { ticket := x.nextTicket, out := none }) := by
  unfold Dir.ticketed
  rw [putI_frame]

section

variable {e : Eng} {hs : List Hdr} {d : Fin 8} {w : IWord} {f : Eng → Hdr → Eng}

/-- An instruction whose ticket's slot is held, or whose unit's queue is full, stalls. -/
theorem issue_of_stall (x : Dir) (stalls : (e.dir d).slotFree (e.dir d).nextTicket = false ∨ e.queueFull hs d = true) :
    e.issue hs d w x f = e.setDir d { e.dir d with stall := satAdd (e.dir d).stall 1 } := by
  unfold Eng.issue Eng.enqueue
  by_cases full : e.queueFull hs d = true
  · rw [if_pos full]
    rfl
  · rw [if_neg full]
    unfold Eng.takeTicket
    dsimp only
    rw [stalls.resolve_right full, if_neg Bool.false_ne_true]

/-- One that has its ticket is handed to its unit, and its director goes on. -/
theorem issue_of_room (x : Dir) (slot : (e.dir d).slotFree (e.dir d).nextTicket = true) (room : e.queueFull hs d = false) :
    e.issue hs d w x f = (f (e.setDir d ((e.dir d).ticketed w.dst)) (x.hdr { dir := d, ticket := (e.dir d).nextTicket } w.sb)).onDir d
      (·.step 16) := by
  unfold Eng.issue Eng.enqueue
  rw [room, if_neg Bool.false_ne_true]
  unfold Eng.takeTicket
  dsimp only
  rw [slot, if_pos rfl]
  rfl

end

/-- What a unit does with an instruction it is handed leaves the directors, both memories and the reels. -/
def HandsOver (f : Eng → Hdr → Eng) : Prop :=
  ∀ e h, (f e h).dirs = e.dirs ∧ (f e h).dev = e.dev ∧ (f e h).host = e.host ∧ (f e h).fe = e.fe

/-- An instruction that has its ticket and is handed over is issued. -/
theorem issues_of_handsOver {s : State} {d : Fin 8} {dst : BitVec 5} {f : Eng → Hdr → Eng} (hands : HandsOver f) (h : Hdr) :
    s.Issues { s with eng := (f (s.eng.setDir d ((s.eng.dir d).ticketed dst)) h).onDir d (·.step 16) } d dst 16 := by
  obtain ⟨dirs, dev, host, fe⟩ := hands (s.eng.setDir d ((s.eng.dir d).ticketed dst)) h
  generalize f (s.eng.setDir d ((s.eng.dir d).ticketed dst)) h = e1 at dirs dev host fe ⊢
  have dir (k : Nat) : e1.dir k = if k = d then (s.eng.dir d).ticketed dst else s.eng.dir k := by
    refine (congrArg (fun m : SMap Dir => m.get {} k) dirs).trans ?_
    exact Eng.dir_setDir s.eng d k _
  have here : (e1.onDir d (·.step 16)).dir d = ((s.eng.dir d).ticketed dst).step 16 := by
    rw [Eng.dir_onDir, if_pos rfl, dir, if_pos rfl]
  have slot (u : W32) : (((s.eng.dir d).ticketed dst).step 16).slot u =
      if u.toNat % 256 = (s.eng.dir d).nextTicket.toNat % 256 then some { ticket := (s.eng.dir d).nextTicket, out := none }
      else (s.eng.dir d).slot u := by
    show SMap.get none ((s.eng.dir d).ticketed dst).slots (u.toNat % 256) = _
    rw [slots_ticketed]
    exact SMap.get_set _ _ _ _ _
  refine ⟨_, _, _, rfl, rfl, rfl, ?_, fun r => ?_, ?_, fun u other => ?_, fun k other => ?_, dev, host, fe, rfl⟩
  · dsimp only
    rw [here]
    unfold Dir.step Dir.ticketed
    rw [putI_frame]
  · dsimp only
    rw [here]
    exact Dir.get_put _ _ _ _
  · dsimp only
    rw [here, slot, if_pos rfl]
  · dsimp only
    rw [here, slot, if_neg other]
  · dsimp only
    rw [Eng.dir_onDir, if_neg other, dir, if_neg other]

/-- A data-path instruction whose encoding and sources stand: R104's refusal, its operands' ranges, or its issue. -/
def Eng.startJob (e : Eng) (hs : List Hdr) (d : Fin 8) (w : IWord) (x : Dir) (tabs : List (BitVec 4)) (os : List Opnd) (bad : Bool)
    (f : Eng → Hdr → Eng) : Eng :=
  match x.refuses tabs os with
  | some (c, r) => e.progFault d c r
  | none => if bad then e.progFault d 0x0B 0 else e.issue hs d w x f

/-- Such an instruction is issued to its unit, which holds of it what `f` says. -/
theorem issuesJob_of_startJob {s : State} {d : Fin 8} {c : Instr} {w : IWord} {tabs : List (BitVec 4)} {os : List Opnd} {hs : List Hdr}
    {bad : Bool} {f : Eng → Hdr → Eng} {post : State → Hdr → Prop} (runs : (s.eng.dir d).st = .running)
    (h : exec c s = .next { s with eng := s.eng.startJob hs d w (s.eng.dir d) tabs os bad f }) (hands : HandsOver f)
    (holds : ∀ y z h, h.key = ⟨d, (s.eng.dir d).nextTicket⟩ → post { s with eng := (f (s.eng.setDir d y) h).setDir d z } h) :
    s.IssuesJob d c w 16 tabs os hs (bad = true) post := by
  unfold Eng.startJob at h
  refine ⟨fun q refused => ?_, fun clean out => ?_, fun clean within => ⟨fun slot room => ?_, fun stalls => ?_⟩⟩
  · rw [refused] at h
    exact faults_of_progFault runs h
  · rw [clean, if_pos out] at h
    exact faults_of_progFault runs h
  · rw [clean, if_neg within, issue_of_room _ slot room] at h
    exact ⟨_, h, issues_of_handsOver hands _, holds _ _ _ rfl⟩
  · rw [clean, if_neg within, issue_of_stall _ stalls] at h
    exact h

end Sys2Proof.Machine
end

section
/-! The statement about the issue of GLEAN and POOL (R126, R127, R150, R151), with what their units do with them. -/

namespace Sys2Proof.Machine

open Sys2Proof

/-! ### GLEAN -/

/-- The elements of a row of a GLEAN's source. -/
def gleanRowLen (src : Bool) (row : BitVec 256) : Nat := if src then (strOf row).len else (tabOf row).len

/-- The stream operands of a GLEAN, in field order (R126). -/
def gleanOpnds (w : IWord) (ext : W64) (x : Dir) : List Opnd :=
  (if w.imm.getLsbD 3 then [{ reg := w.desc, aux := false, roles := [0] }] else []) ++
    [{ reg := xdesc ext 0, aux := false,
       roles := if w.imm.getLsbD 3 then [1, 2] else if (tabOf (x.desc w.desc).w).iw = 0 then [1] else [2] }] ++
    (if w.imm.getLsbD 2 then [{ reg := xdesc ext 1, aux := false, roles := [3] }] else []) ++
    (if w.imm.getLsbD 1 then [{ reg := xdesc ext 2, aux := false, roles := [4] }] else []) ++
    (if w.imm.getLsbD 0 then [{ reg := xdesc ext 3, aux := true, roles := [0] }] else [])

/-- A GLEAN as it is issued (R126). -/
def newGlean (w : IWord) (ext : W64) (x : Dir) (h : Hdr) : Glean :=
  let len := gleanRowLen (w.imm.getLsbD 3) (x.desc w.desc).w
  { h := h, root := h.key.ticket, out := w.imm.getLsbD 0, wts := w.imm.getLsbD 1, bags := w.imm.getLsbD 2, src := w.imm.getLsbD 3,
    ff := w.imm.getLsbD 36, srcD := (x.desc w.desc).w, idxD := (x.desc (xdesc ext 0)).w,
    offD := if w.imm.getLsbD 2 then (x.desc (xdesc ext 1)).w else 0, wtD := if w.imm.getLsbD 1 then (x.desc (xdesc ext 2)).w else 0,
    outD := if w.imm.getLsbD 0 then (x.desc (xdesc ext 3)).w else 0, eFirst := fld ext.toNat 16 13,
    w := if fld ext.toNat 29 13 = 0 then len - fld ext.toNat 16 13 else fld ext.toNat 29 13,
    next := 0, bag := 0, bagEnd := none, bagOffs := [], total := none, elems := [], consumer := none, phase := .active, fault := none,
    iFault := none, skip := [], fix := [], redo := [], denied := none, lost := none, flags := 0, dead := false }

/-- The operands of a GLEAN are out of range (R127). -/
def gleanRefused (d : Fin 8) (w : IWord) (ext : W64) (x : Dir) : Bool :=
  gleanBad (newGlean w ext x (x.hdr { dir := d, ticket := 0 } 0)) (gleanRowLen (w.imm.getLsbD 3) (x.desc w.desc).w)
    (newGlean w ext x (x.hdr { dir := d, ticket := 0 } 0)).w (strOf (x.desc (xdesc ext 3)).w)

/-- The gleaners take a GLEAN, and forget those that retired and can be asked for no more. -/
def Eng.takeGlean (mk : Hdr → Glean) (e : Eng) (h : Hdr) : Eng :=
  e.onGln fun q => { q with gleans := (q.gleans.filter fun g => g.phase != .retired || (g.consumer.isSome && !e.consumerGone g) ||
    ((e.dir g.h.key.dir).slot g.h.key.ticket).any fun t => t.ticket == g.h.key.ticket) ++ [mk h] }

theorem handsOver_takeGlean (mk : Hdr → Glean) : HandsOver (Eng.takeGlean mk) := fun _ _ => ⟨rfl, rfl, rfl, rfl⟩

/-- A GLEAN that is taken joins those in flight; one that has not retired is not forgotten. -/
theorem gleans_takeGlean (mk : Hdr → Glean) (e : Eng) (h : Hdr) : mk h ∈ (e.takeGlean mk h).gln.gleans ∧
    (∀ q ∈ e.gln.gleans, q.phase ≠ .retired → q ∈ (e.takeGlean mk h).gln.gleans) ∧
    ∀ q ∈ (e.takeGlean mk h).gln.gleans, q = mk h ∨ q ∈ e.gln.gleans := by
  refine ⟨List.mem_append_right _ (List.mem_singleton_self _), fun q hq live => ?_, fun q hq => ?_⟩
  · refine List.mem_append_left _ (List.mem_filter.mpr ⟨hq, ?_⟩)
    simp [live]
  · rcases List.mem_append.mp hq with old | new
    · exact .inr (List.mem_filter.mp old).1
    · exact .inl (List.mem_singleton.mp new)

/-- The immediate of a GLEAN uses bits 3 to 0 and 36. -/
theorem gleanImm_within_mask {imm : BitVec 37} (h : imm.toNat % 2 ^ 36 < 16) : (imm &&& ~~~(BitVec.ofNat 37 (0xF + 2 ^ 36))) = 0 := by
  refine imm_within_mask fun i hi set => ?_
  by_cases top : i = 36
  · subst top
    decide
  · have bit : (imm.toNat % 2 ^ 36).testBit i = true := by
      rw [Nat.testBit_mod_two_pow, decide_eq_true (by omega : i < 36)]
      exact set
    have low : i < 4 := by
      by_contra high
      have zero : (imm.toNat % 2 ^ 36).testBit i = false :=
        Nat.testBit_lt_two_pow (h.trans_le (Nat.pow_le_pow_right (n := 2) (by decide) (by omega : 4 ≤ i)))
      exact absurd (zero.symm.trans bit) (by decide)
    exact (by decide : ∀ j < 4, (0xF + 2 ^ 36).testBit j = true) i low

/-- The fields of a GLEAN that its flags leave unused are zero (R95, R126). -/
theorem gleanEncoded {w : IWord} {ext : W64} (sa : w.sa = 0) (imm : w.imm.toNat % 2 ^ 36 < 16) (high : ext.toNat < 2 ^ 42)
    (bags : w.imm.getLsbD 2 = false → xdesc ext 1 = 0) (wts : w.imm.getLsbD 1 = false → xdesc ext 2 = 0)
    (out : w.imm.getLsbD 0 = false → xdesc ext 3 = 0) :
    (iuses w true false true true (0xF + 2 ^ 36) && ((w.imm.getLsbD 2 || xdesc ext 1 == 0) && (w.imm.getLsbD 1 || xdesc ext 2 == 0) &&
      (w.imm.getLsbD 0 || xdesc ext 3 == 0) && fld ext.toNat 42 22 == 0)) = true := by
  have unused {b : Bool} {r : BitVec 4} (h : b = false → r = 0) : (b || r == 0) = true := by
    cases b
    · simp [h rfl]
    · rfl
  have top : fld ext.toNat 42 22 = 0 := by
    unfold fld
    omega
  unfold iuses
  rw [gleanImm_within_mask imm, unused bags, unused wts, unused out, top, sa]
  rfl

/-! ### POOL -/

/-- The writer takes a POOL, which becomes the consumer of its GLEAN. -/
def Eng.takePool (g : Glean) (mk : Hdr → PoolJob) (e : Eng) (h : Hdr) : Eng :=
  (e.setGlean { g with consumer := some h.key }).onWr fun z => { z with pools := z.pools ++ [mk h] }

theorem handsOver_takePool (g : Glean) (mk : Hdr → PoolJob) : HandsOver (Eng.takePool g mk) := fun _ _ => ⟨rfl, rfl, rfl, rfl⟩

/-- Replacing a job of one key leaves those of the others. -/
theorem find?_map_other {α κ : Type} [DecidableEq κ] {key : α → κ} {k : κ} {x' : α} (other : k ≠ key x') (l : List α) :
    (l.map fun y => if key y == key x' then x' else y).find? (key · == k) = l.find? (key · == k) := by
  induction l with
  | nil => rfl
  | cons y l ih =>
    rw [List.map_cons, List.find?_cons, List.find?_cons, ih]
    by_cases hy : key y = key x'
    · have out : (key x' == k) = false := by simp [Ne.symm other]
      simp [hy, out]
    · simp [hy]

theorem glean_setGlean_ne {e : Eng} {k : Key} {g : Glean} (other : k ≠ g.h.key) : (e.setGlean g).glean k = e.glean k :=
  find?_map_other (key := fun y : Glean => y.h.key) other _

theorem key_of_glean {e : Eng} {k : Key} {g : Glean} (found : e.glean k = some g) : g.h.key = k := by
  simpa using List.find?_some found

/-- The stream operands of a POOL, in field order (R150). -/
def poolOpnds (w : IWord) (ext : W64) : List Opnd :=
  [⟨w.desc, true, [0]⟩] ++ (if fld w.imm.toNat 0 4 = 6 then [⟨xdesc ext 0, false, [1]⟩] else []) ++
    (if fld w.imm.toNat 5 2 ≠ 0 then [⟨xdesc ext 1, false, [0]⟩] else [])

/-- A POOL of a GLEAN as it is issued (R150). -/
def newPool (fill : W32) (w : IWord) (ext : W64) (x : Dir) (g : Glean) (h : Hdr) : PoolJob :=
  { h := h, op := fld w.imm.toNat 0 4, fp32 := bit w.imm.toNat 4, pre := fld w.imm.toNat 5 2, k := fld w.imm.toNat 7 13,
    oFirst := fld w.imm.toNat 20 12, a := (x.get w.sa).toNat, outD := (x.desc w.desc).w,
    posD := if fld w.imm.toNat 0 4 = 6 then (x.desc (xdesc ext 0)).w else 0,
    preD := if fld w.imm.toNat 5 2 ≠ 0 then (x.desc (xdesc ext 1)).w else 0, fill := fill, w := g.w,
    q := (8 + g.fw.rowBytes g.w + 7) / 8 * 8, nBags := g.nBags, bags := [], next := 0, flags := 0, fault := false, nEl := 0, nClip := 0,
    ovf := [] }

/-- The GLEAN that a POOL's prior ticket names (R151): that of a ticket the director holds, without an output and without a consumer. -/
def Eng.poolSource (e : Eng) (d : Fin 8) (w : IWord) (x : Dir) : Option Glean :=
  if w.sb != 0 && (match x.slot ((x.get w.sb).setWidth 32) with
      | some q => q.ticket == (x.get w.sb).setWidth 32
      | none => false) then
    (e.gleanOf d ((x.get w.sb).setWidth 32)).filter fun g => !g.out && g.consumer.isNone
  else none

/-- A POOL whose encoding and sources stand. -/
def Eng.startPool (e : Eng) (d : Fin 8) (w : IWord) (ext : W64) (x : Dir) : Eng :=
  match x.refuses [] (poolOpnds w ext) with
  | some (c, r) => e.progFault d c r
  | none => match e.poolSource d w x with
    | none => e.progFault d 0x0B 0
    | some g =>
      if poolBad (newPool e.wr.fill w ext x g (x.hdr { dir := d, ticket := 0 } 0)) g.wts then e.progFault d 0x0B 0
      else e.issue e.hsPool d w x (Eng.takePool g (newPool e.wr.fill w ext x g))

section

variable {e : Eng} {d : Fin 8} {w : IWord} {ext : W64} {x : Dir}

theorem startPool_of_none (clean : x.refuses [] (poolOpnds w ext) = none) (absent : e.poolSource d w x = none) :
    e.startPool d w ext x = e.progFault d 0x0B 0 := by
  unfold Eng.startPool
  rw [clean, absent]

theorem startPool_of_some (clean : x.refuses [] (poolOpnds w ext) = none) {g : Glean} (named : e.poolSource d w x = some g) :
    e.startPool d w ext x = e.startJob e.hsPool d w x [] (poolOpnds w ext)
      (poolBad (newPool e.wr.fill w ext x g (x.hdr { dir := d, ticket := 0 } 0)) g.wts)
      (Eng.takePool g (newPool e.wr.fill w ext x g)) := by
  unfold Eng.startPool Eng.startJob
  rw [clean, named]

/-- The prior ticket names a GLEAN only while the director holds it in its slot. -/
theorem poolSource_eq : e.poolSource d w x =
    if w.sb ≠ 0 ∧ ∃ q, x.slot ((x.get w.sb).setWidth 32) = some q ∧ q.ticket = (x.get w.sb).setWidth 32 then
      (e.gleanOf d ((x.get w.sb).setWidth 32)).filter fun g => !g.out && g.consumer.isNone
    else none := by
  unfold Eng.poolSource
  congr 1
  cases x.slot ((x.get w.sb).setWidth 32) <;> simp

end

/-- The immediate's last field of a POOL, where nothing lies above it. -/
theorem fld_first {i : Nat} (h : i / 2 ^ 20 < 2 ^ 12) : fld i 20 12 = i / 2 ^ 20 := by
  unfold fld
  omega

/-- The fields of a POOL that its operation leaves unused are zero (R95, R150). -/
theorem poolEncoded {w : IWord} {ext : W64} (op8 : fld w.imm.toNat 0 4 < 8)
    (fp : w.imm.getLsbD 4 = true → fld w.imm.toNat 0 4 ≤ 2 ∨ fld w.imm.toNat 0 4 = 5) (pre3 : fld w.imm.toNat 5 2 < 3)
    (k0 : fld w.imm.toNat 7 13 ≠ 0 → 6 ≤ fld w.imm.toNat 0 4) (first0 : w.imm.toNat / 2 ^ 20 ≠ 0 → fld w.imm.toNat 0 4 < 6)
    (first12 : w.imm.toNat / 2 ^ 20 < 2 ^ 12) (hext : ext.toNat < 2 ^ 8) (db : fld w.imm.toNat 0 4 ≠ 6 → xdesc ext 0 = 0)
    (dc : fld w.imm.toNat 5 2 = 0 → xdesc ext 1 = 0) :
    (iuses w true true true true (2 ^ 37 - 1) && (decide (fld w.imm.toNat 0 4 < 8) &&
      (!bit w.imm.toNat 4 || decide (fld w.imm.toNat 0 4 ≤ 2) || fld w.imm.toNat 0 4 == 5) && decide (fld w.imm.toNat 5 2 < 3) &&
      (decide (6 ≤ fld w.imm.toNat 0 4) || fld w.imm.toNat 7 13 == 0) && (decide (fld w.imm.toNat 0 4 < 6) || fld w.imm.toNat 20 12 == 0) &&
      fld w.imm.toNat 32 5 == 0 && (fld w.imm.toNat 0 4 == 6 || xdesc ext 0 == 0) && (fld w.imm.toNat 5 2 != 0 || xdesc ext 1 == 0) &&
      fld ext.toNat 8 56 == 0)) = true := by
  have mask : (w.imm &&& ~~~(BitVec.ofNat 37 (2 ^ 37 - 1))) = 0 :=
    imm_within_mask fun i hi _ => by rw [Nat.testBit_two_pow_sub_one, decide_eq_true hi]
  have top : fld w.imm.toNat 32 5 = 0 := by
    unfold fld
    omega
  have high : fld ext.toNat 8 56 = 0 := by
    unfold fld
    omega
  have used : iuses w true true true true (2 ^ 37 - 1) = true := by
    unfold iuses
    rw [mask]
    rfl
  rw [used, fld_first first12, top, high, bit_toNat]
  simp only [Bool.and_eq_true, Bool.or_eq_true, decide_eq_true_eq, beq_iff_eq, bne_iff_ne, Bool.not_eq_true', true_and, and_true]
  have single : w.imm.getLsbD 4 = false ∨ fld w.imm.toNat 0 4 ≤ 2 ∨ fld w.imm.toNat 0 4 = 5 := by
    cases flag : w.imm.getLsbD 4
    · exact .inl rfl
    · exact .inr (fp flag)
  refine ⟨⟨⟨⟨⟨⟨op8, or_assoc.mpr single⟩, pre3⟩, ?_⟩, ?_⟩, Decidable.or_iff_not_imp_left.mpr db⟩,
    Decidable.or_iff_not_imp_left.mpr fun zero => dc (not_not.mp zero)⟩
  · exact Decidable.or_iff_not_imp_right.mpr k0
  · exact Decidable.or_iff_not_imp_right.mpr first0

/-- Settles O29: each is refused by its operands or handed to its unit; a POOL's prior ticket names its GLEAN. -/
theorem gleanAndPoolAreIssued : Obligations.GleanAndPoolAreIssued := by
  unfold Obligations.GleanAndPoolAreIssued
  intro s d w ext x hx
  subst hx
  refine ⟨fun out wts bags src g row len os runs sa imm high hout hwts hbags hsrc bags0 wts0 out0 hrow hlen hos hg => ?_,
    fun op pre k oFirst os live runs hop op8 fp hpre pre3 hk k0 hFirst first0 first12 hext db dc hos clean hlive => ?_⟩
  · subst hout hwts hbags hsrc
    have started := exec_of_insn (c := .glean d w ext) runs (f := fun e x => e.startJob e.hsGlean d w x
      (if w.imm.getLsbD 3 then [] else [w.desc]) (gleanOpnds w ext x) (gleanRefused d w ext x) (Eng.takeGlean (newGlean w ext x)))
      rfl (gleanEncoded sa imm high bags0 wts0 out0)
    subst hos hlen hrow hg
    exact issuesJob_of_startJob (running_of_executes runs) started (handsOver_takeGlean _) fun y z h key =>
      gleans_takeGlean (newGlean w ext (s.eng.dir d)) (s.eng.setDir d y) h
  · obtain rfl : op = fld w.imm.toNat 0 4 := hop.trans (fld_low _ 4).symm
    obtain rfl : pre = fld w.imm.toNat 5 2 := hpre
    obtain rfl : k = fld w.imm.toNat 7 13 := hk
    obtain rfl : os = poolOpnds w ext := hos
    subst hFirst hlive
    have started := exec_of_insn (c := .pool d w ext) runs (f := fun e x => e.startPool d w ext x) rfl
      (poolEncoded op8 fp pre3 k0 first0 first12 hext db dc)
    have running := running_of_executes runs
    have refused (absent : s.eng.poolSource d w (s.eng.dir d) = none) : s.Faults d (.pool d w ext) 0x0B := by
      rw [startPool_of_none clean absent] at started
      exact faults_of_progFault running started
    refine ⟨fun missing => refused ?_, fun g named => ⟨fun taken => refused ?_, fun j live out consumer hj => ?_⟩⟩
    · rw [poolSource_eq]
      rcases missing with dead | absent
      · exact if_neg dead
      · rw [absent]
        exact ite_self _
    · rw [poolSource_eq, named]
      have no : (!g.out && g.consumer.isNone) = false := by
        rcases taken with out | consumer
        · simp [out]
        · simp [Option.isSome_iff_ne_none.mpr consumer]
      simp [Option.filter, no]
    · have source : s.eng.poolSource d w (s.eng.dir d) = some g := by
        rw [poolSource_eq, if_pos live, named]
        simp [Option.filter, out, consumer]
      obtain rfl : j = newPool s.eng.wr.fill w ext (s.eng.dir d) g := by
        rw [hj]
        funext h
        unfold newPool
        rw [fld_first first12, bit_toNat]
      rw [startPool_of_some clean source] at started
      have there : s.eng.glean g.h.key = some g := by
        have key := key_of_glean named
        rw [key]
        exact named
      exact issuesJob_of_startJob running started (handsOver_takePool _ _) fun y z h _ =>
        ⟨rfl, glean_setGlean (e := s.eng.setDir d y) there rfl, fun k other => glean_setGlean_ne (e := s.eng.setDir d y) other⟩

end Sys2Proof.Machine
end

section
/-! SUPPORT. Index resolution (R128, R132, R134, R140): the read of an index, and what a gather makes of it. -/

namespace Sys2Proof.Machine

open Sys2Proof

/-! ### What resolution leaves -/

/-- Between `e` and `e'` the gleaners worked: device memory stands, and so do the GLEANs in flight. -/
structure Eng.Gathers (e e' : Eng) : Prop where
  gleans : e'.gln.gleans = e.gln.gleans
  dev : e'.dev = e.dev

theorem Eng.Gathers.refl (e : Eng) : e.Gathers e := ⟨rfl, rfl⟩

theorem Eng.Gathers.trans {a b c : Eng} (h : a.Gathers b) (g : b.Gathers c) : a.Gathers c :=
  ⟨g.gleans.trans h.gleans, g.dev.trans h.dev⟩

theorem Eng.Gathers.glean {e e' : Eng} (h : e.Gathers e') (k : Key) : e'.glean k = e.glean k := by
  unfold Eng.glean
  rw [h.gleans]

theorem gathers_foldl {α : Type} {f : Eng → α → Eng} (hf : ∀ (e : Eng) a, e.Gathers (f e a)) (xs : List α) (e : Eng) :
    e.Gathers (xs.foldl f e) := by
  induction xs generalizing e with
  | nil => exact .refl e
  | cons x xs ih => exact (hf e x).trans (ih _)

theorem gathers_countGln (e : Eng) (i n : Nat) : e.Gathers (e.countGln i n) := ⟨rfl, rfl⟩

theorem gathers_enterQueue (e : Eng) (ps : List Part) : e.Gathers (e.enterQueue ps).1 := ⟨rfl, rfl⟩

theorem gathers_send (e : Eng) (d : Nat) (b : ZBody) (u : Purpose) : e.Gathers (e.send d b u) := by
  obtain ⟨_, only⟩ := zwOnly_send e d b u
  rw [only]
  exact ⟨rfl, rfl⟩

theorem gathers_lookup (e : Eng) (m : Fin 64) (sa : Nat) : e.Gathers (e.lookup m sa) := by
  obtain ⟨_, _, -, only⟩ := (looks_lookup e m sa).only
  rw [only]
  exact ⟨rfl, rfl⟩

theorem gathers_issuePart (e : Eng) (k : Key) (m : Fin 64) (pos : Nat) (p : Part) : e.Gathers (e.issuePart k m pos p) := by
  unfold Eng.issuePart
  split
  · exact .refl e
  · split
    · exact gathers_foldl (fun e sa => (gathers_lookup e m sa).trans (gathers_countGln _ _ _)) _ _
    · dsimp only
      split
      · exact (gathers_send _ _ _ _).trans (gathers_send _ _ _ _)
      · exact gathers_send _ _ _ _

theorem gathers_issueElem (e : Eng) (g : Glean) (x : Elem) : e.Gathers (e.issueElem g x) :=
  gathers_foldl (fun e _ => gathers_issuePart e _ _ _ _) _ _

/-! ### The read of an index (R128, R228) -/

/-- `q` is `p` after reads along the wide ports: bytes were moved, and sectors that had failed were answered. -/
def Mp.ReadOf (p q : Mp) : Prop := ∃ c k d u, q = { p with credit := c, ctrs := k, dead := d, cut := u }

/-- An item of a stream that may be read, and whose read succeeds. -/
theorem readItem_of_ok {e : Eng} {m : Fin 64} {s : Str} {i : Nat} (within : e.wideOk m true false (s.addr i) s.item)
    (good : e.answer (s.addr i) s.item .ok = .ok) : ∃ p, e.mp.ReadOf p ∧
      e.readItem m s i .ok = ({ e with mp := p }, 0, leNat (e.rdDev true (s.addr i) s.item)) := by
  obtain ⟨p, ⟨c, k, moved⟩, wide⟩ := moved_wideMove (e.answered (s.addr i) s.item) (s.addr i) s.item
  refine ⟨p, ⟨c, k, _, _, moved⟩, ?_⟩
  unfold Eng.readItem
  dsimp only
  rw [check_of_granted (fun _ => within.1) within.2]
  dsimp only
  rw [good, if_neg (by simp)]
  unfold Eng.read
  rw [if_neg Bool.false_ne_true, wide]
  rfl

/-! ### The requests of a row (R134, R141) -/

/-- One request enters its gleaner's retry queue where it is held. -/
def queuePart (st : Nat × List Part) (p : Part) : Nat × List Part :=
  match p.st with
  | .held since _ => (st.1 + 1, st.2 ++ [{ p with st := .held since st.1, due := false }])
  | _ => (st.1, st.2 ++ [p])

theorem enterQueue_parts (e : Eng) (ps : List Part) : (e.enterQueue ps).2 = (ps.foldl queuePart (e.gln.turns, [])).2 := rfl

/-- Requests that enter the queue are those that were held. -/
theorem any_isHeld_enterQueue (e : Eng) (ps : List Part) : (e.enterQueue ps).2.any Part.isHeld = ps.any Part.isHeld := by
  rw [enterQueue_parts]
  have all (st : Nat × List Part) : (ps.foldl queuePart st).2.any Part.isHeld = (st.2.any Part.isHeld || ps.any Part.isHeld) := by
    induction ps generalizing st with
    | nil => simp
    | cons p ps ih =>
      have one : (queuePart st p).2.any Part.isHeld = (st.2.any Part.isHeld || p.isHeld) := by
        unfold queuePart
        cases h : p.st <;> simp [Part.isHeld, h]
      rw [List.foldl_cons, ih, one, List.any_cons, Bool.or_assoc]
  exact all _

/-- Local requests that the tables grant are not refused (R134, R227). -/
theorem partsCheck_of_granted {e : Eng} {m : Fin 64} {ps : List Part}
    (granted : ∀ x ∈ ps, x.st = .issued → x.pos = e.hth.pos → e.mp.firstHole x.addr x.bytes = none ∧
      e.acc.firstDenied 3 m true false x.addr x.bytes = none) : e.partsCheck m ps = (e, true) := by
  unfold Eng.partsCheck
  induction ps with
  | nil => rfl
  | cons p ps ih =>
    obtain ⟨first, others⟩ := List.forall_mem_cons.mp granted
    rw [List.foldl_cons]
    dsimp only
    split
    · next here =>
      simp only [Bool.true_and, Bool.and_eq_true, beq_iff_eq] at here
      obtain ⟨hole, tables⟩ := first here.1 here.2
      rw [check_of_granted (fun _ => hole) tables]
      exact ih others
    · exact ih others

/-- An element holds at most the sectors of its requests (R139). -/
theorem slots_le (x : Elem) : x.slots ≤ (x.parts.map fun p => p.sectors.length).sum :=
  (List.filter_sublist.map _).sum_le_sum fun _ _ => Nat.zero_le _

end Sys2Proof.Machine
end

section
/-! SUPPORT. What INDEX_RESOLVE makes of one index of a GLEAN without bags, weights and an output (R128, R132, R134, R135). -/

namespace Sys2Proof.Machine

open Sys2Proof

/-- An index that was read, before it is known what it addresses. -/
def newElem (g : Glean) (gl : Fin 64) (v : Nat) : Elem :=
  { pos := g.next, bag := g.bag, val := BitVec.ofNat 64 v, row := 0, weight := 0, outc := 0, parts := [], resolved := true, gl := gl,
    redo := false }

/-- What resolution makes of index `v`, dealt to gleaner `gl`, of a GLEAN without weights. -/
def Eng.routed (e : Eng) (g : Glean) (gl : Fin 64) (v : Nat) : Eng × Glean × Bool :=
  if g.skip.contains g.next then (e.countGln 5 1, g.push { newElem g gl v with outc := 4 }, true)
  else match g.index v with
    | .pad => (e.countGln 5 1, g.push { newElem g gl v with outc := 1 }, true)
    | .masked => (e.countGln 5 1, g.push { newElem g gl v with outc := 2 }, true)
    | .fault => (e.countGln 5 1, g.faultAt g.next (BitVec.ofNat 64 v) 0x01, false)
    | .row row =>
      let (ps, f) := e.gleanParts g row
      match f with
      | some c => (e.countGln 5 1, g.faultAt g.next (BitVec.ofNat 64 v) c, false)
      | none =>
        let x := { newElem g gl v with row := row, weight := 0x3F800000, parts := ps, resolved := false }
        if decide (2048 < e.slotsAt gl + x.slots) || e.partsWait ps then (e, g, false)
        else match e.partsCheck g.h.master ps with
          | (e, false) => (e.countGln 5 1, g.faultAt g.next (BitVec.ofNat 64 v) 0x04, false)
          | (e, true) =>
            let (e, ps) := e.enterQueue ps
            let x := Elem.settle { x with parts := ps }
            ((if x.resolved then e.countGln 5 1 else e).issueElem g x, g.push x, true)

/-- Between `e` and `e'` an index was read and its position dealt. -/
def Eng.IndexRead (e e' : Eng) : Prop := ∃ p n, e.mp.ReadOf p ∧ e' = { e with mp := p, gln := { e.gln with nextGl := n } }

section

variable {e : Eng} {g : Glean} {gl : Fin 64} {v : Nat}

/-! ### What was read -/

theorem Eng.IndexRead.gathers {e e' : Eng} (h : e.IndexRead e') : e.Gathers e' := by
  obtain ⟨p, n, -, rfl⟩ := h
  exact ⟨rfl, rfl⟩

/-- The next index of a plain GLEAN is read, and its group dealt to a gleaner (R128, R140). -/
theorem resolve1_of_read (bags : g.bags = false) (wts : g.wts = false) (fault : g.fault = none) (iFault : g.iFault = none)
    (more : g.next < (strOf g.idxD).rows) (dealt : e.gleaner g g.next = some gl) (plain : g.fixed g.next = none)
    (within : e.wideOk g.h.master true false ((strOf g.idxD).addr g.next) (strOf g.idxD).item)
    (good : e.answer ((strOf g.idxD).addr g.next) (strOf g.idxD).item .ok = .ok)
    (hv : v = leNat (e.rdDev true ((strOf g.idxD).addr g.next) (strOf g.idxD).item)) {ds : List (Nat × Fin 64)}
    (hds : ds = if (g.dealt g.next).isSome then g.deals else (g.next / 16, gl) :: g.deals) : ∃ e1, e.IndexRead e1 ∧
    e.resolve1 g .ok = e1.routed { g with bag := g.next, total := some (strOf g.idxD).rows, deals := ds } gl v := by
  let g1 : Glean := { g with bag := g.next, total := some (strOf g.idxD).rows }
  let g2 : Glean := { g1 with deals := ds }
  obtain ⟨n, deal⟩ : ∃ n, e.deal g1 g.next gl = (e.onGln fun q => { q with nextGl := n }, g2) := by
    unfold Eng.deal
    rw [show g1.dealt g.next = g.dealt g.next from rfl]
    by_cases old : (g.dealt g.next).isSome = true
    · rw [if_pos old] at hds ⊢
      exact ⟨e.gln.nextGl, by unfold g2; rw [hds]; rfl⟩
    · rw [if_neg old] at hds ⊢
      exact ⟨_, by unfold g2; rw [hds]⟩
  let e1 : Eng := e.onGln fun q => { q with nextGl := n }
  obtain ⟨p, readOf, read⟩ := readItem_of_ok (e := e1) (m := g.h.master) (s := strOf g.idxD) (i := g.next) within good
  refine ⟨{ e1 with mp := p }, ⟨p, n, readOf, rfl⟩, ?_⟩
  have opened : e.openBag (g.nBags + 2) g .ok = (e, g1) := by
    rw [Eng.openBag, if_pos (by rw [bags]; rfl)]
  have going : (g1.fault.isSome || g1.iFault.isSome || g1.total == some g1.next) = false := by
    show (g.fault.isSome || g.iFault.isSome || some (strOf g.idxD).rows == some g.next) = false
    simp [fault, iFault, more.ne']
  subst hv
  unfold Eng.resolve1
  rw [opened]
  dsimp only
  rw [going, if_neg Bool.false_ne_true]
  rw [show e.gleaner g1 g1.next = some gl from dealt]
  dsimp only
  rw [show e.deal g1 g1.next gl = _ from deal]
  dsimp only
  rw [show g2.fixed g1.next = none from plain]
  dsimp only
  rw [show Eng.readItem _ g2.h.master (strOf g2.idxD) g1.next .ok = _ from read]
  dsimp only
  rw [if_neg (show ¬ (g2.wts = true ∧ 0 = 0) by rw [show g2.wts = false from wts]; simp)]
  dsimp only
  rw [if_neg (by simp)]
  rfl

/-! ### What it makes of the index -/

/-- An index that is skipped, padding or masked asks for no row. -/
theorem routed_of_outcome {oc : Byte} (kind : (g.skip.contains g.next = true ∧ oc = 4) ∨
      (g.skip.contains g.next = false ∧ g.index v = .pad ∧ oc = 1) ∨ (g.skip.contains g.next = false ∧ g.index v = .masked ∧ oc = 2)) :
    e.routed g gl v = (e.countGln 5 1, g.push { newElem g gl v with outc := oc }, true) := by
  unfold Eng.routed
  rcases kind with ⟨skip, rfl⟩ | ⟨skip, pad, rfl⟩ | ⟨skip, masked, rfl⟩
  · rw [if_pos skip]
  · rw [skip, if_neg Bool.false_ne_true, pad]
  · rw [skip, if_neg Bool.false_ne_true, masked]

/-- An index out of range faults its position. -/
theorem routed_of_fault (skip : g.skip.contains g.next = false) (range : g.index v = .fault) (fault : g.fault = none) :
    e.routed g gl v = (e.countGln 5 1, { g with fault := some (g.next, BitVec.ofNat 64 v, 0x01) }, false) := by
  unfold Eng.routed
  rw [skip, if_neg Bool.false_ne_true, range]
  dsimp only
  unfold Glean.faultAt
  rw [fault]

/-- The requests of a row that has room and is granted enter the queues or go out. -/
theorem routed_of_row {row : Nat} {ps : List Part} (skip : g.skip.contains g.next = false) (range : g.index v = .row row)
    (parts : e.gleanParts g row = (ps, none)) (goes : e.partsWait ps = false)
    (room : e.slotsAt gl + (ps.map fun x => x.sectors.length).sum ≤ 2048)
    (granted : ∀ x ∈ ps, x.st = .issued → x.pos = e.hth.pos → e.mp.firstHole x.addr x.bytes = none ∧
      e.acc.firstDenied 3 g.h.master true false x.addr x.bytes = none) : ∃ e1, e.Gathers e1 ∧
    e.routed g gl v = (e1, g.push { newElem g gl v with
      row := row, weight := 0x3F800000, parts := (e.enterQueue ps).2, resolved := !ps.any Part.isHeld }, true) := by
  let x : Elem := { newElem g gl v with row := row, weight := 0x3F800000, parts := ps, resolved := false }
  let y : Elem := Elem.settle { x with parts := (e.enterQueue ps).2 }
  have settled : y = { newElem g gl v with
      row := row, weight := 0x3F800000, parts := (e.enterQueue ps).2, resolved := !ps.any Part.isHeld } := by
    unfold y Elem.settle
    dsimp only
    rw [any_isHeld_enterQueue]
    rfl
  have full : (decide (2048 < e.slotsAt gl + x.slots) || e.partsWait ps) = false := by
    have := slots_le x
    rw [goes, Bool.or_false, decide_eq_false_iff_not, not_lt]
    exact le_trans (Nat.add_le_add_left this _) room
  rw [← settled]
  refine ⟨(if y.resolved then (e.enterQueue ps).1.countGln 5 1 else (e.enterQueue ps).1).issueElem g y, ?_, ?_⟩
  · refine (gathers_enterQueue e ps).trans (Eng.Gathers.trans ?_ (gathers_issueElem _ _ _))
    split
    · exact gathers_countGln _ _ _
    · exact .refl _
  · unfold Eng.routed
    rw [skip, if_neg Bool.false_ne_true, range]
    dsimp only
    rw [parts]
    dsimp only
    rw [show (decide (2048 < e.slotsAt gl + Elem.slots _) || e.partsWait ps) = false from full, if_neg Bool.false_ne_true,
      partsCheck_of_granted granted]

end

/-! ### The row INDEX_RESOLVE -/

/-- A GLEAN without an output writes nothing. -/
theorem plainOut_of_quiet {g : Glean} (quiet : g.out = false) (e : Eng) (wrs : List ReadRes) (n : Nat) :
    e.plainOut g wrs n = (e, g) := by
  cases n with
  | zero => rfl
  | succ n =>
    unfold Eng.plainOut
    rw [quiet, if_neg Bool.false_ne_true]

/-- No request of the GLEAN is due: none is routed first. -/
theorem rerouteDue_of_none {e : Eng} {k : Key} (none : (e.gln.queued (·.due)).filter (·.1 == k) = []) : e.rerouteDue k = e := by
  unfold Eng.rerouteDue
  rw [none]
  rfl

/-- One position of a GLEAN without an output is resolved. -/
theorem indexResolve_of_one {e : Eng} {k : Key} {g : Glean} (none : (e.gln.queued (·.due)).filter (·.1 == k) = [])
    (found : e.glean k = some g) (goes : e.gleanGo g = true) (redo : g.redo = []) {e1 : Eng} {g1 : Glean} {b : Bool}
    (one : e.resolve1 g .ok = (e1, g1, b)) (quiet : g1.out = false) : e.indexResolve k 1 .ok [] = e1.setGlean g1 := by
  have all : e.resolveN g .ok 1 = (e1, g1) := by
    rw [Eng.resolveN, redo]
    dsimp only
    rw [if_pos (show ([] : List (Nat × Nat × Nat)).isEmpty = true from rfl), if_pos rfl, one]
    cases b <;> rfl
  unfold Eng.indexResolve
  rw [rerouteDue_of_none none]
  dsimp only
  rw [found]
  dsimp only
  rw [goes, if_neg (by decide), all]
  dsimp only
  rw [plainOut_of_quiet quiet]

end Sys2Proof.Machine
end

section
/-! SUPPORT. A request's return and the row it lets out (R131, R135, R136), and the retry limit (R141). -/

namespace Sys2Proof.Machine

open Sys2Proof

/-! ### A request's return (R135, R136) -/

section

variable {e : Eng} {k : Key} {g : Glean} {pos i : Nat} {x : Elem} {p : Part}
  (due : (e.gln.queued (·.due)).filter (·.1 == k) = []) (found : e.glean k = some g) (goes : e.gleanGo g = true)
  (part : g.part pos i = some (x, p)) (issued : p.st = .issued) (here : p.pos = e.hth.pos)

include due found goes part issued here

/-- The bytes of a local request join its element, and rows that became writable are written. -/
theorem sectorReturn_of_ok {r : ReadRes} (good : e.answer p.addr p.bytes r = .ok) {g1 g2 : Glean} {e2 : Eng} {wrs : List ReadRes}
    (hg : g1 = g.setPart pos i fun q => { q with st := .got (e.rdDev false p.addr p.bytes) })
    (written : (e.answered p.addr p.bytes).plainOut g1 wrs (g1.elems.length + 1) = (e2, g2)) :
    e.sectorReturn k pos i r wrs = e2.setGlean g2 := by
  subst hg
  unfold Eng.sectorReturn
  rw [rerouteDue_of_none due]
  dsimp only
  rw [found]
  dsimp only
  rw [goes, if_neg (by decide), part]
  dsimp only
  rw [if_neg (by simp [issued, here]), good, if_pos rfl]
  dsimp only
  rw [show (e.answered p.addr p.bytes).rdDev false p.addr p.bytes = e.rdDev false p.addr p.bytes from rfl, written]

/-- An uncorrectable request marks its element. -/
theorem sectorReturn_of_bad {r : ReadRes} (bad : e.answer p.addr p.bytes r ≠ .ok) {q : Eng × Glean}
    (hq : q = (e.answered p.addr p.bytes).elemUncorr (g.setPart pos i fun y => { y with st := .dead }) x (p.addr / 64 * 64))
    (quiet : q.2.out = false) (wrs : List ReadRes) : e.sectorReturn k pos i r wrs = q.1.setGlean q.2 := by
  subst hq
  unfold Eng.sectorReturn
  rw [rerouteDue_of_none due]
  dsimp only
  rw [found]
  dsimp only
  rw [goes, if_neg (by decide), part]
  dsimp only
  rw [if_neg (by simp [issued, here]), if_neg bad, plainOut_of_quiet quiet]

end

/-- An element that met an uncorrectable sector is marked, and was told of. -/
theorem elemUncorr_marks (e : Eng) (g : Glean) (x : Elem) (sa : Nat) :
    e.Told (e.elemUncorr g x sa).1 ∧ (e.elemUncorr g x sa).2.h = g.h ∧ (e.elemUncorr g x sa).2.out = g.out ∧
      x.pos ∈ (e.elemUncorr g x sa).2.told ∧ ∀ y ∈ (e.elemUncorr g x sa).2.elems, y.pos = x.pos → y.outc.getLsbD 5 = true := by
  have marked (y : Elem) (hy : y ∈ (g.setElem x.pos fun y => { y with outc := y.outc ||| 0x20 }).elems) (there : y.pos = x.pos) :
      y.outc.getLsbD 5 = true := by
    obtain ⟨w, _, rfl⟩ := List.mem_map.mp hy
    by_cases hw : (w.pos == x.pos) = true
    · rw [if_pos hw]
      simp
    · rw [if_neg hw] at there
      exact absurd (by simp [there]) hw
  unfold Eng.elemUncorr
  dsimp only
  split
  · next told => exact ⟨.refl e, rfl, rfl, List.contains_iff_mem.mp told, marked⟩
  · exact ⟨told_post .., rfl, rfl, List.mem_cons_self, marked⟩

/-! ### A row that is written out (R131, R135) -/

/-- A read that would be answered well is so when other sectors have been answered. -/
theorem answer_answered_of_ok {e : Eng} {a n : Nat} (good : e.answer a n .ok = .ok) (b m : Nat) :
    (e.answered b m).answer a n .ok = .ok := by
  have fewer {xs : List Nat} (keep : Nat → Bool) (clean : ¬ ((sectorsOf a n).any fun sa => xs.contains (sa / 64)) = true) :
      ¬ ((sectorsOf a n).any fun sa => (xs.filter keep).contains (sa / 64)) = true := by
    rw [Bool.not_eq_true, List.any_eq_false] at clean ⊢
    intro sa hsa within
    exact clean sa hsa (List.contains_iff_mem.mpr (List.mem_filter.mp (List.contains_iff_mem.mp within)).1)
  unfold Eng.answer at good ⊢
  split at good
  · cases good
  · next dead =>
    split at good
    · cases good
    · next cut =>
      exact (if_neg (fewer _ dead)).trans (if_neg (fewer _ cut))

/-- A write of a job writes its bytes, and leaves the gleaners. -/
theorem write_to_device (e : Eng) (w : Who) (a : Nat) (bs : List Byte) :
    (e.write w false a bs).dev = e.dev.wrN a bs ∧ (e.write w false a bs).gln = e.gln := by
  unfold Eng.write
  split
  · next empty =>
    rw [List.isEmpty_iff.mp empty]
    exact ⟨rfl, rfl⟩
  · exact ⟨rfl, rfl⟩

/-- The conversion counters are the card's alone. -/
theorem graded_leaves (e : Eng) (t : Option Nat) (c : Cnt) : (e.graded t c).dev = e.dev ∧ (e.graded t c).gln = e.gln := by
  unfold Eng.graded
  dsimp only
  split <;> exact ⟨rfl, rfl⟩

section

variable {e : Eng} {g : Glean} {x : Elem} {o : Str} {a : Nat} {bs : List Byte} (ho : o = strOf g.outD) (ha : a = o.addr x.pos)
  (hbs : bs = g.gathered x) (same : o.fw = if g.src then (strOf g.srcD).fw else (tabOf g.srcD).fw) (outc : x.outc = 0)
  (within : e.wideOk g.h.master false true a bs.length) (good : e.answer a bs.length .ok = .ok)
  (status : o.aux ≠ 0 → e.wideOk g.h.master false true (o.aux + x.pos) 1)

include ho ha hbs same outc within good status

/-- A row in its source's own format is written as it was gathered, with its outcome byte. -/
theorem plainRow_of_same : ∃ e1, e.plainRow g x .ok = (e1, 0) ∧ e1.gln = e.gln ∧
    e1.dev = if o.aux = 0 then e.dev.wrN a bs else (e.dev.wrN a bs).wrN (o.aux + x.pos) [0] := by
  let w1 := (e.graded none {}).write g.h.who false a bs
  have row : w1.dev = e.dev.wrN a bs ∧ w1.gln = e.gln := by
    obtain ⟨dev, gln⟩ := graded_leaves e none {}
    obtain ⟨wrote, kept⟩ := write_to_device (e.graded none {}) g.h.who a bs
    exact ⟨by rw [wrote, dev], kept.trans gln⟩
  refine ⟨if o.aux = 0 then w1 else w1.write g.h.who false (o.aux + x.pos) [0], ?_, ?_, ?_⟩
  · subst ho ha hbs
    have second : (if true = true ∧ (strOf g.outD).aux ≠ 0 then e.check 4 g.h.master false true ((strOf g.outD).aux + x.pos) 1
        else (e, true)) = (e, true) := by
      split
      · next aux => exact check_of_granted (fun _ => (status aux.2).1) (status aux.2).2
      · rfl
    unfold Eng.plainRow
    dsimp only
    rw [if_neg (show ¬ withheld x.outc = true by rw [outc]; decide), if_pos same]
    dsimp only
    rw [check_of_granted (fun _ => within.1) within.2]
    dsimp only
    rw [second]
    dsimp only
    rw [if_neg (by decide), if_neg (by rw [good]; decide), outc]
  · split
    · exact row.2
    · exact (write_to_device ..).2.trans row.2
  · split
    · exact row.1
    · rw [(write_to_device ..).1, row.1]

end

/-! ### The retry limit (R141) -/

/-- The request has waited in its queue as long as the limit. -/
def Part.expired (lim now : Nat) (p : Part) : Bool :=
  match p.st with
  | .held since _ => !p.due && decide (since.toNat + 1000 * lim ≤ now)
  | _ => false

/-- A GLEAN with the requests of a position that waited too long dead. -/
def Glean.expire (g : Glean) (pos lim now : Nat) : Glean :=
  g.setElem pos fun y => { y with parts := y.parts.map fun p => if p.expired lim now then { p with st := .dead } else p }

theorem retryLimitExpiry_of_expired {e : Eng} {k : Key} {g : Glean} (found : e.glean k = some g) {pos : Nat} {x : Elem}
    (there : g.elems.find? (·.pos == pos) = some x) (limit : e.gln.retryLimit.toNat ≠ 0)
    (late : ∃ p ∈ x.parts, p.expired e.gln.retryLimit.toNat e.hth.time.toNat = true) {e1 : Eng} {g1 : Glean}
    (he : e1 = e.onGln fun q => { q with limitHit := true })
    (hg : g1 = g.expire pos e.gln.retryLimit.toNat e.hth.time.toNat) :
    e.retryLimitExpiry k pos = if x.resolved then e1.setGlean (g1.setElem pos fun y => { y with outc := y.outc ||| 0x10 })
      else (e1.countGln 5 1).setGlean ((g1.setElem pos fun y => { y with resolved := true }).faultAt pos x.val 0x05) := by
  subst he hg
  have any : x.parts.any (Part.expired e.gln.retryLimit.toNat e.hth.time.toNat) = true := List.any_eq_true.mpr late
  unfold Eng.retryLimitExpiry
  rw [found]
  dsimp only
  rw [there]
  dsimp only
  rw [if_neg (by
    rintro (zero | none)
    · exact limit zero
    · exact none any)]
  rfl

end Sys2Proof.Machine
end

section
/-! O36. An index is resolved, a request is answered, and one that waited too long is given up (R128, R132, R134 to R136, R141). -/

namespace Sys2Proof.Machine

open Sys2Proof

/-! ### The one row of a plain GLEAN -/

theorem setPart_of_one {g : Glean} {pos i : Nat} {x : Elem} {p : Part} (found : g.part pos i = some (x, p)) (elems : g.elems = [x])
    (parts : x.parts = [p]) (f : Part → Part) : (g.setPart pos i f).elems = [{ x with parts := [f p] }] := by
  have id : p.id = i := by
    obtain ⟨y, _, part⟩ := Option.bind_eq_some_iff.mp found
    obtain ⟨q, within, eq⟩ := Option.map_eq_some_iff.mp part
    cases eq
    simpa using List.find?_some within
  unfold Glean.setPart
  simp [elems, parts, id, pos_of_part found]

/-- A resolved element whose requests were answered is handed over: nothing below it is unresolved (R135). -/
theorem isReady_of_one {g : Glean} {y : Elem} (elems : g.elems = [y]) (done : y.done = true) (resolved : y.resolved = true)
    (below : y.pos < g.next) (fault : g.fault = none) (iFault : g.iFault = none) : g.isReady y = true := by
  unfold Glean.isReady Glean.frontier
  simp [elems, done, resolved, below, fault, iFault]

/-- The only element of a plain GLEAN, handed over without an outcome, leaves no element and no flag. -/
theorem take_of_one {g : Glean} {y : Elem} (elems : g.elems = [y]) (outc : y.outc = 0) :
    (g.take y).elems = [] ∧ (g.take y).flags = g.flags := by
  unfold Glean.take
  dsimp only
  rw [elems, outc, show outFlags 0 = 0 from rfl]
  simp

theorem plainOut_of_one {e e1 : Eng} {g : Glean} {y : Elem} (out : g.out = true) (elems : g.elems = [y]) (ready : g.isReady y = true)
    (row : e.plainRow g y .ok = (e1, 0)) (outc : y.outc = 0) : e.plainOut g [] (g.elems.length + 1) = (e1, g.take y) := by
  have last : e1.plainOut (g.take y) [] 1 = (e1, g.take y) := by
    unfold Eng.plainOut
    simp [take_of_one elems outc]
  rw [elems]
  show e.plainOut g [] 2 = _
  unfold Eng.plainOut
  rw [if_pos out, elems, List.head?_cons, Option.filter_some, if_pos ready]
  dsimp only
  rw [show e.plainRow g y (([] : List ReadRes).headD .ok) = _ from row]
  exact last

section

variable {e : Eng} {k : Key} {g : Glean} {pos i : Nat} {x y : Elem} {p : Part} {o : Str} {a : Nat} {bs : List Byte}
  (due : (e.gln.queued (·.due)).filter (·.1 == k) = []) (found : e.glean k = some g) (goes : e.gleanGo g = true)
  (part : g.part pos i = some (x, p)) (issued : p.st = .issued) (here : p.pos = e.hth.pos) (came : e.answer p.addr p.bytes .ok = .ok)
  (out : g.out = true) (elems : g.elems = [x]) (parts : x.parts = [p]) (resolved : x.resolved = true) (outc : x.outc = 0)
  (below : x.pos < g.next) (fault : g.fault = none) (iFault : g.iFault = none)
  (hy : y = { x with parts := [{ p with st := .got (e.rdDev false p.addr p.bytes) }] })
  (ho : o = strOf g.outD) (ha : a = o.addr x.pos) (hbs : bs = g.gathered y)
  (same : o.fw = if g.src then (strOf g.srcD).fw else (tabOf g.srcD).fw) (within : e.wideOk g.h.master false true a bs.length)
  (good : e.answer a bs.length .ok = .ok) (status : o.aux ≠ 0 → e.wideOk g.h.master false true (o.aux + x.pos) 1)

include due found goes part issued here came out elems parts resolved outc below fault iFault hy ho ha hbs same within good status

/-- The bytes of a plain GLEAN's last request come, and its one row is written (R131, R135). -/
theorem sectorReturn_delivers : ∃ (e1 : Eng) (h : Glean), e.sectorReturn k pos i .ok [] = e1.setGlean h ∧ e1.gln = e.gln ∧ h.h = g.h ∧
    h.elems = [] ∧ h.flags = g.flags ∧
    e1.dev = if o.aux = 0 then e.dev.wrN a bs else (e.dev.wrN a bs).wrN (o.aux + x.pos) [0] := by
  let g1 : Glean := g.setPart pos i fun q => { q with st := .got (e.rdDev false p.addr p.bytes) }
  have one : g1.elems = [y] := by
    rw [hy]
    exact setPart_of_one part elems parts _
  have there : y.pos = x.pos := by rw [hy]
  have clean : y.outc = 0 := by rw [hy]; exact outc
  have ready : g1.isReady y = true := by
    refine isReady_of_one one ?_ ?_ (by rw [there]; exact below) fault iFault
    · rw [hy]; rfl
    · rw [hy]; exact resolved
  obtain ⟨e1, row, gln, dev⟩ := plainRow_of_same (e := e.answered p.addr p.bytes) (g := g1) (x := y) ho (by rw [there]; exact ha) hbs
    same clean within (answer_answered_of_ok good _ _) (by rw [there]; exact status)
  obtain ⟨none, flags⟩ := take_of_one one clean
  exact ⟨e1, g1.take y, sectorReturn_of_ok due found goes part issued here came rfl
    (plainOut_of_one (g := g1) out one ready row clean), gln, rfl, none, flags, by rw [dev, there]; rfl⟩

end

/-! ### The statement -/

/-- What a row asks for does not depend on the index that was read. -/
theorem Eng.IndexRead.routed_of_row {e e1 : Eng} (read : e.IndexRead e1) {g : Glean} {gl : Fin 64} {v row : Nat} {ps : List Part}
    (skip : g.skip.contains g.next = false) (range : g.index v = .row row) (parts : e.gleanParts g row = (ps, none))
    (goes : e.partsWait ps = false) (room : e.slotsAt gl + (ps.map fun x => x.sectors.length).sum ≤ 2048)
    (granted : ∀ x ∈ ps, x.st = .issued → x.pos = e.hth.pos → e.mp.firstHole x.addr x.bytes = none ∧
      e.acc.firstDenied 3 g.h.master true false x.addr x.bytes = none) : ∃ e2, e1.Gathers e2 ∧
    e1.routed g gl v = (e2, g.push { newElem g gl v with
      row := row, weight := 0x3F800000, parts := (e.enterQueue ps).2, resolved := !ps.any Part.isHeld }, true) := by
  obtain ⟨q, n, ⟨c, ctrs, dead, cut, rfl⟩, rfl⟩ := read
  exact Machine.routed_of_row skip range parts goes room granted

section

variable {s : State} {k : Key} {g : Glean} {gl : Fin 64} {v : Nat} {ds : List (Nat × Fin 64)} (runs : s.runs = true)
  (due : (s.eng.gln.queued (·.due)).filter (·.1 == k) = []) (found : s.eng.glean k = some g) (goes : s.eng.gleanGo g = true)
  (quiet : g.out = false) (redo : g.redo = [])

include runs due found goes quiet redo

/-- A row that resolves one position leaves the GLEAN with what resolution made of it. -/
theorem exec_indexResolve_of_one {e1 : Eng} {g1 : Glean} {b : Bool} (one : s.eng.resolve1 g .ok = (e1, g1, b))
    (gathers : s.eng.Gathers e1) (kept : g1.h = g.h) (out : g1.out = g.out) : ∃ t, exec (.indexResolve k 1 .ok []) s = .next t ∧
      t.eng.glean k = some g1 ∧ t.eng.dev = s.eng.dev :=
  ⟨_, next_live (f := fun e => e.indexResolve k 1 .ok []) runs (indexResolve_of_one due found goes redo one (out.trans quiet)),
    glean_setGlean ((gathers.glean k).trans found) (by rw [kept]), gathers.dev⟩

end

/-- An element that is lost is marked so (R136, R141). -/
theorem lost_of_setElem (g : Glean) (pos : Nat) : ∀ y ∈ (g.setElem pos fun y => { y with outc := y.outc ||| 0x10 }).elems,
    y.pos = pos → y.outc.getLsbD 4 = true := by
  intro y hy there
  obtain ⟨w, _, rfl⟩ := List.mem_map.mp hy
  by_cases hw : (w.pos == pos) = true
  · rw [if_pos hw]
    simp
  · rw [if_neg hw] at there
    exact absurd (by simp [there]) hw

theorem head_faultAt (g : Glean) (p : Nat) (v : W64) (c : Byte) : (g.faultAt p v c).h = g.h := by
  unfold Glean.faultAt
  split
  · split <;> rfl
  · rfl

/-- Settles O36: each row by the rule of its step, on a GLEAN whose queue holds nothing due. -/
theorem gatheringResolvesAndDelivers : Obligations.GatheringResolvesAndDelivers := by
  unfold Obligations.GatheringResolvesAndDelivers
  intro s k g runs found due
  refine ⟨fun p v gl ix el ds goes bags wts quiet redo fault iFault hp hix more dealt plain hds within good hv hel => ?_,
    fun pos i x p goes part issued here => ⟨fun quiet good => ?_, fun quiet bad => ?_,
      fun o a y bs out elems parts resolved _ outc below fault iFault ho ha same came hy hbs within good status => ?_⟩,
    fun pos x lim there hlim limit late => ?_⟩
  · subst hp hix hel
    obtain ⟨e1, read, resolve⟩ := resolve1_of_read bags wts fault iFault more dealt plain within good hv hds
    have resolves {e2 : Eng} {g2 : Glean} {b : Bool} (routed : e1.routed { g with
        bag := g.next, total := some (strOf g.idxD).rows, deals := ds } gl v = (e2, g2, b)) (gathers : e1.Gathers e2) :=
      exec_indexResolve_of_one runs due found goes quiet redo (resolve.trans routed) (read.gathers.trans gathers)
    refine ⟨fun oc kind => ?_, fun skip range => ?_, fun row ps skip range asks free room granted => ?_⟩
    · exact resolves (routed_of_outcome kind) (gathers_countGln _ _ _) rfl rfl
    · obtain ⟨t, next, glean, _⟩ := resolves (routed_of_fault skip range fault) (gathers_countGln _ _ _) rfl rfl
      exact ⟨t, next, glean⟩
    · obtain ⟨e2, gathers, routed⟩ := read.routed_of_row (g := { g with
        bag := g.next, total := some (strOf g.idxD).rows, deals := ds }) skip range asks free room granted
      exact resolves routed gathers rfl rfl
  · exact ⟨_, next_live (f := fun e => e.sectorReturn k pos i .ok []) runs
        (sectorReturn_of_ok due found goes part issued here good rfl (plainOut_of_quiet (g := Glean.setPart _ _ _ _) quiet _ _ _)),
      glean_setGlean found rfl, rfl⟩
  · obtain ⟨told, head, out, within, marked⟩ := elemUncorr_marks (s.eng.answered p.addr p.bytes)
      (g.setPart pos i fun y => { y with st := .dead }) x (p.addr / 64 * 64)
    rw [pos_of_part part] at within marked
    exact ⟨_, _, next_live (f := fun e => e.sectorReturn k pos i .uncorr []) runs
        (sectorReturn_of_bad due found goes part issued here bad rfl (out.trans quiet) []),
      glean_setGlean (by unfold Eng.glean; rw [told.gln]; exact found) (by rw [head]; rfl), within, marked⟩
  · obtain ⟨e1, h, deliver, gln, head, none, flags, dev⟩ := sectorReturn_delivers due found goes part issued here came out elems parts
      resolved outc below fault iFault hy ho ha hbs same within good status
    exact ⟨_, h, next_live (f := fun e => e.sectorReturn k pos i .ok []) runs deliver,
      glean_setGlean (by unfold Eng.glean; rw [gln]; exact found) (by rw [head]), none, flags, dev⟩
  · subst hlim
    have expired : ∃ p ∈ x.parts, p.expired s.eng.gln.retryLimit.toNat s.eng.hth.time.toNat = true := by
      obtain ⟨p, hp, u, o, due, held, waited⟩ := late
      exact ⟨p, hp, by unfold Part.expired; simp [held, due, waited]⟩
    have expires := retryLimitExpiry_of_expired found there limit expired rfl rfl
    by_cases resolved : x.resolved = true
    · rw [if_pos resolved] at expires
      refine ⟨_, _, next_live (f := fun e => e.retryLimitExpiry k pos) runs expires, rfl, glean_setGlean found rfl, rfl,
        fun _ => ⟨rfl, lost_of_setElem _ pos⟩, fun open_ => absurd (resolved.symm.trans open_) (by decide)⟩
    · rw [if_neg resolved] at expires
      refine ⟨_, _, next_live (f := fun e => e.retryLimitExpiry k pos) runs expires, rfl,
        glean_setGlean found (by rw [head_faultAt]; rfl), rfl, fun done => absurd done resolved, fun _ fault => ?_⟩
      unfold Glean.faultAt
      rw [show (Glean.setElem (g.expire _ _ _) _ _).fault = g.fault from rfl, fault]

end Sys2Proof.Machine
end
